-- ==== Sys2Proof/Word.lean ====
section
/-! DEFINITION. The word types of the Hexmer instruction set and their plainest arithmetic (R7, R8, R48, R58). -/

namespace Sys2Proof

/-- A general register's 64 bits (R48). -/
abbrev Word := BitVec 64
/-- A byte of memory (R8). -/
abbrev Byte := BitVec 8
/-- An instruction word (R8, R58). -/
abbrev Insn := BitVec 32
/-- A vector register's 512 bits (R48). -/
abbrev Vec := BitVec 512
/-- The number of a g register in an instruction word (R59). -/
abbrev GReg := BitVec 5
/-- The number of a v register in an instruction word (R59). -/
abbrev VReg := BitVec 5
/-- The number of a predicate in an instruction word (R59). -/
abbrev PReg := BitVec 3

/-- Bits [hi:lo] of a number (R7). -/
def bitsOf (x hi lo : Nat) : Nat := (x / 2 ^ lo) % 2 ^ (hi + 1 - lo)

/-- Bit n of a number. -/
def bitOf (x n : Nat) : Bool := (x / 2 ^ n) % 2 == 1

/-- The low w bits of x read as two's complement (SignExtend of R83). -/
def signedOf (w x : Nat) : Int :=
  if x % 2 ^ w < 2 ^ (w - 1) then ((x % 2 ^ w : Nat) : Int) else ((x % 2 ^ w : Nat) : Int) - (2 ^ w : Nat)

/-- An integer cut to w bits (the slice [w-1:0] of R83). -/
def cutTo (w : Nat) (i : Int) : Nat := (i % ((2 ^ w : Nat) : Int)).toNat

/-- Ceiling of a quotient; 0 for a zero divisor. -/
def ceilDiv (a b : Nat) : Nat := if b = 0 then 0 else (a + b - 1) / b

end Sys2Proof
end

