-- ==== Sys2Proof/Fields.lean ====
section
/-! DEFINITION. The values the fields of an instruction word can take, as types (R59 to R72): predicates, element types,
group widths, sizes, qualifiers and the field values of the class chapters, with the plain properties the spec's tables
give each value. The field codes stand in Sys2Proof/Decode.lean. -/

namespace Sys2Proof

/-- The predicate prefix: register number P and sense PN (R60). -/
structure Pred where
  p : PReg
  neg : Bool
  deriving DecidableEq, Repr

/-- The element types of Table 2.4 (R64). -/
inductive ElemTy
  | i8 | n8 | i16 | n16 | i32 | n32 | i64 | n64 | f32 | f16 | bf16 | e4m3 | e5m2 | q8 | q4 | auto
  deriving DecidableEq, Repr

/-- Bits of one element (Table 2.4); 0 for auto, which has no width of its own. -/
def ElemTy.bits : ElemTy → Nat
  | .i8 | .n8 | .e4m3 | .e5m2 | .q8 => 8
  | .i16 | .n16 | .f16 | .bf16 => 16
  | .i32 | .n32 | .f32 => 32
  | .i64 | .n64 => 64
  | .q4 => 4
  | .auto => 0

/-- Signed integer types are the even ones of Table 3.1 (R85). -/
def ElemTy.isSigned : ElemTy → Bool
  | .i8 | .i16 | .i32 | .i64 => true
  | _ => false

/-- The integer types of Table 3.1. -/
def ElemTy.isInt : ElemTy → Bool
  | .i8 | .n8 | .i16 | .n16 | .i32 | .n32 | .i64 | .n64 => true
  | _ => false

/-- The floating types of Table 3.2. -/
def ElemTy.isFloat : ElemTy → Bool
  | .f32 | .f16 | .bf16 | .e4m3 | .e5m2 => true
  | _ => false

/-- Group width W (R63). -/
inductive Grp | single | pair | quad | octet
  deriving DecidableEq, Repr

/-- The number of registers g = 1 << W (R133). -/
def Grp.regs : Grp → Nat
  | .single => 1 | .pair => 2 | .quad => 4 | .octet => 8

/-- Access size SZ of the S format (R65). -/
inductive Size | b | h | w | d
  deriving DecidableEq, Repr

/-- Bytes of an access (R65). -/
def Size.bytes : Size → Nat
  | .b => 1 | .h => 2 | .w => 4 | .d => 8

/-- Memory qualifier Q (R66): plain; acquire or release; wait-full or set-full; wait-full-then-clear or
wait-empty-then-set-full. -/
inductive Qual | plain | order | full | exchange
  deriving DecidableEq, Repr

/-- The relation of `cmpi`, D[4:3] (R69, R117). -/
inductive Rel | eq | lt | ltu | ne
  deriving DecidableEq, Repr

/-- The width literal of `sext` and `zext` (R111). -/
inductive ExtWidth | w8 | w16 | w32
  deriving DecidableEq, Repr

/-- Bits of the width (R111). -/
def ExtWidth.bits : ExtWidth → Nat
  | .w8 => 8 | .w16 => 16 | .w32 => 32

/-- The mode literal of `vrndi` (R137): a fixed mode, or the dynamic one for 4. -/
inductive RndSel | rne | rtz | rdn | rup | dyn
  deriving DecidableEq, Repr

/-- The operations of Table 13.2 and Table 11.7. -/
inductive FopOp | add | and | or | xor | min | max | minu | maxu | swap | faddTs
  deriving DecidableEq, Repr

/-- Operand size of `fop`, `cas` and `rcas`: .w or .d. -/
inductive OpSize | w | d
  deriving DecidableEq, Repr

/-- Bytes of the operand. -/
def OpSize.bytes : OpSize → Nat
  | .w => 4 | .d => 8

/-- SHAPE of `mma` (Table 2.5). -/
inductive Shape | sq | skinny | bd8
  deriving DecidableEq, Repr

/-- FMTA of `mma` (Table 2.5). -/
inductive FmtA | bf16 | f16 | e4m3 | e5m2 | q8 | f32
  deriving DecidableEq, Repr

/-- FMTB of `mma` (Table 2.5). -/
inductive FmtB | bf16 | f16 | e4m3 | e5m2 | q8 | q4 | f32 | tc2 | tc3 | tc4
  deriving DecidableEq, Repr

/-- The trellis formats tc2, tc3 and tc4. -/
def FmtB.isTrellis : FmtB → Bool
  | .tc2 | .tc3 | .tc4 => true
  | _ => false

/-- The shape and format pairs of Table 2.6 (R72). -/
def pairPermitted : Shape → FmtA → FmtB → Bool
  | .sq, .bf16, b => b == .bf16 || b.isTrellis
  | .sq, .f16, b => b == .f16
  | .sq, .e4m3, b => b == .e4m3 || b == .e5m2 || b.isTrellis
  | .sq, .e5m2, b => b == .e4m3 || b == .e5m2
  | .sq, .q8, b => b == .q8 || b == .q4
  | .sq, .f32, b => b == .f32
  | .skinny, .bf16, b | .skinny, .e4m3, b => b.isTrellis
  | .skinny, _, _ => false
  | .bd8, .bf16, b => b == .bf16
  | .bd8, .f16, b => b == .f16
  | .bd8, .f32, b => b == .f32
  | .bd8, _, _ => false

/-- The format of `accst` and `accld`, X[9:8] (R260). -/
inductive AccFmt | f32 | bf16 | f16
  deriving DecidableEq, Repr

/-- The scope of `fence`, X[10:8] (R70). -/
inductive Scope | thread | core | rect | device | domain
  deriving DecidableEq, Repr

/-- SZ of `rget` and `rput`, X[7:5] (Table 11.5). -/
inductive RemSize | b | h | w | d | v
  deriving DecidableEq, Repr

/-- Bytes moved (Table 11.5; the v form moves a register). -/
def RemSize.bytes : RemSize → Nat
  | .b => 1 | .h => 2 | .w => 4 | .d => 8 | .v => 64

/-- The shape of `rfop`, X[10:9] (Table 11.7). -/
inductive RfopShape | w | d | v16 | v64
  deriving DecidableEq, Repr

/-- Bytes moved by a shape (Table 11.7). -/
def RfopShape.bytes : RfopShape → Nat
  | .w => 4 | .d => 8 | .v16 => 16 | .v64 => 64

/-- Bits of one lane of a shape (Table 11.7). -/
def RfopShape.laneBits : RfopShape → Nat
  | .d => 64
  | _ => 32

/-- The assigned control-register numbers of Table 2.2 (R55). -/
def csrAssigned (n : Nat) : Bool :=
  (1 ≤ n && n ≤ 7) || (0x10 ≤ n && n ≤ 0x12) || (0x20 ≤ n && n ≤ 0x22) || (0x400 ≤ n && n ≤ 0x406)
  || (0x410 ≤ n && n ≤ 0x427) || (0x430 ≤ n && n ≤ 0x433) || (0x440 ≤ n && n ≤ 0x444) || n == 0x450 || n == 0x460

/-- The element count G of a q record named by W (R101): 32, 64, 128. -/
def qGroup : Nat → Nat
  | 0 => 32 | 1 => 64 | _ => 128

/-- The registers g′ that a record of G elements takes (Table 3.7). -/
def qRegs (q4 : Bool) (G : Nat) : Nat :=
  if q4 then (if G = 128 then 2 else 1) else (if G = 32 then 1 else if G = 64 then 2 else 4)

end Sys2Proof
end

