-- ==== Sys2Proof/Messages.lean ====
section
/-! DEFINITION. What travels between the agents of the device, as plain data: requests and where their replies go (R301,
R302, R315), flits of the mesh (R20), task records (R223), and the arguments of the device events that carry data. -/

namespace Sys2Proof

/-- Where an answer is written in a thread: nowhere, a g register, a handler register, or a group of v registers. -/
inductive Dest
  | none
  | g (n : Nat)
  | hg (n : Nat)
  | v (n count : Nat)
  deriving DecidableEq, Repr

/-- Where the answer of a request goes. -/
inductive RetPath
  /-- No answer is awaited. -/
  | none
  /-- An outstanding access of a thread, by its serial in that thread's list (R309). -/
  | thread (core thr id : Nat)
  /-- A combining record of the router that combined the request (R349, R351). -/
  | pair (id : Nat)
  /-- A stream channel or copy of a core, by channel and unit serial, for its access to off-stack memory or to its vault (R281). -/
  | engine (core chan id : Nat) (off : Bool)
  /-- The store of a trap record (R362). -/
  | record (core thr : Nat)
  /-- A launch record of the host, by its tag and context (R313). -/
  | host (ctx tag : Nat)
  /-- A thread of another device, by device and sequence number (R46). -/
  | device (dev seq : Nat)
  /-- A 64-byte block of a page move, by the core whose vault sends or receives it, the move and the block (R192). -/
  | copy (core move blk : Nat)
  /-- A thread's call of the helm, with the context it called for and the register it left empty (R370). -/
  | helm (core thr ctx : Nat) (d : Dest)
  /-- A part of the host's debug read (R384). -/
  | debug (i : Nat)
  deriving DecidableEq, Repr

/-- What a request asks of its home (R315, R322, R343, R230). -/
inductive ReqOp
  | get | put
  | fop (op : FopOp) (laneBits : Nat)
  | cas
  | amsg | msend | tfin
  deriving DecidableEq, Repr

/-- Where a request goes: a core's vault agent, an off-stack controller, or another device's core (R21, R46). -/
inductive Target
  | core (n : Nat)
  | off (ctrl : Nat)
  | device (dev core : Nat)
  deriving DecidableEq, Repr

/-- A request (R315): the sender (thread 4 is the network interface), the sender's context, the target, the operation, the
address (virtual for a core, physical for a controller), its bytes, the operand x and the second operand e. -/
structure Req where
  ret : RetPath
  ctx : Nat
  core : Nat
  thr : Nat
  target : Target
  op : ReqOp
  addr : Nat
  n : Nat
  x : Nat
  e : Nat
  deriving DecidableEq, Repr

/-- A range task (Table 7.9); LO and HI as 64-bit patterns. -/
structure TaskRec where
  pc : Nat
  flags : Nat
  grain : Nat
  lo : Nat
  hi : Nat
  arg0 : Nat
  arg1 : Nat
  blist : Nat
  join : Nat
  handle : Nat
  deriving DecidableEq, Repr

/-- A provisional hold of one router's egress link by a link commit (R211): the router, its egress direction (0 north,
1 east, 2 south, 3 west), the first tick and the number of ticks, for the booking core. -/
structure LinkHold where
  core : Nat
  node : Nat
  dir : Nat
  tick : Nat
  len : Nat
  deriving DecidableEq, Repr

/-- The request of a `seek` that an answer is for: its thread, and the core it was sent to (R229). -/
structure SeekAsked where
  thread : Nat
  victim : Nat
  deriving DecidableEq, Repr

/-- What one flit carries: a request, its reply or refusal; a steal request, a gift, a refusal of either and a gift's acknowledgement
(R228); a signal (R334); the termination token of a context, with its colour (R233); the holds that a link commit asks of the routers of a
route, and a router's answer (R211); a call of the helm (R370); a completion record on its way to the host (R389); bytes of a checkpoint for
another device (R391). -/
inductive Payload
  | request (r : Req)
  | reply (ret : RetPath) (value : Nat)
  | refusal (ret : RetPath) (reason : Nat)
  | steal (victim thief thr : Nat)
  | gift (thief thr victim : Nat) (g : TaskRec)
  | stealRefusal (thief thr victim : Nat)
  | giftAck (core : Nat)
  | signal (core ctx mask : Nat)
  | token (ctx : Nat) (black : Bool)
  | holds (hs : List LinkHold)
  | heldBy (core : Nat)
  | call (core thr ctx f a : Nat) (d : Dest)
  | bulk (dev addr : Nat) (bytes : List Byte)
  | completion (id : Nat)
  deriving DecidableEq, Repr

/-- The traffic classes a router serves outside booked ticks (R20). -/
inductive TrafficClass | control | openOp
  deriving DecidableEq, Repr

/-- Where a flit leaves the mesh: the local port of a router, or the edge port attached there (R18, R21). -/
inductive FlitEnd
  | core (n : Nat)
  | router (n : Nat)
  | off (ctrl : Nat)
  | host
  | helm
  | bumen (port : Nat)
  deriving DecidableEq, Repr

/-- A flit (R18, R20): its class, its sender (thread 4 is the network interface), where it leaves, and its payload. -/
structure Flit where
  cls : TrafficClass
  core : Nat
  thr : Nat
  dst : FlitEnd
  load : Payload
  deriving DecidableEq, Repr

/-- A launch that the target has accepted (R28, R312): its PC, arguments and context, and the host's tag if it came from BAR2. -/
structure Launch where
  pc : Nat
  arg0 : Nat
  arg1 : Nat
  ctx : Nat
  tag : Option Nat
  deriving DecidableEq, Repr

/-- The power states of a vault's DRAM layers (R171). -/
inductive LayerPower | active | gated | retention
  deriving DecidableEq, Repr

/-- One column's temperatures at a sample, in sixteenths of a degree: the logic die, DRAM layer 6 and DRAM layer 12
(R385, Table 14.1). -/
structure SensorReading where
  core : Nat
  logic : Int
  dram6 : Int
  dram12 : Int
  deriving DecidableEq, Repr

end Sys2Proof
end

