-- ==== Sys2Proof/Config.lean ====
section
/-! DEFINITION. What the spec leaves open and the model leaves free: constants without a body, so that nothing can be proved
of their values. A value that may differ each time is read at the counter State.fresh. -/

namespace Sys2Proof

/-- A delay the spec bounds by nothing: off-stack accesses, the helm, the Bumen fabric, the host (R34, R370). DESIGN CHOICE, log entry 18. -/
opaque Config.freeDelay : Nat → Nat

/-- Whether a fetched word that a store has changed runs with its new contents (R38). DESIGN CHOICE, log entry 64. -/
opaque Config.freePick : Nat → Bool

/-- A value of a register's width that the spec does not state. DESIGN CHOICE, log entry 16. -/
opaque Config.freeWord : Nat → Word

/-- The rounding of a special function where the model's bounds do not decide it, by function, operand and mode (R148). DESIGN CHOICE, log entry 17. -/
opaque Config.sfuRounded : Nat → Nat → Nat → Nat

/-- The device's Ed25519 secret key (R376). DESIGN CHOICE, log entry 65. -/
opaque Config.deviceKey : Nat

/-- The devices that link training finds in the domain, with the port towards each (R305). DEDUCED, log entry 61. -/
opaque Config.reachable : List (Nat × Nat)

/-- The bytes in which a context's creation parameters are hashed for its attestation report (R376). DESIGN CHOICE, log entry 65. -/
opaque Config.creationBytes : List Byte → List Byte

/-- What the boot ROM finds of an image: 2 verified, 3 signature rejected, 4 malformed (R395, Table 14.15). DESIGN CHOICE, log entry 65. -/
opaque Config.imageVerdict : List Byte → Nat

/-- How many flits beyond one the buffer of a traffic class at a router input holds (R20). DESIGN CHOICE, log entry 82. -/
opaque Config.inputDepth : Nat

/-- How many contexts beyond one the device has room for (R391). DESIGN CHOICE, log entry 86. -/
opaque Config.contextSlots : Nat

/-- Whether an access of the helm to host memory fails, by address and length (R391). DESIGN CHOICE, log entry 86. -/
opaque Config.hostFails : Nat → Nat → Bool

/-- The data and check lanes of a vault that the lane tests find faulty, by core (R395). DESIGN CHOICE, log entry 86. -/
opaque Config.laneTests : Nat → List Nat

end Sys2Proof
end

