-- ==== Sys2Proof/Syntax.lean ====
section
/-! DEFINITION. The instructions of the Hexmer set and the events of the device: one constructor for each row of the opcode
table. The first 211 are instruction words (Table 2.7), with the operand fields of their formats (R58, R59); the other 85
are the device's own events, which have no word, with the data each carries. -/

namespace Sys2Proof

/-- One row of the opcode table. -/
inductive Instr
  /-- `add` (R111). -/
  | add (d a b : GReg) (ea eb : Bool) (q : Pred)
  /-- `sub` (R111). -/
  | sub (d a b : GReg) (ea eb : Bool) (q : Pred)
  /-- `and` (R111). -/
  | and (d a b : GReg) (ea eb : Bool) (q : Pred)
  /-- `or` (R111). -/
  | or (d a b : GReg) (ea eb : Bool) (q : Pred)
  /-- `xor` (R111). -/
  | xor (d a b : GReg) (ea eb : Bool) (q : Pred)
  /-- `andn` (R111). -/
  | andn (d a b : GReg) (ea eb : Bool) (q : Pred)
  /-- `sll` (R111). -/
  | sll (d a b : GReg) (ea eb : Bool) (q : Pred)
  /-- `srl` (R111). -/
  | srl (d a b : GReg) (ea eb : Bool) (q : Pred)
  /-- `sra` (R111). -/
  | sra (d a b : GReg) (ea eb : Bool) (q : Pred)
  /-- `min` (R111). -/
  | min (d a b : GReg) (ea eb : Bool) (q : Pred)
  /-- `max` (R111). -/
  | max (d a b : GReg) (ea eb : Bool) (q : Pred)
  /-- `minu` (R111). -/
  | minu (d a b : GReg) (ea eb : Bool) (q : Pred)
  /-- `maxu` (R111). -/
  | maxu (d a b : GReg) (ea eb : Bool) (q : Pred)
  /-- `slt` (R111). -/
  | slt (d a b : GReg) (ea eb : Bool) (q : Pred)
  /-- `sltu` (R111). -/
  | sltu (d a b : GReg) (ea eb : Bool) (q : Pred)
  /-- `seq` (R111). -/
  | seq (d a b : GReg) (ea eb : Bool) (q : Pred)
  /-- `mul` (R111). -/
  | mul (d a b : GReg) (ea eb : Bool) (q : Pred)
  /-- `mulh` (R111). -/
  | mulh (d a b : GReg) (ea eb : Bool) (q : Pred)
  /-- `mulhu` (R111). -/
  | mulhu (d a b : GReg) (ea eb : Bool) (q : Pred)
  /-- `div` (R111). -/
  | div (d a b : GReg) (ea eb : Bool) (q : Pred)
  /-- `divu` (R111). -/
  | divu (d a b : GReg) (ea eb : Bool) (q : Pred)
  /-- `rem` (R111). -/
  | rem (d a b : GReg) (ea eb : Bool) (q : Pred)
  /-- `remu` (R111). -/
  | remu (d a b : GReg) (ea eb : Bool) (q : Pred)
  /-- `clz` (R111). -/
  | clz (d a : GReg) (ea : Bool) (q : Pred)
  /-- `ctz` (R111). -/
  | ctz (d a : GReg) (ea : Bool) (q : Pred)
  /-- `popc` (R111). -/
  | popc (d a : GReg) (ea : Bool) (q : Pred)
  /-- `sext` (R111). -/
  | sext (d a : GReg) (w : ExtWidth) (ea : Bool) (q : Pred)
  /-- `zext` (R111). -/
  | zext (d a : GReg) (w : ExtWidth) (ea : Bool) (q : Pred)
  /-- `addp` (R113). -/
  | addp (d a b : GReg) (ea eb : Bool) (q : Pred)
  /-- `subp` (R113). -/
  | subp (d a b : GReg) (ea eb : Bool) (q : Pred)
  /-- `ptag` (R113). -/
  | ptag (d a b : GReg) (ea eb : Bool) (q : Pred)
  /-- `gtag` (R113). -/
  | gtag (d a : GReg) (ea : Bool) (q : Pred)
  /-- `pva` (R113). -/
  | pva (d a : GReg) (ea : Bool) (q : Pred)
  /-- `pchk` (R114). -/
  | pchk (d a : GReg) (ea : Bool) (q : Pred)
  /-- `ceq` (R116). -/
  | ceq (d : PReg) (a b : GReg) (ea eb : Bool) (q : Pred)
  /-- `cne` (R116). -/
  | cne (d : PReg) (a b : GReg) (ea eb : Bool) (q : Pred)
  /-- `clt` (R116). -/
  | clt (d : PReg) (a b : GReg) (ea eb : Bool) (q : Pred)
  /-- `cltu` (R116). -/
  | cltu (d : PReg) (a b : GReg) (ea eb : Bool) (q : Pred)
  /-- `cge` (R116). -/
  | cge (d : PReg) (a b : GReg) (ea eb : Bool) (q : Pred)
  /-- `cgeu` (R116). -/
  | cgeu (d : PReg) (a b : GReg) (ea eb : Bool) (q : Pred)
  /-- `pand` (R116). -/
  | pand (d a b : PReg) (q : Pred)
  /-- `por` (R116). -/
  | por (d a b : PReg) (q : Pred)
  /-- `pxor` (R116). -/
  | pxor (d a b : PReg) (q : Pred)
  /-- `pandn` (R116). -/
  | pandn (d a b : PReg) (q : Pred)
  /-- `mov` (R118). -/
  | mov (d a : GReg) (ea : Bool) (q : Pred)
  /-- `p2g` (R118). -/
  | p2g (d : GReg) (a : PReg) (q : Pred)
  /-- `g2p` (R118). -/
  | g2p (d : PReg) (a : GReg) (ea : Bool) (q : Pred)
  /-- `addi` (R112). -/
  | addi (d a : GReg) (imm : BitVec 16)
  /-- `andi` (R112). -/
  | andi (d a : GReg) (imm : BitVec 16)
  /-- `ori` (R112). -/
  | ori (d a : GReg) (imm : BitVec 16)
  /-- `xori` (R112). -/
  | xori (d a : GReg) (imm : BitVec 16)
  /-- `slli` (R112). -/
  | slli (d a : GReg) (amt : BitVec 6)
  /-- `srli` (R112). -/
  | srli (d a : GReg) (amt : BitVec 6)
  /-- `srai` (R112). -/
  | srai (d a : GReg) (amt : BitVec 6)
  /-- `li` (R112). -/
  | li (d : GReg) (imm : BitVec 16)
  /-- `lui` (R112). -/
  | lui (d a : GReg) (imm : BitVec 16)
  /-- `luh` (R112). -/
  | luh (d a : GReg) (imm : BitVec 16)
  /-- `lut` (R112). -/
  | lut (d a : GReg) (imm : BitVec 16)
  /-- `cmpi` (R117). -/
  | cmpi (r : Rel) (d : PReg) (a : GReg) (imm : BitVec 16)
  /-- `br` (R119). -/
  | br (q : Pred) (off : BitVec 22)
  /-- `call` (R119). -/
  | call (q : Pred) (off : BitVec 22)
  /-- `jr` (R120). -/
  | jr (a : GReg) (ea : Bool) (q : Pred)
  /-- `dbnz` (R121). -/
  | dbnz (d : GReg) (off : BitVec 16)
  /-- `ld` (R122). -/
  | ld (d a : GReg) (z : Size) (ql : Qual) (off : BitVec 12)
  /-- `ldu` (R122). -/
  | ldu (d a : GReg) (z : Size) (ql : Qual) (off : BitVec 12)
  /-- `st` (R122). -/
  | st (d a : GReg) (z : Size) (ql : Qual) (off : BitVec 12)
  /-- `vadd` (R137). -/
  | vaddF (d a b : VReg) (w : Grp) (t : ElemTy)
  /-- `vsub` (R137). -/
  | vsubF (d a b : VReg) (w : Grp) (t : ElemTy)
  /-- `vmul` (R137). -/
  | vmulF (d a b : VReg) (w : Grp) (t : ElemTy)
  /-- `vfma` (R137). -/
  | vfma (d a b : VReg) (w : Grp) (t : ElemTy)
  /-- `vfms` (R137). -/
  | vfms (d a b : VReg) (w : Grp) (t : ElemTy)
  /-- `vmin` (R140). -/
  | vminF (d a b : VReg) (w : Grp) (t : ElemTy)
  /-- `vmax` (R140). -/
  | vmaxF (d a b : VReg) (w : Grp) (t : ElemTy)
  /-- `vminn` (R140). -/
  | vminn (d a b : VReg) (w : Grp) (t : ElemTy)
  /-- `vmaxn` (R140). -/
  | vmaxn (d a b : VReg) (w : Grp) (t : ElemTy)
  /-- `vabs` (R137). -/
  | vabs (d a : VReg) (w : Grp) (t : ElemTy)
  /-- `vneg` (R137). -/
  | vneg (d a : VReg) (w : Grp) (t : ElemTy)
  /-- `vcpsgn` (R137). -/
  | vcpsgn (d a b : VReg) (w : Grp) (t : ElemTy)
  /-- `vrndi` (R137). -/
  | vrndi (d a : VReg) (m : RndSel) (w : Grp) (t : ElemTy)
  /-- `vceq` (R139). -/
  | vceqF (d a b : VReg) (w : Grp) (t : ElemTy)
  /-- `vclt` (R139). -/
  | vcltF (d a b : VReg) (w : Grp) (t : ElemTy)
  /-- `vcle` (R139). -/
  | vcle (d a b : VReg) (w : Grp) (t : ElemTy)
  /-- `vcun` (R139). -/
  | vcun (d a b : VReg) (w : Grp) (t : ElemTy)
  /-- `vclass` (R141). -/
  | vclass (d a : VReg) (w : Grp) (t : ElemTy)
  /-- `vgetexp` (R141). -/
  | vgetexp (d a : VReg) (w : Grp) (t : ElemTy)
  /-- `vexpins` (R141). -/
  | vexpins (d a b : VReg) (w : Grp) (t : ElemTy)
  /-- `vadd` (R142). -/
  | vaddI (d a b : VReg) (w : Grp) (t : ElemTy)
  /-- `vsub` (R142). -/
  | vsubI (d a b : VReg) (w : Grp) (t : ElemTy)
  /-- `vmul` (R142). -/
  | vmulI (d a b : VReg) (w : Grp) (t : ElemTy)
  /-- `vmulh` (R142). -/
  | vmulh (d a b : VReg) (w : Grp) (t : ElemTy)
  /-- `vadds` (R142). -/
  | vadds (d a b : VReg) (w : Grp) (t : ElemTy)
  /-- `vsubs` (R142). -/
  | vsubs (d a b : VReg) (w : Grp) (t : ElemTy)
  /-- `vmin` (R142). -/
  | vminI (d a b : VReg) (w : Grp) (t : ElemTy)
  /-- `vmax` (R142). -/
  | vmaxI (d a b : VReg) (w : Grp) (t : ElemTy)
  /-- `vavg` (R142). -/
  | vavg (d a b : VReg) (w : Grp) (t : ElemTy)
  /-- `vabsd` (R142). -/
  | vabsd (d a b : VReg) (w : Grp) (t : ElemTy)
  /-- `vsll` (R142). -/
  | vsll (d a b : VReg) (w : Grp) (t : ElemTy)
  /-- `vsrl` (R142). -/
  | vsrl (d a b : VReg) (w : Grp) (t : ElemTy)
  /-- `vsra` (R142). -/
  | vsra (d a b : VReg) (w : Grp) (t : ElemTy)
  /-- `vand` (R142). -/
  | vand (d a b : VReg) (w : Grp) (t : ElemTy)
  /-- `vor` (R142). -/
  | vor (d a b : VReg) (w : Grp) (t : ElemTy)
  /-- `vxor` (R142). -/
  | vxor (d a b : VReg) (w : Grp) (t : ElemTy)
  /-- `vandn` (R142). -/
  | vandn (d a b : VReg) (w : Grp) (t : ElemTy)
  /-- `vceq` (R142). -/
  | vceqI (d a b : VReg) (w : Grp) (t : ElemTy)
  /-- `vclt` (R142). -/
  | vcltI (d a b : VReg) (w : Grp) (t : ElemTy)
  /-- `vsel` (R142). -/
  | vsel (d a b : VReg) (w : Grp) (t : ElemTy)
  /-- `vmac` (R142). -/
  | vmac (d a b : VReg) (w : Grp) (t : ElemTy)
  /-- `vbc` (R143). -/
  | vbc (d : VReg) (a : GReg) (w : Grp) (t : ElemTy)
  /-- `vins` (R143). -/
  | vins (d : VReg) (a b : GReg) (w : Grp) (t : ElemTy)
  /-- `vext` (R143). -/
  | vext (d : GReg) (a : VReg) (b : GReg) (w : Grp) (t : ElemTy)
  /-- `vperm` (R143). -/
  | vperm (d a b : VReg) (w : Grp) (t : ElemTy)
  /-- `vzip` (R143). -/
  | vzip (d a b : VReg) (w : Grp) (t : ElemTy)
  /-- `vuzp` (R143). -/
  | vuzp (d a : VReg) (w : Grp) (t : ElemTy)
  /-- `vslide` (R143). -/
  | vslide (d a : VReg) (b : GReg) (w : Grp) (t : ElemTy)
  /-- `vrot` (R143). -/
  | vrot (d a : VReg) (b : GReg) (w : Grp) (t : ElemTy)
  /-- `vradd` (R145). -/
  | vradd (d a : VReg) (w : Grp) (t : ElemTy)
  /-- `vrmin` (R145). -/
  | vrmin (d a : VReg) (w : Grp) (t : ElemTy)
  /-- `vrmax` (R145). -/
  | vrmax (d a : VReg) (w : Grp) (t : ElemTy)
  /-- `vdot4` (R146). -/
  | vdot4 (d a b : VReg) (w : Grp) (t : ElemTy)
  /-- `vdot2` (R146). -/
  | vdot2 (d a b : VReg) (w : Grp) (t : ElemTy)
  /-- `vcvt` (R104). -/
  | vcvt (d a : VReg) (ts : ElemTy) (sat : Bool) (w : Grp) (t : ElemTy)
  /-- `vq` (R106). -/
  | vq (d a b : VReg) (w : Grp) (t : ElemTy)
  /-- `vdq` (R107). -/
  | vdq (d a : VReg) (q4 : Bool) (w : Grp) (t : ElemTy)
  /-- `vpk` (R108). -/
  | vpk (d a : VReg) (w : Grp) (t : ElemTy)
  /-- `vunpk` (R108). -/
  | vunpk (d a : VReg) (w : Grp) (t : ElemTy)
  /-- `vmov` (R147). -/
  | vmov (d a : VReg) (w : Grp)
  /-- `vzero` (R147). -/
  | vzero (d : VReg) (w : Grp)
  /-- `vlane` (R147). -/
  | vlane (d : VReg) (w : Grp) (t : ElemTy)
  /-- `vrcp` (R148). -/
  | vrcp (d a : VReg) (w : Grp)
  /-- `vrsqrt` (R148). -/
  | vrsqrt (d a : VReg) (w : Grp)
  /-- `vsqrt` (R148). -/
  | vsqrt (d a : VReg) (w : Grp)
  /-- `vdiv` (R148). -/
  | vdiv (d a b : VReg) (w : Grp)
  /-- `vfexp2` (R148). -/
  | vfexp2 (d a : VReg) (w : Grp)
  /-- `vlog2` (R148). -/
  | vlog2 (d a : VReg) (w : Grp)
  /-- `vsinpi` (R148). -/
  | vsinpi (d a : VReg) (w : Grp)
  /-- `vcospi` (R148). -/
  | vcospi (d a : VReg) (w : Grp)
  /-- `vtanh` (R148). -/
  | vtanh (d a : VReg) (w : Grp)
  /-- `vgath` (R157). -/
  | vgath (d a : VReg) (b : GReg) (w : Grp) (t : ElemTy)
  /-- `vscat` (R157). -/
  | vscat (d a : VReg) (b : GReg) (w : Grp) (t : ElemTy)
  /-- `vld` (R153). -/
  | vld (d : VReg) (a : GReg) (w : Grp) (t : ElemTy) (ql : Qual) (off : BitVec 8)
  /-- `vst` (R153). -/
  | vst (d : VReg) (a : GReg) (w : Grp) (t : ElemTy) (ql : Qual) (off : BitVec 8)
  /-- `mma` (R253). -/
  | mma (acc : BitVec 3) (ab wb : BitVec 2) (s : Shape) (fb : FmtB) (fa : FmtA) (ovr sha tra : Bool)
  /-- `mgset` (R255). -/
  | mgset (a : GReg) (m : BitVec 3)
  /-- `mgget` (R255). -/
  | mgget (d : GReg) (m : BitVec 3)
  /-- `owne` (R256). -/
  | owne (d a : GReg)
  /-- `ownq` (R257). -/
  | ownq (d : GReg)
  /-- `accz` (R259). -/
  | accz (a : GReg)
  /-- `accst` (R260). -/
  | accst (a b : GReg) (f : AccFmt) (acc : BitVec 3)
  /-- `accld` (R260). -/
  | accld (a b : GReg) (f : AccFmt) (acc : BitVec 3)
  /-- `abld` (R261). -/
  | abld (a b : GReg) (buf : BitVec 2)
  /-- `wbld` (R261). -/
  | wbld (a b : GReg) (buf : BitVec 2)
  /-- `twset` (R268). -/
  | twset (d a : GReg) (tw : BitVec 2)
  /-- `tdec` (R269). -/
  | tdec (d : VReg) (a b : GReg) (w : Grp) (tw : BitVec 2)
  /-- `tdecr` (R269). -/
  | tdecr (d : VReg) (a : GReg) (b : VReg) (tw : BitVec 2)
  /-- `tenc` (R276). -/
  | tenc (d a b : GReg)
  /-- `tencw` (R278). -/
  | tencw (d : GReg)
  /-- `rowact` (R181). -/
  | rowact (a : GReg)
  /-- `rowpre` (R181). -/
  | rowpre (a : GReg)
  /-- `tld` (R182). -/
  | tld (a b : GReg) (len : BitVec 6)
  /-- `tst` (R182). -/
  | tst (a b : GReg) (len : BitVec 6)
  /-- `rowq` (R183). -/
  | rowq (d a : GReg)
  /-- `pmig` (R194). -/
  | pmig (d a b : GReg)
  /-- `ptq` (R194). -/
  | ptq (d a : GReg)
  /-- `cpy` (R295). -/
  | cpy (d a : GReg) (c : BitVec 4)
  /-- `cpyq` (R296). -/
  | cpyq (d a : GReg)
  /-- `cpyw` (R296). -/
  | cpyw (d a : GReg)
  /-- `sbind` (R295). -/
  | sbind (d a : GReg) (s : BitVec 3)
  /-- `sunb` (R297). -/
  | sunb (d : GReg) (s : BitVec 3)
  /-- `sparkq` (R298). -/
  | sparkq (d a : GReg)
  /-- `rget` (R315). -/
  | rget (d : BitVec 5) (a b : GReg) (z : RemSize)
  /-- `rput` (R315). -/
  | rput (d : BitVec 5) (a b : GReg) (z : RemSize)
  /-- `rfop` (R315). -/
  | rfop (d : BitVec 5) (a b : GReg) (sh : RfopShape) (op : FopOp)
  /-- `rcas` (R315). -/
  | rcas (d a b : GReg) (z : OpSize)
  /-- `amsg` (R316). -/
  | amsg (d a b : GReg)
  /-- `msend` (R317). -/
  | msend (d : VReg) (a b : GReg)
  /-- `mrecv` (R318). -/
  | mrecv (d : VReg) (a : GReg) (w : Bool)
  /-- `rstat` (R319). -/
  | rstat (d : GReg)
  /-- `fop` (R344). -/
  | fop (d a b : GReg) (ea eb : Bool) (q : Pred) (z : OpSize) (op : FopOp)
  /-- `cas` (R345). -/
  | cas (d a b : GReg) (ea eb : Bool) (q : Pred) (z : OpSize)
  /-- `fence` (R329). -/
  | fence (a : GReg) (s : Scope) (l m r : Bool)
  /-- `wait` (R333). -/
  | wait (d a b : GReg)
  /-- `signal` (R334). -/
  | signal (a b : GReg)
  /-- `sstep` (R337). -/
  | sstep (a b : GReg)
  /-- `bar` (R337). -/
  | bar (a b : GReg)
  /-- `redm` (R339). -/
  | redm (d a b : GReg)
  /-- `ownf` (R331). -/
  | ownf (d a b : GReg)
  /-- `book` (R208). -/
  | book (d a b : GReg)
  /-- `arm` (R213). -/
  | arm (a : GReg)
  /-- `unbook` (R215). -/
  | unbook (d a : GReg)
  /-- `calq` (R216). -/
  | calq (d a b : GReg)
  /-- `calmv` (R217). -/
  | calmv (d a b : GReg)
  /-- `spawn` (R226). -/
  | spawn (d a : GReg)
  /-- `take` (R227). -/
  | take (d a : GReg)
  /-- `seek` (R229). -/
  | seek (d a : GReg)
  /-- `tfin` (R230). -/
  | tfin (a : GReg)
  /-- `term` (R232). -/
  | term (d : GReg)
  /-- `dqn` (R234). -/
  | dqn (d : GReg)
  /-- `trap` (R367). -/
  | trap (a b : GReg) (ea eb : Bool) (q : Pred)
  /-- `eret` (R368). -/
  | eret (d a b : GReg) (ea eb : Bool) (q : Pred)
  /-- `halt` (R369). -/
  | halt (a : GReg) (ea : Bool) (q : Pred)
  /-- `sysc` (R370). -/
  | sysc (d a b : GReg) (ea eb : Bool) (q : Pred)
  /-- `brk` (R367). -/
  | brk (n : BitVec 5) (q : Pred)
  /-- `trc` (R371). -/
  | trc (a b : GReg) (ea eb : Bool) (q : Pred)
  /-- `csrr` (R131). -/
  | csrr (d : GReg) (n : BitVec 11)
  /-- `csrw` (R131). -/
  | csrw (d a : GReg) (n : BitVec 11)
  /-- `csrs` (R131). -/
  | csrs (d a : GReg) (n : BitVec 11)
  /-- `csrc` (R131). -/
  | csrc (d a : GReg) (n : BitVec 11)
  /-- `handler_entry` (R359). -/
  | handlerEntry (c t : Nat)
  /-- `halt_tree_stop` (R381). -/
  | haltTreeStop (part reason init : Nat)
  /-- `active_message_launch` (R312). -/
  | activeMessageLaunch (c : Nat) (m : Launch)
  /-- `link_hold_request` (R211). -/
  | linkHoldRequest (h : LinkHold)
  /-- `vault_access_beat` (R124). -/
  | vaultAccessBeat (c id : Nat)
  /-- `vault_beat_abandon` (R179). -/
  | vaultBeatAbandon (c id : Nat)
  /-- `tile_beat` (R177). -/
  | tileBeat (c id : Nat)
  /-- `layer_power_change` (R171). -/
  | layerPowerChange (c : Nat) (p : LayerPower)
  /-- `offstack_request` (R322). -/
  | offstackRequest (ctrl : Nat)
  /-- `reply_arrival` (R302). -/
  | replyArrival (ret : RetPath) (value : Nat)
  /-- `refusal_arrival` (R306). -/
  | refusalArrival (ret : RetPath) (reason : Nat)
  /-- `agent_request_arrival` (R301). -/
  | agentRequestArrival (c : Nat) (r : Req)
  /-- `channel_resume` (R288). -/
  | channelResume (c ch : Nat)
  /-- `copy_complete` (R293). -/
  | copyComplete (c idx : Nat)
  /-- `steal_request` (R228). -/
  | stealRequest (victim thief thread : Nat)
  /-- `gift_arrival` (R228). -/
  | giftArrival (thief thread victim : Nat) (g : TaskRec)
  /-- `gift_ack` (R228). -/
  | giftAck (c : Nat)
  /-- `barrier_arrival` (R337). -/
  | barrierArrival (part group c : Nat)
  /-- `signal_arrival` (R334). -/
  | signalArrival (c ctx mask : Nat)
  /-- `confluence_arrival` (R348). -/
  | confluenceArrival (node inp : Nat) (f : Flit)
  /-- `confluence_forward` (R348). -/
  | confluenceForward (node id : Nat)
  /-- `confluence_reply_split` (R351). -/
  | confluenceReplySplit (node id value : Nat)
  /-- `flit_crc_retry` (R393). -/
  | flitCrcRetry (port : Nat)
  /-- `lane_degrade` (R393). -/
  | laneDegrade (port : Nat)
  /-- `link_reroute` (R393). -/
  | linkReroute (port : Nat)
  /-- `retrain` (R393). -/
  | retrain (port : Nat)
  /-- `sysc_service` (R370). -/
  | syscService (c t ctx f arg : Nat) (dst : Dest)
  /-- `thermal_sample` (R385). -/
  | thermalSample (readings : List SensorReading)
  /-- `context_save` (R373). -/
  | contextSave (c : Nat)
  /-- `context_restore` (R373). -/
  | contextRestore (c ctx : Nat)
  /-- `bar2_launch_record` (R313). -/
  | bar2LaunchRecord (off : Nat) (bytes : List Byte)
  /-- `bar4_access` (R388). -/
  | bar4Access (write : Bool) (off : Nat) (bytes : List Byte)
  /-- `crcons_write` (R392). -/
  | crconsWrite (v : Nat)
  /-- `fwlen_write` (R395). -/
  | fwlenWrite (v : Nat)
  /-- `host_register_write` (R390). -/
  | hostRegisterWrite (off : Nat) (bytes : List Byte)
  /-- `steal_refusal` (R229). -/
  | stealRefusal (thief : Nat) (asked : SeekAsked)
  /-- `retrain_complete` (R393). -/
  | retrainComplete (port : Nat)
  /-- `mwait` (R258). -/
  | mwait
  /-- `vsync` (R184). -/
  | vsync
  /-- `fencei` (R330). -/
  | fencei
  /-- `done` (R214). -/
  | done
  /-- `ring_stall_relief` (R365). -/
  | ringStallRelief
  /-- `launch_queue_start` (R312). -/
  | launchQueueStart
  /-- `booking_start` (R213). -/
  | bookingStart
  /-- `booking_lapse` (R205). -/
  | bookingLapse
  /-- `compaction` (R218). -/
  | compaction
  /-- `link_commit` (R211). -/
  | linkCommit
  /-- `normal_refresh` (R167). -/
  | normalRefresh
  /-- `extra_refresh` (R169). -/
  | extraRefresh
  /-- `refresh_mode_sample` (R169). -/
  | refreshModeSample
  /-- `row_repair_copy_start` (R173). -/
  | rowRepairCopyStart
  /-- `row_repair_remap` (R173). -/
  | rowRepairRemap
  /-- `lane_repair_post` (R174). -/
  | laneRepairPost
  /-- `lane_repair_complete` (R175). -/
  | laneRepairComplete
  /-- `agent_action` (R301). -/
  | agentAction
  /-- `sfu_queue_start` (R149). -/
  | sfuQueueStart
  /-- `sfu_result_write` (R149). -/
  | sfuResultWrite
  /-- `me_command_start` (R246). -/
  | meCommandStart
  /-- `me_command_complete` (R245). -/
  | meCommandComplete
  /-- `tenc_job_start` (R277). -/
  | tencJobStart
  /-- `tenc_job_complete` (R277). -/
  | tencJobComplete
  /-- `stream_engine_operation` (R282). -/
  | streamEngineOperation
  /-- `epoch_end` (R191). -/
  | epochEnd
  /-- `migration_move_start` (R192). -/
  | migrationMoveStart
  /-- `migration_move_complete` (R192). -/
  | migrationMoveComplete
  /-- `token_forward` (R233). -/
  | tokenForward
  /-- `barrier_release` (R338). -/
  | barrierRelease
  /-- `wait_timer_expire` (R333). -/
  | waitTimerExpire
  /-- `sample_tick` (R371). -/
  | sampleTick
  /-- `throttle_level_apply` (R386). -/
  | throttleLevelApply
  /-- `create` (R374). -/
  | create
  /-- `destroy` (R391). -/
  | destroy
  /-- `place` (R391). -/
  | place
  /-- `window` (R391). -/
  | window
  /-- `loadcode` (R391). -/
  | loadcode
  /-- `preempt` (R372). -/
  | preempt
  /-- `stop` (R391). -/
  | stop
  /-- `resume` (R366). -/
  | resume
  /-- `checkpoint` (R391). -/
  | checkpoint
  /-- `replay` (R383). -/
  | replay
  /-- `attest` (R376). -/
  | attest
  /-- `debugread` (R384). -/
  | debugread
  /-- `policy` (R191). -/
  | policy
  /-- `journal` (R391). -/
  | journal
  /-- `clearpoison` (R162). -/
  | clearpoison
  /-- `firmware_start` (R395). -/
  | firmwareStart
  /-- `power_up` (R395). -/
  | powerUp
  /-- `helm_takeover` (R394). -/
  | helmTakeover
  /-- `msix_vector_1_signal` (R392). -/
  | msixVector1Signal
  deriving DecidableEq, Repr

end Sys2Proof
end

