-- ==== Sys2Proof/Decode.lean ====
section
/-! DEFINITION. From instruction bytes to instructions and back (R56 to R75): the field codes, the eight formats of Table 2.3
taken apart and put together, the decoder with the ILLEGAL checks of Table 2.8 in their order of precedence, and the encoder. -/

namespace Sys2Proof

/-! ### Field codes -/

/-- The field T of Table 2.4. -/
def ElemTy.code : ElemTy → BitVec 4
  | .i8 => 0 | .n8 => 1 | .i16 => 2 | .n16 => 3 | .i32 => 4 | .n32 => 5 | .i64 => 6 | .n64 => 7
  | .f32 => 8 | .f16 => 9 | .bf16 => 10 | .e4m3 => 11 | .e5m2 => 12 | .q8 => 13 | .q4 => 14 | .auto => 15

/-- Table 2.4 read from the number. -/
def ElemTy.ofCode : Nat → ElemTy
  | 0 => .i8 | 1 => .n8 | 2 => .i16 | 3 => .n16 | 4 => .i32 | 5 => .n32 | 6 => .i64 | 7 => .n64
  | 8 => .f32 | 9 => .f16 | 10 => .bf16 | 11 => .e4m3 | 12 => .e5m2 | 13 => .q8 | 14 => .q4 | _ => .auto

/-- The type number of Table 2.4. -/
def ElemTy.num (t : ElemTy) : Nat := t.code.toNat

/-- The field W of R63. -/
def Grp.code : Grp → BitVec 2
  | .single => 0 | .pair => 1 | .quad => 2 | .octet => 3

/-- W from its number (R63). -/
def Grp.ofCode : Nat → Grp
  | 0 => .single | 1 => .pair | 2 => .quad | _ => .octet

/-- The field SZ of R65. -/
def Size.code : Size → BitVec 2
  | .b => 0 | .h => 1 | .w => 2 | .d => 3

/-- SZ from its number (R65). -/
def Size.ofCode : Nat → Size
  | 0 => .b | 1 => .h | 2 => .w | _ => .d

/-- The field Q of R66. -/
def Qual.code : Qual → BitVec 2
  | .plain => 0 | .order => 1 | .full => 2 | .exchange => 3

/-- Q from its number (R66). -/
def Qual.ofCode : Nat → Qual
  | 0 => .plain | 1 => .order | 2 => .full | _ => .exchange

/-- D[4:3] of R69. -/
def Rel.code : Rel → BitVec 2
  | .eq => 0 | .lt => 1 | .ltu => 2 | .ne => 3

/-- The relation from D[4:3] (R69). -/
def Rel.ofCode : Nat → Rel
  | 0 => .eq | 1 => .lt | 2 => .ltu | _ => .ne

/-- The literal in B (R111). -/
def ExtWidth.code : ExtWidth → BitVec 5
  | .w8 => 0 | .w16 => 1 | .w32 => 2

/-- The width from B; the checks refuse a value above 2 first (R111). -/
def ExtWidth.ofCode : Nat → ExtWidth
  | 0 => .w8 | 1 => .w16 | _ => .w32

/-- The literal in VB (R137). -/
def RndSel.code : RndSel → BitVec 5
  | .rne => 0 | .rtz => 1 | .rdn => 2 | .rup => 3 | .dyn => 4

/-- The mode from VB; the checks refuse a value above 4 first. -/
def RndSel.ofCode : Nat → RndSel
  | 0 => .rne | 1 => .rtz | 2 => .rdn | 3 => .rup | _ => .dyn

/-- The operation code of Table 13.2. -/
def FopOp.code : FopOp → BitVec 4
  | .add => 0 | .and => 1 | .or => 2 | .xor => 3 | .min => 4 | .max => 5 | .minu => 6 | .maxu => 7 | .swap => 8 | .faddTs => 9

/-- The operation from its code; the checks refuse a code above 9 first. -/
def FopOp.ofCode : Nat → FopOp
  | 0 => .add | 1 => .and | 2 => .or | 3 => .xor | 4 => .min | 5 => .max | 6 => .minu | 7 => .maxu | 8 => .swap | _ => .faddTs

/-- The size bit (R73, Table 11.5). -/
def OpSize.code : OpSize → BitVec 1
  | .w => 0 | .d => 1

/-- The size from its bit. -/
def OpSize.ofCode : Nat → OpSize
  | 0 => .w | _ => .d

/-- The field SHAPE (Table 2.5). -/
def Shape.code : Shape → BitVec 3
  | .sq => 0 | .skinny => 1 | .bd8 => 2

/-- SHAPE from its number; the checks refuse a reserved value first. -/
def Shape.ofCode : Nat → Shape
  | 0 => .sq | 1 => .skinny | _ => .bd8

/-- The field FMTA (Table 2.5). -/
def FmtA.code : FmtA → BitVec 3
  | .bf16 => 0 | .f16 => 1 | .e4m3 => 2 | .e5m2 => 3 | .q8 => 4 | .f32 => 5

/-- FMTA from its number; the checks refuse a reserved value first. -/
def FmtA.ofCode : Nat → FmtA
  | 0 => .bf16 | 1 => .f16 | 2 => .e4m3 | 3 => .e5m2 | 4 => .q8 | _ => .f32

/-- The field FMTB (Table 2.5). -/
def FmtB.code : FmtB → BitVec 4
  | .bf16 => 0 | .f16 => 1 | .e4m3 => 2 | .e5m2 => 3 | .q8 => 4 | .q4 => 5 | .f32 => 6 | .tc2 => 7 | .tc3 => 8 | .tc4 => 9

/-- FMTB from its number; the checks refuse a reserved value first. -/
def FmtB.ofCode : Nat → FmtB
  | 0 => .bf16 | 1 => .f16 | 2 => .e4m3 | 3 => .e5m2 | 4 => .q8 | 5 => .q4 | 6 => .f32 | 7 => .tc2 | 8 => .tc3 | _ => .tc4

/-- X[9:8] of `accst` and `accld`. -/
def AccFmt.code : AccFmt → BitVec 2
  | .f32 => 0 | .bf16 => 1 | .f16 => 2

/-- The format from X[9:8]; the checks refuse 11 first. -/
def AccFmt.ofCode : Nat → AccFmt
  | 0 => .f32 | 1 => .bf16 | _ => .f16

/-- X[10:8] of `fence` (R70). -/
def Scope.code : Scope → BitVec 3
  | .thread => 0 | .core => 1 | .rect => 2 | .device => 3 | .domain => 4

/-- The scope from X[10:8]; the checks refuse 5 to 7 first. -/
def Scope.ofCode : Nat → Scope
  | 0 => .thread | 1 => .core | 2 => .rect | 3 => .device | _ => .domain

/-- X[7:5] of `rget` and `rput`. -/
def RemSize.code : RemSize → BitVec 3
  | .b => 0 | .h => 1 | .w => 2 | .d => 3 | .v => 4

/-- SZ from X[7:5]; the checks refuse 5 to 7 first. -/
def RemSize.ofCode : Nat → RemSize
  | 0 => .b | 1 => .h | 2 => .w | 3 => .d | _ => .v

/-- X[10:9] of `rfop`. -/
def RfopShape.code : RfopShape → BitVec 2
  | .w => 0 | .d => 1 | .v16 => 2 | .v64 => 3

/-- The shape from X[10:9]. -/
def RfopShape.ofCode : Nat → RfopShape
  | 0 => .w | 1 => .d | 2 => .v16 | _ => .v64

/-! ### The formats of Table 2.3 -/

/-- The major opcode, MAJ[31:26] (R58). -/
def majorOf (w : Insn) : BitVec 6 := w.extractLsb' 26 6

/-- The fields of the G format. -/
structure FieldsG where
  d : BitVec 5
  a : BitVec 5
  b : BitVec 5
  ea : Bool
  eb : Bool
  p : BitVec 3
  pn : Bool
  fn : BitVec 5
  deriving DecidableEq, Repr

/-- A G-format word taken apart. -/
def fieldsG (w : Insn) : FieldsG :=
  ⟨w.extractLsb' 21 5, w.extractLsb' 16 5, w.extractLsb' 11 5, w.getLsbD 10, w.getLsbD 9, w.extractLsb' 6 3, w.getLsbD 5, w.extractLsb' 0 5⟩

/-- A G-format word put together. -/
def wordG (maj : BitVec 6) (f : FieldsG) : Insn :=
  maj ++ f.d ++ f.a ++ f.b ++ BitVec.ofBool f.ea ++ BitVec.ofBool f.eb ++ f.p ++ BitVec.ofBool f.pn ++ f.fn

/-- The predicate prefix of a G-format word. -/
def FieldsG.pred (f : FieldsG) : Pred := ⟨f.p, f.pn⟩

/-- The fields of the CSR forms of the G format. -/
structure FieldsCsr where
  d : BitVec 5
  a : BitVec 5
  csrn : BitVec 11
  fn : BitVec 5
  deriving DecidableEq, Repr

/-- A CSR form taken apart. -/
def fieldsCsr (w : Insn) : FieldsCsr :=
  ⟨w.extractLsb' 21 5, w.extractLsb' 16 5, w.extractLsb' 5 11, w.extractLsb' 0 5⟩

/-- A CSR form put together. -/
def wordCsr (maj : BitVec 6) (f : FieldsCsr) : Insn := maj ++ f.d ++ f.a ++ f.csrn ++ f.fn

/-- The fields of the I format. -/
structure FieldsI where
  d : BitVec 5
  a : BitVec 5
  imm : BitVec 16
  deriving DecidableEq, Repr

/-- An I-format word taken apart. -/
def fieldsI (w : Insn) : FieldsI := ⟨w.extractLsb' 21 5, w.extractLsb' 16 5, w.extractLsb' 0 16⟩

/-- An I-format word put together. -/
def wordI (maj : BitVec 6) (f : FieldsI) : Insn := maj ++ f.d ++ f.a ++ f.imm

/-- The fields of the S format. -/
structure FieldsS where
  d : BitVec 5
  a : BitVec 5
  z : BitVec 2
  q : BitVec 2
  off : BitVec 12
  deriving DecidableEq, Repr

/-- An S-format word taken apart. -/
def fieldsS (w : Insn) : FieldsS :=
  ⟨w.extractLsb' 21 5, w.extractLsb' 16 5, w.extractLsb' 14 2, w.extractLsb' 12 2, w.extractLsb' 0 12⟩

/-- An S-format word put together. -/
def wordS (maj : BitVec 6) (f : FieldsS) : Insn := maj ++ f.d ++ f.a ++ f.z ++ f.q ++ f.off

/-- The fields of the B format. -/
structure FieldsB where
  p : BitVec 3
  pn : Bool
  off : BitVec 22
  deriving DecidableEq, Repr

/-- A B-format word taken apart. -/
def fieldsB (w : Insn) : FieldsB := ⟨w.extractLsb' 23 3, w.getLsbD 22, w.extractLsb' 0 22⟩

/-- A B-format word put together. -/
def wordB (maj : BitVec 6) (f : FieldsB) : Insn := maj ++ f.p ++ BitVec.ofBool f.pn ++ f.off

/-- The fields of the V format. -/
structure FieldsV where
  d : BitVec 5
  a : BitVec 5
  b : BitVec 5
  w : BitVec 2
  t : BitVec 4
  fn : BitVec 5
  deriving DecidableEq, Repr

/-- A V-format word taken apart. -/
def fieldsV (w : Insn) : FieldsV :=
  ⟨w.extractLsb' 21 5, w.extractLsb' 16 5, w.extractLsb' 11 5, w.extractLsb' 9 2, w.extractLsb' 5 4, w.extractLsb' 0 5⟩

/-- A V-format word put together. -/
def wordV (maj : BitVec 6) (f : FieldsV) : Insn := maj ++ f.d ++ f.a ++ f.b ++ f.w ++ f.t ++ f.fn

/-- The fields of the VM format. -/
structure FieldsVm where
  d : BitVec 5
  a : BitVec 5
  w : BitVec 2
  t : BitVec 4
  q : BitVec 2
  off : BitVec 8
  deriving DecidableEq, Repr

/-- A VM-format word taken apart. -/
def fieldsVm (w : Insn) : FieldsVm :=
  ⟨w.extractLsb' 21 5, w.extractLsb' 16 5, w.extractLsb' 14 2, w.extractLsb' 10 4, w.extractLsb' 8 2, w.extractLsb' 0 8⟩

/-- A VM-format word put together. -/
def wordVm (maj : BitVec 6) (f : FieldsVm) : Insn := maj ++ f.d ++ f.a ++ f.w ++ f.t ++ f.q ++ f.off

/-- The fields of the C format; x is X[10:5]. -/
structure FieldsC where
  d : BitVec 5
  a : BitVec 5
  b : BitVec 5
  x : BitVec 6
  fn : BitVec 5
  deriving DecidableEq, Repr

/-- A C-format word taken apart. -/
def fieldsC (w : Insn) : FieldsC :=
  ⟨w.extractLsb' 21 5, w.extractLsb' 16 5, w.extractLsb' 11 5, w.extractLsb' 5 6, w.extractLsb' 0 5⟩

/-- A C-format word put together. -/
def wordC (maj : BitVec 6) (f : FieldsC) : Insn := maj ++ f.d ++ f.a ++ f.b ++ f.x ++ f.fn

/-- The fields of the M format. -/
structure FieldsM where
  acc : BitVec 3
  ab : BitVec 2
  wb : BitVec 2
  shape : BitVec 3
  fb : BitVec 4
  fa : BitVec 3
  ovr : Bool
  sha : Bool
  tra : Bool
  low : BitVec 6
  deriving DecidableEq, Repr

/-- An M-format word taken apart. -/
def fieldsM (w : Insn) : FieldsM :=
  ⟨w.extractLsb' 23 3, w.extractLsb' 21 2, w.extractLsb' 19 2, w.extractLsb' 16 3, w.extractLsb' 12 4, w.extractLsb' 9 3,
   w.getLsbD 8, w.getLsbD 7, w.getLsbD 6, w.extractLsb' 0 6⟩

/-- An M-format word put together. -/
def wordM (maj : BitVec 6) (f : FieldsM) : Insn :=
  maj ++ f.acc ++ f.ab ++ f.wb ++ f.shape ++ f.fb ++ f.fa ++ BitVec.ofBool f.ovr ++ BitVec.ofBool f.sha ++ BitVec.ofBool f.tra ++ f.low

/-! ### The checks of Table 2.8 -/

/-- Why a word is not an instruction (R75): the reason code and the least significant bit of the offending field. -/
structure Illegal where
  reason : Nat
  bit : Nat
  deriving DecidableEq, Repr

/-- One check: its reason, the least significant bit of the field it names, and whether the word fails it. -/
structure Check where
  reason : Nat
  bit : Nat
  fails : Bool
  deriving DecidableEq, Repr

/-- The first failing check decides (R75). Each list stands in order of reason, and within a reason from the most
significant field down. -/
def settle (i : Instr) : List Check → Except Illegal Instr
  | [] => .ok i
  | c :: cs => if c.fails then .error ⟨c.reason, c.bit⟩ else settle i cs

/-- Must-be-zero field of any width (reason 4). -/
def zeroField {n : Nat} (bit : Nat) (v : BitVec n) : Check := ⟨4, bit, v != 0⟩
/-- Must-be-zero bit (reason 4). -/
def zeroBit (bit : Nat) (v : Bool) : Check := ⟨4, bit, v⟩
/-- Literal out of range (reason 5). -/
def literalIn (bit : Nat) (ok : Bool) : Check := ⟨5, bit, !ok⟩
/-- Element type not permitted (reason 6). -/
def typeIn (bit : Nat) (ok : Bool) : Check := ⟨6, bit, !ok⟩
/-- Shape or format pair not permitted (reason 7). -/
def pairIn (bit : Nat) (ok : Bool) : Check := ⟨7, bit, !ok⟩
/-- Register not a multiple of its group (reason 8). -/
def alignedTo (bit g : Nat) (v : BitVec 5) : Check := ⟨8, bit, v.toNat % g != 0⟩

/-- P = 0 with PN = 1, in the G format (R60). -/
def FieldsG.predCheck (f : FieldsG) : Check := ⟨3, 5, f.p == 0 && f.pn⟩
/-- P = 0 with PN = 1, in the B format (R60). -/
def FieldsB.predCheck (f : FieldsB) : Check := ⟨3, 22, f.p == 0 && f.pn⟩

/-- A reserved function code (reason 2), named at its lowest bit. -/
def reservedFunction : Except Illegal Instr := .error ⟨2, 0⟩

/-- Bits [4:3] of a field that names a predicate. -/
def highOf (v : BitVec 5) : BitVec 2 := v.extractLsb' 3 2
/-- The predicate a five-bit field names (R59). -/
def predOf (v : BitVec 5) : PReg := v.extractLsb' 0 3

/-- The width field of a V-format word (R63). -/
def FieldsV.grp (f : FieldsV) : Grp := Grp.ofCode f.w.toNat
/-- The type field of a V-format word (R64). -/
def FieldsV.ty (f : FieldsV) : ElemTy := ElemTy.ofCode f.t.toNat
/-- The group size of a V-format word. -/
def FieldsV.g (f : FieldsV) : Nat := f.grp.regs

/-- Registers of the narrower operand of a conversion (Table 3.6). -/
def narrowRegs (g narrow wide : Nat) : Nat := max 1 (g * narrow / wide)

/-- Registers of `vcvt`'s destination and source (R104). -/
def cvtDstRegs (f : FieldsV) : Nat :=
  narrowRegs f.g f.ty.bits (max f.ty.bits (ElemTy.ofCode (f.b.extractLsb' 0 4).toNat).bits)
/-- Registers of `vcvt`'s source (R104). -/
def cvtSrcRegs (f : FieldsV) : Nat :=
  narrowRegs f.g (ElemTy.ofCode (f.b.extractLsb' 0 4).toNat).bits (max f.ty.bits (ElemTy.ofCode (f.b.extractLsb' 0 4).toNat).bits)
/-- The alignment of the data group of `vld` and `vst` that decoding judges (R63, R152). -/
def vmRegs (f : FieldsVm) : Nat :=
  if f.t == 15 then 1 else if f.t == 13 || f.t == 14 then qRegs (f.t == 14) (qGroup f.w.toNat) else (Grp.ofCode f.w.toNat).regs

/-! ### The decoder, major by major -/

/-- MAJ 0x01 (Table 2.7). -/
def decodeAlu (f : FieldsG) : Except Illegal Instr :=
  match f.fn.toNat with
  | 0x00 => settle (.add f.d f.a f.b f.ea f.eb f.pred) [f.predCheck]
  | 0x01 => settle (.sub f.d f.a f.b f.ea f.eb f.pred) [f.predCheck]
  | 0x02 => settle (.and f.d f.a f.b f.ea f.eb f.pred) [f.predCheck]
  | 0x03 => settle (.or f.d f.a f.b f.ea f.eb f.pred) [f.predCheck]
  | 0x04 => settle (.xor f.d f.a f.b f.ea f.eb f.pred) [f.predCheck]
  | 0x05 => settle (.andn f.d f.a f.b f.ea f.eb f.pred) [f.predCheck]
  | 0x06 => settle (.sll f.d f.a f.b f.ea f.eb f.pred) [f.predCheck]
  | 0x07 => settle (.srl f.d f.a f.b f.ea f.eb f.pred) [f.predCheck]
  | 0x08 => settle (.sra f.d f.a f.b f.ea f.eb f.pred) [f.predCheck]
  | 0x09 => settle (.min f.d f.a f.b f.ea f.eb f.pred) [f.predCheck]
  | 0x0A => settle (.max f.d f.a f.b f.ea f.eb f.pred) [f.predCheck]
  | 0x0B => settle (.minu f.d f.a f.b f.ea f.eb f.pred) [f.predCheck]
  | 0x0C => settle (.maxu f.d f.a f.b f.ea f.eb f.pred) [f.predCheck]
  | 0x0D => settle (.slt f.d f.a f.b f.ea f.eb f.pred) [f.predCheck]
  | 0x0E => settle (.sltu f.d f.a f.b f.ea f.eb f.pred) [f.predCheck]
  | 0x0F => settle (.seq f.d f.a f.b f.ea f.eb f.pred) [f.predCheck]
  | 0x10 => settle (.mul f.d f.a f.b f.ea f.eb f.pred) [f.predCheck]
  | 0x11 => settle (.mulh f.d f.a f.b f.ea f.eb f.pred) [f.predCheck]
  | 0x12 => settle (.mulhu f.d f.a f.b f.ea f.eb f.pred) [f.predCheck]
  | 0x13 => settle (.div f.d f.a f.b f.ea f.eb f.pred) [f.predCheck]
  | 0x14 => settle (.divu f.d f.a f.b f.ea f.eb f.pred) [f.predCheck]
  | 0x15 => settle (.rem f.d f.a f.b f.ea f.eb f.pred) [f.predCheck]
  | 0x16 => settle (.remu f.d f.a f.b f.ea f.eb f.pred) [f.predCheck]
  | 0x17 => settle (.clz f.d f.a f.ea f.pred) [f.predCheck, zeroField 11 f.b, zeroBit 9 f.eb]
  | 0x18 => settle (.ctz f.d f.a f.ea f.pred) [f.predCheck, zeroField 11 f.b, zeroBit 9 f.eb]
  | 0x19 => settle (.popc f.d f.a f.ea f.pred) [f.predCheck, zeroField 11 f.b, zeroBit 9 f.eb]
  | 0x1A => settle (.sext f.d f.a (ExtWidth.ofCode f.b.toNat) f.ea f.pred) [f.predCheck, zeroBit 9 f.eb, literalIn 11 (f.b.toNat ≤ 2)]
  | 0x1B => settle (.zext f.d f.a (ExtWidth.ofCode f.b.toNat) f.ea f.pred) [f.predCheck, zeroBit 9 f.eb, literalIn 11 (f.b.toNat ≤ 2)]
  | _ => reservedFunction

/-- MAJ 0x02 (Table 2.7). -/
def decodePtr (f : FieldsG) : Except Illegal Instr :=
  match f.fn.toNat with
  | 0x00 => settle (.addp f.d f.a f.b f.ea f.eb f.pred) [f.predCheck]
  | 0x01 => settle (.subp f.d f.a f.b f.ea f.eb f.pred) [f.predCheck]
  | 0x02 => settle (.ptag f.d f.a f.b f.ea f.eb f.pred) [f.predCheck]
  | 0x03 => settle (.gtag f.d f.a f.ea f.pred) [f.predCheck, zeroField 11 f.b, zeroBit 9 f.eb]
  | 0x04 => settle (.pva f.d f.a f.ea f.pred) [f.predCheck, zeroField 11 f.b, zeroBit 9 f.eb]
  | 0x05 => settle (.pchk f.d f.a f.ea f.pred) [f.predCheck, zeroField 11 f.b, zeroBit 9 f.eb]
  | _ => reservedFunction

/-- MAJ 0x03 (Table 2.7). -/
def decodePred (f : FieldsG) : Except Illegal Instr :=
  match f.fn.toNat with
  | 0x00 => settle (.ceq (predOf f.d) f.a f.b f.ea f.eb f.pred) [f.predCheck, zeroField 24 (highOf f.d)]
  | 0x01 => settle (.cne (predOf f.d) f.a f.b f.ea f.eb f.pred) [f.predCheck, zeroField 24 (highOf f.d)]
  | 0x02 => settle (.clt (predOf f.d) f.a f.b f.ea f.eb f.pred) [f.predCheck, zeroField 24 (highOf f.d)]
  | 0x03 => settle (.cltu (predOf f.d) f.a f.b f.ea f.eb f.pred) [f.predCheck, zeroField 24 (highOf f.d)]
  | 0x04 => settle (.cge (predOf f.d) f.a f.b f.ea f.eb f.pred) [f.predCheck, zeroField 24 (highOf f.d)]
  | 0x05 => settle (.cgeu (predOf f.d) f.a f.b f.ea f.eb f.pred) [f.predCheck, zeroField 24 (highOf f.d)]
  | 0x06 => settle (.pand (predOf f.d) (predOf f.a) (predOf f.b) f.pred) [f.predCheck, zeroField 24 (highOf f.d), zeroField 19 (highOf f.a), zeroField 14 (highOf f.b), zeroBit 10 f.ea, zeroBit 9 f.eb]
  | 0x07 => settle (.por (predOf f.d) (predOf f.a) (predOf f.b) f.pred) [f.predCheck, zeroField 24 (highOf f.d), zeroField 19 (highOf f.a), zeroField 14 (highOf f.b), zeroBit 10 f.ea, zeroBit 9 f.eb]
  | 0x08 => settle (.pxor (predOf f.d) (predOf f.a) (predOf f.b) f.pred) [f.predCheck, zeroField 24 (highOf f.d), zeroField 19 (highOf f.a), zeroField 14 (highOf f.b), zeroBit 10 f.ea, zeroBit 9 f.eb]
  | 0x09 => settle (.pandn (predOf f.d) (predOf f.a) (predOf f.b) f.pred) [f.predCheck, zeroField 24 (highOf f.d), zeroField 19 (highOf f.a), zeroField 14 (highOf f.b), zeroBit 10 f.ea, zeroBit 9 f.eb]
  | _ => reservedFunction

/-- MAJ 0x04 (Table 2.7). -/
def decodeMove (f : FieldsG) : Except Illegal Instr :=
  match f.fn.toNat with
  | 0x00 => settle (.mov f.d f.a f.ea f.pred) [f.predCheck, zeroField 11 f.b, zeroBit 9 f.eb]
  | 0x01 => settle (.p2g f.d (predOf f.a) f.pred) [f.predCheck, zeroField 19 (highOf f.a), zeroField 11 f.b, zeroBit 10 f.ea, zeroBit 9 f.eb]
  | 0x02 => settle (.g2p (predOf f.d) f.a f.ea f.pred) [f.predCheck, zeroField 24 (highOf f.d), zeroField 11 f.b, zeroBit 9 f.eb]
  | _ => reservedFunction

/-- MAJ 0x12 (Table 2.7). -/
def decodeJr (f : FieldsG) : Except Illegal Instr :=
  match f.fn.toNat with
  | 0x00 => settle (.jr f.a f.ea f.pred) [f.predCheck, zeroField 21 f.d, zeroField 11 f.b, zeroBit 9 f.eb]
  | _ => reservedFunction

/-- MAJ 0x18 (Table 2.7). -/
def decodeVf (f : FieldsV) : Except Illegal Instr :=
  match f.fn.toNat with
  | 0x00 => settle (.vaddF f.d f.a f.b f.grp f.ty) [typeIn 5 (8 ≤ f.t.toNat && f.t.toNat ≤ 10), alignedTo 21 f.g f.d, alignedTo 16 f.g f.a, alignedTo 11 f.g f.b]
  | 0x01 => settle (.vsubF f.d f.a f.b f.grp f.ty) [typeIn 5 (8 ≤ f.t.toNat && f.t.toNat ≤ 10), alignedTo 21 f.g f.d, alignedTo 16 f.g f.a, alignedTo 11 f.g f.b]
  | 0x02 => settle (.vmulF f.d f.a f.b f.grp f.ty) [typeIn 5 (8 ≤ f.t.toNat && f.t.toNat ≤ 10), alignedTo 21 f.g f.d, alignedTo 16 f.g f.a, alignedTo 11 f.g f.b]
  | 0x03 => settle (.vfma f.d f.a f.b f.grp f.ty) [typeIn 5 (8 ≤ f.t.toNat && f.t.toNat ≤ 10), alignedTo 21 f.g f.d, alignedTo 16 f.g f.a, alignedTo 11 f.g f.b]
  | 0x04 => settle (.vfms f.d f.a f.b f.grp f.ty) [typeIn 5 (8 ≤ f.t.toNat && f.t.toNat ≤ 10), alignedTo 21 f.g f.d, alignedTo 16 f.g f.a, alignedTo 11 f.g f.b]
  | 0x05 => settle (.vminF f.d f.a f.b f.grp f.ty) [typeIn 5 (8 ≤ f.t.toNat && f.t.toNat ≤ 10), alignedTo 21 f.g f.d, alignedTo 16 f.g f.a, alignedTo 11 f.g f.b]
  | 0x06 => settle (.vmaxF f.d f.a f.b f.grp f.ty) [typeIn 5 (8 ≤ f.t.toNat && f.t.toNat ≤ 10), alignedTo 21 f.g f.d, alignedTo 16 f.g f.a, alignedTo 11 f.g f.b]
  | 0x07 => settle (.vminn f.d f.a f.b f.grp f.ty) [typeIn 5 (8 ≤ f.t.toNat && f.t.toNat ≤ 10), alignedTo 21 f.g f.d, alignedTo 16 f.g f.a, alignedTo 11 f.g f.b]
  | 0x08 => settle (.vmaxn f.d f.a f.b f.grp f.ty) [typeIn 5 (8 ≤ f.t.toNat && f.t.toNat ≤ 10), alignedTo 21 f.g f.d, alignedTo 16 f.g f.a, alignedTo 11 f.g f.b]
  | 0x09 => settle (.vabs f.d f.a f.grp f.ty) [zeroField 11 f.b, typeIn 5 (8 ≤ f.t.toNat && f.t.toNat ≤ 10), alignedTo 21 f.g f.d, alignedTo 16 f.g f.a]
  | 0x0A => settle (.vneg f.d f.a f.grp f.ty) [zeroField 11 f.b, typeIn 5 (8 ≤ f.t.toNat && f.t.toNat ≤ 10), alignedTo 21 f.g f.d, alignedTo 16 f.g f.a]
  | 0x0B => settle (.vcpsgn f.d f.a f.b f.grp f.ty) [typeIn 5 (8 ≤ f.t.toNat && f.t.toNat ≤ 10), alignedTo 21 f.g f.d, alignedTo 16 f.g f.a, alignedTo 11 f.g f.b]
  | 0x0C => settle (.vrndi f.d f.a (RndSel.ofCode f.b.toNat) f.grp f.ty) [literalIn 11 (f.b.toNat ≤ 4), typeIn 5 (8 ≤ f.t.toNat && f.t.toNat ≤ 10), alignedTo 21 f.g f.d, alignedTo 16 f.g f.a]
  | 0x0D => settle (.vceqF f.d f.a f.b f.grp f.ty) [typeIn 5 (8 ≤ f.t.toNat && f.t.toNat ≤ 10), alignedTo 21 f.g f.d, alignedTo 16 f.g f.a, alignedTo 11 f.g f.b]
  | 0x0E => settle (.vcltF f.d f.a f.b f.grp f.ty) [typeIn 5 (8 ≤ f.t.toNat && f.t.toNat ≤ 10), alignedTo 21 f.g f.d, alignedTo 16 f.g f.a, alignedTo 11 f.g f.b]
  | 0x0F => settle (.vcle f.d f.a f.b f.grp f.ty) [typeIn 5 (8 ≤ f.t.toNat && f.t.toNat ≤ 10), alignedTo 21 f.g f.d, alignedTo 16 f.g f.a, alignedTo 11 f.g f.b]
  | 0x10 => settle (.vcun f.d f.a f.b f.grp f.ty) [typeIn 5 (8 ≤ f.t.toNat && f.t.toNat ≤ 10), alignedTo 21 f.g f.d, alignedTo 16 f.g f.a, alignedTo 11 f.g f.b]
  | 0x11 => settle (.vclass f.d f.a f.grp f.ty) [zeroField 11 f.b, typeIn 5 (8 ≤ f.t.toNat && f.t.toNat ≤ 10), alignedTo 21 f.g f.d, alignedTo 16 f.g f.a]
  | 0x12 => settle (.vgetexp f.d f.a f.grp f.ty) [zeroField 11 f.b, typeIn 5 (8 ≤ f.t.toNat && f.t.toNat ≤ 10), alignedTo 21 f.g f.d, alignedTo 16 f.g f.a]
  | 0x13 => settle (.vexpins f.d f.a f.b f.grp f.ty) [typeIn 5 (8 ≤ f.t.toNat && f.t.toNat ≤ 10), alignedTo 21 f.g f.d, alignedTo 16 f.g f.a, alignedTo 11 f.g f.b]
  | _ => reservedFunction

/-- MAJ 0x19 (Table 2.7). -/
def decodeVi (f : FieldsV) : Except Illegal Instr :=
  match f.fn.toNat with
  | 0x00 => settle (.vaddI f.d f.a f.b f.grp f.ty) [typeIn 5 (f.t.toNat ≤ 7), alignedTo 21 f.g f.d, alignedTo 16 f.g f.a, alignedTo 11 f.g f.b]
  | 0x01 => settle (.vsubI f.d f.a f.b f.grp f.ty) [typeIn 5 (f.t.toNat ≤ 7), alignedTo 21 f.g f.d, alignedTo 16 f.g f.a, alignedTo 11 f.g f.b]
  | 0x02 => settle (.vmulI f.d f.a f.b f.grp f.ty) [typeIn 5 (f.t.toNat ≤ 7), alignedTo 21 f.g f.d, alignedTo 16 f.g f.a, alignedTo 11 f.g f.b]
  | 0x03 => settle (.vmulh f.d f.a f.b f.grp f.ty) [typeIn 5 (f.t.toNat ≤ 7), alignedTo 21 f.g f.d, alignedTo 16 f.g f.a, alignedTo 11 f.g f.b]
  | 0x04 => settle (.vadds f.d f.a f.b f.grp f.ty) [typeIn 5 (f.t.toNat ≤ 7), alignedTo 21 f.g f.d, alignedTo 16 f.g f.a, alignedTo 11 f.g f.b]
  | 0x05 => settle (.vsubs f.d f.a f.b f.grp f.ty) [typeIn 5 (f.t.toNat ≤ 7), alignedTo 21 f.g f.d, alignedTo 16 f.g f.a, alignedTo 11 f.g f.b]
  | 0x06 => settle (.vminI f.d f.a f.b f.grp f.ty) [typeIn 5 (f.t.toNat ≤ 7), alignedTo 21 f.g f.d, alignedTo 16 f.g f.a, alignedTo 11 f.g f.b]
  | 0x07 => settle (.vmaxI f.d f.a f.b f.grp f.ty) [typeIn 5 (f.t.toNat ≤ 7), alignedTo 21 f.g f.d, alignedTo 16 f.g f.a, alignedTo 11 f.g f.b]
  | 0x08 => settle (.vavg f.d f.a f.b f.grp f.ty) [typeIn 5 (f.t.toNat ≤ 7), alignedTo 21 f.g f.d, alignedTo 16 f.g f.a, alignedTo 11 f.g f.b]
  | 0x09 => settle (.vabsd f.d f.a f.b f.grp f.ty) [typeIn 5 (f.t.toNat ≤ 7), alignedTo 21 f.g f.d, alignedTo 16 f.g f.a, alignedTo 11 f.g f.b]
  | 0x0A => settle (.vsll f.d f.a f.b f.grp f.ty) [typeIn 5 (f.t.toNat ≤ 7), alignedTo 21 f.g f.d, alignedTo 16 f.g f.a, alignedTo 11 f.g f.b]
  | 0x0B => settle (.vsrl f.d f.a f.b f.grp f.ty) [typeIn 5 (f.t.toNat ≤ 7), alignedTo 21 f.g f.d, alignedTo 16 f.g f.a, alignedTo 11 f.g f.b]
  | 0x0C => settle (.vsra f.d f.a f.b f.grp f.ty) [typeIn 5 (f.t.toNat ≤ 7), alignedTo 21 f.g f.d, alignedTo 16 f.g f.a, alignedTo 11 f.g f.b]
  | 0x0D => settle (.vand f.d f.a f.b f.grp f.ty) [typeIn 5 (f.t.toNat ≤ 7), alignedTo 21 f.g f.d, alignedTo 16 f.g f.a, alignedTo 11 f.g f.b]
  | 0x0E => settle (.vor f.d f.a f.b f.grp f.ty) [typeIn 5 (f.t.toNat ≤ 7), alignedTo 21 f.g f.d, alignedTo 16 f.g f.a, alignedTo 11 f.g f.b]
  | 0x0F => settle (.vxor f.d f.a f.b f.grp f.ty) [typeIn 5 (f.t.toNat ≤ 7), alignedTo 21 f.g f.d, alignedTo 16 f.g f.a, alignedTo 11 f.g f.b]
  | 0x10 => settle (.vandn f.d f.a f.b f.grp f.ty) [typeIn 5 (f.t.toNat ≤ 7), alignedTo 21 f.g f.d, alignedTo 16 f.g f.a, alignedTo 11 f.g f.b]
  | 0x11 => settle (.vceqI f.d f.a f.b f.grp f.ty) [typeIn 5 (f.t.toNat ≤ 7), alignedTo 21 f.g f.d, alignedTo 16 f.g f.a, alignedTo 11 f.g f.b]
  | 0x12 => settle (.vcltI f.d f.a f.b f.grp f.ty) [typeIn 5 (f.t.toNat ≤ 7), alignedTo 21 f.g f.d, alignedTo 16 f.g f.a, alignedTo 11 f.g f.b]
  | 0x13 => settle (.vsel f.d f.a f.b f.grp f.ty) [typeIn 5 (f.t.toNat ≤ 7), alignedTo 21 f.g f.d, alignedTo 16 f.g f.a, alignedTo 11 f.g f.b]
  | 0x14 => settle (.vmac f.d f.a f.b f.grp f.ty) [typeIn 5 (f.t.toNat ≤ 7), alignedTo 21 f.g f.d, alignedTo 16 f.g f.a, alignedTo 11 f.g f.b]
  | _ => reservedFunction

/-- MAJ 0x1A (Table 2.7). -/
def decodeVp (f : FieldsV) : Except Illegal Instr :=
  match f.fn.toNat with
  | 0x00 => settle (.vbc f.d f.a f.grp f.ty) [zeroField 11 f.b, typeIn 5 (f.t.toNat ≤ 12), alignedTo 21 f.g f.d]
  | 0x01 => settle (.vins f.d f.a f.b f.grp f.ty) [typeIn 5 (f.t.toNat ≤ 12), alignedTo 21 f.g f.d]
  | 0x02 => settle (.vext f.d f.a f.b f.grp f.ty) [typeIn 5 (f.t.toNat ≤ 12), alignedTo 16 f.g f.a]
  | 0x03 => settle (.vperm f.d f.a f.b f.grp f.ty) [typeIn 5 (f.t.toNat ≤ 12), alignedTo 21 f.g f.d, alignedTo 16 f.g f.a, alignedTo 11 f.g f.b]
  | 0x04 => settle (.vzip f.d f.a f.b f.grp f.ty) [typeIn 5 (f.t.toNat ≤ 12), alignedTo 21 (2 * f.g) f.d, alignedTo 16 f.g f.a, alignedTo 11 f.g f.b]
  | 0x05 => settle (.vuzp f.d f.a f.grp f.ty) [zeroField 11 f.b, typeIn 5 (f.t.toNat ≤ 12), alignedTo 21 (2 * f.g) f.d, alignedTo 16 (2 * f.g) f.a]
  | 0x06 => settle (.vslide f.d f.a f.b f.grp f.ty) [typeIn 5 (f.t.toNat ≤ 12), alignedTo 21 f.g f.d, alignedTo 16 f.g f.a]
  | 0x07 => settle (.vrot f.d f.a f.b f.grp f.ty) [typeIn 5 (f.t.toNat ≤ 12), alignedTo 21 f.g f.d, alignedTo 16 f.g f.a]
  | _ => reservedFunction

/-- MAJ 0x1B (Table 2.7). -/
def decodeVr (f : FieldsV) : Except Illegal Instr :=
  match f.fn.toNat with
  | 0x00 => settle (.vradd f.d f.a f.grp f.ty) [zeroField 11 f.b, typeIn 5 (f.t.toNat ≤ 10), alignedTo 16 f.g f.a]
  | 0x01 => settle (.vrmin f.d f.a f.grp f.ty) [zeroField 11 f.b, typeIn 5 (f.t.toNat ≤ 10), alignedTo 16 f.g f.a]
  | 0x02 => settle (.vrmax f.d f.a f.grp f.ty) [zeroField 11 f.b, typeIn 5 (f.t.toNat ≤ 10), alignedTo 16 f.g f.a]
  | 0x03 => settle (.vdot4 f.d f.a f.b f.grp f.ty) [typeIn 5 (f.t.toNat ≤ 1), alignedTo 21 f.g f.d, alignedTo 16 f.g f.a, alignedTo 11 f.g f.b]
  | 0x04 => settle (.vdot2 f.d f.a f.b f.grp f.ty) [typeIn 5 (f.t.toNat == 2 || f.t.toNat == 3 || f.t.toNat == 10), alignedTo 21 f.g f.d, alignedTo 16 f.g f.a, alignedTo 11 f.g f.b]
  | _ => reservedFunction

/-- MAJ 0x1C (Table 2.7). -/
def decodeConvert (f : FieldsV) : Except Illegal Instr :=
  match f.fn.toNat with
  | 0x00 => settle (.vcvt f.d f.a (ElemTy.ofCode (f.b.extractLsb' 0 4).toNat) (f.b.getLsbD 4) f.grp f.ty) [typeIn 11 ((f.b.extractLsb' 0 4).toNat ≤ 12), typeIn 5 (f.t.toNat ≤ 12), pairIn 11 (f.b.extractLsb' 0 4 != f.t), alignedTo 21 (cvtDstRegs f) f.d, alignedTo 16 (cvtSrcRegs f) f.a]
  | 0x02 => settle (.vq f.d f.a f.b f.grp f.ty) [literalIn 9 (f.w != 0), typeIn 5 (f.t.toNat == 13 || f.t.toNat == 14), alignedTo 21 (qRegs (f.t == 14) (qGroup (f.w.toNat - 1))) f.d, alignedTo 16 f.g f.a]
  | 0x03 => settle (.vdq f.d f.a (f.b == 1) f.grp f.ty) [literalIn 11 (f.b.toNat ≤ 1), literalIn 9 (!(f.t.toNat == 8 && f.w == 0) && !((f.t.toNat == 9 || f.t.toNat == 10) && f.w == 3)), typeIn 5 (8 ≤ f.t.toNat && f.t.toNat ≤ 10), alignedTo 21 f.g f.d, alignedTo 16 (qRegs (f.b == 1) (qGroup (if f.t == 8 then f.w.toNat - 1 else f.w.toNat))) f.a]
  | 0x04 => settle (.vpk f.d f.a f.grp f.ty) [zeroField 11 f.b, typeIn 5 (f.t.toNat ≤ 1), alignedTo 21 (narrowRegs f.g 1 2) f.d, alignedTo 16 f.g f.a]
  | 0x05 => settle (.vunpk f.d f.a f.grp f.ty) [zeroField 11 f.b, typeIn 5 (f.t.toNat ≤ 1), alignedTo 21 f.g f.d, alignedTo 16 (narrowRegs f.g 1 2) f.a]
  | _ => reservedFunction

/-- MAJ 0x1D (Table 2.7). -/
def decodeVx (f : FieldsV) : Except Illegal Instr :=
  match f.fn.toNat with
  | 0x00 => settle (.vmov f.d f.a f.grp) [zeroField 11 f.b, typeIn 5 (f.t == 0), alignedTo 21 f.g f.d, alignedTo 16 f.g f.a]
  | 0x01 => settle (.vzero f.d f.grp) [zeroField 16 f.a, zeroField 11 f.b, typeIn 5 (f.t == 0), alignedTo 21 f.g f.d]
  | 0x02 => settle (.vlane f.d f.grp f.ty) [zeroField 16 f.a, zeroField 11 f.b, typeIn 5 (f.t.toNat ≤ 7), alignedTo 21 f.g f.d]
  | _ => reservedFunction

/-- MAJ 0x20 (Table 2.7). -/
def decodeSfu (f : FieldsV) : Except Illegal Instr :=
  match f.fn.toNat with
  | 0x00 => settle (.vrcp f.d f.a f.grp) [zeroField 11 f.b, typeIn 5 (f.t == 8), alignedTo 21 f.g f.d, alignedTo 16 f.g f.a]
  | 0x01 => settle (.vrsqrt f.d f.a f.grp) [zeroField 11 f.b, typeIn 5 (f.t == 8), alignedTo 21 f.g f.d, alignedTo 16 f.g f.a]
  | 0x02 => settle (.vsqrt f.d f.a f.grp) [zeroField 11 f.b, typeIn 5 (f.t == 8), alignedTo 21 f.g f.d, alignedTo 16 f.g f.a]
  | 0x03 => settle (.vdiv f.d f.a f.b f.grp) [typeIn 5 (f.t == 8), alignedTo 21 f.g f.d, alignedTo 16 f.g f.a, alignedTo 11 f.g f.b]
  | 0x04 => settle (.vfexp2 f.d f.a f.grp) [zeroField 11 f.b, typeIn 5 (f.t == 8), alignedTo 21 f.g f.d, alignedTo 16 f.g f.a]
  | 0x05 => settle (.vlog2 f.d f.a f.grp) [zeroField 11 f.b, typeIn 5 (f.t == 8), alignedTo 21 f.g f.d, alignedTo 16 f.g f.a]
  | 0x06 => settle (.vsinpi f.d f.a f.grp) [zeroField 11 f.b, typeIn 5 (f.t == 8), alignedTo 21 f.g f.d, alignedTo 16 f.g f.a]
  | 0x07 => settle (.vcospi f.d f.a f.grp) [zeroField 11 f.b, typeIn 5 (f.t == 8), alignedTo 21 f.g f.d, alignedTo 16 f.g f.a]
  | 0x08 => settle (.vtanh f.d f.a f.grp) [zeroField 11 f.b, typeIn 5 (f.t == 8), alignedTo 21 f.g f.d, alignedTo 16 f.g f.a]
  | _ => reservedFunction

/-- MAJ 0x21 (Table 2.7). -/
def decodeVgs (f : FieldsV) : Except Illegal Instr :=
  match f.fn.toNat with
  | 0x00 => settle (.vgath f.d f.a f.b f.grp f.ty) [typeIn 5 ((f.w == 0 && (f.t == 4 || f.t == 5 || f.t == 8)) || (f.w == 1 && (f.t == 6 || f.t == 7))), alignedTo 21 f.g f.d]
  | 0x01 => settle (.vscat f.d f.a f.b f.grp f.ty) [typeIn 5 ((f.w == 0 && (f.t == 4 || f.t == 5 || f.t == 8)) || (f.w == 1 && (f.t == 6 || f.t == 7))), alignedTo 21 f.g f.d]
  | _ => reservedFunction

/-- MAJ 0x25 (Table 2.7). -/
def decodeMatrix (f : FieldsC) : Except Illegal Instr :=
  match f.fn.toNat with
  | 0x00 => settle (.mgset f.a (f.x.extractLsb' 0 3)) [zeroField 21 f.d, zeroField 11 f.b, zeroField 8 (f.x.extractLsb' 3 3)]
  | 0x01 => settle (.mgget f.d (f.x.extractLsb' 0 3)) [zeroField 16 f.a, zeroField 11 f.b, zeroField 8 (f.x.extractLsb' 3 3)]
  | 0x02 => settle (.owne f.d f.a) [zeroField 11 f.b, zeroField 5 f.x]
  | 0x03 => settle (.ownq f.d) [zeroField 16 f.a, zeroField 11 f.b, zeroField 5 f.x]
  | 0x04 => settle (.mwait) [zeroField 21 f.d, zeroField 16 f.a, zeroField 11 f.b, zeroField 5 f.x]
  | 0x05 => settle (.accz f.a) [zeroField 21 f.d, zeroField 11 f.b, zeroField 5 f.x]
  | 0x06 => settle (.accst f.a f.b (AccFmt.ofCode (f.x.extractLsb' 3 2).toNat) (f.x.extractLsb' 0 3)) [zeroField 21 f.d, zeroField 10 (f.x.extractLsb' 5 1), literalIn 8 (f.x.extractLsb' 3 2 != 3)]
  | 0x07 => settle (.accld f.a f.b (AccFmt.ofCode (f.x.extractLsb' 3 2).toNat) (f.x.extractLsb' 0 3)) [zeroField 21 f.d, zeroField 10 (f.x.extractLsb' 5 1), literalIn 8 (f.x.extractLsb' 3 2 != 3)]
  | 0x08 => settle (.abld f.a f.b (f.x.extractLsb' 0 2)) [zeroField 21 f.d, zeroField 7 (f.x.extractLsb' 2 4)]
  | 0x09 => settle (.wbld f.a f.b (f.x.extractLsb' 0 2)) [zeroField 21 f.d, zeroField 7 (f.x.extractLsb' 2 4)]
  | _ => reservedFunction

/-- MAJ 0x28 (Table 2.7). -/
def decodeTrellis (f : FieldsC) : Except Illegal Instr :=
  match f.fn.toNat with
  | 0x00 => settle (.twset f.d f.a (f.x.extractLsb' 0 2)) [zeroField 11 f.b, zeroField 7 (f.x.extractLsb' 2 4)]
  | 0x01 => settle (.tdec f.d f.a f.b (Grp.ofCode (f.x.extractLsb' 2 2).toNat) (f.x.extractLsb' 0 2)) [zeroField 9 (f.x.extractLsb' 4 2), alignedTo 21 (Grp.ofCode (f.x.extractLsb' 2 2).toNat).regs f.d]
  | 0x02 => settle (.tdecr f.d f.a f.b (f.x.extractLsb' 0 2)) [zeroField 7 (f.x.extractLsb' 2 4)]
  | 0x03 => settle (.tenc f.d f.a f.b) [zeroField 5 f.x]
  | 0x04 => settle (.tencw f.d) [zeroField 16 f.a, zeroField 11 f.b, zeroField 5 f.x]
  | _ => reservedFunction

/-- MAJ 0x2A (Table 2.7). -/
def decodeVault (f : FieldsC) : Except Illegal Instr :=
  match f.fn.toNat with
  | 0x00 => settle (.rowact f.a) [zeroField 21 f.d, zeroField 11 f.b, zeroField 5 f.x]
  | 0x01 => settle (.rowpre f.a) [zeroField 21 f.d, zeroField 11 f.b, zeroField 5 f.x]
  | 0x02 => settle (.tld f.a f.b f.x) [zeroField 21 f.d]
  | 0x03 => settle (.tst f.a f.b f.x) [zeroField 21 f.d]
  | 0x04 => settle (.rowq f.d f.a) [zeroField 11 f.b, zeroField 5 f.x]
  | 0x05 => settle (.vsync) [zeroField 21 f.d, zeroField 16 f.a, zeroField 11 f.b, zeroField 5 f.x]
  | 0x06 => settle (.pmig f.d f.a f.b) [zeroField 5 f.x]
  | 0x07 => settle (.ptq f.d f.a) [zeroField 11 f.b, zeroField 5 f.x]
  | _ => reservedFunction

/-- MAJ 0x2C (Table 2.7). -/
def decodeStream (f : FieldsC) : Except Illegal Instr :=
  match f.fn.toNat with
  | 0x00 => settle (.cpy f.d f.a (f.x.extractLsb' 0 4)) [zeroField 11 f.b, zeroField 9 (f.x.extractLsb' 4 2)]
  | 0x01 => settle (.cpyq f.d f.a) [zeroField 11 f.b, zeroField 5 f.x]
  | 0x02 => settle (.cpyw f.d f.a) [zeroField 11 f.b, zeroField 5 f.x]
  | 0x03 => settle (.sbind f.d f.a (f.x.extractLsb' 0 3)) [zeroField 11 f.b, zeroField 8 (f.x.extractLsb' 3 3)]
  | 0x04 => settle (.sunb f.d (f.x.extractLsb' 0 3)) [zeroField 16 f.a, zeroField 11 f.b, zeroField 8 (f.x.extractLsb' 3 3)]
  | 0x05 => settle (.sparkq f.d f.a) [zeroField 11 f.b, zeroField 5 f.x]
  | _ => reservedFunction

/-- MAJ 0x2E (Table 2.7). -/
def decodeRemote (f : FieldsC) : Except Illegal Instr :=
  match f.fn.toNat with
  | 0x00 => settle (.rget f.d f.a f.b (RemSize.ofCode (f.x.extractLsb' 0 3).toNat)) [zeroField 8 (f.x.extractLsb' 3 3), literalIn 5 ((f.x.extractLsb' 0 3).toNat ≤ 4)]
  | 0x01 => settle (.rput f.d f.a f.b (RemSize.ofCode (f.x.extractLsb' 0 3).toNat)) [zeroField 8 (f.x.extractLsb' 3 3), literalIn 5 ((f.x.extractLsb' 0 3).toNat ≤ 4)]
  | 0x02 => settle (.rfop f.d f.a f.b (RfopShape.ofCode (f.x.extractLsb' 4 2).toNat) (FopOp.ofCode (f.x.extractLsb' 0 4).toNat)) [literalIn 9 (!((f.x.extractLsb' 0 4) == 9 && f.x.extractLsb' 4 2 == 1)), literalIn 5 ((f.x.extractLsb' 0 4).toNat ≤ 9)]
  | 0x03 => settle (.rcas f.d f.a f.b (OpSize.ofCode (f.x.extractLsb' 0 1).toNat)) [zeroField 6 (f.x.extractLsb' 1 5), ⟨8, 21, f.d == 0 || f.d.getLsbD 0⟩]
  | 0x04 => settle (.amsg f.d f.a f.b) [zeroField 5 f.x]
  | 0x05 => settle (.msend f.d f.a f.b) [zeroField 5 f.x]
  | 0x06 => settle (.mrecv f.d f.a (f.x.getLsbD 0)) [zeroField 11 f.b, zeroField 6 (f.x.extractLsb' 1 5)]
  | 0x07 => settle (.rstat f.d) [zeroField 16 f.a, zeroField 11 f.b, zeroField 5 f.x]
  | _ => reservedFunction

/-- MAJ 0x31 (Table 2.7). -/
def decodeCas (f : FieldsG) : Except Illegal Instr :=
  match f.fn.toNat with
  | 0 => settle (.cas f.d f.a f.b f.ea f.eb f.pred (OpSize.ofCode (f.fn.toNat % 2))) [f.predCheck]
  | 1 => settle (.cas f.d f.a f.b f.ea f.eb f.pred (OpSize.ofCode (f.fn.toNat % 2))) [f.predCheck]
  | _ => reservedFunction

/-- MAJ 0x32 (Table 2.7). -/
def decodeSync (f : FieldsC) : Except Illegal Instr :=
  match f.fn.toNat with
  | 0x00 => settle (.fence f.a (Scope.ofCode (f.x.extractLsb' 3 3).toNat) (f.x.getLsbD 0) (f.x.getLsbD 1) (f.x.getLsbD 2)) [zeroField 21 f.d, ⟨4, 16, f.x.extractLsb' 3 3 != 2 && f.a != 0⟩, zeroField 11 f.b, literalIn 8 ((f.x.extractLsb' 3 3).toNat ≤ 4), literalIn 5 ((f.x.extractLsb' 0 3) != 0)]
  | 0x01 => settle (.wait f.d f.a f.b) [zeroField 5 f.x]
  | 0x02 => settle (.signal f.a f.b) [zeroField 21 f.d, zeroField 5 f.x]
  | 0x03 => settle (.sstep f.a f.b) [zeroField 21 f.d, zeroField 5 f.x]
  | 0x04 => settle (.bar f.a f.b) [zeroField 21 f.d, zeroField 5 f.x]
  | 0x05 => settle (.redm f.d f.a f.b) [zeroField 5 f.x]
  | 0x06 => settle (.ownf f.d f.a f.b) [zeroField 5 f.x]
  | 0x07 => settle (.fencei) [zeroField 21 f.d, zeroField 16 f.a, zeroField 11 f.b, zeroField 5 f.x]
  | _ => reservedFunction

/-- MAJ 0x34 (Table 2.7). -/
def decodeCalendar (f : FieldsC) : Except Illegal Instr :=
  match f.fn.toNat with
  | 0x00 => settle (.book f.d f.a f.b) [zeroField 5 f.x]
  | 0x01 => settle (.arm f.a) [zeroField 21 f.d, zeroField 11 f.b, zeroField 5 f.x]
  | 0x02 => settle (.done) [zeroField 21 f.d, zeroField 16 f.a, zeroField 11 f.b, zeroField 5 f.x]
  | 0x03 => settle (.unbook f.d f.a) [zeroField 11 f.b, zeroField 5 f.x]
  | 0x04 => settle (.calq f.d f.a f.b) [zeroField 5 f.x]
  | 0x05 => settle (.calmv f.d f.a f.b) [zeroField 5 f.x]
  | _ => reservedFunction

/-- MAJ 0x36 (Table 2.7). -/
def decodeTask (f : FieldsC) : Except Illegal Instr :=
  match f.fn.toNat with
  | 0x00 => settle (.spawn f.d f.a) [zeroField 11 f.b, zeroField 5 f.x]
  | 0x01 => settle (.take f.d f.a) [zeroField 11 f.b, zeroField 5 f.x]
  | 0x02 => settle (.seek f.d f.a) [zeroField 11 f.b, zeroField 5 f.x]
  | 0x03 => settle (.tfin f.a) [zeroField 21 f.d, zeroField 11 f.b, zeroField 5 f.x]
  | 0x04 => settle (.term f.d) [zeroField 16 f.a, zeroField 11 f.b, zeroField 5 f.x]
  | 0x05 => settle (.dqn f.d) [zeroField 16 f.a, zeroField 11 f.b, zeroField 5 f.x]
  | _ => reservedFunction

/-- MAJ 0x38 (Table 2.7). -/
def decodeSystem (f : FieldsG) (c : FieldsCsr) : Except Illegal Instr :=
  match f.fn.toNat with
  | 0x00 => settle (.trap f.a f.b f.ea f.eb f.pred) [f.predCheck, zeroField 21 f.d]
  | 0x01 => settle (.eret f.d f.a f.b f.ea f.eb f.pred) [f.predCheck]
  | 0x02 => settle (.halt f.a f.ea f.pred) [f.predCheck, zeroField 21 f.d, zeroField 11 f.b, zeroBit 9 f.eb]
  | 0x03 => settle (.sysc f.d f.a f.b f.ea f.eb f.pred) [f.predCheck]
  | 0x04 => settle (.brk f.b f.pred) [f.predCheck, zeroField 21 f.d, zeroField 16 f.a, zeroBit 10 f.ea, zeroBit 9 f.eb]
  | 0x05 => settle (.trc f.a f.b f.ea f.eb f.pred) [f.predCheck, zeroField 21 f.d]
  | 0x06 => let f := c; settle (.csrr f.d f.csrn) [zeroField 16 f.a, ⟨9, 5, f.csrn.toNat < 0x400 && !csrAssigned f.csrn.toNat⟩]
  | 0x07 => let f := c; settle (.csrw f.d f.a f.csrn) [⟨9, 5, f.csrn.toNat < 0x400 && !csrAssigned f.csrn.toNat⟩]
  | 0x08 => let f := c; settle (.csrs f.d f.a f.csrn) [⟨9, 5, f.csrn.toNat < 0x400 && !csrAssigned f.csrn.toNat⟩]
  | 0x09 => let f := c; settle (.csrc f.d f.a f.csrn) [⟨9, 5, f.csrn.toNat < 0x400 && !csrAssigned f.csrn.toNat⟩]
  | _ => reservedFunction

/-- MAJ 0x30 (Table 2.7, R74). -/
def decodeFop (f : FieldsG) : Except Illegal Instr :=
  if f.fn == 0x19 || 10 ≤ (f.fn.extractLsb' 0 4).toNat then reservedFunction
  else settle (.fop f.d f.a f.b f.ea f.eb f.pred (OpSize.ofCode (f.fn.extractLsb' 4 1).toNat) (FopOp.ofCode (f.fn.extractLsb' 0 4).toNat)) [f.predCheck]

/-- MAJ 0x09, the immediate shifts by IMM[15:14] (R69). -/
def decodeShift (f : FieldsI) : Except Illegal Instr :=
  let amt := f.imm.extractLsb' 0 6
  let mbz : Check := zeroField 6 (f.imm.extractLsb' 6 8)
  match (f.imm.extractLsb' 14 2).toNat with
  | 0 => settle (.slli f.d f.a amt) [mbz]
  | 1 => settle (.srli f.d f.a amt) [mbz]
  | 2 => settle (.srai f.d f.a amt) [mbz]
  | _ => settle (.slli f.d f.a amt) [mbz, literalIn 14 false]

/-- Whether some permitted pair of the shape has this FMTB (R75, reason 7). -/
def shapeTakesB (s : Shape) (b : FmtB) : Bool :=
  [FmtA.bf16, .f16, .e4m3, .e5m2, .q8, .f32].any fun a => pairPermitted s a b

/-- MAJ 0x24 (R72, R75, R240). -/
def decodeMma (f : FieldsM) : Except Illegal Instr :=
  let s := Shape.ofCode f.shape.toNat
  let fa := FmtA.ofCode f.fa.toNat
  let fb := FmtB.ofCode f.fb.toNat
  settle (.mma f.acc f.ab f.wb s fb fa f.ovr f.sha f.tra)
    [zeroField 0 f.low, pairIn 16 (f.shape.toNat ≤ 2), pairIn 12 (f.fb.toNat ≤ 9 && shapeTakesB s fb),
     pairIn 9 (f.fa.toNat ≤ 5 && pairPermitted s fa fb), pairIn 7 (!(f.sha && s != .bd8)), pairIn 6 (!(f.tra && s == .skinny)),
     ⟨8, 21, s == .sq && fa == .q8 && fb == .q4 && f.ab.getLsbD 0⟩, ⟨8, 19, s == .bd8 && fb == .f32 && f.wb.getLsbD 0⟩]

/-- The instruction a word names, or the fate R75 gives it. Decoding does not look at the privilege state; the forms that
raise PRIV do so when they issue (R55, R75). -/
def decodeWord (w : Insn) : Except Illegal Instr :=
  match (majorOf w).toNat with
  | 0x01 => decodeAlu (fieldsG w)
  | 0x02 => decodePtr (fieldsG w)
  | 0x03 => decodePred (fieldsG w)
  | 0x04 => decodeMove (fieldsG w)
  | 0x05 => let f := fieldsI w; settle (.addi f.d f.a f.imm) []
  | 0x06 => let f := fieldsI w; settle (.andi f.d f.a f.imm) []
  | 0x07 => let f := fieldsI w; settle (.ori f.d f.a f.imm) []
  | 0x08 => let f := fieldsI w; settle (.xori f.d f.a f.imm) []
  | 0x09 => decodeShift (fieldsI w)
  | 0x0A => let f := fieldsI w; settle (.li f.d f.imm) [zeroField 16 f.a]
  | 0x0B => let f := fieldsI w; settle (.lui f.d f.a f.imm) []
  | 0x0C => let f := fieldsI w; settle (.luh f.d f.a f.imm) []
  | 0x0D => let f := fieldsI w; settle (.lut f.d f.a f.imm) []
  | 0x0E => let f := fieldsI w; settle (.cmpi (Rel.ofCode (highOf f.d).toNat) (predOf f.d) f.a f.imm) []
  | 0x10 => let f := fieldsB w; settle (.br ⟨f.p, f.pn⟩ f.off) [f.predCheck]
  | 0x11 => let f := fieldsB w; settle (.call ⟨f.p, f.pn⟩ f.off) [f.predCheck]
  | 0x12 => decodeJr (fieldsG w)
  | 0x13 => let f := fieldsI w; settle (.dbnz f.d f.imm) [zeroField 16 f.a]
  | 0x14 => let f := fieldsS w; settle (.ld f.d f.a (Size.ofCode f.z.toNat) (Qual.ofCode f.q.toNat) f.off) []
  | 0x15 => let f := fieldsS w; settle (.ldu f.d f.a (Size.ofCode f.z.toNat) (Qual.ofCode f.q.toNat) f.off) [typeIn 14 (f.z != 3)]
  | 0x16 => let f := fieldsS w; settle (.st f.d f.a (Size.ofCode f.z.toNat) (Qual.ofCode f.q.toNat) f.off) []
  | 0x18 => decodeVf (fieldsV w)
  | 0x19 => decodeVi (fieldsV w)
  | 0x1A => decodeVp (fieldsV w)
  | 0x1B => decodeVr (fieldsV w)
  | 0x1C => decodeConvert (fieldsV w)
  | 0x1D => decodeVx (fieldsV w)
  | 0x20 => decodeSfu (fieldsV w)
  | 0x21 => decodeVgs (fieldsV w)
  | 0x22 => let f := fieldsVm w; settle (.vld f.d f.a (Grp.ofCode f.w.toNat) (ElemTy.ofCode f.t.toNat) (Qual.ofCode f.q.toNat) f.off)
      [literalIn 14 (!((f.t == 13 || f.t == 14) && f.w == 3)), alignedTo 21 (vmRegs f) f.d]
  | 0x23 => let f := fieldsVm w; settle (.vst f.d f.a (Grp.ofCode f.w.toNat) (ElemTy.ofCode f.t.toNat) (Qual.ofCode f.q.toNat) f.off)
      [literalIn 14 (!((f.t == 13 || f.t == 14) && f.w == 3)), alignedTo 21 (vmRegs f) f.d]
  | 0x24 => decodeMma (fieldsM w)
  | 0x25 => decodeMatrix (fieldsC w)
  | 0x28 => decodeTrellis (fieldsC w)
  | 0x2A => decodeVault (fieldsC w)
  | 0x2C => decodeStream (fieldsC w)
  | 0x2E => decodeRemote (fieldsC w)
  | 0x30 => decodeFop (fieldsG w)
  | 0x31 => decodeCas (fieldsG w)
  | 0x32 => decodeSync (fieldsC w)
  | 0x34 => decodeCalendar (fieldsC w)
  | 0x36 => decodeTask (fieldsC w)
  | 0x38 => decodeSystem (fieldsG w) (fieldsCsr w)
  | _ => .error ⟨1, 26⟩

/-- Why bytes are not an instruction. -/
inductive DecodeReject
  /-- Fewer than four bytes (R56). -/
  | short
  /-- A word that is not an instruction (R75). -/
  | illegal (i : Illegal)
  deriving DecidableEq, Repr

/-- The little-endian word of four bytes (R8). -/
def wordOfBytes (b0 b1 b2 b3 : Byte) : Insn := b3 ++ b2 ++ b1 ++ b0

/-- The bytes of a word, lowest address first (R8). -/
def bytesOfWord (w : Insn) : List Byte :=
  [w.extractLsb' 0 8, w.extractLsb' 8 8, w.extractLsb' 16 8, w.extractLsb' 24 8]

/-- Decoding is total on any bytes: the instruction and the bytes after it, or a rejection by name. -/
def decode : List Byte → Except DecodeReject (Instr × List Byte)
  | b0 :: b1 :: b2 :: b3 :: rest =>
    match decodeWord (wordOfBytes b0 b1 b2 b3) with
    | .ok i => .ok (i, rest)
    | .error e => .error (.illegal e)
  | _ => .error .short

/-- An instruction read as the opcode table numbers its bits. -/
def decodeTableWord (nbits w : Nat) : Option Instr :=
  if nbits = 32 then
    match decode (bytesOfWord (BitVec.ofNat 32 w)) with
    | .ok (i, _) => some i
    | .error _ => none
  else none

/-! ### The encoder -/

/-- The word of a well-formed instruction, from the encoding each entry gives; the device events have none. -/
def encodeWord : Instr → Option Insn
  | .add d a b ea eb q => some (wordG 0x01 ⟨d, a, b, ea, eb, q.p, q.neg, 0x00⟩)
  | .sub d a b ea eb q => some (wordG 0x01 ⟨d, a, b, ea, eb, q.p, q.neg, 0x01⟩)
  | .and d a b ea eb q => some (wordG 0x01 ⟨d, a, b, ea, eb, q.p, q.neg, 0x02⟩)
  | .or d a b ea eb q => some (wordG 0x01 ⟨d, a, b, ea, eb, q.p, q.neg, 0x03⟩)
  | .xor d a b ea eb q => some (wordG 0x01 ⟨d, a, b, ea, eb, q.p, q.neg, 0x04⟩)
  | .andn d a b ea eb q => some (wordG 0x01 ⟨d, a, b, ea, eb, q.p, q.neg, 0x05⟩)
  | .sll d a b ea eb q => some (wordG 0x01 ⟨d, a, b, ea, eb, q.p, q.neg, 0x06⟩)
  | .srl d a b ea eb q => some (wordG 0x01 ⟨d, a, b, ea, eb, q.p, q.neg, 0x07⟩)
  | .sra d a b ea eb q => some (wordG 0x01 ⟨d, a, b, ea, eb, q.p, q.neg, 0x08⟩)
  | .min d a b ea eb q => some (wordG 0x01 ⟨d, a, b, ea, eb, q.p, q.neg, 0x09⟩)
  | .max d a b ea eb q => some (wordG 0x01 ⟨d, a, b, ea, eb, q.p, q.neg, 0x0A⟩)
  | .minu d a b ea eb q => some (wordG 0x01 ⟨d, a, b, ea, eb, q.p, q.neg, 0x0B⟩)
  | .maxu d a b ea eb q => some (wordG 0x01 ⟨d, a, b, ea, eb, q.p, q.neg, 0x0C⟩)
  | .slt d a b ea eb q => some (wordG 0x01 ⟨d, a, b, ea, eb, q.p, q.neg, 0x0D⟩)
  | .sltu d a b ea eb q => some (wordG 0x01 ⟨d, a, b, ea, eb, q.p, q.neg, 0x0E⟩)
  | .seq d a b ea eb q => some (wordG 0x01 ⟨d, a, b, ea, eb, q.p, q.neg, 0x0F⟩)
  | .mul d a b ea eb q => some (wordG 0x01 ⟨d, a, b, ea, eb, q.p, q.neg, 0x10⟩)
  | .mulh d a b ea eb q => some (wordG 0x01 ⟨d, a, b, ea, eb, q.p, q.neg, 0x11⟩)
  | .mulhu d a b ea eb q => some (wordG 0x01 ⟨d, a, b, ea, eb, q.p, q.neg, 0x12⟩)
  | .div d a b ea eb q => some (wordG 0x01 ⟨d, a, b, ea, eb, q.p, q.neg, 0x13⟩)
  | .divu d a b ea eb q => some (wordG 0x01 ⟨d, a, b, ea, eb, q.p, q.neg, 0x14⟩)
  | .rem d a b ea eb q => some (wordG 0x01 ⟨d, a, b, ea, eb, q.p, q.neg, 0x15⟩)
  | .remu d a b ea eb q => some (wordG 0x01 ⟨d, a, b, ea, eb, q.p, q.neg, 0x16⟩)
  | .clz d a ea q => some (wordG 0x01 ⟨d, a, 0, ea, false, q.p, q.neg, 0x17⟩)
  | .ctz d a ea q => some (wordG 0x01 ⟨d, a, 0, ea, false, q.p, q.neg, 0x18⟩)
  | .popc d a ea q => some (wordG 0x01 ⟨d, a, 0, ea, false, q.p, q.neg, 0x19⟩)
  | .sext d a w ea q => some (wordG 0x01 ⟨d, a, w.code, ea, false, q.p, q.neg, 0x1A⟩)
  | .zext d a w ea q => some (wordG 0x01 ⟨d, a, w.code, ea, false, q.p, q.neg, 0x1B⟩)
  | .addp d a b ea eb q => some (wordG 0x02 ⟨d, a, b, ea, eb, q.p, q.neg, 0x00⟩)
  | .subp d a b ea eb q => some (wordG 0x02 ⟨d, a, b, ea, eb, q.p, q.neg, 0x01⟩)
  | .ptag d a b ea eb q => some (wordG 0x02 ⟨d, a, b, ea, eb, q.p, q.neg, 0x02⟩)
  | .gtag d a ea q => some (wordG 0x02 ⟨d, a, 0, ea, false, q.p, q.neg, 0x03⟩)
  | .pva d a ea q => some (wordG 0x02 ⟨d, a, 0, ea, false, q.p, q.neg, 0x04⟩)
  | .pchk d a ea q => some (wordG 0x02 ⟨d, a, 0, ea, false, q.p, q.neg, 0x05⟩)
  | .ceq d a b ea eb q => some (wordG 0x03 ⟨d.setWidth 5, a, b, ea, eb, q.p, q.neg, 0x00⟩)
  | .cne d a b ea eb q => some (wordG 0x03 ⟨d.setWidth 5, a, b, ea, eb, q.p, q.neg, 0x01⟩)
  | .clt d a b ea eb q => some (wordG 0x03 ⟨d.setWidth 5, a, b, ea, eb, q.p, q.neg, 0x02⟩)
  | .cltu d a b ea eb q => some (wordG 0x03 ⟨d.setWidth 5, a, b, ea, eb, q.p, q.neg, 0x03⟩)
  | .cge d a b ea eb q => some (wordG 0x03 ⟨d.setWidth 5, a, b, ea, eb, q.p, q.neg, 0x04⟩)
  | .cgeu d a b ea eb q => some (wordG 0x03 ⟨d.setWidth 5, a, b, ea, eb, q.p, q.neg, 0x05⟩)
  | .pand d a b q => some (wordG 0x03 ⟨d.setWidth 5, a.setWidth 5, b.setWidth 5, false, false, q.p, q.neg, 0x06⟩)
  | .por d a b q => some (wordG 0x03 ⟨d.setWidth 5, a.setWidth 5, b.setWidth 5, false, false, q.p, q.neg, 0x07⟩)
  | .pxor d a b q => some (wordG 0x03 ⟨d.setWidth 5, a.setWidth 5, b.setWidth 5, false, false, q.p, q.neg, 0x08⟩)
  | .pandn d a b q => some (wordG 0x03 ⟨d.setWidth 5, a.setWidth 5, b.setWidth 5, false, false, q.p, q.neg, 0x09⟩)
  | .mov d a ea q => some (wordG 0x04 ⟨d, a, 0, ea, false, q.p, q.neg, 0x00⟩)
  | .p2g d a q => some (wordG 0x04 ⟨d, a.setWidth 5, 0, false, false, q.p, q.neg, 0x01⟩)
  | .g2p d a ea q => some (wordG 0x04 ⟨d.setWidth 5, a, 0, ea, false, q.p, q.neg, 0x02⟩)
  | .addi d a imm => some (wordI 0x05 ⟨d, a, imm⟩)
  | .andi d a imm => some (wordI 0x06 ⟨d, a, imm⟩)
  | .ori d a imm => some (wordI 0x07 ⟨d, a, imm⟩)
  | .xori d a imm => some (wordI 0x08 ⟨d, a, imm⟩)
  | .slli d a amt => some (wordI 0x09 ⟨d, a, 0#2 ++ 0#8 ++ amt⟩)
  | .srli d a amt => some (wordI 0x09 ⟨d, a, 1#2 ++ 0#8 ++ amt⟩)
  | .srai d a amt => some (wordI 0x09 ⟨d, a, 2#2 ++ 0#8 ++ amt⟩)
  | .li d imm => some (wordI 0x0A ⟨d, 0, imm⟩)
  | .lui d a imm => some (wordI 0x0B ⟨d, a, imm⟩)
  | .luh d a imm => some (wordI 0x0C ⟨d, a, imm⟩)
  | .lut d a imm => some (wordI 0x0D ⟨d, a, imm⟩)
  | .cmpi r d a imm => some (wordI 0x0E ⟨r.code ++ d, a, imm⟩)
  | .br q off => some (wordB 0x10 ⟨q.p, q.neg, off⟩)
  | .call q off => some (wordB 0x11 ⟨q.p, q.neg, off⟩)
  | .jr a ea q => some (wordG 0x12 ⟨0, a, 0, ea, false, q.p, q.neg, 0x00⟩)
  | .dbnz d off => some (wordI 0x13 ⟨d, 0, off⟩)
  | .ld d a z ql off => some (wordS 0x14 ⟨d, a, z.code, ql.code, off⟩)
  | .ldu d a z ql off => some (wordS 0x15 ⟨d, a, z.code, ql.code, off⟩)
  | .st d a z ql off => some (wordS 0x16 ⟨d, a, z.code, ql.code, off⟩)
  | .vaddF d a b w t => some (wordV 0x18 ⟨d, a, b, w.code, t.code, 0x00⟩)
  | .vsubF d a b w t => some (wordV 0x18 ⟨d, a, b, w.code, t.code, 0x01⟩)
  | .vmulF d a b w t => some (wordV 0x18 ⟨d, a, b, w.code, t.code, 0x02⟩)
  | .vfma d a b w t => some (wordV 0x18 ⟨d, a, b, w.code, t.code, 0x03⟩)
  | .vfms d a b w t => some (wordV 0x18 ⟨d, a, b, w.code, t.code, 0x04⟩)
  | .vminF d a b w t => some (wordV 0x18 ⟨d, a, b, w.code, t.code, 0x05⟩)
  | .vmaxF d a b w t => some (wordV 0x18 ⟨d, a, b, w.code, t.code, 0x06⟩)
  | .vminn d a b w t => some (wordV 0x18 ⟨d, a, b, w.code, t.code, 0x07⟩)
  | .vmaxn d a b w t => some (wordV 0x18 ⟨d, a, b, w.code, t.code, 0x08⟩)
  | .vabs d a w t => some (wordV 0x18 ⟨d, a, 0, w.code, t.code, 0x09⟩)
  | .vneg d a w t => some (wordV 0x18 ⟨d, a, 0, w.code, t.code, 0x0A⟩)
  | .vcpsgn d a b w t => some (wordV 0x18 ⟨d, a, b, w.code, t.code, 0x0B⟩)
  | .vrndi d a m w t => some (wordV 0x18 ⟨d, a, m.code, w.code, t.code, 0x0C⟩)
  | .vceqF d a b w t => some (wordV 0x18 ⟨d, a, b, w.code, t.code, 0x0D⟩)
  | .vcltF d a b w t => some (wordV 0x18 ⟨d, a, b, w.code, t.code, 0x0E⟩)
  | .vcle d a b w t => some (wordV 0x18 ⟨d, a, b, w.code, t.code, 0x0F⟩)
  | .vcun d a b w t => some (wordV 0x18 ⟨d, a, b, w.code, t.code, 0x10⟩)
  | .vclass d a w t => some (wordV 0x18 ⟨d, a, 0, w.code, t.code, 0x11⟩)
  | .vgetexp d a w t => some (wordV 0x18 ⟨d, a, 0, w.code, t.code, 0x12⟩)
  | .vexpins d a b w t => some (wordV 0x18 ⟨d, a, b, w.code, t.code, 0x13⟩)
  | .vaddI d a b w t => some (wordV 0x19 ⟨d, a, b, w.code, t.code, 0x00⟩)
  | .vsubI d a b w t => some (wordV 0x19 ⟨d, a, b, w.code, t.code, 0x01⟩)
  | .vmulI d a b w t => some (wordV 0x19 ⟨d, a, b, w.code, t.code, 0x02⟩)
  | .vmulh d a b w t => some (wordV 0x19 ⟨d, a, b, w.code, t.code, 0x03⟩)
  | .vadds d a b w t => some (wordV 0x19 ⟨d, a, b, w.code, t.code, 0x04⟩)
  | .vsubs d a b w t => some (wordV 0x19 ⟨d, a, b, w.code, t.code, 0x05⟩)
  | .vminI d a b w t => some (wordV 0x19 ⟨d, a, b, w.code, t.code, 0x06⟩)
  | .vmaxI d a b w t => some (wordV 0x19 ⟨d, a, b, w.code, t.code, 0x07⟩)
  | .vavg d a b w t => some (wordV 0x19 ⟨d, a, b, w.code, t.code, 0x08⟩)
  | .vabsd d a b w t => some (wordV 0x19 ⟨d, a, b, w.code, t.code, 0x09⟩)
  | .vsll d a b w t => some (wordV 0x19 ⟨d, a, b, w.code, t.code, 0x0A⟩)
  | .vsrl d a b w t => some (wordV 0x19 ⟨d, a, b, w.code, t.code, 0x0B⟩)
  | .vsra d a b w t => some (wordV 0x19 ⟨d, a, b, w.code, t.code, 0x0C⟩)
  | .vand d a b w t => some (wordV 0x19 ⟨d, a, b, w.code, t.code, 0x0D⟩)
  | .vor d a b w t => some (wordV 0x19 ⟨d, a, b, w.code, t.code, 0x0E⟩)
  | .vxor d a b w t => some (wordV 0x19 ⟨d, a, b, w.code, t.code, 0x0F⟩)
  | .vandn d a b w t => some (wordV 0x19 ⟨d, a, b, w.code, t.code, 0x10⟩)
  | .vceqI d a b w t => some (wordV 0x19 ⟨d, a, b, w.code, t.code, 0x11⟩)
  | .vcltI d a b w t => some (wordV 0x19 ⟨d, a, b, w.code, t.code, 0x12⟩)
  | .vsel d a b w t => some (wordV 0x19 ⟨d, a, b, w.code, t.code, 0x13⟩)
  | .vmac d a b w t => some (wordV 0x19 ⟨d, a, b, w.code, t.code, 0x14⟩)
  | .vbc d a w t => some (wordV 0x1A ⟨d, a, 0, w.code, t.code, 0x00⟩)
  | .vins d a b w t => some (wordV 0x1A ⟨d, a, b, w.code, t.code, 0x01⟩)
  | .vext d a b w t => some (wordV 0x1A ⟨d, a, b, w.code, t.code, 0x02⟩)
  | .vperm d a b w t => some (wordV 0x1A ⟨d, a, b, w.code, t.code, 0x03⟩)
  | .vzip d a b w t => some (wordV 0x1A ⟨d, a, b, w.code, t.code, 0x04⟩)
  | .vuzp d a w t => some (wordV 0x1A ⟨d, a, 0, w.code, t.code, 0x05⟩)
  | .vslide d a b w t => some (wordV 0x1A ⟨d, a, b, w.code, t.code, 0x06⟩)
  | .vrot d a b w t => some (wordV 0x1A ⟨d, a, b, w.code, t.code, 0x07⟩)
  | .vradd d a w t => some (wordV 0x1B ⟨d, a, 0, w.code, t.code, 0x00⟩)
  | .vrmin d a w t => some (wordV 0x1B ⟨d, a, 0, w.code, t.code, 0x01⟩)
  | .vrmax d a w t => some (wordV 0x1B ⟨d, a, 0, w.code, t.code, 0x02⟩)
  | .vdot4 d a b w t => some (wordV 0x1B ⟨d, a, b, w.code, t.code, 0x03⟩)
  | .vdot2 d a b w t => some (wordV 0x1B ⟨d, a, b, w.code, t.code, 0x04⟩)
  | .vcvt d a ts sat w t => some (wordV 0x1C ⟨d, a, BitVec.ofBool sat ++ ts.code, w.code, t.code, 0x00⟩)
  | .vq d a b w t => some (wordV 0x1C ⟨d, a, b, w.code, t.code, 0x02⟩)
  | .vdq d a q4 w t => some (wordV 0x1C ⟨d, a, BitVec.ofBool q4 |>.setWidth 5, w.code, t.code, 0x03⟩)
  | .vpk d a w t => some (wordV 0x1C ⟨d, a, 0, w.code, t.code, 0x04⟩)
  | .vunpk d a w t => some (wordV 0x1C ⟨d, a, 0, w.code, t.code, 0x05⟩)
  | .vmov d a w => some (wordV 0x1D ⟨d, a, 0, w.code, 0, 0x00⟩)
  | .vzero d w => some (wordV 0x1D ⟨d, 0, 0, w.code, 0, 0x01⟩)
  | .vlane d w t => some (wordV 0x1D ⟨d, 0, 0, w.code, t.code, 0x02⟩)
  | .vrcp d a w => some (wordV 0x20 ⟨d, a, 0, w.code, 8, 0x00⟩)
  | .vrsqrt d a w => some (wordV 0x20 ⟨d, a, 0, w.code, 8, 0x01⟩)
  | .vsqrt d a w => some (wordV 0x20 ⟨d, a, 0, w.code, 8, 0x02⟩)
  | .vdiv d a b w => some (wordV 0x20 ⟨d, a, b, w.code, 8, 0x03⟩)
  | .vfexp2 d a w => some (wordV 0x20 ⟨d, a, 0, w.code, 8, 0x04⟩)
  | .vlog2 d a w => some (wordV 0x20 ⟨d, a, 0, w.code, 8, 0x05⟩)
  | .vsinpi d a w => some (wordV 0x20 ⟨d, a, 0, w.code, 8, 0x06⟩)
  | .vcospi d a w => some (wordV 0x20 ⟨d, a, 0, w.code, 8, 0x07⟩)
  | .vtanh d a w => some (wordV 0x20 ⟨d, a, 0, w.code, 8, 0x08⟩)
  | .vgath d a b w t => some (wordV 0x21 ⟨d, a, b, w.code, t.code, 0x00⟩)
  | .vscat d a b w t => some (wordV 0x21 ⟨d, a, b, w.code, t.code, 0x01⟩)
  | .vld d a w t ql off => some (wordVm 0x22 ⟨d, a, w.code, t.code, ql.code, off⟩)
  | .vst d a w t ql off => some (wordVm 0x23 ⟨d, a, w.code, t.code, ql.code, off⟩)
  | .mma acc ab wb s fb fa ovr sha tra => some (wordM 0x24 ⟨acc, ab, wb, s.code, fb.code, fa.code, ovr, sha, tra, 0⟩)
  | .mgset a m => some (wordC 0x25 ⟨0, a, 0, 0#3 ++ m, 0x00⟩)
  | .mgget d m => some (wordC 0x25 ⟨d, 0, 0, 0#3 ++ m, 0x01⟩)
  | .owne d a => some (wordC 0x25 ⟨d, a, 0, 0, 0x02⟩)
  | .ownq d => some (wordC 0x25 ⟨d, 0, 0, 0, 0x03⟩)
  | .mwait => some (wordC 0x25 ⟨0, 0, 0, 0, 0x04⟩)
  | .accz a => some (wordC 0x25 ⟨0, a, 0, 0, 0x05⟩)
  | .accst a b f acc => some (wordC 0x25 ⟨0, a, b, 0#1 ++ f.code ++ acc, 0x06⟩)
  | .accld a b f acc => some (wordC 0x25 ⟨0, a, b, 0#1 ++ f.code ++ acc, 0x07⟩)
  | .abld a b buf => some (wordC 0x25 ⟨0, a, b, 0#4 ++ buf, 0x08⟩)
  | .wbld a b buf => some (wordC 0x25 ⟨0, a, b, 0#4 ++ buf, 0x09⟩)
  | .twset d a tw => some (wordC 0x28 ⟨d, a, 0, 0#4 ++ tw, 0x00⟩)
  | .tdec d a b w tw => some (wordC 0x28 ⟨d, a, b, 0#2 ++ w.code ++ tw, 0x01⟩)
  | .tdecr d a b tw => some (wordC 0x28 ⟨d, a, b, 0#4 ++ tw, 0x02⟩)
  | .tenc d a b => some (wordC 0x28 ⟨d, a, b, 0, 0x03⟩)
  | .tencw d => some (wordC 0x28 ⟨d, 0, 0, 0, 0x04⟩)
  | .rowact a => some (wordC 0x2A ⟨0, a, 0, 0, 0x00⟩)
  | .rowpre a => some (wordC 0x2A ⟨0, a, 0, 0, 0x01⟩)
  | .tld a b len => some (wordC 0x2A ⟨0, a, b, len, 0x02⟩)
  | .tst a b len => some (wordC 0x2A ⟨0, a, b, len, 0x03⟩)
  | .rowq d a => some (wordC 0x2A ⟨d, a, 0, 0, 0x04⟩)
  | .vsync => some (wordC 0x2A ⟨0, 0, 0, 0, 0x05⟩)
  | .pmig d a b => some (wordC 0x2A ⟨d, a, b, 0, 0x06⟩)
  | .ptq d a => some (wordC 0x2A ⟨d, a, 0, 0, 0x07⟩)
  | .cpy d a c => some (wordC 0x2C ⟨d, a, 0, 0#2 ++ c, 0x00⟩)
  | .cpyq d a => some (wordC 0x2C ⟨d, a, 0, 0, 0x01⟩)
  | .cpyw d a => some (wordC 0x2C ⟨d, a, 0, 0, 0x02⟩)
  | .sbind d a s => some (wordC 0x2C ⟨d, a, 0, 0#3 ++ s, 0x03⟩)
  | .sunb d s => some (wordC 0x2C ⟨d, 0, 0, 0#3 ++ s, 0x04⟩)
  | .sparkq d a => some (wordC 0x2C ⟨d, a, 0, 0, 0x05⟩)
  | .rget d a b z => some (wordC 0x2E ⟨d, a, b, 0#3 ++ z.code, 0x00⟩)
  | .rput d a b z => some (wordC 0x2E ⟨d, a, b, 0#3 ++ z.code, 0x01⟩)
  | .rfop d a b sh op => some (wordC 0x2E ⟨d, a, b, sh.code ++ op.code, 0x02⟩)
  | .rcas d a b z => some (wordC 0x2E ⟨d, a, b, 0#5 ++ z.code, 0x03⟩)
  | .amsg d a b => some (wordC 0x2E ⟨d, a, b, 0, 0x04⟩)
  | .msend d a b => some (wordC 0x2E ⟨d, a, b, 0, 0x05⟩)
  | .mrecv d a w => some (wordC 0x2E ⟨d, a, 0, 0#5 ++ BitVec.ofBool w, 0x06⟩)
  | .rstat d => some (wordC 0x2E ⟨d, 0, 0, 0, 0x07⟩)
  | .fop d a b ea eb q z op => some (wordG 0x30 ⟨d, a, b, ea, eb, q.p, q.neg, z.code ++ op.code⟩)
  | .cas d a b ea eb q z => some (wordG 0x31 ⟨d, a, b, ea, eb, q.p, q.neg, 0#4 ++ z.code⟩)
  | .fence a s l m r => some (wordC 0x32 ⟨0, a, 0, s.code ++ BitVec.ofBool r ++ BitVec.ofBool m ++ BitVec.ofBool l, 0x00⟩)
  | .wait d a b => some (wordC 0x32 ⟨d, a, b, 0, 0x01⟩)
  | .signal a b => some (wordC 0x32 ⟨0, a, b, 0, 0x02⟩)
  | .sstep a b => some (wordC 0x32 ⟨0, a, b, 0, 0x03⟩)
  | .bar a b => some (wordC 0x32 ⟨0, a, b, 0, 0x04⟩)
  | .redm d a b => some (wordC 0x32 ⟨d, a, b, 0, 0x05⟩)
  | .ownf d a b => some (wordC 0x32 ⟨d, a, b, 0, 0x06⟩)
  | .fencei => some (wordC 0x32 ⟨0, 0, 0, 0, 0x07⟩)
  | .book d a b => some (wordC 0x34 ⟨d, a, b, 0, 0x00⟩)
  | .arm a => some (wordC 0x34 ⟨0, a, 0, 0, 0x01⟩)
  | .done => some (wordC 0x34 ⟨0, 0, 0, 0, 0x02⟩)
  | .unbook d a => some (wordC 0x34 ⟨d, a, 0, 0, 0x03⟩)
  | .calq d a b => some (wordC 0x34 ⟨d, a, b, 0, 0x04⟩)
  | .calmv d a b => some (wordC 0x34 ⟨d, a, b, 0, 0x05⟩)
  | .spawn d a => some (wordC 0x36 ⟨d, a, 0, 0, 0x00⟩)
  | .take d a => some (wordC 0x36 ⟨d, a, 0, 0, 0x01⟩)
  | .seek d a => some (wordC 0x36 ⟨d, a, 0, 0, 0x02⟩)
  | .tfin a => some (wordC 0x36 ⟨0, a, 0, 0, 0x03⟩)
  | .term d => some (wordC 0x36 ⟨d, 0, 0, 0, 0x04⟩)
  | .dqn d => some (wordC 0x36 ⟨d, 0, 0, 0, 0x05⟩)
  | .trap a b ea eb q => some (wordG 0x38 ⟨0, a, b, ea, eb, q.p, q.neg, 0x00⟩)
  | .eret d a b ea eb q => some (wordG 0x38 ⟨d, a, b, ea, eb, q.p, q.neg, 0x01⟩)
  | .halt a ea q => some (wordG 0x38 ⟨0, a, 0, ea, false, q.p, q.neg, 0x02⟩)
  | .sysc d a b ea eb q => some (wordG 0x38 ⟨d, a, b, ea, eb, q.p, q.neg, 0x03⟩)
  | .brk n q => some (wordG 0x38 ⟨0, 0, n, false, false, q.p, q.neg, 0x04⟩)
  | .trc a b ea eb q => some (wordG 0x38 ⟨0, a, b, ea, eb, q.p, q.neg, 0x05⟩)
  | .csrr d n => some (wordCsr 0x38 ⟨d, 0, n, 0x06⟩)
  | .csrw d a n => some (wordCsr 0x38 ⟨d, a, n, 0x07⟩)
  | .csrs d a n => some (wordCsr 0x38 ⟨d, a, n, 0x08⟩)
  | .csrc d a n => some (wordCsr 0x38 ⟨d, a, n, 0x09⟩)
  | .handlerEntry _ _ => none
  | .ringStallRelief => none
  | .haltTreeStop _ _ _ => none
  | .activeMessageLaunch _ _ => none
  | .launchQueueStart => none
  | .bookingStart => none
  | .bookingLapse => none
  | .compaction => none
  | .linkHoldRequest _ => none
  | .linkCommit => none
  | .normalRefresh => none
  | .extraRefresh => none
  | .refreshModeSample => none
  | .vaultAccessBeat _ _ => none
  | .vaultBeatAbandon _ _ => none
  | .tileBeat _ _ => none
  | .rowRepairCopyStart => none
  | .rowRepairRemap => none
  | .laneRepairPost => none
  | .laneRepairComplete => none
  | .layerPowerChange _ _ => none
  | .offstackRequest _ => none
  | .replyArrival _ _ => none
  | .refusalArrival _ _ => none
  | .agentRequestArrival _ _ => none
  | .agentAction => none
  | .sfuQueueStart => none
  | .sfuResultWrite => none
  | .meCommandStart => none
  | .meCommandComplete => none
  | .tencJobStart => none
  | .tencJobComplete => none
  | .streamEngineOperation => none
  | .channelResume _ _ => none
  | .copyComplete _ _ => none
  | .epochEnd => none
  | .migrationMoveStart => none
  | .migrationMoveComplete => none
  | .stealRequest _ _ _ => none
  | .giftArrival _ _ _ _ => none
  | .giftAck _ => none
  | .tokenForward => none
  | .barrierArrival _ _ _ => none
  | .barrierRelease => none
  | .signalArrival _ _ _ => none
  | .waitTimerExpire => none
  | .confluenceArrival _ _ _ => none
  | .confluenceForward _ _ => none
  | .confluenceReplySplit _ _ _ => none
  | .flitCrcRetry _ => none
  | .laneDegrade _ => none
  | .linkReroute _ => none
  | .retrain _ => none
  | .sampleTick => none
  | .syscService _ _ _ _ _ _ => none
  | .thermalSample _ => none
  | .throttleLevelApply => none
  | .contextSave _ => none
  | .contextRestore _ _ => none
  | .create => none
  | .destroy => none
  | .place => none
  | .window => none
  | .loadcode => none
  | .preempt => none
  | .stop => none
  | .resume => none
  | .checkpoint => none
  | .replay => none
  | .attest => none
  | .debugread => none
  | .policy => none
  | .journal => none
  | .clearpoison => none
  | .bar2LaunchRecord _ _ => none
  | .bar4Access _ _ _ => none
  | .crconsWrite _ => none
  | .fwlenWrite _ => none
  | .firmwareStart => none
  | .hostRegisterWrite _ _ => none
  | .powerUp => none
  | .helmTakeover => none
  | .stealRefusal _ _ => none
  | .retrainComplete _ => none
  | .msixVector1Signal => none

/-- The bytes of a well-formed instruction; none for an event. -/
def encode (i : Instr) : List Byte :=
  match encodeWord i with
  | some w => bytesOfWord w
  | none => []

end Sys2Proof
end

