-- ==== Sys2Proof/Machine/State.lean ====
section
/-! DEFINITION. The state of the device as plain data: everything the spec gives the machine, agent by agent (R16 to R46),
the model's own fields (the agenda of pending events, the outside inputs, the counter of free values and the running
thread), the reasons a step can stop, and the state after reset. -/

namespace Sys2Proof.Machine

/-! ### Memory -/

/-- Bytes by address, addresses strictly rising, no byte equal to what an unlisted address reads as. -/
abbrev Memory := List Host.Cell

/-! ### Threads -/

/-- The three states of a register (R49). A poisoned register keeps what its refusal's record will say: the remote VA, the
reason and the target word's low bits (R306). -/
inductive RegSt
  | full
  | empty
  | poisoned (va reason target : Nat)
  deriving DecidableEq, Repr

/-- A register: its value, its state, and the cycle from which a fixed-latency result may be read (R48, R49, R109). -/
structure Reg (w : Nat) where
  val : BitVec w
  st : RegSt
  ready : Nat
  deriving DecidableEq, Repr

/-- A register that is full and ready. -/
def Reg.of {w : Nat} (x : BitVec w) : Reg w := ⟨x, .full, 0⟩

/-- The thread states of Table 1.4 (R25); run is the table's Open. -/
inductive ThreadSt | idle | run | armed | booked | stopped
  deriving DecidableEq, Repr

/-- Kinds of an outstanding access (R184, R326): a tile access, a scalar, vector or atomic access to the core's own vault or to
off-stack memory, a remote request, an atomic access to scratchpad, which has performed and whose old value is on its way (R343). -/
inductive AccessKind | tile | vault | off | remote | loc
  deriving DecidableEq, Repr

/-- An access or request of a thread that has been issued and is not complete (R309, R326): where its answer goes, how its
bytes become a register value, what a refusal's record says, whether it is an acquire, and whether a taken answer is
still wanted. A tile access carries its target range, for owner flips (R178). -/
structure Access where
  id : Nat
  kind : AccessKind
  dest : Dest
  bytes : Nat
  signed : Bool
  va : Nat
  det0 : Nat
  target : Nat
  acquire : Bool
  store : Bool
  tile : Bool
  lo : Nat
  n : Nat
  /-- The bytes of the first of two parts, the parts still out, and the data gathered. -/
  split : Nat
  left : Nat
  data : Nat
  /-- Registers of the destination that are not written: lost to a later `sbind`, or an alias whose stream and unit are kept for the
  answer (R284). -/
  units : List (Nat × Option (Nat × Nat))
  /-- The target of a message has accepted or refused it (R309). -/
  told : Bool
  deriving DecidableEq, Repr

/-- A refusal kept in the thread's queue (R306): MSGOVF or WNACK, with its record's fields. -/
structure Refused where
  overflow : Bool
  addr : Nat
  det0 : Nat
  det1 : Nat
  deriving DecidableEq, Repr

/-- A trap record before its sequence number is allocated (Table 14.3). -/
structure TrapRec where
  cause : Nat
  flags : Nat
  source : Nat
  core : Nat
  ctx : Nat
  pc : Nat
  addr : Nat
  insn : Nat
  ss : Nat
  cycle : Nat
  det0 : Nat
  det1 : Nat
  bookid : Nat
  deriving DecidableEq, Repr

/-- What the handler registers will hold at entry (Table 14.2); hg4 is computed from TVEC. -/
structure HandlerArgs where
  resume : Nat
  record : Nat
  cause : Nat
  kappa : Nat
  list : Nat
  deriving DecidableEq, Repr

/-- What a thread waits on apart from its operands: nothing; the store of its trap record (R359); a place in the full ring,
since a cycle (R365); a barrier group's release (R337); a round of `seek`, at a ring index, with the register it writes
(R229); a request of the Almanac (R207, R211); the saving of its registers by a pre-emption (R372). -/
inductive Block
  | none
  | record (a : HandlerArgs)
  | ring (r : TrapRec) (a : HandlerArgs) (since : Nat)
  | barrier (part group : Nat) (d : Dest)
  | seek (d : Dest) (left : List Nat) (asked : Nat)
  | link (d : Dest)
  /-- Stopped by a pre-emption, with the task cycle, list and id of the booking that this ended (R372). -/
  | preempt (kappa list bookid : Nat)
  deriving DecidableEq, Repr

/-- What a pre-emption keeps of a thread whose registers stand in its save area (R372, R373): the serial of its next access, EVPEND
as it was saved, and the cause and flags of its record. -/
structure Imaged where
  before : Nat
  evpend : Word
  cause : Nat
  deriving DecidableEq, Repr

/-- One issue cycle of an operation on local SRAM: the scratchpad banks it uses, and the parts it moves, each with its local offset, its
place in the data and its bytes (Tables 5.9 and 9.4, R159). -/
structure WorkCycle where
  banks : List Nat
  parts : List (Nat × Nat × Nat)
  deriving DecidableEq, Repr

/-- What an operation on local SRAM leaves when its last issue cycle is done: nothing more, a group of registers loaded, a group
decoded through a window with the rounding of an FPSR value (R269, R270), or a task counted at its JOIN counter (R230). -/
inductive WorkEnd
  | stored
  | loaded (n count : Nat)
  | decoded (window rm : Nat) (lanes : List (Nat × Nat)) (wide : Bool) (n count : Nat)
  | counted (off n : Nat)
  deriving DecidableEq, Repr

/-- An operation on local SRAM of an instruction that issues over several cycles: the cycle of its next part, the cycles left, whether
it stores, the data to store or gathered, what it leaves, and the cycle from which that may be read. -/
structure LocalWork where
  due : Nat
  left : List WorkCycle
  store : Bool
  data : Nat
  fin : WorkEnd
  ready : Nat
  deriving DecidableEq, Repr

/-- A thread (R23, R48, R55). -/
structure Thread where
  st : ThreadSt
  /-- The state a stopped thread left (R25). -/
  left : ThreadSt
  priv : Bool
  pc : BitVec 14
  g : Vector (Reg 64) 32
  /-- hg1 to hg8 (R357). -/
  hg : Vector (Reg 64) 8
  v : Vector (Reg 512) 32
  p : Vector Bool 8
  fpsr : Word
  evpend : Word
  vslip : Word
  lslip : Word
  spbase : Word
  spsize : Word
  ovfp : Word
  /-- The first cycle in which the next instruction may issue (R109). -/
  next : Nat
  /-- The cycle from which an issued instruction has waited for the work of its thread to complete (R184, R258, R278). -/
  since : Option Nat
  block : Block
  /-- The resume PC whose next issue skips watchpoints (R379). -/
  wskip : Option (BitVec 14)
  /-- The booking slot the thread is armed or booked on (R204). -/
  slot : Option Nat
  outs : List Access
  serial : Nat
  /-- The first cycle in which a later access may issue after an acquire (R126). -/
  acqAt : Nat
  /-- The first cycle in which a release may issue after the accesses performed so far (R126). -/
  relAt : Nat
  refusals : List Refused
  refLost : Nat
  trellis : Word
  /-- Code words a store has changed since the thread's last `fencei`, with their old contents (R38, R330). -/
  stale : List (Nat × Insn)
  retired : Nat
  /-- The host tag of the BAR2 record that started the thread (R369, R389). -/
  tag : Option Nat
  /-- Answers to accesses below this serial go to the save-area image (R372). -/
  imaged : Option Imaged
  /-- The deadline of the `wait` that waits (R333). -/
  timer : Option Nat
  /-- The group, and the result, of a barrier that released while the thread was away from its instruction (R337). -/
  owed : Option (Nat × Nat)
  /-- The operation on local SRAM whose further issue cycles are to come (R153, R159, R270). -/
  work : Option LocalWork
  /-- The thread raises STEP in place of its next instruction (R380). -/
  stepDue : Bool
  deriving DecidableEq, Repr

/-! ### The vault controller (R160 to R184) -/

/-- A precharge or an activation of a bank: its cycles, and the row open before it and after it (R163, R164). -/
structure RowOp where
  first : Nat
  fin : Nat
  before : Option Nat
  after : Option Nat
  deriving DecidableEq, Repr

/-- A bank: the row that is open once its operations have ended, the start of that row's activation, and the operations that
have not ended, in order (R163, R164). -/
structure Bank where
  row : Option Nat
  actAt : Nat
  ops : List RowOp
  deriving DecidableEq, Repr

/-- What an access does at its beat. -/
inductive BeatOp
  | load | store
  | fop (op : FopOp) (laneBits : Nat)
  | cas
  | tileLoad | tileStore
  | masked (mask : Nat)
  | rowact | rowpre
  deriving DecidableEq, Repr

/-- Who requests the vault port (R27). -/
inductive Requester | thread (t : Nat) | stream (ch : Nat) | agent | copy
  deriving DecidableEq, Repr

/-- The part of a vault access that lies in one row (R177): the bank and row, the physical address and length, its place in
the access, the cycle its row is ready, the bytes moved, whether a row repair holds it (R173), and whether its row has been found open or
its activation has started, so that the ready cycle is known (R164). -/
structure Seg where
  bank : Nat
  row : Nat
  pa : Nat
  n : Nat
  off : Nat
  rdy : Nat
  moved : Nat
  held : Bool
  ready : Bool
  deriving DecidableEq, Repr

/-- An access under way in the vault controller: its requester and the requester's serial of it, what its beats do, the VA its
records name, the local range of a tile access or a stream unit, the data gathered or to store, the operand compared, its
rows, the limit and slot of a booked access, whether beats are abandoned, and the read beat's cycle of a
read-modify-write (R124, R177, R179, R343). -/
structure VaultAcc where
  id : Nat
  by_ : Requester
  acc : Nat
  op : BeatOp
  va : Nat
  n : Nat
  lo : Nat
  data : Nat
  cmp : Nat
  segs : List Seg
  limit : Option Nat
  /-- VSLIP as sampled at issue: the last nominal beat lies this far before the limit (R179). -/
  slip : Nat
  heldFor : Option Nat
  abandoned : Bool
  readAt : Option Nat
  /-- The id of the ended booking whose task started the access (R206). -/
  ended : Option Nat
  deriving DecidableEq, Repr

/-- A row with corrected errors or under repair (R172, R173); one under repair that a newer entry has displaced stays until its remap. -/
structure RowErr where
  bank : Nat
  row : Nat
  count : Nat
  scheduled : Bool
  remapAt : Option Nat
  displaced : Bool
  deriving DecidableEq, Repr

/-- Counters of a 64 KiB frame (R190). -/
structure FrameCnt where
  frame : Nat
  count : Nat
  cand : Nat
  weight : Nat
  deriving DecidableEq, Repr

/-- A window closed to accesses (R167, R169, R174): its bank, or every bank and the port, and its cycles. -/
structure Window where
  bank : Option Nat
  first : Nat
  last : Nat
  deriving DecidableEq, Repr

/-- The vault of a core and its controller. -/
structure Vault where
  mem : Memory
  banks : Vector Bank 32
  accs : List VaultAcc
  serial : Nat
  /-- The cycle in which the port last moved a beat, and that beat's bank. -/
  portAt : Option Nat
  beatBank : Nat
  /-- Extra-refresh windows entered (R169) and lane-repair windows posted (R174). -/
  windows : List Window
  hot : Bool
  power : LayerPower
  /-- The cycle from which the layers are active again after a retention exit (R171). -/
  powerAt : Nat
  rowErrs : List RowErr
  /-- Spare rows used, by bank (R172). -/
  sparesUsed : List (Nat × Nat)
  /-- Remapped rows (R173). -/
  remapped : List (Nat × Nat)
  /-- Code words whose read is uncorrectable, by physical address (R162), and rows' faulty words found so far. -/
  badWords : List Nat
  /-- Code words whose read needs a correction, with the data or check lane at fault (R161, R172, R174). -/
  weakWords : List (Nat × Nat)
  laneErrs : List (Nat × List Nat)
  /-- Lanes whose repair is decided, with the decision's tick, and the window's first cycle if posted (R174). -/
  laneRepairs : List (Nat × Nat × Option Nat)
  lanesRepaired : List (Nat × Nat)
  frames : List FrameCnt
  /-- Poisoned 64 KiB frames (R162). -/
  poisoned : List Nat
  deriving DecidableEq, Repr

/-! ### The Almanac and the task queue (R195 to R234) -/

/-- Ticks of one resource held, from first to last. For a link the resource is code 0x60, and node and dir name the egress. -/
structure Hold where
  code : Nat
  node : Nat
  dir : Nat
  first : Nat
  last : Nat
  deriving DecidableEq, Repr

/-- Booking states (Table 7.5). -/
inductive BookSt | free | made | armed | started | lapsed
  deriving DecidableEq, Repr

/-- A booking slot (R202 to R206): the serial, start tick, resume offset, the copied list and its VA, the slip ticks it
reserves, the flags THR and MOV, the making thread, the armed thread's wake cycle and the held ticks. -/
structure Booking where
  st : BookSt
  serial : Nat
  start : Nat
  k0 : Nat
  kappa : Nat
  list : List Nat
  va : Nat
  slip : Nat
  thr : Bool
  maker : Nat
  holds : List Hold
  deriving DecidableEq, Repr

/-- What a link commit is for (R211): a `book`, a `take` with its chunk's scratchpad offset, a `calmv`, or compaction with the slots
it has still to look at. -/
inductive CommitWhy
  | make
  | take (off : Nat)
  | move
  | compact (left : List Nat)
  deriving DecidableEq, Repr

/-- A request of the Almanac whose link commit is under way (R211): the waiting thread and its destination, the slot, the booking
as it will be, the first start looked at, the cost of an attempt, the attempts made before, whether a router has turned this
one down, and the cycle in which every router has answered. -/
structure Commit where
  thr : Nat
  d : Dest
  why : CommitWhy
  slot : Nat
  booking : Booking
  from_ : Nat
  cost : Nat
  attempt : Nat
  failed : Bool
  due : Nat
  /-- The holds that routers have still to answer. -/
  pending : Nat
  deriving DecidableEq, Repr

/-- The read of a booking list (R210): its thread, whether a `take` reads it, its bytes gathered, the scratchpad blocks still to read, each
with its local offset, place and bytes, and of a list in the vault the access that reads it. -/
structure ListRead where
  thr : Nat
  forTake : Bool
  data : Nat
  left : List (Nat × Nat × Nat)
  acc : Option Nat
  deriving DecidableEq, Repr

/-- Ticks that an ended booking keeps for operations its task started (R206): the booking's id, whether they are kept whatever its
accesses do, and the ticks. -/
structure Kept where
  id : Nat
  firm : Bool
  hold : Hold
  deriving DecidableEq, Repr

/-- The Almanac of a core. -/
structure Almanac where
  slots : Vector Booking 16
  serial : Nat
  /-- Ticks kept for operations that ended bookings started (R206). -/
  kept : List Kept
  busyUntil : Nat
  reading : Option ListRead
  commit : Option Commit
  /-- The cycle in which ticks were released, where compaction has not run since (R218). -/
  dirty : Option Nat
  deriving DecidableEq, Repr

/-- The task queue of a core and its part in termination (R224, R231 to R233). -/
structure TaskQ where
  recs : List TaskRec
  acked : Bool
  black : Bool
  gifts : Nat
  token : Bool
  tokenBlack : Bool
  /-- Whether the token starts a round here, and the cycle in which it arrives (R233). -/
  tokenNew : Bool
  tokenAt : Nat
  /-- The steal requests in flight, each by its thread and victim, in the order in which they were sent (R224, R229). -/
  asked : List (Nat × Nat)
  deriving DecidableEq, Repr

/-! ### Engines -/

/-- A function of the special-function unit (Table 5.8). -/
inductive SfuFn | rcp | rsqrt | sqrt | div | exp2 | log2 | sinpi | cospi | tanh
  deriving DecidableEq, Repr

/-- An instruction in the special-function unit: booked or open, queued or started in a cycle
(R149). -/
structure SfuOp where
  id : Nat
  thr : Nat
  fn : SfuFn
  d : Nat
  regs : Nat
  a : Nat
  b : Nat
  rm : Nat
  booked : Bool
  started : Option Nat
  /-- Registers of the destination that are not written (R284), as an access keeps them. -/
  units : List (Nat × Option (Nat × Nat))
  deriving DecidableEq, Repr

/-- The special-function unit (R148 to R150). Entries removed by a trap or pre-emption wait in removed (R150). -/
structure Sfu where
  ops : List SfuOp
  serial : Nat
  busyUntil : Nat
  removed : List SfuOp
  deriving DecidableEq, Repr

/-- A command of the matrix engine (R245, Table 8.6). -/
inductive MeOp
  | mma (acc : BitVec 3) (ab wb : BitVec 2) (s : Shape) (fb : FmtB) (fa : FmtA) (ovr sha tra : Bool)
  | accz (mask : Nat)
  | accst (la row : Nat) (f : AccFmt) (acc : BitVec 3)
  | accld (la row : Nat) (f : AccFmt) (acc : BitVec 3)
  | abld (la range : Nat) (buf : BitVec 2)
  | wbld (la range : Nat) (buf : BitVec 2)
  deriving DecidableEq, Repr

/-- A command accepted by the matrix engine: its thread, PC and geometry word, whether it runs in two passes, and the cycles
of its start, the end of its occupancy and its completion once started (R245 to R250); of a command that moves blocks, the
64-byte blocks it has still to move (R260). -/
structure MeCmd where
  id : Nat
  thr : Nat
  pc : Nat
  op : MeOp
  geo : Nat
  twoPass : Bool
  start : Option Nat
  freeAt : Nat
  doneAt : Nat
  left : Nat
  deriving DecidableEq, Repr

/-- The matrix engine of a core (R235, R245, R250). -/
structure Matrix where
  mg : Vector Word 8
  cmds : List MeCmd
  serial : Nat
  throttle : Nat
  /-- A level set by a sample, with the cycle from which it acts (R386). -/
  throttleNext : Option (Nat × Nat)
  /-- 64-byte words of the buffers and accumulators with an uncorrectable soft error, by local offset ÷ 64 (R248). -/
  soft : List Nat
  deriving DecidableEq, Repr

/-- An encoding job (R272, R276, R277): its thread, source and destination offsets, control word and PC, the blocks completed,
the status bits gathered, whether it runs, the bank access of its current block that is next, and the cycle it is due in. -/
structure TrellisJob where
  id : Nat
  thr : Nat
  pc : Nat
  src : Nat
  dst : Nat
  ctl : Nat
  blocks : Nat
  flags : Nat
  running : Bool
  access : Nat
  dueAt : Nat
  deriving DecidableEq, Repr

/-- A window register: its value, the cycle of its last write, and its value before that cycle, which the instructions of that
cycle decode through (R268). -/
structure TwReg where
  val : Word
  at_ : Nat
  prev : Word
  deriving DecidableEq, Repr

/-- The trellis engine of a core: window registers and jobs (R266, R277). -/
structure Trellis where
  tw : Vector TwReg 4
  jobs : List TrellisJob
  serial : Nat
  /-- Jobs saved with the context at pre-emption (R279). -/
  saved : List TrellisJob
  /-- The engine's state has an uncorrectable soft error, found by its next step (R279). -/
  soft : Bool
  deriving DecidableEq, Repr

/-- A stream bound to a channel (R284 to R288): its serial, the binding thread, stream register and PC, the descriptor, LSLIP as
sampled, the first cycle of its operations, the units whose fill or drain has been started, the request cycles of elastic
units (of a write stream, the units on their way to an off-stack controller), the units present in the ring with the cycles in
which they were written, the units taken or appended, the units drained, the failing unit with its cause, the tiles it uses, and
the off-stack units that have arrived and stand before the ring. -/
structure Stream where
  uid : Nat
  thr : Nat
  sreg : Nat
  pc : Nat
  base : Nat
  cnt : List Nat
  str : List Int
  write : Bool
  elastic : Bool
  fe : Bool
  depth : Nat
  ring : Nat
  slip : Nat
  readyAt : Nat
  requested : Nat
  requestAt : List (Nat × Nat)
  present : List (Nat × Nat)
  taken : Nat
  drained : Nat
  failed : Option (Nat × Nat)
  tiles : List Nat
  arrived : List (Nat × Nat)
  deriving DecidableEq, Repr

/-- Copy states (Table 10.5). -/
inductive CopySt | queued | running | parked | done | failed
  deriving DecidableEq, Repr

/-- A copy (R290 to R293): its handle's index and serial, its serial in the engine, the channel, the issuing thread, the
descriptor, the state, the failure cause and flags, the first cycle of its operations, the source tile under way with the
blocks to read and their data, the blocks to write, how many of each have been started and performed, and the bytes
written, for the CRC. -/
structure Copy where
  idx : Nat
  serial : Nat
  uid : Nat
  chan : Nat
  thr : Nat
  src : Nat
  dst : Nat
  rows : Nat
  cols : Nat
  srs : Nat
  drs : Nat
  stype : ElemTy
  dtype : ElemTy
  glog : Nat
  trans : Bool
  crc : Bool
  fe : Bool
  event : Bool
  st : CopySt
  cause : Nat
  flags : Nat
  readyAt : Nat
  tile : Nat
  reads : List (Nat × Option Nat)
  asked : Nat
  writes : List Nat
  sent : Nat
  performed : Nat
  written : Memory
  tiles : List Nat
  deriving DecidableEq, Repr

/-- A park of a channel (R288): the VA it parks on, and whether a PAGE fault or a move caused it. -/
structure Park where
  chan : Nat
  va : Nat
  page : Bool
  deriving DecidableEq, Repr

/-- The stream and copy engine of a core (R281). -/
structure StreamEngine where
  streams : List (Nat × Stream)
  copies : List Copy
  serial : Nat
  served : Nat
  parks : List Park
  /-- Streams bound and copies issued so far, which number their requests. -/
  unitSerial : Nat
  deriving DecidableEq, Repr

/-! ### The vault agent, messages and launches (R300 to R312) -/

/-- What step 1 finds of a request (R304, R305): a refusal, a poisoned page, a local offset, the target's own vault, a page in
migration, or a message or launch to accept. -/
inductive AgentOut
  | refuse (reason : Nat)
  | poison (pa : Nat)
  | loc (off : Nat)
  | vault (pa : Nat)
  | moving
  | accept
  deriving DecidableEq, Repr

/-- A request at the agent (R300, R301): the end of its step 1, what step 1 found once it has ended, its access at the vault
controller once its row is requested, whether it is set aside behind an earlier request of its sender, and whether its frame has
counted it (R190). -/
structure AgentReq where
  req : Req
  e1 : Nat
  out : Option AgentOut
  acc : Option Nat
  behind : Bool
  counted : Bool
  deriving DecidableEq, Repr

/-- A message in the queue: header (Table 11.8) and payload. -/
structure Message where
  header : Word
  payload : Vec
  deriving DecidableEq, Repr

/-- The vault agent with its queues. -/
structure Agent where
  queue : List AgentReq
  retry : List AgentReq
  lastE1 : Nat
  lastAct : Nat
  messages : List Message
  launches : List Launch
  ovfcnt : Nat
  windows : Vector (Word × Word × Word) 8
  deriving DecidableEq, Repr

/-- What the receive log records (R383): an arrival, as the event that brings it; a barrier release, with the threads it
completed, the values it gave them and whether it ended a superstep; a termination event; an answer of the helm; bytes that the helm wrote
to the core's vault or local memory; a value that a thread read. -/
inductive LogItem
  | arrival (i : Instr)
  | release (done : List (Nat × Nat)) (global : Bool)
  | term
  | answer (t : Nat) (d : Dest) (value : Nat)
  | wrote (vault : Bool) (a : Nat) (bytes : List Byte)
  | read (t value : Nat)
  deriving DecidableEq, Repr

/-- One entry of the receive log (R383), with the retired-instruction counts of the core's threads. -/
structure LogEntry where
  item : LogItem
  counts : List Nat
  deriving DecidableEq, Repr

/-- A replay under way (R383): the log entries still to use, the instruction count at which each thread stops (0 for the end of
the log), and SSCNT of the logged run. -/
structure Replay where
  log : List LogEntry
  stop : Nat
  ss : Nat
  deriving DecidableEq, Repr

/-- The network interface (R311, R312, R381, R383). -/
structure NetIf where
  accepting : Bool
  sent : Nat
  received : Nat
  log : List LogEntry
  replay : Option Replay
  deriving DecidableEq, Repr

/-! ### Sensors, stops and the core -/

/-- A temperature sensor (R385, Table 14.1). -/
structure Sensor where
  temp : Int
  fail : Bool
  subst : Bool
  overs : Nat
  deriving DecidableEq, Repr

/-- The stop record of a core (Table 14.9). -/
structure StopRec where
  cycle : Nat
  ss : Nat
  sent : Nat
  received : Nat
  threads : List (Nat × ThreadSt × Nat)
  deriving DecidableEq, Repr

/-- Where a core stands in a pre-emption (R372, R373). -/
inductive Preempt | none | stopping | handlers | saved
  deriving DecidableEq, Repr

/-- The use of a scratchpad bank in one cycle by a requester of rank r (R27, R185). -/
structure BankUse where
  bank : Nat
  cycle : Nat
  rank : Nat
  deriving DecidableEq, Repr

/-- A vault core (R23). -/
structure Core where
  threads : Vector Thread 4
  /-- The context whose threads run here, 0 for none (R44). -/
  ctx : Nat
  /-- Local SRAM by local offset (Table 1.5). -/
  sram : Memory
  /-- Granules whose full/empty bit is full, ascending (R186). -/
  granules : List Nat
  /-- Units not owned by thread, with their owner codes: scratchpad tiles 0 to 255, then 256 + n for ab, wb and acc (R187). -/
  owners : List (Nat × Nat)
  /-- Multi-cycle and current uses of scratchpad banks (R185). -/
  bankUses : List BankUse
  tvec : Word
  dbgctl : Word
  watch : Vector Word 4
  vault : Vault
  almanac : Almanac
  tasks : TaskQ
  sfu : Sfu
  matrix : Matrix
  trellis : Trellis
  engine : StreamEngine
  agent : Agent
  net : NetIf
  sensors : Vector Sensor 3
  trips : Nat
  stop : Option StopRec
  preempt : Preempt
  deriving DecidableEq, Repr

/-! ### Contexts, partitions and barriers -/

/-- A context (R44, R374). Values fixed at creation that the attestation report covers are kept as the creation parameters. -/
structure Ctx where
  id : Nat
  dbg : Bool
  trbase : Word
  trsize : Word
  trprod : Word
  trcons : Word
  lostcnt : Nat
  lost : Bool
  fatal : Bool
  stopped : Bool
  fatalslot : Word
  ptbase : Word
  /-- The next record allocated carries lost-before (R364, R365). -/
  lostBefore : Bool
  /-- The cycle in which CONS last changed (R365). -/
  consAt : Nat
  launchSp : Word × Word × Word
  tvec : Word
  poolBase : Nat
  poolSize : Nat
  poolFree : List Nat
  fiBase : Nat
  fiLim : Nat
  params : List Byte
  /-- Windows set at creation, by core and window, and IMBRING by partition, as their commands gave them (R374, R376). -/
  windows : List (Nat × List Byte)
  imbrings : List (Nat × List Byte)
  /-- Code images loaded at creation, by core (R376). -/
  images : List (Nat × List Byte)
  /-- The thread whose own trap made the fatal record, and its handler arguments (R366). -/
  fatalBy : Option (Nat × Nat × HandlerArgs)
  deriving DecidableEq, Repr

/-- What a barrier group waits to release (R336). -/
inductive GroupKind | sstep | bar | redm
  deriving DecidableEq, Repr

/-- A rectangle of cores (R327). -/
structure Rect where
  x0 : Nat
  y0 : Nat
  x1 : Nat
  y1 : Nat
  deriving DecidableEq, Repr

/-- A thread that has issued a barrier instruction: its context, core and number, and the value it brings. -/
structure Issuer where
  ctx : Nat
  core : Nat
  thr : Nat
  value : Nat
  deriving DecidableEq, Repr

/-- A live barrier group (R336 to R339): what the first issue fixed, the threads that have issued, and the cores that have
arrived with their cycles. -/
structure Group where
  kind : GroupKind
  rect : Rect
  tmask : Nat
  dom : Bool
  op : Nat
  issued : List Issuer
  arrived : List (Nat × Nat)
  releaseAt : Option Nat
  deriving DecidableEq, Repr

/-- A partition (R43), with the global releases on it and, by context, how many of them came before that context started (R42). -/
structure Partition where
  rect : Rect
  ctxs : List Nat
  sscnt : Nat
  bases : List (Nat × Nat)
  ssStart : Nat
  imbring : Word
  epoch : Nat
  groups : Vector (Option Group) 8
  stopped : Bool
  ssStop : Bool
  /-- The gang stop in progress: reason, initiation cycle (R381). -/
  stopReason : Option (Nat × Nat)
  deriving DecidableEq, Repr

/-! ### The mesh and the Bumen ports -/

/-- A flit at a router or on a link to it (R18, R20): the router, the input (0 north, 1 east, 2 south, 3 west, 4 local), the
cycle it arrives in, whether it has arrived, whether it goes before the other flits of its input because it follows a
forwarded entry (R350), and the entry whose request it is. -/
structure MeshFlit where
  flit : Flit
  node : Nat
  inp : Nat
  at_ : Nat
  here : Bool
  ahead : Bool
  entry : Option Nat
  deriving DecidableEq, Repr

/-- Where a confluence entry stands (R348, R350): in its hold, waiting for its link, or forwarded and keeping its place for the
reply. -/
inductive EntrySt | held | leaving | forwarded
  deriving DecidableEq, Repr

/-- A confluence entry (R347 to R350): its router (256 + n for the egress of Bumen port n), the input it was opened on, the flit
of the request it holds, whether that is a combined request, and the flits of the same senders held behind it. -/
structure Entry where
  id : Nat
  node : Nat
  inp : Nat
  flit : Flit
  st : EntrySt
  combined : Bool
  behind : List Flit
  deriving DecidableEq, Repr

/-- What a combining keeps for the reply (R349): the entry and router, the two return paths with their senders, where the
request went, the operation and the first operand. -/
structure PairRec where
  id : Nat
  entry : Nat
  node : Nat
  first : RetPath
  second : RetPath
  senders : List (Nat × Nat)
  dst : FlitEnd
  op : FopOp
  laneBits : Nat
  a : Nat
  deriving DecidableEq, Repr

/-- Ticks of a router's egress link held for a booking, or provisionally for a link commit (R196, R211). -/
structure LinkUse where
  node : Nat
  dir : Nat
  first : Nat
  last : Nat
  core : Nat
  slot : Nat
  committed : Bool
  deriving DecidableEq, Repr

/-- A Bumen port (R46, R355, R393): its lanes and plane, its next sequence number, its link-level retries, the flits that wait to leave it,
each with its number, the numbers of the requests that stand in its confluence buffer, those retired there, and the first cycle in which
the next flit may leave. -/
structure Bumen where
  lanes : Nat
  alternate : Bool
  trained : Bool
  combining : Bool
  seq : Nat
  replays : Nat
  held : List (Nat × Flit)
  numbers : List (RetPath × Nat)
  retired : List Nat
  nextAt : Nat
  deriving DecidableEq, Repr

/-- A flit that has left through a Bumen port, with its sequence number (R46, R355). -/
structure OutFlit where
  port : Nat
  seq : Nat
  flit : Flit
  deriving DecidableEq, Repr

/-- An access at an off-stack controller, not yet performed (R32, R322). -/
structure OffAcc where
  req : Req
  at_ : Nat
  deriving DecidableEq, Repr

/-! ### The helm and the host -/

/-- The helm's roles (BOOTSTAT[15:8], R394). -/
inductive HelmRole | primary | takeover | standby
  deriving DecidableEq, Repr

/-- An entry of the helm journal (R44, R312, R365, R366, R393): its kind, its data and its cycle. -/
structure JournalRec where
  kind : Nat
  ctx : Nat
  core : Nat
  a : Nat
  b : Nat
  bytes : List Byte
  cycle : Nat
  deriving DecidableEq, Repr

/-- A queued page move (R191, R192): the page, its target, its entry before and after; once it moves, its number, the 4 KiB chunk under way,
whether the chunk's blocks have left their source, the 64-byte blocks that have reached their destination, with their data, and the cycle
in which the row of the vault side that is under way is ready. -/
structure Move where
  ctx : Nat
  va : Nat
  entryPa : Nat
  toVault : Option Nat
  source : Word
  dest : Word
  moving : Bool
  uid : Nat
  chunk : Nat
  asked : Bool
  got : List (Nat × Nat)
  rdy : Option Nat
  deriving DecidableEq, Repr

/-- The migration policy (R191). -/
structure Policy where
  enable : Bool
  hints : Bool
  epoch : Nat
  hot : Nat
  cold : Nat
  deriving DecidableEq, Repr

/-- A completion record of the host (Table 14.12), before it is written. -/
structure Completion where
  tag : Nat
  kind : Nat
  reason : Nat
  ctx : Nat
  status : Nat
  ss : Nat
  core : Nat
  thr : Nat
  cycle : Nat
  deriving DecidableEq, Repr

/-- A part of a debug read (R384): the vault that holds it, none for off-stack memory, its physical address and bytes, and once its read has
been answered the data, or none of it where the read was refused. -/
structure DebugPart where
  vault : Option Nat
  pa : Nat
  n : Nat
  data : Option (Option Nat)
  deriving DecidableEq, Repr

/-- The host interface: BAR0 registers (Table 14.15), host memory, held completions, and the MSI-X counts. -/
structure HostIf where
  mbxcmd : List Byte
  mbxresp : List Byte
  lastSeq : Nat
  lastStatus : Nat
  /-- The command being performed, with its bytes. -/
  busy : Option (List Byte)
  crbase : Nat
  crctl : Nat
  crprod : Nat
  crcons : Nat
  bootstat : Nat
  fwaddr : Nat
  fwlen : Nat
  image : List Byte
  devkey : List Byte
  devid : Nat
  devidFixed : Bool
  b4base : Nat
  mem : Memory
  held : List Completion
  /-- Records on their way to the host's router, in the order of their events: each with its number and whether it has arrived (R21, R389). -/
  coming : List (Nat × Completion × Bool)
  msix : Vector Nat 3
  lastMsix1 : Option Nat
  bar4 : List (Nat × Nat)
  /-- The parts of the debug read under way, and the vaults it has woken from retention (R384). -/
  debug : List DebugPart
  asleep : List Nat
  deriving DecidableEq, Repr

/-- The helm (R44, R365, R366, R394). -/
structure Helm where
  role : HelmRole
  journal : List JournalRec
  /-- BAR2 records received and not yet journalled (R394). -/
  pending : List (Nat × List Byte)
  launches : List (Nat × Nat)
  policy : Policy
  moves : List Move
  /-- Cores saved for pre-empted contexts, by context and core (R373). -/
  saved : List (Nat × Nat × Core)
  /-- Checkpoints by address, with SSCNT and the cores (R391). -/
  checkpoints : List (Nat × Nat × List (Nat × Core))
  deriving DecidableEq, Repr

/-! ### The device -/

/-- The state of the device. -/
structure State where
  cycle : Nat
  powered : Bool
  /-- The cycle in which the module's sequencer removes power after a trip (R387). -/
  offAt : Option Nat
  cores : Vector Core 256
  ctxs : List Ctx
  parts : Vector (Option Partition) 16
  offstack : Memory
  offPoisoned : List Nat
  offFrames : List FrameCnt
  offQueues : Vector (List OffAcc) 16
  mesh : List MeshFlit
  /-- Round-robin pointers that do not stand at north: router, egress, class, input (R20). -/
  pointers : List (Nat × Nat × TrafficClass × Nat)
  entries : List Entry
  pairs : List PairRec
  serial : Nat
  links : List LinkUse
  ports : Vector Bumen 20
  /-- Devices the reachability map names, with the port towards each (R305). -/
  reachable : List (Nat × Nat)
  /-- Requests and answers that left through a Bumen port (R46). -/
  outbox : List OutFlit
  /-- Owner fields that change at the end of this cycle: core, unit and code (R331). -/
  flips : List (Nat × Nat × Nat)
  /-- Core- and partition-scope control registers written in this cycle: core, number and value (R374). -/
  csrs : List (Nat × Nat × Nat)
  helm : Helm
  host : HostIf
  /-- The model's own: events due, with their cycles, in order of posting. -/
  agenda : List (Nat × Instr)
  /-- The model's own: what the outside does, with its cycles. -/
  inputs : List (Nat × Instr)
  /-- The model's own: how many free values have been read. -/
  fresh : Nat
  /-- The model's own: the core and thread whose instruction runs. -/
  cur : Fin 256 × Fin 4
  deriving DecidableEq, Repr

/-! ### Reasons to stop -/

/-- Why the device stops. -/
inductive Fault
  /-- Raised by the step when the module has removed power (R387): nothing runs until power-up. Safe: the device has stopped. -/
  | poweredOff
  deriving DecidableEq, Repr

/-- Why the model gives no meaning. -/
inductive Refusal
  /-- Raised by no instruction once every arm has its meaning; the name of one that has none. Safe: nothing is claimed of it. -/
  | notModelled (mnemonic : String)
  deriving DecidableEq, Repr

/-! ### After reset -/

/-- A thread after reset: idle (R43), in user state, holding what a launch would give it (R28; DESIGN CHOICE, log entry 9). -/
def Thread.reset : Thread where
  st := .idle
  left := .idle
  priv := false
  pc := 0
  g := Vector.replicate 32 (Reg.of 0)
  hg := Vector.replicate 8 (Reg.of 0)
  v := Vector.replicate 32 (Reg.of 0)
  p := (Vector.replicate 8 false).set 0 true
  fpsr := 0
  evpend := 0
  vslip := 112
  lslip := 1024
  spbase := 0
  spsize := 0
  ovfp := 0
  next := 0
  since := none
  block := .none
  wskip := none
  slot := none
  outs := []
  serial := 0
  acqAt := 0
  relAt := 0
  refusals := []
  refLost := 0
  trellis := 0
  stale := []
  retired := 0
  tag := none
  imaged := none
  timer := none
  owed := none
  work := none
  stepDue := false

/-- A bank with no row open (DESIGN CHOICE, log entry 10). -/
def Bank.reset : Bank := ⟨none, 0, []⟩

/-- The vault after reset: nothing listed, normal refresh mode (R169), active layers (R171). -/
def Vault.reset : Vault where
  mem := []
  banks := Vector.replicate 32 Bank.reset
  accs := []
  serial := 0
  portAt := none
  beatBank := 0
  windows := []
  hot := false
  power := .active
  powerAt := 0
  rowErrs := []
  sparesUsed := []
  remapped := []
  badWords := []
  weakWords := []
  laneErrs := []
  laneRepairs := []
  lanesRepaired := []
  frames := []
  poisoned := []

/-- A free booking slot. -/
def Booking.reset : Booking := ⟨.free, 0, 0, 0, 0, [], 0, 0, false, 0, []⟩

/-- The Almanac after reset: every slot free, SERIAL at the value log entry 11 names (DESIGN CHOICE). -/
def Almanac.reset : Almanac := ⟨Vector.replicate 16 Booking.reset, 0, [], 0, none, none, none⟩

/-- The task queue after reset (R232, R233). -/
def TaskQ.reset : TaskQ := ⟨[], false, false, 0, false, false, false, 0, []⟩

/-- The special-function unit after reset. -/
def Sfu.reset : Sfu := ⟨[], 0, 0, []⟩

/-- The matrix engine after reset (R235). -/
def Matrix.reset : Matrix := ⟨Vector.replicate 8 0, [], 0, 0, none, []⟩

/-- The trellis engine after reset (R266). -/
def Trellis.reset : Trellis := ⟨Vector.replicate 4 ⟨0, 0, 0⟩, [], 0, [], false⟩

/-- The stream and copy engine after reset. -/
def StreamEngine.reset : StreamEngine := ⟨[], [], 0, 15, [], 0⟩

/-- The vault agent after reset: windows 0 (R303). -/
def Agent.reset : Agent := ⟨[], [], 0, 0, [], [], 0, Vector.replicate 8 (0, 0, 0)⟩

/-- The network interface after reset. -/
def NetIf.reset : NetIf := ⟨true, 0, 0, [], none⟩

/-- A sensor after reset (Table 14.1). -/
def Sensor.reset : Sensor := ⟨0, false, false, 0⟩

/-- A core after reset. TVEC.ENTRY resets to 0x3C00 (Table 14.1). -/
def Core.reset : Core where
  threads := Vector.replicate 4 Thread.reset
  ctx := 0
  sram := []
  granules := []
  owners := []
  bankUses := []
  tvec := 0x3C00
  dbgctl := 0
  watch := Vector.replicate 4 0
  vault := Vault.reset
  almanac := Almanac.reset
  tasks := TaskQ.reset
  sfu := Sfu.reset
  matrix := Matrix.reset
  trellis := Trellis.reset
  engine := StreamEngine.reset
  agent := Agent.reset
  net := NetIf.reset
  sensors := Vector.replicate 3 Sensor.reset
  trips := 0
  stop := none
  preempt := .none

/-- A context record with the reset values of Table 14.1 and no creation parameters. -/
def Ctx.reset (id : Nat) : Ctx where
  id := id
  dbg := false
  trbase := 0
  trsize := 4
  trprod := 0
  trcons := 0
  lostcnt := 0
  lost := false
  fatal := false
  stopped := false
  fatalslot := 0
  ptbase := 0
  lostBefore := false
  consAt := 0
  launchSp := (0, 0, 0)
  tvec := 0x3C00
  poolBase := 0
  poolSize := 0
  poolFree := []
  fiBase := 0
  fiLim := 0
  params := []
  windows := []
  imbrings := []
  images := []
  fatalBy := none

/-- A Bumen port after reset: eight lanes on the primary plane, not trained (DESIGN CHOICE, log entry 5). -/
def Bumen.reset : Bumen := ⟨8, false, false, false, 0, 0, [], [], [], 0⟩

/-- The helm after reset: the primary's role, no policy (DESIGN CHOICE, log entry 6). -/
def Helm.reset : Helm := ⟨.primary, [], [], [], ⟨false, false, 0, 0, 0⟩, [], [], []⟩

/-- The host interface after reset: waiting for an image (R395); the other registers as log entry 7 names (DESIGN CHOICE). -/
def HostIf.reset : HostIf where
  mbxcmd := []
  mbxresp := []
  lastSeq := 0
  lastStatus := 0
  busy := none
  crbase := 0
  crctl := 0
  crprod := 0
  crcons := 0
  bootstat := 0
  fwaddr := 0
  fwlen := 0
  image := []
  devkey := []
  devid := 0
  devidFixed := false
  b4base := 0
  mem := []
  held := []
  coming := []
  msix := Vector.replicate 3 0
  lastMsix1 := none
  bar4 := []
  debug := []
  asleep := []

/-- The device right after reset. No event is pending and no program is loaded (DESIGN CHOICE, log entry 8). -/
def State.reset : State where
  cycle := 0
  powered := true
  offAt := none
  cores := Vector.replicate 256 Core.reset
  ctxs := []
  parts := Vector.replicate 16 none
  offstack := []
  offPoisoned := []
  offFrames := []
  offQueues := Vector.replicate 16 []
  mesh := []
  pointers := []
  entries := []
  pairs := []
  serial := 0
  links := []
  ports := Vector.replicate 20 Bumen.reset
  reachable := []
  outbox := []
  flips := []
  csrs := []
  helm := Helm.reset
  host := HostIf.reset
  agenda := []
  inputs := []
  fresh := 0
  cur := (0, 0)

end Sys2Proof.Machine
end

