-- ==== Sys2Proof/Machine/Ops.lean ====
section
/-! DEFINITION. The named operations of the device: memory by bytes, cores and threads by number, the local region and its
owners, translation, posting events, sending flits, instruction fetch, bookings and their ticks, trap records, taking an
exception and returning from one, and the running of one instruction's body. -/

namespace Sys2Proof.Machine

/-! ### Memory by bytes -/

/-- The byte at an address; a byte nothing has written reads 0 (DESIGN CHOICE, log entry 3). -/
def memGet : Memory → Nat → Byte
  | [], _ => 0
  | (k, b) :: m, a => if a < k then 0 else if a = k then b else memGet m a

/-- One byte written, the canonical form kept: writing 0 unlists the address. -/
def memSet : Memory → Nat → Byte → Memory
  | [], a, b => if b = 0 then [] else [(a, b)]
  | (k, x) :: m, a, b =>
    if a < k then (if b = 0 then (k, x) :: m else (a, b) :: (k, x) :: m)
    else if a = k then (if b = 0 then m else (a, b) :: m)
    else (k, x) :: memSet m a b

/-- n bytes from an address as one little-endian number (R8, R84). -/
def memGetN (m : Memory) (a : Nat) : Nat → Nat
  | 0 => 0
  | n + 1 => (memGet m a).toNat + 256 * memGetN m (a + 1) n

/-- n bytes of a number written little-endian at an address (R8, R84). -/
def memSetN (m : Memory) (a : Nat) : Nat → Nat → Memory
  | 0, _ => m
  | n + 1, x => memSet (memSetN m (a + 1) n (x / 256)) a (BitVec.ofNat 8 x)

/-- A list of bytes written from an address upward. -/
def memPut (m : Memory) (a : Nat) : List Byte → Memory
  | [] => m
  | b :: bs => memSet (memPut m (a + 1) bs) a b

/-- n bytes from an address, lowest first. -/
def memTake (m : Memory) (a : Nat) : Nat → List Byte
  | 0 => []
  | n + 1 => memGet m a :: memTake m (a + 1) n

/-- The canonical form: every listed address is above lo, addresses rise, and no listed byte is 0. -/
def memWfFrom (lo : Nat) : Memory → Bool
  | [] => true
  | (k, b) :: m => (lo ≤ k) && b != 0 && memWfFrom (k + 1) m

/-- The canonical form of a memory. -/
def Memory.wf (m : Memory) : Bool := memWfFrom 0 m

/-! ### Cores, threads, contexts and partitions by number -/

/-- The core of a number. -/
def State.coreAt (s : State) (c : Nat) : Core := (s.cores[c]?).getD Core.reset

/-- The device with one core replaced. -/
def State.setCore (s : State) (c : Nat) (k : Core) : State := { s with cores := s.cores.setIfInBounds c k }

/-- The device with one core changed. -/
def State.modCore (s : State) (c : Nat) (f : Core → Core) : State := s.setCore c (f (s.coreAt c))

/-- The thread of a number. -/
def Core.thr (k : Core) (t : Nat) : Thread := (k.threads[t]?).getD Thread.reset

/-- The core with one thread replaced. -/
def Core.setThr (k : Core) (t : Nat) (th : Thread) : Core := { k with threads := k.threads.setIfInBounds t th }

/-- A thread of a core. -/
def State.thrAt (s : State) (c t : Nat) : Thread := (s.coreAt c).thr t

/-- The device with one thread changed. -/
def State.modThr (s : State) (c t : Nat) (f : Thread → Thread) : State :=
  s.modCore c fun k => k.setThr t (f (k.thr t))

/-- The number of the core whose instruction runs. -/
def State.cc (s : State) : Nat := s.cur.1.val
/-- The number of the thread whose instruction runs. -/
def State.ct (s : State) : Nat := s.cur.2.val
/-- The core whose instruction runs. -/
def State.me (s : State) : Core := s.coreAt s.cc
/-- The thread whose instruction runs. -/
def State.th (s : State) : Thread := s.thrAt s.cc s.ct
/-- The running thread changed. -/
def State.modTh (s : State) (f : Thread → Thread) : State := s.modThr s.cc s.ct f
/-- The running core changed. -/
def State.modMe (s : State) (f : Core → Core) : State := s.modCore s.cc f

/-- TICK = CYCLE[63:3] (R4). -/
def State.tick (s : State) : Nat := s.cycle / 8

/-- The context of an identifier; one that does not exist reads as the reset record. -/
def State.ctxOf (s : State) (id : Nat) : Ctx := (s.ctxs.find? (·.id == id)).getD (Ctx.reset id)

/-- A context's record replaced, or added. -/
def putCtx (x : Ctx) : List Ctx → List Ctx
  | [] => [x]
  | y :: ys => if y.id == x.id then x :: ys else y :: putCtx x ys

/-- The device with one context changed. -/
def State.modCtx (s : State) (id : Nat) (f : Ctx → Ctx) : State := { s with ctxs := putCtx (f (s.ctxOf id)) s.ctxs }

/-- Whether a rectangle holds a core (R327). -/
def Rect.has (r : Rect) (c : Nat) : Bool := r.x0 ≤ c % 16 && c % 16 ≤ r.x1 && r.y0 ≤ c / 16 && c / 16 ≤ r.y1

/-- The cores of a rectangle in ascending number, which is the row-major ring order (R229). -/
def Rect.cores (r : Rect) : List Nat := (List.range 256).filter r.has

/-- The partition of a number. -/
def State.partAt (s : State) (p : Nat) : Option Partition := (s.parts[p]?).getD none

/-- The device with one partition changed. -/
def State.modPart (s : State) (p : Nat) (f : Partition → Partition) : State :=
  { s with parts := s.parts.setIfInBounds p ((s.partAt p).map f) }

/-- The number of the partition that holds a core (R43). -/
def State.partOf (s : State) (c : Nat) : Option Nat :=
  (List.range 16).find? fun p => match s.partAt p with | some q => q.rect.has c | none => false

/-- SSCNT of a context on its partition: the global releases since it started there (R42). -/
def Partition.ssOf (q : Partition) (ctx : Nat) : Nat :=
  (q.sscnt + 2 ^ 64 - ((q.bases.find? (·.1 == ctx)).map (·.2)).getD 0) % 2 ^ 64

/-- SSCNT of a core (R42), in a replay that of the logged run (R383). -/
def State.ssOf (s : State) (c : Nat) : Nat :=
  match (s.coreAt c).net.replay, s.partOf c with
  | some r, _ => r.ss
  | none, some p => ((s.partAt p).map (·.ssOf (s.coreAt c).ctx)).getD 0
  | none, none => 0

/-- Partitions that host a context. -/
def State.partsOf (s : State) (ctx : Nat) : List Nat :=
  (List.range 16).filter fun p => match s.partAt p with | some q => q.ctxs.contains ctx | none => false

/-- An event posted for a cycle. -/
def State.post (s : State) (due : Nat) (i : Instr) : State := { s with agenda := s.agenda ++ [(due, i)] }

/-- An event posted for a cycle unless the same one is due in it already. -/
def State.postOnce (s : State) (due : Nat) (i : Instr) : State := if s.agenda.contains (due, i) then s else s.post due i

/-- Every core in ascending number. -/
def State.eachCore (s : State) (f : State → Nat → State) : State := (List.range 256).foldl f s

/-- A change of a context's threads on a core: of the core, or of the core as it was saved with the context (R332, R373). -/
def State.onCtx (s : State) (c ctx : Nat) (f : Core → Core) : State :=
  if (s.coreAt c).ctx = ctx then s.modCore c f
  else { s with helm := { s.helm with saved := s.helm.saved.map fun x => if x.1 == ctx && x.2.1 == c then (ctx, c, f x.2.2) else x } }

/-- The queue of a core changed. -/
def Core.modTasks (k : Core) (f : TaskQ → TaskQ) : Core := { k with tasks := f k.tasks }

/-- The counter of free values advanced by one reading. -/
def State.tickFree (s : State) : State := { s with fresh := s.fresh + 1 }

/-! ### The local region (Table 1.5) -/

/-- What a local offset names. -/
inductive Place | scratch | code | ab (n : Nat) | wb (n : Nat) | acc (n : Nat) | hole
  deriving DecidableEq, Repr

/-- Table 1.5 (R37). -/
def placeOf (off : Nat) : Place :=
  if off < 0x100000 then .scratch
  else if off < 0x110000 then .code
  else if off < 0x130000 then .ab ((off - 0x110000) / 0x8000)
  else if off < 0x160000 then .wb ((off - 0x130000) / 0xC000)
  else if off < 0x200000 then .hole
  else if off < 0x280000 then .acc ((off - 0x200000) / 0x10000)
  else .hole

/-- The owner field that governs a local offset: tiles 0 to 255, then ab, wb and acc (R187). -/
def unitOf (off : Nat) : Option Nat :=
  match placeOf off with
  | .scratch => some (off / 4096)
  | .ab n => some (256 + n)
  | .wb n => some (260 + n)
  | .acc n => some (264 + n)
  | .code | .hole => none

/-- The VA of local offset 0 (R37). -/
def localBase : Nat := 0xF000000000000

/-- Whether a VA lies in the local region (R36). -/
def isLocal (va : Nat) : Bool := va / 2 ^ 48 % 16 == 15

/-- The offset of a local VA. -/
def localOff (va : Nat) : Nat := va % 2 ^ 48

/-- The owner code of a unit; units not listed are owned by thread (Table 6.3). -/
def Core.owner (k : Core) (u : Nat) : Nat := ((k.owners.find? (·.1 == u)).map (·.2)).getD 0

/-- An owner list with one unit changed, ascending, units owned by thread unlisted. -/
def putOwner (u code : Nat) : List (Nat × Nat) → List (Nat × Nat)
  | [] => if code = 0 then [] else [(u, code)]
  | (v, x) :: r =>
    if u < v then (if code = 0 then (v, x) :: r else (u, code) :: (v, x) :: r)
    else if u = v then (if code = 0 then r else (u, code) :: r)
    else (v, x) :: putOwner u code r

/-- A core with one owner field changed. -/
def Core.setOwner (k : Core) (u code : Nat) : Core := { k with owners := putOwner u code k.owners }

/-- A number put into an ascending list without repeats. -/
def insertAsc (x : Nat) : List Nat → List Nat
  | [] => [x]
  | y :: r => if x < y then x :: y :: r else if x = y then y :: r else y :: insertAsc x r

/-- Whether a scratchpad granule is full (R186). -/
def Core.granFull (k : Core) (g : Nat) : Bool := k.granules.contains g

/-- A granule made full or empty. -/
def Core.setGran (k : Core) (g : Nat) (full : Bool) : Core :=
  { k with granules := if full then insertAsc g k.granules else k.granules.filter (· != g) }

/-- The granules that n bytes from a scratchpad offset touch (R125). -/
def granulesOf (off n : Nat) : List Nat :=
  if n = 0 then [] else (List.range ((off + n - 1) / 16 - off / 16 + 1)).map (off / 16 + ·)

/-- Every granule of a range made full (R186). -/
def Core.fillGrans (k : Core) (off n : Nat) : Core :=
  if off < 0x100000 then (granulesOf off n).foldl (fun k g => k.setGran g true) k else k

/-- The code word at an index as memory holds it (R56). -/
def Core.codeWord (k : Core) (i : Nat) : Insn := BitVec.ofNat 32 (memGetN k.sram (0x100000 + 4 * (i % 16384)) 4)

/-- Every thread of a core keeps the old contents of the code words that a write of n bytes at a local offset changes, as long
as it has fewer than 8 such words (R38). -/
def Core.noteStale (k : Core) (off n : Nat) : Core :=
  if off + n ≤ 0x100000 || 0x110000 ≤ off then k
  else
    let lo := (off - 0x100000) / 4
    let hi := (off + n - 1 - 0x100000) / 4
    let ws := (List.range (hi - lo + 1)).map (lo + ·)
    let note (th : Thread) : Thread :=
      { th with stale := (ws.foldl (fun (l : List (Nat × Insn)) i =>
          if l.any (·.1 == i) || 8 ≤ l.length then l else l ++ [(i, k.codeWord i)]) th.stale) }
    { k with threads := k.threads.map note }

/-- Bytes of local SRAM written; stores to the code store leave stale words with the threads (R38). -/
def Core.sramWrite (k : Core) (off n x : Nat) : Core :=
  let k := k.noteStale off n
  { k with sram := memSetN k.sram off n x }

/-- Bytes of local SRAM. -/
def Core.sramRead (k : Core) (off n : Nat) : Nat := memGetN k.sram off n

/-! ### Instruction fetch -/

/-- The word a thread fetches at its PC: a word that a store has changed since the thread's `fencei` may be the old one (R38). -/
def State.fetchWord (s : State) (c t : Nat) : Insn :=
  let k := s.coreAt c
  let th := k.thr t
  match th.stale.find? (·.1 == th.pc.toNat) with
  | some (i, old) => if Config.freePick (s.cycle + 16384 * i) then k.codeWord i else old
  | none => k.codeWord th.pc.toNat

/-! ### Translation (R189, R375) -/

/-- Where a translation leads. -/
inductive Xlate
  | loc (off : Nat)
  | vault (pa : Nat)
  | offstack (pa : Nat)
  | moving
  | page
  | prot
  | foreign (vid : Nat)
  | poison (pa : Nat)
  deriving DecidableEq, Repr

/-- A leaf entry with the physical address of the entry, and the log2 of its page size. -/
structure LeafAt where
  entry : Nat
  entryPa : Nat
  log : Nat
  deriving DecidableEq, Repr

/-- The bits of a VA that index a level, the log2 of the level's table size, and of the size an entry at it spans (Table 14.7). -/
def levelOf : Nat → Nat × Nat × Nat × Nat
  | 0 => (51, 39, 16, 39)
  | 1 => (38, 30, 12, 30)
  | 2 => (29, 21, 12, 21)
  | _ => (20, 16, 8, 16)

/-- The walk from a level's table (R375): the leaf, or none where the translation raises PAGE. -/
def walkFrom (m : Memory) (va : Nat) : Nat → Nat → Nat → Option LeafAt
  | 0, _, _ => none
  | fuel + 1, level, table =>
    let (hi, lo, _, _) := levelOf level
    let pa := table + 8 * bitsOf va hi lo
    let e := memGetN m pa 8
    if !bitOf e 63 then none
    else if bitsOf e 62 61 = 3 then
      let next := bitsOf e 39 8 * 256
      let (_, _, size, _) := levelOf (level + 1)
      if level = 3 || bitsOf e 60 40 != 0 || bitsOf e 7 0 != 0 || next % 2 ^ size != 0 then none
      else walkFrom m va fuel (level + 1) next
    else
      let sz := bitsOf e 60 59
      let log := if sz = 0 then 16 else if sz = 1 then 21 else if sz = 2 then 30 else 34
      let levelOk := (level == 3 && sz == 0) || (level == 2 && sz == 1) || (level == 1 && (sz == 2 || sz == 3))
      if levelOk && bitsOf e 46 40 = 0 && bitsOf e 15 0 = 0 && (bitsOf e 39 16 * 65536) % 2 ^ log = 0
          && !(bitsOf e 62 61 = 1 && (bitsOf e 39 31 != 0 || sz == 3))
      then some ⟨e, pa, log⟩ else none

/-- The leaf entry of a VA in a context. -/
def State.leaf (s : State) (ctx va : Nat) : Option LeafAt :=
  walkFrom s.offstack va 4 0 (bitsOf (s.ctxOf ctx).ptbase.toNat 39 16 * 65536)

/-- The physical address a leaf gives a VA. -/
def LeafAt.pa (l : LeafAt) (va : Nat) : Nat := bitsOf l.entry 39 16 * 65536 + va % 2 ^ l.log

/-- Translate (R84, Table 6.5) for a core, in a context, with the permissions the access needs. A poisoned frame raises as a
poisoned entry does (R162). -/
def State.translate (s : State) (c ctx va : Nat) (rd wr : Bool) : Xlate :=
  if isLocal va then .loc (localOff va)
  else match s.leaf ctx va with
    | none => .page
    | some l =>
      let tier := bitsOf l.entry 62 61
      let vid := bitsOf l.entry 54 47
      let pa := l.pa va
      let frameBad := if tier = 1 then (s.coreAt vid).vault.poisoned.contains (pa / 65536)
        else if tier = 0 then s.offPoisoned.contains (pa / 65536) else false
      if bitOf l.entry 55 || frameBad then .poison pa
      else if (rd && !bitOf l.entry 58) || (wr && !bitOf l.entry 57) then .prot
      else if tier = 2 then .moving
      else if tier = 1 then (if vid = c then .vault pa else .foreign vid)
      else .offstack pa

/-! ### The mesh's entry -/

end Sys2Proof.Machine

namespace Sys2Proof
open Machine

/-- The event in which a flit's arrival at its destination consists; none at an edge port. -/
def Flit.arrival (f : Flit) : Option Instr :=
  match f.load, f.dst with
  | .request r, .core n => some (.agentRequestArrival n r)
  | .request _, _ => none
  | .reply ret x, _ => some (.replyArrival ret x)
  | .refusal ret x, _ => some (.refusalArrival ret x)
  | .steal v th t, _ => some (.stealRequest v th t)
  | .gift th t v g, _ => some (.giftArrival th t v g)
  | .stealRefusal th t v, _ => some (.stealRefusal th ⟨t, v⟩)
  | .giftAck c, _ => some (.giftAck c)
  | .signal c ctx m, _ => some (.signalArrival c ctx m)
  | .token _ _, _ | .holds _, _ | .heldBy _, _ | .call _ _ _ _ _ _, _ | .completion _, _ | .bulk _ _ _, _ => none

end Sys2Proof

namespace Sys2Proof.Machine

/-- A flit put at a router, where it arrives in a cycle (R18, R20). -/
def State.inject (s : State) (at_ node inp : Nat) (f : Flit) : State :=
  { s with mesh := s.mesh ++ [⟨f, node, inp, at_, false, false, none⟩] }

/-- A flit sent by a core, which stands at its router in a cycle (R18, R20): the network interface counts OP flits (Table 14.9); a
flit to the core itself bypasses the mesh (R300, R334); in replay the flit is discarded (R383). -/
def State.send (s : State) (at_ : Nat) (f : Flit) : State :=
  let s := if f.cls == .openOp then s.modCore f.core fun k => { k with net := { k.net with sent := k.net.sent + 1 } } else s
  if (s.coreAt f.core).net.replay.isSome then s
  else if f.dst == .core f.core then
    match f.arrival with
    | some i => s.post (at_ + 1) i
    | none => s
  else s.inject at_ f.core 4 f

/-- The controller of an off-stack address (R31). -/
def ctrlOf (pa : Nat) : Nat := bitsOf pa 15 12

/-- The Bumen port towards a device, of those the reachability map names (R46, R305). -/
def State.portTo (s : State) (d : Nat) : Option Nat := (s.reachable.find? (·.1 == d)).map (·.2)

/-- A request sent as an OP flit (R20, R315); it reaches its own router in the next cycle (R302). The network interface refuses
one to a device that is not reachable, with reason 13, two cycles later (R305). -/
def State.sendReq (s : State) (r : Req) : State :=
  let go (dst : FlitEnd) : State := s.send (s.cycle + 1) ⟨.openOp, r.core, r.thr, dst, .request r⟩
  match r.target with
  | .core n => go (.core n)
  | .off n => go (.off n)
  | .device d _ =>
    match s.portTo d with
    | some p => go (.bumen p)
    | none => s.post (s.cycle + 2) (.refusalArrival r.ret 13)

/-! ### Bookings and their ticks (R197, R206) -/

/-- The booking of a slot. -/
def Core.booking (k : Core) (i : Nat) : Booking := (k.almanac.slots[i]?).getD Booking.reset

/-- A core with one booking slot replaced. -/
def Core.setBooking (k : Core) (i : Nat) (b : Booking) : Core :=
  { k with almanac := { k.almanac with slots := k.almanac.slots.setIfInBounds i b } }

/-- Whether a list of holds covers a resource code in a tick. -/
def holdsTick (hs : List Hold) (code tick : Nat) : Bool :=
  hs.any fun h => h.code == code && h.first ≤ tick && tick ≤ h.last

/-- Bookings in Made, Armed or Started state (R197). -/
def Booking.live (b : Booking) : Bool := b.st == .made || b.st == .armed || b.st == .started

/-- The scratchpad bank of a local offset (R185). -/
def bankOf (off : Nat) : Nat := off / 2 ^ 15 % 32

/-- The banks that n bytes from a scratchpad offset use (R185). -/
def banksOf (off n : Nat) : List Nat :=
  if n = 0 || 0x100000 ≤ off then [] else if bankOf off = bankOf (off + n - 1) then [bankOf off] else [bankOf off, bankOf (off + n - 1)]

/-- Whether an access still has beats to move that use a resource: the vault port, a bank, a scratchpad bank. -/
def VaultAcc.uses (a : VaultAcc) (code : Nat) : Bool :=
  a.segs.any fun g => g.moved < g.n && ((code = 3 && a.op != .rowact && a.op != .rowpre) || code = 0x40 + g.bank ||
    ((a.op == .tileLoad || a.op == .tileStore) && a.lo < 0x100000 && 0x10 ≤ code && code < 0x30 && (banksOf (a.lo + g.off + g.moved) (g.n - g.moved)).contains (code - 0x10)))

/-- Whether kept ticks are still kept (R206). -/
def Core.stillKept (k : Core) (x : Kept) : Bool := x.firm || k.vault.accs.any fun a => a.ended == some x.id && a.uses x.hold.code

/-- Whether any live booking, or the kept ticks of an ended one other than an access's own, hold a resource in a tick. -/
def Core.bookedBut (k : Core) (ended : Option Nat) (code tick : Nat) : Bool :=
  k.almanac.slots.toList.any (fun b => b.live && holdsTick b.holds code tick) ||
    k.almanac.kept.any fun x => ended != some x.id && holdsTick [x.hold] code tick && k.stillKept x

/-- Whether any live booking, or the kept ticks of an ended one, hold a resource in a tick. -/
def Core.booked (k : Core) (code tick : Nat) : Bool := k.bookedBut none code tick

/-- Whether a thread's own booking holds a resource in a tick. -/
def Core.ownHolds (k : Core) (th : Thread) (code tick : Nat) : Bool :=
  match th.slot with
  | some i => holdsTick (k.booking i).holds code tick
  | none => false

/-- A booking id (R202). -/
def bookId (slot serial : Nat) : Nat := 4096 + 256 * slot + serial

/-- The booking id a thread holds, 0 in open mode (R204). -/
def Core.bookIdOf (k : Core) (th : Thread) : Nat :=
  match th.slot with
  | some i => bookId i (k.booking i).serial
  | none => 0

/-- The last tick in which an operation of known length that the thread has started uses a resource, if any (R206); a row operation of a
bank that its booking holds is its own (R165). -/
def Core.runsUntil (k : Core) (t code : Nat) : Option Nat :=
  if code = 1 then
    (k.matrix.cmds.filterMap fun m => if m.thr == t && m.start.isSome then some ((m.freeAt - 1) / 8) else none).max?
  else if code = 2 then
    (k.sfu.ops.filterMap fun o => if o.thr == t then o.started.map fun c => (c + o.regs - 1) / 8 else none).max?
  else if 0x40 ≤ code && code < 0x60 then
    (((k.vault.banks[code - 0x40]?).getD Bank.reset).ops.map fun o => (o.fin - 1) / 8).max?
  else
    (k.bankUses.filterMap fun u => if u.rank == t && code == 0x10 + u.bank then some (u.cycle / 8) else none).max?

/-- What remains of a hold when its booking ends: its part of the current tick, the ticks an operation of the task still needs,
and those an outstanding access of the task may still need (R206). -/
def keptParts (id tick : Nat) (until_ : Option Nat) (used : Bool) (h : Hold) : List Kept :=
  let lim := if h.code = 0x60 then tick else max tick (until_.getD tick)
  let part (firm : Bool) (a b : Nat) : List Kept := if b < a then [] else [⟨id, firm, { h with first := a, last := b }⟩]
  part true (max h.first tick) (min h.last lim) ++ (if used then part false (max h.first (lim + 1)) h.last else [])

/-- An access started by the task of the booking that ends goes on without it (R206). -/
def VaultAcc.outlive (slot id : Nat) (a : VaultAcc) : VaultAcc :=
  if a.heldFor == some slot then { a with limit := none, heldFor := none, abandoned := false, ended := some id } else a

/-- A core whose booking in a slot has ended: ticks released and kept as R205 and R206 give, and compaction due (R218). -/
def Core.releaseTicks (k : Core) (tick t i : Nat) : Core :=
  let b := k.booking i
  let id := bookId i b.serial
  let used (code : Nat) : Bool := k.vault.accs.any fun a => a.heldFor == some i && a.uses code
  let kept := if b.st == .started then b.holds.flatMap fun h => keptParts id tick (k.runsUntil t h.code) (used h.code) h else []
  let k := k.setBooking i { b with holds := [] }
  { k with
    almanac := { k.almanac with kept := k.almanac.kept.filter (tick ≤ ·.hold.last) ++ kept, dirty := some (8 * tick) }
    vault := { k.vault with accs := k.vault.accs.map (VaultAcc.outlive i id) } }

/-- The link ticks of a slot released after a tick (R205, R206). -/
def releaseLinks (c i tick : Nat) (ls : List LinkUse) : List LinkUse :=
  ls.filterMap fun l =>
    if l.core == c && l.slot == i then (if l.last < tick || tick < l.first then none else some { l with last := tick }) else some l

/-- The ticks of a thread's booking released (R205, R206). The beats it abandoned move as open accesses from now on (R179). -/
def State.releaseBooking (s : State) (c t : Nat) : State :=
  let th := s.thrAt c t
  match th.slot with
  | none => s
  | some i =>
    let k := s.coreAt c
    let moved := k.vault.accs.filter fun a => a.heldFor == some i && a.abandoned
    let s := s.modCore c fun k => k.releaseTicks s.tick t i
    let s := { s with links := releaseLinks c i s.tick s.links }
    let s := moved.foldl (fun s a =>
      s.post (s.cycle + 1) (match a.op with
        | .tileLoad | .tileStore => .tileBeat c a.id
        | _ => .vaultAccessBeat c a.id)) s
    s.postOnce (s.cycle + 1) .compaction

/-- A thread's booking ended: by `done`, `halt`, a trap or pre-emption (R205, R206, R214). -/
def State.endBooking (s : State) (c t : Nat) : State :=
  match (s.thrAt c t).slot with
  | none => s
  | some i =>
    ((s.releaseBooking c t).modCore c fun k => k.setBooking i { k.booking i with st := .free }).modThr c t fun th => { th with slot := none, st := .run }

/-! ### Trap records (R362 to R366) -/

/-- A number's n bytes, lowest first. -/
def leBytes : Nat → Nat → List Byte
  | 0, _ => []
  | n + 1, x => BitVec.ofNat 8 x :: leBytes n (x / 256)

/-- The little-endian number of a list of bytes. -/
def leNat : List Byte → Nat
  | [] => 0
  | b :: bs => b.toNat + 256 * leNat bs

/-- The 64 bytes of a record as one little-endian number (Table 14.3). -/
def TrapRec.word (r : TrapRec) (seq : Nat) : Nat :=
  r.cause % 2 ^ 16 + r.flags % 2 ^ 8 * 2 ^ 16 + r.source % 2 ^ 8 * 2 ^ 24 + r.core % 16 * 2 ^ 32 + r.core / 16 % 16 * 2 ^ 40
  + r.ctx % 2 ^ 16 * 2 ^ 48 + r.pc % 2 ^ 14 * 2 ^ 64 + r.addr % 2 ^ 64 * 2 ^ 128 + r.insn % 2 ^ 32 * 2 ^ 192 + r.ss % 2 ^ 32 * 2 ^ 224
  + r.cycle % 2 ^ 64 * 2 ^ 256 + r.det0 % 2 ^ 64 * 2 ^ 320 + r.det1 % 2 ^ 64 * 2 ^ 384 + r.bookid % 2 ^ 32 * 2 ^ 448 + seq % 2 ^ 32 * 2 ^ 480

/-- The number of slots of a context's ring (Table 14.1). -/
def Ctx.ringSlots (x : Ctx) : Nat := 2 ^ (min 16 (max 4 (bitsOf x.trsize.toNat 4 0)))

/-- Whether the ring is full (R364). -/
def Ctx.ringFull (x : Ctx) : Bool :=
  x.ringSlots ≤ (x.trprod.toNat + 2 ^ 32 - x.trcons.toNat % 2 ^ 32) % 2 ^ 32

/-- The VA of the ring slot of a sequence number (R364). -/
def Ctx.slotVa (x : Ctx) (seq : Nat) : Nat := bitsOf x.trbase.toNat 51 6 * 64 + 64 * (seq % x.ringSlots)

/-- The off-stack address of a record's slot, if its page is as R364 asks. -/
def State.slotPa (s : State) (c ctx va : Nat) : Option Nat :=
  match s.translate c ctx va true true with
  | .offstack pa => some pa
  | _ => none

/-- A dropped record counted (R364, R365). -/
def Ctx.drop (x : Ctx) : Ctx := { x with lostcnt := min 65535 (x.lostcnt + 1), lost := true, lostBefore := true }

/-- A record as a context's ring takes it: with the lost-before flag after a drop (R365). -/
def Ctx.stamp (x : Ctx) (r : TrapRec) : TrapRec := if x.lostBefore && r.flags / 4 % 2 = 0 then { r with flags := r.flags + 4 } else r

/-- A record allocated: it takes the next sequence number and its store is sent (R364). The lost-before flag is set after a
drop (R365). Answers the record's VA. A core in replay leaves the ring as it is (R383). -/
def State.allocRecord (s : State) (r : TrapRec) (ret : RetPath) : State × Nat :=
  let x := s.ctxOf r.ctx
  let seq := x.trprod.toNat % 2 ^ 32
  let va := x.slotVa seq
  if (s.coreAt r.core).net.replay.isSome then (s, va) else
  match s.slotPa r.core r.ctx va with
  | none => (s.modCtx r.ctx Ctx.drop, va)
  | some pa =>
    let r := x.stamp r
    let s := s.modCtx r.ctx fun x => { x with trprod := BitVec.ofNat 64 ((seq + 1) % 2 ^ 32), lostBefore := false }
    (s.sendReq ⟨ret, r.ctx, r.core, if r.source < 4 then r.source else 4, .off (ctrlOf pa), .put, pa, 64, r.word seq, 0⟩, va)

/-- A record of a non-stalling producer: dropped where the ring is full (R365). -/
def State.noteRecord (s : State) (r : TrapRec) : State :=
  if (s.ctxOf r.ctx).ringFull && (s.coreAt r.core).net.replay.isNone then s.modCtx r.ctx Ctx.drop else (s.allocRecord r .none).1

/-- An entry of the helm journal. -/
def State.journal (s : State) (kind ctx core a b : Nat) (bytes : List Byte) : State :=
  { s with helm := { s.helm with journal := s.helm.journal ++ [⟨kind, ctx, core, a, b, bytes, s.cycle⟩] } }

/-- The halt tree of every partition of a context initiated (R366, R381): the stop falls at most 64 cycles later. -/
def State.startStop (s : State) (parts : List Nat) (reason : Nat) : State :=
  parts.foldl (fun s p =>
    (s.post (s.cycle + Config.freeDelay s.fresh % 65) (.haltTreeStop p reason s.cycle)).tickFree) s

/-- A fatal record (R366): journalled, written to the fatal slot unless one is there already, the context marked and its
partitions stopped. A core in replay runs alone and makes none (R383). -/
def State.fatalRecord (s : State) (r : TrapRec) : State :=
  if (s.coreAt r.core).net.replay.isSome then s else
  let r := if r.flags / 2 % 2 = 0 then { r with flags := r.flags + 2 } else r
  let seq := s.helm.journal.length
  let x := s.ctxOf r.ctx
  let s := s.journal 1 r.ctx r.core r.cause 0 (leBytes 64 (r.word seq))
  if x.fatal then s.modCtx r.ctx Ctx.drop
  else
    let s := match s.slotPa r.core r.ctx (bitsOf x.fatalslot.toNat 51 6 * 64) with
      | some pa => s.sendReq ⟨.none, r.ctx, r.core, 4, .off (ctrlOf pa), .put, pa, 64, r.word seq, 0⟩
      | none => s.modCtx r.ctx Ctx.drop
    let s := s.modCtx r.ctx fun x => { x with fatal := true }
    s.startStop (s.partsOf r.ctx) 2

/-! ### Taking an exception (R359, R360) -/

/-- What raising an exception does besides its record (R52, R306). -/
inductive ExcEffect
  | none
  | clearG (n : Nat)
  | clearHg (n : Nat)
  | clearV (n : Nat)
  | popRefusal
  deriving DecidableEq, Repr

/-- An exception as its instruction raises it: cause, address, detail words, flags, the source if it is not the thread, and
what taking it clears. -/
structure Exc where
  cause : Nat
  addr : Nat := 0
  det0 : Nat := 0
  det1 : Nat := 0
  replay : Bool := false
  after : Bool := false
  source : Option Nat := none
  pc : Option Nat := none
  effect : ExcEffect := .none
  deriving DecidableEq, Repr

/-- The cause codes of Table 14.14. -/
def causeIllegal : Nat := 0x01
def causePriv : Nat := 0x02
def causeAlign : Nat := 0x03
def causePage : Nat := 0x04
def causeProt : Nat := 0x05
def causeForeign : Nat := 0x06
def causePtag : Nat := 0x07
def causeRempty : Nat := 0x08
def causeOwner : Nat := 0x09
def causeBookv : Nat := 0x0A
def causeOvrn : Nat := 0x0B
def causeWnack : Nat := 0x0C
def causeRpair : Nat := 0x0D
def causeThrot : Nat := 0x0F
def causeWatch : Nat := 0x10
def causeBreak : Nat := 0x11
def causeStep : Nat := 0x12
def causeSwtrap : Nat := 0x13
def causeEngine : Nat := 0x14
def causeStreampark : Nat := 0x15
def causeMsgovf : Nat := 0x16
def causeBadrect : Nat := 0x17
def causePreempt : Nat := 0x18
def causeGang : Nat := 0x19
def causeLanerep : Nat := 0x1A
def causeTermerr : Nat := 0x1B
def causeFmt : Nat := 0x1E
def causeFatalUe : Nat := 0x1F

/-- The effect of an exception on its thread. -/
def Thread.excEffect (th : Thread) : ExcEffect → Thread
  | .none => th
  | .clearG n => { th with g := th.g.setIfInBounds n (Reg.of 0) }
  | .clearHg n => { th with hg := th.hg.setIfInBounds n (Reg.of 0) }
  | .clearV n => { th with v := th.v.setIfInBounds n (Reg.of 0) }
  | .popRefusal => { th with refusals := th.refusals.drop 1 }

/-- The record of an exception of the running thread (Table 14.3). A PAGE record is replayable, as Example 14.1 shows (log
entry 14). -/
def State.excRecord (s : State) (e : Exc) : TrapRec :=
  let th := s.th
  { cause := e.cause
    flags := (if e.replay || e.cause = causePage then 1 else 0) + (if th.priv || e.cause = causeFatalUe then 2 else 0) + (if 0 < th.refLost then 4 else 0) + (if e.after then 8 else 0)
    source := e.source.getD s.ct
    core := s.cc
    ctx := s.me.ctx
    pc := e.pc.getD th.pc.toNat
    addr := e.addr
    insn := (s.fetchWord s.cc s.ct).toNat
    ss := s.ssOf s.cc
    cycle := s.cycle
    det0 := e.det0
    det1 := e.det1
    bookid := s.me.bookIdOf th }

/-- hg6 and hg7 at entry (Table 14.2): the task cycle and the booking list of the booking that ends. -/
def Core.taskCycle (k : Core) (th : Thread) (cycle : Nat) : Nat × Nat :=
  match th.slot with
  | some i => let b := k.booking i; ((cycle + b.k0 + 2 ^ 64 - 8 * b.start) % 2 ^ 64, b.va)
  | none => (2 ^ 64 - 1, 0)

/-- A trap record of a thread in user state on its way to the ring: allocated and stored, or waiting for a place (R365). Where
its slot does not translate the record is dropped, and the handler is entered in the next cycle (DEDUCED, log entry 13). -/
def State.trapToRing (s : State) (c t : Nat) (r : TrapRec) (a : HandlerArgs) : State :=
  let x := s.ctxOf r.ctx
  if x.ringFull && (s.coreAt c).net.replay.isNone then
    (s.modThr c t fun th => { th with block := .ring r a s.cycle }).postOnce (s.cycle + 8500) .ringStallRelief
  else
    let mapped := (s.slotPa c r.ctx (x.slotVa (x.trprod.toNat % 2 ^ 32))).isSome
    let lost := mapped && (s.coreAt c).net.replay.isNone && (x.stamp r).flags != r.flags
    let (s, va) := s.allocRecord r (.record c t)
    let s := s.modThr c t fun th => { th with block := .record { a with record := va, cause := if lost then a.cause + 2 ^ 18 else a.cause } }
    if mapped then s else s.post (s.cycle + 1) (.handlerEntry c t)

/-- The entries of the special-function unit that a thread has not started leave the queue until it resumes (R150). -/
def Sfu.withdraw (u : Sfu) (t : Nat) : Sfu :=
  { u with
    ops := u.ops.filter fun o => o.thr != t || o.started.isSome
    removed := u.removed ++ u.ops.filter fun o => o.thr == t && o.started.isNone }

/-- The withdrawn entries of a thread back at the tail, in their order (R150). -/
def Sfu.restore (u : Sfu) (t : Nat) : Sfu :=
  { u with ops := u.ops ++ u.removed.filter (·.thr == t), removed := u.removed.filter (·.thr != t) }

/-- Taking an exception of the running thread (R359): its booking ends, its record is made, and it goes to the handler; in
privileged state the record is fatal (R360). -/
def takeTrap (e : Exc) (s : State) : State :=
  let th := s.th
  let r := s.excRecord e
  let (kap, lst) := s.me.taskCycle th s.cycle
  let skip := if th.wskip = some th.pc then 2 ^ 14 else 0
  let a : HandlerArgs := ⟨th.pc.toNat + skip, 0, r.cause + r.flags % 256 * 2 ^ 16, kap, lst⟩
  let s := s.modTh fun th => { th.excEffect e.effect with refLost := 0, since := none, stepDue := false }
  let s := s.endBooking s.cc s.ct
  let s := s.modMe fun k => { k with sfu := k.sfu.withdraw s.ct }
  if th.priv || e.cause = causeFatalUe then
    let s := s.modTh fun th => { th with st := .run, block := .record a }
    let x := s.ctxOf r.ctx
    let s := if x.fatal then s else s.modCtx r.ctx fun x => { x with fatalBy := some (s.cc, s.ct, { a with record := bitsOf x.fatalslot.toNat 51 6 * 64 }) }
    s.fatalRecord r
  else (s.modTh fun th => { th with st := .run }).trapToRing s.cc s.ct r a

/-- The handler's first instruction is ready (R359): privileged state, the PC at TVEC.ENTRY and the handler registers of
Table 14.2. -/
def State.enterHandler (s : State) (c t : Nat) (a : HandlerArgs) : State :=
  let tv := (s.coreAt c).tvec.toNat
  let save := localBase + bitsOf tv 39 20 + 4096 * t
  s.modThr c t fun th =>
    { th with
      priv := true
      pc := BitVec.ofNat 14 (bitsOf tv 13 0)
      block := .none
      next := s.cycle + 1
      wskip := none
      hg := ((((th.hg.setIfInBounds 0 (Reg.of (BitVec.ofNat 64 a.resume))).setIfInBounds 2 (Reg.of (BitVec.ofNat 64 a.record))).setIfInBounds 3
        (Reg.of (BitVec.ofNat 64 save))).setIfInBounds 4 (Reg.of (BitVec.ofNat 64 a.cause))).setIfInBounds 5
        (Reg.of (BitVec.ofNat 64 a.kappa)) |>.setIfInBounds 6 (Reg.of (BitVec.ofNat 64 a.list)) }

/-- Leaving privileged state by `eret` (R368): WSKIP and the PC from the resume word; withdrawn special-function entries
re-enter before the next instruction (R150). -/
def State.leaveHandler (s : State) (r : Nat) : State :=
  let back := s.me.sfu.removed.any (·.thr == s.ct)
  let s := (s.modMe fun k => { k with sfu := k.sfu.restore s.ct }).modTh fun th =>
    { th with priv := false, pc := BitVec.ofNat 14 r, wskip := if bitOf r 14 then some (BitVec.ofNat 14 r) else none }
  if back then s.postOnce (s.cycle + 1) .sfuQueueStart else s

/-! ### Running the body of an instruction -/

/-- Why a body does not complete in this cycle. -/
inductive Stop
  | wait (until_ : Nat)
  | drain
  | trap (e : Exc)
  deriving DecidableEq, Repr

/-- How a body completes: its issue cost, and the next PC where it is not the next word; with held the thread stays at the
instruction until an event completes it. -/
structure Done where
  cost : Nat
  pc : Option (BitVec 14)
  held : Bool
  deriving DecidableEq, Repr

/-- The body of an instruction: it reads and changes the state, or stops without changing it (R14). -/
abbrev Act := StateT State (Except Stop)

/-- A completion with an issue cost, going on at the next word. -/
def done (cost : Nat) : Act Done := pure ⟨cost, none, false⟩
/-- A completion that branches (R110). -/
def branchTo (cost : Nat) (pc : BitVec 14) : Act Done := pure ⟨cost, some pc, false⟩
/-- The completion of an instruction that waits for work of its thread: the next instruction may issue in the cycle in which
that work completes, and no earlier than the cycle after the issue (R184, R258, R278). -/
def drained : Act Done := do done (if (← get).th.since.isSome then 0 else 1)
/-- The instruction has issued and an event will complete it. -/
def hold : Act Done := pure ⟨1, none, true⟩
/-- The instruction does not issue in this cycle. -/
def stall {α : Type} : Act α := do throw (.wait ((← get).cycle + 1))
/-- The instruction issues no earlier than a cycle. -/
def stallUntil {α : Type} (c : Nat) : Act α := throw (.wait c)
/-- The instruction has issued and waits until work of its thread completes; it looks again in every cycle. -/
def drain {α : Type} : Act α := throw .drain
/-- An exception. -/
def fault {α : Type} (e : Exc) : Act α := throw (.trap e)
/-- An open thread waits; a booked one raises OVRN, replayable (R26, R50). -/
def waitOpen {α : Type} (e : Exc) : Act α := do
  if (← get).th.st == .booked then fault { e with cause := causeOvrn, replay := true } else stall

/-- Single-step of a thread (R380). -/
def State.steps (s : State) (c t : Nat) : Bool :=
  bitOf (s.coreAt c).dbgctl.toNat (16 + t) && (s.ctxOf (s.coreAt c).ctx).dbg && !(s.thrAt c t).priv

/-- The instruction retires (R96, R379, R380, R383): the PC moves on, the next issue is due after the cost, the watch skip
ends, and a stepped thread raises STEP in the cycle in which its next instruction would issue. -/
def retire (d : Done) (s : State) : State :=
  s.modTh fun th =>
    { th with pc := d.pc.getD (th.pc + 1), next := s.cycle + d.cost, retired := th.retired + 1, wskip := none, since := none,
              stepDue := s.steps s.cc s.ct }

/-- The running thread tries again from a cycle on. -/
def waiting (c : Nat) (s : State) : State := s.modTh fun th => { th with next := max c (s.cycle + 1) }

/-- One instruction of the running thread: complete, waiting, or trapped with no other change of state (R14). -/
def runThread (body : Act Done) (s : State) : Host.Outcome State Fault Refusal :=
  match body.run s with
  | .ok (d, s') => .next (if d.held then s'.modTh fun th => { th with next := s.cycle + d.cost } else retire d s')
  | .error (.wait c) => .next (waiting c s)
  | .error .drain => .next ((waiting s.cycle s).modTh fun th => { th with since := some (th.since.getD s.cycle) })
  | .error (.trap e) => .next (takeTrap e s)

/-- What a meaning is: the device's next state, or the reason it stops. -/
abbrev Exec := State → Host.Outcome State Fault Refusal

/-- The predicate of a G or B format instruction (R60). -/
def Thread.pred (th : Thread) (q : Pred) : Bool :=
  if q.p = 0 then true else ((th.p[q.p.toNat]?).getD false) != q.neg

/-- A predicated-off instruction costs one cycle and does nothing (R61). -/
def predicated (q : Pred) (body : Act Done) : Act Done := do
  if (← get).th.pred q then body else done 1

end Sys2Proof.Machine
end

