-- ==== Sys2Proof/Machine/Operands.lean ====
section
/-! DEFINITION. Operand forms: the register a field names in either privilege state, the check of an instruction's operands
(interlock, WNACK, REMPTY, OVRN, waits), register reads and writes, stream aliases, shared resources, control registers'
neighbours of the scalar pipe, and the answers of long-latency producers (R48 to R53, R84, R109, R284, R285, R357). -/

namespace Sys2Proof.Machine

/-! ### Registers by field -/

/-- The general register a field names: hg1 to hg8 for 1 to 8 in privileged state (R357); g0 reads zero and full (R48). -/
def Thread.greg (th : Thread) (n : Nat) : Reg 64 :=
  if n = 0 then Reg.of 0
  else if th.priv && n ≤ 8 then (th.hg[n - 1]?).getD (Reg.of 0)
  else (th.g[n]?).getD (Reg.of 0)

/-- The general register a field names, replaced; g0 discards (R48). -/
def Thread.setGreg (th : Thread) (n : Nat) (r : Reg 64) : Thread :=
  if n = 0 then th
  else if th.priv && n ≤ 8 then { th with hg := th.hg.setIfInBounds (n - 1) r }
  else { th with g := th.g.setIfInBounds n r }

/-- The vector register of a number. -/
def Thread.vreg (th : Thread) (n : Nat) : Reg 512 := (th.v[n]?).getD (Reg.of 0)

/-- A vector register replaced. -/
def Thread.setVreg (th : Thread) (n : Nat) (r : Reg 512) : Thread := { th with v := th.v.setIfInBounds n r }

/-- Where a producer issued now writes the general register a field names (R49, R357). -/
def Thread.destOf (th : Thread) (n : Nat) : Dest :=
  if n = 0 then .none else if th.priv && n ≤ 8 then .hg (n - 1) else .g n

/-- ReadG (R84), the operand check done. -/
def State.readG (s : State) (n : GReg) : Word := (s.th.greg n.toNat).val

/-- WriteG (R84), readable after a latency (R5, R109). -/
def State.writeG (s : State) (n : GReg) (x : Word) (lat : Nat) : State :=
  s.modTh fun th => th.setGreg n.toNat ⟨x, .full, s.cycle + lat⟩

/-- ReadP (R84): p0 reads true. -/
def State.readP (s : State) (n : Nat) : Bool := if n = 0 then true else (s.th.p[n]?).getD false

/-- WriteP (R84): p0 ignores writes. -/
def State.writeP (s : State) (n : Nat) (b : Bool) : State :=
  if n = 0 then s else s.modTh fun th => { th with p := th.p.setIfInBounds n b }

/-! ### Answers of long-latency producers (R49, R53) -/

/-- The registers of a destination changed by what a producer or a refusal leaves in them, readable from a cycle on. -/
def Thread.setDest (th : Thread) (d : Dest) (st : RegSt) (x ready : Nat) : Thread :=
  match d with
  | .none => th
  | .g n => { th with g := th.g.setIfInBounds n ⟨BitVec.ofNat 64 x, st, ready⟩ }
  | .hg n => { th with hg := th.hg.setIfInBounds n ⟨BitVec.ofNat 64 x, st, ready⟩ }
  | .v n count => (List.range count).foldl (fun th i => th.setVreg (n + i) ⟨BitVec.ofNat 512 (x / 2 ^ (512 * i)), st, ready⟩) th

/-- The same but for the registers that a producer does not write (R284). -/
def Thread.setDestBut (th : Thread) (units : List (Nat × Option (Nat × Nat))) (d : Dest) (st : RegSt) (x ready : Nat) : Thread :=
  match d with
  | .v n count => (List.range count).foldl (fun th i =>
      if units.any (·.1 == n + i) then th else th.setVreg (n + i) ⟨BitVec.ofNat 512 (x / 2 ^ (512 * i)), st, ready⟩) th
  | d => th.setDest d st x ready

/-- MarkEmpty (R49, R84). -/
def State.markEmpty (s : State) (d : Dest) : State := s.modTh fun th => th.setDest d .empty 0 0

/-! ### The operand check -/

/-- An operand of an instruction: a general register read, with its trap-on-empty bit, or written; a group of vector registers
read or written. -/
inductive Use
  | rg (n : GReg) (e : Bool)
  | wg (n : GReg)
  | rv (n : VReg) (count : Nat)
  | wv (n : VReg) (count : Nat)
  deriving DecidableEq, Repr

/-- What the check sees of one register: its code in a record (R52), the effect that clears its poison, its trap-on-empty bit,
its state and its ready cycle. -/
structure OpReg where
  code : Nat
  clear : ExcEffect
  trapEmpty : Bool
  st : RegSt
  ready : Nat
  deriving DecidableEq, Repr

/-- The stream a thread has bound to a vector register, with its channel (R284). -/
def Core.aliasOf (k : Core) (t n : Nat) : Option (Nat × Stream) :=
  if n < 24 then none else k.engine.streams.find? fun p => p.2.thr == t && p.2.sreg + 24 == n

/-- A general register as the check sees it. -/
def Thread.opG (th : Thread) (n : Nat) (e : Bool) : List OpReg :=
  if n = 0 then []
  else
    let r := th.greg n
    [⟨n, if th.priv && n ≤ 8 then .clearHg (n - 1) else .clearG n, e, r.st, r.ready⟩]

/-- The members of a vector group as the check sees them; a bound alias has no full/empty bit (R49). -/
def Core.opV (k : Core) (t n count : Nat) : List OpReg :=
  ((List.range count).map (n + ·)).filterMap fun m =>
    if (k.aliasOf t m).isSome then none
    else let r := (k.thr t).vreg m; some ⟨32 + m, .clearV m, false, r.st, r.ready⟩

/-- The registers of an operand. -/
def Use.regs (k : Core) (t : Nat) : Use → List OpReg
  | .rg n e => (k.thr t).opG n.toNat e
  | .wg n => (k.thr t).opG n.toNat false
  | .rv n c => k.opV t n.toNat c
  | .wv n c => k.opV t n.toNat c

/-- WNACK on a poisoned register (R52, R306). -/
def OpReg.wnack (x : OpReg) : Option Stop :=
  match x.st with
  | .poisoned va reason target =>
    some (.trap { cause := causeWnack, addr := va, det0 := x.code, det1 := reason + target % 2 ^ 18 * 256, effect := x.clear })
  | _ => none

/-- Whether a destination covers a register code. -/
def destCovers (priv : Bool) (d : Dest) (code : Nat) : Bool :=
  match d with
  | .none => false
  | .g n => code == n && !(priv && n ≤ 8)
  | .hg n => priv && code == n + 1
  | .v n c => 32 + n ≤ code && code < 32 + n + c

/-- The bytes of an access that have not moved. -/
def VaultAcc.rest (a : VaultAcc) : Nat := a.segs.foldl (fun n g => n + (g.n - g.moved)) 0

/-- What OVRN records of an access with abandoned beats (R124, R179): the VA of the first abandoned byte, and its local address
and the number of 64-byte units abandoned. -/
def VaultAcc.lateWords (a : VaultAcc) : Nat × Nat :=
  let first := ((a.segs.find? fun g => g.moved < g.n).map fun g => g.off + g.moved).getD 0
  let tile := a.op == .tileLoad || a.op == .tileStore
  ((a.va + first) % 2 ^ 52, (if tile then localBase + a.lo + first else 0) + ceilDiv a.rest 64 * 2 ^ 52)

/-- OVRN on an empty register (R50, R219): the record of R179 where the value is an abandoned vault beat. -/
def Core.ovrnReg (k : Core) (t code : Nat) : Exc :=
  let th := k.thr t
  let late := (th.outs.find? fun o => destCovers th.priv o.dest code).bind fun o =>
    (k.vault.accs.find? fun a => a.by_ == .thread t && a.acc == o.id && a.abandoned).map VaultAcc.lateWords
  match late with
  | some (w0, w1) => { cause := causeOvrn, det0 := w0, det1 := w1, replay := true }
  | none => { cause := causeOvrn, det0 := code, replay := true }

/-! ### Shared resources (R27, R84, R185, R219) -/

/-- CheckBooked for a thread (R84): BOOKV with the resource and the task tick in booked mode; in open mode a wait for the next
tick, or none. -/
def State.resourceStop (s : State) (code tick : Nat) : Option Stop :=
  let k := s.me
  let th := s.th
  if th.st == .booked then
    if k.ownHolds th code tick then none
    else
      let b := k.booking (th.slot.getD 0)
      some (.trap { cause := causeBookv, det0 := code, det1 := (tick + b.k0 / 8 + 2 ^ 48 - b.start) % 2 ^ 48 })
  else if k.booked code tick then some (.wait (8 * (s.tick + 1)))
  else none

/-- The rank that marks a thread's use of a bank for the ring units of its instruction's operands. -/
def ringRank (t : Nat) : Nat := 8 + t

/-- Whether a scratchpad bank serves a thread in a cycle: in a tick that its booking holds or, open, that no booking holds, where no
earlier requester uses the bank in that cycle (R27, R185); a booked thread that would wait raises OVRN (R26). The ring units that the
instruction itself takes or appends do not stand in its own way (DESIGN CHOICE, log entry 73). -/
def State.bankStop (s : State) (bank cycle : Nat) : Option Stop :=
  match s.resourceStop (0x10 + bank) (cycle / 8) with
  | some st => some st
  | none =>
    if s.me.bankUses.any (fun u => u.bank == bank && u.cycle == cycle && u.rank != ringRank s.ct) then
      some (if s.th.st == .booked then .trap { cause := causeOvrn, replay := true } else .wait (s.cycle + 1))
    else none

/-- The first stop among uses of banks in cycles. -/
def State.banksStop (s : State) (uses : List (Nat × Nat)) : Option Stop :=
  uses.findSome? fun u => s.bankStop u.1 u.2

/-- Uses of banks recorded for a requester's rank; uses of past cycles are dropped. -/
def Core.useBanks (k : Core) (now rank : Nat) (uses : List (Nat × Nat)) : Core :=
  { k with bankUses := k.bankUses.filter (now ≤ ·.cycle) ++ uses.map fun u => ⟨u.1, u.2, rank⟩ }

/-- A stop, if there is one. -/
def orStop (o : Option Stop) : Act Unit :=
  match o with
  | some st => throw st
  | none => pure ()

/-- A value, or a stop. -/
def orRaise {α : Type} : Except Stop α → Act α
  | .ok x => pure x
  | .error e => throw e

/-- CheckBooked (R84). -/
def checkBooked (code tick : Nat) : Act Unit := do orStop ((← get).resourceStop code tick)

/-- Scratchpad banks checked and taken for the running thread. -/
def takeBanks (uses : List (Nat × Nat)) : Act Unit := do
  let s ← get
  orStop (s.banksStop uses)
  set (s.modMe fun k => k.useBanks s.cycle s.ct uses)

/-- An open-only instruction in booked mode raises BOOKV with detail word 0 bit 8 (R207). -/
def openOnly : Act Unit := do
  if (← get).th.st == .booked then fault { cause := causeBookv, det0 := 0x100 }

/-! ### Stream aliases (R284, R285, R287, R289) -/

/-- The VA of a unit (R286). -/
def Stream.unitVa (x : Stream) (u : Nat) : Nat :=
  let (i, _) := (x.cnt.zip x.str).foldl (fun (a : Int × Nat) p => (a.1 + (a.2 % p.1 : Nat) * p.2, a.2 / p.1)) ((x.base : Int), u)
  (i % 2 ^ 52).toNat

/-- The number of units of a pattern. -/
def Stream.units (x : Stream) : Nat := x.cnt.foldl (· * ·) 1

/-- The scratchpad offset of a unit's place in the ring. -/
def Stream.place (x : Stream) (u : Nat) : Nat := x.ring + 64 * (u % x.depth)

/-- Whether a take finds its unit, or an append its room, in a cycle (R285). -/
def Stream.served (x : Stream) (cycle : Nat) : Bool :=
  if x.write then x.taken < x.drained + x.depth
  else x.present.any fun p => p.1 == x.taken && p.2 < cycle

/-- The request cycle of a unit (R287). -/
def Stream.askedAt (x : Stream) (u : Nat) : Nat := ((x.requestAt.find? (·.1 == u)).map (·.2)).getD 0

/-- The detail words of the OVRN of a take or append that finds nothing (R285, R287). -/
def State.streamLate (s : State) (ch : Nat) (x : Stream) : Nat × Nat :=
  if x.elastic && !x.write then
    let a := x.askedAt x.taken + x.slip
    (ch + (if a ≤ s.cycle then 1 else 2) * 256, a)
  else
    let far := match s.translate s.cc s.me.ctx (x.unitVa x.taken) false false with
      | .offstack _ | .foreign _ => true
      | _ => false
    (ch + (if far && !x.write then 3 else 4) * 256, 0)

/-- A recorded failure as the exception of the instruction that meets it: under single-step it carries the PC of the `sbind` that
handed the stream to the engine, and the after-step flag (R380; DEDUCED, log entry 74). -/
def State.streamExc (s : State) (x : Stream) (e : Exc) : Exc :=
  if s.steps s.cc s.ct then { e with pc := some x.pc, after := true } else e

/-- The stop of one take (w false) or append (w true), if any: wrong direction, exhausted pattern, recorded failure, absence,
and the booked or open use of the channel and the ring unit's bank. -/
def State.streamStop (s : State) (w : Bool) (p : Nat × Stream) : Option Stop :=
  let (ch, x) := p
  if x.write != w then some (.trap { cause := causeEngine, det0 := 11, det1 := x.sreg })
  else if x.units ≤ x.taken then some (.trap { cause := causeEngine, det0 := 12 })
  else match x.failed.filter fun f => w || f.1 == x.taken with
    | some (u, cause) => some (.trap (s.streamExc x { cause := cause, addr := x.unitVa u, source := some 6 }))
    | none =>
      if x.served s.cycle then
        if s.th.st == .booked then (s.resourceStop (0x30 + ch) s.tick).or (s.bankStop (bankOf (x.place x.taken)) s.cycle)
        else s.bankStop (bankOf (x.place x.taken)) s.cycle
      else if s.th.st == .booked then
        let (w0, w1) := s.streamLate ch x
        some (.trap { cause := causeOvrn, det0 := w0, det1 := w1, replay := true })
      else some (.wait (s.cycle + 1))

/-- The bound streams that an instruction takes from (false) or appends to (true): one of each however many positions name it
(R284). -/
def State.streamUses (s : State) (us : List Use) : List (Bool × Nat × Stream) :=
  let members (w : Bool) (n : VReg) (c : Nat) :=
    ((List.range c).map (n.toNat + ·)).filterMap fun m => (s.me.aliasOf s.ct m).map fun p => (w, p)
  (us.flatMap fun u => match u with
    | .rv n c => members false n c
    | .wv n c => members true n c
    | _ => []).eraseDups

/-- The first stop of an instruction's operands, if any: the interlock (R109), WNACK (R52), the stream faults (R284), REMPTY
(R50, R62), an empty register (R50, R51), and the streams' units (R285). -/
def State.operandStop (s : State) (us : List Use) : Option Stop :=
  let rs := us.flatMap (·.regs s.me s.ct)
  let ready := rs.foldl (fun m r => max m r.ready) 0
  if s.cycle < ready then some (.wait ready)
  else (rs.findSome? OpReg.wnack).or
    (if rs.any fun r => r.trapEmpty && r.st == .empty then some (.trap { cause := causeRempty })
    else match rs.find? (·.st == .empty) with
      | some r => if s.th.st == .booked then some (.trap (s.me.ovrnReg s.ct r.code)) else some (.wait (s.cycle + 1))
      | none => (s.streamUses us).findSome? fun x => s.streamStop x.1 x.2)

/-- The channel table with one stream changed. -/
def Core.modStream (k : Core) (ch : Nat) (f : Stream → Stream) : Core :=
  { k with engine := { k.engine with streams := k.engine.streams.map fun p => if p.1 == ch then (p.1, f p.2) else p } }

/-- One unit taken from a read stream: the position moves, and an elastic stream requests the unit that its place frees (R287). -/
def Stream.take (x : Stream) (now : Nat) : Stream :=
  { x with
    taken := x.taken + 1
    present := x.present.filter (·.1 != x.taken)
    requestAt := if x.elastic then x.requestAt.filter (·.1 != x.taken) ++ [(x.taken + x.depth, now)] else x.requestAt }

/-- The next unit of a write stream appended: it stands in the ring from now on, to be drained in its turn (R284, R286). -/
def Stream.append (x : Stream) (now : Nat) : Stream :=
  { x with taken := x.taken + 1, present := x.present ++ [(x.taken, now)] }

/-- A place kept for the next unit of a write stream, whose data a long-latency producer will bring (R284; DEDUCED, log entry 73). -/
def Stream.reserve (x : Stream) : Stream := { x with taken := x.taken + 1 }

/-- The units that a long-latency producer with a destination appends: a place kept on each bound member, in ascending order
(R284). -/
def State.reserve (s : State) : Dest → State × List (Nat × Option (Nat × Nat))
  | .v n count => (List.range count).foldl (fun (a : State × List (Nat × Option (Nat × Nat))) i =>
      match a.1.me.aliasOf a.1.ct (n + i) with
      | some (ch, x) => (a.1.modMe (·.modStream ch Stream.reserve), a.2 ++ [(n + i, some (x.uid, x.taken))])
      | none => a) (s, [])
  | _ => (s, [])

/-- MarkEmpty of a destination but for the members bound to streams (R49). -/
def State.markEmptyBut (s : State) (units : List (Nat × Option (Nat × Nat))) (d : Dest) : State :=
  s.modTh fun th => th.setDestBut units d .empty 0 0

/-- The takes of an instruction performed, and the banks of its takes and appends used. -/
def State.takeStreams (s : State) (us : List Use) : State :=
  (s.streamUses us).foldl (fun s (w, ch, x) =>
    s.modMe fun k =>
      let k := k.useBanks s.cycle (ringRank s.ct) [(bankOf (x.place x.taken), s.cycle)]
      if w then k else k.modStream ch (·.take s.cycle)) s

/-- The operand check of an instruction; answers the state in which its operands are read. -/
def operands (us : List Use) : Act State := do
  let s ← get
  orStop (s.operandStop us)
  set (s.takeStreams us)
  pure s

/-- The operand check of an open-only instruction: in booked mode BOOKV comes after WNACK and before every other check of the
operands (R207, R278, R294). -/
def operandsOpenOnly (us : List Use) : Act State := do
  let s ← get
  if s.th.st == .booked then
    let rs := us.flatMap (·.regs s.me s.ct)
    let ready := rs.foldl (fun m r => max m r.ready) 0
    if s.cycle < ready then stallUntil ready
    orStop (rs.findSome? OpReg.wnack)
    openOnly
  operands us

/-- ReadV (R84): a group as one number, the lowest register lowest; a bound alias reads the ring's head unit (R284). -/
def State.readV (s : State) (n : VReg) (count : Nat) : Nat :=
  let one (m : Nat) : Nat := match s.me.aliasOf s.ct m with
    | some (_, x) => s.me.sramRead (x.place x.taken) 64
    | none => (s.th.vreg m).val.toNat
  (List.range count).foldl (fun a i => a + one (n.toNat + i) * 2 ^ (512 * i)) 0

/-- One register of a WriteV (R84): the register, or one unit appended to the stream bound to it (R284). -/
def State.writeV1 (s : State) (m x lat : Nat) : State :=
  match s.me.aliasOf s.ct m with
  | some (ch, w) => s.modMe fun k => (k.sramWrite (w.place w.taken) 64 (x % 2 ^ 512)).modStream ch (·.append s.cycle)
  | none => s.modTh fun th => th.setVreg m ⟨BitVec.ofNat 512 x, .full, s.cycle + lat⟩

/-- WriteV (R84). -/
def State.writeV (s : State) (n : VReg) (count x lat : Nat) : State :=
  (List.range count).foldl (fun s i => s.writeV1 (n.toNat + i) (x / 2 ^ (512 * i)) lat) s

/-! ### Bodies over operands -/

/-- A state change as part of a body. -/
def change (f : State → State) : Act Unit := do set (f (← get))

/-- A body that reads g registers, computes, and writes one: the shape of the scalar instructions. -/
def scalarOp (us : List Use) (d : GReg) (f : State → Word) (lat cost : Nat) : Act Done := do
  let s ← operands (us ++ [.wg d])
  change fun s' => s'.writeG d (f s) lat
  done cost

/-! ### Records of poisoned registers and refusals (R52, R306) -/

/-- The register of a number that the thread's privilege state hides: a user one of g1 to g8, or a handler register (R357). -/
def Thread.opHidden (th : Thread) (n : Nat) : List OpReg :=
  if n = 0 || 8 < n then []
  else if th.priv then let r := (th.g[n]?).getD (Reg.of 0); [⟨n, .clearG n, false, r.st, r.ready⟩]
  else let r := (th.hg[n - 1]?).getD (Reg.of 0); [⟨n, .clearHg (n - 1), false, r.st, r.ready⟩]

/-- Every register of a thread in the order in which `fence`, `sstep` and `halt` name poisoned ones: by number, of two with one number
the one that the privilege state shows first (R52; DEDUCED, log entry 75). -/
def Thread.allRegs (th : Thread) : List OpReg :=
  ((List.range 32).flatMap fun n => th.opG n false ++ th.opHidden n) ++
    (List.range 32).map fun m => let r := th.vreg m; ⟨32 + m, .clearV m, false, r.st, r.ready⟩

/-! ### Operations on local SRAM over several issue cycles (R153, R159, R270) -/

/-- The issue cycles of an operation from its bank uses and its parts, each with its cycle counted from the issue. -/
def workCycles (n : Nat) (uses : List (Nat × Nat)) (parts : List (Nat × Nat × Nat × Nat)) : List WorkCycle :=
  (List.range n).map fun i =>
    ⟨(uses.filter (·.2 == i)).map (·.1), parts.filterMap fun p => if p.1 == i then some p.2 else none⟩

/-- What the banks of an operation raise or wait for before its first cycle: booked, the tick of every use; open, the first cycle's
banks, the later ones being waited for in their turn (R27). -/
def State.workStop (s : State) (cs : List WorkCycle) : Option Stop :=
  s.banksStop ((if s.th.st == .booked then cs else cs.take 1).zipIdx.flatMap fun (c, i) => c.banks.map fun b => (b, s.cycle + i))

/-- The parts of one cycle moved. -/
def LocalWork.move (k : Core) (w : LocalWork) (ps : List (Nat × Nat × Nat)) : Core × LocalWork :=
  ps.foldl (fun (a : Core × LocalWork) (off, at_, n) =>
    if w.store then (a.1.sramWrite off n (w.data / 2 ^ (8 * at_) % 2 ^ (8 * n)), a.2)
    else (a.1, { a.2 with data := a.2.data + a.1.sramRead off n * 2 ^ (8 * at_) })) (k, w)

/-- The next cycle of an operation performed, its banks used. -/
def State.workCycle (s : State) (w : LocalWork) : State × LocalWork :=
  match w.left with
  | [] => (s, w)
  | c :: rest =>
    let (k, w) := w.move (s.me.useBanks s.cycle s.ct (c.banks.map fun b => (b, s.cycle))) c.parts
    (s.modMe fun _ => k, { w with left := rest, due := s.cycle + 1 })

/-- The registers that an operation will write, with the cycle from which they may be read (R109). -/
def Thread.holdRegs (th : Thread) (fin : WorkEnd) (ready : Nat) : Thread :=
  match fin with
  | .loaded n count | .decoded _ _ _ _ n count =>
    (List.range count).foldl (fun th i => th.setVreg (n + i) { th.vreg (n + i) with ready := ready }) th
  | _ => th

/-- An operation begun in its issue cycle: its first cycle is performed at once; with more to come the thread goes on with it in the
next ones, and its bookings' later uses are claimed. -/
def State.beginWork (s : State) (w : LocalWork) (finish : LocalWork → State → State) : State :=
  let later := if s.th.st == .booked then (w.left.drop 1).zipIdx.flatMap fun (c, i) => c.banks.map fun b => (b, s.cycle + 1 + i) else []
  let (s, w) := s.workCycle w
  if w.left.isEmpty then finish w s
  else (s.modMe fun k => k.useBanks s.cycle s.ct later).modTh fun th => { th.holdRegs w.fin w.ready with work := some w }

/-- A group of registers loaded by an operation. -/
def State.workLoaded (n count : Nat) (w : LocalWork) (s : State) : State := s.writeV (BitVec.ofNat 5 n) count w.data (w.ready - s.cycle)

/-- WNACK of the lowest poisoned register, if any (R52). -/
def Thread.poisonStop (th : Thread) : Option Stop := th.allRegs.findSome? OpReg.wnack

/-- The oldest refusal of the thread's queue, raised by `fence` and `sstep` (R306). -/
def Thread.refusalStop (th : Thread) : Option Stop :=
  match th.refusals with
  | [] => none
  | r :: _ => some (.trap { cause := if r.overflow then causeMsgovf else causeWnack, addr := r.addr, det0 := r.det0, det1 := r.det1, effect := .popRefusal })

end Sys2Proof.Machine
end

