-- ==== Sys2Proof/Machine/Flags.lean ====
section
/-! DEFINITION. Floating formats, exact values, the Round functions and the FPSR flags they set (R86 to R96), and the lane
functions of the float and integer types that the vector, conversion, matrix and stream classes share. -/

namespace Sys2Proof.Machine

/-! ### FPSR flags (Table 3.3) -/

/-- Invalid, FPSR[4]. -/
def flagNV : Nat := 0x10
/-- Divide by zero, FPSR[5]. -/
def flagDZ : Nat := 0x20
/-- Overflow, FPSR[6]. -/
def flagOF : Nat := 0x40
/-- Underflow, FPSR[7]. -/
def flagUF : Nat := 0x80
/-- Inexact, FPSR[8]. -/
def flagNX : Nat := 0x100

/-- Flags ORed into FPSR at retirement (R96). -/
def State.setFlags (s : State) (f : Nat) : State := s.modTh fun th => { th with fpsr := th.fpsr ||| BitVec.ofNat 64 f }

/-- The four rounding modes of R90. -/
inductive Rnd | rne | rtz | rdn | rup
  deriving DecidableEq, Repr

/-- A mode's code (R90). -/
def rndOf (n : Nat) : Rnd := if n % 4 = 0 then .rne else if n % 4 = 1 then .rtz else if n % 4 = 2 then .rdn else .rup

/-- FPSR[1:0] (R94). -/
def State.rm (s : State) : Rnd := rndOf s.th.fpsr.toNat

/-! ### Exact values -/

/-- The value an encoding stands for: a NaN, signalling or quiet; an infinity; or the sign and the magnitude m × 2^e. -/
inductive FVal
  | nan (signalling : Bool)
  | inf (neg : Bool)
  | fin (neg : Bool) (m : Nat) (e : Int)
  deriving DecidableEq, Repr

/-- A magnitude that is m × 2^e, or, where more is set, strictly between that and (m + 1) × 2^e. -/
structure Mag where
  m : Nat
  e : Int
  more : Bool
  deriving DecidableEq, Repr

/-- Parameters of a floating format (Table 3.2): exponent bits, fraction bits, bias, whether it has infinities, the largest
finite encoding and the default NaN. -/
structure FFmt where
  eb : Nat
  fb : Nat
  bias : Nat
  infs : Bool
  maxFin : Nat
  nan : Nat
  deriving DecidableEq, Repr

end Sys2Proof.Machine

namespace Sys2Proof
open Machine

/-- Table 3.2; types that are not floating read as f32. -/
def ElemTy.ffmt : ElemTy → FFmt
  | .f16 => ⟨5, 10, 15, true, 0x7BFF, 0x7E00⟩
  | .bf16 => ⟨8, 7, 127, true, 0x7F7F, 0x7FC0⟩
  | .e4m3 => ⟨4, 3, 7, false, 0x7E, 0x7F⟩
  | .e5m2 => ⟨5, 2, 15, true, 0x7B, 0x7E⟩
  | _ => ⟨8, 23, 127, true, 0x7F7FFFFF, 0x7FC00000⟩

end Sys2Proof

namespace Sys2Proof.Machine

/-- Bits of an encoding. -/
def FFmt.bits (f : FFmt) : Nat := f.eb + f.fb + 1
/-- The weight of the sign bit. -/
def FFmt.sign (f : FFmt) : Nat := 2 ^ (f.eb + f.fb)
/-- The exponent of the smallest subnormal. -/
def FFmt.unit (f : FFmt) : Int := 1 - f.bias - f.fb
/-- The infinity's encoding, sign 0. -/
def FFmt.inf (f : FFmt) : Nat := (2 ^ f.eb - 1) * 2 ^ f.fb

/-- The value of an encoding (R86, R87). -/
def FFmt.value (f : FFmt) (x : Nat) : FVal :=
  let neg := bitOf x (f.eb + f.fb)
  let E := x / 2 ^ f.fb % 2 ^ f.eb
  let F := x % 2 ^ f.fb
  if f.infs && E == 2 ^ f.eb - 1 then
    if F = 0 then .inf neg else .nan (F < 2 ^ (f.fb - 1))
  else if !f.infs && x % f.sign == f.nan then .nan false
  else if E = 0 then .fin neg F f.unit
  else .fin neg (2 ^ f.fb + F) (f.unit + (E - 1 : Nat))

/-- The magnitude of an encoding without sign, in units of the smallest subnormal. -/
def FFmt.units (f : FFmt) (x : Nat) : Nat :=
  let E := x / 2 ^ f.fb
  if E = 0 then x else (2 ^ f.fb + x % 2 ^ f.fb) * 2 ^ (E - 1)

/-- The encoding without sign of a number of units of the smallest subnormal that the format represents. -/
def FFmt.code (f : FFmt) (u : Nat) : Nat :=
  if u < 2 ^ f.fb then u
  else let l := u.log2; (l - f.fb + 1) * 2 ^ f.fb + (u / 2 ^ (l - f.fb) - 2 ^ f.fb)

/-! ### Rounding (R90 to R93) -/

/-- A magnitude rounded to a multiple of 2^q (R90): the multiple, and whether it differs from the magnitude. -/
def Mag.roundAt (x : Mag) (neg : Bool) (mode : Rnd) (q : Int) : Nat × Bool :=
  if q ≤ x.e then
    let n := x.m * 2 ^ (x.e - q).toNat
    let up := x.more && ((mode == .rup && !neg) || (mode == .rdn && neg))
    (if up then n + 1 else n, x.more)
  else
    let sh := (q - x.e).toNat
    let n := x.m / 2 ^ sh
    let r := x.m % 2 ^ sh
    let half := 2 ^ (sh - 1)
    let inexact := r != 0 || x.more
    let up := match mode with
      | .rne => r > half || (r == half && (x.more || n % 2 == 1))
      | .rtz => false
      | .rdn => neg && inexact
      | .rup => !neg && inexact
    (if up then n + 1 else n, inexact)

/-- The result of an overflow (R91). -/
def FFmt.overflow (f : FFmt) (neg : Bool) (mode : Rnd) (sat : Bool) : Nat :=
  let big := match mode with
    | .rne => false
    | .rtz => true
    | .rdn => !neg
    | .rup => neg
  let sgn := if neg then f.sign else 0
  if big || sat then sgn + f.maxFin
  else if f.infs then sgn + f.inf else f.nan

/-- A Round function on a magnitude with a sign: the encoding and the flags (R90 to R92). -/
def FFmt.round (f : FFmt) (mode : Rnd) (sat neg : Bool) (x : Mag) : Nat × Nat :=
  let sgn := if neg then f.sign else 0
  if x.m = 0 && !x.more then (sgn, 0)
  else
    let lead : Int := x.e + x.m.log2
    let qf := lead - f.fb
    let q := max qf f.unit
    let (n, inexact) := x.roundAt neg mode q
    let u := n * 2 ^ (q - f.unit).toNat
    if f.units f.maxFin < u then (f.overflow neg mode sat, flagOF + flagNX)
    else
      let tiny := qf < f.unit && (x.roundAt neg mode qf).1 < 2 ^ (f.unit + f.fb - qf).toNat
      (sgn + f.code u, if inexact then (if tiny then flagUF + flagNX else flagNX) else 0)

/-- A Round function on a value (R90 to R93). -/
def FFmt.roundVal (f : FFmt) (mode : Rnd) (sat : Bool) : FVal → Nat × Nat
  | .nan sig => (f.nan, if sig then flagNV else 0)
  | .inf neg =>
    let sgn := if neg then f.sign else 0
    if f.infs then (sgn + f.inf, 0) else (if sat then sgn + f.maxFin else f.nan, flagNV)
  | .fin neg m e => f.round mode sat neg ⟨m, e, false⟩

/-- An exact real, as sign and magnitude, rounded to an integer (RoundInt of R106, R105, R137). -/
def roundInt (mode : Rnd) (neg : Bool) (x : Mag) : Int × Bool :=
  let (n, inexact) := x.roundAt neg mode 0
  (if neg then -(n : Int) else n, inexact)

/-- The quotient of two naturals as a magnitude of at least p bits, for a nonzero divisor. -/
def divMag (a b p : Nat) (e : Int) : Mag :=
  let sh := p + b.log2 + 1 - a.log2
  ⟨a * 2 ^ sh / b, e - sh, a * 2 ^ sh % b != 0⟩

/-! ### Exact arithmetic on values -/

/-- A finite value as an integer multiple of 2^e0, for e0 not above its exponent. -/
def scaled (neg : Bool) (m : Nat) (e e0 : Int) : Int :=
  let n : Int := m * 2 ^ (e - e0).toNat
  if neg then -n else n

/-- The sign-inverted value. -/
def FVal.neg : FVal → FVal
  | .nan s => .nan s
  | .inf b => .inf !b
  | .fin b m e => .fin (!b) m e

/-- Whether a value is a NaN. -/
def FVal.isNan : FVal → Bool
  | .nan _ => true
  | _ => false

/-- Whether a value is a signalling NaN. -/
def FVal.isSig : FVal → Bool
  | .nan s => s
  | _ => false

/-- The exact sum of two numbers, its zero signed as R138 gives; none for ∞ − ∞. -/
def FVal.add (mode : Rnd) : FVal → FVal → Option FVal
  | .inf a, .inf b => if a = b then some (.inf a) else none
  | .inf a, _ => some (.inf a)
  | _, .inf b => some (.inf b)
  | .fin a m e, .fin b n g =>
    let e0 := min e g
    let t := scaled a m e e0 + scaled b n g e0
    if t = 0 then some (.fin (if m = 0 && n = 0 && a == b then a else mode == .rdn) 0 0)
    else some (.fin (t < 0) t.natAbs e0)
  | x, _ => some x

/-- The exact product of two numbers; none for 0 × ∞. -/
def FVal.mul : FVal → FVal → Option FVal
  | .inf a, .inf b => some (.inf (a != b))
  | .inf a, .fin b n _ => if n = 0 then none else some (.inf (a != b))
  | .fin a m _, .inf b => if m = 0 then none else some (.inf (a != b))
  | .fin a m e, .fin b n g => some (.fin (a != b) (m * n) (e + g))
  | x, _ => some x

/-- The order of two numbers as an integer sign: −1, 0 or 1; zeros of either sign are equal (R139). -/
def FVal.cmp : FVal → FVal → Int
  | .inf a, .inf b => if a = b then 0 else if a then -1 else 1
  | .inf a, _ => if a then -1 else 1
  | _, .inf b => if b then 1 else -1
  | .fin a m e, .fin b n g =>
    let e0 := min e g
    (scaled a m e e0 - scaled b n g e0).sign
  | _, _ => 0

/-- The invalid flag where a value is a signalling NaN. -/
def sigFlag (xs : List FVal) : Nat := if xs.any FVal.isSig then flagNV else 0

/-- Round of a sum, with the rules of R138 for NaNs and ∞ − ∞. -/
def FFmt.addR (f : FFmt) (mode : Rnd) (x y : FVal) : Nat × Nat :=
  if x.isNan || y.isNan then (f.nan, sigFlag [x, y])
  else match x.add mode y with
    | some z => f.roundVal mode false z
    | none => (f.nan, flagNV)

/-- Round of a product (R138). -/
def FFmt.mulR (f : FFmt) (mode : Rnd) (x y : FVal) : Nat × Nat :=
  if x.isNan || y.isNan then (f.nan, sigFlag [x, y])
  else match x.mul y with
    | some z => f.roundVal mode false z
    | none => (f.nan, flagNV)

/-- Round of a × b + d, rounded once; 0 × ∞ sets invalid whatever d is (R138). -/
def FFmt.fmaR (f : FFmt) (mode : Rnd) (x y d : FVal) : Nat × Nat :=
  if x.isNan || y.isNan then (f.nan, sigFlag [x, y, d])
  else match x.mul y with
    | none => (f.nan, flagNV)
    | some p => if d.isNan then (f.nan, sigFlag [d]) else f.addR mode p d

/-! ### Minimum, maximum and comparison (R139, R140) -/

/-- Whether a comes before b in the order of R140, where −0 is below +0. -/
def FVal.below (a b : FVal) : Bool :=
  if a.cmp b != 0 then a.cmp b < 0
  else match a, b with
    | .fin x 0 _, .fin y 0 _ => x && !y
    | _, _ => false

/-- Table 5.4: low chooses the smaller; number is minimumNumber and maximumNumber. The operand returned is unchanged. -/
def FFmt.minmax (f : FFmt) (low number : Bool) (a b : Nat) : Nat × Nat :=
  let x := f.value a
  let y := f.value b
  let fl := sigFlag [x, y]
  match x.isNan, y.isNan with
  | true, true => (f.nan, fl)
  | true, false => if number then (b, fl) else (f.nan, fl)
  | false, true => if number then (a, fl) else (f.nan, fl)
  | false, false => if (if low then y.below x else x.below y) then (b, 0) else (a, 0)

/-- The comparisons of R139 on encodings. -/
inductive FRel | eq | lt | le | un
  deriving DecidableEq, Repr

/-- Whether a comparison holds, and its invalid flag (R139). -/
def FFmt.compare (f : FFmt) (r : FRel) (a b : Nat) : Bool × Nat :=
  let x := f.value a
  let y := f.value b
  let nan := x.isNan || y.isNan
  match r with
  | .eq => (!nan && x.cmp y == 0, sigFlag [x, y])
  | .un => (nan, sigFlag [x, y])
  | .lt => (!nan && x.cmp y < 0, if nan then flagNV else 0)
  | .le => (!nan && x.cmp y ≤ 0, if nan then flagNV else 0)

/-! ### Lanes -/

/-- Bits [w(i+1)−1 : wi] of an operand (R9, R133). -/
def laneOf (x w i : Nat) : Nat := x / 2 ^ (w * i) % 2 ^ w

/-- n lanes of w bits, each with flags: the operand and the flags ORed together. -/
def mapLanes (w n : Nat) (f : Nat → Nat × Nat) : Nat × Nat :=
  (List.range n).foldl (fun a i => let r := f i; (a.1 + r.1 % 2 ^ w * 2 ^ (w * i), a.2 ||| r.2)) (0, 0)

/-- All ones across w bits, or 0. -/
def maskIf (w : Nat) (b : Bool) : Nat := if b then 2 ^ w - 1 else 0

end Sys2Proof.Machine

namespace Sys2Proof
open Machine

/-- A lane read as its integer type gives (R85, R142). -/
def ElemTy.int (t : ElemTy) (x : Nat) : Int := if t.isSigned then signedOf t.bits x else ((x % 2 ^ t.bits : Nat) : Int)

/-- The least value of an integer type (Table 3.1). -/
def ElemTy.lo (t : ElemTy) : Int := if t.isSigned then -(2 ^ (t.bits - 1) : Nat) else 0
/-- The greatest value of an integer type (Table 3.1). -/
def ElemTy.hi (t : ElemTy) : Int := if t.isSigned then (2 ^ (t.bits - 1) : Nat) - 1 else (2 ^ t.bits : Nat) - 1

/-- A value clamped to the range of an integer type. -/
def ElemTy.clamp (t : ElemTy) (x : Int) : Int := min (max x t.lo) t.hi

end Sys2Proof

namespace Sys2Proof.Machine

/-! ### Element conversion (Table 3.9) -/

/-- An integer's exact value. -/
def FVal.ofInt (i : Int) : FVal := .fin (i < 0) i.natAbs 0

end Sys2Proof.Machine

namespace Sys2Proof
open Machine

/-- The integer indefinite (R105). -/
def ElemTy.indefinite (t : ElemTy) : Int := if t.isSigned then t.lo else 0

end Sys2Proof

namespace Sys2Proof.Machine

/-- Cvt (R105): one element from type ts to type td. -/
def cvtElem (ts td : ElemTy) (sat : Bool) (mode : Rnd) (x : Nat) : Nat × Nat :=
  if ts.isInt then
    if td.isInt then (cutTo td.bits (if sat then td.clamp (ts.int x) else ts.int x), 0)
    else td.ffmt.roundVal mode sat (.ofInt (ts.int x))
  else
    let v := ts.ffmt.value x
    if td.isInt then
      match v with
      | .nan _ => (cutTo td.bits (if sat then 0 else td.indefinite), flagNV)
      | .inf neg => (cutTo td.bits (if sat then (if neg then td.lo else td.hi) else td.indefinite), flagNV)
      | .fin neg m e =>
        let (i, inexact) := roundInt mode neg ⟨m, e, false⟩
        if i < td.lo || td.hi < i then
          (cutTo td.bits (if sat then td.clamp i else td.indefinite), flagNV)
        else (cutTo td.bits i, if inexact then flagNX else 0)
    else td.ffmt.roundVal mode sat v

/-! ### Group records (R97, R98) -/

/-- The bytes of a record of G elements (Table 3.4). -/
def recordBytes (q4 : Bool) (G : Nat) : Nat := (if q4 then G / 2 else G) + 4

/-- Code i of a record. -/
def recordCode (q4 : Bool) (r i : Nat) : Nat := if q4 then laneOf r 4 i else laneOf r 8 i

/-- The exact value of element i of a record of G elements; none where the record is ill-formed (R98). -/
def recordValue (q4 : Bool) (G r i : Nat) : Option FVal :=
  let base := (if q4 then G / 2 else G) * 8
  let sc := r / 2 ^ base % 2 ^ 16
  let zp := r / 2 ^ (base + 16) % 256
  let pad := r / 2 ^ (base + 24) % 256
  match ElemTy.f16.ffmt.value sc with
  | .fin neg m e =>
    if pad != 0 || (q4 && 15 < zp) then none
    else
      let d : Int := (recordCode q4 r i : Int) - zp
      if d = 0 then some (.fin false 0 0) else some (.fin ((d < 0) != neg) (d.natAbs * m) e)
  | _ => none

end Sys2Proof.Machine
end

