-- ==== Sys2Proof/Machine/VaultCtl.lean ====
section
/-! DEFINITION. The vault controller's operations: windows, row state and ready cycles, the row guard, eligible beats, booked
nominal schedules, errors, and the access counters (R160 to R181, R190). -/

namespace Sys2Proof.Machine

/-! ### Addresses and ticks (R160, R29) -/

/-- The bank of a vault physical address (R160). -/
def vbank (pa : Nat) : Nat := bitsOf pa 17 13
/-- The row of a vault physical address (R160). -/
def vrow (pa : Nat) : Nat := bitsOf pa 30 18
/-- Whether a tick is the agent's (R29). -/
def agentTick (tick : Nat) : Bool := tick % 8 == 7
/-- The Almanac code of a vault bank (R199). -/
def codeBank (b : Nat) : Nat := 0x40 + b
/-- The Almanac code of the vault port (R199). -/
def codePort : Nat := 0x03

/-! ### Refresh and lane-repair windows (R167 to R174) -/

/-- φ of a core (R167). -/
def phi (core : Nat) : Nat := 16 * (core % 25)

/-- The cycle after the normal refresh window that covers a bank in a cycle, if one does (R167). -/
def normalWindow (core bank cycle : Nat) : Option Nat :=
  if cycle < phi core then none
  else
    let k := (cycle - phi core) / 400
    if (cycle - phi core) % 400 < 112 && k % 32 == bank then some (400 * k + phi core + 112) else none

/-- The cycle after a window that covers a bank in a cycle: normal refresh, lane repair, and, unless only the windows known to a
nominal schedule count (R179), an extra refresh. In retention the schedule of R167 is suspended; it resumes with the next window that
begins (R171). -/
def Vault.windowEnd (v : Vault) (core bank cycle : Nat) (known : Bool) : Option Nat :=
  (if v.power == .retention then none else (normalWindow core bank cycle).filter fun e => v.powerAt + 112 ≤ e).or
    ((v.windows.find? fun w => (w.bank == none || (w.bank == some bank && !known)) && w.first ≤ cycle && cycle ≤ w.last).map (·.last + 1))

/-- The end of a window that 14 cycles of a row operation from a cycle on would overlap (R164). -/
def Vault.clash (v : Vault) (core bank start : Nat) (known : Bool) : Option Nat :=
  (List.range 14).findSome? fun i => v.windowEnd core bank (start + i) known

/-- Whether a lane-repair window covers a cycle. -/
def Vault.laneWindow (v : Vault) (cycle : Nat) : Bool := v.windows.any fun w => w.bank == none && w.first ≤ cycle && cycle ≤ w.last

/-! ### Row state (R163, R164) -/

/-- The bank of a number. -/
def Vault.bank (v : Vault) (b : Nat) : Bank := (v.banks[b]?).getD Bank.reset

/-- A bank replaced. -/
def Vault.setBank (v : Vault) (b : Nat) (x : Bank) : Vault := { v with banks := v.banks.setIfInBounds b x }

/-- The bank of a number, without the operations that have ended. -/
def Vault.bankAt (v : Vault) (b now : Nat) : Bank := let x := v.bank b; { x with ops := x.ops.filter fun o => now < o.fin }

/-- The cycle in which the bank's last row operation ends. -/
def Bank.busyEnd (b : Bank) : Nat := (b.ops.getLast?.map (·.fin)).getD 0

/-- The first cycle from c on in which a row operation of a bank meets no window (R164). -/
def Vault.opStart (v : Vault) (core bank : Nat) (known : Bool) : Nat → Nat → Nat
  | 0, c => c
  | fuel + 1, c =>
    match v.clash core bank c known with
    | some e => v.opStart core bank known fuel e
    | none => c

/-- A row's activation, from a cycle on: the cycle in which it ends and the bank's new state. -/
def Vault.activate (v : Vault) (core bank row : Nat) (known : Bool) (c : Nat) (b : Bank) : Nat × Bank :=
  let a := v.opStart core bank known 64 c
  (a + 14, { row := some row, actAt := a, ops := b.ops ++ [⟨a, a + 14, none, some row⟩] })

/-- A bank with its open row's precharge from a cycle on. -/
def Bank.close (b : Bank) (p : Nat) : Bank := { row := none, actAt := 0, ops := b.ops ++ [⟨p, p + 14, b.row, none⟩] }

/-- A row made ready from a cycle on: rdy of R164 and the bank's new state. -/
def Vault.prepare (v : Vault) (core bank row : Nat) (known : Bool) : Nat → Nat → Bank → Nat × Bank
  | 0, c, b => (c, b)
  | fuel + 1, c, b =>
    if c < b.busyEnd then
      if b.row == some row then (b.busyEnd, b) else v.prepare core bank row known fuel b.busyEnd b
    else match v.windowEnd core bank c known with
      | some e => v.prepare core bank row known fuel e b
      | none =>
        match b.row with
        | none => v.activate core bank row known c b
        | some q =>
          if q = row then (c, b)
          else
            let p := max c (b.actAt + 30)
            match v.clash core bank p known with
            | some e => v.prepare core bank row known fuel e b
            | none => v.activate core bank row known (p + 14) (b.close p)

/-- The bank precharged as `rowpre` asks (R181): the cycle in which the operation ends and its new state. -/
def Vault.precharge (v : Vault) (core bank : Nat) : Nat → Nat → Bank → Nat × Bank
  | 0, c, b => (c, b)
  | fuel + 1, c, b =>
    match b.row with
    | none => (max c b.busyEnd, b)
    | some _ =>
      let p := max (max c b.busyEnd) (b.actAt + 30)
      match (v.windowEnd core bank p false).or (v.clash core bank p false) with
      | some e => v.precharge core bank fuel e b
      | none => (p + 14, b.close p)

/-- A window entered on the calendar; those that have ended leave it. -/
def Vault.enter (v : Vault) (now : Nat) (w : Window) : Vault := { v with windows := v.windows.filter (now ≤ ·.last) ++ [w] }

/-- The next step of a bank towards a row in a cycle (R164): the cycle in which the row is ready, once it is found open or its activation
has started; and the bank, with a precharge or an activation started now where none is under way, its 14 cycles meet no window, tRAS has
passed and the requester may change the bank's row. -/
def Vault.rowStep (v : Vault) (core bank row now : Nat) (mayMove : Bool) : Option Nat × Bank :=
  let b := v.bankAt bank now
  if now < b.busyEnd then (if b.row == some row then some b.busyEnd else none, b)
  else if b.row == some row then (if (v.windowEnd core bank now false).isSome then none else some now, b)
  else if !mayMove || (v.clash core bank now false).isSome then (none, b)
  else match b.row with
    | none => (some (now + 14), { row := some row, actAt := now, ops := b.ops ++ [⟨now, now + 14, none, some row⟩] })
    | some _ => (none, if now < b.actAt + 30 then b else b.close now)

/-- The next step of a bank towards no open row in a cycle (R181): whether no further step is needed, and the bank. -/
def Vault.closeStep (v : Vault) (core bank now : Nat) (mayMove : Bool) : Bool × Bank :=
  let b := v.bankAt bank now
  if b.row.isNone then (true, b)
  else if now < b.busyEnd || now < b.actAt + 30 || !mayMove || (v.clash core bank now false).isSome then (false, b)
  else (true, b.close now)

/-! ### The row guard (R165) -/

/-- Whether a live booking other than the requester's own holds a bank in any of the next five ticks. -/
def Core.guarded (k : Core) (bank tick : Nat) (own : Option Nat) : Bool :=
  (List.range 16).any fun i => some i != own && (k.booking i).live &&
    (List.range 5).any fun d => holdsTick (k.booking i).holds (codeBank bank) (tick + 1 + d)

/-- Whether an access to a row would change the bank's row state. -/
def Vault.movesRow (v : Vault) (bank row : Nat) : Bool := (v.bank bank).row != some row

/-! ### Row repair (R172, R173) -/

/-- The record of a row under repair. -/
def Vault.repairOf (v : Vault) (bank row : Nat) : Option RowErr := v.rowErrs.find? fun r => r.bank == bank && r.row == row && r.scheduled

/-- RPAIR (R173). -/
def RowErr.rpair (r : RowErr) (va : Nat) : Exc :=
  { cause := causeRpair, addr := va, det0 := r.bank * 2 ^ 13 + r.row * 2 ^ 18, det1 := r.remapAt.getD (2 ^ 64 - 1), replay := true }

/-! ### Rows of an access -/

/-- The row segments of n bytes from a physical address (R177). -/
def segsFrom : Nat → Nat → Nat → Nat → List Seg
  | 0, _, _, _ => []
  | fuel + 1, pa, n, off =>
    if n = 0 then []
    else
      let m := min n (8192 - pa % 8192)
      ⟨vbank pa, vrow pa, pa, m, off, 0, 0, false, false⟩ :: segsFrom fuel (pa + m) (n - m) (off + m)

/-- The rows of an access as they reach the controller: a store to a row under repair is held (R173). -/
def Vault.request (v : Vault) (store : Bool) (segs : List Seg) : List Seg :=
  segs.map fun g => { g with held := store && (v.repairOf g.bank g.row).isSome }

/-- The rows of an access with the ready cycles of its nominal schedule: each is requested now (R177, R179). -/
def Vault.nominalSegs (v : Vault) (core now : Nat) (segs : List Seg) : List Seg :=
  segs.map fun g => { g with rdy := (v.prepare core g.bank g.row true 64 (max now v.powerAt) (v.bank g.bank)).1 }

/-- Whether an access is a row instruction's, which moves no byte (R181). -/
def VaultAcc.rowOp (a : VaultAcc) : Bool := a.op == .rowact || a.op == .rowpre

/-- The accesses of a core with one replaced. -/
def Core.modAcc (k : Core) (id : Nat) (f : VaultAcc → VaultAcc) : Core :=
  { k with vault := { k.vault with accs := k.vault.accs.map fun a => if a.id == id then f a else a } }

/-- An access removed from the controller. -/
def Core.dropAcc (k : Core) (id : Nat) : Core :=
  { k with vault := { k.vault with accs := k.vault.accs.filter (·.id != id) } }

/-- The first cycle from c on in which a predicate holds. -/
def firstCycle (p : Nat → Bool) : Nat → Nat → Nat
  | 0, c => c
  | fuel + 1, c => if p c then c else firstCycle p fuel (c + 1)

/-- The nominal beats of an access (R124, R177, R179), each with its bank, cycle and byte offset: of a scalar or vector access one
a row, the later row no earlier than one cycle after its own latency; of a tile access one for each β bytes, in order, from a start cycle on. -/
def Vault.nominalBeats (v : Vault) (core : Nat) (beat : Option Nat) (start : Nat) (segs : List Seg) : List (Nat × Nat × Nat) :=
  let ok (bank c : Nat) : Bool := !agentTick (c / 8) && (v.windowEnd core bank c true).isNone
  match beat with
  | none =>
    (segs.zipIdx.foldl (fun (out : List (Nat × Nat × Nat)) (g, j) =>
      let free (c : Nat) : Bool := ok g.bank c && out.all fun o => o.2.1 != c
      out ++ [(g.bank, firstCycle free 2048 (g.rdy + 10 + j), g.off)]) [])
  | some β =>
    (segs.foldl (fun (acc : List (Nat × Nat × Nat) × Nat) g =>
      (List.range (g.n / β)).foldl (fun (acc : List (Nat × Nat × Nat) × Nat) j =>
        let t := firstCycle (ok g.bank) 2048 (max acc.2 (g.rdy + 10))
        (acc.1 ++ [(g.bank, t, g.off + β * j)], t + 1)) acc) ([], start)).1

/-! ### Eligible cycles (R124, R177, R179) -/

/-- Whether another read-modify-write holds a bank between its beats (R301, R343). -/
def Core.bankHeld (k : Core) (bank id : Nat) : Bool :=
  k.vault.accs.any fun a => a.id != id && a.readAt.isSome && a.segs.any (·.bank == bank)

/-- Whether an access is the agent's for a request that is not its turn: neither the queue's head nor set aside (R300). -/
def Core.waitsTurn (k : Core) (a : VaultAcc) : Bool :=
  a.by_ == .agent && !(k.agent.queue.take 1 ++ k.agent.retry).any fun q => q.acc == some a.id

/-- Whether an access comes before another at the controller: in the order in which they reached it (R166), but that the agent's for
requests whose turn has not come stand behind every other (R300; DEDUCED, log entry 78). -/
def Core.before (k : Core) (e a : VaultAcc) : Bool :=
  e.id != a.id && if k.waitsTurn a then !k.waitsTurn e || e.id < a.id else e.id < a.id && !k.waitsTurn e

/-- Whether an access before another shares its order in a bank: one that has beats to move there, and not an open one before a booked
one (R27; DEDUCED, log entry 62). -/
def Core.sharesBank (k : Core) (e a : VaultAcc) (g h : Seg) : Bool :=
  k.before e a && !e.abandoned && (e.heldFor.isSome || a.heldFor.isNone) && h.bank == g.bank && h.moved < h.n

/-- Whether an earlier access keeps a segment's beat back: in its bank (R166), or of the same thread to the same home (R126). -/
def Core.behind (k : Core) (a : VaultAcc) (g : Seg) : Bool :=
  let tile (x : VaultAcc) : Bool := x.op == .tileLoad || x.op == .tileStore
  k.vault.accs.any fun e => e.segs.any fun h => k.sharesBank e a g h ||
    (k.before e a && e.by_ == a.by_ && a.by_ != .agent && tile e == tile a && !e.rowOp && h.moved < h.n)

/-- Whether an earlier access has beats to move in another row of a segment's bank, so that its row is not opened yet (R166; DEDUCED, log
entry 78). -/
def Core.rowBehind (k : Core) (a : VaultAcc) (g : Seg) : Bool :=
  k.vault.accs.any fun e => e.segs.any fun h => k.sharesBank e a g h && h.row != g.row && !h.held

/-- The channel of a request whose stream has been unbound. -/
def noChannel : Nat := 16



/-- Whether the write beat of an agent's read-modify-write takes the port in a cycle: two cycles after its read (Table 11.1). -/
def Core.rmwWrites (k : Core) (cycle id : Nat) : Bool :=
  k.vault.accs.any fun a => a.id != id && a.by_ == .agent && a.readAt.any fun r => r + 2 == cycle

/-- The booking slot of the thread that bound a stream, where that thread is booked and its booking holds the channel in the
current tick (R282). -/
def Core.channelSlot (k : Core) (cycle ch : Nat) : Option Nat :=
  (k.engine.streams.find? (·.1 == ch)).bind fun p =>
    let th := k.thr p.2.thr
    if th.st == .booked && k.ownHolds th (0x30 + ch) (cycle / 8) then th.slot else none

/-- Whether no beat has moved in a cycle, and the bank is outside windows and free of another read-modify-write (R166, R177, R301). -/
def Core.portFree (k : Core) (core cycle bank id : Nat) : Bool :=
  k.vault.portAt != some cycle && (k.vault.windowEnd core bank cycle false).isNone && !k.vault.laneWindow cycle && !k.bankHeld bank id
    && !k.rmwWrites cycle id

/-- The booking slot whose ticks an access uses in a cycle, if any. -/
def Core.ownSlot (k : Core) (cycle : Nat) (a : VaultAcc) : Option Nat :=
  match a.by_ with
  | .stream ch => k.channelSlot cycle ch
  | _ => a.heldFor

/-- Whether a requester may change a bank's row in a cycle: where its own booking holds the bank; and else where no booking holds it in this
tick (R27) or, but for its own, in any of the next five (R165). -/
def Core.mayMove (k : Core) (cycle bank : Nat) (a : VaultAcc) : Bool :=
  let own := k.ownSlot cycle a
  own.any (fun i => holdsTick (k.booking i).holds (codeBank bank) (cycle / 8)) ||
    (!k.bookedBut a.ended (codeBank bank) (cycle / 8) && !k.guarded bank (cycle / 8) own)

/-- Whether a segment's row stands open or opening for it. -/
def Vault.rowOpen (v : Vault) (g : Seg) : Bool := g.ready && (v.bank g.bank).row == some g.row

/-- The rows that an access still needs taken a step further in a cycle (R164, R173): a held part whose row has been remapped is held no
longer; clock-gated layers take 20 cycles more (R171). -/
def Core.rowTurn (k : Core) (c cycle : Nat) (a : VaultAcc) : Core :=
  if cycle < k.vault.powerAt || a.op == .rowpre then k
  else a.segs.zipIdx.foldl (fun k (g, j) =>
    let held := g.held && (k.vault.repairOf g.bank g.row).isSome
    if g.moved = g.n || held || k.vault.rowOpen g || k.rowBehind a g then k
    else
      let (rdy, b) := k.vault.rowStep c g.bank g.row cycle (k.mayMove cycle g.bank a)
      let g' : Seg := { g with held := false, ready := rdy.isSome, rdy := rdy.getD 0 + if k.vault.power == .gated then 20 else 0 }
      (Core.modAcc { k with vault := k.vault.setBank g.bank b } a.id) fun a =>
        { a with segs := a.segs.zipIdx.map fun (h, i) => if i = j then g' else h }) k

/-- Whether the port and a bank serve an access in a cycle (R177, R179, R282): a booked one in ticks for which its own booking holds both;
an open one, outside agent ticks, in ticks for which no booking but the ended one that started it holds either; a stream's use of each
is booked where its thread's booking holds that resource, and open else. -/
def Core.serves (k : Core) (core cycle bank : Nat) (a : VaultAcc) : Bool :=
  let tick := cycle / 8
  let held (i code : Nat) : Bool := holdsTick (k.booking i).holds code tick
  let mine (code : Nat) : Bool := match a.by_ with
    | .stream ch => (k.channelSlot cycle ch).any fun i => held i code
    | _ => false
  let free (code : Nat) : Bool := mine code || !k.bookedBut a.ended code tick
  k.portFree core cycle bank a.id
    && match a.heldFor with
      | some i => !agentTick tick && held i codePort && held i (codeBank bank)
      | none => free (codeBank bank) && (if agentTick tick then a.by_ == .agent else free codePort)

/-! ### Errors (R161, R162, R172, R174) -/

/-- The code words (64-byte units) that n bytes from an address touch. -/
def codeWordsOf (pa n : Nat) : List Nat :=
  if n = 0 then [] else (List.range ((pa + n - 1) / 64 - pa / 64 + 1)).map (pa / 64 + ·)

/-- The first code word of a read that is uncorrectable (R162). -/
def Vault.badWord (v : Vault) (pa n : Nat) : Option Nat := (codeWordsOf pa n).find? (v.badWords.contains ·)

/-- The oldest row of a full record leaves it: one under repair stays beside it until its remap (R172, R173). -/
def dropOldest (rs : List RowErr) : List RowErr :=
  if (rs.filter (!·.displaced)).length < 16 then rs
  else match rs.zipIdx.find? fun r => !r.1.displaced with
    | some (r, i) => if r.scheduled then rs.set i { r with displaced := true } else rs.eraseIdx i
    | none => rs

/-- One corrected error counted for its row: the record holds up to 16 rows, and the second schedules a repair while the bank has a spare
row that no earlier repair takes (R172). -/
def Vault.noteRow (v : Vault) (bank row : Nat) : Vault :=
  let used := ((v.sparesUsed.find? (·.1 == bank)).map (·.2)).getD 0 + (v.rowErrs.filter fun r => r.bank == bank && r.scheduled).length
  if (v.repairOf bank row).isSome then v
  else if v.rowErrs.any fun r => r.bank == bank && r.row == row then
    { v with rowErrs := v.rowErrs.map fun r =>
        if r.bank == bank && r.row == row then { r with count := r.count + 1, scheduled := 2 ≤ r.count + 1 && used < 64 } else r }
  else { v with rowErrs := dropOldest v.rowErrs ++ [⟨bank, row, 1, false, none, false⟩] }

/-- One corrected error counted for its lane, in distinct code words; the eighth decides its repair in a tick (R174). -/
def Vault.noteLane (v : Vault) (tick lane w : Nat) : Vault :=
  let words := ((v.laneErrs.find? (·.1 == lane)).map (·.2)).getD []
  let words := if words.contains w then words else words ++ [w]
  let v := { v with laneErrs := v.laneErrs.filter (·.1 != lane) ++ [(lane, words)] }
  if 8 ≤ words.length && v.lanesRepaired.length + v.laneRepairs.length < 64 && !v.laneRepairs.any (·.1 == lane) && !v.lanesRepaired.any (·.1 == lane)
  then { v with laneRepairs := v.laneRepairs ++ [(lane, tick, none)] } else v

/-- The corrections of a read counted (R161): each weak word of a row not yet remapped and of a lane not yet repaired. -/
def Vault.correct (v : Vault) (tick pa n : Nat) : Vault :=
  (codeWordsOf pa n).foldl (fun v w =>
    match v.weakWords.find? (·.1 == w) with
    | some (_, lane) =>
      if v.remapped.contains (vbank (64 * w), vrow (64 * w)) || v.lanesRepaired.any (·.1 == lane) then v
      else (v.noteRow (vbank (64 * w)) (vrow (64 * w))).noteLane tick lane w
    | none => v) v

/-- What the controller does with a repair or lane that has just been decided (R173, R174): the copy waits for its row, the
window for its place. -/
def State.postRepairs (s : State) (before after : Vault) : State :=
  let s := if after.rowErrs.any fun r => r.scheduled && (before.repairOf r.bank r.row).isNone then s.postOnce (s.cycle + 1) .rowRepairCopyStart else s
  if after.laneRepairs.any fun l => !before.laneRepairs.any (·.1 == l.1) then s.postOnce s.cycle .laneRepairPost else s

/-- The corrections of a read of a core's vault (R161, R172, R174). -/
def State.vaultCorrect (s : State) (core pa n : Nat) : State :=
  let v := (s.coreAt core).vault
  let v' := v.correct s.tick pa n
  if v' == v then s else (s.modCore core fun k => { k with vault := v' }).postRepairs v v'

/-- A 64 KiB frame of a vault poisoned (R162). -/
def Vault.poison (v : Vault) (frame : Nat) : Vault := { v with poisoned := insertAsc frame v.poisoned }

/-! ### Access counters (R190) -/

/-- One request of a core counted for a frame. -/
def FrameCnt.touch (f : FrameCnt) (core : Nat) : FrameCnt :=
  let f := { f with count := min (f.count + 1) 65535 }
  if core = f.cand then { f with weight := min (f.weight + 1) 65535 }
  else if f.weight = 0 then { f with cand := core, weight := 1 }
  else { f with weight := f.weight - 1 }

/-- A frame's counters in a list ascending by frame, changed. -/
def touchFrame (frame core : Nat) : List FrameCnt → List FrameCnt
  | [] => [(⟨frame, 0, 0, 0⟩ : FrameCnt).touch core]
  | f :: r =>
    if frame < f.frame then (⟨frame, 0, 0, 0⟩ : FrameCnt).touch core :: f :: r
    else if frame = f.frame then f.touch core :: r
    else f :: touchFrame frame core r

/-- The frames of a range of bytes. -/
def framesOf (pa n : Nat) : List Nat :=
  if n = 0 then [] else (List.range ((pa + n - 1) / 65536 - pa / 65536 + 1)).map (pa / 65536 + ·)

/-- A request on behalf of a core counted in the frames of a vault that it touches. -/
def Vault.touch (v : Vault) (pa n core : Nat) : Vault :=
  { v with frames := (framesOf pa n).foldl (fun l f => touchFrame f core l) v.frames }

/-- A request on behalf of a core counted in the off-stack frames that it touches. -/
def State.touchOff (s : State) (pa n core : Nat) : State :=
  { s with offFrames := (framesOf pa n).foldl (fun l f => touchFrame f core l) s.offFrames }

/-! ### FATAL_UE when data arrive (R162, R366) -/

/-- The fatal record of an uncorrectable code word, for a requester's context, VA and source code; the frame is poisoned. -/
def State.fatalWord (s : State) (core word va reqSource : Nat) : State :=
  let s := s.modCore core fun k => { k with vault := k.vault.poison (64 * word / 65536) }
  s.fatalRecord { cause := causeFatalUe, flags := 2, source := 8, core := core, ctx := (s.coreAt core).ctx, pc := 0, addr := va, insn := 0,
                  ss := s.ssOf core, cycle := s.cycle, det0 := 64 * word, det1 := reqSource, bookid := 0 }

/-- The fatal record of a copy that meets a frame already poisoned (R162): no code word has failed, and the record holds the physical address
that it would have reached. -/
def State.fatalCopy (s : State) (core pa : Nat) : State :=
  s.fatalRecord { cause := causeFatalUe, flags := 2, source := 8, core := core, ctx := (s.coreAt core).ctx, pc := 0, addr := 0, insn := 0,
                  ss := s.ssOf core, cycle := s.cycle, det0 := pa, det1 := 8, bookid := 0 }

/-! ### Failure of an engine's access (R289) -/

/-- The serial of a stream binding or copy in a request's number, whether the request is a write, and the unit or block. -/
def engineId (uid : Nat) (write : Bool) (u : Nat) : Nat := uid * 2 ^ 49 + (if write then 2 ^ 48 else 0) + u

/-- A stream or copy whose unit or block failed: the channel's stream is failed at the unit, the earliest of several (R289), and a copy
ends in the next cycle. -/
def State.engineFail (s : State) (c ch id cause : Nat) : State :=
  let uid := id / 2 ^ 49
  let s := s.modCore c fun k => { k with engine := { k.engine with
    streams := k.engine.streams.map fun p =>
      if p.1 == ch && p.2.uid == uid && p.2.failed.all (id % 2 ^ 48 < ·.1) then (p.1, { p.2 with failed := some (id % 2 ^ 48, cause) }) else p } }
  match (s.coreAt c).engine.copies.find? fun x => x.uid == uid && (x.st == .running || x.st == .queued || x.st == .parked) with
  | none => s
  | some x =>
    (s.modCore c fun k => { k with engine := { k.engine with
      copies := k.engine.copies.map fun y => if y.uid == uid then { y with st := .failed, cause := cause } else y } }).post (s.cycle + 1) (.copyComplete c x.idx)

/-! ### Completion of a thread's access -/

/-- The data of a unit whose place a long-latency producer kept: it stands in the ring of its stream, if that is still bound (R284). -/
def Core.giveUnit (k : Core) (uid u x now : Nat) : Core :=
  match k.engine.streams.find? fun p => p.2.uid == uid with
  | some (ch, w) => (k.sramWrite (w.place u) 64 (x % 2 ^ 512)).modStream ch fun y => { y with present := y.present ++ [(u, now)] }
  | none => k

/-- A value given to a destination of a thread: its registers become full, but for those a later `sbind` took, and the units kept for
its bound members get their data (R49, R284). -/
def State.giveDest (s : State) (c t : Nat) (units : List (Nat × Option (Nat × Nat))) (d : Dest) (x ready : Nat) : State :=
  let s := s.modThr c t fun th => th.setDestBut units d .full x ready
  match d with
  | .v n _ => units.foldl (fun s y => match y with
      | (m, some (uid, u)) => s.modCore c fun k => k.giveUnit uid u (x / 2 ^ (512 * (m - n))) s.cycle
      | _ => s) s
  | _ => s

/-- The bytes of a list that an access of its thread has read (R210). -/
def ListRead.gather (r : ListRead) (t id x : Nat) : ListRead := if r.thr = t && r.acc = some id then { r with data := x } else r

/-- An access of a thread answered: its part of the data gathered; with the last part the destination is written, and later
accesses and releases may follow from the next cycle on (R126, R302). -/
def State.completeAccess (s : State) (c t rid value : Nat) : State :=
  let th := s.thrAt c t
  match th.outs.find? (·.id == rid / 4) with
  | none => s
  | some a =>
    let data := a.data + value % 2 ^ (8 * a.bytes) * 2 ^ (if rid % 4 = 0 then 0 else 8 * a.split)
    if 1 < a.left then
      s.modThr c t fun th => { th with outs := th.outs.map fun o => if o.id == a.id then { o with left := o.left - 1, data := data } else o }
    else
      let x := if a.signed then cutTo 64 (signedOf (8 * a.bytes) data) else data
      let ready := if a.kind == .remote then s.cycle + 1 else 0
      let s := s.modThr c t fun th =>
        { th with outs := th.outs.filter (·.id != a.id), relAt := max th.relAt s.cycle, acqAt := if a.acquire then s.cycle + 1 else th.acqAt }
      let s := s.modCore c fun k => { k with almanac := { k.almanac with reading := k.almanac.reading.map (·.gather t a.id data) } }
      if a.store then s else s.giveDest c t a.units a.dest x ready

end Sys2Proof.Machine
end

