-- ==== Sys2Proof/Machine/Scopes.lean ====
section
/-! DEFINITION. Scopes: the homes and targets that a fence or an ordering qualifier names (R325, R326, Table 12.2), and the pages
that a copy touches. -/

namespace Sys2Proof

/-- Whether a type is one of the record types. -/
def ElemTy.isRecord (t : ElemTy) : Bool := t == .q8 || t == .q4

end Sys2Proof

namespace Sys2Proof.Machine

/-! ### Target and rectangle words (R314, R327) -/

/-- The target that the low 18 bits of a target word name. -/
def targetOf (w : Nat) : Target :=
  let n := w % 256
  if bitsOf w 17 8 = 0x3FF then .core n else .device (bitsOf w 17 8) n

/-- The rectangle of a word. -/
def rectOf (w : Nat) : Rect := ⟨bitsOf w 3 0, bitsOf w 7 4, bitsOf w 11 8, bitsOf w 15 12⟩

/-! ### The shape of a copy (R290) -/

/-- The elements of a group of a copy's source. -/
def Copy.G (x : Copy) : Nat := 2 ^ x.glog

/-- Bytes of a source element, or of a record. -/
def Copy.unit (x : Copy) : Nat := if x.stype.isRecord then recordBytes (x.stype == .q4) x.G else x.stype.bits / 8

/-- Bytes of a destination element. -/
def Copy.de (x : Copy) : Nat := x.dtype.bits / 8

/-- Bytes of one source row. -/
def Copy.srcRow (x : Copy) : Nat := if x.stype.isRecord then x.cols / x.G * x.unit else x.cols * x.unit

/-- The destination rows, and the bytes of one. -/
def Copy.dstRows (x : Copy) : Nat × Nat := if x.trans then (x.cols, x.rows * x.de) else (x.rows, x.cols * x.de)

/-! ### Scopes (Table 12.2) -/

/-- Whether a core's local region and vault are in a fence's scope (Table 12.2). -/
def State.coreInScope (s : State) (sc : Scope) (r : Rect) (c : Nat) : Bool :=
  match sc with
  | .thread | .core => c == s.cc
  | .rect => c == s.cc || r.has c
  | .device | .domain => true

/-- Whether homes outside every core are in scope: off-stack controllers. -/
def offIn : Scope → Bool
  | .device | .domain => true
  | _ => false

/-- Whether the home of a VA of the issuing core is in scope. A page in migration counts as in every scope; one that has no home yet,
because it does not translate, lies in the scopes that hold every home of the device (R326). -/
def State.homeInScope (s : State) (sc : Scope) (r : Rect) (va : Nat) : Bool :=
  match s.translate s.cc s.me.ctx va false false with
  | .loc _ | .vault _ | .moving => true
  | .foreign v => s.coreInScope sc r v
  | .offstack _ | .page | .prot | .poison _ => offIn sc

/-- Whether the target of a request is in scope (R326). -/
def State.targetInScope (s : State) (sc : Scope) (r : Rect) (tw : Nat) : Bool :=
  match targetOf tw with
  | .core c => s.coreInScope sc r c
  | .off _ => offIn sc
  | .device _ _ => sc == .domain

/-- An address in each page that rows of a copy touch. -/
def rowPages (base rows stride bytes : Nat) : List Nat :=
  ((List.range rows).flatMap fun i =>
    let a := base + i * stride
    if bytes = 0 then [] else (List.range ((a + bytes - 1) / 65536 - a / 65536 + 1)).map fun j => (a / 65536 + j) * 65536).eraseDups

/-- An address in each page that a copy touches. -/
def Copy.pages (x : Copy) : List Nat :=
  rowPages x.src x.rows x.srs x.srcRow ++ rowPages x.dst x.dstRows.1 x.drs x.dstRows.2

/-- Whether a copy is not complete. -/
def Copy.live (x : Copy) : Bool := x.st == .queued || x.st == .running || x.st == .parked

end Sys2Proof.Machine
end

