-- ==== Sys2Proof/Machine/Access.lean ====
section
/-! DEFINITION. Scalar and vector memory accesses: addresses, watchpoints, translation, owners, qualifiers and ordering, the
paths to local SRAM, the vault and off-stack memory, and the scalar loads and stores with the beats of vault accesses
(R122 to R130, R153 to R156, R179, R378). -/

namespace Sys2Proof.Machine

/-! ### Addresses -/

/-- SpillRedirect (R129): the address, and whether it was redirected. -/
def Thread.spill (th : Thread) (va : Nat) : Nat × Bool :=
  let top := localBase + th.spbase.toNat
  if va < top && top - va ≤ 2 ^ 32 then ((th.ovfp.toNat + 2 ^ 52 - (top - va)) % 2 ^ 52, true) else (va, false)

/-- The address of an access through field A with a byte offset (R122, R153). -/
def State.effective (s : State) (a : GReg) (off : Int) : Nat × Bool :=
  let va := (((s.readG a).toNat % 2 ^ 52 : Nat) + off) % (2 ^ 52 : Nat)
  if a = 2 then s.th.spill va.toNat else (va.toNat, false)

/-- The watchpoints that an access matches, as a mask (R377, R378). -/
def State.watchMask (s : State) (rd wr : Bool) (va n : Nat) : Nat :=
  if s.th.priv || !(s.ctxOf s.me.ctx).dbg || s.th.wskip == some s.th.pc then 0
  else (List.range 4).foldl (fun m i =>
    let w := ((s.me.watch[i]?).getD 0).toNat
    let size := 2 ^ bitsOf w 60 56
    let base := w % 2 ^ 52 / size * size
    if bitOf w 63 && ((rd && bitOf w 62) || (wr && bitOf w 61)) && va < base + size && base < va + n then m + 2 ^ i else m) 0

/-- WATCH (R378). -/
def State.watchStop (s : State) (rd wr : Bool) (va n : Nat) : Option Stop :=
  let m := s.watchMask rd wr va n
  if m = 0 then none else some (.trap { cause := causeWatch, addr := va, det0 := m, replay := true })

/-! ### Translation of an access (R127, R153, R154, R156) -/

/-- The parts of an access in one 64 KiB block each: the VA, its place in the access and its length. -/
def blocksOf (va n : Nat) : List (Nat × Nat × Nat) :=
  let m := 65536 - va % 65536
  if n ≤ m then [(va, 0, n)] else [(va, 0, m), ((va + m) % 2 ^ 52, m, n - m)]

/-- FATAL_UE of a poisoned page or frame (R162). -/
def State.poisonExc (s : State) (va pa : Nat) : Exc :=
  { cause := causeFatalUe, addr := va, det0 := pa, det1 := s.ct, source := some 8 }

/-- The row of Tables 4.6 and 5.9 that a translation leads to: 0 scratchpad, 1 other local SRAM, 2 vault, 3 off-stack, 4 a
hole. -/
def Xlate.tableRow : Xlate → Nat
  | .loc off => match placeOf off with
    | .scratch => 0
    | .hole => 4
    | _ => 1
  | .vault _ => 2
  | .offstack _ => 3
  | _ => 5

/-- The first byte of an access in a unit that an engine owns (R38, R187). -/
def Core.engineByte (k : Core) (off n : Nat) : Option Nat :=
  (List.range (n / 4096 + 2)).findSome? fun i =>
    let o := if i = 0 then off else (off / 4096 + i) * 4096
    if o < off + n then (match unitOf o with | some u => if k.owner u != 0 then some o else none | none => none) else none

/-- A wait for a page in migration: OVRN in booked mode (Table 6.5). -/
def State.waitOr (s : State) (e : Exc) : Stop :=
  if s.th.st == .booked then .trap { e with cause := causeOvrn, replay := true } else .wait (s.cycle + 1)

/-- What the first byte of one part of an access raises or waits for, in precedence order up to OWNER (R127, R156, Table 6.5). -/
def State.partStop (s : State) (wr : Bool) (ql : Qual) (redirected : Bool) (x : Nat × Nat × Nat × Xlate) : Option Stop :=
  let (va, _, n, tr) := x
  let trap (cause va det0 : Nat) : Option Stop := some (.trap { cause := cause, addr := va, det0 := det0 })
  match tr with
  | .page => trap causePage va 0
  | .poison pa => some (.trap (s.poisonExc va pa))
  | .prot => trap causeProt va 0
  | .moving => if ql == .full || ql == .exchange then trap causeProt va 1 else some (s.waitOr { cause := causeOvrn, addr := va })
  | .foreign _ => if ql == .full || ql == .exchange then trap causeProt va 1 else if redirected then trap causeProt va 2 else trap causeForeign va 0
  | tr =>
    if tr.tableRow == 4 then trap causeProt va 0
    else if (ql == .full || ql == .exchange) && tr.tableRow != 0 then trap causeProt va 1
    else if redirected && tr.tableRow != 3 then trap causeProt va 2
    else match tr with
      | .loc off => if wr && !s.th.priv && off < 0x110000 && 0x10F000 < off + n then trap causeProt (va + (0x10F000 - off)) 7 else none
      | _ => none

/-- What translating an access raises or waits for up to OWNER: the first byte that cannot be served is reported, by R156's order where
one byte faults in several ways (R153, R154; DEDUCED, log entry 76); then PROT where the bytes lie in two rows of Table 5.9. -/
def State.placeStop (s : State) (wr : Bool) (ql : Qual) (redirected : Bool) (xs : List (Nat × Nat × Nat × Xlate)) : Option Stop :=
  (xs.findSome? (s.partStop wr ql redirected)).or
    (match xs with
    | [a, b] => if a.2.2.2.tableRow != b.2.2.2.tableRow then some (.trap { cause := causeProt, addr := a.1 }) else none
    | _ => none)

/-- OWNER of an access's local bytes. -/
def State.ownerStop (s : State) (xs : List (Nat × Nat × Nat × Xlate)) : Option Stop :=
  xs.findSome? fun x => match x.2.2.2 with
    | .loc off => (s.me.engineByte off x.2.2.1).map fun o => .trap { cause := causeOwner, addr := (x.1 + (o - off)) % 2 ^ 52 }
    | _ => none

/-! ### Ordering (R126, R309) -/

/-- OVRN of an instruction that would wait for the thread's accesses: the record of R179 where one has abandoned beats. -/
def State.lateExc (s : State) (va : Nat) : Exc :=
  match s.me.vault.accs.find? fun a => a.by_ == .thread s.ct && a.abandoned with
  | some a => let (w0, w1) := a.lateWords; { cause := causeOvrn, addr := va, det0 := w0, det1 := w1, replay := true }
  | none => { cause := causeOvrn, addr := va, replay := true }

/-- What delays an access after an acquire (R126). -/
def State.acquireStop (s : State) (va : Nat) : Option Stop :=
  let th := s.th
  if th.outs.any (·.acquire) then some (s.waitOr (s.lateExc va))
  else if s.cycle < th.acqAt then (if th.st == .booked then some (.trap (s.lateExc va)) else some (.wait th.acqAt))
  else none

/-- What delays a release: earlier accesses and requests not performed and answered, and copies (R126): all of them, or, for `.sf`
and `.wesf`, those homed on the core or aimed at it (Table 12.1). -/
def State.releaseStop (s : State) (ql : Qual) (va : Nat) : Option Stop :=
  let th := s.th
  let sc : Scope := if ql == .order then .device else .core
  let none_ : Rect := ⟨1, 0, 1, 0⟩
  let waits (o : Access) : Bool := match o.kind with
    | .tile | .vault => true
    | .loc => false
    | .off => offIn sc
    | .remote => sc == .device || s.targetInScope sc none_ o.target
  let copying := s.me.engine.copies.any fun x => x.thr == s.ct && x.live && (sc == .device || x.pages.any (s.homeInScope sc none_))
  if th.outs.any waits || copying then some (s.waitOr (s.lateExc va))
  else if s.cycle < th.relAt then (if th.st == .booked then some (.trap (s.lateExc va)) else some (.wait th.relAt))
  else none

/-- A wait on granules: OVRN in booked mode, with the record of R179 where an abandoned tile beat would fill them. -/
def State.granuleStop (s : State) (va off n : Nat) : Stop :=
  match s.me.vault.accs.find? fun a => a.by_ == .thread s.ct && a.abandoned && a.op == .tileLoad && a.lo < off + n && off < a.lo + a.n with
  | some a => let (w0, w1) := a.lateWords; s.waitOr { cause := causeOvrn, addr := va, det0 := w0, det1 := w1 }
  | none => s.waitOr { cause := causeOvrn, addr := va }

/-- What a qualifier waits for at its granules (R125, R155). -/
def State.qualStop (s : State) (store : Bool) (ql : Qual) (va off n : Nat) : Option Stop :=
  let gs := granulesOf off n
  match store, ql with
  | false, .full | false, .exchange => if gs.all s.me.granFull then none else some (s.granuleStop va off n)
  | true, .exchange => if gs.any s.me.granFull then some (s.granuleStop va off n) else none
  | _, _ => none

/-- What a qualifier does to its granules (R125, R155). -/
def Core.qualGrans (k : Core) (store : Bool) (ql : Qual) (off n : Nat) : Core :=
  match store, ql with
  | false, .exchange => (granulesOf off n).foldl (fun k g => k.setGran g false) k
  | true, .full | true, .exchange => (granulesOf off n).foldl (fun k g => k.setGran g true) k
  | _, _ => k

/-! ### A memory access -/

/-- A scalar or vector access: whether it stores, its address and whether it was redirected, its bytes, its qualifier, the data
stored, the destination of a load, whether its bytes are sign-extended, and the registers a vector access moves (0 for a
scalar one). -/
structure MemOp where
  store : Bool
  va : Nat
  redirected : Bool
  n : Nat
  ql : Qual
  data : Nat
  dest : Dest
  signed : Bool
  regs : Nat
  deriving DecidableEq, Repr

/-- The vault segments of an access's translated parts. -/
def vaultSegs (xs : List (Nat × Nat × Nat × Xlate)) : List Seg :=
  xs.flatMap fun x => match x.2.2.2 with | .vault pa => segsFrom 5 pa x.2.2.1 x.2.1 | _ => []

/-- What an open thread waits for before a vault access: a bank booked in this tick (R27), the row guard (R165). -/
def State.vaultOpenStop (s : State) (segs : List Seg) : Option Stop :=
  segs.findSome? fun g =>
    if s.me.booked (codeBank g.bank) s.tick || (s.me.guarded g.bank s.tick none && s.me.vault.movesRow g.bank g.row)
    then some (.wait (8 * (s.tick + 1))) else none

/-- CheckBooked over the beats of a nominal schedule (R124, R179): each bank from now to its last beat, the port at each beat. -/
def State.nominalStop (s : State) (beats : List (Nat × Nat × Nat)) : Option Stop :=
  beats.findSome? fun b =>
    ((List.range (b.2.1 / 8 - s.tick + 1)).findSome? fun d => s.resourceStop (codeBank b.1) (s.tick + d)).or
      (s.resourceStop codePort (b.2.1 / 8))

/-- The beats of a read-modify-write: the write beat follows the read by two cycles or more (R343). -/
def State.rmwBeats (s : State) (beats : List (Nat × Nat × Nat)) : List (Nat × Nat × Nat) :=
  beats.flatMap fun b =>
    let ok (c : Nat) : Bool := !agentTick (c / 8) && (s.me.vault.windowEnd s.cc b.1 c true).isNone
    [b, (b.1, firstCycle ok 2048 (b.2.1 + 2), b.2.2)]

/-- The cycle after the last nominal beat of the thread's earlier tile accesses: a later one moves no beat before it (R177). -/
def State.tileFrom (s : State) : Nat :=
  s.me.vault.accs.foldl (fun c a =>
    if a.by_ == .thread s.ct && (a.op == .tileLoad || a.op == .tileStore) then
      match a.limit with
      | some l => max c (l - a.slip + 1)
      | none => c
    else c) 0

/-- The nominal beats of a vault access of the running thread. -/
def State.vaultNominal (s : State) (rmw : Bool) (beat : Option Nat) (segs : List Seg) : List (Nat × Nat × Nat) :=
  let v := s.me.vault
  let bs := v.nominalBeats s.cc beat s.tileFrom (v.nominalSegs s.cc s.cycle segs)
  if rmw then s.rmwBeats bs else bs

/-- What a vault access meets before it issues: open waits, or BOOKV (R124, R346). -/
def State.vaultStop (s : State) (rmw : Bool) (segs : List Seg) : Option Stop :=
  if s.th.st == .booked then s.nominalStop (s.vaultNominal rmw none segs) else s.vaultOpenStop segs

/-- RPAIR of a read of a row under repair (R173). -/
def State.rpairStop (s : State) (va : Nat) (segs : List Seg) : Option Stop :=
  segs.findSome? fun g => (s.me.vault.repairOf g.bank g.row).map fun r => .trap (r.rpair va)

/-- The limit of a booked vault access: its last nominal beat and VSLIP (R124, R179). -/
def State.limitOf (s : State) (beats : List (Nat × Nat × Nat)) : Option Nat :=
  if s.th.st == .booked then some ((beats.foldl (fun m b => max m b.2.1) 0) + s.th.vslip.toNat % 65536) else none

/-- A vault access issued to the controller: its rows requested, its beats due, its abandonment due at the limit, and the
frames' counters (R124, R164, R179, R190). -/
def State.vaultIssue (s : State) (op : BeatOp) (va n lo data cmp acc : Nat) (segs : List Seg) (limit : Option Nat) : State :=
  let v := s.me.vault
  let segs := v.request (op == .store || op == .tileStore) segs
  let v := { v with frames := ((segs.flatMap fun (g : Seg) => framesOf g.pa g.n).eraseDups).foldl (fun l f => touchFrame f s.cc l) v.frames }
  let id := v.serial
  let a : VaultAcc := ⟨id, .thread s.ct, acc, op, va, n, lo, data, cmp, segs, limit, s.th.vslip.toNat % 65536,
    if limit.isSome then s.th.slot else none, false, none, none⟩
  let s := s.modMe fun k => ({ k with vault := { v with serial := id + 1, accs := v.accs ++ [a] } } : Core).rowTurn s.cc s.cycle a
  let s := s.post (s.cycle + 1) (if op == .tileLoad || op == .tileStore then .tileBeat s.cc id else .vaultAccessBeat s.cc id)
  match limit with
  | some l => s.post l (.vaultBeatAbandon s.cc id)
  | none => s

/-- The running thread's next access, outstanding from now on. -/
def State.openAccess (s : State) (a : Access) : State :=
  s.modTh fun th => { th with outs := th.outs ++ [{ a with id := th.serial }], serial := th.serial + 1 }

/-- An access with nothing special: its kind, destination, bytes, sign, VA and whether it stores. -/
def Access.plain (kind : AccessKind) (dest : Dest) (bytes : Nat) (signed : Bool) (va : Nat) (store acquire : Bool) : Access :=
  { id := 0, kind := kind, dest := dest, bytes := bytes, signed := signed, va := va, det0 := 0, target := 0, acquire := acquire,
    store := store, tile := false, lo := 0, n := 0, split := bytes, left := 1, data := 0, units := [], told := false }

/-- Requests of an access to off-stack memory, one for each controller's 4 KiB line that it touches (R31, R34): their physical
addresses, places and lengths. -/
def offLines (xs : List (Nat × Nat × Nat × Xlate)) : List (Nat × Nat × Nat) :=
  xs.flatMap fun x => match x.2.2.2 with
    | .offstack pa =>
      let m := 4096 - pa % 4096
      if x.2.2.1 ≤ m then [(pa, x.2.1, x.2.2.1)] else [(pa, x.2.1, m), (pa + m, x.2.1 + m, x.2.2.1 - m)]
    | _ => []

/-- The requests of an off-stack access sent for the running thread's access of a serial. -/
def State.offIssue (s : State) (op : ReqOp) (acc data e : Nat) (lines : List (Nat × Nat × Nat)) : State :=
  (lines.zipIdx).foldl (fun s (l, i) =>
    s.sendReq ⟨.thread s.cc s.ct (4 * acc + i), s.me.ctx, s.cc, s.ct, .off (ctrlOf l.1), op, l.1, l.2.2,
      data / 2 ^ (8 * l.2.1) % 2 ^ (8 * l.2.2), e⟩) s


/-- A scalar load's value in its register, with a fixed latency. -/
def State.loadDone (s : State) (m : MemOp) (x lat : Nat) : State :=
  let x := if m.signed then cutTo 64 (signedOf (8 * m.n) x) else x
  s.modTh fun th => th.setDest m.dest .full x (s.cycle + lat)

/-- The issue cycles of a vector access to local SRAM from an offset (Table 5.9): register k of the access in the k-th, with the banks
that its bytes touch in the scratchpad; an access with a full/empty qualifier moves whole in the first (R155). -/
def MemOp.cycles (m : MemOp) (row off : Nat) : List WorkCycle :=
  let whole := m.ql == .full || m.ql == .exchange
  (List.range m.regs).map fun k =>
    let n := min 64 (m.n - 64 * k)
    ⟨if row = 0 then banksOf (off + 64 * k) n else [],
     if whole then (if k = 0 then [(off, 0, m.n)] else []) else [(off + 64 * k, 64 * k, n)]⟩

/-- The operation of a vector access to local SRAM issued in a cycle. -/
def MemOp.work (m : MemOp) (row off cycle : Nat) : LocalWork :=
  { due := cycle, left := m.cycles row off, store := m.store, data := m.data, ready := cycle + m.regs + 2,
    fin := match m.dest with | .v n count => .loaded n count | _ => .stored }

/-- What a vector access to local SRAM leaves when its last cycle is done. -/
def LocalWork.done (w : LocalWork) (s : State) : State :=
  match w.fin with
  | .loaded n count => s.workLoaded n count w
  | _ => s

/-- The offset of an access's first local byte. -/
def locOff (xs : List (Nat × Nat × Nat × Xlate)) : Nat :=
  match xs.head? with
  | some x => match x.2.2.2 with
    | .loc off => off
    | _ => 0
  | none => 0

/-- Where an access stores, and what (R122, R153): the running core's vault and SRAM and off-stack memory are reached by the
translation of its address. -/
def State.translated (s : State) (va n : Nat) (rd wr : Bool) : List (Nat × Nat × Nat × Xlate) :=
  (blocksOf va n).map fun p => (p.1, p.2.1, p.2.2, s.translate s.cc s.me.ctx p.1 rd wr)

/-- A scalar or vector access from its watchpoints on (R122 to R127, R153 to R156). -/
def memAccess (m : MemOp) : Act Done := do
  let s ← get
  orStop (s.watchStop (!m.store) m.store m.va m.n)
  let xs := s.translated m.va m.n (!m.store) m.store
  orStop (s.placeStop m.store m.ql m.redirected xs)
  orStop (s.ownerStop xs)
  let release := m.store && m.ql != .plain
  let acquire := !m.store && m.ql != .plain
  let order := (s.acquireStop m.va).or (if release then s.releaseStop m.ql m.va else none)
  match (xs.head?.map fun x => x.2.2.2.tableRow).getD 4 with
  | 2 =>
    let segs := vaultSegs xs
    orStop (s.vaultStop false segs)
    orStop order
    if !m.store then orStop (s.rpairStop m.va segs)
    let limit := s.limitOf (s.vaultNominal false none segs)
    let acc := s.th.serial
    change fun s =>
      let (s, units) := if m.store then (s, []) else s.reserve m.dest
      let s := (s.openAccess { Access.plain .vault m.dest m.n m.signed m.va m.store acquire with units := units }).vaultIssue
        (if m.store then .store else .load) m.va m.n 0 m.data 0 acc segs limit
      if m.store then s else s.markEmptyBut units m.dest
    done 1
  | 3 =>
    orStop order
    let lines := offLines xs
    let acc := s.th.serial
    let a := Access.plain .off m.dest m.n m.signed m.va m.store acquire
    change fun s =>
      let (s, units) := if m.store then (s, []) else s.reserve m.dest
      let s := (s.openAccess { a with split := ((lines.head?.map (·.2.2)).getD m.n), left := lines.length, units := units }).offIssue
        (if m.store then .put else .get) acc m.data 0 lines
      if m.store then s else s.markEmptyBut units m.dest
    done 1
  | row =>
    let off := locOff xs
    if m.regs = 0 then
      let uses := if row = 0 then (banksOf off m.n).map fun b => (b, s.cycle) else []
      orStop (s.banksStop uses)
      orStop order
      orStop (s.qualStop m.store m.ql m.va off m.n)
      change fun s' =>
        let s' := s'.modMe fun k => k.useBanks s.cycle s.ct uses
        (if m.store then s'.modMe fun k => k.sramWrite off m.n m.data else s'.loadDone m (s.me.sramRead off m.n) 3).modMe fun k =>
          k.qualGrans m.store m.ql off m.n
      done 1
    else
      let w := m.work row off s.cycle
      orStop (s.workStop w.left)
      orStop order
      orStop (s.qualStop m.store m.ql m.va off m.n)
      change fun s => (s.beginWork w LocalWork.done).modMe fun k => k.qualGrans m.store m.ql off m.n
      done m.regs

/-! ### Scalar loads and stores -/

/-- ALIGN (R122). -/
def alignTo (va n : Nat) : Act Unit := do
  if va % n != 0 then fault { cause := causeAlign, addr := va }

/-- A scalar load, sign-extended or zero-extended (R122, R123). -/
def scalarLoad (signed : Bool) (d a : GReg) (z : Size) (ql : Qual) (off : BitVec 12) : Act Done := do
  let s ← operands [.rg a false, .wg d]
  let (va, red) := s.effective a (off.toInt * z.bytes)
  alignTo va z.bytes
  memAccess ⟨false, va, red, z.bytes, ql, 0, s.th.destOf d.toNat, signed, 0⟩

/-- `ld` (R122, R127). -/
def execLd (d a : GReg) (z : Size) (ql : Qual) (off : BitVec 12) : Exec := runThread (scalarLoad true d a z ql off)

/-- `ldu` (R122, R127). -/
def execLdu (d a : GReg) (z : Size) (ql : Qual) (off : BitVec 12) : Exec := runThread (scalarLoad false d a z ql off)

/-- `st` (R122, R127). -/
def execSt (d a : GReg) (z : Size) (ql : Qual) (off : BitVec 12) : Exec :=
  runThread do
    let s ← operands [.rg a false, .rg d false]
    let (va, red) := s.effective a (off.toInt * z.bytes)
    alignTo va z.bytes
    memAccess ⟨true, va, red, z.bytes, ql, (s.readG d).toNat % 2 ^ (8 * z.bytes), .none, false, 0⟩

/-! ### Fetch-and-op at a home (R344, R345) -/

/-- Op of Table 13.2 on n-byte values of w bits. -/
def fopApply (op : FopOp) (w old x : Nat) : Nat :=
  match op with
  | .add => (old + x) % 2 ^ w
  | .and => Nat.land old x
  | .or => Nat.lor old x
  | .xor => Nat.xor old x
  | .min => if signedOf w old < signedOf w x then old else x
  | .max => if signedOf w old < signedOf w x then x else old
  | .minu => Nat.min old x
  | .maxu => Nat.max old x
  | .swap => x
  | .faddTs => (ElemTy.f32.ffmt.addR .rne (ElemTy.f32.ffmt.value old) (ElemTy.f32.ffmt.value x)).1

/-- What a read-modify-write leaves in n bytes that held old. -/
def rmwApply (op : BeatOp) (n old x cmp : Nat) : Nat :=
  match op with
  | .fop f lane => (List.range (8 * n / lane)).foldl (fun a i => a + fopApply f lane (laneOf old lane i) (laneOf x lane i) * 2 ^ (lane * i)) 0
  | .cas => if old = cmp then x else old
  | _ => x

/-! ### Beats of vault accesses -/

/-- The bytes of a number that a mask names, of n, written from an address upward. -/
def memSetMasked (m : Memory) (a n x mask : Nat) : Memory :=
  (List.range n).foldl (fun m i => if bitOf mask i then memSet m (a + i) (BitVec.ofNat 8 (x / 2 ^ (8 * i))) else m) m

/-- An access of a core with its rows taken a step further in this cycle, and the state that leaves: none where it has gone or its beats
are abandoned (R164, R179). -/
def State.rowTurn (s : State) (c id : Nat) : Option (State × VaultAcc) :=
  ((s.coreAt c).vault.accs.find? (·.id == id)).bind fun a =>
    if a.abandoned then none
    else
      let s := s.modCore c (·.rowTurn c s.cycle a)
      ((s.coreAt c).vault.accs.find? (·.id == id)).map fun a => (s, a)

/-- The answer of a vault access to its requester: a load in the cycle of its beat, an atomic in the next, a store's
acknowledgement in the next (R124, R326, R343). -/
def State.vaultAnswer (s : State) (c : Nat) (a : VaultAcc) (value : Nat) : State :=
  match a.by_ with
  | .thread t =>
    if a.op == .load then (s.completeAccess c t (4 * a.acc) value).modThr c t fun th => { th with relAt := max th.relAt (s.cycle + 1) }
    else s.post (s.cycle + 1) (.replyArrival (.thread c t (4 * a.acc)) value)
  | .stream ch => s.post (s.cycle + 1) (.replyArrival (.engine c ch a.acc false) value)
  | _ => s

/-- The segment of an access that a beat may move now, with its index (R124, R154, R166). -/
def Core.readySeg (k : Core) (c cycle : Nat) (a : VaultAcc) : Option (Nat × Seg) :=
  (a.segs.zipIdx.find? fun (g, j) => g.moved < g.n && k.vault.rowOpen g && g.rdy + 10 + j ≤ cycle && !k.behind a g
    && k.serves c cycle g.bank a).map fun (g, j) => (j, g)

/-- A source code of a requester (Table 14.3). -/
def Requester.source : Requester → Nat
  | .thread t => t
  | .stream _ => 6
  | .agent => 4
  | .copy => 8

/-- An access that an uncorrectable word ends: it leaves the controller and the thread's list, and its destination stays as it
is (R162). -/
def State.loseAccess (s : State) (c : Nat) (a : VaultAcc) : State :=
  let s := s.modCore c (·.dropAcc a.id)
  match a.by_ with
  | .thread t => s.modThr c t fun th => { th with outs := th.outs.filter (·.id != a.acc) }
  | .stream ch => s.engineFail c ch a.acc causeFatalUe
  | _ => s

/-- A beat of a scalar, vector or atomic access: a load gathers its bytes, a store writes them, an atomic reads and, two cycles
or more later, writes (R124, R343). -/
def State.moveBeat (s : State) (c : Nat) (a : VaultAcc) (j : Nat) (g : Seg) : State :=
  let k := s.coreAt c
  let read := memGetN k.vault.mem g.pa g.n
  let s := s.modCore c fun k => { k with vault := { k.vault with portAt := some s.cycle, beatBank := g.bank } }
  let moved (a : VaultAcc) : VaultAcc := { a with segs := a.segs.zipIdx.map fun (h, i) => if i = j then { h with moved := h.n } else h }
  let store (x : Nat) (s : State) : State := s.modCore c fun k => { k with vault := { k.vault with mem := memSetN k.vault.mem g.pa g.n x } }
  match a.op with
  | .store => (store (a.data / 2 ^ (8 * g.off) % 2 ^ (8 * g.n)) s).modCore c (·.modAcc a.id moved)
  | .masked mask => (s.modCore c fun k => { k with vault := { k.vault with mem := memSetMasked k.vault.mem g.pa g.n a.data mask } }).modCore c
      (·.modAcc a.id moved)
  | .fop _ _ | .cas =>
    match a.readAt with
    | none =>
      match k.vault.badWord g.pa g.n with
      | some w => (s.fatalWord c w a.va a.by_.source).loseAccess c a
      | none => (s.vaultCorrect c g.pa g.n).modCore c (·.modAcc a.id fun a => { a with readAt := some s.cycle })
    | some _ => (store (rmwApply a.op g.n read a.data a.cmp) s).modCore c (·.modAcc a.id fun a => moved { a with lo := read })
  | _ =>
    match k.vault.badWord g.pa g.n with
    | some w => (s.fatalWord c w a.va a.by_.source).loseAccess c a
    | none => (s.vaultCorrect c g.pa g.n).modCore c (·.modAcc a.id fun a => moved { a with data := a.data + read * 2 ^ (8 * g.off) })

/-- After a beat, or a cycle without one: the access is answered when every byte has moved, and tries again otherwise. -/
def State.afterBeat (s : State) (c id : Nat) : State :=
  match (s.coreAt c).vault.accs.find? (·.id == id) with
  | none => s
  | some a =>
    if a.segs.all fun g => g.moved == g.n then
      (s.modCore c (·.dropAcc id)).vaultAnswer c a (match a.op with | .load => a.data | .fop _ _ | .cas => a.lo | _ => 0)
    else s.post (s.cycle + 1) (.vaultAccessBeat c id)

/-- A row instruction's turn in a cycle (R181): it has nothing more to do once the activation, or the precharge, it needs has started or is
found to have been made. -/
def State.rowOpTurn (s : State) (c : Nat) (a : VaultAcc) : State :=
  let k := s.coreAt c
  match a.segs with
  | [g] =>
    let (s, done) :=
      if a.op == .rowact then (s, k.vault.rowOpen g)
      else if k.rowBehind a g then (s, false)
      else
        let (done, b) := k.vault.closeStep c g.bank s.cycle (k.mayMove s.cycle g.bank a)
        (s.modCore c fun k => { k with vault := k.vault.setBank g.bank b }, done)
    if done then s.modCore c (·.dropAcc a.id) else s.post (s.cycle + 1) (.vaultAccessBeat c a.id)
  | _ => s.modCore c (·.dropAcc a.id)

/-- `vault_access_beat` (R124, R164, R177): the access's rows are taken a step further, and it moves one beat if this cycle is eligible
for it. -/
def execVaultAccessBeat (c id : Nat) : Exec := fun s =>
  .next <|
    match s.rowTurn c id with
    | none => s
    | some (s, a) =>
      if a.rowOp then s.rowOpTurn c a
      else match (s.coreAt c).readySeg c s.cycle a with
        | some (j, g) =>
          if a.readAt.all fun r => r + 2 ≤ s.cycle then (s.moveBeat c a j g).afterBeat c id else s.afterBeat c id
        | none => s.afterBeat c id

/-- `vault_beat_abandon` (R124, R179): at the end of the limit cycle the beats that have not moved are abandoned. -/
def execVaultBeatAbandon (c id : Nat) : Exec := fun s =>
  .next (s.modCore c (·.modAcc id fun a => if a.heldFor.isSome then { a with abandoned := true } else a))

end Sys2Proof.Machine
end

