-- ==== Sys2Proof/Machine/Atomic.lean ====
section
/-! DEFINITION. The atomic class: `fop` and `cas` at the scratchpad, at the core's own vault and at off-stack memory (R343 to
R346). The actions themselves are rmwApply's, which the vault controller, the agent and the off-stack controllers share. -/

namespace Sys2Proof.Machine

/-- Where an atomic access performs, or what its translation raises (Table 13.1, R346). -/
def State.atomicPlace (s : State) (va : Nat) : Except Stop Xlate :=
  let trap (cause det0 : Nat) : Except Stop Xlate := .error (.trap { cause := cause, addr := va, det0 := det0 })
  match s.translate s.cc s.me.ctx va true true with
  | .page => trap causePage 0
  | .poison pa => .error (.trap (s.poisonExc va pa))
  | .prot => trap causeProt 0
  | .moving => .error (s.waitOr { cause := causeOvrn, addr := va })
  | .foreign _ => trap causeForeign 0
  | .loc off =>
    if placeOf off != .scratch then trap causeProt 6
    else if (s.me.engineByte off 4).isSome then trap causeOwner 0
    else .ok (.loc off)
  | x => .ok x

/-- An atomic access of n bytes from its alignment check on (R344, R345): the operation, the operand, the value compared and the
destination of the old value. -/
def atomicAccess (op : BeatOp) (req : ReqOp) (va n x e : Nat) (dest : Dest) : Act Done := do
  alignTo va n
  let s ← get
  orStop (s.watchStop true true va n)
  let place ← orRaise (s.atomicPlace va)
  match place with
  | .loc off =>
    takeBanks ((banksOf off n).map fun b => (b, s.cycle))
    orStop (s.acquireStop va)
    let old := s.me.sramRead off n
    let acc := s.th.serial
    change fun s =>
      (((s.modMe fun k => k.sramWrite off n (rmwApply op n old x e % 2 ^ (8 * n))).openAccess (Access.plain .loc dest n false va false false)).markEmpty
        dest).post (s.cycle + 3) (.replyArrival (.thread s.cc s.ct (4 * acc)) old)
    done 1
  | .vault pa =>
    let segs := segsFrom 2 pa n 0
    orStop (s.vaultStop true segs)
    orStop (s.acquireStop va)
    orStop (s.rpairStop va segs)
    let limit := s.limitOf (s.vaultNominal true none segs)
    let acc := s.th.serial
    change fun s => ((s.openAccess (Access.plain .vault dest n false va false false)).vaultIssue op va n 0 x e acc segs limit).markEmpty dest
    done 1
  | .offstack pa =>
    orStop (s.acquireStop va)
    let acc := s.th.serial
    change fun s => ((s.openAccess (Access.plain .off dest n false va false false)).offIssue req acc x e [(pa, 0, n)]).markEmpty dest
    done 1
  | _ => stall

/-- `fop` (R344). -/
def execFop (d a b : GReg) (ea eb : Bool) (q : Pred) (z : OpSize) (op : FopOp) : Exec :=
  runThread <| predicated q do
    let s ← operands [.rg a ea, .rg b eb, .wg d]
    let n := z.bytes
    atomicAccess (.fop op (8 * n)) (.fop op (8 * n)) ((s.readG a).toNat % 2 ^ 52) n ((s.readG b).toNat % 2 ^ (8 * n)) 0 (s.th.destOf d.toNat)

/-- `cas` (R345): D supplies the value expected and receives the old one. -/
def execCas (d a b : GReg) (ea eb : Bool) (q : Pred) (z : OpSize) : Exec :=
  runThread <| predicated q do
    let s ← operands [.rg a ea, .rg b eb, .rg d false]
    let n := z.bytes
    atomicAccess .cas .cas ((s.readG a).toNat % 2 ^ 52) n ((s.readG b).toNat % 2 ^ (8 * n)) ((s.readG d).toNat % 2 ^ (8 * n)) (s.th.destOf d.toNat)

end Sys2Proof.Machine
end

