-- ==== Sys2Proof/Machine/Mesh.lean ====
section
/-! DEFINITION. The mesh: routes, arrivals at routers, the choice among waiting flits in a cycle, delivery, and the confluence
buffers with their combining and reply splits (R18 to R22, R302, R347 to R356). -/

namespace Sys2Proof.Machine

/-! ### Routers, directions and routes (R18, R19, Table 1.1) -/

end Sys2Proof.Machine

namespace Sys2Proof
open Machine

/-- The router of a destination (Table 1.1). -/
def FlitEnd.node : FlitEnd → Nat
  | .core n | .router n => n
  | .off k => if k < 4 then k else if k < 8 then k + 8 else if k < 12 then 232 + k else 240 + k
  | .host => 7
  | .helm => 8
  | .bumen p => if p < 10 then 16 * (p + 3) else 16 * (p - 7) + 15

/-- The router port of an attachment: 0 north, 1 east, 2 south, 3 west (Table 1.1). -/
def FlitEnd.port : FlitEnd → Nat
  | .core _ | .router _ => 4
  | .off k => if k < 8 then 0 else 2
  | .host | .helm => 0
  | .bumen p => if p < 10 then 3 else 1

end Sys2Proof

namespace Sys2Proof.Machine

/-- The direction of the next hop on the dimension-ordered route (R19): along the row first. -/
def hopDir (n m : Nat) : Nat :=
  if n % 16 < m % 16 then 1 else if m % 16 < n % 16 then 3 else if n / 16 < m / 16 then 2 else 0

/-- The neighbour in a direction. -/
def neighbour (n dir : Nat) : Nat := if dir = 0 then n - 16 else if dir = 1 then n + 1 else if dir = 2 then n + 16 else n - 1

/-- The cycles of a hop (R18): 6 across the bridge, else 2. -/
def hopTime (n dir : Nat) : Nat := if (dir = 1 && n % 16 = 7) || (dir = 3 && n % 16 = 8) then 6 else 2

/-- The cycles of a dimension-ordered route (R302). -/
def routeTime : Nat → Nat → Nat → Nat
  | 0, _, _ => 0
  | fuel + 1, n, m => if n = m then 0 else let d := hopDir n m; hopTime n d + routeTime fuel (neighbour n d) m

/-- The input of a router at which a flit from a router arrives. -/
def inputFrom (h n : Nat) : Nat :=
  if h / 16 < n / 16 then 0 else if n / 16 < h / 16 then 2 else if h % 16 < n % 16 then 3 else 1

end Sys2Proof.Machine

namespace Sys2Proof
open Machine

/-- The egress of a router that a flit needs: a direction or an edge port (0 to 3), the local port towards a thread (4 to 7), or
towards the network interface (8) (R18). -/
def Flit.egress (f : Flit) (n : Nat) : Nat :=
  if f.dst.node != n then hopDir n f.dst.node
  else match f.dst, f.load with
    | .core _, .reply (.thread _ t _) _ | .core _, .refusal (.thread _ t _) _ | .core _, .reply (.record _ t) _ | .core _, .reply (.helm _ t _ _) _ =>
      4 + t % 4
    | .core _, _ => 8
    | d, _ => d.port

end Sys2Proof

namespace Sys2Proof.Machine

/-! ### Combinable requests (R347, R349) -/

end Sys2Proof.Machine

namespace Sys2Proof
open Machine

/-- Whether a request is combinable (R347). -/
def Req.combinable (r : Req) : Bool :=
  match r.op with
  | .fop _ _ => r.n == 4 || r.n == 8
  | _ => false

/-- Whether two combinable requests match (R347). -/
def Req.matches (r q : Req) : Bool := r.op == q.op && r.n == q.n && r.ctx == q.ctx && r.target == q.target && r.addr == q.addr

end Sys2Proof

namespace Sys2Proof.Machine

/-- The senders of a request's components (R350): a thread of another device under a core number of its own. -/
def State.sendersOf (s : State) (r : Req) : List (Nat × Nat) :=
  match r.ret with
  | .pair id => ((s.pairs.find? (·.id == id)).map (·.senders)).getD [(r.core, r.thr)]
  | .device d _ => [(256 * (d + 1) + r.core, r.thr)]
  | _ => [(r.core, r.thr)]

/-- Whether two requests share a sender. -/
def State.sharesSender (s : State) (r q : Req) : Bool := (s.sendersOf r).any fun x => (s.sendersOf q).contains x

/-! ### Bumen egress (R46, R355, R393) -/

/-- A port changed. -/
def State.modPort (s : State) (p : Nat) (f : Bumen → Bumen) : State :=
  match s.ports[p]? with
  | some b => { s with ports := s.ports.setIfInBounds p (f b) }
  | none => s

/-- The return path of a request. -/
def retOf (f : Flit) : RetPath := match f.load with
  | .request r => r.ret
  | _ => .none

/-- A request numbered as it reaches the port (R355). -/
def Bumen.number (b : Bumen) (ret : RetPath) : Bumen := { b with seq := b.seq + 1, numbers := b.numbers ++ [(ret, b.seq)] }

/-- The number of a request that has reached the port. -/
def Bumen.numberOf (b : Bumen) (ret : RetPath) : Option Nat := (b.numbers.find? (·.1 == ret)).map (·.2)

/-- Two requests combined at the port: the combined one keeps the first's number, and the second's is retired (R355). -/
def Bumen.join (b : Bumen) (first second both : RetPath) : Bumen :=
  { b with
    numbers := b.numbers.filterMap fun x => if x.1 == first then some (both, x.2) else if x.1 == second then none else some x
    retired := b.retired ++ (b.numberOf second).toList }

/-- A flit that leaves through a Bumen port takes its number there and waits its turn (R393). -/
def State.leave (s : State) (p : Nat) (f : Flit) : State :=
  s.modPort p fun b => match b.numberOf (retOf f) with
    | some n => { b with numbers := b.numbers.filter (·.1 != retOf f), held := b.held ++ [(n, f)] }
    | none => { b with seq := b.seq + 1, held := b.held ++ [(b.seq, f)] }

/-- The flit at a port's head sent, where the link is trained: one a cycle over eight lanes, one in two over four, one in four over two
(R18, R393). -/
def State.portTurn (s : State) (p : Nat) : State :=
  match s.ports[p]? with
  | some b =>
    match b.held with
    | (n, f) :: rest =>
      if b.trained && b.nextAt ≤ s.cycle then
        ({ s with outbox := s.outbox ++ [(⟨p, n, f⟩ : OutFlit)] }).modPort p fun b => { b with held := rest, nextAt := s.cycle + 8 / max 1 b.lanes }
      else s
    | [] => s
  | none => s

/-- Every port's turn in a cycle. -/
def State.portsMove (s : State) : State := (List.range 20).foldl State.portTurn s

/-- A flit that has nothing to wait for in a confluence buffer: it asks for its egress, or leaves through its Bumen port. -/
def State.enqueue (s : State) (node inp : Nat) (f : Flit) (ahead : Bool) (entry : Option Nat) : State :=
  if 256 ≤ node then s.leave (node - 256) f
  else { s with mesh := s.mesh ++ [⟨f, node, inp, s.cycle, true, ahead, entry⟩] }

/-! ### Confluence buffers (R348 to R350) -/

/-- An entry changed. -/
def State.modEntry (s : State) (id : Nat) (g : Entry → Entry) : State :=
  { s with entries := s.entries.map fun e => if e.id == id then g e else e }

/-- The request of an entry. -/
def Entry.req? (e : Entry) : Option Req := match e.flit.load with
  | .request r => some r
  | _ => none

/-- A request opens an entry in the buffer of its input and is held through the fourth cycle (R348). -/
def State.openEntry (s : State) (node inp : Nat) (f : Flit) : State :=
  let e : Entry := ⟨s.serial, node, inp, f, .held, false, []⟩
  ({ s with entries := s.entries ++ [e], serial := s.serial + 1 }).post (s.cycle + 4) (.confluenceForward node e.id)

/-- A request combines into an entry (R349): the operand becomes Op(a, b), and a and the return paths are kept. -/
def State.combine (s : State) (e : Entry) (r q : Req) : State :=
  match r.op with
  | .fop op lane =>
    let id := s.serial
    let pr : PairRec := ⟨id, e.id, e.node, r.ret, q.ret, s.sendersOf r ++ s.sendersOf q, e.flit.dst, op, lane, r.x⟩
    let both : Req := { r with ret := .pair id, x := fopApply op lane r.x q.x }
    let s := if 256 ≤ e.node then s.modPort (e.node - 256) (·.join r.ret q.ret (.pair id)) else s
    ({ s with pairs := s.pairs ++ [pr], serial := id + 1 }).modEntry e.id fun e =>
      { e with flit := { e.flit with load := .request both }, combined := true }
  | _ => s

/-- The input of a flit of the same sender and destination that has been released and stands at the router still, if any: a later flit follows
it directly (R350). -/
def State.follows (s : State) (node : Nat) (r : Req) : Option Nat :=
  (s.mesh.reverse.find? fun m => m.here && m.node == node && m.ahead && match m.flit.load with
    | .request q => q.target == r.target && s.sharesSender q r
    | _ => false).map (·.inp)

/-- `confluence_arrival` (R348, R350): a request arrives at a router or at a Bumen egress. It combines into a matching entry in its
hold; or waits behind the latest held request of its sender to its destination, or follows one that has been released and waits for its
link; or opens an entry if it is combinable and its input's buffer has room; or goes on. -/
def execConfluenceArrival (node inp : Nat) (f : Flit) : Exec := fun s =>
  .next <|
    match f.load with
    | .request r =>
      let s := if 256 ≤ node then s.modPort (node - 256) (·.number r.ret) else s
      let held := s.entries.filter fun e => e.node == node && e.st == .held
      let own := held.reverse.find? fun e => e.req?.any fun q => q.target == r.target && s.sharesSender q r
      let fits (e : Entry) : Bool := r.combinable && e.req?.any (·.matches r)
      let same := match own with
        | some e => if fits e then some e else none
        | none => held.find? fits
      match same, own, s.follows node r with
      | some e, _, none => (e.req?.map fun q => s.combine e q r).getD s
      | some e, some _, some _ => (e.req?.map fun q => s.combine e q r).getD s
      | _, some e, _ => s.modEntry e.id fun e => { e with behind := e.behind ++ [f] }
      | _, none, some i => s.enqueue node i f true none
      | none, none, none =>
        if r.combinable && (s.entries.filter fun e => e.node == node && e.inp == inp).length < 16 then s.openEntry node inp f
        else s.enqueue node inp f false none
    | _ => s.enqueue node inp f false none

/-- An entry whose request has left: a combining one keeps its place for the reply (R350). -/
def State.entryLeft (s : State) (id : Nat) : State :=
  { s with entries := s.entries.filterMap fun e => if e.id == id then (if e.combined then some { e with st := .forwarded } else none) else some e }

/-- `confluence_forward` (R348, R350): the hold ends; the request asks for its egress, and the flits held behind it follow it. -/
def execConfluenceForward (node id : Nat) : Exec := fun s =>
  .next <|
    match s.entries.find? fun e => e.id == id && e.node == node && e.st == .held with
    | none => s
    | some e =>
      let s := s.modEntry id fun e => { e with st := .leaving, behind := [] }
      let s := s.enqueue node e.inp e.flit true (some id)
      let s := if 256 ≤ node then s.entryLeft id else s
      e.behind.foldl (fun s f => s.enqueue node e.inp f true none) s

/-! ### Answers (R302, R349, R351) -/

/-- Where an answer travels: to the requester's core, or to the router that combined the request last. -/
def State.answerEnd (s : State) : RetPath → Option FlitEnd
  | .thread c _ _ | .record c _ | .engine c _ _ _ | .copy c _ _ | .helm c _ _ _ => some (.core c)
  | .pair id => (s.pairs.find? (·.id == id)).map fun p => if p.node < 256 then .router p.node else .bumen (p.node - 256)
  | .device d _ => (s.portTo d).map .bumen
  | .debug _ => some .helm
  | .none | .host _ _ => none

/-- An answer sent from an attachment or core: it stands at that router in the next cycle (R302). Replies are OP flits,
acknowledgements and refusals CT flits (R20, R305). -/
def State.sendAnswer (s : State) (home : FlitEnd) (ret : RetPath) (cls : TrafficClass) (load : Payload) : State :=
  match s.answerEnd ret with
  | none => s
  | some dst =>
    let f : Flit := ⟨cls, home.node, 4, dst, load⟩
    match home with
    | .core _ => s.send (s.cycle + 1) f
    | _ => s.inject (s.cycle + 1) home.node home.port f

/-- A part of a split answer (R351): on to its requester, or to the router of an earlier combining, which may be this one. -/
def State.splitPart (s : State) (p : PairRec) (ret : RetPath) (cls : TrafficClass) (load : Payload) (again : Instr) : State :=
  match s.answerEnd ret with
  | none => s
  | some dst =>
    let f : Flit := ⟨cls, p.node, 4, dst, load⟩
    if dst = (if 256 ≤ p.node then .bumen (p.node - 256) else .router p.node) then s.post s.cycle again
    else if 256 ≤ p.node then s.inject (s.cycle + 1) (FlitEnd.bumen (p.node - 256)).node (FlitEnd.bumen (p.node - 256)).port f
    else s.enqueue p.node (if p.dst.node = p.node then p.dst.port else inputFrom p.dst.node p.node) f false none

/-- A combining record taken by its answer: its entry's place is free (R350). -/
def State.takePair (s : State) (p : PairRec) : State :=
  { s with pairs := s.pairs.filter (·.id != p.id), entries := s.entries.filter (·.id != p.entry) }

/-- `confluence_reply_split` (R349, R351): the first request receives v, the second Op(v, a). -/
def execConfluenceReplySplit (node id value : Nat) : Exec := fun s =>
  .next <|
    match s.pairs.find? fun p => p.id == id && p.node == node with
    | none => s
    | some p =>
      let w := value % 2 ^ p.laneBits
      let second := fopApply p.op p.laneBits w p.a
      let part (s : State) (ret : RetPath) (x : Nat) : State :=
        s.splitPart p ret .openOp (.reply ret x) (match ret with | .pair i => .confluenceReplySplit node i x | _ => .replyArrival ret x)
      part (part (s.takePair p) p.first w) p.second second

/-- A refusal reaches every component (R354). -/
def State.splitRefusal (s : State) (id reason : Nat) : State :=
  match s.pairs.find? (·.id == id) with
  | none => s
  | some p =>
    let part (s : State) (ret : RetPath) : State := s.splitPart p ret .control (.refusal ret reason) (.refusalArrival ret reason)
    part (part (s.takePair p) p.first) p.second

/-! ### Delivery -/

/-- A router's answer to a hold has reached the Almanac that asked; with the last the commit is resolved (R211). -/
def State.holdAnswered (s : State) (c : Nat) : State :=
  match (s.coreAt c).almanac.commit with
  | none => s
  | some cm =>
    let s := s.modCore c fun k => { k with almanac := { k.almanac with commit := some { cm with pending := cm.pending - 1 } } }
    if cm.pending = 1 then s.postOnce (max cm.due (s.cycle + 1)) .linkCommit else s

/-- A flit given to what stands at its destination, in the cycle after it was forwarded (R302, R348): a core's agent, threads, Almanac or
network interface, an off-stack controller, whose action has no bound (R34), the helm, which answers within none (R370), the host
interface, or a Bumen egress. -/
def State.deliver (s : State) (f : Flit) : State :=
  let s := match f.dst with
    | .core n => if f.cls == .openOp then s.modCore n fun k => { k with net := { k.net with received := k.net.received + 1 } } else s
    | _ => s
  let free := Config.freeDelay s.fresh
  match f.dst, f.load with
  | .bumen p, _ => s.post (s.cycle + 1) (.confluenceArrival (256 + p) 0 f)
  | .off k, .request r =>
    let q := (s.offQueues[k]?).getD []
    (({ s with offQueues := s.offQueues.setIfInBounds k (q ++ [(⟨r, s.cycle + 1⟩ : OffAcc)]) }).post (s.cycle + 1 + free)
      (.offstackRequest k)).tickFree
  | .helm, .call c t ctx fn a d => (s.post (s.cycle + 1 + free) (.syscService c t ctx fn a d)).tickFree
  | .host, .completion id =>
    { s with host := { s.host with coming := s.host.coming.map fun x => if x.1 == id then (id, x.2.1, true) else x } }
  | .core c, .token ctx black =>
    s.onCtx c ctx fun k => k.modTasks fun q => { q with token := true, tokenBlack := black, tokenNew := false, tokenAt := s.cycle + 1 }
  | .core c, .heldBy _ => s.holdAnswered c
  | _, _ => match f.arrival with
    | some i => s.post (s.cycle + 1) i
    | none => s

/-! ### The choice among waiting flits (R18, R20) -/

/-- An item put into a list before the first that it does not follow. -/
def insertBy {α : Type} (le : α → α → Bool) (x : α) : List α → List α
  | [] => [x]
  | y :: r => if le x y then x :: y :: r else y :: insertBy le x r

/-- A list sorted, equal items keeping their order. -/
def sortBy {α : Type} (le : α → α → Bool) (l : List α) : List α := l.foldr (insertBy le) []

/-- The order of the flits of one input: those that follow a forwarded entry, then by arrival, then by thread (R20, R350). -/
def MeshFlit.before (a b : MeshFlit) : Bool :=
  if a.ahead != b.ahead then a.ahead
  else if a.at_ != b.at_ then a.at_ < b.at_
  else a.ahead || a.flit.thr ≤ b.flit.thr

/-- The port of a router that an egress belongs to: the local port's lanes have one port (R18, R20). -/
def portOfEgress (e : Nat) : Nat := min e 4

/-- The input at which the round-robin pointer of a port and a class stands (R20). -/
def State.pointer (s : State) (n e : Nat) (c : TrafficClass) : Nat :=
  ((s.pointers.find? fun p => p.1 == n && p.2.1 == e && p.2.2.1 == c).map (·.2.2.2)).getD 0

/-- The pointer moved to the input that follows the one served. -/
def State.setPointer (s : State) (n e : Nat) (c : TrafficClass) (inp : Nat) : State :=
  let rest := s.pointers.filter fun p => !(p.1 == n && p.2.1 == e && p.2.2.1 == c)
  { s with pointers := if (inp + 1) % 5 = 0 then rest else rest ++ [(n, e, c, (inp + 1) % 5)] }

/-- Whether a booking holds the current tick of a router's egress link (R20, R196). -/
def State.linkBooked (s : State) (n e : Nat) : Bool :=
  s.links.any fun l => l.committed && l.node == n && l.dir == e && l.first ≤ s.tick && s.tick ≤ l.last

/-- The flits of a class in the buffer of a router's input, and, for a link's sender, those on their way to it (R20): a flit in its place of
the confluence buffer is not among them, one held behind an entry is. -/
def State.inputLoad (s : State) (node inp : Nat) (c : TrafficClass) (coming : Bool) : Nat :=
  (s.mesh.filter fun m => m.node == node && m.inp == inp && m.flit.cls == c && m.entry.isNone && (m.here || coming)).length +
    (if c == .openOp then (s.entries.filter fun e => e.node == node && e.inp == inp).foldl (fun n e => n + e.behind.length) 0 else 0)

/-- Whether a waiting flit's egress can take it in this cycle: a mesh link only in a tick that no booking holds and with room in the
buffer at its end; the local port's agent only with a place in its queue (R20, R300). -/
def State.takes (s : State) (n : Nat) (f : Flit) : Bool :=
  if f.dst.node != n then
    let d := hopDir n f.dst.node
    !s.linkBooked n d && s.inputLoad (neighbour n d) ((d + 2) % 4) f.cls true ≤ Config.inputDepth
  else match f.dst, f.load with
    | .core c, .request _ => (s.coreAt c).agent.queue.length < 32
    | _, _ => true

/-- What a port of a router serves among candidates that its egresses can take, given by their places, from its pointers on: CT before OP;
among OP flits those that follow a forwarded entry first; then round robin among the inputs; of the local port one flit to each thread and
one to the network interface (R18, R20, R350). -/
def servePort (n : Nat) (port : Nat) : Nat → (TrafficClass → Nat) → List (Nat × MeshFlit) → List Nat
  | 0, _, _ => []
  | fuel + 1, ptr, cs =>
    let cls : TrafficClass := if cs.any (·.2.flit.cls == .control) then .control else .openOp
    let of := cs.filter (·.2.flit.cls == cls)
    let first := of.filter fun c => c.2.ahead && c.2.entry.isNone
    let pool := if first.isEmpty then of else first
    match (List.range 5).findSome? fun i => pool.find? (·.2.inp == (ptr cls + i) % 5) with
    | none => []
    | some (i, m) =>
      let e := m.flit.egress n
      i :: servePort n port fuel (fun c => if c == cls then (m.inp + 1) % 5 else ptr c) (cs.filter fun c => c.2.flit.egress n != e)

/-- The OP flits that one input holds back because a flit ahead of them does not move (R20). -/
def heldBack (won : List Nat) : List (Nat × MeshFlit) → List Nat
  | [] => []
  | (i, _) :: r => if won.contains i then heldBack won r else r.map (·.1)

/-- The flits of a router that move in a cycle, port by port in the order they are served: with the flits held back taken out until
nothing changes. -/
def State.movers (s : State) (n : Nat) (cs : List (Nat × MeshFlit)) : Nat → List Nat → List Nat
  | 0, _ => []
  | fuel + 1, back =>
    let free := cs.filter fun c => !back.contains c.1
    let won := (List.range 5).flatMap fun p => servePort n p 5 (s.pointer n p) (free.filter fun c => portOfEgress (c.2.flit.egress n) == p)
    let more := (List.range 5).flatMap fun i => heldBack won (cs.filter fun c => c.2.inp == i && c.2.flit.cls == .openOp)
    if more.all back.contains then won else s.movers n cs fuel (back ++ more)

/-- One flit moved out of a router: over a link, or delivered. -/
def State.moveFlit (s : State) (n : Nat) (m : MeshFlit) : State :=
  let e := m.flit.egress n
  let s := s.setPointer n (portOfEgress e) m.flit.cls m.inp
  let s := match m.entry with
    | some id => s.entryLeft id
    | none => s
  if m.flit.dst.node != n then s.inject (s.cycle + hopTime n e) (neighbour n e) ((e + 2) % 4) m.flit else s.deliver m.flit

/-- One router's flits moved in this cycle, as the buffers stood when it began. -/
def State.moveRouter (s0 : State) (s : State) (n : Nat) : State :=
  let cs := (sortBy MeshFlit.before (s0.mesh.filter fun m => m.here && m.node == n)).zipIdx.map fun (m, i) => (i, m)
  let back := (cs.filter fun c => !s0.takes n c.2.flit).map (·.1)
  let won := s0.movers n cs (cs.length + 1) back
  let stay := (cs.filter fun c => !won.contains c.1).map (·.2)
  let s := { s with mesh := s.mesh.filter (fun m => !(m.here && m.node == n)) ++ stay }
  won.foldl (fun s i => match cs.find? (·.1 == i) with
    | some (_, m) => s.moveFlit n m
    | none => s) s

/-- Every router's flits moved in this cycle, and every Bumen port's. -/
def State.meshMove (s : State) : State :=
  (((s.mesh.filter (·.here)).map (·.node)).eraseDups.foldl (State.moveRouter s) s).portsMove

/-- The lane of a router input that a flit comes in by: of the local input one for each thread and one for the network interface (R18). -/
def MeshFlit.lane (m : MeshFlit) : Nat × Nat × Nat := (m.node, m.inp, if m.inp = 4 then min m.flit.thr 4 else 0)

/-- A flit that arrives at a router: a request meets the confluence buffer, an answer to a combining router splits, a link commit's holds
are asked of the router (R211), and the others ask for their egress. -/
def State.arriveAt (s : State) (m : MeshFlit) : State :=
  let stays (s : State) : State := { s with mesh := s.mesh ++ [{ m with at_ := s.cycle, here := true }] }
  match m.flit.dst, m.flit.load with
  | .router n, .reply (.pair id) v => if n = m.node then s.post s.cycle (.confluenceReplySplit n id v) else stays s
  | .router n, .refusal (.pair id) r => if n = m.node then s.post s.cycle (.refusalArrival (.pair id) r) else stays s
  | .router n, .holds hs =>
    let mine := hs.filter (·.node == m.node)
    let s := mine.foldl (fun s h => s.post s.cycle (.linkHoldRequest h)) s
    let s := if mine.isEmpty then s else s.enqueue m.node 4 ⟨.control, m.node, 4, .core m.flit.core, .heldBy m.flit.core⟩ false none
    if n = m.node then s else stays s
  | _, .request _ => s.post s.cycle (.confluenceArrival m.node m.inp m.flit)
  | _, _ => stays s

/-- The flits that arrive at a router in this cycle, inputs in order and threads in order within the local one (R348): one in each lane of
an input, with room in its buffer; the others wait before it (R18, R20; DESIGN CHOICE, log entry 82). -/
def State.meshArrive (s : State) : State :=
  let due (m : MeshFlit) : Bool := !m.here && m.at_ ≤ s.cycle
  let le (a b : MeshFlit) : Bool := if a.node != b.node then a.node < b.node else if a.inp != b.inp then a.inp < b.inp else a.flit.thr ≤ b.flit.thr
  let new := sortBy le (s.mesh.filter due)
  let s := { s with mesh := s.mesh.filter fun m => !due m }
  let load (m : MeshFlit) : Nat := s.inputLoad m.node m.inp m.flit.cls false
  (new.foldl (fun (x : State × List MeshFlit) m =>
    let same := x.2.filter fun q => q.node == m.node && q.inp == m.inp
    if same.any (fun q => q.lane == m.lane) || Config.inputDepth < load m + (same.filter (·.flit.cls == m.flit.cls)).length then
      ({ x.1 with mesh := x.1.mesh ++ [m] }, x.2)
    else (x.1.arriveAt m, x.2 ++ [m])) (s, [])).1

end Sys2Proof.Machine
end

