-- ==== Sys2Proof/Machine/Completion.lean ====
section
/-! DEFINITION. Completion records: their layout, the ring in host memory, the records held while the ring cannot take them, and
the signal that follows them (R389, R392, R394). -/

namespace Sys2Proof.Machine

/-- The kinds of journal entry; this one is a fatal record (R366). -/
def journalFatal : Nat := 1
/-- A launch accepted or refused (R312). -/
def journalLaunch : Nat := 2
/-- A completion record (R44). -/
def journalCompletion : Nat := 3
/-- A ring record moved (R365). -/
def journalRescue : Nat := 4
/-- A stop record of a core (R381). -/
def journalStop : Nat := 5
/-- A link event (R393). -/
def journalLink : Nat := 6
/-- A thermal trip (R387). -/
def journalTrip : Nat := 7
/-- A lane repair with no context on its core (R175). -/
def journalLane : Nat := 8

/-- A BAR2 record (R394). -/
def journalBar2 : Nat := 9
/-- FATAL_IMEM (R366). -/
def journalImem : Nat := 10

/-- The 32 bytes of a completion record (Table 14.12). -/
def Completion.word (r : Completion) : Nat :=
  r.tag % 2 ^ 32 + r.kind % 256 * 2 ^ 32 + r.reason % 256 * 2 ^ 40 + r.ctx % 2 ^ 16 * 2 ^ 48 + r.status % 2 ^ 64 * 2 ^ 64
  + r.ss % 2 ^ 32 * 2 ^ 128 + r.core % 16 * 2 ^ 160 + r.core / 16 % 16 * 2 ^ 168 + r.thr % 256 * 2 ^ 176 + r.cycle % 2 ^ 64 * 2 ^ 192

/-- EN of CRCTL (Table 14.15). -/
def HostIf.ringOn (h : HostIf) : Bool := bitOf h.crctl 8

/-- The number of completion slots. -/
def HostIf.ringSlots (h : HostIf) : Nat := 2 ^ (h.crctl % 32)

/-- Whether the completion ring takes a record (R392). -/
def HostIf.ringOpen (h : HostIf) : Bool := h.ringOn && (h.crprod + 2 ^ 32 - h.crcons % 2 ^ 32) % 2 ^ 32 < h.ringSlots

/-- The records that the ring takes, written in order (R392). -/
def HostIf.writeHeld : List Completion → HostIf → HostIf
  | [], h => { h with held := [] }
  | r :: rs, h =>
    if h.ringOpen then
      HostIf.writeHeld rs { h with
        mem := memSetN h.mem (h.crbase + 32 * (h.crprod % h.ringSlots)) 32 r.word
        crprod := (h.crprod + 1) % 2 ^ 32 }
    else { h with held := r :: rs }

/-- The held completion records that the ring takes are written, unless a takeover holds them (R394); MSI-X vector 1 is signalled
after a write, no more than once in 850 cycles (R392). -/
def State.drainCompletions (s : State) : State :=
  if s.helm.role == .takeover || s.host.held.isEmpty then s
  else
    let h := HostIf.writeHeld s.host.held s.host
    let wrote := h.held.length < s.host.held.length
    let s := { s with host := h }
    if !wrote then s
    else
      let due := match s.host.lastMsix1 with
        | some c => max s.cycle (c + 850)
        | none => s.cycle
      if s.agenda.any (·.2 == .msixVector1Signal) then s else s.post due .msixVector1Signal

/-- The completion records of events that have reached the host interface, written in the order of their events as far as none before them
is on its way (R389). -/
def HostIf.land : List (Nat × Completion × Bool) → HostIf → HostIf
  | [], h => { h with coming := [] }
  | (id, r, here) :: rest, h => if here then HostIf.land rest { h with held := h.held ++ [r] } else { h with coming := (id, r, here) :: rest }

/-- The completion records that can be written in this cycle. -/
def State.landCompletions (s : State) : State := { s with host := s.host.land s.host.coming }.drainCompletions

/-- A completion record made at the host interface: journalled (R44), and written in its turn (R389). -/
def State.complete (s : State) (r : Completion) : State :=
  let s := s.journal journalCompletion r.ctx r.core r.kind r.tag (leBytes 32 r.word)
  { s with host := { s.host with coming := s.host.coming ++ [(s.serial, r, true)] }, serial := s.serial + 1 }.landCompletions

/-- A completion record of an event on a core: journalled (R44), and sent to the host interface as a CT flit (R20, R21; DESIGN CHOICE, log
entry 83); a core in replay sends none (R383). -/
def State.completeFrom (s : State) (c : Nat) (r : Completion) : State :=
  if (s.coreAt c).net.replay.isSome then s
  else
    let s := s.journal journalCompletion r.ctx r.core r.kind r.tag (leBytes 32 r.word)
    let id := s.serial
    { s with host := { s.host with coming := s.host.coming ++ [(id, r, false)] }, serial := id + 1 }.send (s.cycle + 1)
      ⟨.control, c, 4, .host, .completion id⟩

end Sys2Proof.Machine
end

