-- ==== Sys2Proof/Machine/BumenLink.lean ====
section
/-! DEFINITION. The events of the Bumen links: retry, lane degrade, reroute and retrain, each logged by the helm (R46, R393,
Table 14.13). -/

namespace Sys2Proof.Machine

/-- A port changed, with the event in the helm's journal (R393). -/
def State.linkEvent (s : State) (port kind : Nat) (f : Bumen → Bumen) : State :=
  match s.ports[port]? with
  | none => s
  | some b => { s with ports := s.ports.setIfInBounds port (f b) }.journal journalLink 0 0 port kind []

/-- `flit_crc_retry` (R393): the flit is sent again from the replay buffer, in order. -/
def execFlitCrcRetry (port : Nat) : Exec := fun s => .next (s.linkEvent port 0 fun b => { b with replays := b.replays + 1 })

/-- `lane_degrade` (R393): from 8 lanes to 4, then to 2. -/
def execLaneDegrade (port : Nat) : Exec := fun s => .next (s.linkEvent port 1 fun b => { b with lanes := if 4 < b.lanes then 4 else 2 })

/-- `link_reroute` (R393): through the alternate switch plane; sequence numbers restore the order. -/
def execLinkReroute (port : Nat) : Exec := fun s => .next (s.linkEvent port 2 fun b => { b with alternate := !b.alternate })

/-- The bound of a retrain: 30 µs (R393). -/
def retrainBound : Nat := 25500

/-- `retrain` (R393): traffic is held at the sender until the link is trained again, within 30 µs. -/
def execRetrain (port : Nat) : Exec := fun s =>
  .next <|
    let s := s.linkEvent port 3 fun b => { b with trained := false }
    if port < 20 then (s.post (s.cycle + 1 + Config.freeDelay s.fresh % retrainBound) (.retrainComplete port)).tickFree else s

/-- `retrain_complete` (R356, R393): the held traffic leaves in order, at the lanes' rate; the switch states whether it combines. -/
def execRetrainComplete (port : Nat) : Exec := fun s =>
  .next <|
    match s.ports[port]? with
    | none => s
    | some _ =>
      let s := s.linkEvent port 4 fun b => { b with trained := true, combining := Config.freePick s.fresh }
      { s with fresh := s.fresh + 1 }

end Sys2Proof.Machine
end

