-- ==== Sys2Proof/Machine/Vector.lean ====
section
/-! DEFINITION. The vector class: floating and integer lane operations, permutes, reductions, dot products and register moves
(R133 to R147). -/

namespace Sys2Proof.Machine

/-! ### Shapes of the vector instructions -/

/-- A vector instruction: its operands checked, a group written with a latency, and flags set at retirement (R96, R134). -/
def vecOp (us : List Use) (d : VReg) (regs : Nat) (f : State → Nat × Nat) (lat cost : Nat) : Act Done := do
  let s ← operands (us ++ [.wv d regs])
  let r := f s
  change fun s' => (s'.writeV d regs r.1 lat).setFlags r.2
  done cost

/-- The lanes of a grouped operand (R133). -/
def laneCount (w : Grp) (t : ElemTy) : Nat := 512 * w.regs / t.bits

/-- A one-source operation on float lanes, in FPSR[1:0], with latency g + extra (Table 5.1). -/
def lanes1 (op : Rnd → FFmt → Nat → Nat × Nat) (extra : Nat) (d a : VReg) (w : Grp) (t : ElemTy) : Act Done :=
  vecOp [.rv a w.regs] d w.regs (fun s =>
    let x := s.readV a w.regs
    mapLanes t.bits (laneCount w t) fun i => op s.rm t.ffmt (laneOf x t.bits i)) (w.regs + extra) w.regs

/-- A two-source operation on float lanes. -/
def lanes2 (op : Rnd → FFmt → Nat → Nat → Nat × Nat) (extra : Nat) (d a b : VReg) (w : Grp) (t : ElemTy) : Act Done :=
  vecOp [.rv a w.regs, .rv b w.regs] d w.regs (fun s =>
    let x := s.readV a w.regs
    let y := s.readV b w.regs
    mapLanes t.bits (laneCount w t) fun i => op s.rm t.ffmt (laneOf x t.bits i) (laneOf y t.bits i)) (w.regs + extra) w.regs

/-- A two-source operation on float lanes that also reads VD. -/
def lanes3 (op : Rnd → FFmt → Nat → Nat → Nat → Nat × Nat) (extra : Nat) (d a b : VReg) (w : Grp) (t : ElemTy) : Act Done :=
  vecOp [.rv a w.regs, .rv b w.regs, .rv d w.regs] d w.regs (fun s =>
    let x := s.readV a w.regs
    let y := s.readV b w.regs
    let z := s.readV d w.regs
    mapLanes t.bits (laneCount w t) fun i => op s.rm t.ffmt (laneOf x t.bits i) (laneOf y t.bits i) (laneOf z t.bits i))
    (w.regs + extra) w.regs

/-- A two-source operation on the bits of lanes: exact on naturals, cut to the lane (R142). -/
def bitLanes (op : Nat → Nat → Nat → Nat) (d a b : VReg) (w : Grp) (t : ElemTy) : Act Done :=
  vecOp [.rv a w.regs, .rv b w.regs] d w.regs (fun s =>
    let x := s.readV a w.regs
    let y := s.readV b w.regs
    mapLanes t.bits (laneCount w t) fun i => (op t.bits (laneOf x t.bits i) (laneOf y t.bits i), 0)) (w.regs + 1) w.regs

/-- A two-source operation on integer lanes: exact on integers, cut to the lane (R142). -/
def intLanes (op : Nat → Int → Int → Int) (extra : Nat) (d a b : VReg) (w : Grp) (t : ElemTy) : Act Done :=
  vecOp [.rv a w.regs, .rv b w.regs] d w.regs (fun s =>
    let x := s.readV a w.regs
    let y := s.readV b w.regs
    mapLanes t.bits (laneCount w t) fun i => (cutTo t.bits (op t.bits (t.int (laneOf x t.bits i)) (t.int (laneOf y t.bits i))), 0))
    (w.regs + extra) w.regs

/-- The same with the lane of VD as third operand. -/
def intLanes3 (op : Nat → Int → Int → Int → Int) (extra : Nat) (d a b : VReg) (w : Grp) (t : ElemTy) : Act Done :=
  vecOp [.rv a w.regs, .rv b w.regs, .rv d w.regs] d w.regs (fun s =>
    let x := s.readV a w.regs
    let y := s.readV b w.regs
    let z := s.readV d w.regs
    mapLanes t.bits (laneCount w t) fun i =>
      (cutTo t.bits (op t.bits (t.int (laneOf x t.bits i)) (t.int (laneOf y t.bits i)) (t.int (laneOf z t.bits i))), 0))
    (w.regs + extra) w.regs

/-! ### Lane functions of Table 5.3 -/

/-- A comparison's lane (R139). -/
def compareLane (f : FFmt) (r : FRel) (x y : Nat) : Nat × Nat :=
  let (b, fl) := f.compare r x y
  (maskIf f.bits b, fl)

/-- A lane rounded to an integral value (R137, R138): never inexact; a zero result keeps the sign. -/
def FFmt.rndi (f : FFmt) (mode : Rnd) (x : Nat) : Nat × Nat :=
  match f.value x with
  | .nan sig => (f.nan, if sig then flagNV else 0)
  | .inf _ => (x, 0)
  | .fin neg m e => ((f.round mode false neg ⟨(roundInt mode neg ⟨m, e, false⟩).1.natAbs, 0, false⟩).1, 0)

/-- The bit of `vclass` (Table 5.5). -/
def FFmt.classOf (f : FFmt) (x : Nat) : Nat :=
  match f.value x with
  | .nan sig => if sig then 8 else 9
  | .inf neg => if neg then 0 else 7
  | .fin neg m _ =>
    if m = 0 then (if neg then 3 else 4)
    else if m < 2 ^ f.fb then (if neg then 2 else 5)
    else if neg then 1 else 6

/-- `vgetexp` (R141). -/
def FFmt.getexp (f : FFmt) (x : Nat) : Nat × Nat :=
  match f.value x with
  | .nan _ => (2 ^ (f.bits - 1), flagNV)
  | .inf _ => (2 ^ (f.bits - 1) - 1, 0)
  | .fin _ m e => if m = 0 then (2 ^ (f.bits - 1), flagDZ) else (cutTo f.bits (e + m.log2), 0)

/-- `vexpins` (R141): a × 2^k rounded once in RNE. -/
def FFmt.expins (f : FFmt) (x k : Nat) : Nat × Nat :=
  match f.value x with
  | .nan sig => (f.nan, if sig then flagNV else 0)
  | .inf _ => (x, 0)
  | .fin neg m e => if m = 0 then (x, 0) else f.round .rne false neg ⟨m, e + signedOf f.bits k, false⟩

end Sys2Proof.Machine

namespace Sys2Proof
open Machine

/-- The mode of `vrndi` (R137). -/
def RndSel.mode (m : RndSel) (dyn : Rnd) : Rnd :=
  match m with
  | .rne => .rne
  | .rtz => .rtz
  | .rdn => .rdn
  | .rup => .rup
  | .dyn => dyn

end Sys2Proof

namespace Sys2Proof.Machine

/-! ### Floating lane operations (Table 5.3) -/

/-- `vadd` on a float type (R137). -/
def execVaddF (d a b : VReg) (w : Grp) (t : ElemTy) : Exec :=
  runThread (lanes2 (fun m f x y => f.addR m (f.value x) (f.value y)) 3 d a b w t)

/-- `vsub` on a float type (R137). -/
def execVsubF (d a b : VReg) (w : Grp) (t : ElemTy) : Exec :=
  runThread (lanes2 (fun m f x y => f.addR m (f.value x) (f.value y).neg) 3 d a b w t)

/-- `vmul` on a float type (R137). -/
def execVmulF (d a b : VReg) (w : Grp) (t : ElemTy) : Exec :=
  runThread (lanes2 (fun m f x y => f.mulR m (f.value x) (f.value y)) 3 d a b w t)

/-- `vfma` (R137). -/
def execVfma (d a b : VReg) (w : Grp) (t : ElemTy) : Exec :=
  runThread (lanes3 (fun m f x y z => f.fmaR m (f.value x) (f.value y) (f.value z)) 3 d a b w t)

/-- `vfms` (R137). -/
def execVfms (d a b : VReg) (w : Grp) (t : ElemTy) : Exec :=
  runThread (lanes3 (fun m f x y z => f.fmaR m (f.value x) (f.value y) (f.value z).neg) 3 d a b w t)

/-- `vmin` on a float type (R140). -/
def execVminF (d a b : VReg) (w : Grp) (t : ElemTy) : Exec :=
  runThread (lanes2 (fun _ f x y => f.minmax true false x y) 3 d a b w t)

/-- `vmax` on a float type (R140). -/
def execVmaxF (d a b : VReg) (w : Grp) (t : ElemTy) : Exec :=
  runThread (lanes2 (fun _ f x y => f.minmax false false x y) 3 d a b w t)

/-- `vminn` on a float type (R140). -/
def execVminn (d a b : VReg) (w : Grp) (t : ElemTy) : Exec :=
  runThread (lanes2 (fun _ f x y => f.minmax true true x y) 3 d a b w t)

/-- `vmaxn` on a float type (R140). -/
def execVmaxn (d a b : VReg) (w : Grp) (t : ElemTy) : Exec :=
  runThread (lanes2 (fun _ f x y => f.minmax false true x y) 3 d a b w t)

/-- `vabs` (R137). -/
def execVabs (d a : VReg) (w : Grp) (t : ElemTy) : Exec :=
  runThread (lanes1 (fun _ f x => (x % f.sign, 0)) 1 d a w t)

/-- `vneg` (R137). -/
def execVneg (d a : VReg) (w : Grp) (t : ElemTy) : Exec :=
  runThread (lanes1 (fun _ f x => ((x + f.sign) % (2 * f.sign), 0)) 1 d a w t)

/-- `vcpsgn` on a float type (R137). -/
def execVcpsgn (d a b : VReg) (w : Grp) (t : ElemTy) : Exec :=
  runThread (lanes2 (fun _ f x y => (x % f.sign + y / f.sign * f.sign, 0)) 1 d a b w t)

/-- `vrndi` (R137, R138): a fixed mode, or FPSR[1:0]. -/
def execVrndi (d a : VReg) (m : RndSel) (w : Grp) (t : ElemTy) : Exec :=
  runThread (lanes1 (fun dyn f x => f.rndi (m.mode dyn) x) 1 d a w t)

/-- `vceq` on a float type (R139). -/
def execVceqF (d a b : VReg) (w : Grp) (t : ElemTy) : Exec :=
  runThread (lanes2 (fun _ f x y => compareLane f .eq x y) 1 d a b w t)

/-- `vclt` on a float type (R139). -/
def execVcltF (d a b : VReg) (w : Grp) (t : ElemTy) : Exec :=
  runThread (lanes2 (fun _ f x y => compareLane f .lt x y) 1 d a b w t)

/-- `vcle` on a float type (R139). -/
def execVcle (d a b : VReg) (w : Grp) (t : ElemTy) : Exec :=
  runThread (lanes2 (fun _ f x y => compareLane f .le x y) 1 d a b w t)

/-- `vcun` on a float type (R139). -/
def execVcun (d a b : VReg) (w : Grp) (t : ElemTy) : Exec :=
  runThread (lanes2 (fun _ f x y => compareLane f .un x y) 1 d a b w t)

/-- `vclass` (R141). -/
def execVclass (d a : VReg) (w : Grp) (t : ElemTy) : Exec :=
  runThread (lanes1 (fun _ f x => (2 ^ f.classOf x, 0)) 1 d a w t)

/-- `vgetexp` (R141). -/
def execVgetexp (d a : VReg) (w : Grp) (t : ElemTy) : Exec :=
  runThread (lanes1 (fun _ f x => f.getexp x) 1 d a w t)

/-- `vexpins` on a float type (R141). -/
def execVexpins (d a b : VReg) (w : Grp) (t : ElemTy) : Exec :=
  runThread (lanes2 (fun _ f x y => f.expins x y) 3 d a b w t)

/-! ### Integer lane operations (Table 5.6) -/

/-- `vadd` on an integer type (R142). -/
def execVaddI (d a b : VReg) (w : Grp) (t : ElemTy) : Exec :=
  runThread (intLanes (fun _ a b => a + b) 1 d a b w t)

/-- `vsub` on an integer type (R142). -/
def execVsubI (d a b : VReg) (w : Grp) (t : ElemTy) : Exec :=
  runThread (intLanes (fun _ a b => a - b) 1 d a b w t)

/-- `vmul` on an integer type (R142). -/
def execVmulI (d a b : VReg) (w : Grp) (t : ElemTy) : Exec :=
  runThread (intLanes (fun _ a b => a * b) 3 d a b w t)

/-- `vmulh` on an integer type (R142). -/
def execVmulh (d a b : VReg) (w : Grp) (t : ElemTy) : Exec :=
  runThread (intLanes (fun w a b => a * b / (2 ^ w : Nat)) 3 d a b w t)

/-- `vadds` on an integer type (R142). -/
def execVadds (d a b : VReg) (w : Grp) (t : ElemTy) : Exec :=
  runThread (intLanes (fun _ a b => t.clamp (a + b)) 1 d a b w t)

/-- `vsubs` on an integer type (R142). -/
def execVsubs (d a b : VReg) (w : Grp) (t : ElemTy) : Exec :=
  runThread (intLanes (fun _ a b => t.clamp (a - b)) 1 d a b w t)

/-- `vmin` on an integer type (R142). -/
def execVminI (d a b : VReg) (w : Grp) (t : ElemTy) : Exec :=
  runThread (intLanes (fun _ a b => min a b) 1 d a b w t)

/-- `vmax` on an integer type (R142). -/
def execVmaxI (d a b : VReg) (w : Grp) (t : ElemTy) : Exec :=
  runThread (intLanes (fun _ a b => max a b) 1 d a b w t)

/-- `vavg` on an integer type (R142). -/
def execVavg (d a b : VReg) (w : Grp) (t : ElemTy) : Exec :=
  runThread (intLanes (fun _ a b => (a + b + 1) / 2) 1 d a b w t)

/-- `vabsd` on an integer type (R142). -/
def execVabsd (d a b : VReg) (w : Grp) (t : ElemTy) : Exec :=
  runThread (intLanes (fun _ a b => (a - b).natAbs) 1 d a b w t)

/-- `vsll` (R142). -/
def execVsll (d a b : VReg) (w : Grp) (t : ElemTy) : Exec :=
  runThread (bitLanes (fun w a b => if w ≤ b then 0 else a * 2 ^ b) d a b w t)

/-- `vsrl` (R142). -/
def execVsrl (d a b : VReg) (w : Grp) (t : ElemTy) : Exec :=
  runThread (bitLanes (fun w a b => if w ≤ b then 0 else a / 2 ^ b) d a b w t)

/-- `vsra` (R142). -/
def execVsra (d a b : VReg) (w : Grp) (t : ElemTy) : Exec :=
  runThread (bitLanes (fun w a b => cutTo w (signedOf w a / (2 ^ min b (w - 1) : Nat))) d a b w t)

/-- `vand` (R142). -/
def execVand (d a b : VReg) (w : Grp) (t : ElemTy) : Exec :=
  runThread (bitLanes (fun _ a b => Nat.land a b) d a b w t)

/-- `vor` (R142). -/
def execVor (d a b : VReg) (w : Grp) (t : ElemTy) : Exec :=
  runThread (bitLanes (fun _ a b => Nat.lor a b) d a b w t)

/-- `vxor` (R142). -/
def execVxor (d a b : VReg) (w : Grp) (t : ElemTy) : Exec :=
  runThread (bitLanes (fun _ a b => Nat.xor a b) d a b w t)

/-- `vandn` (R142). -/
def execVandn (d a b : VReg) (w : Grp) (t : ElemTy) : Exec :=
  runThread (bitLanes (fun w a b => Nat.land a (2 ^ w - 1 - b)) d a b w t)

/-- `vceqI` (R142). -/
def execVceqI (d a b : VReg) (w : Grp) (t : ElemTy) : Exec :=
  runThread (bitLanes (fun w a b => maskIf w (a == b)) d a b w t)

/-- `vclt` on an integer type (R142). -/
def execVcltI (d a b : VReg) (w : Grp) (t : ElemTy) : Exec :=
  runThread (bitLanes (fun w a b => maskIf w (decide (t.int a < t.int b))) d a b w t)

/-- `vsel` (R142): it also reads VD. -/
def execVsel (d a b : VReg) (w : Grp) (t : ElemTy) : Exec :=
  runThread (intLanes3 (fun _ x y z => if z = 0 then y else x) 1 d a b w t)

/-- `vmac` (R142): it also reads VD. -/
def execVmac (d a b : VReg) (w : Grp) (t : ElemTy) : Exec :=
  runThread (intLanes3 (fun _ x y z => z + x * y) 3 d a b w t)

/-! ### Permutes (Table 5.7) -/

/-- Lanes built from a function of the lane's index. -/
def fillLanes (w n : Nat) (f : Nat → Nat) : Nat := (mapLanes w n fun i => (f i, 0)).1

/-- `vbc` (R143). -/
def execVbc (d : VReg) (a : GReg) (w : Grp) (t : ElemTy) : Exec :=
  runThread (vecOp [.rg a false] d w.regs (fun s => (fillLanes t.bits (laneCount w t) fun _ => (s.readG a).toNat, 0)) (w.regs + 1) w.regs)

/-- `vins` (R143): the other lanes keep their value. -/
def execVins (d : VReg) (a b : GReg) (w : Grp) (t : ElemTy) : Exec :=
  runThread (vecOp [.rg a false, .rg b false, .rv d w.regs] d w.regs (fun s =>
    let k := (s.readG b).toNat % laneCount w t
    (fillLanes t.bits (laneCount w t) fun i => if i = k then (s.readG a).toNat else laneOf (s.readV d w.regs) t.bits i, 0)) 2 1)

/-- `vext` (R143): sign-extended for the signed integer types, zero-extended for the others. -/
def execVext (d : GReg) (a : VReg) (b : GReg) (w : Grp) (t : ElemTy) : Exec :=
  runThread (scalarOp [.rv a w.regs, .rg b false] d (fun s =>
    let x := laneOf (s.readV a w.regs) t.bits ((s.readG b).toNat % laneCount w t)
    if t.isSigned then BitVec.ofInt 64 (signedOf t.bits x) else BitVec.ofNat 64 x) 2 1)

/-- `vperm` (R143). -/
def execVperm (d a b : VReg) (w : Grp) (t : ElemTy) : Exec :=
  runThread (vecOp [.rv a w.regs, .rv b w.regs] d w.regs (fun s =>
    let n := laneCount w t
    (fillLanes t.bits n fun i => laneOf (s.readV a w.regs) t.bits (laneOf (s.readV b w.regs) t.bits i % n), 0)) (w.regs + 2) w.regs)

/-- `vzip` (R143, R144): VD is a group of 2g. -/
def execVzip (d a b : VReg) (w : Grp) (t : ElemTy) : Exec :=
  runThread (vecOp [.rv a w.regs, .rv b w.regs] d (2 * w.regs) (fun s =>
    (fillLanes t.bits (2 * laneCount w t) fun i =>
      if i % 2 = 0 then laneOf (s.readV a w.regs) t.bits (i / 2) else laneOf (s.readV b w.regs) t.bits (i / 2), 0))
    (2 * w.regs + 1) (2 * w.regs))

/-- `vuzp` (R143, R144): both groups hold 2g registers. -/
def execVuzp (d a : VReg) (w : Grp) (t : ElemTy) : Exec :=
  runThread (vecOp [.rv a (2 * w.regs)] d (2 * w.regs) (fun s =>
    let n := laneCount w t
    let x := s.readV a (2 * w.regs)
    (fillLanes t.bits (2 * n) fun i => if i < n then laneOf x t.bits (2 * i) else laneOf x t.bits (2 * (i - n) + 1), 0))
    (2 * w.regs + 1) (2 * w.regs))

/-- `vslide` (R143). -/
def execVslide (d a : VReg) (b : GReg) (w : Grp) (t : ElemTy) : Exec :=
  runThread (vecOp [.rv a w.regs, .rg b false] d w.regs (fun s =>
    let n := laneCount w t
    let x := s.readV a w.regs
    (fillLanes t.bits n fun i =>
      let j : Int := i + (s.readG b).toInt
      if 0 ≤ j && j < n then laneOf x t.bits j.toNat else 0, 0)) (w.regs + 2) w.regs)

/-- `vrot` (R143). -/
def execVrot (d a : VReg) (b : GReg) (w : Grp) (t : ElemTy) : Exec :=
  runThread (vecOp [.rv a w.regs, .rg b false] d w.regs (fun s =>
    let n := laneCount w t
    let x := s.readV a w.regs
    (fillLanes t.bits n fun i => laneOf x t.bits (((i : Int) + (s.readG b).toInt) % n).toNat, 0)) (w.regs + 2) w.regs)

/-! ### Reductions and dot products (R145, R146) -/

/-- One level of the pairwise tree. -/
def reducePairs {α : Type} (op : α → α → α × Nat) : List α → List α × Nat
  | x :: y :: r => let (z, f) := op x y; let (l, g) := reducePairs op r; (z :: l, f ||| g)
  | l => (l, 0)

/-- The pairwise tree of R145 over a list of a power of two elements, with the flags of every step. -/
def reduceTree {α : Type} (op : α → α → α × Nat) : Nat → List α → List α × Nat
  | 0, l => (l, 0)
  | fuel + 1, l =>
    match l with
    | _ :: _ :: _ => let (l, f) := reducePairs op l; let (l, g) := reduceTree op fuel l; (l, f ||| g)
    | _ => (l, 0)

/-- The elements of an operand. -/
def lanesOf (x w n : Nat) : List Nat := (List.range n).map (laneOf x w)

/-- A reduction's latency (Table 5.1): g + 3L for float sums, g + L + 1 for the others. -/
def reduceLat (floatSum : Bool) (w : Grp) (t : ElemTy) : Nat :=
  let l := (laneCount w t).log2
  if floatSum then w.regs + 3 * l else w.regs + l + 1

/-- `vradd` (R145): rounded at each step for float types; an exact 64-bit sum for integer types. -/
def execVradd (d a : VReg) (w : Grp) (t : ElemTy) : Exec :=
  runThread (vecOp [.rv a w.regs] d 1 (fun s =>
    let l := lanesOf (s.readV a w.regs) t.bits (laneCount w t)
    if t.isInt then (cutTo 64 (l.foldl (fun x y => x + t.int y) 0), 0)
    else
      let f := t.ffmt
      let (r, fl) := reduceTree (fun x y => f.addR s.rm (f.value x) (f.value y)) 16 l
      (r.headD 0, fl)) (reduceLat (!t.isInt) w t) w.regs)

/-- The reduction of `vrmin` and `vrmax` (R145). -/
def minmaxTree (low : Bool) (t : ElemTy) (l : List Nat) : Nat × Nat :=
  let pick (x y : Nat) : Nat × Nat :=
    if t.isInt then (if (if low then decide (t.int y < t.int x) else decide (t.int x < t.int y)) then y else x, 0)
    else t.ffmt.minmax low false x y
  let (r, fl) := reduceTree pick 16 l
  (r.headD 0, fl)

/-- `vrmin` (R145). -/
def execVrmin (d a : VReg) (w : Grp) (t : ElemTy) : Exec :=
  runThread (vecOp [.rv a w.regs] d 1 (fun s => minmaxTree true t (lanesOf (s.readV a w.regs) t.bits (laneCount w t)))
    (reduceLat false w t) w.regs)

/-- `vrmax` (R145). -/
def execVrmax (d a : VReg) (w : Grp) (t : ElemTy) : Exec :=
  runThread (vecOp [.rv a w.regs] d 1 (fun s => minmaxTree false t (lanesOf (s.readV a w.regs) t.bits (laneCount w t)))
    (reduceLat false w t) w.regs)

/-- The exact dot product of k elements from lane j on, added to a signed 32-bit lane (R146). -/
def dotInt (t : ElemTy) (k x y d j : Nat) : Nat :=
  cutTo 32 ((List.range k).foldl (fun (acc : Int) i => acc + t.int (laneOf x t.bits (k * j + i)) * t.int (laneOf y t.bits (k * j + i))) (d : Int))

/-- `vdot4` (R146). -/
def execVdot4 (d a b : VReg) (w : Grp) (t : ElemTy) : Exec :=
  runThread (vecOp [.rv a w.regs, .rv b w.regs, .rv d w.regs] d w.regs (fun s =>
    let x := s.readV a w.regs
    let y := s.readV b w.regs
    let z := s.readV d w.regs
    mapLanes 32 (16 * w.regs) fun j => (dotInt t 4 x y (laneOf z 32 j) j, 0)) (w.regs + 3) w.regs)

/-- The bf16 form of `vdot2`: an exact sum rounded once to f32, with NaN, ∞ − ∞ and 0 × ∞ as `vfma` treats them (R146). -/
def dotBf16 (mode : Rnd) (a0 b0 a1 b1 d : FVal) : Nat × Nat :=
  let f := ElemTy.f32.ffmt
  let xs := [a0, b0, a1, b1, d]
  let prod (x y : FVal) : Option FVal := if x.isNan || y.isNan then some (.nan false) else x.mul y
  match prod a0 b0, prod a1 b1 with
  | some p, some q =>
    if xs.any FVal.isNan then (f.nan, sigFlag xs)
    else match (p.add mode q).bind (FVal.add mode · d) with
      | some z => f.roundVal mode false z
      | none => (f.nan, flagNV)
  | _, _ => (f.nan, flagNV)

/-- `vdot2` (R146). -/
def execVdot2 (d a b : VReg) (w : Grp) (t : ElemTy) : Exec :=
  runThread (vecOp [.rv a w.regs, .rv b w.regs, .rv d w.regs] d w.regs (fun s =>
    let x := s.readV a w.regs
    let y := s.readV b w.regs
    let z := s.readV d w.regs
    mapLanes 32 (16 * w.regs) fun j =>
      if t.isInt then (dotInt t 2 x y (laneOf z 32 j) j, 0)
      else
        let v (u i : Nat) : FVal := t.ffmt.value (laneOf u t.bits i)
        dotBf16 s.rm (v x (2 * j)) (v y (2 * j)) (v x (2 * j + 1)) (v y (2 * j + 1)) (ElemTy.f32.ffmt.value (laneOf z 32 j)))
    (w.regs + 3) w.regs)

/-! ### Register moves (R147) -/

/-- `vmov` (R147). -/
def execVmov (d a : VReg) (w : Grp) : Exec :=
  runThread (vecOp [.rv a w.regs] d w.regs (fun s => (s.readV a w.regs, 0)) (w.regs + 1) w.regs)

/-- `vzero` (R147). -/
def execVzero (d : VReg) (w : Grp) : Exec := runThread (vecOp [] d w.regs (fun _ => (0, 0)) (w.regs + 1) w.regs)

/-- `vlane` (R147). -/
def execVlane (d : VReg) (w : Grp) (t : ElemTy) : Exec :=
  runThread (vecOp [] d w.regs (fun _ => (fillLanes t.bits (laneCount w t) fun i => i, 0)) (w.regs + 1) w.regs)

end Sys2Proof.Machine
end

