-- ==== Sys2Proof/Machine/Convert.lean ====
section
/-! DEFINITION. The conversion class: element conversion, group records and nibble packing (R97 to R108). -/

namespace Sys2Proof.Machine

/-- `vcvt` (R104, R105): the operand of the wider type is grouped by W. -/
def execVcvt (d a : VReg) (ts : ElemTy) (sat : Bool) (w : Grp) (t : ElemTy) : Exec :=
  let n := 512 * w.regs / Nat.max t.bits ts.bits
  let gs := Nat.max 1 (n * ts.bits / 512)
  let gd := Nat.max 1 (n * t.bits / 512)
  runThread (vecOp [.rv a gs] d gd (fun s =>
    let x := s.readV a gs
    mapLanes t.bits n fun i => cvtElem ts t sat s.rm (laneOf x ts.bits i)) (w.regs + 3) w.regs)

/-! ### Quantising (R106) -/

/-- A quotient rounded to an integer (RoundInt of R106). -/
def roundDiv (mode : Rnd) (n : Int) (d : Nat) : Int :=
  let q := n / d
  let r := (n % d).toNat
  match mode with
  | .rne => if d < 2 * r || (2 * r == d && q % 2 != 0) then q + 1 else q
  | .rtz => if n < 0 && r != 0 then q + 1 else q
  | .rdn => q
  | .rup => if r != 0 then q + 1 else q

/-- A finite f32 as a multiple of 2^−149. -/
def f32Units : FVal → Option Int
  | .fin neg m e => some (scaled neg m e (-149))
  | _ => none

/-- The scale and zero point that AUTO chooses for finite values in units of 2^−149 (R106). -/
def autoScale (Q : Nat) (fin : List Int) : Nat × Nat :=
  let lo := fin.foldl min 0
  let hi := fin.foldl max 0
  if hi = lo then (0x3C00, 0)
  else
    let sc := (ElemTy.f16.ffmt.round .rup true false (divMag (hi - lo).toNat Q 64 (-149))).1
    match ElemTy.f16.ffmt.value sc with
    | .fin _ m e => (sc, (min (max (roundDiv .rne (-lo) (m * 2 ^ (e + 149).toNat)) 0) Q).toNat)
    | _ => (sc, 0)

/-- One element quantised: its code and flags (R106). -/
def quantise (mode : Rnd) (Q sc z : Nat) (v : FVal) : Nat × Nat :=
  match ElemTy.f16.ffmt.value sc with
  | .fin false m e =>
    if m = 0 then (z, flagNV)
    else
      let D := m * 2 ^ (e + 149).toNat
      match v with
      | .nan _ => (z, flagNV)
      | .inf neg => (if neg then 0 else Q, flagNV)
      | .fin neg n g =>
        let x := scaled neg n g (-149)
        let code := (min (max (roundDiv mode (x + z * D) D) 0) Q).toNat
        (code, if ((code : Int) - z) * D != x then flagNX else 0)
  | _ => (z, flagNV)

/-- A record's bytes (Table 3.4). -/
def recordOf (q4 : Bool) (G sc z codes : Nat) : Nat :=
  let base := (if q4 then G / 2 else G) * 8
  codes + sc % 2 ^ 16 * 2 ^ base + z * 2 ^ (base + 16)

/-- `vq` (R106). -/
def execVq (d a b : VReg) (w : Grp) (t : ElemTy) : Exec :=
  let q4 := t == .q4
  let G := 16 * w.regs
  let Q := if q4 then 15 else 255
  runThread (vecOp [.rv a w.regs, .rv b 1] d (qRegs q4 G) (fun s =>
    let xs := (lanesOf (s.readV a w.regs) 32 G).map ElemTy.f32.ffmt.value
    let c := s.readV b 1 % 2 ^ 32
    let (sc, z) := if bitOf c 24 then autoScale Q (xs.filterMap f32Units)
      else (bitsOf c 15 0, if q4 then bitsOf c 19 16 else bitsOf c 23 16)
    let (codes, fl) := mapLanes (if q4 then 4 else 8) G fun i => quantise s.rm Q sc z (xs.getD i (.nan false))
    (recordOf q4 G sc z codes, fl)) (w.regs + 7) w.regs)

/-- `vdq` (R107): one record, its elements rounded to T in FPSR[1:0]. -/
def execVdq (d a : VReg) (q4 : Bool) (w : Grp) (t : ElemTy) : Exec :=
  let G := 512 * w.regs / t.bits
  runThread (vecOp [.rv a (qRegs q4 G)] d w.regs (fun s =>
    let r := s.readV a (qRegs q4 G)
    mapLanes t.bits G fun i =>
      match recordValue q4 G r i with
      | some v => t.ffmt.roundVal s.rm false v
      | none => (t.ffmt.nan, flagNV)) (w.regs + 3) w.regs)

/-- `vpk` (R108). -/
def execVpk (d a : VReg) (w : Grp) (t : ElemTy) : Exec :=
  runThread (vecOp [.rv a w.regs] d (Nat.max 1 (w.regs / 2)) (fun s =>
    let x := s.readV a w.regs
    mapLanes 4 (64 * w.regs) fun i =>
      let v := t.int (laneOf x 8 i)
      (cutTo 4 (if t.isSigned then min (max v (-8)) 7 else min (max v 0) 15), 0)) (w.regs + 1) w.regs)

/-- `vunpk` (R108). -/
def execVunpk (d a : VReg) (w : Grp) (t : ElemTy) : Exec :=
  let gs := Nat.max 1 (w.regs / 2)
  runThread (vecOp [.rv a gs] d w.regs (fun s =>
    let x := s.readV a gs
    mapLanes 8 (64 * w.regs) fun i =>
      let v := laneOf x 4 i
      (if t.isSigned then cutTo 8 (signedOf 4 v) else v, 0)) (w.regs + 1) w.regs)

end Sys2Proof.Machine
end

