-- ==== Sys2Proof/Machine/Owners.lean ====
section
/-! DEFINITION. Owner flips: the units of local SRAM, the commands, streams, jobs and requests that use one, and what a flip
waits for (R178, R187, R252). -/

namespace Sys2Proof.Machine

/-- The local offsets of a unit: tiles 0 to 255, then ab, wb and acc (R187, Table 1.5). -/
def unitRange (u : Nat) : Nat × Nat :=
  if u < 256 then (4096 * u, 4096)
  else if u < 260 then (0x110000 + 0x8000 * (u - 256), 0x8000)
  else if u < 264 then (0x130000 + 0xC000 * (u - 260), 0xC000)
  else (0x200000 + 0x10000 * (u - 264), 0x10000)

/-- Whether n bytes from a local offset touch a unit. -/
def touchesUnit (u off n : Nat) : Bool := let (lo, m) := unitRange u; off < lo + m && lo < off + n

/-- The scratchpad tiles that n bytes from an offset touch. -/
def tilesOf (off n : Nat) : List Nat := if n = 0 then [] else (List.range ((off + n - 1) / 4096 - off / 4096 + 1)).map (off / 4096 + ·)

/-- The units a command of the matrix engine uses (R240, R253, R259 to R261). -/
def MeOp.units : MeOp → List Nat
  | .mma acc ab wb s fb fa _ _ _ =>
    [264 + acc.toNat, 256 + ab.toNat] ++ (if fa == .q8 && fb == .q4 then [257 + ab.toNat] else []) ++ [260 + wb.toNat]
      ++ (if s == .bd8 && fa == .f32 then [261 + wb.toNat] else [])
  | .accz mask => ((List.range 8).filter (bitOf mask)).map (264 + ·)
  | .accst la row f acc | .accld la row f acc =>
    tilesOf la ((bitsOf row 14 8 + 1) * 128 * (if f == .f32 then 4 else 2)) ++ [264 + acc.toNat]
  | .abld la range buf => tilesOf la (bitsOf range 31 16) ++ [256 + buf.toNat]
  | .wbld la range buf => tilesOf la (bitsOf range 31 16) ++ [260 + buf.toNat]

/-- The tile access of a thread that touches a unit and is outstanding, if any (R178). -/
def Core.tileOn (k : Core) (u : Nat) : Option Access :=
  k.threads.toList.findSome? fun th => th.outs.find? fun o => o.tile && touchesUnit u o.lo o.n

/-- Whether the agent holds a request that targets a unit (R252, Table 8.5). -/
def Core.agentOn (k : Core) (u : Nat) : Bool :=
  (k.agent.queue ++ k.agent.retry).any fun q => isLocal q.req.addr && touchesUnit u (localOff q.req.addr) q.req.n

/-- Whether a unit is quiescent for its current owner (R252, Table 8.5). -/
def Core.quiet (k : Core) (u : Nat) : Bool :=
  match k.owner u with
  | 0 => (k.tileOn u).isNone
  | 1 => !k.matrix.cmds.any fun m => m.op.units.contains u
  | 2 => !(k.engine.streams.any fun p => p.2.tiles.contains u) && !(k.engine.copies.any fun x => x.tiles.contains u)
  | 3 => !k.trellis.jobs.any fun j =>
      let kk := 2 + bitsOf j.ctl 19 18
      let n := bitsOf j.ctl 39 32 + 1
      touchesUnit u j.src (512 * n) || touchesUnit u j.dst ((8 * kk + 4) * n)
  | _ => !k.agentOn u

/-- What a flip of units waits for: OVRN in booked mode, with the record of R179 where a tile access holds abandoned beats. -/
def State.quietStop (s : State) (us : List Nat) : Option Stop :=
  match us.find? fun u => !s.me.quiet u with
  | none => none
  | some u =>
    let late := s.me.vault.accs.find? fun a => a.abandoned && (a.op == .tileLoad || a.op == .tileStore) && touchesUnit u a.lo a.n
    match late with
    | some a => let (w0, w1) := a.lateWords; some (s.waitOr { cause := causeOvrn, det0 := w0, det1 := w1 })
    | none => some (s.waitOr { cause := causeOvrn })

/-- Owner fields of units changed in one cycle. -/
def Core.flip (k : Core) (us : List Nat) (code : Nat) : Core := us.foldl (fun k u => k.setOwner u code) k

end Sys2Proof.Machine
end

