-- ==== Sys2Proof/Machine/Vault.lean ====
section
/-! DEFINITION. The row and tile instructions, the beats of tile accesses, and the vault controller's events: refresh, row
repair, lane repair and layer power (R167 to R184). -/

namespace Sys2Proof.Machine

/-! ### Translation of the row and tile instructions (R181, R182, Table 6.5) -/

/-- What translating a vault VA of a row or tile instruction leads to: the physical address in the core's own vault, or its
stop; localDet is the detail word of PROT for the local region. -/
def State.rowTranslate (s : State) (va : Nat) (wr : Bool) (localDet : Nat) : Except Stop Nat :=
  match s.translate s.cc s.me.ctx va (!wr) wr with
  | .loc _ => .error (.trap { cause := causeProt, addr := va, det0 := localDet })
  | .vault pa => .ok pa
  | .offstack _ => .error (.trap { cause := causeProt, addr := va, det0 := 3 })
  | .moving => .error (s.waitOr { cause := causeOvrn, addr := va })
  | .page => .error (.trap { cause := causePage, addr := va })
  | .prot => .error (.trap { cause := causeProt, addr := va })
  | .foreign _ => .error (.trap { cause := causeForeign, addr := va })
  | .poison pa => .error (.trap (s.poisonExc va pa))

/-! ### rowact, rowpre, rowq (R181, R183) -/

/-- The bank held in every tick from now to the end of a row operation (R181). -/
def State.rowStop (s : State) (bank fin : Nat) : Option Stop :=
  (List.range ((max s.cycle (fin - 1)) / 8 - s.tick + 1)).findSome? fun d => s.resourceStop (codeBank bank) (s.tick + d)

/-- The row guard on a row instruction of an open thread (R165, R181). -/
def State.guardStop (s : State) (bank : Nat) (moves : Bool) : Option Stop :=
  if s.th.st != .booked && moves && s.me.guarded bank s.tick none then some (.wait (8 * (s.tick + 1))) else none

/-- The row that `rowpre` stands for among a bank's requests: none of them. -/
def noRow : Nat := 16384

/-- A row instruction's request at the controller: its precharge or activation starts now where it may, and else in its turn (R164, R166,
R181). -/
def State.rowIssue (s : State) (op : BeatOp) (va pa row : Nat) : State :=
  let v := s.me.vault
  let a : VaultAcc := ⟨v.serial, .thread s.ct, 0, op, va, 1, 0, 0, 0, [⟨vbank pa, row, pa, 1, 0, 0, 0, false, false⟩], none, 0,
    if s.th.st == .booked then s.th.slot else none, false, none, none⟩
  let s := s.modMe fun k => { k with vault := { v with serial := v.serial + 1, accs := v.accs ++ [a] } }
  match s.rowTurn s.cc a.id with
  | some (s, a) => s.rowOpTurn s.cc a
  | none => s

/-- `rowact` (R181). -/
def execRowact (a : GReg) : Exec :=
  runThread do
    let s ← operands [.rg a false]
    let va := (s.readG a).toNat % 2 ^ 52
    let pa ← orRaise (s.rowTranslate va false 3)
    let v := s.me.vault
    let (b, r) := (vbank pa, vrow pa)
    orStop (s.guardStop b (v.movesRow b r))
    orStop (s.rowStop b (v.prepare s.cc b r false 64 (max s.cycle v.powerAt) (v.bankAt b s.cycle)).1)
    orStop ((v.repairOf b r).map fun x => .trap (x.rpair va))
    change fun s => if v.movesRow b r then s.rowIssue .rowact va pa r else s
    done 1

/-- `rowpre` (R181). -/
def execRowpre (a : GReg) : Exec :=
  runThread do
    let s ← operands [.rg a false]
    let va := (s.readG a).toNat % 2 ^ 52
    let pa ← orRaise (s.rowTranslate va false 3)
    let v := s.me.vault
    let b := vbank pa
    orStop (s.guardStop b (v.bank b).row.isSome)
    orStop (s.rowStop b (v.precharge s.cc b 64 s.cycle (v.bankAt b s.cycle)).1)
    change fun s => if (v.bank b).row.isSome then s.rowIssue .rowpre va pa noRow else s
    done 1

/-- What a bank does in a cycle: the row open, the row activating, and the end of its current operation (R183). -/
def Bank.now (b : Bank) (cycle : Nat) : Option Nat × Option Nat × Option Nat :=
  match b.ops.find? fun o => cycle < o.fin with
  | some o => if o.first ≤ cycle then (none, o.after, some o.fin) else (o.before, none, none)
  | none => (b.row, none, none)

/-- Whether a refresh window of a bank is in progress or entered on the calendar (R167, R169). -/
def Vault.refreshEntered (v : Vault) (core bank cycle : Nat) : Bool :=
  (v.power != .retention && (List.range 12).any fun i =>
      (normalWindow core bank (cycle + (if i = 11 then 1024 else 100 * i))).any fun e => v.powerAt + 112 ≤ e) ||
    v.windows.any fun w => w.bank == some bank && cycle ≤ w.last

/-- The word `rowq` writes (R183). -/
def State.rowWord (s : State) (b r : Nat) : Word :=
  let v := s.me.vault
  let (opn, act, fin) := (v.bank b).now s.cycle
  let fin := (v.windowEnd s.cc b s.cycle false).or fin
  BitVec.ofNat 64 ((opn.getD (act.getD 0)) + (if opn.isSome then 2 ^ 13 else 0) + (if act.isSome then 2 ^ 14 else 0)
    + (if (v.repairOf b r).isSome then 2 ^ 15 else 0) + (if v.refreshEntered s.cc b s.cycle then 2 ^ 16 else 0)
    + min 65535 (match fin with | some e => e - s.cycle | none => 0) * 2 ^ 32)

/-- `rowq` (R183). -/
def execRowq (d a : GReg) : Exec :=
  runThread do
    let s ← operands [.rg a false, .wg d]
    let pa ← orRaise (s.rowTranslate ((s.readG a).toNat % 2 ^ 52) false 3)
    change fun s => s.writeG d (s.rowWord (vbank pa) (vrow pa)) 4
    done 1

/-! ### tld, tst (R176 to R182) -/

/-- The unit that a local range lies in whole, if it is a target of Table 6.2: none for a range outside, and for `tld` to an
accumulator. -/
def tileTarget (store : Bool) (la n : Nat) : Option Place :=
  let off := localOff la
  if !isLocal la then none
  else
    let p := placeOf off
    let whole := match p with
      | .scratch => off + n ≤ 0x100000
      | .code | .hole => false
      | p => placeOf (off + n - 1) == p
    match p with
    | .acc _ => if store && whole then some p else none
    | p => if whole then some p else none

/-- Watchpoints of a tile access: the vault range, then the local one (R182, R378). -/
def State.tileWatch (s : State) (store : Bool) (va la n : Nat) : Option Stop :=
  (s.watchStop (!store) store va n).or (s.watchStop store (!store) la n)

/-- CheckBooked over a tile access's nominal beats (R179). -/
def State.tileNominalStop (s : State) (scratch : Bool) (off : Nat) (beats : List (Nat × Nat × Nat)) : Option Stop :=
  (s.nominalStop beats).or
    (if scratch then beats.findSome? fun b => s.resourceStop (0x10 + bankOf (off + b.2.2)) (b.2.1 / 8) else none)

/-- A tile access (R182). -/
def tileAccess (store : Bool) (a b : GReg) (len : BitVec 6) : Act Done := do
  let s ← operands [.rg a false, .rg b false]
  let va := (s.readG a).toNat % 2 ^ 52
  let la := (s.readG b).toNat % 2 ^ 52
  let n := (len.toNat + 1) * 512
  if va % 512 != 0 then fault { cause := causeAlign, addr := va }
  if la % 512 != 0 then fault { cause := causeAlign, addr := la }
  if va / 65536 != (va + n - 1) / 65536 then fault { cause := causeAlign, addr := va }
  orStop (s.tileWatch store va la n)
  let tr := s.rowTranslate va store 0
  let foreign := match tr with
    | .error (.trap e) => e.cause == causeForeign || e.cause == causeOvrn
    | .error _ => true
    | .ok _ => false
  if !foreign && !tr.isOk then discard (orRaise tr)
  match tileTarget store la n with
  | none => fault { cause := causeProt, addr := la }
  | some p =>
    let pa ← orRaise tr
    let off := localOff la
    let scratch := p == .scratch
    orStop ((s.me.engineByte off n).map fun _ => .trap { cause := causeOwner, addr := la })
    let segs := segsFrom 8 pa n 0
    let β := if scratch then 64 else 512
    let beats := s.vaultNominal false (some β) segs
    if s.th.st == .booked then orStop (s.tileNominalStop scratch off beats)
    if 4 ≤ (s.th.outs.filter (·.tile)).length then throw (s.waitOr (s.lateExc 0))
    if s.th.st != .booked then orStop (s.vaultOpenStop segs)
    orStop (s.acquireStop va)
    if !store then orStop (s.rpairStop va segs)
    let acc := s.th.serial
    change fun s =>
      (s.openAccess { Access.plain .tile .none 0 false va true false with tile := true, lo := off, n := n }).vaultIssue
        (if store then .tileStore else .tileLoad) va n off 0 0 acc segs (s.limitOf beats)
    done 1

/-- `tld` (R182). -/
def execTld (a b : GReg) (len : BitVec 6) : Exec := runThread (tileAccess false a b len)

/-- `tst` (R182). -/
def execTst (a b : GReg) (len : BitVec 6) : Exec := runThread (tileAccess true a b len)

/-! ### vsync (R184) -/

/-- Whether a thread has a tile access or a posted store to its vault outstanding (R184). -/
def Thread.vaultWork (th : Thread) : Bool := th.outs.any fun o => o.tile || (o.kind == .vault && o.store)

/-- `vsync` (R184). -/
def execVsync : Exec :=
  runThread do
    let s ← get
    if s.th.vaultWork then
      if s.th.st == .booked then
        match s.me.vault.accs.find? fun a => a.by_ == .thread s.ct && a.abandoned && a.op != .load with
        | some a => let (w0, w1) := a.lateWords; fault { cause := causeOvrn, det0 := w0, det1 := w1, replay := true }
        | none => fault { cause := causeOvrn, replay := true }
      else drain
    drained

/-! ### Beats of tile accesses (R177, R179) -/

/-- The segment that a tile access's next beat lies in, with its index: beats go in ascending address. -/
def VaultAcc.nextSeg (a : VaultAcc) : Option (Nat × Seg) := (a.segs.zipIdx.find? fun (g, _) => g.moved < g.n).map fun (g, j) => (j, g)

/-- Whether a tile beat's scratchpad bank serves it in a cycle, which no earlier use of that cycle takes: a booked one in its own ticks, the
others in a tick that no booking holds, or that the stream's own holds (R177, R185, R282). -/
def Core.beatBank (k : Core) (cycle bank : Nat) (a : VaultAcc) : Bool :=
  let held (i : Nat) : Bool := holdsTick (k.booking i).holds (0x10 + bank) (cycle / 8)
  let ticks := match a.heldFor with
    | some i => held i
    | none => (k.ownSlot cycle a).any held || !k.bookedBut a.ended (0x10 + bank) (cycle / 8)
  ticks && !k.bankUses.any fun u => u.bank == bank && u.cycle == cycle

/-- A tile beat moved (R177, R186); the fill of a stream that has been unbound moves into nothing (R297). -/
def State.moveTile (s : State) (c : Nat) (a : VaultAcc) (j : Nat) (g : Seg) : State :=
  let lo := a.lo + g.off + g.moved
  let scratch := lo < 0x100000
  let β := if scratch then 64 else 512
  let pa := g.pa + g.moved
  let rank := match a.by_ with
    | .thread t => t
    | _ => 4
  let step (k : Core) : Core :=
    let k := { k with vault := { k.vault with portAt := some s.cycle, beatBank := g.bank } }
    let k := if scratch && a.op != .load then k.useBanks s.cycle rank [(bankOf lo, s.cycle)] else k
    let k := k.modAcc a.id fun a => { a with segs := a.segs.zipIdx.map fun (h, i) => if i = j then { h with moved := h.moved + β } else h }
    if a.op == .tileStore then { k with vault := { k.vault with mem := memSetN k.vault.mem pa β (k.sramRead lo β) } }
    else if a.op == .load then k
    else (k.sramWrite lo β (memGetN k.vault.mem pa β)).fillGrans lo β
  if a.op == .tileStore then s.modCore c step
  else match (s.coreAt c).vault.badWord pa β with
    | some w => (s.fatalWord c w a.va a.by_.source).loseAccess c a
    | none => (s.modCore c step).vaultCorrect c pa β

/-- After a tile access's turn in a cycle: it completes in the cycle after its last beat, and tries again otherwise. -/
def State.afterTile (s : State) (c id : Nat) : State :=
  match (s.coreAt c).vault.accs.find? (·.id == id) with
  | none => s
  | some a =>
    if a.nextSeg.isNone then
      let s := s.modCore c (·.dropAcc id)
      match a.by_ with
      | .thread t => s.post (s.cycle + 1) (.replyArrival (.thread c t (4 * a.acc)) 0)
      | .stream ch => s.post (s.cycle + 1) (.replyArrival (.engine c ch a.acc false) 0)
      | _ => s
    else s.post (s.cycle + 1) (.tileBeat c id)

/-- `tile_beat` (R164, R177): the access's rows are taken a step further, and its next beat moves if this cycle is eligible for it. -/
def execTileBeat (c id : Nat) : Exec := fun s =>
  .next <|
    match s.rowTurn c id with
    | none => s
    | some (s, a) =>
      match a.nextSeg with
      | none => s
      | some (j, g) =>
        let k := s.coreAt c
        let lo := a.lo + g.off + g.moved
        let moves := k.vault.rowOpen g && g.rdy + 10 ≤ s.cycle && !k.behind a g && k.serves c s.cycle g.bank a
          && (0x100000 ≤ lo || a.op == .load || k.beatBank s.cycle (bankOf lo) a)
        (if moves then s.moveTile c a j g else s).afterTile c id

/-! ### Refresh (R167 to R170) -/

/-- `normal_refresh` (R167, R168): the windows that begin in this cycle; the banks' row states stay as they were, and each
window stands on the calendar until it ends. -/
def execNormalRefresh : Exec := fun s =>
  .next <| s.eachCore fun s c =>
    if s.cycle < phi c || (s.cycle - phi c) % 400 != 0 || (s.coreAt c).vault.power == .retention || s.cycle < (s.coreAt c).vault.powerAt then s
    else s.modCore c fun x => { x with vault := x.vault.enter s.cycle ⟨some ((s.cycle - phi c) / 400 % 32), s.cycle, s.cycle + 111⟩ }

/-- `extra_refresh` (R169): the extra refreshes whose windows begin 64 cy from now are decided, of the vaults in hot mode, and
entered on the calendar. -/
def execExtraRefresh : Exec := fun s =>
  .next <| s.eachCore fun s c =>
    let first := s.cycle + 64
    let v := (s.coreAt c).vault
    if first < 200 + phi c || (first - 200 - phi c) % 400 != 0 || !v.hot || v.power == .retention then s
    else
      let k := (first - 200 - phi c) / 400
      s.modCore c fun x => { x with vault := x.vault.enter s.cycle ⟨some ((k + 16) % 32), first, first + 111⟩ }

/-- The refresh mode that a sample gives (R169): above 85 °C hot, at or below 83 °C normal, else as it is. -/
def Core.refreshMode (k : Core) : Bool :=
  let t (i : Nat) : Int := ((k.sensors[i]?).map (·.temp)).getD 0
  let dram := max (t 1) (t 2)
  if 85 * 16 < dram then true else if dram ≤ 83 * 16 then false else k.vault.hot

/-- `refresh_mode_sample` (R169): every controller judges its DRAM temperature. -/
def execRefreshModeSample : Exec := fun s =>
  .next { s with cores := s.cores.map fun k => { k with vault := { k.vault with hot := k.refreshMode } } }

/-! ### Row repair (R172, R173) -/

/-- The row number that stands for a bank's next spare row. -/
def Vault.spareRow (v : Vault) (bank : Nat) : Nat := 8192 + ((v.sparesUsed.find? (·.1 == bank)).map (·.2)).getD 0

/-- Whether a copy of the vault itself may change a bank's row to another: no booking holds the bank, the row guard does not apply, and no
access has beats to move in the row that it would close (R165, R166, R173, R192). -/
def Core.copyMoves (k : Core) (tick bank row : Nat) : Bool :=
  !k.booked (codeBank bank) tick && !k.guarded bank tick none &&
    !k.vault.accs.any fun a => a.segs.any fun g => g.bank == bank && g.row != row && g.moved < g.n && g.ready

/-- The copy's use of its bank in an agent tick: it opens the row under repair or the spare (which of the two the spec leaves to
the device), where the row guard and the bookings let it (R165, R173). -/
def State.repairUse (s : State) (c bank row : Nat) : State :=
  let k := s.coreAt c
  if !agentTick s.tick then s
  else
    let r := if Config.freePick s.fresh then row else k.vault.spareRow bank
    let (_, b) := k.vault.rowStep c bank r s.cycle (k.copyMoves s.tick bank r)
    (s.modCore c fun k => { k with vault := k.vault.setBank bank b }).tickFree

/-- Leaving retention takes 2,551 cy and closes every row of the vault (R171). -/
def Vault.wake (v : Vault) (cycle : Nat) : Vault :=
  if v.power == .retention then { v with power := .active, powerAt := cycle + 2551, banks := Vector.replicate 32 Bank.reset }
  else { v with power := .active }

/-- Whether a row still has an access outstanding that was issued before its repair was scheduled: one with beats to move, or that completes
in the cycle after this one (R173, R177). -/
def Vault.rowBusy (v : Vault) (cycle bank row : Nat) : Bool :=
  (v.accs.any fun a => a.segs.any fun g => g.bank == bank && g.row == row && !g.held) ||
    (v.portAt == some cycle && v.beatBank == bank && (v.bank bank).row == some row)

/-- The data of a row delivered to its copy: corrections count, and an uncorrectable word raises FATAL_UE (R161, R162). -/
def State.copyRead (s : State) (c pa n : Nat) : State :=
  match (s.coreAt c).vault.badWord pa n with
  | some w => (s.fatalWord c w 0 8).vaultCorrect c pa n
  | none => s.vaultCorrect c pa n

/-- A row under repair: the vault is brought to active; its copy starts when no access issued before the scheduling is outstanding, and the
remap falls 2,000 cy later; the copy under way uses its bank at each agent tick (R171, R173). The copy's data are delivered as it starts
(DESIGN CHOICE, log entry 79). -/
def State.repairStep (s : State) (c : Nat) (r : RowErr) : State :=
  match r.remapAt with
  | some _ => if s.cycle % 8 = 0 then s.repairUse c r.bank r.row else s
  | none =>
    let s := s.modCore c fun k => { k with vault := k.vault.wake s.cycle }
    let v := (s.coreAt c).vault
    if s.cycle < v.powerAt || v.rowBusy s.cycle r.bank r.row then s
    else
      let s := s.modCore c fun k => { k with vault := { k.vault with
        rowErrs := k.vault.rowErrs.map fun x => if x.bank == r.bank && x.row == r.row then { x with remapAt := some (s.cycle + 2000) } else x } }
      (s.postOnce (s.cycle + 2000) .rowRepairRemap).copyRead c (r.row * 2 ^ 18 + r.bank * 2 ^ 13) 8192

/-- `row_repair_copy_start` (R173): every row under repair, in every cycle while there is one. -/
def execRowRepairCopyStart : Exec := fun s =>
  .next <| s.eachCore fun s c =>
    let rows := (s.coreAt c).vault.rowErrs.filter (·.scheduled)
    if rows.isEmpty then s
    else (rows.foldl (fun s r => s.repairStep c r) s).postOnce (s.cycle + 1) .rowRepairCopyStart

/-- A row remapped: its address names the spare row, and the bank closes its open row if that is the repaired row or its spare. -/
def Vault.remap (v : Vault) (bank row : Nat) : Vault :=
  let b := v.bank bank
  let spare := v.spareRow bank
  let v := if b.row == some row || b.row == some spare then v.setBank bank { b with row := none, actAt := 0 } else v
  { v with
    rowErrs := v.rowErrs.filter fun r => !(r.bank == bank && r.row == row)
    sparesUsed := v.sparesUsed.filter (·.1 != bank) ++ [(bank, spare - 8192 + 1)]
    remapped := v.remapped ++ [(bank, row)] }

/-- `row_repair_remap` (R173): the rows whose remap falls in this cycle. -/
def execRowRepairRemap : Exec := fun s =>
  .next <| s.eachCore fun s c =>
    ((s.coreAt c).vault.rowErrs.filter fun r => r.remapAt.any fun t => t ≤ s.cycle).foldl (fun s r =>
      s.modCore c fun k => { k with vault := k.vault.remap r.bank r.row }) s

/-! ### Lane repair (R174, R175) -/

/-- Whether no live booking holds the vault port or any vault bank in 50 ticks from a tick on. -/
def Core.lanesFree (k : Core) (tick : Nat) : Bool :=
  !(k.almanac.slots.toList.any fun b => b.live && b.holds.any fun h =>
    (h.code == codePort || (0x40 ≤ h.code && h.code < 0x60)) && h.first < tick + 50 && tick ≤ h.last)

/-- A decided lane repair placed at the earliest free span within the horizon that begins at least 128 ticks after the decision, 8 ticks
from now (every window is known 64 cy before it begins, R164) and after an exit from retention; or tried again in the next tick (R171,
R174; DEDUCED, log entry 79). -/
def State.laneStep (s : State) (c lane decided : Nat) : State :=
  let s := s.modCore c fun k => { k with vault := k.vault.wake s.cycle }
  let least := max (max (decided + 128) (s.tick + 8)) (ceilDiv (s.coreAt c).vault.powerAt 8)
  match (List.range (s.tick + 463 - least)).find? fun d => (s.coreAt c).lanesFree (least + d) with
  | none => s.postOnce (8 * (s.tick + 1)) .laneRepairPost
  | some d =>
    let first := 8 * (least + d)
    let s := s.modCore c fun k =>
      let v := k.vault.enter s.cycle ⟨none, first, first + 399⟩
      { k with vault := { v with laneRepairs := v.laneRepairs.map fun l => if l.1 == lane then (lane, decided, some first) else l } }
    s.postOnce (first + 400) .laneRepairComplete

/-- `lane_repair_post` (R174): the repairs decided and not yet placed. -/
def execLaneRepairPost : Exec := fun s =>
  .next <| s.eachCore fun s c => ((s.coreAt c).vault.laneRepairs.filter (·.2.2.isNone)).foldl (fun s l => s.laneStep c l.1 l.2.1) s

/-- A lane replaced: a LANEREP record goes to the ring of the core's context, or to the helm's journal (R175). The spare lanes are taken in
the order of completed repairs, from number 0 (DESIGN CHOICE, log entry 79). -/
def State.laneDone (s : State) (c lane : Nat) : State :=
  let k := s.coreAt c
  let spare := k.vault.lanesRepaired.length
  let s := s.modCore c fun k => { k with vault := { k.vault with
    laneRepairs := k.vault.laneRepairs.filter (·.1 != lane)
    laneErrs := k.vault.laneErrs.filter (·.1 != lane)
    lanesRepaired := k.vault.lanesRepaired ++ [(lane, spare)] } }
  let r : TrapRec := { cause := causeLanerep, flags := 0, source := 8, core := c, ctx := k.ctx, pc := 0, addr := 0, insn := 0,
                       ss := s.ssOf c, cycle := s.cycle, det0 := lane, det1 := spare, bookid := 0 }
  if k.ctx = 0 then s.journal 8 0 c lane spare (leBytes 64 (r.word s.helm.journal.length)) else s.noteRecord r

/-- `lane_repair_complete` (R175): the repairs whose window has ended. -/
def execLaneRepairComplete : Exec := fun s =>
  .next <| s.eachCore fun s c =>
    ((s.coreAt c).vault.laneRepairs.filter fun l => l.2.2.any fun f => f + 400 ≤ s.cycle).foldl (fun s l => s.laneDone c l.1) s

/-! ### Layer power (R171) -/

/-- Whether a core runs no context: it lies outside every partition, or its partition has no context placed (R171). -/
def State.noContext (s : State) (c : Nat) : Bool :=
  match (s.partOf c).bind s.partAt with
  | none => true
  | some p => p.ctxs.isEmpty

/-- `layer_power_change` (R171): the helm changes the state of a vault's layers, to a low-power one only while the core runs no
context. -/
def execLayerPowerChange (c : Nat) (p : LayerPower) : Exec := fun s =>
  .next (s.modCore c fun k =>
    match p with
    | .active => { k with vault := k.vault.wake s.cycle }
    | p => if s.noContext c then { k with vault := { k.vault.wake s.cycle with power := p } } else k)

end Sys2Proof.Machine
end

