-- ==== Sys2Proof/Machine/Migration.lean ====
section
/-! DEFINITION. The migration engine: the judging of pages at an epoch's end, requests and queries of threads, the moves, and
their abortion by bookings (R189 to R194). -/

namespace Sys2Proof.Machine

/-! ### Pages and frames -/

/-- Fields of a leaf entry (R188). -/
def LeafAt.tier (l : LeafAt) : Nat := bitsOf l.entry 62 61
/-- SIZE of a leaf entry. -/
def LeafAt.size (l : LeafAt) : Nat := bitsOf l.entry 60 59
/-- NOMIG of a leaf entry. -/
def LeafAt.nomig (l : LeafAt) : Bool := bitOf l.entry 56
/-- VID of a leaf entry. -/
def LeafAt.vid (l : LeafAt) : Nat := bitsOf l.entry 54 47
/-- The 64 KiB frames of a page. -/
def LeafAt.frames (l : LeafAt) : List Nat := (List.range (2 ^ (l.log - 16))).map (bitsOf l.entry 39 16 + ·)

/-- The leaves below a table of a level that covers VAs from va upward, in ascending VA (R375). -/
def leavesBelow (m : Memory) : Nat → Nat → Nat → Nat → List (Nat × LeafAt)
  | 0, _, _, _ => []
  | fuel + 1, level, table, va =>
    let (hi, lo, _, _) := levelOf level
    (List.range (2 ^ (hi - lo + 1))).flatMap fun i =>
      let pa := table + 8 * i
      let e := memGetN m pa 8
      let v := va + i * 2 ^ lo
      if !bitOf e 63 then []
      else if bitsOf e 62 61 = 3 then (if level < 3 then leavesBelow m fuel (level + 1) (bitsOf e 39 8 * 256) v else [])
      else match walkFrom m v 1 level table with
        | some l => [(v, l)]
        | none => []

/-- Every mapped page of a context, in ascending VA. -/
def State.pagesOf (s : State) (ctx : Nat) : List (Nat × LeafAt) :=
  leavesBelow s.offstack 4 0 (bitsOf (s.ctxOf ctx).ptbase.toNat 39 16 * 65536) 0

/-- The counters of a frame. -/
def frameOf (f : Nat) (l : List FrameCnt) : FrameCnt := (l.find? (·.frame == f)).getD ⟨f, 0, 0, 0⟩

/-- The counters of a frame of a tier: a vault's or off-stack memory's. -/
def State.frameCnt (s : State) (vault : Option Nat) (f : Nat) : FrameCnt :=
  match vault with
  | some v => frameOf f (s.coreAt v).vault.frames
  | none => frameOf f s.offFrames

/-- The frames that an entry maps, of 64 KiB or 2 MiB. -/
def framesOfEntry (e : Nat) : List Nat := (List.range (if bitsOf e 60 59 = 1 then 32 else 1)).map (bitsOf e 39 16 + ·)

/-- The vault of an entry of tier 01. -/
def vaultOf (e : Nat) : Option Nat := if bitsOf e 62 61 = 1 then some (bitsOf e 54 47) else none

/-- Frames of a vault that a page or a move in progress uses. -/
def State.vaultUsed (s : State) (v : Nat) : List Nat :=
  (s.ctxs.flatMap fun x => (s.pagesOf x.id).flatMap fun p => if p.2.tier = 1 && p.2.vid = v then p.2.frames else []) ++
    s.helm.moves.flatMap fun m =>
      if !m.moving then []
      else ([m.source.toNat, m.dest.toNat].filter fun e => vaultOf e == some v).flatMap framesOfEntry

/-- The first run of n free frames aligned to n, in a set of usable frames given as a test over frames below a bound. -/
def freeRun (n bound : Nat) (free : Nat → Bool) : Option Nat :=
  ((List.range (bound / n)).find? fun i => (List.range n).all fun j => free (n * i + j)).map (n * ·)

/-- A destination for a page of n frames (R191, R375): free frames of a vault, or of the context's pool. Which of several the spec does not
say: the lowest aligned run, in a vault of frames that are not poisoned (DESIGN CHOICE, log entry 81). -/
def State.freeFrames (s : State) (ctx : Nat) (vault : Option Nat) (n : Nat) : Option Nat :=
  match vault with
  | some v => let used := s.vaultUsed v; freeRun n 32768 fun f => !used.contains f && !(s.coreAt v).vault.poisoned.contains f
  | none =>
    let pool := (s.ctxOf ctx).poolFree
    (pool.find? fun f => f % n = 0 && (List.range n).all fun j => pool.contains (f + j))

/-! ### Pinning (R193) -/

/-- Whether a core holds a live booking with a vault-port or vault-bank entry (R193). -/
def Core.pins (k : Core) : Bool :=
  k.almanac.slots.toList.any fun b => b.live && b.holds.any fun h => h.code == codePort || (0x40 ≤ h.code && h.code < 0x60)

/-- Whether a page is pinned: its vault's core, or that of the move's destination, holds such a booking. -/
def State.pinned (s : State) (source dest : Option Nat) : Bool :=
  [source, dest].any fun v => match v with
    | some v => (s.coreAt v).pins
    | none => false

/-- A move as it enters the queue. -/
def Move.queued (ctx va entryPa : Nat) (dest : Option Nat) : Move := ⟨ctx, va, entryPa, dest, 0, 0, false, 0, 0, false, [], none⟩

/-- A move queued, at most 64 (R191). -/
def State.queueMove (s : State) (m : Move) : State :=
  if 64 ≤ s.helm.moves.length then s
  else ({ s with helm := { s.helm with moves := s.helm.moves ++ [m] } }).postOnce (s.cycle + 1) .migrationMoveStart

/-! ### pmig, ptq (R194) -/

/-- The leaf of a VA, or the stop of `pmig` and `ptq`. -/
def State.leafStop (s : State) (va : Nat) : Except Stop LeafAt :=
  if isLocal va then .error (.trap { cause := causeProt, addr := va })
  else match s.leaf s.me.ctx va with
    | some l => .ok l
    | none => .error (.trap { cause := causePage, addr := va })

/-- The move of a page that is queued or in progress. -/
def State.moveOf (s : State) (ctx va : Nat) (l : LeafAt) : Option Move :=
  s.helm.moves.find? fun m => m.ctx == ctx && m.va == va / 2 ^ l.log * 2 ^ l.log

/-- The status of `pmig`: of a malformed word first, since its fields name nothing, then the lowest that applies (DESIGN CHOICE, log entry
81). -/
def State.pmigStatus (s : State) (w : Nat) (l : LeafAt) : Nat :=
  let dest : Option Nat := if bitsOf w 9 8 = 1 then some (w % 256) else none
  let here := vaultOf l.entry
  if w / 2 ^ 10 != 0 || 1 < bitsOf w 9 8 then 6
  else if l.tier != 2 && here == dest then 1
  else if s.pinned here dest then 2
  else if 64 ≤ s.helm.moves.length then 3
  else if !s.helm.policy.hints || l.nomig then 4
  else if 1 < l.size || (s.freeFrames s.me.ctx dest (2 ^ (l.log - 16))).isNone then 5
  else 0

/-- `pmig` (R194). -/
def execPmig (d a b : GReg) : Exec :=
  runThread do
    let s ← operands [.rg a false, .rg b false, .wg d]
    let va := (s.readG a).toNat % 2 ^ 52
    let w := (s.readG b).toNat
    let l ← orRaise (s.leafStop va)
    let st := s.pmigStatus w l
    if st = 0 then
      let m : Move := Move.queued s.me.ctx (va / 2 ^ l.log * 2 ^ l.log) l.entryPa (if bitsOf w 9 8 = 1 then some (w % 256) else none)
      change fun s => s.queueMove m
    change fun s => s.writeG d (BitVec.ofNat 64 st) 4
    done 1

/-- The word `ptq` writes (R194). -/
def State.tierWord (s : State) (va : Nat) (l : LeafAt) : Word :=
  let m := s.moveOf s.me.ctx va l
  let src := if l.tier = 2 then (match m with | some m => m.source.toNat | none => l.entry) else l.entry
  let c := s.frameCnt (vaultOf src) (bitsOf l.entry 39 16 + va % 2 ^ l.log / 65536)
  let pin := s.pinned (vaultOf src) (m.bind (·.toVault))
  BitVec.ofNat 64 (l.tier + l.vid * 2 ^ 2 + l.size * 2 ^ 10 + (if pin then 2 ^ 12 else 0) + (if m.isSome then 2 ^ 13 else 0)
    + (if bitOf l.entry 55 then 2 ^ 14 else 0) + (if l.nomig then 2 ^ 15 else 0) + c.count % 65536 * 2 ^ 16 + c.cand % 256 * 2 ^ 32
    + c.weight % 65536 * 2 ^ 40)

/-- `ptq` (R194). -/
def execPtq (d a : GReg) : Exec :=
  runThread do
    let s ← operands [.rg a false, .wg d]
    let va := (s.readG a).toNat % 2 ^ 52
    let l ← orRaise (s.leafStop va)
    change fun s => s.writeG d (s.tierWord va l) 4
    done 1

/-! ### The epoch's end (R190, R191) -/

/-- The move that judging a page queues, if any: its target (R191). -/
def State.judge (s : State) (l : LeafAt) : Option (Option Nat) :=
  let here := vaultOf l.entry
  let cs := l.frames.map fun f => s.frameCnt here f
  let count := cs.foldl (fun n c => n + c.count) 0
  let top := cs.foldl (fun (b : FrameCnt) c => if b.weight < c.weight then c else b) (cs.headD ⟨0, 0, 0, 0⟩)
  let p := s.helm.policy
  let warm := p.hot ≤ count && count ≤ 2 * top.weight
  if l.nomig || 1 < l.size || 1 < l.tier then none
  else match here with
    | none => if warm then some (some top.cand) else none
    | some v => if warm && top.cand != v then some (some top.cand) else if count < p.cold then some none else none

/-- `epoch_end` (R190, R191): pages judged and moves queued in CTXID and then VA order; then COUNT and WEIGHT halved. A page whose move is
queued or in progress is not queued again (DESIGN CHOICE, log entry 81). -/
def execEpochEnd : Exec := fun s =>
  .next <|
    let ids := (s.ctxs.map (·.id)).mergeSort
    let s := if !s.helm.policy.enable then s else
      ids.foldl (fun s id => (s.pagesOf id).foldl (fun s (va, l) =>
        match s.judge l with
        | some dest =>
          if s.pinned (vaultOf l.entry) dest || (s.moveOf id va l).isSome || (s.freeFrames id dest (2 ^ (l.log - 16))).isNone then s
          else s.queueMove (Move.queued id va l.entryPa dest)
        | none => s) s) s
    let half (l : List FrameCnt) : List FrameCnt := l.map fun f => { f with count := f.count / 2, weight := f.weight / 2 }
    { s with offFrames := half s.offFrames, cores := s.cores.map fun k => { k with vault := { k.vault with frames := half k.vault.frames } } }

/-! ### Moves (R192) -/

/-- The entry of a page changed in the off-stack table (R192). -/
def State.setEntry (s : State) (pa e : Nat) : State := { s with offstack := memSetN s.offstack pa 8 e }

/-- An entry with another tier, VID and frame. -/
def moveEntry (e : Nat) (vault : Option Nat) (frame : Nat) : Nat :=
  let keep := e - bitsOf e 62 61 * 2 ^ 61 - bitsOf e 54 47 * 2 ^ 47 - bitsOf e 39 16 * 2 ^ 16
  keep + frame * 2 ^ 16 + (match vault with | some v => v * 2 ^ 47 + 2 ^ 61 | none => 0)

/-- An entry with TIER = 10 (R192). -/
def movingEntry (e : Nat) : Nat := e - bitsOf e 62 61 * 2 ^ 61 + 2 ^ 62

/-- Frames taken from a context's pool, or given back to it (R375). -/
def Ctx.takePool (x : Ctx) (fs : List Nat) : Ctx := { x with poolFree := x.poolFree.filter fun f => !fs.contains f }
/-- Frames of a context's pool that are free again. -/
def Ctx.givePool (x : Ctx) (fs : List Nat) : Ctx :=
  { x with poolFree := fs.foldl (fun l f => if x.poolBase ≤ 65536 * f && 65536 * f < x.poolBase + x.poolSize then insertAsc f l else l) x.poolFree }

/-- Counters of frames zeroed (R192). -/
def State.zeroFrames (s : State) (e : Nat) (fs : List Nat) : State :=
  match vaultOf e with
  | some v => s.modCore v fun k => { k with vault := { k.vault with frames := k.vault.frames.filter fun f => !fs.contains f.frame } }
  | none => { s with offFrames := s.offFrames.filter fun f => !fs.contains f.frame }

/-- The next move of the queue looked at, if there is one. -/
def State.nextMove (s : State) (rest : List Move) : State :=
  let s := { s with helm := { s.helm with moves := rest } }
  if rest.isEmpty then s else s.postOnce (s.cycle + 1) .migrationMoveStart

/-- A move in progress undone: the entry restored, the destination's frames free, the move dropped (R193). -/
def State.undoMove (s : State) (m : Move) : State :=
  let s := s.setEntry m.entryPa m.source.toNat
  let s := if m.toVault.isNone then s.modCtx m.ctx (·.givePool (framesOfEntry m.dest.toNat)) else s
  ({ s with agenda := s.agenda.filter fun x => x.2 != Instr.migrationMoveComplete }).nextMove (s.helm.moves.drop 1)

/-- The head of the queue changed. -/
def State.putMove (s : State) (m : Move) : State := { s with helm := { s.helm with moves := m :: s.helm.moves.drop 1 } }

/-- The physical address of the chunk under way at a place that an entry maps. -/
def Move.chunkPa (m : Move) (e : Word) : Nat := bitsOf e.toNat 39 16 * 65536 + 4096 * m.chunk

/-- Whether a vault moves a chunk of a page in a cycle, its row being ready since one (R27, R29, R164, R192): in the last cycle of an agent
tick in which the agent has moved no beat, with the bank in no booking's ticks and in no window (DESIGN CHOICE, log entry 81). -/
def State.chunkMoves (s : State) (v bank rdy : Nat) : Bool :=
  let k := s.coreAt v
  agentTick s.tick && s.cycle % 8 = 7 && rdy + 10 ≤ 8 * s.tick && k.vault.portAt.all (· < 8 * s.tick) && !k.booked (codeBank bank) s.tick
    && (k.vault.windowEnd v bank (8 * s.tick) false).isNone && (k.vault.windowEnd v bank s.cycle false).isNone

/-- One cycle of the chunk under way at a vault's side: its row is taken a step further in an agent tick, under the row guard; answers
whether the vault moves the chunk now (R164, R165, R192). -/
def State.chunkTurn (s : State) (v pa : Nat) (m : Move) : State × Bool :=
  let k := s.coreAt v
  let bank := vbank pa
  if s.cycle < k.vault.powerAt || !agentTick s.tick then (s, false)
  else match m.rdy with
    | some r =>
      if (k.vault.bank bank).row != some (vrow pa) then (s.putMove { m with rdy := none }, false)
      else if s.chunkMoves v bank r then
        (s.modCore v fun k => { k with vault := { k.vault with portAt := some s.cycle, beatBank := bank } }, true)
      else (s, false)
    | none =>
      let (r, b) := k.vault.rowStep v bank (vrow pa) s.cycle (k.copyMoves s.tick bank (vrow pa))
      ((s.modCore v fun k => { k with vault := k.vault.setBank bank b }).putMove { m with rdy := r }, false)

/-- The blocks of a chunk, each with its number in the page and its place in the chunk. -/
def Move.blocks (m : Move) : List (Nat × Nat) := (List.range 64).map fun i => (64 * m.chunk + i, 64 * i)

/-- A block of a move sent or asked for as OP traffic between a vault's core and an off-stack controller (R192). -/
def State.blockRequest (s : State) (m : Move) (v pa : Nat) (op : ReqOp) (blk x : Nat) : State :=
  s.sendReq ⟨.copy v m.uid blk, m.ctx, v, 4, .off (ctrlOf pa), op, pa, 64, x, 0⟩

/-- The blocks of the chunk read at their source and on their way (R192): from a vault to an off-stack controller or to another vault, or
asked of off-stack memory. -/
def State.sendChunk (s : State) (m : Move) (spa dpa : Nat) : State :=
  m.blocks.foldl (fun s b =>
    match vaultOf m.source.toNat, m.toVault with
    | some v, some d => s.send (s.cycle + 1) ⟨.openOp, v, 4, .core d, .reply (.copy d m.uid b.1) (memGetN (s.coreAt v).vault.mem (spa + b.2) 64)⟩
    | some v, none => s.blockRequest m v (dpa + b.2) .put b.1 (memGetN (s.coreAt v).vault.mem (spa + b.2) 64)
    | none, some d => s.blockRequest m d (spa + b.2) .get b.1 0
    | none, none => s) s

/-- Whether a frame of a place is poisoned. -/
def State.framePoisoned (s : State) (vault : Option Nat) (pa : Nat) : Bool :=
  match vault with
  | some v => (s.coreAt v).vault.poisoned.contains (pa / 65536)
  | none => s.offPoisoned.contains (pa / 65536)

/-- The chunk under way ends, and the next one or the end of the move follows. -/
def State.chunkDone (s : State) (m : Move) : State :=
  if m.chunk + 1 < 16 * (framesOfEntry m.source.toNat).length then
    s.putMove { m with chunk := m.chunk + 1, asked := false, got := [], rdy := none }
  else (s.putMove { m with chunk := m.chunk + 1 }).post (s.cycle + 1) .migrationMoveComplete

/-- One cycle of the move in progress (R192): the chunk is read at its source, travels, and is written where its blocks have arrived. A
word that cannot be corrected, or a poisoned frame, raises FATAL_UE for the copy and undoes the move (R162). -/
def State.moveStep (s : State) (m : Move) : State :=
  let src := vaultOf m.source.toNat
  let spa := m.chunkPa m.source
  let dpa := m.chunkPa m.dest
  if 16 * (framesOfEntry m.source.toNat).length ≤ m.chunk then s
  else if !m.asked then
    let (s, now) := match src with
      | some v => s.chunkTurn v spa m
      | none => (s, true)
    if !now then s
    else
      let at_ := src.getD (m.toVault.getD 0)
      let bad := match src with
        | some v => (s.coreAt v).vault.badWord spa 4096
        | none => none
      match bad with
      | some w => (s.fatalWord at_ w 0 8).undoMove m
      | none =>
        if s.framePoisoned src spa then (s.fatalCopy at_ spa).undoMove m
        else
          let s := match src with
            | some v => s.vaultCorrect v spa 4096
            | none => s
          (s.sendChunk m spa dpa).putMove { m with asked := true, rdy := none }
  else if m.got.length < 64 then s
  else match m.toVault with
    | none => s.chunkDone m
    | some d =>
      let (s, now) := s.chunkTurn d dpa m
      if !now then s
      else (m.got.foldl (fun s b => s.modCore d fun k => { k with vault := { k.vault with
        mem := memSetN k.vault.mem (bitsOf m.dest.toNat 39 16 * 65536 + 64 * b.1) 64 b.2 } }) s).chunkDone m

/-- A block of the move in progress has reached its destination (R192). -/
def State.blockArrived (s : State) (uid blk x : Nat) : State :=
  match s.helm.moves with
  | m :: _ => if m.moving && m.uid == uid && blk / 64 = m.chunk && !m.got.any (·.1 == blk) then s.putMove { m with got := m.got ++ [(blk, x)] } else s
  | [] => s

/-- The head of the queue begins to move to a frame (R192): its entry keeps the source location with TIER = 10, and the vaults of both sides
are brought to active (R171). -/
def State.beginMove (s : State) (m : Move) (l : LeafAt) (f : Nat) : State :=
  let m := { m with entryPa := l.entryPa, source := BitVec.ofNat 64 l.entry, dest := BitVec.ofNat 64 (moveEntry l.entry m.toVault f),
                    moving := true, uid := s.serial }
  let s := ({ s with serial := s.serial + 1 }.putMove m).setEntry l.entryPa (movingEntry l.entry)
  let s := if m.toVault.isNone then s.modCtx m.ctx (·.takePool ((List.range (2 ^ (l.log - 16))).map (f + ·))) else s
  let wake (s : State) (v : Option Nat) : State := match v with
    | some v => s.modCore v fun k => { k with vault := k.vault.wake s.cycle }
    | none => s
  (wake (wake s (vaultOf l.entry)) m.toVault).postOnce (s.cycle + 1) .migrationMoveStart

/-- `migration_move_start` (R192): the move in progress goes on; else the head of the queue starts unless a booking pins it, for which it
looks again 8 cycles later. A move whose page can no longer move, or which finds no free frame, leaves the queue (DESIGN CHOICE, log
entry 81). -/
def execMigrationMoveStart : Exec := fun s =>
  .next <|
    match s.helm.moves with
    | [] => s
    | m :: rest =>
      if m.moving then
        let s := s.moveStep m
        if s.helm.moves.any (·.moving) then s.postOnce (s.cycle + 1) .migrationMoveStart else s
      else match s.leaf m.ctx m.va with
        | none => s.nextMove rest
        | some l =>
          if 1 < l.tier || 1 < l.size || l.nomig || vaultOf l.entry == m.toVault then s.nextMove rest
          else if s.pinned (vaultOf l.entry) m.toVault then s.postOnce (s.cycle + 8) .migrationMoveStart
          else match s.freeFrames m.ctx m.toVault (2 ^ (l.log - 16)) with
            | none => s.nextMove rest
            | some f => s.beginMove m l f

/-- `migration_move_complete` (R192): the page's bytes stand at the destination, its entry names it, and the source's frames are free, their
counters zero. -/
def execMigrationMoveComplete : Exec := fun s =>
  .next <|
    match s.helm.moves with
    | [] => s
    | m :: rest =>
      if !m.moving then s
      else
        let e := m.source.toNat
        let s := (s.setEntry m.entryPa m.dest.toNat).zeroFrames e (framesOfEntry e)
        let s := if (vaultOf e).isNone then s.modCtx m.ctx (·.givePool (framesOfEntry e)) else s
        s.nextMove rest

/-- What a booking with a vault entry aborts as `book` returns (R193). -/
def State.abortMoves (s : State) (n : Nat) : State :=
  match s.helm.moves with
  | m :: _ => if m.moving && (vaultOf m.source.toNat == some n || m.toVault == some n) then s.undoMove m else s
  | [] => s

end Sys2Proof.Machine
end

