-- ==== Sys2Proof/Machine/Mailbox.lean ====
section
/-! DEFINITION. The helm mailbox: command records and their parameters, the beginning of a command by its doorbell, and its
completion (R390, R391, Tables 14.15 to 14.18). -/

namespace Sys2Proof.Machine

/-- The statuses of Table 14.18. -/
def stDone : Nat := 0
/-- Unknown OP. -/
def stUnknown : Nat := 1
/-- Malformed parameters. -/
def stMalformed : Nat := 2
/-- No such context. -/
def stNoCtx : Nat := 3
/-- CTXID in use. -/
def stInUse : Nat := 4
/-- Rectangle invalid or overlapping. -/
def stRect : Nat := 5
/-- No free partition, context slot or journal space. -/
def stFull : Nat := 6
/-- Wrong state. -/
def stState : Nat := 7
/-- The context is not debuggable. -/
def stDenied : Nat := 8
/-- SEQ out of order. -/
def stSeq : Nat := 9
/-- Host memory or destination tier access failed. -/
def stAccess : Nat := 10

/-- n bytes of a record from an offset as a little-endian number. -/
def fieldAt (r : List Byte) (off n : Nat) : Nat := leNat ((r.drop off).take n)

/-- A list of bytes padded with zeros, or cut, to a length. -/
def padTo (n : Nat) (l : List Byte) : List Byte := (l ++ List.replicate (n - l.length) 0).take n

/-- SEQ of a command record (Table 14.16). -/
def cmdSeq (r : List Byte) : Nat := fieldAt r 0 4
/-- OP of a command record. -/
def cmdOp (r : List Byte) : Nat := fieldAt r 4 2
/-- LEN of a command record. -/
def cmdLen (r : List Byte) : Nat := fieldAt r 6 2
/-- The 248 parameter bytes of a command record. -/
def cmdParams (r : List Byte) : List Byte := padTo 248 (r.drop 8)

/-- Whether bytes are zero outside the fields given as offsets and lengths. -/
def zeroOutside (fields : List (Nat × Nat)) (p : List Byte) : Bool :=
  p.zipIdx.all fun (b, i) => b == 0 || fields.any fun (lo, n) => lo ≤ i && i < lo + n

/-- The SEQ that the next command must carry (Table 14.16). -/
def HostIf.nextSeq (h : HostIf) : Nat := if h.lastSeq + 1 = 2 ^ 32 then 1 else h.lastSeq + 1

/-- Whether the firmware runs (Table 14.15). -/
def HostIf.running (h : HostIf) : Bool := h.bootstat % 256 == 2

/-- One more signal of an MSI-X vector. -/
def HostIf.signalMsix (h : HostIf) (v : Nat) : HostIf := { h with msix := h.msix.setIfInBounds v ((h.msix[v]?).getD 0 + 1) }

/-- OPs whose first parameter is a context identifier (Table 14.17). -/
def opNamesCtx (op : Nat) : Bool := op != 0x0D && op != 0x0E && op != 0x0F

/-- The command in progress completed (R391): its response, MBXSTAT, a completion record of kind 3, and MSI-X vector 0. The fields of
the completion record that the spec does not give for kind 3 are free. -/
def State.finish (s : State) (status : Nat) (result : List Byte) : State :=
  match s.host.busy with
  | none => s
  | some r =>
    let resp := leBytes 4 (cmdSeq r) ++ leBytes 2 status ++ leBytes 2 result.length ++ padTo 248 result
    let free := (Config.freeWord s.fresh).toNat
    let ctx := if opNamesCtx (cmdOp r) then fieldAt (cmdParams r) 0 2 else free % 2 ^ 16
    let h := { s.host with mbxresp := resp, lastSeq := cmdSeq r, lastStatus := status, busy := none }
    let s := { s with host := h }.tickFree.complete ⟨cmdSeq r, 3, status, ctx, 0, free / 2 ^ 16 % 2 ^ 32, free / 2 ^ 48 % 256, free / 2 ^ 56, s.cycle⟩
    { s with host := s.host.signalMsix 0 }

/-- What a command comes to: a result, a status that changes nothing else or follows on work done, or work that completes it later. -/
inductive CmdOut
  | done (s : State) (result : List Byte)
  | refuse (status : Nat)
  | fail (s : State) (status : Nat)
  | later (s : State)

/-- A command of the mailbox performed, if it is the one in progress (R391). Its parameters must be zero outside the fields that
Table 14.17 gives it, and beyond LEN. During a takeover it waits for the standby (R394). -/
def State.command (s : State) (op : Nat) (event : Instr) (fields : List (Nat × Nat)) (f : State → List Byte → CmdOut) : State :=
  match s.host.busy with
  | none => s
  | some r =>
    if cmdOp r != op then s
    else if s.helm.role == .takeover then s.postOnce (s.cycle + 1) event
    else
      let p := cmdParams r
      if 248 < cmdLen r || !((p.drop (cmdLen r)).all (· == 0)) || !zeroOutside fields p then s.finish stMalformed []
      else match f s p with
        | .done s result => s.finish stDone result
        | .refuse st => s.finish st []
        | .fail s st => s.finish st []
        | .later s => s

/-- The event of an OP (Table 14.17). -/
def opEvent : Nat → Option Instr
  | 0x01 => some .create
  | 0x02 => some .destroy
  | 0x03 => some .place
  | 0x04 => some .window
  | 0x05 => some .loadcode
  | 0x06 => some .preempt
  | 0x07 => some .stop
  | 0x08 => some .resume
  | 0x09 => some .checkpoint
  | 0x0A => some .replay
  | 0x0B => some .attest
  | 0x0C => some .debugread
  | 0x0D => some .policy
  | 0x0E => some .journal
  | 0x0F => some .clearpoison
  | _ => none

/-- A doorbell (R391, Table 14.15): it submits the command in MBXCMD if it carries its SEQ and the mailbox is ready; a SEQ out of order
or an unknown OP completes at once. The helm acts within no bound. -/
def State.doorbell (s : State) (x : Nat) : State :=
  let r := padTo 256 s.host.mbxcmd
  if !s.host.running || s.host.busy.isSome || x != cmdSeq r then s
  else
    let expected := s.host.nextSeq
    let s := { s with host := { s.host with busy := some r } }
    if cmdSeq r != expected then s.finish stSeq []
    else match opEvent (cmdOp r) with
      | none => s.finish stUnknown []
      | some i => (s.post (s.cycle + 1 + Config.freeDelay s.fresh) i).tickFree

end Sys2Proof.Machine
end

