-- ==== Sys2Proof/Machine/Streams.lean ====
section
/-! DEFINITION. The stream and copy engine: descriptors, the six instructions, the engine's operations, parks, failures and the
completion of copies (R281 to R299). -/

namespace Sys2Proof.Machine

/-! ### Stream descriptors (R286) -/

/-- Field of n bytes at a byte offset of a descriptor. -/
def descAt (d off n : Nat) : Nat := d / 2 ^ (8 * off) % 2 ^ (8 * n)

/-- The least and the greatest offset of a pattern's units from its base. -/
def patternHull (cnt : List Nat) (str : List Int) : Int × Int :=
  (cnt.zip str).foldl (fun (a : Int × Int) p =>
    let e : Int := ((p.1 : Int) - 1) * p.2
    (a.1 + min 0 e, a.2 + max 0 e)) (0, 0)

/-- The scratchpad range of a pattern that lies there: its first offset and its length; none where no unit is local, an error
where a local pattern leaves the scratchpad. -/
def patternRange (base : Nat) (cnt : List Nat) (str : List Int) : Except Unit (Option (Nat × Nat)) :=
  let (lo, hi) := patternHull cnt str
  let first := (base : Int) + lo
  let last := (base : Int) + hi
  if (localBase : Int) ≤ first && last + 64 ≤ (localBase : Int) + 0x100000 then
    .ok (some ((first - localBase).toNat, (last + 64 - first).toNat))
  else if 0 ≤ first && last < (localBase : Int) then .ok none
  else .error ()

/-- The fields of a stream descriptor, or none where it is malformed (R286): the stream, its channel, and its scratchpad
pattern's range. -/
def streamOf (d : Nat) : Option (Stream × Nat × Option (Nat × Nat)) :=
  let base := descAt d 0 8 % 2 ^ 52
  let cnt := (List.range 4).map fun i => descAt d (8 + 4 * i) 4
  let str := (List.range 4).map fun i => signedOf 32 (descAt d (24 + 4 * i) 4)
  let chan := descAt d 40 1
  let flags := descAt d 41 1
  let depth := descAt d 42 1
  let ring := descAt d 44 4
  let bad := 15 < chan || 7 < flags || descAt d 43 1 != 0 || descAt d 48 16 != 0 || base % 64 != 0 || str.any (fun x => x % 64 != 0)
    || cnt.any (· == 0) || 2 ^ 48 ≤ cnt.foldl (· * ·) 1 || depth = 0 || 64 < depth || ring % 64 != 0 || 0x100000 < ring + 64 * depth
  if bad then none
  else match patternRange base cnt str with
    | .error _ => none
    | .ok rng =>
      let clash := match rng with
        | some (o, n) => o < ring + 64 * depth && ring < o + n
        | none => false
      if clash then none
      else some ({ uid := 0, thr := 0, sreg := 0, pc := 0, base := base, cnt := cnt, str := str, write := bitOf flags 0, elastic := bitOf flags 1,
                   fe := bitOf flags 2, depth := depth, ring := ring, slip := 0, readyAt := 0, requested := 0, requestAt := [], present := [],
                   taken := 0, drained := 0, failed := none, tiles := [], arrived := [] }, chan, rng)

/-! ### Copy descriptors (R290 to R292) -/

end Sys2Proof.Machine

namespace Sys2Proof

/-- Table 10.4. -/
def copyPair (ts td : ElemTy) : Bool :=
  (ts == td && !ts.isRecord && ts != .auto) ||
    (match ts with
    | .e4m3 | .e5m2 => td == .f16 || td == .bf16 || td == .f32
    | .f16 | .bf16 => td == .f32
    | .q8 | .q4 => td == .bf16 || td == .f32
    | .i8 | .i16 => td == .i32
    | .n8 | .n16 => td == .n32
    | _ => false)

end Sys2Proof

namespace Sys2Proof.Machine

/-- A range of rows as its first byte and the byte past its last. -/
def rowsEnd (base rows stride bytes : Nat) : Nat := base + (rows - 1) * stride + bytes

/-- Whether a range of VAs has a byte in the local region outside the scratchpad. -/
def leavesScratch (a e : Nat) : Bool := localBase < e && !(localBase ≤ a && e ≤ localBase + 0x100000)

/-- A copy from its descriptor, and the first failing byte offset if the descriptor is malformed (R290). -/
def copyOf (d : Nat) : Copy × Option Nat :=
  let g := descAt d 34 1
  let fl := descAt d 35 1
  let x : Copy :=
    { idx := 0, serial := 0, uid := 0, chan := 0, thr := 0, src := descAt d 0 8 % 2 ^ 52, dst := descAt d 8 8 % 2 ^ 52,
      rows := descAt d 16 4, cols := descAt d 20 4, srs := descAt d 24 4, drs := descAt d 28 4, stype := ElemTy.ofCode (min 15 (descAt d 32 1)),
      dtype := ElemTy.ofCode (min 15 (descAt d 33 1)), glog := g, trans := bitOf fl 0, crc := bitOf fl 1, fe := bitOf fl 2, event := bitOf fl 3,
      st := .queued, cause := 0, flags := 0, readyAt := 0, tile := 0, reads := [], asked := 0, writes := [], sent := 0, performed := 0,
      written := [], tiles := [] }
  let rec_ := x.stype.isRecord
  let gOk := if rec_ then 5 ≤ g && g ≤ 7 else g == 0
  let (dr, db) := x.dstRows
  let sEnd := rowsEnd x.src x.rows x.srs x.srcRow
  let dEnd := rowsEnd x.dst dr x.drs db
  let inScratch (a : Nat) : Bool := localBase ≤ a
  let overlap := inScratch x.src && inScratch x.dst && x.src < dEnd && x.dst < sEnd
  let pad := (List.range 28).find? fun i => descAt d (36 + i) 1 != 0
  let checks : List (Nat × Bool) :=
    [(0, x.src % (if rec_ then 4 else max 1 x.unit) != 0 || leavesScratch x.src sEnd || overlap),
     (8, x.dst % max 1 x.de != 0 || leavesScratch x.dst dEnd), (16, x.rows == 0), (20, x.cols == 0 || (rec_ && gOk && x.cols % x.G != 0)),
     (24, x.srs < x.srcRow), (28, x.drs < db), (32, x.stype == .auto), (33, !copyPair x.stype x.dtype), (34, !gOk),
     (35, 15 < fl || (x.crc && (!x.trans || x.stype == x.dtype)))]
  (x, ((checks.find? (·.2)).map (·.1)).or (pad.map (36 + ·)))

/-- The scratchpad tiles of a range of rows. -/
def rowTiles (base rows stride bytes : Nat) : List Nat :=
  if base < localBase then [] else ((List.range rows).flatMap fun r => tilesOf (localOff base + r * stride) bytes).eraseDups

/-! ### CRC-32C (R292) -/

/-- One byte of CRC-32C, reflected. -/
def crcByte (c : Nat) (b : Byte) : Nat :=
  (List.range 8).foldl (fun c _ => if c % 2 = 1 then Nat.xor (c / 2) 0x82F63B78 else c / 2) (Nat.xor c b.toNat)

/-- CRC-32C of the data bytes of a copy's destination rows, as written (R292). -/
def Copy.crcOf (x : Copy) : Nat :=
  let (n, len) := x.dstRows
  Nat.xor 0xFFFFFFFF ((List.range n).foldl (fun c r => (List.range len).foldl (fun c i => crcByte c (memGet x.written (x.dst + r * x.drs + i))) c) 0xFFFFFFFF)

/-- The status word (Table 10.5). -/
def Copy.status (x : Copy) : Nat :=
  let st := match x.st with
    | .queued => 1 | .running => 2 | .parked => 3 | .done => 4 | .failed => 5
  st + x.flags / 16 % 32 * 2 ^ 8 + x.cause % 256 * 2 ^ 16 + (if x.crc && x.st == .done then x.crcOf * 2 ^ 32 else 0)

/-! ### Tiles of the engine (R283) -/

/-- The owner stop of tiles that the engine needs: OWNER where another engine or the agent owns one; a wait for a tile access
(R178, R295). -/
def State.needTiles (s : State) (us : List Nat) : Option Stop :=
  match us.find? fun u => s.me.owner u != 0 && s.me.owner u != 2 with
  | some u => some (.trap { cause := causeOwner, addr := localBase + 4096 * u })
  | none => if us.any fun u => (s.me.tileOn u).isSome then some (.wait (s.cycle + 1)) else none

/-- Tiles whose user has ended return to thread unless another stream or copy uses them (R283). -/
def Core.releaseTiles (k : Core) (us : List Nat) : Core :=
  let used (u : Nat) : Bool := k.engine.streams.any (fun p => p.2.tiles.contains u) ||
    k.engine.copies.any fun x => x.tiles.contains u
  k.flip (us.filter fun u => !used u) 0

/-! ### cpy, sbind (R294, R295) -/

/-- A channel's stream ended: the channel is free and its tiles are released; fills of it that are outstanding complete into nothing
(R297). -/
def Core.unbind (k : Core) (ch : Nat) : Core :=
  match k.engine.streams.find? (·.1 == ch) with
  | none => k
  | some (_, x) =>
    let loose (a : VaultAcc) : VaultAcc := if a.by_ == Requester.stream ch then { a with by_ := .stream noChannel, op := .load } else a
    { k with
      engine := { k.engine with streams := k.engine.streams.filter (·.1 != ch), parks := k.engine.parks.filter (·.chan != ch) }
      vault := { k.vault with accs := k.vault.accs.map loose } }.releaseTiles x.tiles

/-- Every stream of a thread ended. -/
def Core.unbindAll (k : Core) (t : Nat) : Core :=
  ((k.engine.streams.filter fun p => p.2.thr == t).map (·.1)).foldl Core.unbind k

/-- What a destination is to lose of a vector register that `sbind` takes: an answer still under way does not write it (R284). -/
def loseReg (m : Nat) (d : Dest) (units : List (Nat × Option (Nat × Nat))) : List (Nat × Option (Nat × Nat)) :=
  match d with
  | .v n c => if n ≤ m && m < n + c && !units.any (·.1 == m) then units ++ [(m, none)] else units
  | _ => units

/-- The answers under way to a thread's vector register lose it (R284). -/
def Core.loseAnswers (k : Core) (t m : Nat) : Core :=
  let k := k.setThr t { k.thr t with outs := (k.thr t).outs.map fun o => { o with units := loseReg m o.dest o.units } }
  let lose (o : SfuOp) : SfuOp := if o.thr == t then { o with units := loseReg m (.v o.d o.regs) o.units } else o
  { k with sfu := { k.sfu with ops := k.sfu.ops.map lose, removed := k.sfu.removed.map lose } }

/-- The descriptor of a `cpy` or `sbind`: its address checked, its tile owned by thread, its bank taken (R294, R295). -/
def readDescriptor (a : GReg) (us : List Use) : Act (State × Nat) := do
  let s ← operandsOpenOnly us
  let va := (s.readG a).toNat % 2 ^ 52
  if va % 64 != 0 then fault { cause := causeAlign, addr := va }
  if !isLocal va || 0x100000 ≤ localOff va then fault { cause := causeProt, addr := va, det0 := 5 }
  if s.me.owner (localOff va / 4096) != 0 then fault { cause := causeOwner, addr := va }
  takeBanks [(bankOf (localOff va), s.cycle)]
  pure (s, s.me.sramRead (localOff va) 64)

/-- A failure status (R295). -/
def failWord (st : Nat) : Word := BitVec.ofNat 64 (2 ^ 63 + st)

/-- `cpy` (R295). -/
def execCpy (d a : GReg) (c : BitVec 4) : Exec :=
  runThread do
    let (s, desc) ← readDescriptor a [.rg a false, .wg d]
    let (x, bad) := copyOf desc
    match bad with
    | some off => fault { cause := causeEngine, det0 := 14, det1 := off }
    | none => pure ()
    let (dr, db) := x.dstRows
    let tiles := (rowTiles x.src x.rows x.srs x.srcRow ++ rowTiles x.dst dr x.drs db).eraseDups
    orStop (s.needTiles tiles)
    let live (y : Copy) : Bool := y.st == .queued || y.st == .running || y.st == .parked || !y.tiles.isEmpty
    let copies := s.me.engine.copies
    if 512 ≤ (copies.filter live).length then
      change fun s => s.writeG d (failWord 1) 2
    else if s.me.engine.streams.any (·.1 == c.toNat) then
      change fun s => s.writeG d (failWord 2) 2
    else
      let idx := ((List.range 512).find? fun i => !copies.any fun y => y.idx == i && live y).getD 0
      let serial := (s.me.engine.serial + 1) % 65536
      let x := { x with idx := idx, serial := serial, uid := s.me.engine.unitSerial, chan := c.toNat, thr := s.ct, readyAt := s.cycle + 2, tiles := tiles }
      change fun s => ((s.modMe fun k =>
        let k := k.flip tiles 2
        { k with engine := { k.engine with copies := k.engine.copies.filter (·.idx != idx) ++ [x], serial := serial, unitSerial := x.uid + 1 } }).writeG
          d (BitVec.ofNat 64 (idx + serial * 2 ^ 9)) 2).postOnce (s.cycle + 2) .streamEngineOperation
    done 2

/-- `sbind` (R284, R295). -/
def execSbind (d a : GReg) (n : BitVec 3) : Exec :=
  runThread do
    let (s, desc) ← readDescriptor a [.rg a false, .wg d]
    match streamOf desc with
    | none => fault { cause := causeEngine, det0 := 13 }
    | some (x, ch, rng) =>
      let tiles := (tilesOf x.ring (64 * x.depth) ++ (match rng with | some (o, m) => tilesOf o m | none => [])).eraseDups
      orStop (s.needTiles tiles)
      let e := s.me.engine
      if e.streams.any fun p => p.2.thr == s.ct && p.2.sreg == n.toNat then
        change fun s => s.writeG d (failWord 1) 2
      else if e.streams.any (·.1 == ch) || e.copies.any fun y => y.chan == ch && (y.st == .queued || y.st == .running || y.st == .parked) then
        change fun s => s.writeG d (failWord 2) 2
      else
        let x := { x with uid := e.unitSerial, thr := s.ct, sreg := n.toNat, pc := s.th.pc.toNat, slip := s.th.lslip.toNat % 65536,
                          readyAt := s.cycle + 1, tiles := tiles, requestAt := if x.elastic && !x.write then (List.range (min x.depth x.units)).map fun u => (u, s.cycle + 1) else [] }
        change fun s => (((s.modMe fun k =>
          let k := (k.flip tiles 2).loseAnswers s.ct (24 + n.toNat)
          { k with engine := { k.engine with streams := k.engine.streams ++ [(ch, x)], unitSerial := x.uid + 1 } }).modTh fun th =>
            th.setVreg (24 + n.toNat) (Reg.of 0)).writeG d 0 2).postOnce (s.cycle + 1) .streamEngineOperation
      done 2

/-! ### cpyq, cpyw, sunb, sparkq (R296 to R298) -/

/-- The copy that a handle names. -/
def Core.copyAt (k : Core) (h : Nat) : Option Copy :=
  if h / 2 ^ 25 != 0 then none else k.engine.copies.find? fun x => x.idx == h % 512 && x.serial == h / 512 % 65536

/-- The status of a handle; STATE 0 where it names no copy. -/
def Core.copyStatus (k : Core) (h : Nat) : Word := BitVec.ofNat 64 (match k.copyAt h with | some x => x.status | none => 0)

/-- `cpyq` (R296). -/
def execCpyq (d a : GReg) : Exec :=
  runThread (scalarOp [.rg a false] d (fun s => s.me.copyStatus (s.readG a).toNat) 2 1)

/-- `cpyw` (R296): it waits until the copy's status is final and its tiles are released. -/
def execCpyw (d a : GReg) : Exec :=
  runThread do
    let s ← operandsOpenOnly [.rg a false, .wg d]
    let h := (s.readG a).toNat
    match s.me.copyAt h with
    | some x => if (x.st != .done && x.st != .failed) then drain
    | none => pure ()
    change fun s => s.writeG d (s.me.copyStatus h) 0
    drained

/-- `sunb` (R297). -/
def execSunb (d : GReg) (n : BitVec 3) : Exec :=
  runThread do
    let s ← operandsOpenOnly [.wg d]
    match s.me.engine.streams.find? fun p => p.2.thr == s.ct && p.2.sreg == n.toNat with
    | none => fault { cause := causeEngine, det0 := 11, det1 := n.toNat }
    | some (ch, x) =>
      if x.write then
        match x.failed with
        | some (u, cause) => fault (s.streamExc x { cause := cause, addr := x.unitVa u, source := some 6 })
        | none => if x.drained < x.taken then stall
      change fun s => ((s.modMe (·.unbind ch)).modTh fun th => th.setVreg (24 + n.toNat) (Reg.of 0)).writeG d (BitVec.ofNat 64 x.taken) 1
      done 1

/-- The word `sparkq` writes (Table 10.7). -/
def Core.slotWord (k : Core) (ch : Nat) : Word :=
  let e := k.engine
  let x := e.streams.find? (·.1 == ch)
  let copies := e.copies.any fun y => y.chan == ch && (y.st == .queued || y.st == .running || y.st == .parked)
  let park := e.parks.find? (·.chan == ch)
  BitVec.ofNat 64 ((if park.isSome then 2 ^ 63 else 0) + (if copies then 2 ^ 62 else 0) + (if copies || x.isSome then 2 ^ 61 else 0)
    + (match x with | some p => p.2.sreg * 2 ^ 57 + (if p.2.failed.isSome then 2 ^ 60 else 0) | none => 0)
    + (match park with | some p => p.va | none => 0))

/-- `sparkq` (R298). -/
def execSparkq (d a : GReg) : Exec :=
  runThread do
    let s ← operands [.rg a false, .wg d]
    let w := (s.readG a).toNat
    if 15 < w then fault { cause := causeEngine, det0 := 15 }
    change fun s => s.writeG d (s.me.slotWord w) 2
    done 1

/-! ### Tiles of a copy's source (R293) -/

/-- A part of the source: its first row and column, and its rows and columns. -/
structure Part where
  r0 : Nat
  c0 : Nat
  h : Nat
  w : Nat
  deriving DecidableEq, Repr

/-- The number of source tiles, and one of them, in row-major order. -/
def Copy.parts (x : Copy) : Nat := ceilDiv x.rows 64 * ceilDiv x.cols 64
/-- A source tile of at most 64 by 64 elements. -/
def Copy.part (x : Copy) : Part :=
  let per := ceilDiv x.cols 64
  let r := 64 * (x.tile / per)
  let c := 64 * (x.tile % per)
  ⟨r, c, min 64 (x.rows - r), min 64 (x.cols - c)⟩

/-- The 64-byte blocks that ranges of VAs touch, ascending. -/
def blocksOver (rs : List (Nat × Nat)) : List Nat :=
  rs.foldl (fun l r => (List.range ((r.1 + r.2 - 1) / 64 - r.1 / 64 + 1)).foldl (fun l i => insertAsc ((r.1 / 64 + i) * 64 % 2 ^ 52) l) l) []

/-- The blocks a tile reads. -/
def Copy.readBlocks (x : Copy) : List Nat :=
  let p := x.part
  blocksOver ((List.range p.h).map fun r =>
    let row := x.src + (p.r0 + r) * x.srs
    if x.stype.isRecord then (row + p.c0 / x.G * x.unit, ((p.c0 + p.w - 1) / x.G - p.c0 / x.G + 1) * x.unit) else (row + p.c0 * x.unit, p.w * x.unit))

/-- The VA of the destination element for source element (r, c). -/
def Copy.dstAt (x : Copy) (r c : Nat) : Nat := if x.trans then x.dst + c * x.drs + r * x.de else x.dst + r * x.drs + c * x.de

/-- The blocks a tile writes. -/
def Copy.writeBlocks (x : Copy) : List Nat :=
  let p := x.part
  if x.trans then blocksOver ((List.range p.w).map fun c => (x.dstAt p.r0 (p.c0 + c), p.h * x.de))
  else blocksOver ((List.range p.h).map fun r => (x.dstAt (p.r0 + r) p.c0, p.w * x.de))

/-- A byte of the blocks a tile has read. -/
def Copy.byte (x : Copy) (va : Nat) : Nat :=
  match x.reads.find? (·.1 == va % 2 ^ 52 / 64 * 64) with
  | some (_, some d) => d / 2 ^ (8 * (va % 64)) % 256
  | _ => 0

/-- n bytes of the blocks a tile has read. -/
def Copy.bytesAt (x : Copy) (va : Nat) : Nat → Nat
  | 0 => 0
  | n + 1 => x.byte va + 256 * x.bytesAt (va + 1) n

/-- The converted element (r, c) with its flags (R291). -/
def Copy.elem (x : Copy) (r c : Nat) : Nat × Nat :=
  let row := x.src + r * x.srs
  if x.stype.isRecord then
    match recordValue (x.stype == .q4) x.G (x.bytesAt (row + c / x.G * x.unit) x.unit) (c % x.G) with
    | some v => x.dtype.ffmt.roundVal .rne false v
    | none => (x.dtype.ffmt.nan, flagNV)
  else
    let e := x.bytesAt (row + c * x.unit) x.unit
    if x.stype == x.dtype then (e, 0) else cvtElem x.stype x.dtype false .rne e

/-- The elements of a tile with their destination VAs. -/
def Copy.cells (x : Copy) : List (Nat × Nat × Nat) :=
  let p := x.part
  (List.range p.h).flatMap fun r => (List.range p.w).map fun c => let e := x.elem (p.r0 + r) (p.c0 + c); (x.dstAt (p.r0 + r) (p.c0 + c) % 2 ^ 52, e.1, e.2)

/-- The part of n bytes from a VA that lies in the block at another, as data and byte mask. -/
def blockPart (b va n v : Nat) : Nat × Nat :=
  if va + n ≤ b || b + 64 ≤ va then (0, 0)
  else if b ≤ va then (v % 2 ^ (8 * n) * 2 ^ (8 * (va - b)) % 2 ^ 512, (2 ^ n - 1) * 2 ^ (va - b) % 2 ^ 64)
  else (v % 2 ^ (8 * n) / 2 ^ (8 * (b - va)), (2 ^ n - 1) / 2 ^ (b - va))

/-- The data and the byte mask of a destination block: the bytes that the copy owns there, of an element that begins in the block before
those that reach into this one (R293). -/
def Copy.blockData (x : Copy) (b : Nat) : Nat × Nat :=
  x.cells.foldl (fun (a : Nat × Nat) (va, v, _) => let p := blockPart b va x.de v; (a.1 + p.1, a.2 + p.2)) (0, 0)

/-! ### The engine's operations (R282, R286, R293) -/

/-- A scratchpad bank free to the engine in a cycle (R185, R282). -/
def Core.engineBank (k : Core) (cycle ch bank : Nat) : Bool :=
  let mine := (k.channelSlot cycle ch).any fun i => holdsTick (k.booking i).holds (0x10 + bank) (cycle / 8)
  (mine || !k.booked (0x10 + bank) (cycle / 8)) && !k.bankUses.any fun u => u.bank == bank && u.cycle == cycle

/-- Whether the row of an engine's vault access may be requested now (R27, R165). -/
def Core.engineRow (k : Core) (cycle ch : Nat) (segs : List Seg) : Bool :=
  let own := k.channelSlot cycle ch
  segs.all fun g =>
    ((own.any fun i => holdsTick (k.booking i).holds (codeBank g.bank) (cycle / 8)) || !k.booked (codeBank g.bank) (cycle / 8)) &&
      !(k.guarded g.bank (cycle / 8) own && k.vault.movesRow g.bank g.row) && (k.vault.repairOf g.bank g.row).isNone

/-- A vault access of the engine issued (R164, R190). -/
def State.engineVault (s : State) (c ch : Nat) (op : BeatOp) (va pa lo data acc : Nat) : State :=
  let k := s.coreAt c
  let segs := k.vault.request (op != .load && op != .tileLoad) (segsFrom 2 pa 64 0)
  let v := k.vault.touch pa 64 c
  let a : VaultAcc := ⟨v.serial, .stream ch, acc, op, va, 64, lo, data, 0, segs, none, 0, none, false, none, none⟩
  let s := s.modCore c fun k => ({ k with vault := { v with serial := v.serial + 1, accs := v.accs ++ [a] } } : Core).rowTurn c s.cycle a
  s.post (s.cycle + 1) (match op with
    | .tileLoad | .tileStore => .tileBeat c a.id
    | _ => .vaultAccessBeat c a.id)

/-- A request of the engine to an off-stack controller (R20); a put names its bytes by a mask. -/
def State.engineOff (s : State) (c ch : Nat) (put : Bool) (pa data mask id : Nat) : State :=
  s.sendReq ⟨.engine c ch id true, (s.coreAt c).ctx, c, 4, .off (ctrlOf pa), if put then .put else .get, pa, 64, data, mask⟩

/-- A channel parked (R288); a PAGE park writes a STREAMPARK record. -/
def State.park (s : State) (c ch va position : Nat) (page : Bool) : State :=
  let s := s.modCore c fun k => { k with engine := { k.engine with
    parks := k.engine.parks ++ [⟨ch, va, page⟩]
    copies := k.engine.copies.map fun x => if x.chan == ch && x.st == .running then { x with st := .parked } else x } }
  if page then
    s.noteRecord { cause := causeStreampark, flags := 0, source := 6, core := c, ctx := (s.coreAt c).ctx, pc := 0, addr := va, insn := 0,
                   ss := s.ssOf c, cycle := s.cycle, det0 := ch, det1 := position, bookid := 0 }
  else s

/-- A stream of a core changed. -/
def State.modStreamAt (s : State) (c ch : Nat) (f : Stream → Stream) : State := s.modCore c fun k => k.modStream ch f

/-- A copy of a core changed. -/
def State.modCopy (s : State) (c uid : Nat) (f : Copy → Copy) : State :=
  s.modCore c fun k => { k with engine := { k.engine with copies := k.engine.copies.map fun x => if x.uid == uid then f x else x } }

/-- What a translation that does not lead to memory does to a channel (R288, R289); none where it leads there. -/
def State.blocked (s : State) (c ch id va position : Nat) : Xlate → Option State
  | .page => some (s.park c ch va position true)
  | .moving => some (s.park c ch va position false)
  | .prot => some (s.engineFail c ch id causeProt)
  | .foreign _ => some (s.engineFail c ch id causeForeign)
  | .poison _ => some (s.engineFail c ch id causeFatalUe)
  | _ => none

/-- Whether the drains of a stream before its next one leave it its turn (R286): an off-stack or local one waits for every earlier one
to perform, one to the vault for the off-stack ones, the controller keeping its own accesses in order. -/
def Core.drainTurn (k : Core) (ch : Nat) (x : Stream) (vault : Bool) : Bool :=
  x.requestAt.isEmpty && (vault || !k.vault.accs.any fun a => a.by_ == Requester.stream ch && a.op == .tileStore)

/-- A stream's next fill or drain, if it can be performed in this cycle: the state after, and whether it was an operation. No fill
starts while the core is pre-empted (R299). -/
def State.streamOp (s : State) (c ch : Nat) (x : Stream) : Option (State × Bool) :=
  let k := s.coreAt c
  let u := x.requested
  let ready := x.readyAt ≤ s.cycle && x.failed.isNone &&
    (if x.write then x.present.any (·.1 == u) else k.preempt == .none && u < min x.units (x.taken + x.depth))
  if !ready then none
  else
    let va := x.unitVa u
    let place := x.place u
    let id := engineId x.uid x.write u
    let next (s : State) : State := s.modStreamAt c ch fun y =>
      { y with requested := u + 1, present := if x.write then y.present.filter (·.1 != u) else y.present }
    let tr := s.translate c k.ctx va (!x.write) x.write
    match tr with
    | .loc off =>
      let banks := [bankOf place, bankOf off].eraseDups
      let grans := granulesOf off 64
      if !(banks.all fun b => k.engineBank s.cycle ch b) || (x.fe && !x.write && !grans.all k.granFull) || (x.write && !k.drainTurn ch x false) then none
      else
        let step (k : Core) : Core :=
          let k := k.useBanks s.cycle 5 (banks.map fun b => (b, s.cycle))
          if x.write then (k.sramWrite off 64 (k.sramRead place 64)).fillGrans off 64
          else
            let k := if x.fe then grans.foldl (fun k g => k.setGran g false) k else k
            (k.sramWrite place 64 (k.sramRead off 64)).fillGrans place 64
        let s := next (s.modCore c step)
        some (s.modStreamAt c ch (fun y => if x.write then { y with drained := y.drained + 1 } else { y with present := y.present ++ [(u, s.cycle)] }), true)
    | .vault pa =>
      if !k.engineRow s.cycle ch (segsFrom 2 pa 64 0) || (x.write && !k.drainTurn ch x true) then none
      else some (next (s.engineVault c ch (if x.write then .tileStore else .tileLoad) va pa place 0 id), true)
    | .offstack pa =>
      if x.write && (!k.drainTurn ch x false || !k.engineBank s.cycle ch (bankOf place)) then none
      else
        let s := if x.write then (s.modCore c fun k => k.useBanks s.cycle 5 [(bankOf place, s.cycle)]).modStreamAt c ch fun y =>
            { y with requestAt := y.requestAt ++ [(u, s.cycle)] } else s
        some (next (s.engineOff c ch x.write pa (if x.write then k.sramRead place 64 else 0) 0 id), true)
    | tr => (s.blocked c ch id va x.taken tr).map fun s => (s, false)

/-- A copy's next block read or write, if it can be performed in this cycle. -/
def State.copyOp (s : State) (c ch : Nat) (x : Copy) : Option (State × Bool) :=
  let k := s.coreAt c
  if s.cycle < x.readyAt then none
  else if x.asked < x.reads.length then
    let va := ((x.reads[x.asked]?).map (·.1)).getD 0
    let id := engineId x.uid false x.asked
    let tr := s.translate c k.ctx va true false
    let next (s : State) : State := s.modCopy c x.uid fun y => { y with asked := y.asked + 1 }
    match tr with
    | .loc off =>
      let grans := granulesOf off 64
      if !k.engineBank s.cycle ch (bankOf off) || (x.fe && !grans.all k.granFull) then none
      else
        let s := s.modCore c fun k =>
          let k := k.useBanks s.cycle 5 [(bankOf off, s.cycle)]
          if x.fe then grans.foldl (fun k g => k.setGran g false) k else k
        some (next (s.modCopy c x.uid fun y => { y with reads := y.reads.map fun r => if r.1 == va then (va, some (k.sramRead off 64)) else r }), true)
    | .vault pa => if !k.engineRow s.cycle ch (segsFrom 2 pa 64 0) then none else some (next (s.engineVault c ch .load va pa 0 0 id), true)
    | .offstack pa => some (next (s.engineOff c ch false pa 0 0 id), true)
    | tr => (s.blocked c ch id va x.tile tr).map fun s => (s, false)
  else if x.reads.any fun r => r.2.isNone then none
  else if x.sent < x.writes.length then
    let va := (x.writes[x.sent]?).getD 0
    let id := engineId x.uid true x.sent
    let (data, mask) := x.blockData va
    let tr := s.translate c k.ctx va false true
    let next (s : State) : State := s.modCopy c x.uid fun y => { y with sent := y.sent + 1, written := if y.crc then memSetMasked y.written va 64 data mask else y.written }
    match tr with
    | .loc off =>
      if !k.engineBank s.cycle ch (bankOf off) then none
      else
        let fill (k : Core) : Core := (granulesOf off 64).foldl (fun k g =>
          if mask / 2 ^ (16 * g - off) % 2 ^ 16 != 0 then k.setGran g true else k) k
        let s := s.modCore c fun k =>
          let k := (k.useBanks s.cycle 5 [(bankOf off, s.cycle)]).noteStale off 64
          fill { k with sram := memSetMasked k.sram off 64 data mask }
        some (next (s.modCopy c x.uid fun y => { y with performed := y.performed + 1 }), true)
    | .vault pa => if !k.engineRow s.cycle ch (segsFrom 2 pa 64 0) then none else some (next (s.engineVault c ch (.masked mask) va pa 0 data id), true)
    | .offstack pa => some (next (s.engineOff c ch true pa data mask id), true)
    | tr => (s.blocked c ch id va x.tile tr).map fun s => (s, false)
  else none

/-- A copy that begins a source tile: its blocks; the first tile makes it running. -/
def Copy.begin (x : Copy) : Copy :=
  let x := { x with st := .running, asked := 0, sent := 0, performed := 0 }
  { x with reads := x.readBlocks.map fun b => (b, none), writes := x.writeBlocks }

/-- After a write of a copy: the next tile, or completion in a later cycle (R293). -/
def State.copyTurn (s : State) (c uid : Nat) (doneAt : Nat) : State :=
  match (s.coreAt c).engine.copies.find? fun x => x.uid == uid && x.st == .running with
  | none => s
  | some x =>
    if x.performed < x.writes.length || x.writes.isEmpty then s
    else
      let fl := x.cells.foldl (fun f e => f ||| e.2.2) x.flags
      if x.tile + 1 < x.parts then s.modCopy c uid fun y => { y with tile := y.tile + 1, flags := fl }.begin
      else (s.modCopy c uid fun y => { y with flags := fl, writes := [] }).post doneAt (.copyComplete c x.idx)

/-- The operation of a channel in this cycle, if it can be performed. -/
def State.channelOp (s : State) (c ch : Nat) : Option (State × Bool) :=
  let e := (s.coreAt c).engine
  if e.parks.any (·.chan == ch) then none
  else match e.streams.find? (·.1 == ch) with
    | some (_, x) => s.streamOp c ch x
    | none =>
      match e.copies.find? fun y => y.chan == ch && (y.st == .queued || y.st == .running) with
      | none => none
      | some y =>
        let (s, y) := if y.st == .queued then
            if y.readyAt ≤ s.cycle then (s.modCopy c y.uid Copy.begin, y.begin) else (s, y)
          else (s, y)
        (s.copyOp c ch y).map fun (s', did) => (s'.copyTurn c y.uid (s.cycle + 1), did)

/-- Channels parked on a move go on when it has ended (R288). -/
def State.unparkMoved (s : State) (c : Nat) : State :=
  let e := (s.coreAt c).engine
  e.parks.foldl (fun s p =>
    if p.page || s.translate c (s.coreAt c).ctx p.va false false == .moving then s
    else s.modCore c fun k => { k with engine := { k.engine with
      parks := k.engine.parks.filter (·.chan != p.chan)
      copies := k.engine.copies.map fun x => if x.chan == p.chan && x.st == .parked then { x with st := .running } else x } }) s

/-- The channels in the order in which the engine tries them (R282). -/
def Core.channelOrder (k : Core) (cycle : Nat) : List Nat :=
  let first := ((List.range 16).find? fun ch => (k.channelSlot cycle ch).isSome).toList
  first ++ ((List.range 16).map fun i => (k.engine.served + 1 + i) % 16)

/-- Whether the engine has work left. -/
def Core.engineWork (k : Core) : Bool :=
  !k.engine.streams.isEmpty || k.engine.copies.any fun x => x.st == .queued || x.st == .running || x.st == .parked

/-- An off-stack unit that has arrived written into its ring, if the ring's bank serves the engine in this cycle (R27, R282). -/
def State.landUnit (s : State) (c ch : Nat) (x : Stream) (y : Nat × Nat) : State :=
  if !(s.coreAt c).engineBank s.cycle ch (bankOf (x.place y.1)) then s
  else
    (s.modCore c fun k => ((k.useBanks s.cycle 5 [(bankOf (x.place y.1), s.cycle)]).sramWrite (x.place y.1) 64 (y.2 % 2 ^ 512)).fillGrans
      (x.place y.1) 64).modStreamAt c ch fun z => { z with present := z.present ++ [(y.1, s.cycle)], arrived := z.arrived.filter (·.1 != y.1) }

/-- One cycle of an engine: the units that have arrived, then the first channel in order whose operation can be performed. -/
def State.engineStep (s : State) (c : Nat) : State :=
  let s := s.unparkMoved c
  let s := (s.coreAt c).engine.streams.foldl (fun s p => p.2.arrived.foldl (fun s y => s.landUnit c p.1 p.2 y) s) s
  (((s.coreAt c).channelOrder s.cycle).foldl (fun (a : State × Bool) ch =>
    if a.2 then a
    else match a.1.channelOp c ch with
      | none => a
      | some (s, true) => (s.modCore c fun k => { k with engine := { k.engine with served := ch } }, true)
      | some (s, false) => (s, false)) (s, false)).1

/-- `stream_engine_operation` (R282): one cycle of every engine that has work. -/
def execStreamEngineOperation : Exec := fun s =>
  .next <| s.eachCore fun s c =>
    if !(s.coreAt c).engineWork then s
    else
      let s := s.engineStep c
      if (s.coreAt c).engineWork then s.postOnce (s.cycle + 1) .streamEngineOperation else s

/-- A reply to the engine: a unit present or drained, a block read or written (R285, R293). -/
def State.engineReply (s : State) (c ch id value : Nat) (off : Bool) : State :=
  let uid := id / 2 ^ 49
  let write := id / 2 ^ 48 % 2 == 1
  let u := id % 2 ^ 48
  match (s.coreAt c).engine.streams.find? fun p => p.1 == ch && p.2.uid == uid with
  | some (_, x) =>
    if x.write then s.modStreamAt c ch fun y => { y with drained := y.drained + 1, requestAt := y.requestAt.filter (·.1 != u) }
    else if off then s.modStreamAt c ch fun y => { y with arrived := y.arrived ++ [(u, value)] }
    else s.modStreamAt c ch fun y => { y with present := y.present ++ [(u, s.cycle - 1)] }
  | none =>
    if write then (s.modCopy c uid fun y => { y with performed := y.performed + 1 }).copyTurn c uid (if off then s.cycle + 1 else s.cycle)
    else s.modCopy c uid fun y => { y with reads := y.reads.zipIdx.map fun (r, i) => if i = u then (r.1, some value) else r }

/-- A core's engine with a channel no longer parked (R288). -/
def StreamEngine.resume (e : StreamEngine) (ch : Nat) : StreamEngine :=
  { e with
    parks := e.parks.filter (·.chan != ch)
    copies := e.copies.map fun x => if x.chan == ch && x.st == .parked then { x with st := .running } else x }

/-- `channel_resume` (R288): the helm signals that the entry is repaired; the channel tries the same unit again. -/
def execChannelResume (c ch : Nat) : Exec := fun s =>
  .next ((s.modCore c fun k => { k with engine := k.engine.resume ch }).postOnce s.cycle .streamEngineOperation)

/-- `copy_complete` (R293): the copy's tiles are released, its status is final, and an EVENT copy sets event bit 2 of its thread. -/
def execCopyComplete (c idx : Nat) : Exec := fun s =>
  .next <|
    match (s.coreAt c).engine.copies.find? (·.idx == idx) with
    | none => s
    | some x =>
      let s := s.modCopy c x.uid fun y => { y with st := if y.st == .failed then .failed else .done, tiles := [], reads := [], writes := [] }
      let s := s.modCore c (·.releaseTiles x.tiles)
      if x.event then s.modThr c x.thr fun th => { th with evpend := th.evpend ||| 4 } else s

end Sys2Proof.Machine
end

