-- ==== Sys2Proof/Machine/Remote.lean ====
section
/-! DEFINITION. The remote-procedure and message class: the eight instructions, the vault agent with its windows and actions, the
message and launch queues, the off-stack controllers, and the arrival of replies and refusals (R300 to R321). -/

namespace Sys2Proof.Machine

/-! ### Target words (R314) -/

/-- ENGINE with code 16 of a malformed target word or active-message word (R314). -/
def engine16 (w : Nat) : Exc := { cause := causeEngine, det0 := 16, det1 := w }

/-- Whether an access is a request or message that has not completed (R309): a message completes when its target has accepted or
refused it, the others with their answer. -/
def Access.pending (o : Access) : Bool := o.kind == .remote && !o.told

/-- The requests that a thread has outstanding (R309). -/
def Thread.requests (th : Thread) : Nat := (th.outs.filter Access.pending).length

/-- A further request waits while 64 are outstanding (R309, R315). -/
def outLimit : Act Unit := do
  if 64 ≤ (← get).th.requests then waitOpen { cause := causeOvrn }

/-- A request of the running thread: what it asks, of whom, and what its answer or refusal does (R306, R309). -/
structure RemoteOp where
  op : ReqOp
  tw : Nat
  va : Nat
  n : Nat
  x : Nat
  e : Nat
  dest : Dest
  code : Nat
  deriving DecidableEq, Repr

/-- A request sent (R315): outstanding until its reply, acknowledgement or refusal. -/
def State.remote (s : State) (r : RemoteOp) : State :=
  let a := { Access.plain .remote r.dest r.n false r.va (r.code != 0) false with det0 := r.code, target := r.tw % 2 ^ 18 }
  let id := s.th.serial
  (s.openAccess a).sendReq ⟨.thread s.cc s.ct (4 * id), s.me.ctx, s.cc, s.ct, targetOf r.tw, r.op, r.va, r.n, r.x, r.e⟩

/-- ENGINE with code 17 where D names a bound stream register (R320). -/
def State.aliased (s : State) (d : VReg) : Bool := (s.me.aliasOf s.ct d.toNat).isSome

/-- The checks that the memory requests share, after their operands: malformed words and addresses, the limit on requests, and an
acquire load before them (R126, R315, R321, R324). -/
def requestChecks (tw va n : Nat) (bound : Bool) : Act Unit := do
  if 2 ^ 18 ≤ tw then fault (engine16 tw)
  if bound then fault { cause := causeEngine, det0 := 17 }
  alignTo va n
  outLimit
  orStop ((← get).acquireStop va)

/-! ### rget, rput, rfop, rcas (R315) -/

/-- `rget` (R315). -/
def execRget (d : BitVec 5) (a b : GReg) (z : RemSize) : Exec :=
  runThread do
    let s0 ← get
    let bound := z == .v && s0.aliased d
    let s ← operands ([.rg a false, .rg b false] ++ (if bound then [] else if z == .v then [.wv d 1] else [.wg d]))
    let va := (s.readG a).toNat % 2 ^ 52
    let tw := (s.readG b).toNat
    requestChecks tw va z.bytes bound
    let dest := if z == .v then .v d.toNat 1 else s.th.destOf d.toNat
    change fun s => (s.remote ⟨.get, tw, va, z.bytes, 0, 0, dest, 0⟩).markEmpty dest
    done 1

/-- `rput` (R315). -/
def execRput (d : BitVec 5) (a b : GReg) (z : RemSize) : Exec :=
  runThread do
    let s ← operands [.rg a false, .rg b false, if z == .v then .rv d 1 else .rg d false]
    let va := (s.readG a).toNat % 2 ^ 52
    let tw := (s.readG b).toNat
    requestChecks tw va z.bytes false
    let x := (if z == .v then s.readV d 1 else (s.readG d).toNat) % 2 ^ (8 * z.bytes)
    change fun s => s.remote ⟨.put, tw, va, z.bytes, x, 0, .none, 0x41⟩
    done 1

/-- `rfop` (R315, Table 11.7). -/
def execRfop (d : BitVec 5) (a b : GReg) (sh : RfopShape) (op : FopOp) : Exec :=
  runThread do
    let s0 ← get
    let vec := sh == .v16 || sh == .v64
    let bound := vec && s0.aliased d
    let s ← operands ([.rg a false, .rg b false] ++ (if bound then [] else if vec then [.rv d 1] else [.rg d false]))
    let va := (s.readG a).toNat % 2 ^ 52
    let tw := (s.readG b).toNat
    requestChecks tw va sh.bytes bound
    let x := (if vec then s.readV d 1 else (s.readG d).toNat) % 2 ^ (8 * sh.bytes)
    let dest := if vec then .v d.toNat 1 else s.th.destOf d.toNat
    change fun s => (s.remote ⟨.fop op sh.laneBits, tw, va, sh.bytes, x, 0, dest, 0⟩).markEmpty dest
    done 1

/-- `rcas` (R315). -/
def execRcas (d a b : GReg) (z : OpSize) : Exec :=
  runThread do
    let s ← operands [.rg a false, .rg b false, .rg d false, .rg (d + 1) false]
    let va := (s.readG a).toNat % 2 ^ 52
    let tw := (s.readG b).toNat
    requestChecks tw va z.bytes false
    let cut (w : Word) : Nat := w.toNat % 2 ^ (8 * z.bytes)
    let dest := s.th.destOf d.toNat
    change fun s' => (s'.remote ⟨.cas, tw, va, z.bytes, cut (s.readG (d + 1)), cut (s.readG d), dest, 0⟩).markEmpty dest
    done 1

/-! ### amsg, msend, mrecv, rstat (R316 to R319) -/

/-- `amsg` (R316): the device, y and x of the active-message word stand where a target word holds them. -/
def execAmsg (d a b : GReg) : Exec :=
  runThread do
    let s ← operands [.rg a false, .rg b false, .rg d false]
    let w := (s.readG a).toNat
    if 2 ^ 34 ≤ w || bitsOf w 15 14 != 0 then fault (engine16 w)
    outLimit
    change fun s' => s'.remote ⟨.amsg, w / 2 ^ 16 % 2 ^ 18, w % 2 ^ 14, 4, (s.readG b).toNat + (s.readG d).toNat * 2 ^ 64, 0, .none, 0x42⟩
    done 1

/-- The header of a message (Table 11.8). -/
def headerOf (thr dev core tag : Nat) : Nat := tag % 2 ^ 32 + core % 256 * 2 ^ 32 + dev % 1024 * 2 ^ 40 + thr % 4 * 2 ^ 50 + 2 ^ 63

/-- `msend` (R317). -/
def execMsend (d : VReg) (a b : GReg) : Exec :=
  runThread do
    let s ← operands [.rg a false, .rg b false, .rv d 1]
    let tw := (s.readG b).toNat
    if 2 ^ 18 ≤ tw then fault (engine16 tw)
    outLimit
    let h := headerOf s.ct s.host.devid s.cc (s.readG a).toNat
    change fun s' => s'.remote ⟨.msend, tw, 0, 64, s.readV d 1, h, .none, 0x43⟩
    done 1

/-- `mrecv` (R318). -/
def execMrecv (d : VReg) (a : GReg) (w : Bool) : Exec :=
  runThread do
    let s0 ← get
    let bound := s0.aliased d
    let s ← operands ((if bound then [] else [.wv d 1]) ++ [.wg a])
    if bound then fault { cause := causeEngine, det0 := 17 }
    match s.me.agent.messages with
    | [] =>
      if w then waitOpen { cause := causeOvrn }
      change fun s => (s.writeV d 1 0 2).writeG a 0 2
    | m :: rest =>
      change fun s => ((s.modMe fun k => { k with agent := { k.agent with messages := rest } }).writeV d 1 m.payload.toNat 2).writeG a m.header 2
    done 1

/-- The word of `rstat` (Table 11.6). -/
def State.statusWord (s : State) : Word :=
  let a := s.me.agent
  BitVec.ofNat 64 (min 64 s.th.requests + min 32 a.messages.length * 2 ^ 8 + min 16 a.launches.length * 2 ^ 16
    + min 8 s.th.refusals.length * 2 ^ 24 + min a.ovfcnt 65535 * 2 ^ 32)

/-- `rstat` (R319). -/
def execRstat (d : GReg) : Exec := runThread (scalarOp [] d (·.statusWord) 1 1)

/-! ### The receive log (R383) -/

/-- The retired-instruction counts of a core's threads. -/
def Core.counts (k : Core) : List Nat := k.threads.toList.map (·.retired)

/-- An entry of a core's receive log. -/
def State.logItem (s : State) (c : Nat) (x : LogItem) : State :=
  s.modCore c fun k => if k.net.replay.isSome then k else { k with net := { k.net with log := k.net.log ++ [⟨x, k.counts⟩] } }

/-! ### Answers at the sender (R302, R306, R309) -/

/-- A refusal of a thread's request (R306): a register-bound one poisons its destination; the others enter the thread's queue of 8,
or are counted. -/
def State.refuseAccess (s : State) (c t rid reason : Nat) : State :=
  match (s.thrAt c t).outs.find? (·.id == rid / 4) with
  | none => s
  | some a =>
    s.modThr c t fun th =>
      let th := { th with outs := th.outs.filter (·.id != a.id), relAt := max th.relAt s.cycle }
      if a.det0 = 0 then th.setDestBut a.units a.dest (.poisoned a.va reason a.target) 0 (s.cycle + 1)
      else if 8 ≤ th.refusals.length then { th with refLost := th.refLost + 1 }
      else { th with refusals := th.refusals ++
        [⟨reason == 10 || reason == 11, if a.det0 = 0x40 || a.det0 = 0x41 then a.va else 0, a.det0, reason + a.target * 256⟩] }

/-- An answer applied to a thread on its core, or to the thread as it was saved with its context (R354, R372). -/
def State.onThread (s : State) (c t rid : Nat) (f : State → State) : State :=
  if (s.thrAt c t).outs.any (·.id == rid / 4) then f s
  else match s.helm.saved.find? fun x => x.2.1 == c && (x.2.2.thr t).outs.any (·.id == rid / 4) with
    | none => s
    | some (ctx, _, k) =>
      let s' := f (s.setCore c k)
      let saved := s.helm.saved.map fun x => if x.1 == ctx && x.2.1 == c then (ctx, c, s'.coreAt c) else x
      { s' with helm := { s'.helm with saved := saved } }.setCore c (s.coreAt c)

/-- The save area of a thread: the scratchpad offset of Table 14.6's image (Table 14.2). -/
def Core.saveArea (k : Core) (t : Nat) : Nat := bitsOf k.tvec.toNat 39 20 + 4096 * t

/-- A bit of a word of local SRAM set or cleared. -/
def Core.imageBit (k : Core) (off i : Nat) (b : Bool) : Core :=
  let w := k.sramRead off 4
  k.sramWrite off 4 (if bitOf w i == b then w else if b then w + 2 ^ i else w - 2 ^ i)

/-- A register of a save-area image with its full and poison bits (R372, Table 14.6). -/
def Core.imageReg (k : Core) (t : Nat) (v : Bool) (n x : Nat) (full poison : Bool) : Core :=
  let base := k.saveArea t
  let k := if v then k.sramWrite (base + 0x100 + 64 * n) 64 (x % 2 ^ 512) else k.sramWrite (base + 8 * n) 8 (x % 2 ^ 64)
  (k.imageBit (base + (if v then 0x90C else 0x908)) n full).imageBit (base + (if v then 0x914 else 0x910)) n poison

/-- The registers of a destination in a save-area image. -/
def Core.imageDest (k : Core) (t : Nat) (d : Dest) (x : Nat) (full poison : Bool) : Core :=
  match d with
  | .g n => k.imageReg t false n x full poison
  | .v n count => (List.range count).foldl (fun k i => k.imageReg t true (n + i) (x / 2 ^ (512 * i)) full poison) k
  | _ => k

/-- A state after an answer to a thread whose registers stand in its save area: the registers that the answer wrote are copied to
the image, and the image's outstanding count follows (R372). -/
def State.imageAfter (s : State) (c t : Nat) (d : Dest) : State :=
  s.modCore c fun k =>
    let th := k.thr t
    let st (r : RegSt) : Bool × Bool := match r with | .full => (true, false) | .empty => (false, false) | .poisoned _ _ _ => (false, true)
    let k := match d with
      | .g n => let r := (th.g[n]?).getD (Reg.of 0); k.imageDest t d r.val.toNat (st r.st).1 (st r.st).2
      | .v n count => (List.range count).foldl (fun k i => let r := th.vreg (n + i); k.imageDest t (.v (n + i) 1) r.val.toNat (st r.st).1 (st r.st).2) k
      | _ => k
    k.sramWrite (k.saveArea t + 0x940) 8 (min 64 th.requests)

/-- An answer to a thread's access, with the image kept where the access is older than the save (R372). -/
def State.answerThread (s : State) (c t rid : Nat) (f : State → State) : State :=
  s.onThread c t rid fun s =>
    let th := s.thrAt c t
    let d := ((th.outs.find? (·.id == rid / 4)).map (·.dest)).getD .none
    let s := f s
    if th.imaged.any (rid / 4 < ·.before) then s.imageAfter c t d else s

/-- An answer of the helm to a thread (R370), or to the thread as it was saved with its context, in its save-area image too where it
has one (R372). -/
def State.helmAnswer (s : State) (c t ctx : Nat) (dst : Dest) (x : Nat) : State :=
  let give (k : Core) : Core :=
    let k := k.setThr t ((k.thr t).setDest dst .full x (s.cycle + 1))
    if (k.thr t).imaged.isSome then k.imageDest t dst x true false else k
  (if (s.coreAt c).ctx = ctx then s.logItem c (.answer t dst x) else s).onCtx c ctx give

end Sys2Proof.Machine

namespace Sys2Proof
open Machine

/-- A core that an answer reaches. -/
def RetPath.core? : RetPath → Option Nat
  | .thread c _ _ | .record c _ | .engine c _ _ _ => some c
  | _ => Option.none

end Sys2Proof

namespace Sys2Proof.Machine

/-- An arrival logged at the core it reaches (R383). -/
def State.logArrival (s : State) (c : Option Nat) (i : Instr) : State :=
  match c with
  | some c => s.logItem c (.arrival i)
  | none => s

/-- The data of a part of the debug read under way, or its refusal; the command looks at them (R384). -/
def State.debugData (s : State) (i : Nat) (data : Option Nat) : State :=
  ({ s with host := { s.host with debug := (s.host.debug).zipIdx.map fun (x : DebugPart × Nat) => if x.2 = i then { x.1 with data := some data } else x.1 } }).postOnce s.cycle
    .debugread

/-- What the receive log keeps with the acknowledgement of a trap record: the record's VA, and whether it carries lost-before (R383). -/
def Thread.recordNote (th : Thread) : Nat := match th.block with
  | .record a => a.record % 2 ^ 52 + a.cause / 2 ^ 18 % 2 * 2 ^ 52
  | _ => 0

/-- The record's VA and lost-before flag of the logged run, for the handler registers of a replay (R383). -/
def Thread.recordAs (th : Thread) (note : Nat) : Thread :=
  { th with block := match th.block with
    | .record a => .record { a with record := note % 2 ^ 52, cause := if bitOf note 52 && !bitOf a.cause 18 then a.cause + 2 ^ 18 else a.cause }
    | b => b }

/-- `reply_arrival` (R302, R309, R359): a value or acknowledgement reaches what awaits it. -/
def execReplyArrival (ret : RetPath) (value : Nat) : Exec := fun s =>
  .next <|
    let replayed := match ret with
      | .record c _ => (s.coreAt c).net.replay.isSome
      | _ => false
    let kept := match ret with
      | .record c t => (s.thrAt c t).recordNote
      | _ => value
    let s := s.logArrival ret.core? (.replyArrival ret kept)
    match ret with
    | .thread c t rid => s.answerThread c t rid fun s => s.completeAccess c t rid value
    | .engine c ch id off => s.engineReply c ch id value off
    | .record c t => (if replayed then s.modThr c t (·.recordAs value) else s).post s.cycle (.handlerEntry c t)
    | .helm c t ctx d => s.helmAnswer c t ctx d value
    | .copy _ uid blk => s.blockArrived uid blk value
    | .debug i => s.debugData i (some value)
    | .none | .pair _ | .host _ _ | .device _ _ => s

/-- `refusal_arrival` (R306, R354). -/
def execRefusalArrival (ret : RetPath) (reason : Nat) : Exec := fun s =>
  .next <|
    let s := s.logArrival ret.core? (.refusalArrival ret reason)
    match ret with
    | .thread c t rid => s.answerThread c t rid fun s => s.refuseAccess c t rid reason
    | .pair id => s.splitRefusal id reason
    | .engine c ch id _ => s.engineFail c ch id causeWnack
    | .debug i => s.debugData i none
    | .none | .record _ _ | .host _ _ | .device _ _ | .copy _ _ _ | .helm _ _ _ _ => s

/-! ### Off-stack controllers (R31, R32, R322) -/

end Sys2Proof.Machine

namespace Sys2Proof
open Machine

/-- Whether R190 counts a request at an off-stack controller: an access of a thread, a stream or a copy, the second part of a thread's
access only where it lies in a frame of its own; the store of a record is none of these. -/
def Req.counts (r : Req) : Bool :=
  match r.ret with
  | .thread _ _ rid => rid % 4 = 0 || r.addr % 65536 = 0
  | .engine _ _ _ _ => true
  | _ => false

end Sys2Proof

namespace Sys2Proof.Machine

/-- `offstack_request` (R322): the controller acts on the access at the head of its queue, and answers. A write of the engine may
name its bytes by a mask (R293). -/
def execOffstackRequest (ctrl : Nat) : Exec := fun s =>
  .next <|
    match s.offQueues[ctrl]? with
    | some (q :: rest) =>
      let r := q.req
      let s := { s with offQueues := s.offQueues.setIfInBounds ctrl rest }
      let s := if r.counts then s.touchOff r.addr r.n r.core else s
      let old := memGetN s.offstack r.addr r.n
      let new := match r.op with
        | .put => if r.e = 0 then memSetN s.offstack r.addr r.n r.x else memSetMasked s.offstack r.addr r.n r.x r.e
        | .fop op lane => memSetN s.offstack r.addr r.n (rmwApply (.fop op lane) r.n old r.x 0)
        | .cas => memSetN s.offstack r.addr r.n (rmwApply .cas r.n old r.x r.e)
        | _ => s.offstack
      let value := match r.op with
        | .put => 0
        | _ => old
      ({ s with offstack := new }).sendAnswer (.off ctrl) r.ret (if r.op == ReqOp.put then .control else .openOp) (.reply r.ret value)
    | _ => s

/-! ### Windows and step 1 of the agent (R303 to R305) -/

/-- Whether a window serves a request's context on a core (R304). -/
def Core.windowServes (k : Core) (ctx : Nat) (w : Word × Word × Word) : Bool :=
  bitOf w.2.2.toNat 7 && bitsOf w.2.2.toNat 31 16 == ctx && ctx == k.ctx

/-- Whether a window covers bytes (Table 11.2). -/
def windowCovers (w : Word × Word × Word) (va n : Nat) : Bool :=
  bitsOf w.1.toNat 51 6 * 64 ≤ va && va + n ≤ bitsOf w.2.1.toNat 51 6 * 64

end Sys2Proof.Machine

namespace Sys2Proof
open Machine

/-- The permission bit a request needs (Table 11.2). -/
def Req.permission (r : Req) : Nat :=
  match r.op with
  | .get => 0
  | .put => 1
  | .fop _ _ | .cas | .tfin => 2
  | .amsg => 3
  | .msend => 4

end Sys2Proof

namespace Sys2Proof.Machine

/-- The refusal of the windows, or 0 (Table 11.3, reasons 1 to 3). -/
def Core.windowRefusal (k : Core) (r : Req) : Nat :=
  let serving := k.agent.windows.toList.filter (k.windowServes r.ctx)
  let covering := match r.op with
    | .msend => serving
    | .amsg => serving.filter fun w => windowCovers w (localBase + 0x100000 + 4 * r.addr) 4
    | _ => serving.filter fun w => windowCovers w r.addr r.n
  if serving.isEmpty then 1 else if covering.isEmpty then 2 else if covering.any fun w => bitOf w.2.2.toNat r.permission then 0 else 3

/-- The sender number of the helm's own agent writes (R342), which pass no window. -/
def helmThr : Nat := 9

/-- The sender number of a debug read, which names its physical address itself (R384). -/
def debugThr : Nat := 10

/-- Translation and place of a request at its target core (R305). -/
def State.agentPlace (s : State) (c : Nat) (r : Req) : AgentOut :=
  let wr := r.op != .get
  let rd := r.op != .put
  match s.translate c (s.coreAt c).ctx r.addr rd wr with
  | .page => .refuse 4
  | .prot => .refuse 5
  | .foreign _ | .offstack _ => .refuse 6
  | .poison pa => .poison pa
  | .moving => .moving
  | .vault pa => .vault pa
  | .loc off =>
    if placeOf off == .hole || placeOf (off + r.n - 1) == .hole then .refuse 6
    else if wr && off < 0x110000 && 0x10F000 < off + r.n then .refuse 6
    else .loc off

/-- Step 1 of a request (R301, R304, R305). -/
def State.admission (s : State) (c : Nat) (r : Req) : AgentOut :=
  let k := s.coreAt c
  if r.thr = helmThr then s.agentPlace c r
  else if (s.partOf c).isNone || k.ctx = 0 || !k.net.accepting then .refuse 12
  else
    let x := k.windowRefusal r
    if x != 0 then .refuse x
    else match r.op with
      | .amsg | .msend => .accept
      | _ => s.agentPlace c r

/-! ### The agent's queue (R300) -/

/-- The agent of a core changed. -/
def State.modAgent (s : State) (c : Nat) (f : Agent → Agent) : State := s.modCore c fun k => { k with agent := f k.agent }

/-- An entry of the queue changed, by its place. -/
def Agent.setEntry (a : Agent) (i : Nat) (q : AgentReq) : Agent := { a with queue := a.queue.set i q }

/-- `agent_request_arrival` (R300, R301): the request takes its place in the queue, and its step 1 ends two cycles later, or in the
cycle after that of the request ahead. -/
def execAgentRequestArrival (c : Nat) (r : Req) : Exec := fun s =>
  .next <|
    let e1 := max (s.cycle + 2) ((s.coreAt c).agent.lastE1 + 1)
    (s.modAgent c fun a => { a with queue := a.queue ++ [⟨r, e1, none, none, false, false⟩], lastE1 := e1 }).postOnce e1 .agentAction

end Sys2Proof.Machine

namespace Sys2Proof
open Machine

/-- The controller's operation for a request. -/
def Req.beatOp (r : Req) : BeatOp :=
  match r.op with
  | .put => .store
  | .fop op lane => .fop op lane
  | .cas => .cas
  | _ => .load

end Sys2Proof

namespace Sys2Proof.Machine

/-- A request's row asked of the controller (R164, R301), unless it is under repair (R173). Answers the access's serial, and counts the
request for its frame the first time (R190). -/
def State.agentRow (s : State) (c : Nat) (q : AgentReq) (pa : Nat) : State × AgentReq :=
  let r := q.req
  let v := (s.coreAt c).vault
  if (v.repairOf (vbank pa) (vrow pa)).isSome then (s, q)
  else
    let v := if q.counted || helmThr ≤ r.thr then v else v.touch pa r.n r.core
    let a : VaultAcc := ⟨v.serial, .agent, v.serial, r.beatOp, r.addr, r.n, 0, r.x, r.e, v.request (r.op == .put) (segsFrom 2 pa r.n 0), none, 0,
      none, false, none, none⟩
    (s.modCore c fun k => { k with vault := { v with serial := v.serial + 1, accs := v.accs ++ [a] } }, { q with acc := some a.id, counted := true })

/-- Step 1 ends for the entry at a place of the queue, and its row is asked for (R301). -/
def State.agentJudge (s : State) (c i : Nat) : State :=
  match (s.coreAt c).agent.queue[i]? with
  | none => s
  | some q =>
    if s.cycle < q.e1 then s
    else
      let out := match q.out with
        | none | some .moving => s.admission c q.req
        | some o => o
      let q := { q with out := some out }
      let (s, q) := match out, q.acc with
        | .vault pa, none => s.agentRow c q pa
        | _, _ => (s, q)
      s.modAgent c (·.setEntry i q)

/-- Whether a request must be set aside: its row is under repair, or its page moves (R300). -/
def State.mustWait (s : State) (c : Nat) (q : AgentReq) : Bool :=
  match q.out with
  | some (.vault pa) => q.acc.isNone && ((s.coreAt c).vault.repairOf (vbank pa) (vrow pa)).isSome
  | some .moving => s.admission c q.req == .moving
  | _ => false

/-- The queue's head set aside, as often as R300 asks: behind an earlier request of its sender, or in one of the 4 slots. -/
def State.setAside (s : State) (c : Nat) : Nat → State
  | 0 => s
  | fuel + 1 =>
    let a := (s.coreAt c).agent
    match a.queue with
    | [] => s
    | q :: rest =>
      if q.out.isNone then s
      else if a.retry.any fun e => s.sharesSender e.req q.req then
        let s := match q.acc with
          | some id => s.modCore c (·.dropAcc id)
          | none => s
        (s.modAgent c fun a => { a with queue := rest, retry := a.retry ++ [{ q with acc := none, behind := true }] }).setAside c fuel
      else if s.mustWait c q && (a.retry.filter (!·.behind)).length < 4 then
        (s.modAgent c fun a => { a with queue := rest, retry := a.retry ++ [q] }).setAside c fuel
      else s

/-! ### The agent's actions (R301, Table 11.1) -/

/-- The agent's answer: a completion record for the host, or a flit (R302, R313). -/
def State.answer (s : State) (c : Nat) (r : Req) (cls : TrafficClass) (load : Payload) (reason thr : Nat) : State :=
  match r.ret with
  | .host ctx tag => s.completeFrom c ⟨tag, 1, reason, ctx, 0, s.ssOf c, c, thr, s.cycle⟩
  | ret => s.sendAnswer (.core c) ret cls load

/-- A launch counted for its core in the journal, and a refusal for a full queue in OVFCNT (R312). -/
def State.countLaunch (s : State) (c reason : Nat) (launch : Bool) : State :=
  let s := if launch then
      let l := s.helm.launches
      let s := if l.any (·.1 == c) then { s with helm := { s.helm with launches := l.map fun x => if x.1 == c then (c, x.2 + 1) else x } }
        else { s with helm := { s.helm with launches := l ++ [(c, 1)] } }
      s.journal journalLaunch (s.coreAt c).ctx c reason 0 []
    else s
  if reason = 10 || reason = 11 then s.modAgent c fun a => { a with ovfcnt := min 65535 (a.ovfcnt + 1) } else s

/-- A request refused (R305). -/
def State.refuse (s : State) (c : Nat) (r : Req) (reason : Nat) : State :=
  (s.countLaunch c reason (r.op == .amsg)).answer c r .control (.refusal r.ret reason) reason 255

/-- The idle thread that a launch starts, if any (R28, R312); a gang-stopped partition starts none (DEDUCED, log entry 25), but in a
replay. -/
def State.idleThread (s : State) (c : Nat) : Option Nat :=
  if ((s.partOf c).bind fun p => (s.partAt p).map (·.stopped)).getD true && (s.coreAt c).net.replay.isNone then none
  else (List.range 4).find? fun t => (s.thrAt c t).st == .idle

/-- An agent write for the helm that cannot be performed: the context's lost flag is set (R342). -/
def State.lostWrite (s : State) (c : Nat) : State := s.modCtx (s.coreAt c).ctx fun x => { x with lost := true }

/-- A message of a thread of the device completes where its target accepts or refuses it (R309). -/
def State.tellSender (s : State) (r : Req) : State :=
  match r.op, r.ret with
  | .amsg, .thread c t rid | .msend, .thread c t rid =>
    s.onThread c t rid fun s => s.modThr c t fun th => { th with outs := th.outs.map fun o => if o.id == rid / 4 then { o with told := true } else o }
  | _, _ => s

/-- A message or launch accepted or refused (R311, R312). -/
def State.accept (s : State) (c : Nat) (r : Req) : State :=
  let a := (s.coreAt c).agent
  let ack : Payload := .reply r.ret 0
  if r.op == .msend then
    if 32 ≤ a.messages.length then s.refuse c r 10
    else
      let s := s.modCore c fun k =>
        { k with
          agent := { k.agent with messages := k.agent.messages ++ [⟨BitVec.ofNat 64 r.e, BitVec.ofNat 512 r.x⟩] }
          threads := k.threads.map fun th => if th.st == .idle then th else { th with evpend := th.evpend ||| 1 } }
      s.answer c r .control ack 0 255
  else
    let m : Launch := ⟨r.addr, r.x % 2 ^ 64, r.x / 2 ^ 64, r.ctx, match r.ret with | .host _ tag => some tag | _ => none⟩
    match a.launches, s.idleThread c with
    | [], some t => ((s.countLaunch c 0 true).answer c r .control ack 0 t).post (s.cycle + 1) (.activeMessageLaunch c m)
    | _, _ =>
      if 16 ≤ a.launches.length then s.refuse c r 11
      else ((s.modAgent c fun a => { a with launches := a.launches ++ [m] }).countLaunch c 0 true).answer c r .control ack 0 255

/-- An action on local SRAM (R301, R308, R315): the bytes read and written, and the granules. `tfin` follows R230. -/
def Core.agentLocal (k : Core) (r : Req) (off : Nat) : Core × Nat :=
  let old := k.sramRead off r.n
  match r.op with
  | .get => (k, old)
  | .tfin =>
    let new := (old + 2 ^ 64 - r.x % 2 ^ 64) % 2 ^ 64
    let k := k.sramWrite off 8 new
    (if new = 0 then k.setGran (off / 16) true else k, 0)
  | _ =>
    let new := match r.op with
      | .put => r.x
      | _ => rmwApply r.beatOp r.n old r.x r.e
    if r.op == .cas && old != r.e then (k, old)
    else ((k.sramWrite off r.n (new % 2 ^ (8 * r.n))).fillGrans off r.n, if r.op == .put then 0 else old)

/-- A performed request: its reply or acknowledgement (R302, R315), and its entry in the receive log (R383), which keeps no
debug read. -/
def State.performed (s : State) (c : Nat) (r : Req) (value : Nat) : State :=
  let cls : TrafficClass := match r.op with
    | .get | .fop _ _ | .cas => .openOp
    | _ => .control
  if r.thr = debugThr then s.answer c r .control (.reply r.ret value) 0 255
  else (s.logItem c (.arrival (.agentRequestArrival c r))).answer c r cls (.reply r.ret value) 0 255

/-- The fatal record of a request whose page or frame is poisoned, and its refusal (Table 11.3, R354); of a combined request with the source
code of its first component's sender (DEDUCED, log entry 84). -/
def State.agentPoison (s : State) (c : Nat) (r : Req) (pa : Nat) : State :=
  let sender := match r.ret with
    | .pair _ => min r.thr 4
    | _ => 4
  let s := s.fatalRecord { cause := causeFatalUe, flags := 2, source := 4, core := c, ctx := (s.coreAt c).ctx, pc := 0, addr := r.addr, insn := 0,
                           ss := s.ssOf c, cycle := s.cycle, det0 := pa, det1 := sender, bookid := 0 }
  s.refuse c r 9

/-- Whether the write beat of a read-modify-write may move in a cycle, which is agent-eligible and in no window (R167, R174, R301). -/
def Core.writeFits (k : Core) (core cycle bank : Nat) : Bool :=
  (k.vault.windowEnd core bank cycle false).isNone && !k.vault.laneWindow cycle && !k.booked (codeBank bank) (cycle / 8)
    && (agentTick (cycle / 8) || !k.booked codePort (cycle / 8))

/-- One cycle of a request that has ended step 1: the state after, and whether it has acted, if it can act now (R301). -/
def State.agentTry (s : State) (c : Nat) (q : AgentReq) : Option (State × Bool) :=
  let k := s.coreAt c
  let r := q.req
  match q.out with
  | none => none
  | some (.refuse x) => some (if r.thr = helmThr then s.lostWrite c else (s.tellSender r).refuse c r x, true)
  | some (.poison pa) => some (s.agentPoison c r pa, true)
  | some .accept =>
    some ((if r.op == .amsg || r.op == .msend then ((s.tellSender r).accept c r).logItem c (.arrival (.agentRequestArrival c r)) else s), true)
  | some .moving => none
  | some (.loc off) =>
    let u := unitOf off
    if u.any fun u => k.owner u != 0 && k.owner u != 4 then some (if r.thr = helmThr then s.lostWrite c else s.refuse c r 7, true)
    else if off < 0x100000 && (k.booked (0x10 + bankOf off) s.tick || k.bankUses.any fun b => b.bank == bankOf off && b.cycle == s.cycle) then none
    else
      let (k', v) := k.agentLocal r off
      let k' := if off < 0x100000 then k'.useBanks s.cycle 6 [(bankOf off, s.cycle)] else k'
      some ((s.setCore c k').performed c r v, true)
  | some (.vault _) =>
    match q.acc.bind fun id => k.vault.accs.find? (·.id == id) with
    | none => none
    | some a =>
      match k.readySeg c s.cycle a with
      | none => none
      | some (j, g) =>
        if !(match a.readAt with
          | some x => x + 2 == s.cycle
          | none => r.op == .get || r.op == .put || k.writeFits c (s.cycle + 2) g.bank) then none
        else
          let s := s.moveBeat c a j g
          match (s.coreAt c).vault.accs.find? (·.id == a.id) with
          | none => some (s.refuse c r 9, true)
          | some a =>
            if a.segs.all fun g => g.moved == g.n then
              let v := match r.op with
                | .get => a.data
                | .put => 0
                | _ => a.lo
              some ((s.modCore c (·.dropAcc a.id)).performed c r v, true)
            else some (s, false)

/-- The entry at a place of the retry slots, if its cause has gone and no earlier one of its sender stands there (R300). -/
def State.retryAt (s : State) (c i : Nat) : Option AgentReq :=
  let a := (s.coreAt c).agent
  a.retry[i]?.filter fun q => !((a.retry.take i).any (fun e => s.sharesSender e.req q.req) || s.mustWait c q)

/-- An entry set aside whose cause has gone asks for its row, or is translated again (R300). -/
def State.readyRetry (s : State) (c i : Nat) : State :=
  match s.retryAt c i with
  | none => s
  | some q =>
    let out := match q.out with
      | some .moving => some (s.admission c q.req)
      | o => o
    let q := { q with out := out }
    let (s, q) := match out, q.acc with
      | some (.vault pa), none => s.agentRow c q pa
      | _, _ => (s, q)
    s.modAgent c fun a => { a with retry := a.retry.set i q }

/-- The entry at a place of the retry slots tried in this cycle. -/
def State.tryRetry (s : State) (c i : Nat) : State × Bool :=
  match s.retryAt c i with
  | none => (s, false)
  | some q =>
    match s.agentTry c q with
    | none => (s, false)
    | some (s, true) => (s.modAgent c fun a => { a with retry := a.retry.eraseIdx i, lastAct := s.cycle }, true)
    | some (s, false) => (s, true)

/-- The queue's head tried in this cycle. -/
def State.tryHead (s : State) (c : Nat) : State :=
  match (s.coreAt c).agent.queue with
  | [] => s
  | q :: _ =>
    if s.mustWait c q then s
    else match s.agentTry c q with
      | none => s
      | some (s, true) => s.modAgent c fun a => { a with queue := a.queue.drop 1, lastAct := s.cycle }
      | some (s, false) => s

/-- The rows that the agent's requests wait for, taken a step further, those whose turn has come first (R164, R300, R301). -/
def State.agentRows (s : State) (c : Nat) : State :=
  let k := s.coreAt c
  let mine := k.vault.accs.filter fun a => a.by_ == Requester.agent
  (mine.filter (!k.waitsTurn ·) ++ mine.filter k.waitsTurn).foldl (fun s a => s.modCore c fun k => k.rowTurn c s.cycle a) s

/-- One cycle of a core's agent: checks end, rows are asked for, requests are set aside, and at most one acts (R300, R301). -/
def State.agentStep (s : State) (c : Nat) : State :=
  let s := (List.range (s.coreAt c).agent.queue.length).foldl (fun s i => s.agentJudge c i) s
  let s := s.setAside c 64
  let s := ((List.range (s.coreAt c).agent.retry.length).foldl (fun s i => s.readyRetry c i) s).agentRows c
  let a := (s.coreAt c).agent
  if s.cycle ≤ a.lastAct then s
  else
    let (s, acted) := (List.range a.retry.length).foldl (fun (x : State × Bool) i => if x.2 then x else x.1.tryRetry c i) (s, false)
    if acted then s else s.tryHead c

/-- `agent_action` (R301): one cycle of every agent that has requests. -/
def execAgentAction : Exec := fun s =>
  .next <| s.eachCore fun s c =>
    let busy (s : State) : Bool := !(s.coreAt c).agent.queue.isEmpty || !(s.coreAt c).agent.retry.isEmpty
    if !busy s then s
    else
      let s := s.agentStep c
      if busy s then s.postOnce (s.cycle + 1) .agentAction else s

/-- An agent write made for the helm (R342), if its range translates to the core's vault or scratchpad. -/
def State.agentWrite (s : State) (c va n x : Nat) : Option State :=
  let r : Req := ⟨.none, (s.coreAt c).ctx, c, helmThr, .core c, .put, va, n, x, 0⟩
  let own (off : Nat) : Bool := (unitOf off).all fun u => (s.coreAt c).owner u == 0 || (s.coreAt c).owner u == 4
  let go : State :=
    let e1 := max (s.cycle + 2) ((s.coreAt c).agent.lastE1 + 1)
    (s.modAgent c fun a => { a with queue := a.queue ++ [⟨r, e1, none, none, false, false⟩], lastE1 := e1 }).postOnce e1 .agentAction
  match s.agentPlace c r with
  | .loc off => if off < 0x100000 && own off then some go else none
  | .vault _ | .moving => some go
  | _ => none

/-- A part of a debug read asked of a vault's agent, as a request that has its physical address (R301, R384). -/
def State.askDebug (s : State) (ctx v pa n i : Nat) : State :=
  let r : Req := ⟨.debug i, ctx, v, debugThr, .core v, .get, pa, n, 0, 0⟩
  let e1 := max (s.cycle + 2) ((s.coreAt v).agent.lastE1 + 1)
  (s.modAgent v fun a => { a with queue := a.queue ++ [⟨r, e1, some (.vault pa), none, false, true⟩], lastE1 := e1 }).postOnce e1 .agentAction

/-- The helm's writes that a core's agent still has before it are performed at once: a record of one superstep performs before the next
global release, however long the agent's queue is (R342; DESIGN CHOICE, log entry 77). -/
def State.flushRecords (s : State) (c : Nat) : State :=
  let mine (q : AgentReq) : Bool := q.req.thr == helmThr
  let a := (s.coreAt c).agent
  let go (s : State) (q : AgentReq) : State :=
    let s := match q.acc with
      | some id => s.modCore c (·.dropAcc id)
      | none => s
    match s.agentPlace c q.req with
    | .vault pa => s.modCore c fun k => { k with vault := { k.vault with mem := memSetN k.vault.mem pa q.req.n q.req.x } }
    | .loc off => s.modCore c fun k => (k.sramWrite off q.req.n q.req.x).fillGrans off q.req.n
    | _ => s.lostWrite c
  (a.retry.filter mine ++ a.queue.filter mine).foldl go
    (s.modAgent c fun a => { a with queue := a.queue.filter (!mine ·), retry := a.retry.filter (!mine ·) })

/-! ### Launch (R28, R312) -/

/-- A thread started by a launch (R28): its PC and arguments; the registers read zero and full; the launch values of the context
(R128); its handler registers stay (R357). -/
def State.launchThread (s : State) (c t : Nat) (m : Launch) : State :=
  let sp := (s.ctxOf m.ctx).launchSp
  s.modThr c t fun th =>
    { Thread.reset with
      st := .run
      pc := BitVec.ofNat 14 m.pc
      g := (Thread.reset.g.setIfInBounds 3 (Reg.of (BitVec.ofNat 64 m.arg0))).setIfInBounds 4 (Reg.of (BitVec.ofNat 64 m.arg1))
      hg := th.hg
      spbase := sp.1
      spsize := sp.2.1
      ovfp := sp.2.2
      next := s.cycle
      serial := th.serial
      retired := th.retired
      tag := m.tag }

/-- `active_message_launch` (R312): the message starts the lowest-numbered idle thread, or waits where none is idle. -/
def execActiveMessageLaunch (c : Nat) (m : Launch) : Exec := fun s =>
  .next <|
    match s.idleThread c with
    | some t => s.launchThread c t m
    | none => s.modAgent c fun a => { a with launches := m :: a.launches }

/-- Queued messages of a core started, while threads are idle (R312). -/
def State.startQueued (s : State) (c : Nat) : Nat → State
  | 0 => s
  | fuel + 1 =>
    match (s.coreAt c).agent.launches, s.idleThread c with
    | m :: rest, some t => ((s.modAgent c fun a => { a with launches := rest }).launchThread c t m).startQueued c fuel
    | _, _ => s

/-- `launch_queue_start` (R312): in the cycle after a thread became idle. -/
def execLaunchQueueStart : Exec := fun s => .next (s.eachCore fun s c => if (s.coreAt c).agent.launches.isEmpty then s else s.startQueued c 4)

end Sys2Proof.Machine
end

