-- ==== Sys2Proof/Machine/Halt.lean ====
section
/-! DEFINITION. Stopping the cores of a partition: the halt tree and the superstep stop, with the stop records and the GANG record
(R25, R381, R382). -/

namespace Sys2Proof.Machine

/-- The code of a thread state (R371, Table 14.9). -/
def stateCode : ThreadSt → Nat
  | .idle => 0
  | .run => 1
  | .armed => 2
  | .booked => 3
  | .stopped => 4

/-- A thread's state and BOOKID as a stop finds them. -/
def Core.stopState (k : Core) (t : Nat) : Nat × ThreadSt × Nat := let th := k.thr t; (th.pc.toNat, th.st, k.bookIdOf th)

/-- The 64 bytes of a stop record (Table 14.9). -/
def StopRec.word (r : StopRec) : Nat :=
  r.cycle % 2 ^ 64 + r.ss % 2 ^ 32 * 2 ^ 64 + r.sent % 2 ^ 32 * 2 ^ 96 + r.received % 2 ^ 32 * 2 ^ 128
  + (r.threads.zipIdx).foldl (fun x (th, i) => x + (th.1 % 2 ^ 14 + stateCode th.2.1 * 2 ^ 16 + th.2.2 % 2 ^ 32 * 2 ^ 32) * 2 ^ (192 + 64 * i)) 0

/-- A thread stopped at an instruction boundary: the ticks of its booking are released, and it resumes in the state it left (R25, R206, R381;
DEDUCED, log entry 88: an armed or booked thread resumes on its booking, which holds no tick). -/
def State.stopThread (s : State) (c t : Nat) : State :=
  let th := s.thrAt c t
  if th.st == .idle || th.st == .stopped then s
  else (s.releaseBooking c t).modThr c t fun th => { th with st := .stopped, left := th.st, timer := none, since := none }

/-- Every thread of a core stopped, with the core's stop record, which the journal keeps (R381, R391). -/
def State.stopCore (s : State) (c : Nat) : State :=
  let k := s.coreAt c
  let r : StopRec := ⟨s.cycle, s.ssOf c, k.net.sent, k.net.received, (List.range 4).map k.stopState⟩
  let s := (List.range 4).foldl (fun s t => s.stopThread c t) s
  (s.modCore c fun k => { k with stop := some r }).journal journalStop k.ctx c r.ss 0 (leBytes 64 r.word)

/-- The GANG record of an initiation (R381): reason and initiation cycle. -/
def State.gangRecord (s : State) (ctx core reason init : Nat) : State :=
  s.noteRecord { cause := causeGang, flags := 0, source := 9, core := core, ctx := ctx, pc := 0, addr := 0, insn := 0, ss := s.ssOf core,
                 cycle := s.cycle, det0 := reason, det1 := init, bookid := 0 }

/-- A partition stopped. -/
def State.haltPartition (s : State) (p reason init : Nat) : State :=
  match s.partAt p with
  | none => s
  | some q =>
    let origin := 16 * q.rect.y0 + q.rect.x0
    let here := (s.coreAt origin).ctx
    let ctx := if here = 0 then q.ctxs.headD 0 else here
    let s := if q.stopped then s else q.rect.cores.foldl (fun s c => s.stopCore c) s
    let s := s.modPart p fun q => { q with stopped := true, stopReason := some (reason, init) }
    let s := q.ctxs.foldl (fun s id => s.modCtx id fun x => { x with stopped := true }) s
    if ctx = 0 then s else s.gangRecord ctx origin reason init

/-- `halt_tree_stop` (R381): the stop that an initiation brings. -/
def execHaltTreeStop (part reason init : Nat) : Exec := fun s => .next (s.haltPartition part reason init)

end Sys2Proof.Machine
end

