-- ==== Sys2Proof/Machine/TrellisMath.lean ====
section
/-! DEFINITION. The trellis code: records, weights and their decoded values, and the encoder's search (R262 to R265, R272 to
R275). -/

namespace Sys2Proof.Machine

/-! ### Records and weights (R262 to R265) -/

/-- Bytes of a record of step k (Table 9.1). -/
def trellisBytes (k : Nat) : Nat := 8 * k + 4

/-- The window of step j of a stream of 64k bits (R264). -/
def trellisWindow (k rec j : Nat) : Nat :=
  (List.range 16).foldl (fun s t => s + (if bitOf rec ((k * j + t) % (64 * k)) then 2 ^ t else 0)) 0

/-- The even and the odd code of a window (R264). -/
def windowCodes (s : Nat) : Int × Int :=
  let h := s * 0x9E3779B1 % 2 ^ 32
  let b (i : Nat) : Int := signedOf 8 (h / 2 ^ (8 * i))
  ((b 0 + b 2) / 2, (b 1 + b 3) / 2)

/-- W(rec, k, q): the code of weight q (R264). -/
def trellisCode (k rec q : Nat) : Int :=
  let w := windowCodes (trellisWindow k rec (q / 2))
  if q % 2 = 0 then w.1 else w.2

/-- The SCALE of a record, an f16 code (Table 9.1). -/
def trellisScale (k rec : Nat) : Nat := rec / 2 ^ (64 * k) % 2 ^ 16

/-- Whether a record is well-formed (R263). -/
def trellisWf (k rec : Nat) : Bool :=
  rec / 2 ^ (64 * k + 16) % 2 ^ 16 == 0 && (match ElemTy.f16.ffmt.value (trellisScale k rec) with | .fin _ _ _ => true | _ => false)

/-- The decoded value of weight q, exact; a NaN where the record is ill-formed (R265). -/
def trellisValue (k rec q : Nat) : FVal :=
  if !trellisWf k rec then .nan false
  else
    let w := trellisCode k rec q
    match ElemTy.f16.ffmt.value (trellisScale k rec) with
    | .fin neg m e => if w = 0 then .fin false 0 0 else .fin ((w < 0) != neg) (w.natAbs * m) e
    | x => x

/-- OUT of Table 9.2. -/
inductive TrellisOut | f32 | bf16 | i8
  deriving DecidableEq, Repr

/-- Bits of an output element. -/
def TrellisOut.bits : TrellisOut → Nat
  | .f32 => 32
  | .bf16 => 16
  | .i8 => 8

/-- Out: the output of weight q with its flags (R265). -/
def trellisOut (o : TrellisOut) (mode : Rnd) (k rec q : Nat) : Nat × Nat :=
  match o with
  | .i8 => (cutTo 8 (trellisCode k rec q), 0)
  | .f32 => if trellisWf k rec then ((ElemTy.f32.ffmt.roundVal .rne false (trellisValue k rec q)).1, 0) else (ElemTy.f32.ffmt.nan, flagNV)
  | .bf16 => if trellisWf k rec then ElemTy.bf16.ffmt.roundVal mode false (trellisValue k rec q) else (ElemTy.bf16.ffmt.nan, flagNV)

/-! ### The encoder (R272 to R275) -/

/-- A target with its status bits: 1 NAN, 2 CLAMP (R273). -/
def encTarget (sc x : Nat) : Int × Nat :=
  match ElemTy.f32.ffmt.value x, ElemTy.f16.ffmt.value sc with
  | .nan _, _ => (0, 1)
  | .inf neg, _ => (if neg then -65536 else 65535, 2)
  | .fin neg m e, .fin _ n g =>
    let t := (roundInt .rne neg (divMag (256 * m) n 40 (e - g))).1
    let c := min (max t (-65536)) 65535
    (c, if c = t then 0 else 2)
  | .fin _ _ _, _ => (0, 0)

/-- The scale AUTO chooses for a block of 128 inputs (R275). -/
def encAuto (xs : List Nat) : Nat :=
  let f := ElemTy.f32.ffmt
  let m := xs.foldl (fun (m : Nat) x => match f.value x with
    | .fin _ _ _ => max m (x % 2 ^ 31)
    | _ => m) 0
  if m = 0 then 0x3C00
  else match f.value m with
    | .fin _ a e =>
      let sc := (ElemTy.f16.ffmt.round .rne true false (divMag a 127 40 e)).1
      if sc = 0 then 1 else sc
    | _ => 0x3C00

/-- The codes of every window. -/
def allCodes : Array (Int × Int) := ((List.range 65536).map windowCodes).toArray

/-- Cost(s, j) of a window, by its codes, against the two targets of its step (R273). -/
def encCost (w t : Int × Int) : Nat :=
  let a := 256 * w.1 - t.1
  let b := 256 * w.2 - t.2
  (a * a + b * b).natAbs

/-- The best predecessor of a new state: its path sum and window, the lowest on a tie; none where every sum is infinite (R274). -/
def encBest (k : Nat) (codes : Array (Int × Int)) (m : Array (Option Nat)) (t : Int × Int) (sp : Nat) : Option (Nat × Nat) :=
  let sig0 := sp % 2 ^ (16 - 2 * k) * 2 ^ k
  let s0 := sp / 2 ^ (16 - 2 * k) * 2 ^ (16 - k)
  (List.range (2 ^ k)).foldl (fun best f =>
    let sig := f + sig0
    let s := sig + s0
    match (m[sig]?).getD none with
    | none => best
    | some x =>
      let y := x + encCost ((codes[s]?).getD (0, 0)) t
      match best with
      | some (b, _) => if y < b then some (y, s) else best
      | none => some (y, s)) none

/-- Run(M): the path sums after every step, and the windows chosen, step by step (R274). -/
def encRun (k : Nat) (codes : Array (Int × Int)) (m : Array (Option Nat)) (ts : List (Int × Int)) : Array (Option Nat) × List (Array Nat) :=
  ts.foldl (fun (a : Array (Option Nat) × List (Array Nat)) t =>
    let best := (List.range (2 ^ (16 - k))).map (encBest k codes a.1 t)
    ((best.map fun b => b.map (·.1)).toArray, a.2 ++ [(best.map fun b => (b.map (·.2)).getD 0).toArray])) (m, [])

/-- The least index with a minimal entry. -/
def leastMin (m : Array (Option Nat)) : Nat :=
  ((m.toList.zipIdx.foldl (fun (b : Option (Nat × Nat)) (x, i) =>
    match x, b with
    | some x, some (y, j) => if x < y then some (x, i) else some (y, j)
    | some x, none => some (x, i)
    | none, b => b) none).map (·.2)).getD 0

/-- The stream that encodes 64 steps of targets: pass 1 finds the state, pass 2 the path that starts and ends in it (R274). -/
def encStream (k : Nat) (ts : List (Int × Int)) : Nat :=
  let n := 2 ^ (16 - k)
  let codes := allCodes
  let st := leastMin (encRun k codes (Array.replicate n (some 0)) ts).1
  let P := (encRun k codes ((Array.replicate n none).setIfInBounds st (some 0)) ts).2
  let path := P.zipIdx.foldr (fun (row, j) (a : Nat × List (Nat × Nat)) =>
    let s := (row[a.1]?).getD 0
    (s % 2 ^ (16 - k), (j, s) :: a.2)) (st, [])
  path.2.foldl (fun r (j, s) =>
    (List.range 16).foldl (fun r t =>
      let i := (k * j + t) % (64 * k)
      if bitOf s t && !bitOf r i then r + 2 ^ i else r) r) 0

/-- The record of a block of 128 inputs with a scale, and the status bits (R272 to R274). -/
def encBlock (k sc : Nat) (xs : List Nat) : Nat × Nat :=
  let ts := xs.map (encTarget sc)
  let pairs := (List.range 64).map fun j => (((ts[2 * j]?).getD (0, 0)).1, ((ts[2 * j + 1]?).getD (0, 0)).1)
  (encStream k pairs + sc * 2 ^ (64 * k), ts.foldl (fun a t => a ||| t.2) 0)

end Sys2Proof.Machine
end

