-- ==== Sys2Proof/Machine/Matrix.lean ====
section
/-! DEFINITION. The matrix engine: the geometry and layout of its operands, the arithmetic of the array, the queue and the
booked starts, the ten commands and `mma`, and the starts and completions of commands (R235 to R261, R280). -/

namespace Sys2Proof.Machine

/-! ### Geometry and layout (R237 to R240, R254) -/

/-- The fields of a geometry word, offsets and strides in bytes (Table 8.2). -/
structure Geo where
  ao : Nat
  as_ : Nat
  bo : Nat
  bs : Nat
  crowg : Nat
  ablk : Nat
  qg : Nat
  deriving DecidableEq, Repr

/-- Table 8.2. -/
def geoOf (g : Nat) : Geo :=
  ⟨4 * bitsOf g 12 0, 4 * bitsOf g 25 13, 4 * bitsOf g 39 26, 4 * bitsOf g 53 40, bitsOf g 57 54, bitsOf g 61 58, bitsOf g 63 62⟩

/-- The element count of a group, for QG not 11. -/
def Geo.G (g : Geo) : Nat := 32 * 2 ^ g.qg

end Sys2Proof.Machine

namespace Sys2Proof
open Machine

/-- Bytes of one A element (Table 8.4). -/
def FmtA.bytes : FmtA → Nat
  | .f32 => 4
  | .bf16 | .f16 => 2
  | _ => 1

/-- Bytes of one B element of a plain format. -/
def FmtB.bytes : FmtB → Nat
  | .f32 => 4
  | .bf16 | .f16 => 2
  | _ => 1

/-- The floating format of an A element. -/
def FmtA.ffmt : FmtA → FFmt
  | .bf16 => ElemTy.bf16.ffmt
  | .f16 => ElemTy.f16.ffmt
  | .e4m3 => ElemTy.e4m3.ffmt
  | .e5m2 => ElemTy.e5m2.ffmt
  | _ => ElemTy.f32.ffmt

/-- The floating format of a B element. -/
def FmtB.ffmt : FmtB → FFmt
  | .bf16 => ElemTy.bf16.ffmt
  | .f16 => ElemTy.f16.ffmt
  | .e4m3 => ElemTy.e4m3.ffmt
  | .e5m2 => ElemTy.e5m2.ffmt
  | _ => ElemTy.f32.ffmt

/-- The step of a trellis format. -/
def FmtB.step : FmtB → Nat
  | .tc3 => 3
  | .tc4 => 4
  | _ => 2

end Sys2Proof

namespace Sys2Proof.Machine

/-- K, the chunk (0 for q pairs) and the compute cycles of a shape and pair (Table 8.3). -/
def shapeSpec (s : Shape) (fa : FmtA) (fb : FmtB) : Nat × Nat × Nat :=
  match s with
  | .skinny => if fa == .bf16 then (1024, 8, 64) else (1024, 16, 32)
  | .bd8 => if fa == .f32 then (8, 4, 32) else (8, 8, 8)
  | .sq =>
    if fb.isTrellis then (if fa == .bf16 then (128, 8, 128) else (128, 16, 64))
    else match fa with
      | .q8 => (if fb == .q4 then 256 else 128, 0, 64)
      | .f32 => (16, 4, 64)
      | .bf16 | .f16 => (64, 8, 64)
      | _ => (128, 16, 64)

/-- Bytes of a B column in one buffer (Table 8.4). -/
def bColumn (s : Shape) (fa : FmtA) (fb : FmtB) (G : Nat) : Nat :=
  let K := (shapeSpec s fa fb).1
  if fb.isTrellis then K / 128 * trellisBytes fb.step
  else match fb with
    | .q8 => K / G * recordBytes false G
    | .q4 => K / G * recordBytes true G
    | _ => (if s == .bd8 then 128 else K) * fb.bytes

/-- The last byte past the A operand, from its buffer's start (R238, R239, R240). -/
def aEnd (s : Shape) (fa : FmtA) (fb : FmtB) (sha tra : Bool) (g : Geo) : Nat :=
  let K := (shapeSpec s fa fb).1
  let e := fa.bytes
  match s with
  | .skinny => g.ao + 7 * g.as_ + K * e
  | .bd8 => g.ao + (if sha then 8 * g.ablk + 7 else 127) * g.as_ + 8 * e
  | .sq =>
    if fa == .q8 then g.ao + 127 * g.as_ + 128 / g.G * recordBytes false g.G
    else if tra then g.ao + (K - 1) * g.as_ + 128 * e
    else g.ao + 127 * g.as_ + K * e

/-- The last byte past the B operand, from its buffer's start. -/
def bEnd (s : Shape) (fa : FmtA) (fb : FmtB) (g : Geo) : Nat :=
  g.bo + (if s == .bd8 && fa == .f32 then 63 else 127) * g.bs + bColumn s fa fb g.G

/-- GeometryFault (R254, Table 8.7). -/
def geometryFault (s : Shape) (fa : FmtA) (fb : FmtB) (sha tra : Bool) (g : Geo) : Nat :=
  let q := fa == .q8
  let noA := q && (g.qg == 3 || tra)
  let noB := q && g.qg == 3
  if !noA && 0x8000 < aEnd s fa fb sha tra g then 1
  else if !noB && 0xC000 < bEnd s fa fb g then 2
  else if noB then 3
  else if q && tra then 4
  else if g.as_ = 0 || g.bs = 0 then 5
  else 0

/-! ### Operand elements -/

/-- The local offset of an operand buffer, of a weight buffer and of an accumulator (Table 1.5). -/
def abBase (n : Nat) : Nat := 0x110000 + 0x8000 * n
/-- A weight buffer. -/
def wbBase (n : Nat) : Nat := 0x130000 + 0xC000 * n
/-- Element (i, j) of an accumulator (R38). -/
def accAt (n i j : Nat) : Nat := 0x200000 + 0x10000 * n + 512 * i + 4 * j

/-- A(i, k) of a floating A operand (R238, R239); for BD8 k is m, and i the accumulator row. -/
def elemA (mem : Memory) (ab : Nat) (s : Shape) (fa : FmtA) (sha tra : Bool) (g : Geo) (i k : Nat) : FVal :=
  let e := fa.bytes
  let at_ := match s with
    | .bd8 =>
      let blk := if sha then g.ablk else i / 8
      if tra then (8 * blk + k) * g.as_ + i % 8 * e else (8 * blk + i % 8) * g.as_ + k * e
    | _ => if tra then k * g.as_ + i * e else i * g.as_ + k * e
  fa.ffmt.value (memGetN mem (abBase ab + g.ao + at_) e)

/-- Column j of a floating or trellis B operand, its first n elements (R239, R240, R280); for BD8 element 8g + m. -/
def colB (mem : Memory) (wb : Nat) (s : Shape) (fa : FmtA) (fb : FmtB) (g : Geo) (n j : Nat) : Array FVal :=
  let pair := s == .bd8 && fa == .f32
  let col := if pair then wbBase (wb + j / 64) + g.bo + j % 64 * g.bs else wbBase wb + g.bo + j * g.bs
  (if fb.isTrellis then
    let r := trellisBytes fb.step
    (List.range (n / 128)).flatMap fun q => let x := memGetN mem (col + q * r) r; (List.range 128).map (trellisValue fb.step x)
  else (List.range n).map fun k => fb.ffmt.value (memGetN mem (col + k * fb.bytes) fb.bytes)).toArray

/-! ### Accumulation (R241 to R244) -/

/-- RoundF32 of a sum of two f32 codes in RNE; NaN as R244 gives. -/
def addF32 (a b : Nat) : Nat := (ElemTy.f32.ffmt.addR .rne (ElemTy.f32.ffmt.value a) (ElemTy.f32.ffmt.value b)).1

/-- The f32 default NaN (R244). -/
def nanF32 : Nat := 0x7FC00000

/-- RoundF32 of the exact sum of a chunk's products (R241, R244). -/
def chunkSum (ps : List (FVal × FVal)) : Nat :=
  let mulE (p : FVal × FVal) : Option FVal := if p.1.isNan || p.2.isNan then none else p.1.mul p.2
  let sum := ps.foldl (fun (acc : Option (Option FVal)) p =>
    match acc, mulE p with
    | some none, some x => some (some x)
    | some (some a), some x => (a.add .rne x).map some
    | _, _ => none) (some none)
  match sum with
  | some (some v) => (ElemTy.f32.ffmt.roundVal .rne false v).1
  | some none => 0
  | none => nanF32

/-- FloatSum (R241): the products in order, chunk by chunk, from a start value. -/
def floatSum (z : Nat) (ps : List (FVal × FVal)) (c : Nat) : Nat :=
  (List.range (ps.length / z)).foldl (fun c q => addF32 c (chunkSum ((ps.drop (q * z)).take z))) c

/-- One level of the pairwise tree (R243). -/
def treeLevel : List Nat → List Nat
  | a :: b :: r => addF32 a b :: treeLevel r
  | l => l

/-- One group of a q pair (R242): RoundF32 of s × scaleA × scaleB, NaN where a record is ill-formed. -/
def groupSum (G : Nat) (q4 : Bool) (ra rb : Nat) : Nat :=
  let well (four : Bool) (r : Nat) : Bool := (recordValue four G r 0).isSome
  if !well false ra || !well q4 rb then nanF32
  else
    let base (four : Bool) : Nat := (if four then G / 2 else G) * 8
    let zp (four : Bool) (r : Nat) : Int := ((r / 2 ^ (base four + 16) % 256 : Nat) : Int)
    let sc (four : Bool) (r : Nat) : FVal := ElemTy.f16.ffmt.value (r / 2 ^ base four % 2 ^ 16)
    let sum : Int := (List.range G).foldl (fun (a : Int) i =>
      a + ((recordCode false ra i : Int) - zp false ra) * ((recordCode q4 rb i : Int) - zp q4 rb)) 0
    if sum = 0 then 0
    else match (sc false ra).mul (sc q4 rb) with
      | some p => match (FVal.ofInt sum).mul p with
        | some v => (ElemTy.f32.ffmt.roundVal .rne false v).1
        | none => nanF32
      | none => nanF32

/-- A new element of the accumulator in row i, from the old one and the operands' row and column (R238 to R244): their elements, or
in format q8 their records. -/
def mmaElem (s : Shape) (fb : FmtB) (fa : FmtA) (g : Geo) (A B : Nat → FVal) (recA recB : Nat → Nat) (old i : Nat) : Nat :=
  let (K, z, _) := shapeSpec s fa fb
  match s with
  | .skinny =>
    let part (h : Nat) : Nat := floatSum z ((List.range 64).map fun k => (A (64 * h + k), B (64 * h + k))) 0
    let tree := treeLevel (treeLevel (treeLevel (treeLevel ((List.range 16).map part))))
    addF32 old (tree.headD 0)
  | .bd8 => floatSum z ((List.range 8).map fun m => (A m, B (i / 8 * 8 + m))) old
  | .sq =>
    if fa == .q8 then (List.range (K / g.G)).foldl (fun c q => addF32 c (groupSum g.G (fb == .q4) (recA q) (recB q))) old
    else floatSum z ((List.range K).map fun k => (A k, B k)) old

/-- The results of an `mma` in local SRAM: every operand read before any element is written. -/
def mmaWrite (mem : Memory) (acc ab wb : Nat) (s : Shape) (fb : FmtB) (fa : FmtA) (ovr sha tra : Bool) (geo : Nat) : Memory :=
  let g := geoOf geo
  let K := (shapeSpec s fa fb).1
  let rows := if s == .skinny then 8 else 128
  let row0 := if s == .skinny then 8 * g.crowg else 0
  let q8 := s == .sq && fa == .q8
  let table {α : Type} (n : Nat) (f : Nat → α) : Array α := ((List.range n).map f).toArray
  let as_ := if q8 then #[] else table rows fun i => table (if s == .bd8 then 8 else K) (elemA mem ab s fa sha tra g i)
  let bs := if q8 then #[] else table 128 (colB mem wb s fa fb g (if s == .bd8 then 128 else K))
  let ra := recordBytes false g.G
  let rb := recordBytes (fb == .q4) g.G
  let recAs := if q8 then table rows fun i => table (K / g.G) fun q =>
    let k := q * g.G
    memGetN mem (abBase (ab + k / 128) + g.ao + i * g.as_ + k % 128 / g.G * ra) ra else #[]
  let recBs := if q8 then table 128 fun j => table (K / g.G) fun q => memGetN mem (wbBase wb + g.bo + j * g.bs + q * rb) rb else #[]
  (List.range rows).foldl (fun m i => (List.range 128).foldl (fun m j =>
    let at_ := accAt acc (row0 + i) j
    let el (x : Array (Array FVal)) (i k : Nat) : FVal := (((x[i]?).getD #[])[k]?).getD (.nan false)
    let rc (x : Array (Array Nat)) (i k : Nat) : Nat := (((x[i]?).getD #[])[k]?).getD 0
    memSetN m at_ 4 (mmaElem s fb fa g (el as_ i) (el bs j) (rc recAs i) (rc recBs j) (if ovr then 0 else memGetN mem at_ 4) i)) m) mem

/-- The element type that `accst` and `accld` convert (R260). -/
def accTy : AccFmt → ElemTy
  | .f32 => .f32
  | .bf16 => .bf16
  | .f16 => .f16

/-- What a command does to local SRAM (R253, R259 to R261). -/
def MeOp.apply (op : MeOp) (geo : Nat) (mem : Memory) : Memory :=
  match op with
  | .mma acc ab wb s fb fa ovr sha tra => mmaWrite mem acc.toNat ab.toNat wb.toNat s fb fa ovr sha tra geo
  | .accz mask => ((List.range 8).filter (bitOf mask)).foldl (fun m n => memSetN m (accAt n 0 0) 0x10000 0) mem
  | .accst la row f acc =>
    let e := (accTy f).bits / 8
    (List.range ((bitsOf row 14 8 + 1) * 128)).foldl (fun m i =>
      let x := memGetN mem (accAt acc.toNat (bitsOf row 6 0 + i / 128) (i % 128)) 4
      memSetN m (la + e * i) e (if f == .f32 then x else ((accTy f).ffmt.roundVal .rne false (ElemTy.f32.ffmt.value x)).1)) mem
  | .accld la row f acc =>
    let e := (accTy f).bits / 8
    (List.range ((bitsOf row 14 8 + 1) * 128)).foldl (fun m i =>
      let x := memGetN mem (la + e * i) e
      memSetN m (accAt acc.toNat (bitsOf row 6 0 + i / 128) (i % 128)) 4
        (if f == .f32 then x else (ElemTy.f32.ffmt.roundVal .rne false ((accTy f).ffmt.value x)).1)) mem
  | .abld la range buf => memSetN mem (abBase buf.toNat + bitsOf range 15 0) (bitsOf range 31 16) (memGetN mem la (bitsOf range 31 16))
  | .wbld la range buf => memSetN mem (wbBase buf.toNat + bitsOf range 15 0) (bitsOf range 31 16) (memGetN mem la (bitsOf range 31 16))

/-- The ranges of buffers and accumulators that a command reads (R239, R240, R260). -/
def MeOp.reads (op : MeOp) (geo : Nat) : List (Nat × Nat) :=
  let rows (base n stride len : Nat) : List (Nat × Nat) := (List.range n).map fun i => (base + stride * i, len)
  match op with
  | .mma acc ab wb s fb fa ovr sha tra =>
    let g := geoOf geo
    let K := (shapeSpec s fa fb).1
    let a : List (Nat × Nat) := match s with
      | .skinny => rows (abBase ab.toNat + g.ao) 8 g.as_ (K * fa.bytes)
      | .bd8 => if sha then rows (abBase ab.toNat + g.ao + 8 * g.ablk * g.as_) 8 g.as_ (8 * fa.bytes)
          else rows (abBase ab.toNat + g.ao) 128 g.as_ (8 * fa.bytes)
      | .sq =>
        if fa == .q8 then
          let n := 128 / g.G * recordBytes false g.G
          rows (abBase ab.toNat + g.ao) 128 g.as_ n ++ (if fb == .q4 then rows (abBase (ab.toNat + 1) + g.ao) 128 g.as_ n else [])
        else if tra then rows (abBase ab.toNat + g.ao) K g.as_ (128 * fa.bytes)
        else rows (abBase ab.toNat + g.ao) 128 g.as_ (K * fa.bytes)
    let n := bColumn s fa fb g.G
    let b := if s == .bd8 && fa == .f32 then rows (wbBase wb.toNat + g.bo) 64 g.bs n ++ rows (wbBase (wb.toNat + 1) + g.bo) 64 g.bs n
      else rows (wbBase wb.toNat + g.bo) 128 g.bs n
    let c := if ovr then [] else rows (accAt acc.toNat (if s == .skinny then 8 * g.crowg else 0) 0) (if s == .skinny then 8 else 128) 512 512
    a ++ b ++ c
  | .accst _ row _ acc => [(accAt acc.toNat (bitsOf row 6 0) 0, 512 * (bitsOf row 14 8 + 1))]
  | _ => []

/-- The first word with an uncorrectable soft error that a command reads, as a local offset (R248). -/
def Core.meSoft (k : Core) (m : MeCmd) : Option Nat :=
  if k.matrix.soft.isEmpty then none
  else (k.matrix.soft.find? fun w => (m.op.reads m.geo).any fun r => 64 * w < r.1 + r.2 && r.1 < 64 * w + 64).map (64 * ·)

/-! ### Occupancy and starts (R245 to R251) -/

/-- The 64-byte blocks a command moves, with the scratchpad offset of the first (R260, R261). -/
def MeOp.blocks : MeOp → Nat × Nat
  | .accst la row f _ | .accld la row f _ => (la, (bitsOf row 14 8 + 1) * 128 * (if f == .f32 then 4 else 2) / 64)
  | .abld la range _ | .wbld la range _ => (la, bitsOf range 31 16 / 64)
  | _ => (0, 0)

/-- The unthrottled occupancy of a command, and its drain (R247, Table 8.8). -/
def MeOp.cycles (op : MeOp) : Nat × Nat :=
  match op with
  | .mma _ _ _ s fb fa _ _ _ => ((shapeSpec s fa fb).2.2, 8)
  | .accz mask => (8 * ((List.range 8).filter (bitOf mask)).length, 0)
  | op => (op.blocks.2, 0)

/-- Whether a command is an `mma`. -/
def MeOp.isMma : MeOp → Bool
  | .mma .. => true
  | _ => false

/-- The Almanac code of the matrix engine (Table 7.1). -/
def codeMe : Nat := 0x01

/-- The ticks that d cycles from c touch. -/
def ticksIn (c d : Nat) : List Nat := if d = 0 then [] else (List.range ((c + d - 1) / 8 - c / 8 + 1)).map (c / 8 + ·)

/-- Whether the engine is occupied in a cycle. -/
def Core.meBusy (k : Core) (cycle : Nat) : Bool := k.matrix.cmds.any fun m => m.start.isSome && cycle < m.freeAt

/-- A command started: its cycles fixed, and its effect on local SRAM, which no one sees before it completes, since the engine
owns every unit it uses (R236, R245, R252). -/
def State.meStart (s : State) (c : Nat) (m : MeCmd) (left : Nat) : State :=
  let (d, drain) := m.op.cycles
  let d := if m.twoPass then 2 * d else d
  let m := { m with start := some s.cycle, freeAt := s.cycle + d, doneAt := s.cycle + d + drain, left := left }
  let s := match (s.coreAt c).meSoft m with
    | some off => s.fatalRecord
        { cause := causeFatalUe, flags := 2, source := 5, core := c, ctx := (s.coreAt c).ctx, pc := m.pc, addr := 0, insn := 0,
          ss := s.ssOf c, cycle := s.cycle, det0 := off, det1 := 0, bookid := 0 }
    | none => s.modCore c fun k => { k with sram := m.op.apply m.geo k.sram }
  let s := s.modCore c fun k => { k with
    matrix := { k.matrix with cmds := k.matrix.cmds.map fun x => if x.id == m.id then m else x } }
  if left = 0 then s.postOnce m.doneAt .meCommandComplete else s

/-- The cycles from the issue cycle on that a booking holds a resource consecutively (R251). -/
def Core.heldCycles (k : Core) (th : Thread) (code cycle : Nat) : Nat :=
  let ticks := ((List.range 512).takeWhile fun i => k.ownHolds th code (cycle / 8 + i)).length
  8 * (cycle / 8 + ticks) - cycle

/-- A booked command (R247, R250, R251): OVRN while the engine is occupied, CheckBooked over its occupancy and its blocks'
banks, THROT; it starts in its issue cycle. -/
def meBooked (op : MeOp) (geo : Nat) : Act Done := do
  let s ← get
  if s.me.meBusy s.cycle then fault { cause := causeOvrn, replay := true }
  let (d, _) := op.cycles
  orStop ((ticksIn s.cycle d).findSome? fun t => s.resourceStop codeMe t)
  let (la, n) := op.blocks
  let uses := (List.range n).map fun i => (bankOf (la + 64 * i), s.cycle + i)
  orStop (s.banksStop uses)
  let thr := (s.me.booking (s.th.slot.getD 0)).thr
  let two := op.isMma && (thr || s.me.matrix.throttle == 2)
  if two && (ticksIn s.cycle (2 * d)).any fun t => !s.me.ownHolds s.th codeMe t then
    fault { cause := causeThrot, det0 := 2 * d, det1 := s.me.heldCycles s.th codeMe s.cycle, replay := true }
  let m : MeCmd := ⟨s.me.matrix.serial, s.ct, s.th.pc.toNat, op, geo, two, none, 0, 0, 0⟩
  change fun s => (s.modMe fun k => { k.useBanks s.cycle s.ct uses with
    matrix := { k.matrix with cmds := k.matrix.cmds ++ [m], serial := m.id + 1 } }).meStart s.cc m 0
  done 1

/-- An open command enters the queue of 4 entries (R246). -/
def meOpen (op : MeOp) (geo : Nat) : Act Done := do
  let s ← get
  if 4 ≤ (s.me.matrix.cmds.filter (·.start.isNone)).length then stall
  let m : MeCmd := ⟨s.me.matrix.serial, s.ct, s.th.pc.toNat, op, geo, false, none, 0, 0, 0⟩
  change fun s => (s.modMe fun k => { k with
    matrix := { k.matrix with cmds := k.matrix.cmds ++ [m], serial := m.id + 1 } }).postOnce s.cycle .meCommandStart
  done 1

/-- A command accepted by the engine. -/
def meAccept (op : MeOp) (geo : Nat) : Act Done := do
  if (← get).th.st == .booked then meBooked op geo else meOpen op geo

/-- The running block command moves its next block where its bank is free, and is delayed where it is not (R27, R260). -/
def State.meBlock (s : State) (c : Nat) : State :=
  match (s.coreAt c).matrix.cmds.find? fun m => m.start.isSome && 0 < m.left with
  | none => s
  | some m =>
    let k := s.coreAt c
    let (la, n) := m.op.blocks
    let bank := bankOf (la + 64 * (n - m.left))
    let set (s : State) (m : MeCmd) : State := s.modCore c fun k =>
      { k with matrix := { k.matrix with cmds := k.matrix.cmds.map fun x => if x.id == m.id then m else x } }
    if k.bankUses.any (fun u => u.bank == bank && u.cycle == s.cycle) || k.booked (0x10 + bank) s.tick then
      set s { m with freeAt := m.freeAt + 1, doneAt := m.doneAt + 1 }
    else
      let s := (set s { m with left := m.left - 1 }).modCore c fun k => k.useBanks s.cycle 4 [(bank, s.cycle)]
      if m.left = 1 then s.postOnce (s.cycle + 1) .meCommandComplete else s

/-- The head of the queue starts if the engine is idle and no booking holds a tick of its window (R246); under a throttle an
open `mma` runs in two passes (R250). -/
def State.meHead (s : State) (c : Nat) : State :=
  let k := s.coreAt c
  match k.matrix.cmds.find? (·.start.isNone) with
  | none => s
  | some m =>
    let two := m.op.isMma && 1 ≤ k.matrix.throttle
    let d := m.op.cycles.1 * (if two then 2 else 1)
    if k.meBusy s.cycle || (ticksIn s.cycle d).any fun t => k.booked codeMe t then s
    else (s.meStart c { m with twoPass := two } m.op.blocks.2).meBlock c

/-- Whether the engine has a command to start or blocks to move. -/
def Core.meWork (k : Core) : Bool := k.matrix.cmds.any fun m => m.start.isNone || 0 < m.left

/-- `me_command_start` (R246): a cycle of every matrix engine that has work. -/
def execMeCommandStart : Exec := fun s =>
  .next <| s.eachCore fun s c =>
    if !(s.coreAt c).meWork then s
    else
      let s := (s.meBlock c).meHead c
      if (s.coreAt c).meWork then s.postOnce (s.cycle + 1) .meCommandStart else s

/-- `me_command_complete` (R245): the commands whose completion cycle this is have completed; their results stand in local
SRAM. -/
def execMeCommandComplete : Exec := fun s =>
  .next <| s.eachCore fun s c =>
    let overs (m : MeCmd) : Bool := m.start.isSome && m.left == 0 && m.doneAt ≤ s.cycle
    if (s.coreAt c).matrix.cmds.any overs then s.modCore c fun k => { k with matrix := { k.matrix with cmds := k.matrix.cmds.filter fun m => !overs m } }
    else s

/-! ### mma (R253) -/

/-- The unit number of an OWNER record (R253): ab, wb and acc from 0. -/
def ownerUnit (u : Nat) : Nat := u - 256

/-- `mma` (R253, R254). -/
def execMma (acc : BitVec 3) (ab wb : BitVec 2) (sh : Shape) (fb : FmtB) (fa : FmtA) (ovr sha tra : Bool) : Exec :=
  runThread do
    let s ← get
    let op : MeOp := .mma acc ab wb sh fb fa ovr sha tra
    let geo := ((s.me.matrix.mg[acc.toNat]?).getD 0).toNat
    match op.units.find? fun u => s.me.owner u != 1 with
    | some u => fault { cause := causeOwner, det0 := ownerUnit u }
    | none => pure ()
    let code := geometryFault sh fa fb sha tra (geoOf geo)
    if code != 0 then fault { cause := causeEngine, det0 := code, det1 := geo }
    meAccept op geo

/-! ### Geometry registers (R255) -/

/-- `mgset` (R255). -/
def execMgset (a : GReg) (m : BitVec 3) : Exec :=
  runThread do
    let s ← operands [.rg a false]
    change fun s' => s'.modMe fun k => { k with matrix := { k.matrix with mg := k.matrix.mg.setIfInBounds m.toNat (s.readG a) } }
    done 1

/-- `mgget` (R255). -/
def execMgget (d : GReg) (m : BitVec 3) : Exec :=
  runThread (scalarOp [] d (fun s => (s.me.matrix.mg[m.toNat]?).getD 0) 1 1)

/-! ### Owners (R256, R257) -/

/-- Ownq (R257): the owners, the queue, whether a command runs and the throttle level. -/
def Core.ownq (k : Core) : Word :=
  BitVec.ofNat 64 ((List.range 16).foldl (fun x n => x + k.owner (256 + n) * 2 ^ (3 * n)) 0
    + min 4 (k.matrix.cmds.filter (·.start.isNone)).length * 2 ^ 48 + (if k.matrix.cmds.any (·.start.isSome) then 2 ^ 51 else 0)
    + k.matrix.throttle % 4 * 2 ^ 52)

/-- `owne` (R256). -/
def execOwne (d a : GReg) : Exec :=
  runThread do
    let s ← operands [.rg a false, .wg d]
    let u := (s.readG a).toNat
    let tgt := bitsOf u 18 16
    if u / 2 ^ 19 != 0 || 4 < tgt || u % 65536 = 0 then fault { cause := causeEngine, det0 := 6 }
    let units := ((List.range 16).filter (bitOf u)).map (256 + ·)
    match units.find? fun n => s.me.owner n != 0 && tgt != 0 && s.me.owner n != tgt with
    | some n => fault { cause := causeOwner, det0 := ownerUnit n }
    | none => pure ()
    orStop (s.quietStop (units.filter fun n => s.me.owner n != tgt))
    change fun s => let s := s.modMe fun k => k.flip units tgt; s.writeG d s.me.ownq 2
    done 1

/-- `ownq` (R257). -/
def execOwnq (d : GReg) : Exec := runThread (scalarOp [] d (fun s => s.me.ownq) 2 1)

/-- `mwait` (R258). -/
def execMwait : Exec :=
  runThread do
    let s ← get
    if s.me.matrix.cmds.any fun m => m.thr == s.ct then
      if s.th.st == .booked then fault { cause := causeOvrn, replay := true } else drain
    drained

/-! ### Commands (R259 to R261) -/

/-- OWNER of a command (R259 to R261): its tiles by address, then its buffer or accumulators by unit number. -/
def State.meOwner (s : State) (op : MeOp) : Option Stop :=
  (op.units.find? fun u => s.me.owner u != 1).map fun u =>
    if u < 256 then .trap { cause := causeOwner, addr := localBase + max (4096 * u) op.blocks.1 } else .trap { cause := causeOwner, det0 := ownerUnit u }

/-- `accz` (R259). -/
def execAccz (a : GReg) : Exec :=
  runThread do
    let s ← operands [.rg a false]
    let m := (s.readG a).toNat
    if m / 256 != 0 || m = 0 then fault { cause := causeEngine, det0 := 6 }
    orStop (s.meOwner (.accz m))
    meAccept (.accz m) 0

/-- A command that moves blocks between scratchpad and an engine unit (R260, R261): ALIGN, ENGINE with code 7 where its words
are malformed or the range leaves the scratchpad, OWNER. -/
def meMove (a b : GReg) (bytes : Nat → Nat) (bad : Nat → Bool) (op : Nat → Nat → MeOp) : Act Done := do
  let s ← operands [.rg a false, .rg b false]
  let la := (s.readG a).toNat % 2 ^ 52
  let w := (s.readG b).toNat
  if la % 64 != 0 then fault { cause := causeAlign, addr := la }
  if bad w || !isLocal la || 0x100000 < localOff la + bytes w then fault { cause := causeEngine, det0 := 7 }
  let cmd := op (localOff la) w
  orStop (s.meOwner cmd)
  meAccept cmd 0

/-- Whether a row word is malformed (R260). -/
def badRows (w : Nat) : Bool := w / 2 ^ 15 != 0 || bitOf w 7 || 127 < bitsOf w 6 0 + bitsOf w 14 8

/-- Bytes of the rows a row word names. -/
def rowBytes (f : AccFmt) (w : Nat) : Nat := (bitsOf w 14 8 + 1) * 128 * ((accTy f).bits / 8)

/-- Whether a range word is malformed for a buffer of a size (R261). -/
def badRange (size w : Nat) : Bool :=
  let len := bitsOf w 31 16
  let ofs := bitsOf w 15 0
  w / 2 ^ 32 != 0 || len % 64 != 0 || ofs % 64 != 0 || len < 64 || size < ofs + len

/-- `accst` (R260). -/
def execAccst (a b : GReg) (f : AccFmt) (acc : BitVec 3) : Exec :=
  runThread (meMove a b (rowBytes f) badRows fun la w => .accst la w f acc)

/-- `accld` (R260). -/
def execAccld (a b : GReg) (f : AccFmt) (acc : BitVec 3) : Exec :=
  runThread (meMove a b (rowBytes f) badRows fun la w => .accld la w f acc)

/-- `abld` (R261). -/
def execAbld (a b : GReg) (buf : BitVec 2) : Exec :=
  runThread (meMove a b (bitsOf · 31 16) (badRange 0x8000) fun la w => .abld la w buf)

/-- `wbld` (R261). -/
def execWbld (a b : GReg) (buf : BitVec 2) : Exec :=
  runThread (meMove a b (bitsOf · 31 16) (badRange 0xC000) fun la w => .wbld la w buf)

end Sys2Proof.Machine
end

