-- ==== Sys2Proof/Machine/Order.lean ====
section
/-! DEFINITION. The ordering class: `fence`, `fencei` and `ownf`, the events of `wait` and `signal`, and the barriers `sstep`, `bar`
and `redm` with the release of a group and the imbalance record of a superstep (R322 to R342). -/

namespace Sys2Proof.Machine

/-! ### Rectangle words (R327) -/

/-- Whether one rectangle lies within another. -/
def Rect.within (r q : Rect) : Bool := q.x0 ≤ r.x0 && r.x1 ≤ q.x1 && q.y0 ≤ r.y0 && r.y1 ≤ q.y1

/-- The partition of the issuing core, if there is one. -/
def State.myPart (s : State) : Option Partition := (s.partOf s.cc).bind s.partAt

/-- Whether a rectangle word is valid for the issuing core. -/
def State.rectValid (s : State) (w : Nat) : Bool :=
  let r := rectOf w
  w < 2 ^ 16 && r.x0 ≤ r.x1 && r.y0 ≤ r.y1 && s.myPart.any fun q => r.within q.rect

/-- BADRECT with its word. -/
def badRect (w : Nat) : Exc := { cause := causeBadrect, det1 := w }

/-! ### fence (R325, R326, R329) -/

/-- Units that a write stream holds and has not drained. -/
def Stream.undrained (x : Stream) : List Nat := if x.write then (List.range (x.taken - x.drained)).map (x.drained + ·) else []

/-- Whether a fence of the issuing thread still waits (Table 12.3). -/
def State.fenceWaits (s : State) (sc : Scope) (r : Rect) (l m rem : Bool) : Bool :=
  let mine (x : Access) : Bool :=
    match x.kind with
    | .tile => l
    | .vault => m
    | .off => m && offIn sc
    | .remote => rem && !x.told && s.targetInScope sc r x.target
    | .loc => false
  s.th.outs.any mine
    || (rem && s.me.engine.copies.any fun x => x.thr == s.ct && x.live && x.pages.any (s.homeInScope sc r))
    || (rem && s.me.engine.streams.any fun p => p.2.thr == s.ct && p.2.undrained.any fun u => s.homeInScope sc r (p.2.unitVa u))

/-- A poisoned register or a queued refusal of the issuing thread, raised once at issue (R329, R337). -/
def raiseHeld : Act Unit := do
  let s ← get
  if s.th.since.isNone then
    orStop s.th.poisonStop
    orStop s.th.refusalStop

/-- `fence` (R329). -/
def execFence (a : GReg) (sc : Scope) (l m r : Bool) : Exec :=
  runThread do
    let s ← operands (if sc == .rect then [.rg a false] else [])
    let w := (s.readG a).toNat
    if sc == .rect && !s.rectValid w then fault (badRect w)
    raiseHeld
    if s.fenceWaits sc (rectOf w) l m r then
      if s.th.st == .booked then fault (s.lateExc 0)
      drain
    done 1

/-! ### fencei and ownf (R330, R331) -/

/-- `fencei` (R330): the thread fetches the code store as it is now. -/
def execFencei : Exec :=
  runThread do
    change fun s => s.modTh fun th => { th with stale := [] }
    done 3

/-- Whether a flip word is malformed (R331). -/
def badFlip (w : Nat) : Bool :=
  let n := w % 2 ^ 9
  let tgt := bitsOf w 18 16
  w / 2 ^ 19 != 0 || bitsOf w 15 9 != 0 || n = 0 || 256 < n || !(tgt == 0 || tgt == 1 || tgt == 4)

/-- `ownf` (R331). The fields change at the end of the cycle. -/
def execOwnf (d a b : GReg) : Exec :=
  runThread do
    let s ← operands [.rg a false, .rg b false, .wg d]
    let la := (s.readG a).toNat % 2 ^ 52
    let w := (s.readG b).toNat
    let n := w % 2 ^ 9
    let tgt := bitsOf w 18 16
    if la % 4096 != 0 then fault { cause := causeAlign, addr := la }
    if !(localBase ≤ la && la + 4096 * n ≤ localBase + 0x100000) then fault { cause := causeProt, addr := la }
    if badFlip w then fault { cause := causeEngine, det0 := 18, det1 := w }
    let us := (List.range n).map (localOff la / 4096 + ·)
    match us.find? fun u => s.me.owner u == 2 || s.me.owner u == 3 || (s.me.owner u != 0 && s.me.owner u != tgt && tgt != 0) with
    | some u => fault { cause := causeOwner, det0 := u }
    | none => pure ()
    let new := us.filter fun u => s.me.owner u != tgt
    orStop (s.quietStop new)
    change fun s => ({ s with flips := s.flips ++ new.map fun u => (s.cc, u, tgt) }).writeG d (BitVec.ofNat 64 new.length) 2
    done 1

/-- The owner fields of the flips of a cycle that ends. -/
def State.applyFlips (s : State) : State :=
  let fs := s.flips
  fs.foldl (fun s f => s.modCore f.1 fun k => k.setOwner f.2.1 f.2.2) { s with flips := [] }

/-! ### wait and signal (R332 to R334) -/

/-- A value that a thread read from CYCLE, TICK or EVPEND, logged in a debuggable context (R383). -/
def State.logRead (s : State) (value : Nat) : State :=
  if (s.ctxOf s.me.ctx).dbg then s.logItem s.cc (.read s.ct value) else s

/-- In replay, the next logged value that a thread read, if the log holds one (R383). -/
def NetIf.nextRead (n : NetIf) (t : Nat) : Option Nat :=
  n.replay.bind fun r => r.log.findSome? fun e => match e.item with
    | .read u v => if u = t then some v else none
    | _ => none

/-- The log of a replay with a thread's next read taken. -/
def dropRead (t : Nat) : List LogEntry → List LogEntry
  | [] => []
  | e :: r => match e.item with
    | .read u _ => if u = t then r else e :: dropRead t r
    | _ => e :: dropRead t r

/-- The value a thread reads: its own, logged, or the logged one in replay. -/
def State.observe (s : State) (value : Nat) : State × Nat :=
  match s.me.net.nextRead s.ct with
  | some v => (s.modMe fun k => { k with net := { k.net with replay := k.net.replay.map fun r => { r with log := dropRead s.ct r.log } } }, v)
  | none => (s.logRead value, value)

/-- `wait` (R333): while no event of the mask is pending the instruction looks again in every cycle, with its deadline kept. -/
def execWait (d a b : GReg) : Exec :=
  runThread do
    let s0 ← get
    let us : List Use := if bitOf (s0.readG a).toNat 6 then [.rg a false, .rg b false, .wg d] else [.rg a false, .wg d]
    let s ← operands us
    let m := (s.readG a).toNat
    if m = 0 || 2 ^ 7 ≤ m then fault { cause := causeEngine, det0 := 21, det1 := m }
    let due := (s.readG b).toNat
    let pend := s.th.evpend ||| (if bitOf m 6 && due ≤ s.cycle then 0x40 else 0)
    let (s1, e) := s.observe (pend &&& BitVec.ofNat 64 m).toNat
    if e = 0 then
      if s.th.st == .booked then fault { cause := causeOvrn, replay := true }
      if bitOf m 6 then
        change fun s => (s.modTh fun th => { th with timer := some due }).postOnce due .waitTimerExpire
      hold
    else
      set s1
      change fun s => (s.modTh fun th => { th with evpend := pend &&& ~~~(BitVec.ofNat 64 e), timer := none }).writeG d (BitVec.ofNat 64 e) 1
      done 1

/-- `wait_timer_expire` (R333): the deadline of each thread that waits for it sets bit 6 of EVPEND. -/
def execWaitTimerExpire : Exec := fun s =>
  .next <| s.eachCore fun s c =>
    if (s.coreAt c).threads.all (·.timer.isNone) then s
    else
      let ring (th : Thread) : Thread := if th.timer.any (· ≤ s.cycle) then { th with evpend := th.evpend ||| 0x40, timer := none } else th
      s.modCore c fun k => { k with threads := k.threads.map ring }

/-- `signal` (R334). -/
def execSignal (a b : GReg) : Exec :=
  runThread do
    let s ← operands [.rg a false, .rg b false]
    let tw := (s.readG a).toNat
    let m := (s.readG b).toNat
    if 2 ^ 18 ≤ tw || bitsOf tw 17 8 != 0x3FF then fault (engine16 tw)
    let target := tw % 256
    if m = 0 || 2 ^ 4 ≤ m then fault { cause := causeEngine, det0 := 22, det1 := m }
    if !(s.myPart.any fun q => q.rect.has target) then fault { cause := causeEngine, det0 := 22, det1 := tw }
    change fun s => s.send (s.cycle + 1) ⟨.control, s.cc, s.ct, .core target, .signal target s.me.ctx m⟩
    done 1

/-- Bits of EVPEND set in the threads of a core that a mask names and that are not idle. -/
def Core.event (k : Core) (m : Nat) (bits : Word) : Core :=
  (List.range 4).foldl (fun k t =>
    let th := k.thr t
    if bitOf m t && th.st != .idle then k.setThr t { th with evpend := th.evpend ||| bits } else k) k

/-- `signal_arrival` (R334). -/
def execSignalArrival (c ctx mask : Nat) : Exec := fun s =>
  .next ((s.logItem c (.arrival (.signalArrival c ctx mask))).onCtx c ctx fun k => k.event mask 0x20)

/-! ### Barriers (R335 to R340) -/

/-- What an issue of a barrier instruction names (R335). -/
structure BarrierOp where
  part : Nat
  group : Nat
  kind : GroupKind
  rect : Rect
  tmask : Nat
  dom : Bool
  op : Nat
  deriving DecidableEq, Repr

/-- Whether a control word is malformed (R335). -/
def State.badControl (s : State) (kind : GroupKind) (w rw : Nat) : Bool :=
  let op := bitsOf w 15 12
  let tm := bitsOf w 7 4
  2 ^ 16 ≤ w || bitsOf w 11 9 != 0 || bitOf w 3 || (kind != .redm && op != 0) || 8 < op || tm = 0 || !bitOf tm s.ct
    || (bitOf w 8 && !(rw < 2 ^ 16 && s.myPart.any fun q => q.rect == rectOf rw))

/-- The group of a partition. -/
def Partition.group (q : Partition) (g : Nat) : Option Group := (q.groups[g]?).getD none

/-- A partition's group replaced. -/
def State.setGroup (s : State) (p g : Nat) (x : Option Group) : State :=
  s.modPart p fun q => { q with groups := q.groups.setIfInBounds g x }

/-- Whether an issue agrees with a live group (R336). -/
def Group.agrees (x : Group) (b : BarrierOp) : Bool :=
  x.kind == b.kind && x.rect == b.rect && x.tmask == b.tmask && x.dom == b.dom && x.op == b.op

/-- The checks shared by the three instructions, up to ENGINE with code 20 (R340), which does not meet a thread whose own instance of the
group has released while it was away (R337). -/
def barrierChecks (kind : GroupKind) (s : State) (w rw : Nat) : Act BarrierOp := do
  if s.badControl kind w rw then fault { cause := causeEngine, det0 := 19, det1 := w }
  if !(s.rectValid rw && (rectOf rw).has s.cc) then fault (badRect rw)
  let p := (s.partOf s.cc).getD 0
  let b : BarrierOp := ⟨p, w % 8, kind, rectOf rw, bitsOf w 7 4, bitOf w 8, bitsOf w 15 12⟩
  match (s.partAt p).bind (·.group b.group) with
  | some x => if !x.agrees b && s.th.owed.all (·.1 != b.group) then fault { cause := causeEngine, addr := rw, det0 := 20, det1 := w }
  | none => pure ()
  pure b

/-- The running thread takes part in the group, with a value, and waits for its release; it takes part once however often a
pre-emption makes it issue (R336, R337). In replay the log releases it (R383). -/
def State.joinGroup (s : State) (b : BarrierOp) (v : Nat) (d : Dest) : State :=
  let s := s.modTh fun th => { th with block := .barrier b.part b.group d }
  if s.me.net.replay.isSome then s
  else
    let me : Issuer := ⟨s.me.ctx, s.cc, s.ct, v⟩
    let x : Group := ((s.partAt b.part).bind (·.group b.group)).getD ⟨b.kind, b.rect, b.tmask, b.dom, b.op, [], [], none⟩
    let known := x.issued.any fun i => i.ctx == me.ctx && i.core == me.core && i.thr == me.thr
    let x := if known then x else { x with issued := x.issued ++ [me] }
    (s.setGroup b.part b.group (some x)).postOnce s.cycle (.barrierArrival b.part b.group s.cc)

/-- A barrier instruction after its checks: it completes at once where its group released while the thread was away, and else
waits. -/
def barrierWait (b : BarrierOp) (v : Nat) (d : Dest) : Act Done := do
  match (← get).th.owed with
  | some (g, x) =>
    if g = b.group then
      change fun s => s.modTh fun th => { th.setDest d .full x (s.cycle + 1) with owed := none }
      done 1
    else
      change fun s => s.joinGroup b v d
      hold
  | none =>
    change fun s => s.joinGroup b v d
    hold

/-- `sstep` (R337). -/
def execSstep (a b : GReg) : Exec :=
  runThread do
    let s ← operandsOpenOnly [.rg a false, .rg b false]
    let op ← barrierChecks .sstep s (s.readG a).toNat (s.readG b).toNat
    raiseHeld
    barrierWait op 0 .none

/-- `bar` (R337). -/
def execBar (a b : GReg) : Exec :=
  runThread do
    let s ← operandsOpenOnly [.rg a false, .rg b false]
    let op ← barrierChecks .bar s (s.readG a).toNat (s.readG b).toNat
    barrierWait op 0 .none

/-- `redm` (R339). -/
def execRedm (d a b : GReg) : Exec :=
  runThread do
    let s ← operandsOpenOnly [.rg a false, .rg b false, .rg d false]
    let op ← barrierChecks .redm s (s.readG a).toNat (s.readG b).toNat
    barrierWait op (s.readG d).toNat (s.th.destOf d.toNat)

/-- Whether a thread waits at a group of a partition. -/
def Thread.waitsAt (th : Thread) (p g : Nat) : Bool :=
  match th.block with
  | .barrier p' g' _ => p == p' && g == g'
  | _ => false

/-- Whether every participating thread of a core has issued and waits (R337). -/
def State.allIssued (s : State) (c p g : Nat) (x : Group) : Bool :=
  (List.range 4).all fun t =>
    !bitOf x.tmask t || ((s.thrAt c t).waitsAt p g && x.issued.any fun i => i.ctx == (s.coreAt c).ctx && i.core == c && i.thr == t)

/-- The further condition of a core's arrival (R337). An off-stack home lies in no rectangle, and the core lies in its own. -/
def Core.arrives (k : Core) (x : Group) : Bool :=
  match x.kind with
  | .sstep => k.threads.all (·.outs.all (·.told)) && !k.engine.copies.any Copy.live && !k.engine.streams.any fun p => !p.2.undrained.isEmpty
  | .bar | .redm => (List.range 4).all fun t =>
      !bitOf x.tmask t || (k.thr t).outs.all fun o => o.kind == .off || o.kind == .remote || o.kind == .loc

/-- `barrier_arrival` (R337, R338): a core whose threads have all issued arrives in the first cycle in which its further condition
holds; the last arrival sets the release, 96 cycles on, later by what the device leg takes. -/
def execBarrierArrival (part group c : Nat) : Exec := fun s =>
  .next <|
    match (s.partAt part).bind (·.group group) with
    | none => s
    | some x =>
      if x.arrived.any (·.1 == c) || !s.allIssued c part group x then s
      else if !(s.coreAt c).arrives x then s.postOnce (s.cycle + 1) (.barrierArrival part group c)
      else
        let x := { x with arrived := x.arrived ++ [(c, s.cycle)] }
        if x.rect.cores.all fun n => x.arrived.any (·.1 == n) then
          let far := x.dom && !s.reachable.isEmpty
          let due := s.cycle + 96 + (if far then Config.freeDelay s.fresh else 0)
          let s := if far then s.tickFree else s
          (s.setGroup part group (some { x with releaseAt := some due })).post due .barrierRelease
        else s.setGroup part group (some x)

/-! ### Release (R338, R339, R341) -/

/-- Adjacent pairs combined, an unpaired last element passing up (R339). -/
def pairUp (f : Nat → Nat → Nat) : List Nat → List Nat
  | a :: b :: r => f a b :: pairUp f r
  | l => l

/-- Levels of pairs, as many as given. -/
def pairLevels (f : Nat → Nat → Nat) : Nat → List Nat → List Nat
  | 0, l => l
  | n + 1, l => pairLevels f n (pairUp f l)

/-- Table 12.6. -/
def redmOp (op a b : Nat) : Nat :=
  let x := BitVec.ofNat 64 a
  let y := BitVec.ofNat 64 b
  match op with
  | 0 => (a + b) % 2 ^ 64
  | 1 => (x &&& y).toNat
  | 2 => (x ||| y).toNat
  | 3 => (x ^^^ y).toNat
  | 4 => if x.toInt ≤ y.toInt then a else b
  | 5 => if x.toInt ≤ y.toInt then b else a
  | 6 => min a b
  | 7 => max a b
  | _ => addF32 (a % 2 ^ 32) (b % 2 ^ 32)

/-- The participants in order of core and thread (R339). -/
def Group.ordered (x : Group) : List Issuer :=
  sortBy (fun a b => if a.core != b.core then a.core < b.core else a.thr ≤ b.thr) x.issued

/-- The reduction of a group's values. Where other devices take part, whose values do not stand in this device, it is free. -/
def State.reduction (s : State) (x : Group) : Nat :=
  if x.dom && !s.reachable.isEmpty then (Config.freeWord s.fresh).toNat
  else (pairLevels (redmOp x.op) 10 (x.ordered.map (·.value))).headD 0

/-- A waiting thread's instruction completes (R338). -/
def State.releaseThread (s : State) (who : Fin 256 × Fin 4) (v : Nat) : State :=
  let here := s.cur
  let s := { s with cur := who }
  let s := match s.th.block with
    | .barrier _ _ d => s.modTh fun th => { th.setDest d .full v (s.cycle + 1) with block := .none }
    | _ => s
  { retire ⟨1, none, false⟩ s with cur := here }

/-- A participant's release: its instruction completes, or is owed its completion where the thread is away from it (R337). -/
def State.releaseIssuer (s : State) (p g v : Nat) (i : Issuer) : State :=
  let c : Fin 256 := ⟨i.core % 256, Nat.mod_lt _ (by decide)⟩
  let t : Fin 4 := ⟨i.thr % 4, Nat.mod_lt _ (by decide)⟩
  if (s.coreAt i.core).ctx == i.ctx && (s.thrAt i.core i.thr).waitsAt p g then s.releaseThread (c, t) v
  else s.onCtx i.core i.ctx fun k => k.setThr i.thr { k.thr i.thr with owed := some (g, v) }

/-- The imbalance record of a superstep (Table 12.7). An arrival before the superstep's start, which a second global group can bring, has
a negative offset, written in two's complement (DEDUCED, log entry 77). -/
def Group.imbalance (x : Group) (g ss start : Nat) : Nat :=
  let times := x.arrived.map (·.2)
  let late := times.foldl max 0
  let early := times.foldl min late
  let last := (((x.arrived.filter fun a => a.2 == late).map (·.1)).min?).getD 0
  let off (t : Nat) : Int := (t : Int) - start
  ss % 2 ^ 32 + cutTo 32 (off early) * 2 ^ 32 + cutTo 32 (off late) * 2 ^ 64 + last % 256 * 2 ^ 96 + g % 8 * 2 ^ 104
    + x.arrived.length % 2 ^ 16 * 2 ^ 112 + cutTo 64 (times.foldl (fun a t => a + off t) 0) * 2 ^ 128 + start % 2 ^ 64 * 2 ^ 192

/-- The record written to the partition's ring by the agent of its origin core, or dropped with CTXSTAT's lost flag set (R342). -/
def State.writeImbalance (s : State) (q : Partition) (rec_ : Nat) : State :=
  let w := q.imbring.toNat
  if !bitOf w 63 then s
  else
    let origin := 16 * q.rect.y0 + q.rect.x0
    match s.agentWrite origin (bitsOf w 51 5 * 32 + 32 * (s.ssOf origin % 2 ^ bitsOf w 55 52)) 32 rec_ with
    | some s => s
    | none => s.modCtx (s.coreAt origin).ctx fun x => { x with lost := true }

/-- The release of a group (R338): every participant completes, the other threads of their contexts see the event, and the group
is idle. A global group ends a superstep (R341), and the stop asked for it falls here (R382). -/
def State.releaseGroup (s : State) (p g : Nat) (q : Partition) (x : Group) : State :=
  let v := if x.kind == .redm then s.reduction x else 0
  let s := if x.dom && !s.reachable.isEmpty then s.tickFree else s
  let s := s.setGroup p g none
  let global := x.rect == q.rect
  let s := x.rect.cores.foldl (fun s c =>
    let here := (s.coreAt c).ctx
    if x.issued.any (·.ctx == here) then
      s.logItem c (.release ((x.issued.filter fun i => i.core == c && i.ctx == here).map fun i => (i.thr, v)) global)
    else s) s
  let s := (x.issued.map (·.ctx)).eraseDups.foldl (fun s ctx =>
    x.rect.cores.foldl (fun s c =>
      let mine := x.issued.filter fun i => i.ctx == ctx && i.core == c
      s.onCtx c ctx fun k => k.event ((List.range 4).foldl (fun m t => if mine.any (·.thr == t) then m else m + 2 ^ t) 0) 2) s) s
  let s := if global then
      let origin := 16 * q.rect.y0 + q.rect.x0
      ((s.flushRecords origin).writeImbalance q (x.imbalance g (s.ssOf origin) q.ssStart)).modPart p fun q =>
        { q with sscnt := (q.sscnt + 1) % 2 ^ 64, ssStart := s.cycle }
    else s
  let s := x.issued.foldl (fun s i => s.releaseIssuer p g v i) s
  let asked := q.ssStop || q.rect.cores.any fun c => bitOf (s.coreAt c).dbgctl.toNat 1 && (s.ctxOf (s.coreAt c).ctx).dbg
  if global && asked then (s.modPart p fun q => { q with ssStop := false }).haltPartition p 3 s.cycle else s

/-- `barrier_release` (R338). -/
def execBarrierRelease : Exec := fun s =>
  .next <| (List.range 16).foldl (fun s p =>
    (List.range 8).foldl (fun s g =>
      match s.partAt p with
      | none => s
      | some q => match q.group g with
        | some x => if x.releaseAt.any (· ≤ s.cycle) then s.releaseGroup p g q x else s
        | none => s) s) s

end Sys2Proof.Machine
end

