-- ==== Sys2Proof/Machine/Crypto.lean ====
section
/-! DEFINITION. The two standard functions that attestation names (R376): SHA-512, and the Ed25519 signature over it. -/

namespace Sys2Proof.Machine

/-! ### SHA-512 -/

/-- The whole k-th root of a number below 2^216. -/
def wholeRoot (k n : Nat) : Nat :=
  (List.range 72).foldl (fun r i => let t := r + 2 ^ (71 - i); if t ^ k ≤ n then t else r) 0

/-- The first 80 primes. -/
def primes80 : List Nat := (List.range 410).filter fun n => 2 ≤ n && (List.range n).all fun d => d < 2 || n % d != 0

/-- The first 64 bits of the fractional parts of the cube roots of the first 80 primes. -/
def shaK : List Nat := primes80.map fun p => wholeRoot 3 (p * 2 ^ 192) % 2 ^ 64

/-- The first 64 bits of the fractional parts of the square roots of the first 8 primes. -/
def shaInit : List Nat := (primes80.take 8).map fun p => wholeRoot 2 (p * 2 ^ 128) % 2 ^ 64

/-- A 64-bit rotation right. -/
def rotr (n : Nat) (x : Word) : Word := x.rotateRight n

/-- The big-endian number of bytes. -/
def beNat (bs : List Byte) : Nat := bs.foldl (fun a b => 256 * a + b.toNat) 0

/-- A number's n bytes, highest first. -/
def beBytes (n x : Nat) : List Byte := (leBytes n x).reverse

/-- A list cut into pieces of a length, as many as given. -/
def pieces (n : Nat) : Nat → List Byte → List (List Byte)
  | 0, _ => []
  | k + 1, l => l.take n :: pieces n k (l.drop n)

/-- The padded message. -/
def shaPad (m : List Byte) : List Byte :=
  m ++ [0x80] ++ List.replicate ((239 - m.length % 128) % 128) 0 ++ beBytes 16 (8 * m.length)

/-- The 80 words of a block's schedule. -/
def shaSchedule (b : List Byte) : List Word :=
  (List.range 64).foldl (fun w i =>
    let g (j : Nat) : Word := (w[j]?).getD 0
    let s0 := rotr 1 (g (i + 1)) ^^^ rotr 8 (g (i + 1)) ^^^ (g (i + 1)) >>> 7
    let s1 := rotr 19 (g (i + 14)) ^^^ rotr 61 (g (i + 14)) ^^^ (g (i + 14)) >>> 6
    w ++ [g i + s0 + g (i + 9) + s1]) ((pieces 8 16 b).map fun x => BitVec.ofNat 64 (beNat x))

/-- The working variables after one round. -/
def shaRound (v : List Word) (kw : Word) : List Word :=
  match v with
  | [a, b, c, d, e, f, g, h] =>
    let t1 := h + (rotr 14 e ^^^ rotr 18 e ^^^ rotr 41 e) + ((e &&& f) ^^^ (~~~e &&& g)) + kw
    let t2 := (rotr 28 a ^^^ rotr 34 a ^^^ rotr 39 a) + ((a &&& b) ^^^ (a &&& c) ^^^ (b &&& c))
    [t1 + t2, a, b, c, d + t1, e, f, g]
  | v => v

/-- The 64 bytes of SHA-512. -/
def sha512 (m : List Byte) : List Byte :=
  let p := shaPad m
  let ks := shaK.map (BitVec.ofNat 64)
  let h := (pieces 128 (p.length / 128) p).foldl (fun (h : List Word) b =>
    List.zipWith (· + ·) h ((List.zipWith (· + ·) ks (shaSchedule b)).foldl shaRound h)) (shaInit.map (BitVec.ofNat 64))
  h.flatMap fun w => beBytes 8 w.toNat

/-! ### Ed25519 -/

/-- The prime of the field, 2^255 − 19. -/
def edP : Nat := 2 ^ 255 - 19

/-- The order of the base point. -/
def edL : Nat := 2 ^ 252 + 27742317777372353535851937790883648493

/-- A power modulo a number, over the given number of exponent bits. -/
def powMod (m : Nat) : Nat → Nat → Nat → Nat
  | 0, _, _ => 1 % m
  | bits + 1, b, e => (if e % 2 = 1 then b else 1) * powMod m bits (b * b % m) (e / 2) % m

/-- The inverse in the field. -/
def edInv (x : Nat) : Nat := powMod edP 255 x (edP - 2)

/-- The curve's constant, −121665 ÷ 121666. -/
def edD : Nat := (edP - 121665) * edInv 121666 % edP

/-- The sum of two points, in affine coordinates. -/
def edAdd (p q : Nat × Nat) : Nat × Nat :=
  let t := edD * (p.1 * q.1 % edP) % edP * (p.2 * q.2 % edP) % edP
  ((p.1 * q.2 + q.1 * p.2) % edP * edInv (1 + t) % edP, (p.2 * q.2 + p.1 * q.1) % edP * edInv (1 + edP - t) % edP)

/-- A multiple of a point, over the given number of bits. -/
def edMul : Nat → Nat → Nat × Nat → Nat × Nat
  | 0, _, _ => (0, 1)
  | bits + 1, k, p =>
    let r := edMul bits (k / 2) (edAdd p p)
    if k % 2 = 1 then edAdd p r else r

/-- The base point: y = 4 ÷ 5, x even. -/
def edBase : Nat × Nat :=
  let y := 4 * edInv 5 % edP
  let xx := (y * y + edP - 1) * edInv (edD * (y * y % edP) + 1) % edP
  let r := powMod edP 255 xx ((edP + 3) / 8)
  let x := if r * r % edP = xx then r else r * powMod edP 255 2 ((edP - 1) / 4) % edP
  (if x % 2 = 1 then edP - x else x, y)

/-- The 32 bytes of a point. -/
def edBytes (p : Nat × Nat) : List Byte := leBytes 32 (p.2 + p.1 % 2 * 2 ^ 255)

/-- The scalar and the prefix of a secret key. -/
def edSecret (key : Nat) : Nat × List Byte :=
  let h := sha512 (leBytes 32 key)
  let a := leNat (h.take 32)
  (a % 2 ^ 254 / 8 * 8 + 2 ^ 254, h.drop 32)

/-- The public key of a secret key. -/
def edPublic (key : Nat) : List Byte := edBytes (edMul 255 (edSecret key).1 edBase)

/-- The signature of a message. -/
def edSign (key : Nat) (m : List Byte) : List Byte :=
  let (a, pre) := edSecret key
  let r := leNat (sha512 (pre ++ m)) % edL
  let big := edBytes (edMul 255 r edBase)
  let h := leNat (sha512 (big ++ edPublic key ++ m)) % edL
  big ++ leBytes 32 ((r + h * a) % edL)

end Sys2Proof.Machine
end

