-- ==== Sys2Proof/Machine/Almanac.lean ====
section
/-! DEFINITION. The Almanac: booking lists and their placement, the search for a start, bookings and their life, link commits,
compaction, and the six calendar instructions (R195 to R222). -/

namespace Sys2Proof.Machine

/-! ### Booking lists (R198 to R201) -/

/-- The number of entries a header gives. -/
def headCount (h : Nat) : Nat := bitsOf h 6 0

/-- The duration a header gives, in ticks. -/
def headDur (h : Nat) : Nat := bitsOf h 25 16

/-- Whether a header is malformed (R198, R208). -/
def badHeader (h : Nat) : Bool :=
  h / 2 ^ 34 != 0 || bitsOf h 31 26 != 0 || bitsOf h 15 7 != 0 || headCount h = 0 || 64 < headCount h || headDur h = 0 || 512 < headDur h

/-- The entries of a list. -/
def listEntries (ws : List Nat) : List Nat := (ws.drop 1).take (headCount (ws.headD 0))

/-- CODE of an entry (Table 7.3). -/
def entryCode (e : Nat) : Nat := bitsOf e 63 56
/-- START of an entry. -/
def entryStart (e : Nat) : Nat := bitsOf e 55 46
/-- LEN of an entry. -/
def entryLen (e : Nat) : Nat := bitsOf e 45 36
/-- CNT of an entry. -/
def entryCnt (e : Nat) : Nat := bitsOf e 35 28
/-- STRIDE of an entry. -/
def entryStride (e : Nat) : Nat := bitsOf e 27 18
/-- DEST of an entry. -/
def entryDest (e : Nat) : Nat := bitsOf e 17 10

/-- The code of a link route. -/
def codeLink : Nat := 0x60

/-- The codes of Table 7.1 but for the link route. -/
def rowCode (c : Nat) : Bool := (1 ≤ c && c ≤ 3) || (0x10 ≤ c && c ≤ 0x5F)

/-- The first tick after an entry's last occurrence, each of a length, before placement. -/
def entryEnd (e len : Nat) : Nat := entryStart e + (entryCnt e - 1) * entryStride e + len

/-- Whether an entry is malformed for a booking core of a partition (R199). -/
def badEntry (core : Nat) (part : Rect) (dur e : Nat) : Bool :=
  !(rowCode (entryCode e) || entryCode e == codeLink) || entryLen e = 0 || entryCnt e = 0
    || (1 < entryCnt e && entryStride e < entryLen e) || (entryCode e != codeLink && entryDest e != 0) || bitsOf e 9 0 != 0
    || (entryCode e == codeLink && (entryDest e == core || !part.has (entryDest e))) || dur < entryEnd e (entryLen e)

/-- The routers of a route with the egress each uses (R19, R196). -/
def routeHops : Nat → Nat → Nat → List (Nat × Nat)
  | 0, _, _ => []
  | fuel + 1, n, m => if n = m then [] else (n, hopDir n m) :: routeHops fuel (neighbour n (hopDir n m)) m

/-- The hops of an entry's link route. -/
def entryHops (core e : Nat) : List (Nat × Nat) := if entryCode e == codeLink then routeHops 32 core (entryDest e) else []

/-- The hops of all link entries of a list (R212). -/
def listHops (core : Nat) (ws : List Nat) : Nat := (listEntries ws).foldl (fun n e => n + (entryHops core e).length) 0

/-- The runs of ticks that a vault-port occurrence holds: a number of ticks from a tick on, agent ticks passed over (R200). -/
def portRuns : Nat → Nat → Nat → List (Nat × Nat)
  | 0, _, _ => []
  | fuel + 1, len, t =>
    if len = 0 then []
    else if t % 8 = 7 then portRuns fuel len (t + 1)
    else
      let n := min len (7 - t % 8)
      (t, t + n - 1) :: portRuns fuel (len - n) (t + n)

/-- What an entry holds, in task ticks (R200, R201, R209): doubled occurrences of the matrix engine under advisory throttle, slip
ticks after each occurrence of the vault port and of a vault bank. -/
def placeEntry (core slip : Nat) (thr : Bool) (e : Nat) : List Hold :=
  let code := entryCode e
  let len := entryLen e
  (List.range (entryCnt e)).flatMap fun i =>
    let t := entryStart e + i * entryStride e
    if code = codeLink then (entryHops core e).zipIdx.map fun (h, j) => ⟨code, h.1, h.2, t + j, t + j + len - 1⟩
    else if code = codePort then (portRuns (2 * (len + slip) + 2) (len + slip) t).map fun r => ⟨code, 0, 0, r.1, r.2⟩
    else
      let n := if code = codeMe && thr then 2 * len else if 0x40 ≤ code then len + slip else len
      [⟨code, 0, 0, t, t + n - 1⟩]

/-- What a list holds from a task tick on, counted from that tick (R208). -/
def placeList (core slip : Nat) (thr : Bool) (kt : Nat) (ws : List Nat) : List Hold :=
  (((listEntries ws).flatMap (placeEntry core slip thr)).filter (kt ≤ ·.last)).map fun h => { h with first := max h.first kt - kt, last := h.last - kt }

/-- Holds moved to a start tick. -/
def holdsAt (start : Nat) (hs : List Hold) : List Hold := hs.map fun h => { h with first := h.first + start, last := h.last + start }

/-- The ticks from the first one on that a placed list spans. -/
def listSpan (hs : List Hold) : Nat := hs.foldl (fun m h => max m (h.last + 1)) 0

/-- The status that a list's form gives, with its index, or none (Table 7.6, statuses 3, 4 and 5). -/
def listStatus (core : Nat) (part : Rect) (kap slip : Nat) (thr : Bool) (ws : List Nat) : Option (Nat × Nat) :=
  let h := ws.headD 0
  if badHeader h then some (3, 0)
  else match (listEntries ws).zipIdx.find? fun x => badEntry core part (headDur h) x.1 with
    | some (_, i) => some (4, i)
    | none => if 8 * headDur h ≤ kap || 512 < listSpan (placeList core slip thr (8 * (kap / 64)) ws) then some (5, 0) else none

/-- Status 7 (R209): a doubled occurrence that meets the entry's next one, or ends late. -/
def throttleStatus (thr : Bool) (ws : List Nat) : Option (Nat × Nat) :=
  if !thr then none
  else ((listEntries ws).zipIdx.find? fun x =>
    entryCode x.1 == codeMe && ((1 < entryCnt x.1 && entryStride x.1 < 2 * entryLen x.1) || headDur (ws.headD 0) < entryEnd x.1 (2 * entryLen x.1))).map
      fun x => (7, x.2)

/-! ### Calendars (R195 to R197) -/

/-- Whether Table 7.1 closes a tick of a row. -/
def Core.tickClosed (k : Core) (c code tick : Nat) : Bool :=
  let lane := k.vault.windows.any fun w => w.bank == none && w.first ≤ 8 * tick + 7 && 8 * tick ≤ w.last
  if code = codePort then agentTick tick || lane
  else if 0x40 ≤ code && code < codeLink then
    lane || (k.vault.power != .retention && ((normalWindow c (code - 0x40) (8 * tick)).isSome || (normalWindow c (code - 0x40) (8 * tick + 7)).isSome))
  else false

/-- Whether two holds share a tick of a resource. -/
def Hold.meets (h g : Hold) : Bool := h.code == g.code && h.node == g.node && h.dir == g.dir && h.first ≤ g.last && g.first ≤ h.last

/-- Whether the ticks of a hold belong to a live booking other than one's own slot (R197). -/
def State.heldByOther (s : State) (c : Nat) (own : Option Nat) (h : Hold) : Bool :=
  if h.code = codeLink then
    s.links.any fun l => l.committed && !(l.core == c && some l.slot == own) && l.node == h.node && l.dir == h.dir && l.first ≤ h.last && h.first ≤ l.last
  else
    let k := s.coreAt c
    (List.range 16).any (fun i => some i != own && (k.booking i).live && (k.booking i).holds.any h.meets) || k.almanac.kept.any fun x => k.stillKept x && h.meets x.hold

/-- Whether a booking may hold ticks: within the horizon, open, and held by no other. -/
def State.holdFits (s : State) (c : Nat) (own : Option Nat) (h : Hold) : Bool :=
  s.tick ≤ h.first && h.last ≤ s.tick + 511 && !s.heldByOther c own h
    && (List.range (h.last + 1 - h.first)).all fun i => !(s.coreAt c).tickClosed c h.code (h.first + i)

/-- The earliest start at or after one, in steps of 8, that fits, and lies below a bound (R208, R218). -/
def State.findStart (s : State) (c : Nat) (own : Option Nat) (hs : List Hold) (bound : Nat) : Nat → Nat → Option Nat
  | 0, _ => none
  | fuel + 1, st =>
    if bound ≤ st || hs.any fun h => s.tick + 511 < h.last + st then none
    else if (holdsAt st hs).all (s.holdFits c own) then some st
    else s.findStart c own hs bound fuel (st + 8)

/-- The least multiple of 8 with 8e at or after a cycle (R208). -/
def startFrom (cycle : Nat) : Nat := 8 * ceilDiv cycle 64

/-- No bound on a start. -/
def noBound : Nat := 2 ^ 70

/-! ### Handles (R203) -/

/-- A handle (Table 7.4). -/
def Booking.handle (b : Booking) (slot : Nat) : Nat :=
  (if b.thr then 2 ^ 62 else 0) + slot % 16 * 2 ^ 56 + b.serial % 256 * 2 ^ 48 + b.start % 2 ^ 48

/-- A failure word of `book` and `calmv`. -/
def failHandle (st idx : Nat) : Nat := 2 ^ 63 + st + idx * 2 ^ 8

/-- The slot that a handle names, if its booking has the handle's serial. -/
def Core.handleSlot (k : Core) (w : Nat) : Option Nat :=
  let i := bitsOf w 59 56
  if bitOf w 63 || (k.booking i).st == .free || (k.booking i).serial != bitsOf w 55 48 then none else some i

/-! ### The life of a booking (R205, R213) -/

/-- The device cycle of the first instruction of an armed thread (R213). -/
def Booking.wake (b : Booking) : Nat := 8 * b.start + b.kappa - b.k0

/-- A booking put into its slot, with the event that its start brings. -/
def State.putBooking (s : State) (c i : Nat) (b : Booking) : State :=
  let s := s.modCore c fun k => k.setBooking i b
  if b.st == .armed then s.postOnce (max b.wake (s.cycle + 1)) .bookingStart else s.postOnce (max (8 * b.start) (s.cycle + 1)) .bookingLapse

/-- A booking freed or lapsed before it started: every tick released (R205). -/
def State.dropBooking (s : State) (c i : Nat) (st : BookSt) : State :=
  let s := s.modCore c fun k =>
    let k := k.setBooking i { k.booking i with st := st, holds := [] }
    { k with almanac := { k.almanac with dirty := some s.cycle } }
  { s with links := s.links.filter fun l => !(l.core == c && l.slot == i && s.tick ≤ l.first) }

/-- `booking_start` (R213): each armed thread whose cycle has come enters booked mode and issues. -/
def execBookingStart : Exec := fun s =>
  .next <| s.eachCore fun s c => (List.range 4).foldl (fun s t =>
    let th := s.thrAt c t
    match th.st, th.slot with
    | .armed, some i =>
      let b := (s.coreAt c).booking i
      if b.st == .armed && b.wake ≤ s.cycle then
        (s.modCore c fun k => k.setBooking i { b with st := .started }).modThr c t fun th => { th with st := .booked, next := s.cycle }
      else s
    | _, _ => s) s

/-- `booking_lapse` (R205): each booking still unarmed at its start tick lapses, and its maker sees the event. -/
def execBookingLapse : Exec := fun s =>
  .next <| s.eachCore fun s c => (List.range 16).foldl (fun s i =>
    let b := (s.coreAt c).booking i
    if b.st == .made && 8 * b.start ≤ s.cycle then
      ((s.dropBooking c i .lapsed).modCore c fun k => k.event (2 ^ b.maker) 0x10).postOnce (s.cycle + 1) .compaction
    else s) s

/-! ### Task records (R223, R227) -/

/-- The 64 bytes of a task record (Table 7.9). -/
def taskWord (r : TaskRec) : Nat :=
  r.pc % 2 ^ 16 + r.flags % 2 ^ 16 * 2 ^ 16 + r.grain % 2 ^ 32 * 2 ^ 32 + r.lo % 2 ^ 64 * 2 ^ 64 + r.hi % 2 ^ 64 * 2 ^ 128 + r.arg0 % 2 ^ 64 * 2 ^ 192
  + r.arg1 % 2 ^ 64 * 2 ^ 256 + r.blist % 2 ^ 64 * 2 ^ 320 + r.join % 2 ^ 64 * 2 ^ 384 + r.handle % 2 ^ 64 * 2 ^ 448

/-- The record of 64 bytes. -/
def taskOf (w : Nat) : TaskRec :=
  let f (lo n : Nat) : Nat := w / 2 ^ (8 * lo) % 2 ^ (8 * n)
  ⟨f 0 2, f 2 2, f 4 4, f 8 8, f 16 8, f 24 8, f 32 8, f 40 8, f 48 8, f 56 8⟩

/-- The iterations of a record, HI − LO. -/
def taskLen (r : TaskRec) : Nat := (signedOf 64 r.hi - signedOf 64 r.lo).toNat

/-- The record at the bottom of a queue, which is its last (R224). -/
def bottomOf (q : List TaskRec) : Option TaskRec := q.getLast?

/-- The chunk carved from the bottom record, the queue that remains, and the chunk's length (R227). -/
def carve (q : List TaskRec) : Option (TaskRec × List TaskRec × Nat) :=
  (bottomOf q).map fun r =>
    let m := min r.grain (taskLen r)
    let mid := (r.lo + m) % 2 ^ 64
    ({ r with hi := mid }, q.dropLast ++ (if taskLen r ≤ m then [] else [{ r with lo := mid }]), m)

/-- The chunk of a `take` carved from the bottom record (R227): the state with the queue left, the chunk's record with a handle, and m. -/
def State.carveBottom (s : State) (c handle : Nat) : State × Nat × Nat :=
  match carve (s.coreAt c).tasks.recs with
  | none => (s, 0, 0)
  | some (r, q, m) => (s.modCore c fun k => { k with tasks := { k.tasks with recs := q } }, taskWord { r with handle := handle }, m)

/-- The chunk of a booked `take` carved; its thread writes the record at its place in a cycle, in which it uses the bank (R225). Answers m. -/
def State.takeChunk (s : State) (c t off handle at_ : Nat) : State × Nat :=
  let (s, x, m) := s.carveBottom c handle
  (s.modThr c t fun th => { th with work := some ⟨at_, [⟨[bankOf off], [(off, 0, 64)]⟩], true, x, .stored, at_⟩ }, m)

/-! ### Results of a search, and link commits (R208, R211, R217, R218) -/

/-- A request of the Almanac has its start, or fails with a status and an index: the booking is made or moved, and the result is
given to the thread, readable from a cycle on. -/
def State.almanacResult (s : State) (c : Nat) (cm : Commit) (res : Except (Nat × Nat) Nat) (ready : Nat) : State :=
  let give (s : State) (x : Nat) : State := s.modThr c cm.thr fun th => th.setDest cm.d .full x ready
  match res, cm.why with
  | .error (st, idx), .make | .error (st, idx), .move => give s (failHandle st idx)
  | .error (st, _), .take _ => give s (failHandle st 0)
  | .error _, .compact _ => s
  | .ok st, why =>
    let k := s.coreAt c
    let serial := (k.almanac.serial + 1) % 256
    let fresh := match why with | .make | .take _ => true | _ => false
    let old := k.booking cm.slot
    let b : Booking := { cm.booking with
      st := if fresh then .made else old.st
      serial := if fresh then serial else old.serial
      start := st
      holds := holdsAt st cm.booking.holds }
    let s := if fresh then s.modCore c fun k => { k with almanac := { k.almanac with serial := serial } } else s
    let s := s.putBooking c cm.slot b
    let s := if b.holds.any fun h => h.code == codePort || (0x40 ≤ h.code && h.code < codeLink) then s.abortMoves c else s
    match why with
    | .make => give s (b.handle cm.slot)
    | .take off => let (s, m) := s.takeChunk c cm.thr off (b.handle cm.slot) (ready - 1); give s m
    | .move => (give (s.modCore c fun k => { k with almanac := { k.almanac with dirty := some s.cycle } }) (b.handle cm.slot)).postOnce (s.cycle + 1) .compaction
    | .compact _ => s

/-- The holds of a link commit by route (R211): each is asked along the route of the first link entry that crosses its egress. -/
def Commit.routes (c : Nat) (cm : Commit) : List (List LinkHold) :=
  let links := cm.booking.holds.filter (·.code == codeLink)
  let dests := (((listEntries cm.booking.list).filter (entryCode · == codeLink)).map entryDest).eraseDups
  (dests.foldl (fun (x : List (List LinkHold) × List Hold) d =>
    let hops := routeHops 32 c d
    let (mine, rest) := x.2.partition fun h => hops.contains (h.node, h.dir)
    (x.1 ++ [(hops.flatMap fun n => mine.filter fun h => h.node == n.1).map fun h =>
      ⟨c, h.node, h.dir, h.first + cm.booking.start, h.last + 1 - h.first⟩], rest)) ([], links)).1.filter (!·.isEmpty)

/-- Hold requests sent along the routes of a commit that starts at a tick (R211): a CT flit for each route, which asks every router that it
passes; the commit is resolved when every router has answered, and no earlier than its cost gives. A core in replay runs alone (R383). -/
def State.sendHolds (s : State) (c : Nat) (cm : Commit) : State :=
  let routes := if (s.coreAt c).net.replay.isSome then [] else cm.routes c
  let pending := routes.foldl (fun n hs => n + ((hs.map (·.node)).eraseDups).length) 0
  let s := s.modCore c fun k => { k with almanac := { k.almanac with commit := some { cm with pending := pending } } }
  let s := routes.foldl (fun s hs => s.send (s.cycle + 1) ⟨.control, c, 4, .router ((hs.getLast?.map (·.node)).getD c), .holds hs⟩) s
  if pending = 0 then s.post cm.due .linkCommit else s

/-- The slot whose own ticks count as free in a commit. -/
def Commit.own (cm : Commit) : Option Nat := match cm.why with
  | .make | .take _ => none
  | _ => some cm.slot

/-- The bound below which a commit looks for a start. -/
def Commit.bound (cm : Commit) (old : Nat) : Nat := match cm.why with
  | .compact _ => old
  | _ => noBound

/-- Whether a commit holds links. -/
def Commit.linked (cm : Commit) : Bool := cm.booking.holds.any (·.code == codeLink)

/-- The start of a request's next attempt. -/
def State.tryStart (s : State) (c : Nat) (cm : Commit) : Option Nat :=
  s.findStart c cm.own cm.booking.holds (cm.bound ((s.coreAt c).booking cm.slot).start) 70 cm.from_

/-- The provisional holds of a core's commit given up. -/
def State.dropHolds (s : State) (c : Nat) : State := { s with links := s.links.filter fun l => l.core != c || l.committed }

/-- Compaction of the slots given, in their order (R218); a move with links goes through a commit, which lasts until its routers have
answered and is not tried again, after which the rest follow. -/
def State.compactSlots (s : State) (c : Nat) : List Nat → State
  | [] => s
  | i :: rest =>
    let b := (s.coreAt c).booking i
    if b.st == .made || b.st == .armed then
      let rel := b.holds.map fun h => { h with first := h.first - b.start, last := h.last - b.start }
      let cm : Commit := ⟨0, .none, .compact rest, i, { b with holds := rel }, startFrom (8 * (s.tick + 8)), 1, 2, false, s.cycle + 1, 0⟩
      match s.tryStart c cm with
      | none => s.compactSlots c rest
      | some st =>
        if cm.linked then s.sendHolds c { cm with booking := { cm.booking with start := st } }
        else (s.almanacResult c cm (.ok st) 0).compactSlots c rest
    else s.compactSlots c rest

/-- Whether the Almanac has a request in progress. -/
def Core.almanacBusy (k : Core) (cycle : Nat) : Bool := cycle < k.almanac.busyUntil || k.almanac.reading.isSome || k.almanac.commit.isSome

/-- `compaction` (R218): in each core whose Almanac released ticks and has no request in progress. -/
def execCompaction : Exec := fun s =>
  .next <| s.eachCore fun s c =>
    let k := s.coreAt c
    if k.almanac.dirty.isNone then s
    else if k.almanacBusy s.cycle then s.postOnce (max (s.cycle + 1) k.almanac.busyUntil) .compaction
    else
      let slots := (List.range 16).filter fun i => let b := k.booking i; (b.st == .made || b.st == .armed) && !b.holds.isEmpty && bitOf (b.list.headD 0) 32
      let order := sortBy (fun i j => if (k.booking i).start != (k.booking j).start then (k.booking i).start < (k.booking j).start else i ≤ j) slots
      (s.modCore c fun k => { k with almanac := { k.almanac with dirty := none } }).compactSlots c order

/-- `link_hold_request` (R211): the router holds the ticks for the core's commit, or turns it down where another commit has one. -/
def execLinkHoldRequest (h : LinkHold) : Exec := fun s =>
  .next <|
    match (s.coreAt h.core).almanac.commit with
    | none => s
    | some cm =>
      let last := h.tick + h.len - 1
      let mine (l : LinkUse) : Bool := l.core == h.core && (!l.committed || some l.slot == cm.own)
      if s.links.any fun l => !mine l && l.node == h.node && l.dir == h.dir && l.first ≤ last && h.tick ≤ l.last then
        s.modCore h.core fun k => { k with almanac := { k.almanac with commit := some { cm with failed := true } } }
      else { s with links := s.links ++ [⟨h.node, h.dir, h.tick, last, h.core, cm.slot, false⟩] }

/-- The waiting thread of a commit goes on (R211, R212). -/
def State.commitDone (s : State) (c : Nat) (cm : Commit) : State :=
  match cm.why with
  | .compact rest => s.compactSlots c rest
  | _ =>
    let here := s.cur
    let s := { s with cur := (⟨c % 256, Nat.mod_lt _ (by decide)⟩, ⟨cm.thr % 4, Nat.mod_lt _ (by decide)⟩) }
    if s.th.block == .link cm.d then { retire ⟨1, none, false⟩ (s.modTh fun th => { th with block := .none }) with cur := here }
    else { s with cur := here }

/-- Whether the booking that a commit moves is still the one that it looked at, in Made or Armed state (R217, R218). -/
def Core.stillMoves (k : Core) (cm : Commit) : Bool :=
  let b := k.booking cm.slot
  match cm.why with
  | .make | .take _ => true
  | _ => b.serial == cm.booking.serial && (b.st == .made || b.st == .armed)

/-- Whether a commit's start still lies ahead (R208, R218). -/
def State.startAhead (s : State) (cm : Commit) : Bool :=
  match cm.why with
  | .compact _ => s.tick + 8 ≤ cm.booking.start
  | _ => s.cycle < 8 * cm.booking.start

/-- A commit whose routers have all answered (R211): made whole, where its core-local ticks still fit and its start lies ahead; or released
and tried again from the same e, three times at most. A booking that has started or lapsed meanwhile moves no more (R217, R218). -/
def State.resolveCommit (s : State) (c : Nat) (cm : Commit) : State :=
  let cleared (s : State) : State := s.modCore c fun k => { k with almanac := { k.almanac with commit := none } }
  let start := cm.booking.start
  let local_ := (holdsAt start cm.booking.holds).filter (·.code != codeLink)
  let moves := (s.coreAt c).stillMoves cm
  if !cm.failed && moves && s.startAhead cm && local_.all (s.holdFits c cm.own) then
    let keep (l : LinkUse) : Bool := !(l.core == c && l.committed && some l.slot == cm.own)
    let s := { s with links := (s.links.filter keep).map fun l => if l.core == c then { l with committed := true } else l }
    ((cleared s).almanacResult c cm (.ok start) (s.cycle + 1)).commitDone c cm
  else
    let s := s.dropHolds c
    let fail (st : Nat) : State := ((cleared s).almanacResult c cm (.error (st, 0)) (s.cycle + 1)).commitDone c cm
    if !moves then fail 8
    else if cm.attempt = 2 then fail 6
    else match s.tryStart c cm with
      | none => fail 1
      | some st => s.sendHolds c { cm with booking := { cm.booking with start := st }, attempt := cm.attempt + 1, failed := false, due := s.cycle + cm.cost }

/-- `link_commit` (R211). -/
def execLinkCommit : Exec := fun s =>
  .next <| s.eachCore fun s c =>
    match (s.coreAt c).almanac.commit with
    | some cm => if cm.pending = 0 && cm.due ≤ s.cycle then s.resolveCommit c cm else s
    | none => s

/-! ### Reading a list (R210) -/

/-- A dword of the issuing core's memory as a list's read sees it. -/
def State.listDword (s : State) (va : Nat) : Nat :=
  match s.translate s.cc s.me.ctx va true false with
  | .loc off => s.me.sramRead off 8
  | .vault pa => memGetN s.me.vault.mem pa 8
  | _ => 0

/-- What the place of a list raises, in the order of R212 after WATCH. -/
def State.listStop (s : State) (va : Nat) (xs : List (Nat × Nat × Nat × Xlate)) : Option Stop :=
  let trap (cause det0 : Nat) (x : Nat × Nat × Nat × Xlate) : Stop := .trap { cause := cause, addr := x.1, det0 := det0 }
  let far (x : Nat × Nat × Nat × Xlate) : Bool := match x.2.2.2 with
    | .loc off => 0x100000 < off + x.2.2.1
    | .offstack _ => true
    | _ => false
  (xs.find? (·.2.2.2 == .page)).map (trap causePage 0) |>.or <|
  (xs.findSome? fun x => match x.2.2.2 with | .poison pa => some (Stop.trap (s.poisonExc x.1 pa)) | _ => none) |>.or <|
  (xs.find? (·.2.2.2 == .prot)).map (trap causeProt 0) |>.or <|
  (xs.find? far).map (trap causeProt 4) |>.or <|
  (if xs.any (·.2.2.2 == .moving) then some (s.waitOr { cause := causeOvrn, addr := va }) else none) |>.or <|
  (xs.find? fun x => match x.2.2.2 with | .foreign _ => true | _ => false).map (trap causeForeign 0) |>.or <|
  (s.ownerStop xs).or (s.rpairStop va (vaultSegs xs))

/-- The 64-byte blocks of a scratchpad list of n bytes from a local offset, each with the offset, place and bytes of its part (R210). -/
def listBlocks (off n : Nat) : List (Nat × Nat × Nat) :=
  (List.range ((off + n - 1) / 64 - off / 64 + 1)).map fun i =>
    let b := 64 * (off / 64 + i)
    (max off b, max off b - off, min (off + n) (b + 64) - max off b)

/-- The dwords of a list read. -/
def listWords (n data : Nat) : List Nat := (List.range n).map fun i => data / 2 ^ (64 * i) % 2 ^ 64

/-- The next block of the running thread's list read, where its bank serves the thread in this cycle (R27, R210). -/
def State.readBlock (s : State) : State :=
  match s.me.almanac.reading with
  | none => s
  | some r => match r.left with
    | [] => s
    | (off, place, n) :: rest =>
      if (s.banksStop [(bankOf off, s.cycle)]).isSome then s
      else s.modMe fun k =>
        let k := k.useBanks s.cycle s.ct [(bankOf off, s.cycle)]
        { k with almanac := { k.almanac with reading := some { r with data := r.data + k.sramRead off n * 2 ^ (8 * place), left := rest } } }

/-- Whether the running thread's list is being read. -/
def State.readingList (s : State) : Bool := s.me.almanac.reading.any (·.thr == s.ct)

/-- The read of a list begun (R210): of n bytes in scratchpad by blocks, or in the vault as a vector load of its bytes. -/
def beginList (va n : Nat) (forTake : Bool) : Act Unit := do
  let s ← get
  orStop (s.watchStop true false va n)
  let xs := s.translated va n true false
  orStop (s.listStop va xs)
  let start (r : ListRead) (k : Core) : Core := { k with almanac := { k.almanac with reading := some r } }
  match vaultSegs xs with
  | [] => change fun s => s.modMe (start ⟨s.ct, forTake, 0, listBlocks (localOff va) n, none⟩)
  | segs =>
    orStop (s.vaultOpenStop segs)
    let acc := s.th.serial
    change fun s => ((s.openAccess (Access.plain .vault .none n false va false false)).vaultIssue .load va n 0 0 0 acc segs none).modMe
      (start ⟨s.ct, forTake, 0, [], some acc⟩)

/-- A booking list read (R208, R210): the header and COUNT entries, with the cycles of the issue cost that the read has taken already, or none
while blocks or beats are out. A wait for a bank, and the cycles up to the last beat, add to the issue cost. -/
def readList (va : Nat) (forTake : Bool) : Act (Option (List Nat × Nat)) := do
  let s ← get
  if !s.readingList then beginList va (8 * (1 + headCount (s.listDword va))) forTake
  change State.readBlock
  let s ← get
  match s.me.almanac.reading with
  | none => pure none
  | some r =>
    if !r.left.isEmpty || r.acc.any (fun a => s.th.outs.any (·.id == a)) then pure none
    else
      change fun s => s.modMe fun k => { k with almanac := { k.almanac with reading := none } }
      let n := 1 + headCount (r.data % 2 ^ 64)
      pure (some (listWords n r.data, if r.acc.isSome then 0 else (listBlocks (localOff va) (8 * n)).length - 1))

/-! ### book, take's booking and calmv (R208, R212, R217) -/

/-- The Almanac serves one request at a time (R207): a later one waits. -/
def almanacTurn : Act Unit := do
  let s ← get
  let a := s.me.almanac
  if s.cycle < a.busyUntil || a.commit.isSome || a.reading.any (·.thr != s.ct) then stall

/-- The issue cost of a request over a list (R212). -/
def listCost (core : Nat) (ws : List Nat) : Nat := 16 + 2 * headCount (ws.headD 0) + 4 * listHops core ws

/-- A request answered with so many cycles of its issue cost to come, or on its way through a link commit. -/
def almanacAnswer (cm : Commit) (left : Nat) (res : Except (Nat × Nat) Nat) : Act Done := do
  let now : Act Done := do
    change fun s => (s.almanacResult s.cc cm res (s.cycle + left)).modMe fun k => { k with almanac := { k.almanac with busyUntil := s.cycle + left } }
    done left
  match res with
  | .ok st =>
    if cm.linked then
      change fun s => (s.sendHolds s.cc { cm with booking := { cm.booking with start := st } }).modTh fun th => { th with block := .link cm.d }
      hold
    else now
  | .error _ => now

/-- A booking of the running thread over a list that has been read, at a cost of which so many cycles have passed (R208): statuses in their
order, then the search. -/
def bookList (ws : List Nat) (va kap cost spent : Nat) (d : Dest) (why : CommitWhy) : Act Done := do
  let s ← get
  let k := s.me
  let part := (s.myPart.map (·.rect)).getD ⟨1, 1, 0, 0⟩
  let slip := if bitOf (ws.headD 0) 33 then ceilDiv (s.th.vslip.toNat % 65536) 8 else 0
  let thr := k.matrix.throttle != 0
  let free := (List.range 16).find? fun i => (k.booking i).st == .free || (k.booking i).st == .lapsed
  let kt := 8 * (kap / 64)
  let b : Booking := { Booking.reset with
    k0 := 64 * (kap / 64), kappa := kap, list := ws, va := va, slip := slip, thr := thr, maker := s.ct, holds := placeList s.cc slip thr kt ws }
  let left := cost - spent
  let cm : Commit := ⟨s.ct, d, why, free.getD 0, b, startFrom (s.cycle + left + 8), cost, 0, false, s.cycle + left - 1, 0⟩
  match (listStatus s.cc part kap slip thr ws).or ((if free.isNone then some (2, 0) else none).or (throttleStatus thr ws)) with
  | some st => almanacAnswer cm left (.error st)
  | none => almanacAnswer cm left (match s.tryStart s.cc cm with | some st => .ok st | none => .error (1, 0))

/-- `book` (R208). -/
def execBook (d a b : GReg) : Exec :=
  runThread do
    let s ← get
    if !s.readingList then
      let _ ← operandsOpenOnly [.rg a false, .rg b false, .wg d]
      almanacTurn
    let va := (s.readG a).toNat % 2 ^ 52
    if va % 8 != 0 then fault { cause := causeAlign, addr := va }
    match ← readList va false with
    | none => hold
    | some (ws, spent) => bookList ws va (s.readG b).toNat (listCost s.cc ws) spent (s.th.destOf d.toNat) .make

/-- `calmv` (R217). A status 8 has no booking whose entries and hops could count: it costs 16 cy (DESIGN CHOICE, log entry 85). -/
def execCalmv (d a b : GReg) : Exec :=
  runThread do
    let s ← operandsOpenOnly [.rg a false, .rg b false, .wg d]
    almanacTurn
    let dest := s.th.destOf d.toNat
    let i := (s.me.handleSlot (s.readG a).toNat).getD 0
    let x := s.me.booking i
    if (s.me.handleSlot (s.readG a).toNat).isSome && (x.st == .made || x.st == .armed) then
      let cost := listCost s.cc x.list
      let rel := x.holds.map fun h => { h with first := h.first - x.start, last := h.last - x.start }
      let from_ := max (startFrom (s.cycle + cost + 8)) (8 * ceilDiv (s.readG b).toNat 8)
      let cm : Commit := ⟨s.ct, dest, .move, i, { x with holds := rel }, from_, cost, 0, false, s.cycle + cost - 1, 0⟩
      almanacAnswer cm cost (match s.tryStart s.cc cm with | some st => .ok st | none => .error (1, 0))
    else almanacAnswer ⟨s.ct, dest, .move, i, Booking.reset, 0, 16, 0, false, 0, 0⟩ 16 (.error (8, 0))

/-! ### arm, done, unbook, calq (R213 to R216) -/

/-- `arm` (R213). -/
def execArm (a : GReg) : Exec :=
  runThread do
    let s ← operandsOpenOnly [.rg a false]
    match s.me.handleSlot (s.readG a).toNat with
    | none => fault { cause := causeBookv, det0 := 0x200 }
    | some i =>
      let b := s.me.booking i
      if b.st == .lapsed then fault { cause := causeOvrn, det0 := 1, det1 := b.start % 2 ^ 48, replay := true }
      if b.st != .made then fault { cause := causeBookv, det0 := 0x200 }
      change fun s => (s.modTh fun th => { th with st := .armed, slot := some i }).putBooking s.cc i { b with st := .armed }
      done 1

/-- `done` (R214). -/
def execDone : Exec :=
  runThread do
    if (← get).th.st == .booked then change fun s => s.endBooking s.cc s.ct
    done 1

/-- `unbook` (R215). -/
def execUnbook (d a : GReg) : Exec :=
  runThread do
    let s ← operandsOpenOnly [.rg a false, .wg d]
    almanacTurn
    let slot := s.me.handleSlot (s.readG a).toNat
    let b := s.me.booking (slot.getD 0)
    let known := slot.isSome && (b.st == .made || b.st == .armed || b.st == .started)
    let cost := 8 + (if slot.isSome then 2 * listHops s.cc b.list else 0)
    let status := if !known then 1 else if b.st == .made then 0 else 2
    change fun s =>
      let s := if status = 0 then (s.dropBooking s.cc (slot.getD 0) .free).postOnce (s.cycle + cost) .compaction else s
      (s.writeG d (BitVec.ofNat 64 status) cost).modMe fun k => { k with almanac := { k.almanac with busyUntil := s.cycle + cost } }
    done cost

/-- Whether a tick of a row can be claimed by no new booking (R216). -/
def State.unclaimable (s : State) (c : Nat) (h : Hold) : Bool :=
  h.first < s.tick || s.tick + 511 < h.first || (s.coreAt c).tickClosed c h.code h.first || s.heldByOther c none h

/-- The word of `calq` (R216). Code 0x60 toward the issuing core itself has no first hop: all ones (DESIGN CHOICE, log entry 85). -/
def State.calendarWord (s : State) (a tick : Nat) : Word :=
  let k := s.me
  let code := a % 256
  let dest := bitsOf a 15 8
  let slots (p : BookSt → Bool) : Nat := (List.range 16).foldl (fun m i => if p (k.booking i).st then m + 2 ^ i else m) 0
  let row (code node dir : Nat) : Word :=
    BitVec.ofNat 64 ((List.range 64).foldl (fun m i => if s.unclaimable s.cc ⟨code, node, dir, tick + i, tick + i⟩ then m + 2 ^ i else m) 0)
  if code = 0 then
    BitVec.ofNat 64 (slots (fun x => x == .made || x == .armed || x == .started) + slots (· == .armed) * 2 ^ 16 + slots (· == .started) * 2 ^ 32)
  else if rowCode code then row code 0 0
  else if code = codeLink && dest != s.cc && s.myPart.any (·.rect.has dest) then row codeLink s.cc (hopDir s.cc dest)
  else BitVec.allOnes 64

/-- `calq` (R216). -/
def execCalq (d a b : GReg) : Exec :=
  runThread (scalarOp [.rg a false, .rg b false] d (fun s => s.calendarWord (s.readG a).toNat (s.readG b).toNat) 4 1)

end Sys2Proof.Machine
end

