-- ==== Sys2Proof/Machine/Tasks.lean ====
section
/-! DEFINITION. Range tasks: the task queue with `spawn`, `take`, `seek`, `tfin`, `term` and `dqn`, stealing and gifts, and the
termination token (R223 to R234). -/

namespace Sys2Proof.Machine

/-! ### Records in scratchpad (R223, R225, R226) -/

/-- The scratchpad offset of a task record that an instruction names, its address checked (R225). -/
def recordPlace (va : Nat) : Act Nat := do
  let s ← get
  if va % 64 != 0 then fault { cause := causeAlign, addr := va }
  if !isLocal va || 0x100000 ≤ localOff va then fault { cause := causeProt, addr := va }
  if s.me.owner (localOff va / 4096) != 0 then fault { cause := causeOwner, addr := va }
  pure (localOff va)

/-- The scratchpad offset of a task record whose bank the instruction uses as it issues (R225). -/
def recordAt (va : Nat) : Act Nat := do
  let off ← recordPlace va
  takeBanks [(bankOf off, (← get).cycle)]
  pure off

/-- JOIN's home core. -/
def joinHome (r : TaskRec) : Nat := bitsOf r.join 27 20

/-- Whether a record is malformed for a partition (R226). -/
def badRecord (part : Rect) (r : TaskRec) : Bool :=
  r.pc / 2 ^ 14 != 0 || r.flags / 4 != 0 || r.grain = 0 || signedOf 64 r.hi < signedOf 64 r.lo || bitsOf r.join 62 28 != 0
    || (bitOf r.join 63 && !part.has (joinHome r)) || r.handle != 0

/-- The records a queue takes from `spawn` (R224): one place is kept while a `seek` of the core is in flight. -/
def Core.spawnRoom (k : Core) : Nat :=
  if (List.range 4).any fun t => match (k.thr t).block with | .seek _ _ _ => true | _ => false then 63 else 64

/-- Whether a `take` is booking, so that another queue operation waits (R224). -/
def Core.queueLocked (k : Core) : Bool :=
  k.almanac.reading.any (·.forTake) || k.almanac.commit.any fun cm => match cm.why with | .take _ => true | _ => false

/-- The rectangle of the issuing core's partition; an empty one where it has none. -/
def State.myRect (s : State) : Rect := (s.myPart.map (·.rect)).getD ⟨1, 1, 0, 0⟩

/-- `spawn` (R226). -/
def execSpawn (d a : GReg) : Exec :=
  runThread do
    let s ← operandsOpenOnly [.rg a false, .wg d]
    if s.me.queueLocked then stall
    let off ← recordAt ((s.readG a).toNat % 2 ^ 52)
    let r := taskOf (s.me.sramRead off 64)
    let status := if s.me.spawnRoom ≤ s.me.tasks.recs.length then 1 else if badRecord s.myRect r then 2 else if r.hi = r.lo then 3 else 0
    change fun s =>
      let s := if status = 0 then s.modMe fun k => k.modTasks fun q => { q with recs := q.recs ++ [r] } else s
      s.writeG d (BitVec.ofNat 64 status) 3
    done 2

/-- `take` (R227): a chunk of the bottom record, booked first where the record names a list. The record of an open task is written in the
issue cycle, that of a booked one in the last cycle of the issue cost (R225; DESIGN CHOICE, log entry 85). -/
def execTake (d a : GReg) : Exec :=
  runThread do
    let s ← get
    let va := (s.readG a).toNat % 2 ^ 52
    if !s.readingList then
      let _ ← operandsOpenOnly [.rg a false, .wg d]
      if s.me.queueLocked then stall
    let off ← recordPlace va
    match bottomOf s.me.tasks.recs with
    | none =>
      change fun s => s.writeG d 0 3
      done 3
    | some r =>
      if r.blist = 0 then
        orStop (s.banksStop [(bankOf off, s.cycle)])
        change fun s' =>
          let (s', x, m) := s'.carveBottom s.cc 0
          (s'.modMe fun k => (k.useBanks s.cycle s.ct [(bankOf off, s.cycle)]).sramWrite off 64 x).writeG d (BitVec.ofNat 64 m) 3
        done 3
      else
        if !s.readingList then almanacTurn
        let list := r.blist % 2 ^ 52
        if list % 8 != 0 then fault { cause := causeAlign, addr := list }
        match ← readList list true with
        | none => hold
        | some (ws, spent) => bookList ws list 0 (3 + listCost s.cc ws) spent (s.th.destOf d.toNat) (.take off)

/-- A task of n counted at a JOIN counter of the running core's scratchpad (R230). -/
def State.countTask (s : State) (off n : Nat) : State :=
  s.modMe fun k => (k.agentLocal ⟨.none, k.ctx, s.cc, s.ct, .core s.cc, .tfin, localBase + off, 8, n, 0⟩ off).1

/-- `tfin` (R230): in its first cycle it reads the record, in its second it counts. -/
def execTfin (a : GReg) : Exec :=
  runThread do
    let s ← operandsOpenOnly [.rg a false]
    let off ← recordAt ((s.readG a).toNat % 2 ^ 52)
    let r := taskOf (s.me.sramRead off 64)
    if !bitOf r.join 63 then done 2
    else
      let n := (r.hi + 2 ^ 64 - r.lo) % 2 ^ 64
      let home := joinHome r
      let at_ := r.join % 2 ^ 20 / 8 * 8
      if home = s.cc then
        if s.me.owner (at_ / 4096) != 0 then fault { cause := causeOwner, addr := localBase + at_ }
        let work : LocalWork := { due := s.cycle, left := [⟨[], []⟩, ⟨[bankOf at_], []⟩], store := false, data := 0, fin := .counted at_ n,
                                  ready := s.cycle }
        change fun s => s.beginWork work fun _ s => s
        done 2
      else
        outLimit
        change fun s => s.remote ⟨.tfin, 0x3FF * 256 + home, localBase + at_, 8, n, 0, .none, 0x40⟩
        done 2

/-- `term` (R232). -/
def execTerm (d : GReg) : Exec :=
  runThread do
    let s ← operandsOpenOnly [.wg d]
    change fun s' => (s'.modMe fun k => k.modTasks fun q => { q with acked := true, black := false }).writeG d
      (BitVec.ofNat 64 (((s.myPart.map (·.epoch)).getD 0) % 2 ^ 32)) 1
    done 1

/-- The word of `dqn` (R234). -/
def State.taskState (s : State) : Word :=
  let q := s.me.tasks
  let bit (b : Bool) (i : Nat) : Nat := if b then 2 ^ i else 0
  BitVec.ofNat 64 (min 64 q.recs.length + bit q.black 8 + bit q.acked 9 + bit (q.token && q.tokenAt ≤ s.cycle) 10 + bit (0 < q.gifts) 11
    + ((s.myPart.map (·.epoch)).getD 0) % 2 ^ 32 * 2 ^ 16)

/-- `dqn` (R234). -/
def execDqn (d : GReg) : Exec := runThread (scalarOp [] d (·.taskState) 2 1)

/-! ### Stealing (R228, R229) -/

/-- The other cores of a core's partition in ring order, from the next index on (R229). -/
def State.ringAfter (s : State) (c : Nat) : List Nat :=
  match (s.partOf c).bind s.partAt with
  | none => []
  | some q => let cs := q.rect.cores; cs.filter (c < ·) ++ cs.filter (· < c)

/-- A `seek` completes with its word. -/
def State.seekDone (s : State) (c t : Nat) (d : Dest) (x : Nat) : State :=
  let here := s.cur
  let s := { s with cur := (⟨c % 256, Nat.mod_lt _ (by decide)⟩, ⟨t % 4, Nat.mod_lt _ (by decide)⟩) }
  { retire ⟨1, none, false⟩ (s.modTh fun th => { th.setDest d .full x (s.cycle + 1) with block := .none }) with cur := here }

/-- The next request of a `seek`, in the round under way or a new one; a round of a partition of one core is empty and takes a
cycle. -/
def State.seekAsk (s : State) (c t : Nat) (d : Dest) (left : List Nat) : State :=
  match (if left.isEmpty then s.ringAfter c else left) with
  | [] => (s.modThr c t fun th => { th with block := .seek d [] c }).post (s.cycle + 1) (.stealRefusal c ⟨t, c⟩)
  | v :: rest =>
    ((s.modThr c t fun th => { th with block := .seek d rest v }).modCore c fun k => k.modTasks fun q => { q with asked := q.asked ++ [(t, v)] }).send
      (s.cycle + 1) ⟨.control, c, t, .core v, .steal v c t⟩

/-- `seek` (R229). -/
def execSeek (d a : GReg) : Exec :=
  runThread do
    let s ← operandsOpenOnly [.rg a false, .wg d]
    if !s.me.tasks.acked then fault { cause := causeTermerr }
    let va := (s.readG a).toNat % 2 ^ 52
    if va % 64 != 0 then fault { cause := causeAlign, addr := va }
    if !isLocal va || 0x100000 ≤ localOff va then fault { cause := causeProt, addr := va }
    if s.me.owner (localOff va / 4096) != 0 then fault { cause := causeOwner, addr := va }
    if s.me.tasks.recs.isEmpty then
      change fun s => s.seekAsk s.cc s.ct (s.th.destOf d.toNat) []
      hold
    else
      change fun s => s.writeG d (BitVec.ofNat 64 (2 ^ 61)) 1
      done 1

/-- What a victim's queue gives (R228): the gift and the queue left, or nothing. -/
def stealFrom (q : List TaskRec) : Option (TaskRec × List TaskRec) :=
  match q with
  | [] => none
  | top :: rest =>
    let n := taskLen top
    if bitOf top.flags 0 then none
    else if !bitOf top.flags 1 && 2 * top.grain ≤ n then
      let mid := (top.hi + 2 ^ 64 - n / 2) % 2 ^ 64
      some ({ top with lo := mid }, { top with hi := mid } :: rest)
    else if rest.isEmpty then none
    else some (top, rest)

/-- `steal_request` (R228): the victim answers from its top record; the answer leaves 4 cycles later. A core that runs another
context than the thief's refuses. -/
def execStealRequest (victim thief thread : Nat) : Exec := fun s =>
  .next <|
    let k := s.coreAt victim
    if k.queueLocked then s.post (s.cycle + 1) (.stealRequest victim thief thread)
    else
      let refuse := s.send (s.cycle + 5) ⟨.control, victim, 4, .core thief, .stealRefusal thief thread victim⟩
      if k.ctx != (s.coreAt thief).ctx then refuse
      else match stealFrom k.tasks.recs with
        | none => refuse
        | some (g, q) =>
          let s := s.logItem victim (.arrival (.stealRequest victim thief thread))
          let s := s.modCore victim fun k => k.modTasks fun x => { x with recs := q, gifts := x.gifts + 1, black := x.black || thief < victim }
          s.send (s.cycle + 5) ⟨.control, victim, 4, .core thief, .gift thief thread victim g⟩

/-- The core that a victim's gift or refusal for a thread reaches, changed: the thread's core, or the core as saved with its context
where the request was made there (R372). -/
def State.onAsker (s : State) (c t v : Nat) (f : Core → Core) : State :=
  if (s.coreAt c).tasks.asked.contains (t, v) then s.modCore c f
  else match s.helm.saved.find? fun x => x.2.1 == c && x.2.2.tasks.asked.contains (t, v) with
    | some (ctx, _, _) => s.onCtx c ctx f
    | none => s.modCore c f

/-- The oldest request of a thread to a victim is no longer in flight. -/
def Core.answered (k : Core) (t v : Nat) : Core := k.modTasks fun q => { q with asked := q.asked.erase (t, v) }

/-- The destination and the cores left of the `seek` whose own request a victim's answer is: the thread waits for that victim, and no older
request of it, of a `seek` that TERM ended, is out (R229). -/
def Core.seekOf (k : Core) (t v : Nat) : Option (Dest × List Nat) :=
  match (k.thr t).block with
  | .seek d left asked => if asked = v && !k.tasks.asked.contains (t, v) then some (d, left) else none
  | _ => none

/-- `gift_arrival` (R224, R228, R229): while a `take` is booking the gift waits; it is pushed and acknowledged, and the `seek` that asked for
it completes. -/
def execGiftArrival (thief thread victim : Nat) (g : TaskRec) : Exec := fun s =>
  .next <|
    if (s.coreAt thief).queueLocked then s.post (s.cycle + 1) (.giftArrival thief thread victim g)
    else
      let s := s.logItem thief (.arrival (.giftArrival thief thread victim g))
      let s := s.onAsker thief thread victim fun k => (k.modTasks fun q => { q with recs := q.recs ++ [g] }).answered thread victim
      let s := s.send (s.cycle + 1) ⟨.control, thief, 4, .core victim, .giftAck victim⟩
      match (s.coreAt thief).seekOf thread victim with
      | some (d, _) => s.seekDone thief thread d (taskLen g % 2 ^ 32)
      | none => s

/-- `gift_ack` (R228). -/
def execGiftAck (c : Nat) : Exec := fun s =>
  .next ((s.logItem c (.arrival (.giftAck c))).modCore c fun k => k.modTasks fun q => { q with gifts := q.gifts - 1 })

/-- `steal_refusal` (R229): the thief looks at its own queue, and asks the next core or starts a new round. -/
def execStealRefusal (thief : Nat) (asked : SeekAsked) : Exec := fun s =>
  .next <|
    let s := s.logItem thief (.arrival (.stealRefusal thief asked))
    let s := s.onAsker thief asked.thread asked.victim (·.answered asked.thread asked.victim)
    match (s.coreAt thief).seekOf asked.thread asked.victim with
    | some (d, left) => if (s.coreAt thief).tasks.recs.isEmpty then s.seekAsk thief asked.thread d left else s.seekDone thief asked.thread d (2 ^ 61)
    | none => s

/-! ### Termination (R231 to R233) -/

/-- Whether a core is idle for termination (R231). -/
def Core.taskIdle (k : Core) : Bool :=
  k.tasks.acked && k.tasks.recs.isEmpty && k.tasks.gifts = 0
    && (List.range 4).all fun t =>
      let th := k.thr t
      th.outs.all (fun o => o.det0 != 0x40) && (th.st == .idle || match th.block with | .seek _ _ _ => true | _ => false)

/-- Whether a core holds a token of its partition and forwards it in this cycle; a core in replay runs alone. -/
def State.tokenMoves (s : State) (c : Nat) : Bool :=
  let k := s.coreAt c
  k.tasks.token && k.tasks.tokenAt ≤ s.cycle && k.taskIdle && k.net.replay.isNone

/-- The token of a context sent from a core to another as a CT flit: 2 cycles and the route time (R233); in a partition of one core it
comes back two cycles later. -/
def State.sendToken (s : State) (a b : Nat) (black : Bool) : State :=
  let ctx := (s.coreAt a).ctx
  let s := s.modCore a fun k => k.modTasks fun q => { q with token := false, tokenNew := false, black := false }
  if a = b then s.modCore a fun k => k.modTasks fun q => { q with token := true, tokenBlack := black, tokenAt := s.cycle + 2 }
  else s.send (s.cycle + 1) ⟨.control, a, 4, .core b, .token ctx black⟩

/-- TERM raised in a partition for the context that its origin runs (R233). -/
def State.raiseTerm (s : State) (p : Nat) (q : Partition) (origin : Nat) : State :=
  let ctx := (s.coreAt origin).ctx
  let s := s.modPart p fun q => { q with epoch := (q.epoch + 1) % 2 ^ 32 }
  let s := q.rect.cores.foldl (fun s c =>
    let s := s.onCtx c ctx fun k => (k.modTasks fun x => { x with acked := false }).event 15 8
    if (s.coreAt c).ctx != ctx then s
    else (List.range 4).foldl (fun s t => match (s.thrAt c t).block with | .seek d _ _ => s.seekDone c t d (2 ^ 62) | _ => s) (s.logItem c .term)) s
  s.modCore origin fun k => k.modTasks fun x => { x with token := true, tokenNew := true, tokenBlack := false, black := false, tokenAt := s.cycle }

/-- A token forwarded by the core that holds it, or TERM raised (R233). -/
def State.moveToken (s : State) (p : Nat) (q : Partition) (c : Nat) : State :=
  let cs := q.rect.cores
  let x := (s.coreAt c).tasks
  match cs.idxOf c with
  | 0 => if x.tokenNew || x.tokenBlack || x.black then s.sendToken c (cs.getLast?.getD c) false else s.raiseTerm p q c
  | i + 1 => s.sendToken c ((cs[i]?).getD c) (x.tokenBlack || x.black)

/-- `token_forward` (R233): each core that holds a token of its partition and is idle for termination. -/
def execTokenForward : Exec := fun s =>
  .next <| (List.range 16).foldl (fun s p =>
    match s.partAt p with
    | none => s
    | some q => q.rect.cores.foldl (fun s c => if s.tokenMoves c then s.moveToken p q c else s) s) s

end Sys2Proof.Machine
end

