-- ==== Sys2Proof/Machine/System.lean ====
section
/-! DEFINITION. The system class: `trap`, `brk`, `eret`, `halt`, `sysc`, `trc` and the control-register forms, with the control
registers' maps, the handler's entry, the relief of a full trap ring, samples, and the helm's answers to `sysc` (R55, R131,
R132, R357 to R371, R374 to R380). -/

namespace Sys2Proof.Machine

/-! ### Control registers (Table 2.2, Table 14.1) -/

/-- A value with the bits that a mask names taken from a write. -/
def stored (mask old x : Nat) : Nat := ((BitVec.ofNat 64 old &&& ~~~(BitVec.ofNat 64 mask)) ||| (BitVec.ofNat 64 x &&& BitVec.ofNat 64 mask)).toNat

/-- A field of ones from lo to hi. -/
def ones (hi lo : Nat) : Nat := (2 ^ (hi + 1 - lo) - 1) * 2 ^ lo

/-- A signed number in 16 bits. -/
def i16 (x : Int) : Nat := cutTo 16 x

/-- THERM0 to THERM2. -/
def Sensor.word (x : Sensor) : Nat := i16 x.temp + (if x.fail then 2 ^ 16 else 0) + (if x.subst then 2 ^ 17 else 0)

/-- A sensor of a core. -/
def Core.sensor (k : Core) (i : Nat) : Sensor := (k.sensors[i]?).getD Sensor.reset

/-- The larger of the two DRAM temperatures. -/
def Core.dramTemp (k : Core) : Int := max (k.sensor 1).temp (k.sensor 2).temp

/-- CTXSTAT. -/
def Ctx.stat (x : Ctx) : Nat :=
  (if x.fatal then 1 else 0) + (if x.lost then 2 else 0) + x.lostcnt % 2 ^ 16 * 2 ^ 16 + (if x.stopped then 2 ^ 32 else 0) + (if x.dbg then 2 ^ 33 else 0)

/-- A window of a core. -/
def Core.window (k : Core) (i : Nat) : Word × Word × Word := (k.agent.windows[i]?).getD (0, 0, 0)

/-- A control register as the running thread reads it (R55, R358). -/
def State.csrGet (s : State) (n : Nat) : Nat :=
  let k := s.me
  let th := s.th
  let x := s.ctxOf k.ctx
  if n = 0x001 then th.fpsr.toNat
  else if n = 0x002 then s.cycle % 2 ^ 64
  else if n = 0x003 then s.cycle % 2 ^ 64 / 8
  else if n = 0x004 then s.ct + 4 * s.cc
  else if n = 0x005 then k.ctx
  else if n = 0x006 then s.ssOf s.cc
  else if n = 0x007 then th.evpend.toNat
  else if n = 0x010 then th.vslip.toNat
  else if n = 0x011 then th.lslip.toNat
  else if n = 0x012 then k.bookIdOf th
  else if n = 0x020 then th.spbase.toNat
  else if n = 0x021 then th.spsize.toNat
  else if n = 0x022 then th.ovfp.toNat
  else if n = 0x400 then k.tvec.toNat
  else if n = 0x401 then x.trbase.toNat
  else if n = 0x402 then x.trsize.toNat
  else if n = 0x403 then x.trprod.toNat
  else if n = 0x404 then x.trcons.toNat
  else if n = 0x405 then x.stat
  else if n = 0x406 then x.fatalslot.toNat
  else if 0x410 ≤ n && n ≤ 0x417 then (k.window (n - 0x410)).1.toNat
  else if 0x418 ≤ n && n ≤ 0x41F then (k.window (n - 0x418)).2.1.toNat
  else if 0x420 ≤ n && n ≤ 0x427 then (k.window (n - 0x420)).2.2.toNat
  else if 0x430 ≤ n && n ≤ 0x432 then (k.sensor (n - 0x430)).word
  else if n = 0x433 then i16 k.dramTemp + i16 (k.sensor 0).temp * 2 ^ 16 + k.matrix.throttle % 4 * 2 ^ 32 + (if k.vault.hot then 2 ^ 34 else 0)
  else if n = 0x440 then (if x.dbg then k.dbgctl.toNat else 0)
  else if 0x441 ≤ n && n ≤ 0x444 then (if x.dbg then ((k.watch[n - 0x441]?).getD 0).toNat else 0)
  else if n = 0x450 then x.ptbase.toNat
  else if n = 0x460 then (match s.myPart with | some q => q.imbring.toNat | none => 0)
  else 0

/-- What TVEC stores (Table 14.1). -/
def tvecOf (x : Nat) : Nat := (x % 2 ^ 40 / 2 ^ 34) * 2 ^ 34 + max 0x3C00 (x % 2 ^ 14)

/-- What a core- or partition-scope register stores of a value written. -/
def csrStored (n x : Nat) : Nat :=
  if n = 0x400 then tvecOf x
  else if 0x410 ≤ n && n ≤ 0x41F then stored (ones 51 6) 0 x
  else if 0x420 ≤ n && n ≤ 0x427 then stored (ones 31 16 + ones 7 7 + ones 4 0) 0 x
  else if n = 0x440 then stored (ones 31 28 + ones 23 16 + 2) 0 x
  else if 0x441 ≤ n && n ≤ 0x444 then stored (ones 63 56 + ones 51 0) 0 x
  else if n = 0x460 then stored (2 ^ 63 + ones 55 52 + ones 51 5) 0 x
  else 0

/-- A core- or partition-scope register set (Table 14.1, Table 11.2, R342). -/
def State.csrApply (s : State) (c n x : Nat) : State :=
  let w : Word := BitVec.ofNat 64 (csrStored n x)
  let win (i : Nat) (f : Word × Word × Word → Word × Word × Word) : State :=
    s.modCore c fun k => { k with agent := { k.agent with windows := k.agent.windows.setIfInBounds i (f (k.window i)) } }
  if n = 0x400 then s.modCore c fun k => { k with tvec := w }
  else if 0x410 ≤ n && n ≤ 0x417 then win (n - 0x410) fun p => (w, p.2)
  else if 0x418 ≤ n && n ≤ 0x41F then win (n - 0x418) fun p => (p.1, w, p.2.2)
  else if 0x420 ≤ n && n ≤ 0x427 then win (n - 0x420) fun p => (p.1, p.2.1, w)
  else if n = 0x440 then s.modCore c fun k => { k with dbgctl := w }
  else if 0x441 ≤ n && n ≤ 0x444 then s.modCore c fun k => { k with watch := k.watch.setIfInBounds (n - 0x441) w }
  else if n = 0x460 then (match s.partOf c with | some p => s.modPart p fun q => { q with imbring := w } | none => s)
  else s

/-- The core- and partition-scope registers written in a cycle that ends (R374). -/
def State.applyCsrs (s : State) : State :=
  let ws := s.csrs
  ws.foldl (fun s w => s.csrApply w.1 w.2.1 w.2.2) { s with csrs := [] }

/-! ### The full ring (R365) -/

/-- The threads of a context that wait for a place in its ring, with the cycle since which each waits: those with a trap record, and
those at an open `trc`. -/
def State.ringWaiters (s : State) (ctx : Nat) : List (Nat × Nat × Nat) :=
  (List.range 256).flatMap fun c =>
    if (s.coreAt c).ctx != ctx then []
    else (List.range 4).filterMap fun t =>
      let th := s.thrAt c t
      match th.block, th.since with
      | .ring _ _ since, _ => some (since, c, t)
      | .none, some since => match decodeWord (s.fetchWord c t) with
        | .ok (.trc _ _ _ _ _) => some (since, c, t)
        | _ => none
      | _, _ => none

/-- The ring has room again: trap records that wait are allocated, the longest wait first (R364, R365). -/
def State.ringFreed (s : State) (ctx : Nat) : State :=
  (sortBy (fun a b => a.1 ≤ b.1) (s.ringWaiters ctx)).foldl (fun s w =>
    if (s.ctxOf ctx).ringFull then s
    else match (s.thrAt w.2.1 w.2.2).block with
      | .ring r a _ => s.trapToRing w.2.1 w.2.2 r a
      | _ => s) s

/-- A context-scope register set (R358). -/
def State.ctxSet (s : State) (n x : Nat) : State :=
  let id := s.me.ctx
  let w (mask : Nat) : Word := BitVec.ofNat 64 (stored mask 0 x)
  let f (x' : Ctx) : Ctx :=
    if n = 0x401 then { x' with trbase := w (ones 51 6) }
    else if n = 0x402 then { x' with trsize := BitVec.ofNat 64 (min 16 (max 4 (x % 32))) }
    else if n = 0x403 then { x' with trprod := w (ones 31 0) }
    else if n = 0x404 then { x' with trcons := w (ones 31 0), consAt := if x'.trcons = w (ones 31 0) then x'.consAt else s.cycle }
    else if n = 0x405 then { x' with lostcnt := bitsOf x 31 16, lost := x'.lost && !bitOf x 1 }
    else if n = 0x406 then { x' with fatalslot := w (ones 51 6) }
    else if n = 0x450 then { x' with ptbase := w (ones 39 16) }
    else x'
  (s.modCtx id f).ringFreed id

/-- A control register written by the running thread, as far as its map and the thread's state allow (R12, R131). -/
def State.csrSet (s : State) (n x : Nat) : State :=
  let priv := s.th.priv
  let w (mask : Nat) : Word := BitVec.ofNat 64 (stored mask 0 x)
  if n = 0x001 then s.modTh fun th => { th with fpsr := w 0x1F3 }
  else if n = 0x007 then s.modTh fun th => { th with evpend := w 0x7F }
  else if n = 0x010 then s.modTh fun th => { th with vslip := w 0xFFFF }
  else if n = 0x011 then s.modTh fun th => { th with lslip := w 0xFFFF }
  else if n = 0x020 then (if priv then s.modTh fun th => { th with spbase := w (ones 19 6) } else s)
  else if n = 0x021 then (if priv then s.modTh fun th => { th with spsize := BitVec.ofNat 64 (min 0x100000 (stored (ones 20 6) 0 x)) } else s)
  else if n = 0x022 then (if priv then s.modTh fun th => { th with ovfp := w (ones 51 6) } else s)
  else if (0x401 ≤ n && n ≤ 0x406) || n = 0x450 then s.ctxSet n x
  else if 0x440 ≤ n && n ≤ 0x444 && !(s.ctxOf s.me.ctx).dbg then s
  else if n = 0x400 || (0x410 ≤ n && n ≤ 0x427) || (0x440 ≤ n && n ≤ 0x444) || n = 0x460 then { s with csrs := s.csrs ++ [(s.cc, n, x)] }
  else s

/-- One control-register form (R131, R132): its operands, and the value it writes, if any. -/
def csrForm (d : GReg) (n : BitVec 11) (us : List Use) (f : State → Nat → Option Nat) : Act Done := do
  let num := n.toNat
  let s0 ← get
  if 0x400 ≤ num && !s0.th.priv then fault { cause := causePriv }
  if !csrAssigned num then fault { cause := causeIllegal, det0 := 9, det1 := 5 }
  let s ← operands (us ++ [.wg d])
  if num = 1 && (s.me.sfu.ops ++ s.me.sfu.removed).any (·.thr == s.ct) then waitOpen { cause := causeOvrn }
  let (s', old) := if num = 2 || num = 3 || num = 7 then s.observe (s.csrGet num) else (s, s.csrGet num)
  set s'
  match f s old with
  | some x => change fun s => s.csrSet num x
  | none => pure ()
  change fun s => s.writeG d (BitVec.ofNat 64 old) 1
  done 1

/-- `csrr` (R131). -/
def execCsrr (d : GReg) (n : BitVec 11) : Exec := runThread (csrForm d n [] fun _ _ => none)

/-- `csrw` (R131). -/
def execCsrw (d a : GReg) (n : BitVec 11) : Exec := runThread (csrForm d n [.rg a false] fun s _ => some (s.readG a).toNat)

/-- `csrs` (R131). -/
def execCsrs (d a : GReg) (n : BitVec 11) : Exec :=
  runThread (csrForm d n [.rg a false] fun s old => if a = 0 then none else some (BitVec.ofNat 64 old ||| s.readG a).toNat)

/-- `csrc` (R131). -/
def execCsrc (d a : GReg) (n : BitVec 11) : Exec :=
  runThread (csrForm d n [.rg a false] fun s old => if a = 0 then none else some (BitVec.ofNat 64 old &&& ~~~(s.readG a)).toNat)

/-! ### trap, brk, eret (R367, R368) -/

/-- `trap` (R367). -/
def execTrap (a b : GReg) (ea eb : Bool) (q : Pred) : Exec :=
  runThread <| predicated q do
    let s ← operands [.rg a ea, .rg b eb]
    fault { cause := causeSwtrap, det0 := (s.readG a).toNat, det1 := (s.readG b).toNat }

/-- `brk` (R367). -/
def execBrk (n : BitVec 5) (q : Pred) : Exec :=
  runThread <| predicated q (fault { cause := causeBreak, det0 := n.toNat })

/-- `eret` (R368): it leaves privileged state, arming the booking that its handle names, or reports why it cannot. -/
def execEret (d a b : GReg) (ea eb : Bool) (q : Pred) : Exec :=
  runThread do
    if !(← get).th.priv then fault { cause := causePriv }
    predicated q do
      let s ← operands [.rg a ea, .rg b eb, .wg d]
      let r := (s.readG a).toNat
      if 2 ^ 15 ≤ r then fault { cause := causeEngine, det0 := 23, det1 := r }
      let slot := s.me.handleSlot (s.readG b).toNat
      let x := s.me.booking (slot.getD 0)
      let status :=
        if b = 0 then 0
        else if slot.isSome && x.st == .lapsed then 1
        else if slot.isNone || x.st != .made then 2
        else if x.wake < s.cycle + 2 then 1
        else 0
      if status != 0 then
        change fun s => s.writeG d (BitVec.ofNat 64 status) 2
        done 2
      else
        change fun s => (s.leaveHandler r).modTh fun th => { th with retired := th.retired + 1, since := none }
        if b != 0 then
          change fun s => (s.modTh fun th => { th with st := .armed, slot := slot }).putBooking s.cc (slot.getD 0) { x with st := .armed }
        pure ⟨2, none, true⟩

/-! ### halt (R369) -/

/-- Whether work of the running thread is outstanding (R369). -/
def State.threadBusy (s : State) : Bool :=
  s.th.outs.any (!·.told) || (s.me.engine.copies.any fun x => x.thr == s.ct && x.live)
    || (s.me.engine.streams.any fun p => p.2.thr == s.ct && !p.2.undrained.isEmpty) || s.me.sfu.ops.any (·.thr == s.ct)

/-- Whether every thread of a core has ended its handler in a pre-emption (R373). -/
def Core.handlersDone (k : Core) : Bool :=
  k.preempt == .handlers && k.threads.all fun th => th.st == .idle || (th.st == .stopped && th.block == .none)

/-- The running thread becomes idle, and its completion goes to the host if a BAR2 record started it (R369, R389); its streams end, since
a launch finds every stream register unbound (Table 2.1; DEDUCED, log entry 73). -/
def State.becomeIdle (s : State) (status : Nat) : State :=
  let th := s.th
  let s := match th.tag with
    | some tag => s.completeFrom s.cc ⟨tag, 2, 0, s.me.ctx, status, s.ssOf s.cc, s.cc, s.ct, s.cycle⟩
    | none => s
  ((s.modTh fun th => { th with st := .idle, tag := none, since := none, wskip := none, slot := none, retired := th.retired + 1 }).modMe
    (·.unbindAll s.ct)).postOnce (s.cycle + 1) .launchQueueStart

/-- `halt` (R369): stopped in privileged state; in booked mode its booking ends, and it goes on as an open one; in open user state it
waits for the thread's work, raising poisoned registers and refusals, and the thread becomes idle; a halt that waited ends in the
cycle after the one in which the wait did (R329, Table 11.9). -/
def execHalt (a : GReg) (ea : Bool) (q : Pred) : Exec :=
  runThread <| predicated q do
    let s ← operands [.rg a ea]
    if s.th.priv then
      change fun s => s.modTh fun th => { th with st := .stopped, left := .run, pc := th.pc + 1, retired := th.retired + 1, since := none, wskip := none }
      hold
    else
      orStop s.th.poisonStop
      orStop s.th.refusalStop
      if s.th.st == .booked && s.threadBusy then
        change fun s => (s.endBooking s.cc s.ct).modTh fun th => { th with since := some s.cycle }
        hold
      else if s.threadBusy then drain
      else if s.th.since.isSome then
        change fun s => s.modTh fun th => { th with since := none }
        hold
      else
        change fun s' => (if s.th.st == .booked then s'.endBooking s'.cc s'.ct else s').becomeIdle (s.readG a).toNat
        hold

/-! ### trc and samples (R371) -/

/-- A trace or sample record of a thread. -/
def State.traceRecord (s : State) (c t insn det0 det1 : Nat) : TrapRec :=
  let k := s.coreAt c
  { cause := 0, flags := 0, source := t, core := c, ctx := k.ctx, pc := (k.thr t).pc.toNat, addr := 0, insn := insn, ss := s.ssOf c,
    cycle := s.cycle, det0 := det0, det1 := det1, bookid := k.bookIdOf (k.thr t) }

/-- `trc` (R371): nothing unless enabled; in open mode it waits for a place in the ring. -/
def execTrc (a b : GReg) (ea eb : Bool) (q : Pred) : Exec :=
  runThread <| predicated q do
    let s ← get
    if !((s.ctxOf s.me.ctx).dbg && bitOf s.me.dbgctl.toNat (20 + s.ct)) then done 1
    else
      let s ← operands [.rg a ea, .rg b eb]
      let r := s.traceRecord s.cc s.ct (s.fetchWord s.cc s.ct).toNat (s.readG a).toNat (s.readG b).toNat
      if s.th.st != .booked && (s.ctxOf s.me.ctx).ringFull then
        if s.th.since.isNone then
          change fun s => (s.modTh fun th => { th with since := some s.cycle }).postOnce (s.cycle + 8500) .ringStallRelief
        hold
      else
        change fun s => s.noteRecord r
        done 1

/-- The empty mask of g0 to g31. -/
def Thread.emptyMask (th : Thread) : Nat :=
  (List.range 32).foldl (fun m n => if n != 0 && ((th.g[n]?).getD (Reg.of 0)).st == .empty then m + 2 ^ n else m) 0

/-- Whether a core takes samples in a cycle. -/
def State.samples (s : State) (c : Nat) : Bool :=
  let k := s.coreAt c
  let n := bitsOf k.dbgctl.toNat 31 28
  n != 0 && (s.ctxOf k.ctx).dbg && s.cycle % 2 ^ (n + 9) = 0

/-- `sample_tick` (R371): each thread in user state that is not idle yields a record, on every core whose period ends. -/
def execSampleTick : Exec := fun s =>
  .next <| s.eachCore fun s c =>
    if s.samples c then
      (List.range 4).foldl (fun s t =>
        let th := s.thrAt c t
        if th.st == .idle || th.priv then s else s.noteRecord (s.traceRecord c t 0 (stateCode th.st) th.emptyMask)) s
    else s

/-! ### The handler's entry and the ring's relief (R359, R365) -/

/-- `handler_entry` (R359): the record's acknowledgement has reached the thread. -/
def execHandlerEntry (c t : Nat) : Exec := fun s =>
  .next <|
    match (s.thrAt c t).block with
    | .record a => if (s.thrAt c t).priv then s else s.enterHandler c t a
    | _ => s

/-- The record at CONS moved to the journal (R365). -/
def State.relieve (s : State) (x : Ctx) (c : Nat) : State :=
  let bytes := match s.translate c x.id (x.slotVa (x.trcons.toNat % 2 ^ 32)) true false with
    | .offstack pa => memTake s.offstack pa 64
    | _ => []
  let s := s.journal journalRescue x.id c (x.trcons.toNat % 2 ^ 32) 0 bytes
  s.modCtx x.id fun x => { x with
    trcons := BitVec.ofNat 64 ((x.trcons.toNat + 1) % 2 ^ 32), consAt := s.cycle, lostcnt := min 65535 (x.lostcnt + 1), lost := true }

/-- `ring_stall_relief` (R365): in each context a thread of which has waited 8,500 cycles with CONS unchanged. -/
def execRingStallRelief : Exec := fun s =>
  .next <| s.ctxs.foldl (fun s x0 =>
    let x := s.ctxOf x0.id
    match s.ringWaiters x.id with
    | [] => s
    | w :: ws =>
      let since := max ((w :: ws).foldl (fun m y => min m y.1) w.1) x.consAt
      if s.cycle < since + 8500 then s.postOnce (since + 8500) .ringStallRelief
      else
        let s := (s.relieve x w.2.1).ringFreed x.id
        if (s.ringWaiters x.id).isEmpty then s else s.postOnce (s.cycle + 8500) .ringStallRelief) s

/-! ### Attestation (R376) -/

/-- The values set at a context's creation, as their commands gave them: its parameters, the windows by core and window, and IMBRING by
partition (R374). -/
def Ctx.creation (x : Ctx) : List Byte :=
  let sorted (l : List (Nat × List Byte)) : List Byte := (sortBy (fun a b => a.1 ≤ b.1) l).flatMap (·.2)
  x.params ++ sorted x.windows ++ sorted x.imbrings

/-- The 256 bytes of a context's report (Table 14.8). -/
def State.attestation (s : State) (x : Ctx) (nonce : List Byte) : List Byte :=
  let parts := (s.partsOf x.id).foldl (fun m p => m + 2 ^ p) 0
  let images := (sortBy (fun a b => a.1 ≤ b.1) x.images).flatMap (·.2)
  let body := leBytes 2 1 ++ leBytes 2 x.id ++ [if x.dbg then 1 else 0, 0] ++ leBytes 2 parts ++ leBytes 2 (s.host.devid % 1024) ++ leBytes 6 0
    ++ sha512 s.host.image ++ sha512 (Config.creationBytes x.creation ++ images) ++ nonce ++ leBytes 16 0
  body ++ edSign Config.deviceKey body

/-! ### sysc (R370) -/

/-- `sysc` (R370): the call goes to the helm as a CT flit, and the helm answers within no bound. -/
def execSysc (d a b : GReg) (ea eb : Bool) (q : Pred) : Exec :=
  runThread <| predicated q do
    let s0 ← get
    let us : List Use := [.rg a ea, .rg b eb, .wg d]
    if s0.th.st == .booked then
      let rs := us.flatMap (·.regs s0.me s0.ct)
      if rs.any fun r => s0.cycle < r.ready then stall
      orStop (rs.findSome? OpReg.wnack)
      if rs.any fun r => r.trapEmpty && r.st == .empty then fault { cause := causeRempty }
      openOnly
    let s ← operands us
    let dest := s.th.destOf d.toNat
    let call : Payload := .call s.cc s.ct s.me.ctx ((s.readG a).toNat % 256) (s.readG b).toNat dest
    change fun s' => (s'.send (s'.cycle + 1) ⟨.control, s.cc, s.ct, .helm, call⟩).markEmpty dest
    done 1

/-- The parts of a VA range in one 64 KiB page each, with their off-stack or vault places, if all of them may be read and written. -/
def State.placesOf (s : State) (c ctx va n : Nat) : Option (List (Nat × Nat × Xlate)) :=
  let xs := (blocksOf va n).map fun p => (p.2.1, p.2.2, s.translate c ctx p.1 true true)
  if xs.all fun x => match x.2.2 with | .offstack _ | .vault _ | .loc _ | .foreign _ => true | _ => false then some xs else none

/-- A vault page's physical address as its own core sees it. -/
def State.homeOf (s : State) (c ctx va : Nat) : Xlate :=
  match s.translate c ctx va false false with
  | .foreign v => s.translate v ctx va false false
  | x => x

/-- The core of a context as the helm finds it: running, or saved. -/
def State.coreOf (s : State) (c ctx : Nat) : Core :=
  if (s.coreAt c).ctx == ctx then s.coreAt c
  else ((s.helm.saved.find? fun x => x.1 == ctx && x.2.1 == c).map (·.2.2)).getD Core.reset

/-- Bytes that the helm reads of a context's memory. -/
def State.helmRead (s : State) (c ctx va n : Nat) : List Byte :=
  (blocksOf va n).flatMap fun p =>
    match s.translate c ctx p.1 false false with
    | .loc off => memTake (s.coreOf c ctx).sram off p.2.2
    | .vault pa => memTake (s.coreAt c).vault.mem pa p.2.2
    | .foreign v => match s.homeOf c ctx p.1 with
      | .vault pa => memTake (s.coreAt v).vault.mem pa p.2.2
      | _ => []
    | .offstack pa => memTake s.offstack pa p.2.2
    | _ => []

/-- Bytes written by the helm to a core's local memory. -/
def Core.putLocal (k : Core) (off : Nat) (bs : List Byte) : Core := { k.noteStale off bs.length with sram := memPut k.sram off bs }

/-- Bytes written by the helm to a vault. -/
def Core.putVault (k : Core) (pa : Nat) (bs : List Byte) : Core := { k with vault := { k.vault with mem := memPut k.vault.mem pa bs } }

/-- Bytes that the helm writes to a context's memory, kept in the receive log of the core whose memory it is (R383). -/
def State.helmWrite (s : State) (c ctx va : Nat) (bs : List Byte) : State :=
  (blocksOf va bs.length).foldl (fun s p =>
    let part := (bs.drop p.2.1).take p.2.2
    match s.translate c ctx p.1 false false with
    | .loc off => (if (s.coreAt c).ctx = ctx then s.logItem c (.wrote false off part) else s).onCtx c ctx (·.putLocal off part)
    | .vault pa => (s.logItem c (.wrote true pa part)).modCore c (·.putVault pa part)
    | .foreign v => match s.homeOf c ctx p.1 with
      | .vault pa => (s.logItem v (.wrote true pa part)).modCore v (·.putVault pa part)
      | _ => s
    | .offstack pa => { s with offstack := memPut s.offstack pa part }
    | _ => s) s

/-- The tables that a walk lacks below a level's entry, filled in from frames of the pool, and the leaf written (R375). Answers none
where an entry on the way is not a pointer. -/
def mapPage (leaf va : Nat) : Nat → Nat → Nat → List Nat → Memory → Option Memory
  | 0, _, _, _, _ => none
  | fuel + 1, level, table, frames, m =>
    let (hi, lo, _, _) := levelOf level
    let pa := table + 8 * bitsOf va hi lo
    let e := memGetN m pa 8
    if level = 3 then some (memSetN m pa 8 leaf)
    else if !bitOf e 63 then
      match frames with
      | f :: rest => mapPage leaf va fuel (level + 1) (f * 65536) rest (memSetN m pa 8 (2 ^ 63 + 3 * 2 ^ 61 + f * 65536))
      | [] => none
    else if bitsOf e 62 61 = 3 then mapPage leaf va fuel (level + 1) (bitsOf e 39 8 * 256) frames m
    else none

/-- How many tables a walk lacks. -/
def tablesLacking (m : Memory) (va : Nat) : Nat → Nat → Nat → Nat
  | 0, _, _ => 0
  | fuel + 1, level, table =>
    let (hi, lo, _, _) := levelOf level
    let e := memGetN m (table + 8 * bitsOf va hi lo) 8
    if level = 3 then 0 else if !bitOf e 63 then 3 - level else tablesLacking m va fuel (level + 1) (bitsOf e 39 8 * 256)

/-- A frame of off-stack memory zeroed. -/
def zeroFrame (m : Memory) (f : Nat) : Memory := m.filter fun x => !(f * 65536 ≤ x.1 && x.1 < (f + 1) * 65536)

/-- The channels of a core parked on a page that is not mapped. -/
def StreamEngine.parkedOn (e : StreamEngine) (va : Nat) : List Nat := (e.parks.filter fun p => p.page && p.va / 65536 == va / 65536).map (·.chan)

/-- Every stream channel of a context that is parked on a page signalled to resume: of the cores that run the context, and of those saved
with it (R288, R370). -/
def State.signalParked (s : State) (ctx va : Nat) : State :=
  let s := s.eachCore fun s c =>
    if (s.coreAt c).ctx = ctx then
      ((s.coreAt c).engine.parkedOn va).foldl (fun s ch => s.post (s.cycle + 1) (.channelResume c ch)) s
    else s
  let wake (k : Core) : Core := { k with engine := (k.engine.parkedOn va).foldl StreamEngine.resume k.engine }
  { s with helm := { s.helm with saved := s.helm.saved.map fun x => if x.1 == ctx then (x.1, x.2.1, wake x.2.2) else x } }

/-- FAULTIN (Table 14.5): the state with the page mapped, and the result. -/
def State.faultIn (s : State) (ctx va : Nat) : State × Nat :=
  let x := s.ctxOf ctx
  let va := va % 2 ^ 52
  if isLocal va || va < x.fiBase || x.fiLim ≤ va then (s, 1)
  else if (s.leaf ctx va).isSome then (s, 0)
  else
    let root := bitsOf x.ptbase.toNat 39 16 * 65536
    let need := tablesLacking s.offstack va 4 0 root + 1
    if x.poolFree.length < need then (s, 1)
    else
      let frames := x.poolFree.take need
      let page := frames.getLast?.getD 0
      let m := frames.foldl zeroFrame s.offstack
      match mapPage (2 ^ 63 + 3 * 2 ^ 57 + page * 65536) va 4 0 root frames.dropLast m with
      | none => (s, 1)
      | some m =>
        let s := { s with offstack := m }.modCtx ctx fun x => { x with poolFree := x.poolFree.drop need }
        (s.signalParked ctx va, 0)

/-- Whether a page of a VA range is in migration. -/
def State.anyMoving (s : State) (c ctx va n : Nat) : Bool := (blocksOf va n).any fun p => s.translate c ctx p.1 true true == .moving

/-- `sysc_service` (R370): the helm acts on a call, and its answer goes to the caller's core as a CT flit (DESIGN CHOICE, log entry 83). A report for a page in migration is
written when the move has ended. -/
def execSyscService (c t ctx f arg : Nat) (dst : Dest) : Exec := fun s =>
  .next <|
    let va := arg % 2 ^ 52
    let reply (s : State) (x : Nat) : State := s.sendAnswer .helm (.helm c t ctx dst) .control (.reply (.helm c t ctx dst) x)
    if f = 0 then reply s (s.host.devid % 1024 + (((s.partOf c).getD 0) % 16) * 2 ^ 16 + ctx % 2 ^ 16 * 2 ^ 20)
    else if f = 1 then
      if s.anyMoving c ctx va 256 then s.post (s.cycle + 1) (.syscService c t ctx f arg dst)
      else match s.placesOf c ctx va 256 with
        | some _ => reply (s.helmWrite c ctx va (s.attestation (s.ctxOf ctx) ((s.helmRead c ctx va 256).drop 144 |>.take 32))) 0
        | none => reply s 1
    else if f = 2 then let (s, x) := s.faultIn ctx arg; reply s x
    else reply s (2 ^ 64 - 1)

end Sys2Proof.Machine
end

