-- ==== Sys2Proof/Machine/Trellis.lean ====
section
/-! DEFINITION. The weight-stream class: window registers, the two decoders, the encoder's jobs and the wait for them (R266 to
R279). -/

namespace Sys2Proof.Machine

/-! ### Window registers (R266, R268) -/

/-- A window register of a core. -/
def Core.twReg (k : Core) (n : Nat) : TwReg := (k.trellis.tw[n]?).getD ⟨0, 0, 0⟩

/-- The value that an instruction of a cycle decodes through (R268). -/
def TwReg.seen (r : TwReg) (cycle : Nat) : Nat := if r.at_ = cycle then r.prev.toNat else r.val.toNat

/-- `twset` (R268). -/
def execTwset (d a : GReg) (tw : BitVec 2) : Exec :=
  runThread do
    let s ← operands [.rg a false, .wg d]
    let r := s.me.twReg tw.toNat
    let r' : TwReg := ⟨s.readG a, s.cycle, if r.at_ = s.cycle then r.prev else r.val⟩
    change fun s => s.modMe fun k => { k with trellis := { k.trellis with tw := k.trellis.tw.setIfInBounds tw.toNat r' } }
    change fun s => s.writeG d r.val 1
    done 1

/-! ### The decoders (R269 to R271) -/

/-- A window's fields (Table 9.2). -/
structure TrellisWindow where
  k : Nat
  out : TrellisOut
  nblk : Nat
  base : Nat
  deriving DecidableEq, Repr

/-- CheckWindow (R269): the fields, or none where the window is reserved. -/
def windowOf (w : Nat) : Option TrellisWindow :=
  let out : Option TrellisOut := match bitsOf w 53 52 with
    | 0 => some .f32
    | 1 => some .bf16
    | 2 => some .i8
    | _ => none
  if bitsOf w 63 56 != 0 || bitsOf w 35 20 != 0 || bitsOf w 1 0 != 0 || bitsOf w 55 54 = 3 then none
  else out.map fun o => ⟨bitsOf w 55 54 + 2, o, bitsOf w 51 36, bitsOf w 19 2⟩

/-- The scratchpad offset of a record. -/
def TrellisWindow.at_ (w : TrellisWindow) (b : Nat) : Nat := 4 * w.base + b * trellisBytes w.k

/-- CheckWindow of an instruction. -/
def checkWindow (w : Nat) : Act TrellisWindow :=
  match windowOf w with
  | some x => pure x
  | none => fault { cause := causeEngine, det0 := 9, det1 := w }

/-- PROT of a record that leaves the scratchpad (R269). -/
def recordProt (off n : Nat) : Option Stop :=
  if 0x100000 < off + n then some (.trap { cause := causeProt, addr := localBase + max off 0x100000 }) else none

/-- OWNER of a record with a byte in a tile that the threads do not own (R271). -/
def State.recordOwner (s : State) (off n : Nat) : Option Stop :=
  (s.me.engineByte off n).map fun o => .trap { cause := causeOwner, addr := localBase + o }

/-- The scratchpad blocks of 64 bytes that a record touches. -/
def blocks64 (off n : Nat) : List Nat := (List.range ((off + n - 1) / 64 - off / 64 + 1)).map (off / 64 + ·)

/-- The bytes of a record that lie in a block, as a part that goes to a place of the data. -/
def recordPart (off n place b : Nat) : Nat × Nat × Nat :=
  let lo := max off (64 * b)
  (lo, place + (lo - off), min (off + n) (64 * b + 64) - lo)

/-- What a decode leaves when its records have been read: each lane's weight of the record at a place of the data, and the flags (R269,
R270). -/
def State.workDecoded (s : State) (window rm : Nat) (lanes : List (Nat × Nat)) (wide : Bool) (n count : Nat) (w : LocalWork) : State :=
  match windowOf window with
  | none => s
  | some x =>
    let ow := if wide then 32 else x.out.bits
    let r := mapLanes ow lanes.length fun i =>
      let (place, q) := (lanes[i]?).getD (0, 0)
      let y := trellisOut x.out (rndOf rm) x.k (w.data / 2 ^ (8 * place) % 2 ^ (8 * trellisBytes x.k)) q
      (if wide && x.out == .i8 then cutTo 32 (signedOf 8 y.1) else y.1, y.2)
    (s.writeV (BitVec.ofNat 5 n) count r.1 (w.ready - s.cycle)).setFlags r.2

/-- What a decode leaves, as its operation names it. -/
def LocalWork.decode (w : LocalWork) (s : State) : State :=
  match w.fin with
  | .decoded window rm lanes wide n count => s.workDecoded window rm lanes wide n count w
  | _ => s

/-- `tdec` (R269, R270). -/
def execTdec (d : VReg) (a b : GReg) (w : Grp) (tw : BitVec 2) : Exec :=
  runThread do
    let s ← operands [.rg a false, .rg b false, .wv d w.regs]
    let x ← checkWindow ((s.me.twReg tw.toNat).seen s.cycle)
    let blk := (s.readG a).toNat
    let f := (s.readG b).toNat % 128
    if x.nblk ≤ blk then fault { cause := causeEngine, det0 := 10, det1 := blk }
    let n := trellisBytes x.k
    let off := x.at_ blk
    orStop (s.watchStop true false (localBase + off) n)
    orStop (recordProt off n)
    orStop (s.recordOwner off n)
    let bs := blocks64 off n
    let cost := max w.regs bs.length
    let work : LocalWork := {
      due := s.cycle, store := false, data := 0, ready := s.cycle + cost + 4,
      left := workCycles bs.length (bs.zipIdx.map fun (b, i) => (bankOf (64 * b), i)) (bs.zipIdx.map fun (b, i) => (i, recordPart off n 0 b))
      fin := .decoded ((s.me.twReg tw.toNat).seen s.cycle) s.th.fpsr.toNat ((List.range (512 * w.regs / x.out.bits)).map fun i => (0, (f + i) % 128)) false
        d.toNat w.regs }
    orStop (s.workStop work.left)
    orStop (s.acquireStop (localBase + off))
    change fun s => s.beginWork work LocalWork.decode
    done cost

/-- The accesses of `tdecr` as its lanes are looked at in turn (R270): the bank uses and the parts with their cycles, the cycles so far, the
blocks read with the cycle of each, and the banks of the current cycle. -/
structure DecrPlan where
  uses : List (Nat × Nat)
  parts : List (Nat × Nat × Nat × Nat)
  cycles : Nat
  seen : List (Nat × Nat)
  banks : List Nat
  deriving DecidableEq, Repr

/-- A lane's record added: one whose blocks have all been read takes its bytes from those reads; another takes its banks in the current
cycle if they fit there, and else opens a new one. -/
def DecrPlan.add (p : DecrPlan) (n lane off : Nat) : DecrPlan :=
  let bs := blocks64 off n
  let seenAt (b : Nat) : Option Nat := (p.seen.find? (·.1 == b)).map (·.2)
  if bs.all fun b => (seenAt b).isSome then
    { p with parts := p.parts ++ bs.map fun b => ((seenAt b).getD 0, recordPart off n (64 * lane) b) }
  else
    let mine := (bs.map fun b => bankOf (64 * b)).eraseDups
    let fresh := p.cycles = 0 || 4 < p.banks.length + mine.length || mine.any p.banks.contains
    let i := if fresh then p.cycles else p.cycles - 1
    { uses := p.uses ++ mine.map fun b => (b, i)
      parts := p.parts ++ bs.map fun b => (i, recordPart off n (64 * lane) b)
      cycles := i + 1
      seen := (bs.map fun b => (b, i)) ++ p.seen
      banks := if fresh then mine else p.banks ++ mine }

/-- The accesses of `tdecr` on records of n bytes. -/
def decrPlan (n : Nat) (offs : List Nat) : DecrPlan := offs.zipIdx.foldl (fun p (off, lane) => p.add n lane off) ⟨[], [], 0, [], []⟩

/-- `tdecr` (R269, R270). -/
def execTdecr (d : VReg) (a : GReg) (b : VReg) (tw : BitVec 2) : Exec :=
  runThread do
    let s ← operands [.rg a false, .rv b 1, .wv d 1]
    let x ← checkWindow ((s.me.twReg tw.toNat).seen s.cycle)
    let b0 := (s.readG a).toNat
    let idx := s.readV b 1
    let lanes := (List.range 16).map fun i => let l := laneOf idx 32 i; (b0 + l / 128, l % 128)
    match lanes.find? fun l => x.nblk ≤ l.1 with
    | some l => fault { cause := causeEngine, det0 := 10, det1 := l.1 % 2 ^ 64 }
    | none => pure ()
    let n := trellisBytes x.k
    let offs := lanes.map fun l => x.at_ l.1
    orStop (s.watchStop true false (localBase + offs.headD 0) n)
    orStop (offs.findSome? fun o => recordProt o n)
    orStop (offs.findSome? fun o => s.recordOwner o n)
    let p := decrPlan n offs
    let work : LocalWork := {
      due := s.cycle, store := false, data := 0, ready := s.cycle + p.cycles + 4, left := workCycles p.cycles p.uses p.parts
      fin := .decoded ((s.me.twReg tw.toNat).seen s.cycle) s.th.fpsr.toNat (lanes.zipIdx.map fun (l, i) => (64 * i, l.2)) true d.toNat 1 }
    orStop (s.workStop work.left)
    orStop (s.acquireStop (localBase + offs.headD 0))
    change fun s => s.beginWork work LocalWork.decode
    done p.cycles

/-! ### Encoding jobs (R272, R276, R277) -/

/-- The step of a job's records. -/
def TrellisJob.k (j : TrellisJob) : Nat := bitsOf j.ctl 19 18 + 2
/-- The blocks of a job. -/
def TrellisJob.n (j : TrellisJob) : Nat := bitsOf j.ctl 39 32 + 1
/-- The tiles a job flips. -/
def TrellisJob.tiles (j : TrellisJob) : List Nat :=
  (tilesOf j.src (512 * j.n) ++ tilesOf j.dst (trellisBytes j.k * j.n)).eraseDups

/-- Whether a control word is malformed (R272). -/
def badEncWord (c : Nat) : Bool :=
  bitsOf c 63 40 != 0 || bitsOf c 31 20 != 0 || bitOf c 16 || bitsOf c 19 18 = 3 ||
    (!bitOf c 17 && (c % 65536 = 0 || 0x7BFF < c % 65536))

/-- PROT of a range of local VAs that leaves the scratchpad: its first byte outside. -/
def rangeProt (va n : Nat) : Option Stop :=
  if !isLocal va || 0x100000 ≤ localOff va then some (.trap { cause := causeProt, addr := va })
  else if 0x100000 < localOff va + n then some (.trap { cause := causeProt, addr := localBase + 0x100000 })
  else none

/-- `tenc` (R276). -/
def execTenc (d a b : GReg) : Exec :=
  runThread do
    let s ← operandsOpenOnly [.rg d false, .rg a false, .rg b false]
    let dva := (s.readG d).toNat % 2 ^ 52
    let ava := (s.readG a).toNat % 2 ^ 52
    let c := (s.readG b).toNat
    if ava % 64 != 0 then fault { cause := causeAlign, addr := ava }
    if dva % 4 != 0 then fault { cause := causeAlign, addr := dva }
    let j : TrellisJob := ⟨s.me.trellis.serial, s.ct, s.th.pc.toNat, localOff ava, localOff dva, c, 0, 0, false, 0, s.cycle⟩
    let sn := 512 * j.n
    let dn := trellisBytes j.k * j.n
    orStop ((rangeProt ava sn).or (if bitsOf c 19 18 = 3 then none else rangeProt dva dn))
    if badEncWord c || (j.src < j.dst + dn && j.dst < j.src + sn) then fault { cause := causeEngine, det0 := 8, det1 := c }
    orStop ((s.recordOwner j.src sn).or (s.recordOwner j.dst dn))
    if j.tiles.any fun u => (s.me.tileOn u).isSome then stall
    if 4 ≤ (s.me.trellis.jobs.filter fun x => !x.running).length then stall
    change fun s => (s.modMe fun k =>
      let k := k.flip j.tiles 3
      { k with trellis := { k.trellis with jobs := k.trellis.jobs ++ [j], serial := j.id + 1 } }).postOnce s.cycle .tencJobStart
    done 1

/-- `tencw` (R278). -/
def execTencw (d : GReg) : Exec :=
  runThread do
    let s ← operandsOpenOnly [.wg d]
    if (s.me.trellis.jobs ++ s.me.trellis.saved).any fun j => j.thr == s.ct then drain
    change fun s => (s.writeG d s.th.trellis 1).modTh fun th => { th with trellis := 0 }
    drained

/-- The bank accesses that write a record of a job's current block: their offsets and lengths, one to each bank (R277). -/
def TrellisJob.writes (j : TrellisJob) : List (Nat × Nat) :=
  let n := trellisBytes j.k
  let off := j.dst + j.blocks * n
  let m := 0x8000 - off % 0x8000
  if n ≤ m then [(off, n)] else [(off, m), (off + m, n - m)]

/-- The record of a job's current block, with its status bits (R274, R275). -/
def TrellisJob.record (j : TrellisJob) (mem : Memory) : Nat × Nat :=
  let xs := (List.range 128).map fun i => memGetN mem (j.src + 512 * j.blocks + 4 * i) 4
  encBlock j.k (if bitOf j.ctl 17 then encAuto xs else j.ctl % 65536) xs

/-- A core with one encoding job replaced. -/
def Core.setJob (k : Core) (j : TrellisJob) : Core :=
  { k with trellis := { k.trellis with jobs := k.trellis.jobs.map fun x => if x.id == j.id then j else x } }

/-- The running job due again in a cycle. -/
def State.encNext (s : State) (c : Nat) (j : TrellisJob) (at_ : Nat) : State :=
  (s.modCore c (·.setJob { j with dueAt := at_ })).postOnce at_ (if j.blocks < j.n then .tencJobStart else .tencJobComplete)

/-- One access of the running job in a cycle in which its bank serves it, and the cycle of the next (R277): eight reads; the
passes; the writes, the last of which ends the block. -/
def State.encAccess (s : State) (c : Nat) (j : TrellisJob) : State :=
  let ws := j.writes
  if j.access < 7 then s.encNext c { j with access := j.access + 1 } (s.cycle + 1)
  else if j.access = 7 then
    s.encNext c { j with access := 8 } (s.cycle + 1 + 8192 + (if bitOf j.ctl 17 then 16 else 0) + 120 - ws.length)
  else
    let (r0, fl) := j.record (s.coreAt c).sram
    let (off, n) := (ws[j.access - 8]?).getD (0, 0)
    let part := r0 / 2 ^ (8 * (off - (j.dst + j.blocks * trellisBytes j.k))) % 2 ^ (8 * n)
    let s := s.modCore c fun k => (k.sramWrite off n part).fillGrans off n
    if j.access - 7 < ws.length then s.encNext c { j with access := j.access + 1 } (s.cycle + 1)
    else s.encNext c { j with access := 0, blocks := j.blocks + 1, flags := j.flags ||| fl } (s.cycle + 1)

/-- A cycle of an encoder whose job is due: the head of the queue starts, or the running job makes its next access if its bank
serves it; a soft error in the engine's state is fatal (R279). -/
def State.encStep (s : State) (c : Nat) (j : TrellisJob) : State :=
  let k := s.coreAt c
  if k.trellis.soft then
    (s.modCore c fun k => { k with trellis := { k.trellis with soft := false } }).fatalRecord
      { cause := causeFatalUe, flags := 2, source := 7, core := c, ctx := k.ctx, pc := j.pc, addr := localBase + j.src, insn := 0,
        ss := s.ssOf c, cycle := s.cycle, det0 := 0, det1 := 0, bookid := 0 }
  else
    let j := { j with running := true }
    let bank := bankOf (if j.access < 8 then j.src + 512 * j.blocks + 64 * j.access else ((j.writes[j.access - 8]?).getD (0, 0)).1)
    if k.bankUses.any (fun u => u.bank == bank && u.cycle == s.cycle) || k.booked (0x10 + bank) s.tick then s.encNext c j (s.cycle + 1)
    else (s.modCore c fun k => k.useBanks s.cycle 7 [(bank, s.cycle)]).encAccess c j

/-- `tenc_job_start` (R277): every encoder whose head job is due in this cycle; while the core is pre-empted no block starts
(R279). -/
def execTencJobStart : Exec := fun s =>
  .next <| s.eachCore fun s c =>
    match (s.coreAt c).trellis.jobs.head? with
    | some j =>
      if j.blocks < j.n && j.dueAt ≤ s.cycle && !((s.coreAt c).preempt != .none && j.access = 0) then s.encStep c j else s
    | none => s

/-- `tenc_job_complete` (R277): the tiles return to thread, the issuing thread's status is updated, and the next job may start. -/
def execTencJobComplete : Exec := fun s =>
  .next <| s.eachCore fun s c =>
    match (s.coreAt c).trellis.jobs.head? with
    | none => s
    | some j =>
      if j.blocks < j.n || s.cycle < j.dueAt then s
      else
        let s := s.modCore c fun k =>
          let k := k.flip j.tiles 0
          { k with trellis := { k.trellis with jobs := k.trellis.jobs.filter (·.id != j.id) } }
        let s := s.modThr c j.thr fun th =>
          let x := th.trellis.toNat
          { th with trellis := BitVec.ofNat 64 (min (x % 65536 + j.n) 65535 + Nat.lor (x / 65536) j.flags * 65536) }
        if (s.coreAt c).trellis.jobs.isEmpty then s else s.postOnce s.cycle .tencJobStart

end Sys2Proof.Machine
end

