-- ==== Sys2Proof/Machine/Preempt.lean ====
section
/-! DEFINITION. Pre-emption: the stopping of a core's threads, the images of their registers, the saving of the core with its context
and its restoring (R150, R205, R248, R279, R299, R372, R373). -/

namespace Sys2Proof.Machine

/-! ### Bookings and requests of a stopped thread (R205, R211) -/

/-- A core's Almanac without the request of a thread: its list is not looked at, and its commit comes to nothing. -/
def Core.dropRequest (k : Core) (t : Nat) : Core :=
  let a := k.almanac
  let reading := if a.reading.any (·.thr == t) then none else a.reading
  let commit := a.commit.map fun cm => match cm.why with
    | .compact _ => cm
    | _ => if cm.thr == t then { cm with failed := true, attempt := 2, why := .compact [] } else cm
  { k with almanac := { a with reading := reading, commit := commit } }

/-- The bookings of a core that a test picks among those made and not armed are freed (R205). -/
def State.freeMade (s : State) (c : Nat) (p : Booking → Bool) : State :=
  let here := (List.range 16).filter fun i => ((s.coreAt c).booking i).st == .made && p ((s.coreAt c).booking i)
  let s := here.foldl (fun s i => s.dropBooking c i .free) s
  if here.isEmpty then s else s.postOnce (s.cycle + 1) .compaction

/-! ### Stopping the threads (R372) -/

/-- Whether a thread stops now in a pre-emption: it is in user state, and it has not trapped. -/
def Thread.stopsNow (th : Thread) : Bool :=
  !th.priv && (th.st == .run || th.st == .armed || th.st == .booked) && match th.block with
    | .none | .barrier _ _ _ | .seek _ _ _ | .link _ => true
    | .record _ | .ring _ _ _ | .preempt _ _ _ => false

/-- A thread stopped at an instruction boundary: its booking and those it has made are freed, its special functions that have not started
leave the queue (R150), and its task cycle is that of its next instruction (R372). -/
def State.preemptThread (s : State) (c t : Nat) : State :=
  let k := s.coreAt c
  let th := k.thr t
  let at_ := match th.st, th.slot with
    | .armed, some i => (k.booking i).wake
    | _, _ => max th.next s.cycle
  let (kap, lst) := k.taskCycle th at_
  let id := k.bookIdOf th
  let s := (s.endBooking c t).freeMade c (·.maker == t)
  (s.modCore c fun k => { k.dropRequest t with sfu := k.sfu.withdraw t }).modThr c t fun th =>
    { th with st := .run, block := .preempt kap lst id, timer := none, since := none }

/-- Whether a thread is stopped and its registers are not saved yet. -/
def Thread.awaitsImage (th : Thread) : Bool := match th.block with
  | .preempt _ _ _ => true
  | _ => false

/-- Whether no encoding job is in a block or done with its last one (R279). -/
def Core.encodersStill (k : Core) : Bool := k.trellis.jobs.all fun j => j.access = 0 && j.blocks < j.n

/-- Whether the engine work of a core's stopped threads has ended as its class states (R150, R248, R279, R372): matrix commands and
started special functions complete, tile accesses complete, and no encoding block is in progress. -/
def Core.workEnded (k : Core) : Bool :=
  k.encodersStill && (List.range 4).all fun t =>
    !(k.thr t).awaitsImage || (!(k.matrix.cmds.any (·.thr == t)) && !(k.sfu.ops.any fun o => o.thr == t && o.started.isSome)
      && !((k.thr t).outs.any (·.tile)))

/-! ### Save areas (Table 14.6) -/

/-- The mask of the registers of a list that a test picks. -/
def maskOf {α : Type} (p : α → Bool) (l : List α) : Nat :=
  l.zipIdx.foldl (fun (m : Nat) (x : α × Nat) => if p x.1 then m + 2 ^ x.2 else m) 0

/-- Whether a register is full. -/
def RegSt.isFull : RegSt → Bool
  | .full => true
  | _ => false

/-- Whether a register is poisoned. -/
def RegSt.isPoisoned : RegSt → Bool
  | .poisoned _ _ _ => true
  | _ => false

/-- The first 0x960 bytes of a thread's save area (Table 14.6). -/
def Thread.image (th : Thread) : List Byte :=
  let g := (th.g.toList.set 0 (Reg.of 0))
  let v := th.v.toList
  (g.flatMap fun r => leBytes 8 r.val.toNat) ++ (v.flatMap fun r => leBytes 64 r.val.toNat)
    ++ leBytes 8 (maskOf id (th.p.toList.set 0 true))
    ++ leBytes 4 (maskOf (·.st.isFull) g) ++ leBytes 4 (maskOf (·.st.isFull) v)
    ++ leBytes 4 (maskOf (·.st.isPoisoned) g) ++ leBytes 4 (maskOf (·.st.isPoisoned) v)
    ++ leBytes 8 th.fpsr.toNat ++ leBytes 8 th.evpend.toNat ++ leBytes 8 th.vslip.toNat ++ leBytes 8 th.lslip.toNat ++ leBytes 8 th.spbase.toNat
    ++ leBytes 8 (min 64 th.requests) ++ leBytes 8 th.spsize.toNat ++ leBytes 8 th.ovfp.toNat ++ leBytes 8 th.trellis.toNat

/-- A core with the registers of a thread written to its save area. -/
def Core.saveImage (k : Core) (t : Nat) : Core :=
  let base := k.saveArea t
  { k.noteStale base 0x960 with sram := memPut k.sram base (k.thr t).image }

/-- The state of a register that an image gives: full, poisoned with what its refusal left, or empty. A poison bit that software has
set names no refusal, and its record is free. -/
def imageSt (full poison : Bool) (old : RegSt) (free : Nat) : RegSt :=
  if full then .full
  else if poison then match old with
    | .poisoned a r w => .poisoned a r w
    | _ => .poisoned ((Config.freeWord free).toNat % 2 ^ 52) ((Config.freeWord (free + 1)).toNat % 256) ((Config.freeWord (free + 2)).toNat % 2 ^ 18)
  else .empty

/-- A thread with the registers of its save-area image (R373), which hold a first set of events, with those raised meanwhile. -/
def Thread.restored (th : Thread) (k : Core) (t now free : Nat) : Thread :=
  let base := k.saveArea t
  let rd (off n : Nat) : Nat := k.sramRead (base + off) n
  let csr (off mask : Nat) : Word := BitVec.ofNat 64 (stored mask 0 (rd off 8))
  let raised := match th.imaged with
    | some m => th.evpend &&& ~~~m.evpend
    | none => th.evpend
  let g := (List.range 32).foldl (fun (a : Vector (Reg 64) 32) n =>
    if n = 0 then a
    else a.setIfInBounds n ⟨BitVec.ofNat 64 (rd (8 * n) 8),
      imageSt (bitOf (rd 0x908 4) n) (bitOf (rd 0x910 4) n) ((th.g[n]?).getD (Reg.of 0)).st free, now⟩) th.g
  let v := (List.range 32).foldl (fun (a : Vector (Reg 512) 32) n =>
    a.setIfInBounds n ⟨BitVec.ofNat 512 (rd (0x100 + 64 * n) 64),
      imageSt (bitOf (rd 0x90C 4) n) (bitOf (rd 0x914 4) n) (th.vreg n).st free, now⟩) th.v
  { th with
    g := g
    v := v
    p := (List.range 8).foldl (fun (a : Vector Bool 8) n => if n = 0 then a else a.setIfInBounds n (bitOf (rd 0x900 8) n)) th.p
    fpsr := csr 0x918 0x1F3
    evpend := csr 0x920 0x7F ||| raised
    vslip := csr 0x928 0xFFFF
    lslip := csr 0x930 0xFFFF
    spbase := csr 0x938 (ones 19 6)
    spsize := BitVec.ofNat 64 (min 0x100000 (stored (ones 20 6) 0 (rd 0x948 8)))
    ovfp := csr 0x950 (ones 51 6)
    trellis := csr 0x958 (ones 63 0) }

/-! ### Images and records (R372) -/

/-- The encoding jobs of a thread saved: their tiles return to thread, and their remaining blocks wait (R279). -/
def Core.saveJobs (k : Core) (p : TrellisJob → Bool) : Core :=
  let (mine, rest) := k.trellis.jobs.partition p
  let k := mine.foldl (fun k j => k.flip j.tiles 0) k
  { k with trellis := { k.trellis with jobs := rest, saved := k.trellis.saved ++ mine.map fun j => { j with running := false } } }

/-- The registers of a stopped thread saved, and its record made (R372): replayable, at the next instruction. -/
def State.imageThread (s : State) (c t : Nat) : State :=
  match (s.thrAt c t).block with
  | .preempt kap lst id =>
    let s := s.modCore c (·.saveJobs (·.thr == t))
    let th := s.thrAt c t
    let flags := 1 + (if 0 < th.refLost then 4 else 0)
    let s := (s.modCore c (·.saveImage t)).modThr c t fun th =>
      { th with refLost := 0, imaged := some ⟨th.serial, th.evpend, causePreempt + flags * 2 ^ 16⟩ }
    let r : TrapRec := { cause := causePreempt, flags := flags, source := t, core := c, ctx := (s.coreAt c).ctx, pc := th.pc.toNat, addr := 0, insn := 0,
                         ss := s.ssOf c, cycle := s.cycle, det0 := 0, det1 := 0, bookid := id }
    let skip := if th.wskip = some th.pc then 2 ^ 14 else 0
    s.trapToRing c t r ⟨th.pc.toNat + skip, 0, causePreempt + flags * 2 ^ 16, kap, lst⟩
  | _ => s

/-- One cycle of a core that is pre-empted: threads in user state stop; once their engine work has ended, their registers are saved
and they go to the handler; once every handler has ended, the core is saved (R372, R373). -/
def State.preemptStep (s : State) (c : Nat) : State :=
  let k := s.coreAt c
  if !(k.preempt == .stopping || k.preempt == .handlers) || k.stop.isSome then s
  else
    let s := (List.range 4).foldl (fun s t => if (s.thrAt c t).stopsNow then s.preemptThread c t else s) s
    let s := if (s.coreAt c).workEnded then (List.range 4).foldl (fun s t => s.imageThread c t) s else s
    let s := if (s.coreAt c).threads.any fun th => th.awaitsImage then s else s.modCore c fun k => { k with preempt := .handlers }
    if (s.coreAt c).handlersDone then s.postOnce s.cycle (.contextSave c) else s

/-! ### Saving the core and placing the next context (R373) -/

/-- Whether a stream has fills or drains under way. -/
def Stream.inFlight (x : Stream) : Bool :=
  x.failed.isNone && (if x.write then x.drained < x.requested
    else (List.range (x.requested - x.taken)).any fun i => !x.present.any (·.1 == x.taken + i))

/-- Whether a copy has reads or writes under way. -/
def Copy.inFlight (x : Copy) : Bool := x.live && ((x.reads.take x.asked).any (·.2.isNone) || x.performed < x.sent)

/-- Whether nothing that the save must contain is under way on a core: streams are drained and copies complete or parked (R299), engines
and the vault accesses of threads and the engine are done, and the Almanac has no request. -/
def Core.quietToSave (k : Core) : Bool :=
  let parked (ch : Nat) : Bool := k.engine.parks.any (·.chan == ch)
  (k.engine.streams.all fun p => !p.2.inFlight && (parked p.1 || p.2.failed.isSome || p.2.undrained.isEmpty))
    && (k.engine.copies.all fun x => !x.inFlight && (!x.live || parked x.chan))
    && (k.vault.accs.all fun a => a.by_ == .agent || a.by_ == .copy)
    && k.matrix.cmds.isEmpty && k.sfu.ops.isEmpty && k.almanac.commit.isNone && k.almanac.reading.isNone
    && k.encodersStill

/-- The context that follows another on a partition (DESIGN CHOICE, log entry 30): the next of its list, itself where it is alone. -/
def Partition.nextCtx (q : Partition) (ctx : Nat) : Nat :=
  (q.ctxs[(q.ctxs.idxOf ctx + 1) % max 1 q.ctxs.length]?).getD 0

/-- A core as a context finds it when it is placed: fresh threads, with the hardware's own parts of the core as they are (R128, R357,
R374). -/
def Core.fresh (x : Ctx) : Core := { Core.reset with ctx := x.id, tvec := x.tvec }

/-- A context's core put on the hardware of another: the vault, the sensors, the throttle and the requests at the agent stay (R373). -/
def Core.onto (k hw : Core) (ctx : Nat) : Core :=
  { k with
    ctx := ctx
    threads := k.threads.zipWith (fun th old => { th with serial := max th.serial old.serial }) hw.threads
    vault := hw.vault
    bankUses := hw.bankUses
    sensors := hw.sensors
    trips := hw.trips
    stop := hw.stop
    matrix := { k.matrix with throttle := hw.matrix.throttle, throttleNext := hw.matrix.throttleNext }
    almanac := { k.almanac with kept := hw.almanac.kept, busyUntil := hw.almanac.busyUntil, dirty := hw.almanac.dirty }
    agent := { k.agent with queue := hw.agent.queue, retry := hw.agent.retry, lastE1 := hw.agent.lastE1, lastAct := hw.agent.lastAct }
    net := { k.net with accepting := true, replay := none }
    preempt := .none }

/-- A core that runs no context. -/
def Core.bare (hw : Core) : Core := { Core.reset.onto hw 0 with preempt := .saved, net := { NetIf.reset with accepting := false } }

/-- A core kept for a context. -/
def State.putSaved (s : State) (ctx c : Nat) (k : Core) : State :=
  let rest := s.helm.saved.filter fun (x : Nat × Nat × Core) => !(x.1 == ctx && x.2.1 == c)
  { s with helm := { s.helm with saved := rest ++ [(ctx, c, k)] } }

/-- `context_save` (R373): the core is saved with its context, and the next context is placed. -/
def execContextSave (c : Nat) : Exec := fun s =>
  .next <|
    let k := s.coreAt c
    if !(k.handlersDone && k.quietToSave) then s
    else
      let s := s.freeMade c fun _ => true
      let k := (s.coreAt c).saveJobs fun _ => true
      let next := match (s.partOf c).bind s.partAt with
        | some q => q.nextCtx k.ctx
        | none => 0
      let s := s.putSaved k.ctx c k
      ((s.setCore c k.bare).post (s.cycle + 1 + Config.freeDelay s.fresh) (.contextRestore c next)).tickFree

/-- A saved thread that a pre-emption stopped enters the handler again (R373): its registers from the image, hg1, hg6 and hg7 as they
were, and hg5 with bit 24. -/
def Thread.reenter (th : Thread) (k : Core) (t now free : Nat) : Thread :=
  match th.imaged with
  | none => th
  | some m =>
    { th.restored k t now free with
      st := .run
      left := .run
      priv := true
      pc := BitVec.ofNat 14 (bitsOf k.tvec.toNat 13 0)
      block := .none
      next := now + 1
      since := none
      wskip := none
      imaged := none
      hg := (th.hg.setIfInBounds 3 (Reg.of (BitVec.ofNat 64 (localBase + k.saveArea t)))).setIfInBounds 4 (Reg.of (BitVec.ofNat 64 (m.cause + 2 ^ 24))) }

/-- A saved core as it resumes: threads re-enter their handlers, withdrawn special functions and saved encoding jobs re-enter their
queues, and elastic units are requested from now on (R150, R279, R299, R373). -/
def Core.resumed (k : Core) (now free : Nat) : Core :=
  let threads := (k.threads.zipIdx).map fun (th, t) => th.reenter k t now free
  let k := k.trellis.saved.foldl (fun k j => k.flip j.tiles 3) k
  { k with
    threads := threads
    sfu := { k.sfu with ops := k.sfu.ops ++ k.sfu.removed, removed := [] }
    trellis := { k.trellis with
      jobs := k.trellis.jobs ++ (sortBy (fun a b => a.id ≤ b.id) k.trellis.saved).map (fun j => { j with dueAt := now })
      saved := [] }
    engine := { k.engine with streams := k.engine.streams.map fun p =>
      (p.1, { p.2 with requestAt := p.2.requestAt.map fun r => if p.2.present.any (·.1 == r.1) then r else (r.1, now) }) } }

/-- The events that look at the work of a core that starts to run a context. -/
def State.wakeWork (s : State) : State :=
  let now := s.cycle + 1
  ((((s.postOnce now .launchQueueStart).postOnce now .streamEngineOperation).postOnce now .tencJobStart).postOnce now .sfuQueueStart)

/-- A saved core put back, if the core is free and its partition hosts the context. -/
def State.putBack (s : State) (c ctx : Nat) : State :=
  let hosted := ((s.partOf c).bind s.partAt).any fun q => q.ctxs.contains ctx
  match s.helm.saved.find? fun x => x.1 == ctx && x.2.1 == c with
  | none => s
  | some (_, _, k) =>
    if !hosted || (s.coreAt c).ctx != 0 then s
    else
      let s := { s with helm := { s.helm with saved := s.helm.saved.filter fun x => !(x.1 == ctx && x.2.1 == c) } }
      let s := s.setCore c ((k.onto (s.coreAt c) ctx).resumed s.cycle s.fresh)
      let s := s.modCore c fun k => { k with vault := k.vault.wake s.cycle }
      { s with fresh := s.fresh + 3 }.wakeWork

/-- `context_restore` (R373); a core of a stopped partition waits until that resumes. -/
def execContextRestore (c ctx : Nat) : Exec := fun s =>
  .next <|
    if ((s.partOf c).bind s.partAt).any (·.stopped) then s.post (s.cycle + 1) (.contextRestore c ctx)
    else s.putBack c ctx

end Sys2Proof.Machine
end

