-- ==== Sys2Proof/Machine/Replay.lean ====
section
/-! DEFINITION. Replay of one core from its receive log (R383): the delivery of logged arrivals at the logged instruction counts, the
gate that keeps threads behind the next of them, and the end of a replay. -/

namespace Sys2Proof.Machine

/-! ### The gate (R383) -/

/-- Whether an entry is delivered, rather than read by a thread. -/
def LogEntry.arrives (e : LogEntry) : Bool := match e.item with
  | .read _ _ => false
  | _ => true

/-- The count of a thread in an entry. -/
def LogEntry.count (e : LogEntry) (t : Nat) : Nat := (e.counts[t]?).getD 0

/-- The next entry to deliver. -/
def Replay.next (r : Replay) : Option LogEntry := r.log.find? (·.arrives)

/-- Whether a thread of a core in replay may issue: not past the counts of the next arrival, nor past the end of the log or the count
asked for. -/
def Replay.lets (r : Replay) (k : Core) (t : Nat) : Bool :=
  let n := (k.thr t).retired
  (r.stop = 0 || n < r.stop) && match r.next with
    | some e => n < e.count t
    | none => r.stop != 0 || r.log.any fun e => n < e.count t || (match e.item with | .read u _ => u == t | _ => false)

/-- Whether a thread of a core may issue as far as a replay goes. -/
def Core.replayLets (k : Core) (t : Nat) : Bool := k.net.replay.all fun r => r.lets k t

/-- Whether every thread has retired as many instructions as an entry says. -/
def Core.reached (k : Core) (e : LogEntry) : Bool := (List.range 4).all fun t => e.count t ≤ (k.thr t).retired

/-! ### Delivery -/

/-- The state an outcome gives, or another where it gives none. -/
def nextOr (s : State) : Host.Outcome State Fault Refusal → State
  | .next t => t
  | _ => s

/-- A logged request performed by the agent (R383): its bytes at once; nobody is answered. -/
def State.replayRequest (s : State) (c : Nat) (r0 : Req) : State :=
  let r := { r0 with ret := .none }
  let s := s.modCore c fun k => { k with net := { k.net with received := k.net.received + 1 } }
  let counted (s : State) : State := if r.op == ReqOp.get || (match r.op with | .fop _ _ | .cas => true | _ => false) then
      s.modCore c fun k => { k with net := { k.net with sent := k.net.sent + 1 } } else s
  match s.agentPlace c r with
  | .loc off =>
    if r.op == .amsg || r.op == .msend then s.accept c r
    else counted (s.modCore c fun k => (k.agentLocal r off).1)
  | .vault pa =>
    if r.op == .amsg || r.op == .msend then s.accept c r
    else
      let old := memGetN (s.coreAt c).vault.mem pa r.n
      let new := match r.op with
        | .get => old
        | .put => r.x
        | _ => rmwApply r.beatOp r.n old r.x r.e
      counted (s.modCore c fun k => { k with vault := { k.vault with mem := memSetN k.vault.mem pa r.n new } })
  | _ => if r.op == .amsg || r.op == .msend then s.accept c r else s

/-- A reply that came as an OP flit: one that carries data (R20, R302). -/
def Core.opReply (k : Core) : RetPath → Bool
  | .thread _ t rid => (k.thr t).outs.any fun a => a.id == rid / 4 && !a.store && a.det0 = 0
  | .engine _ _ id off => off && id / 2 ^ 48 % 2 = 0
  | _ => false

/-- A logged arrival delivered to a core. -/
def State.deliverArrival (s : State) (c : Nat) (i : Instr) : State :=
  match i with
  | .agentRequestArrival _ r => s.replayRequest c r
  | .replyArrival ret v =>
    let s := if (s.coreAt c).opReply ret then s.modCore c fun k => { k with net := { k.net with received := k.net.received + 1 } } else s
    nextOr s (execReplyArrival ret v s)
  | .refusalArrival ret x => nextOr s (execRefusalArrival ret x s)
  | .signalArrival n x m => nextOr s (execSignalArrival n x m s)
  | .giftArrival th t v g => nextOr s (execGiftArrival th t v g s)
  | .giftAck n => nextOr s (execGiftAck n s)
  | .stealRefusal th a => nextOr s (execStealRefusal th a s)
  | .stealRequest v th t => nextOr s (execStealRequest v th t s)
  | _ => s

/-- A logged item delivered to a core: an arrival, a release with the events of the threads outside it, TERM, an answer of the
helm, or bytes that it wrote. -/
def State.deliverItem (s : State) (c : Nat) : LogItem → State
  | .arrival i => s.deliverArrival c i
  | .release finished global =>
    let outside := (List.range 4).foldl (fun m t => if finished.any (·.1 == t) then m else m + 2 ^ t) 0
    let s := s.modCore c fun k =>
      { k.event outside 2 with net := { k.net with replay := k.net.replay.map fun r => { r with ss := if global then r.ss + 1 else r.ss } } }
    finished.foldl (fun s d =>
      match (s.thrAt c d.1).block with
      | .barrier _ _ _ => s.releaseThread (⟨c % 256, Nat.mod_lt _ (by decide)⟩, ⟨d.1 % 4, Nat.mod_lt _ (by decide)⟩) d.2
      | _ => s) s
  | .term =>
    let s := s.modCore c fun k => (k.modTasks fun x => { x with acked := false }).event 15 8
    (List.range 4).foldl (fun s t => match (s.thrAt c t).block with | .seek d _ _ => s.seekDone c t d (2 ^ 62) | _ => s) s
  | .answer t d x => s.modThr c t fun th => th.setDest d .full x (s.cycle + 1)
  | .wrote true pa bs => s.modCore c (·.putVault pa bs)
  | .wrote false off bs => s.modCore c (·.putLocal off bs)
  | .read _ _ => s

/-- The log with its first entry to deliver taken out. -/
def dropArrival : List LogEntry → List LogEntry
  | [] => []
  | e :: r => if e.arrives then r else e :: dropArrival r

/-- Every entry whose counts the threads have reached, delivered in order. -/
def State.deliverReached (s : State) (c : Nat) : Nat → State
  | 0 => s
  | fuel + 1 =>
    match (s.coreAt c).net.replay with
    | none => s
    | some r => match r.next with
      | none => s
      | some e =>
        if (s.coreAt c).reached e then
          let s := s.modCore c fun k => { k with net := { k.net with replay := some { r with log := dropArrival r.log } } }
          (s.deliverItem c e.item).deliverReached c fuel
        else s

/-! ### The end -/

/-- Whether the next entry waits for an instruction past the count at which its thread stops. -/
def Replay.cutOff (r : Replay) (k : Core) : Bool :=
  r.next.any fun e => r.stop != 0 && (List.range 4).any fun t => (k.thr t).retired < e.count t && r.stop ≤ (k.thr t).retired

/-- Whether a replay has ended: no thread has anything left to do in it. -/
def Replay.ended (r : Replay) (k : Core) : Bool :=
  (List.range 4).all fun t =>
    let th := k.thr t
    th.st == .idle || th.st == .stopped || (r.stop != 0 && r.stop ≤ th.retired) || (!r.lets k t && (r.next.isNone || r.cutOff k))

/-- One cycle of a core in replay; at its end the threads are stopped, and the command completes with the core's stop record. -/
def State.replayStep (s : State) (c : Nat) : State :=
  match (s.coreAt c).net.replay with
  | none => s
  | some r0 =>
    let s := s.deliverReached c (r0.log.length + 1)
    let k := s.coreAt c
    match k.net.replay with
    | none => s
    | some r =>
      if !r.ended k then s
      else
        let rec_ : StopRec := ⟨s.cycle, r.ss, k.net.sent, k.net.received, (List.range 4).map k.stopState⟩
        let s := (List.range 4).foldl (fun s t => s.stopThread c t) s
        let s := s.modCore c fun k => { k with stop := some rec_, net := { k.net with replay := none } }
        s.finish stDone (leBytes 64 rec_.word)

/-- The core of a checkpoint restored for replay (R383): its threads in the states that the stop left. Page walks of the replay read the
tables as they stand (DESIGN CHOICE, log entry 87). -/
def Core.forReplay (k live : Core) (r : Replay) (now : Nat) : Core :=
  { k.onto live live.ctx with
    vault := { k.vault with accs := live.vault.accs, serial := live.vault.serial }
    threads := k.threads.map fun th => if th.st == .stopped then { th with st := th.left, next := now + 1 } else th
    net := { k.net with accepting := live.net.accepting, log := live.net.log, replay := some r } }

/-- `replay` (R383, R391). -/
def execReplay : Exec := fun s =>
  .next <| s.command 0x0A .replay [(0, 3), (8, 8), (16, 4)] fun s p =>
    let ctx := fieldAt p 0 2
    let c := fieldAt p 2 1
    let k := s.coreAt c
    match s.ctxs.find? (·.id == ctx) with
    | none => .refuse stNoCtx
    | some x =>
      if !((s.partOf c).bind s.partAt).any (·.stopped) || k.ctx != ctx then .refuse stState
      else if !x.dbg then .refuse stDenied
      else match s.helm.checkpoints.find? (·.1 == fieldAt p 8 8) with
        | none => .refuse stAccess
        | some (_, ss, cores) => match cores.find? (·.1 == c) with
          | none => .refuse stState
          | some (_, old) =>
            let r : Replay := ⟨k.net.log.drop old.net.log.length, fieldAt p 16 4, ss⟩
            .later ((s.setCore c (old.forReplay k r s.cycle)).wakeWork)

end Sys2Proof.Machine
end

