-- ==== Sys2Proof/Machine/Helm.lean ====
section
/-! DEFINITION. The mailbox commands but REPLAY: contexts and partitions, windows and code images, pre-emption, stops and resume,
checkpoints, attestation, debug reads, migration policy, the journal and poison (R43, R162, R191, R303, R366, R372 to R376,
R381 to R384, R391). -/

namespace Sys2Proof.Machine

/-- Whether a value has no bit outside a mask. -/
def within (mask x : Nat) : Bool := stored mask 0 x == x

/-- The context that a command names, if it exists. -/
def State.ctx? (s : State) (id : Nat) : Option Ctx := s.ctxs.find? (·.id == id)

/-! ### CREATE and DESTROY (R374, R375) -/

/-- The context that CREATE's parameters describe (Table 14.17), or none where they are malformed. -/
def ctxFrom (p : List Byte) : Option Ctx :=
  let id := fieldAt p 0 2
  let q (off : Nat) : Nat := fieldAt p off 8
  let w (mask off : Nat) : Word := BitVec.ofNat 64 (stored mask 0 (q off))
  let ok := id != 0 && fieldAt p 2 1 ≤ 1 && within (ones 39 16) (q 8) && within (ones 51 6) (q 16) && within 31 (q 24) && within (ones 51 6) (q 32)
    && within (ones 39 20 + ones 13 0) (q 40) && within (ones 19 6) (q 48) && within (ones 20 6) (q 56) && within (ones 51 6) (q 64)
    && q 72 % 65536 = 0 && q 80 % 65536 = 0 && q 72 + q 80 ≤ 2 ^ 40 && q 88 % 65536 = 0 && q 96 % 65536 = 0 && q 88 < 2 ^ 52 && q 96 ≤ 2 ^ 52
  if !ok then none
  else some { Ctx.reset id with
    dbg := bitOf (fieldAt p 2 1) 0
    ptbase := w (ones 39 16) 8
    trbase := w (ones 51 6) 16
    trsize := BitVec.ofNat 64 (min 16 (max 4 (q 24)))
    fatalslot := w (ones 51 6) 32
    tvec := BitVec.ofNat 64 (tvecOf (q 40))
    launchSp := (w (ones 19 6) 48, BitVec.ofNat 64 (min 0x100000 (q 56)), w (ones 51 6) 64)
    poolBase := q 72
    poolSize := q 80
    poolFree := (List.range (q 80 / 65536)).map (q 72 / 65536 + ·)
    fiBase := q 88
    fiLim := q 96
    params := p }

/-- `create` (R374): the first context fixes the device id (Table 14.15). How many contexts there is room for is free (log entry 86). -/
def execCreate : Exec := fun s =>
  .next <| s.command 0x01 .create [(0, 3), (8, 96)] fun s p =>
    match ctxFrom p with
    | none => .refuse stMalformed
    | some x =>
      if (s.ctx? x.id).isSome then .refuse stInUse
      else if Config.contextSlots < s.ctxs.length then .refuse stFull
      else .done { s with ctxs := s.ctxs ++ [x], host := { s.host with devidFixed := true } } []

/-- A partition without a context: its threads leave the barrier groups. -/
def Partition.without (q : Partition) (ctx : Nat) : Partition :=
  { q with
    ctxs := q.ctxs.filter (· != ctx)
    bases := q.bases.filter (·.1 != ctx)
    groups := q.groups.map fun g => g.bind fun x =>
      let issued := x.issued.filter (·.ctx != ctx)
      if issued.isEmpty then none else some { x with issued := issued } }

/-- A request at the agent that has been admitted for a context that is gone: refused as at a core that runs none. -/
def AgentReq.orphan (q : AgentReq) : AgentReq := match q.out with
  | none | some (.refuse _) => q
  | _ => { q with out := some (.refuse 12), acc := none }

/-- A core whose context is destroyed. -/
def State.clearCore (s : State) (c : Nat) (other : Bool) : State :=
  s.modCore c fun k =>
    let k := k.bare
    { k with
      vault := { k.vault with accs := k.vault.accs.filter (·.by_ == .copy) }
      agent := { k.agent with queue := k.agent.queue.map (·.orphan), retry := k.agent.retry.map (·.orphan) }
      stop := none
      preempt := if other then .saved else .none }

/-- A context taken off a partition, which is free when it hosts no other. -/
def State.unplace (s : State) (ctx p : Nat) : State :=
  match s.partAt p with
  | none => s
  | some q =>
    if !q.ctxs.contains ctx then s
    else
      let q' := q.without ctx
      let other := !q'.ctxs.isEmpty
      let s := { s with parts := s.parts.setIfInBounds p (if other then some q' else none) }
      q.rect.cores.foldl (fun s c =>
        if (s.coreAt c).ctx != ctx && !(!other && (s.coreAt c).ctx = 0) then s
        else
          let s := s.clearCore c other
          if other then (s.post (s.cycle + 1 + Config.freeDelay s.fresh) (.contextRestore c (q'.ctxs.headD 0))).tickFree else s) s

/-- A context's moves dropped; the one in progress is undone. -/
def State.dropMoves (s : State) (ctx : Nat) : State :=
  let s := match s.helm.moves with
    | m :: _ => if m.moving && m.ctx == ctx then s.undoMove m else s
    | [] => s
  { s with helm := { s.helm with moves := s.helm.moves.filter (·.ctx != ctx) } }

/-- `destroy` (R366, R391): the helm frees the context's partitions. -/
def execDestroy : Exec := fun s =>
  .next <| s.command 0x02 .destroy [(0, 2)] fun s p =>
    let id := fieldAt p 0 2
    if (s.ctx? id).isNone then .refuse stNoCtx
    else
      let s := (List.range 16).foldl (fun s p => s.unplace id p) (s.dropMoves id)
      let saved := s.helm.saved.filter fun (x : Nat × Nat × Core) => x.1 != id
      .done { s with ctxs := s.ctxs.filter (·.id != id), helm := { s.helm with saved := saved } } []

/-! ### PLACE, WINDOW, LOADCODE (R43, R303, R361) -/

/-- Whether two rectangles share a core. -/
def Rect.overlaps (r q : Rect) : Bool := r.x0 ≤ q.x1 && q.x0 ≤ r.x1 && r.y0 ≤ q.y1 && q.y0 ≤ r.y1

/-- A fresh core of a context on a rectangle: the token starts at the ring's first core (R233). -/
def freshIn (x : Ctx) (r : Rect) (c now : Nat) : Core :=
  let k := Core.fresh x
  if c = 16 * r.y0 + r.x0 then k.modTasks fun q => { q with token := true, tokenNew := true, tokenAt := now } else k

/-- A new partition with its first context on every core (R43, R171). -/
def State.placeNew (s : State) (x : Ctx) (p : Nat) (r : Rect) (imb : Word) : State :=
  let q : Partition := ⟨r, [x.id], 0, [], s.cycle, imb, 0, Vector.replicate 8 none, false, false, none⟩
  let s := { s with parts := s.parts.setIfInBounds p (some q) }
  (r.cores.foldl (fun s c =>
    let s := s.modCore c fun hw => { (freshIn x r c s.cycle).onto hw x.id with stop := none }
    s.modCore c fun k => { k with vault := k.vault.wake s.cycle }) s).wakeWork

/-- A further context on a partition: its cores wait, saved, for their turn (R44), and it counts its supersteps from now on (R42). -/
def State.placeNext (s : State) (x : Ctx) (p : Nat) (r : Rect) (imb : Word) : State :=
  let s := s.modPart p fun q => { q with ctxs := q.ctxs ++ [x.id], bases := q.bases ++ [(x.id, q.sscnt)], imbring := imb }
  r.cores.foldl (fun s c => s.putSaved x.id c (freshIn x r c s.cycle)) s

/-- Whether no thread of a context has run on a core. -/
def State.unbegun (s : State) (ctx c : Nat) : Bool := (s.coreOf c ctx).threads.all (·.retired == 0)

/-- A value set for a context at its creation, kept for its report, in the place of an earlier one (R374, R376). -/
def keepValue (n : Nat) (bytes : List Byte) (l : List (Nat × List Byte)) : List (Nat × List Byte) := l.filter (·.1 != n) ++ [(n, bytes)]

/-- IMBRING of a partition set before any thread of the context has run is part of the context's creation (R374; DEDUCED, log entry 65). -/
def State.keepImbring (s : State) (ctx n : Nat) (bytes : List Byte) : State :=
  if (List.range 256).all fun c => !(s.coreOf c ctx).ctx == ctx || s.unbegun ctx c then
    s.modCtx ctx fun x => { x with imbrings := keepValue n bytes x.imbrings }
  else s

/-- `place` (R43, R391): a partition that is taken has status 6 for another rectangle that overlaps none (DEDUCED, log entry 86). -/
def execPlace : Exec := fun s =>
  .next <| s.command 0x03 .place [(0, 3), (4, 2), (8, 8)] fun s p =>
    let n := fieldAt p 2 1
    let r := rectOf (fieldAt p 4 2)
    let imb : Word := BitVec.ofNat 64 (csrStored 0x460 (fieldAt p 8 8))
    if 15 < n then .refuse stMalformed
    else match s.ctx? (fieldAt p 0 2) with
      | none => .refuse stNoCtx
      | some x =>
        let overlaps := (List.range 16).any fun m => (s.partAt m).any fun q => q.rect.overlaps r
        if r.x1 < r.x0 || r.y1 < r.y0 then .refuse stRect
        else match s.partAt n with
          | some q =>
            if q.rect != r then .refuse (if overlaps then stRect else stFull)
            else if q.ctxs.contains x.id then .refuse stState
            else .done ((s.placeNext x n r imb).keepImbring x.id n ((p.drop 8).take 8)) []
          | none =>
            if overlaps then .refuse stRect
            else .done ((s.placeNew x n r imb).keepImbring x.id n ((p.drop 8).take 8)) []

/-- Whether a core runs a context, or is saved for it. -/
def State.onCore (s : State) (c ctx : Nat) : Bool := (s.coreAt c).ctx == ctx || s.helm.saved.any fun x => x.1 == ctx && x.2.1 == c

/-- `window` (R303, R391); one set before any thread of the context has run there is part of its creation (R374). -/
def execWindow : Exec := fun s =>
  .next <| s.command 0x04 .window [(0, 4), (8, 24)] fun s p =>
    let ctx := fieldAt p 0 2
    let c := fieldAt p 2 1
    let i := fieldAt p 3 1
    let w (n off : Nat) : Word := BitVec.ofNat 64 (csrStored n (fieldAt p off 8))
    if 7 < i then .refuse stMalformed
    else if (s.ctx? ctx).isNone then .refuse stNoCtx
    else if !s.onCore c ctx then .refuse stState
    else
      let s' := s.onCtx c ctx fun k => { k with agent := { k.agent with windows := k.agent.windows.setIfInBounds i (w 0x410 8, w 0x418 16, w 0x420 24) } }
      .done (if s.unbegun ctx c then s'.modCtx ctx fun x => { x with windows := keepValue (8 * c + i) ((p.drop 8).take 24) x.windows } else s') []


/-- A code image loaded on one core; one loaded before any thread ran there is part of the context's creation (R376). -/
def State.loadImage (s : State) (ctx c off : Nat) (image : List Byte) : State :=
  let first := s.unbegun ctx c
  let s := s.onCtx c ctx fun k => { k.noteStale off image.length with sram := memPut k.sram off image }
  if first then s.modCtx ctx fun x => { x with images := x.images ++ [(c, image)] } else s

/-- `loadcode` (R361, R391). -/
def execLoadcode : Exec := fun s =>
  .next <| s.command 0x05 .loadcode [(0, 4), (8, 8), (16, 4)] fun s p =>
    let ctx := fieldAt p 0 2
    let n := fieldAt p 2 1
    let handler := fieldAt p 3 1
    let len := fieldAt p 16 4
    if 1 < handler || len % 4 != 0 || (if handler = 1 then 4096 else 61440) < len then .refuse stMalformed
    else if (s.ctx? ctx).isNone then .refuse stNoCtx
    else
      let cores := if n = 0xFF then (List.range 256).filter (s.onCore · ctx) else [n]
      let quiet (c : Nat) : Bool := s.onCore c ctx && (s.coreOf c ctx).threads.all fun th => th.st == .idle || th.st == .stopped
      if cores.isEmpty || !cores.all quiet then .refuse stState
      else if Config.hostFails (fieldAt p 8 8) len then .refuse stAccess
      else
        let image := memTake s.host.mem (fieldAt p 8 8) len
        .done (cores.foldl (fun s c => s.loadImage ctx c (if handler = 1 then 0x10F000 else 0x100000) image) s) []

/-! ### PREEMPT, STOP, RESUME (R366, R372, R381, R382) -/

/-- `preempt` (R372): the core refuses arrivals from now on, and its threads stop. -/
def execPreempt : Exec := fun s =>
  .next <| s.command 0x06 .preempt [(0, 3)] fun s p =>
    let ctx := fieldAt p 0 2
    let c := fieldAt p 2 1
    let k := s.coreAt c
    if (s.ctx? ctx).isNone then .refuse stNoCtx
    else if k.ctx != ctx || k.preempt != .none || ((s.partOf c).bind s.partAt).any (·.stopped) then .refuse stState
    else .done (s.modCore c fun k => { k with preempt := .stopping, net := { k.net with accepting := false } }) []

/-- `stop` (R381, R382). -/
def execStop : Exec := fun s =>
  .next <| s.command 0x07 .stop [(0, 4)] fun s p =>
    let n := fieldAt p 2 1
    let flags := fieldAt p 3 1
    if 15 < n || 1 < flags then .refuse stMalformed
    else match s.ctx? (fieldAt p 0 2) with
      | none => .refuse stNoCtx
      | some x =>
        if !(s.partAt n).any (·.ctxs.contains x.id) then .refuse stState
        else if flags = 0 then .done (s.startStop [n] 1) []
        else if !x.dbg then .refuse stDenied
        else .done (s.modPart n fun q => { q with ssStop := true }) []

/-- Whether a thread waits for nothing but the end of the stop that its own fatal record brought. -/
def Thread.diedHere (th : Thread) : Bool := match th.block with
  | .record a => bitOf a.cause 17 || a.cause % 65536 = causeFatalUe
  | _ => false

/-- A stopped thread in the state it left (R25); one that a pre-emption stopped stays for its save (R373). -/
def Thread.restart (th : Thread) (now : Nat) : Thread :=
  if th.st == .stopped && th.imaged.isNone then
    { th with st := th.left, next := max th.next (now + 1), block := if th.diedHere then .none else th.block }
  else th

/-- The threads of a partition restarted in one cycle (R382); the start tick of an armed one may have gone by. -/
def State.restartPart (s : State) (p : Nat) : State :=
  match s.partAt p with
  | none => s
  | some q =>
    let s := q.rect.cores.foldl (fun s c => s.modCore c fun k => { k with threads := k.threads.map (·.restart s.cycle), stop := none }) s
    (s.modPart p fun q => { q with stopped := false, stopReason := none }).postOnce (s.cycle + 1) .bookingStart

/-- The thread whose own trap made the fatal record enters the handler (R366). -/
def State.resumeFatal (s : State) (ctx : Nat) : State :=
  match (s.ctxOf ctx).fatalBy with
  | none => s
  | some (c, t, a) =>
    let s := s.modCtx ctx fun x => { x with fatalBy := none }
    if (s.coreAt c).ctx != ctx then s else s.enterHandler c t a

/-- CTXSTAT.STOP of every context as its partitions stand. -/
def State.markStops (s : State) : State :=
  s.ctxs.foldl (fun s x => s.modCtx x.id fun y => { y with stopped := (s.partsOf x.id).any fun p => (s.partAt p).any (·.stopped) }) s

/-- `resume` (R366, R382). -/
def execResume : Exec := fun s =>
  .next <| s.command 0x08 .resume [(0, 4)] fun s p =>
    let n := fieldAt p 2 1
    let clear := fieldAt p 3 1 = 1
    if 15 < n || 1 < fieldAt p 3 1 then .refuse stMalformed
    else match s.ctx? (fieldAt p 0 2), s.partAt n with
      | none, _ => .refuse stNoCtx
      | some _, none => .refuse stState
      | some x, some q =>
        let fatal := q.ctxs.any fun id => (s.ctxOf id).fatal && !(clear && id == x.id)
        if !q.stopped || !q.ctxs.contains x.id || fatal then .refuse stState
        else
          let parts := if clear then s.partsOf x.id else [n]
          let s := parts.foldl (fun s p => s.restartPart p) s
          let s := if clear then (s.modCtx x.id fun x => { x with fatal := false }).resumeFatal x.id else s
          .done (s.markStops.postOnce (s.cycle + 1) .launchQueueStart) []

/-! ### CHECKPOINT (R383) -/

/-- Bytes that the spec does not give. -/
def freeBytes (free n : Nat) : List Byte := (List.range n).map fun i => BitVec.ofNat 8 (Config.freeWord (free + i)).toNat

/-- A checkpoint's bytes sent to another device through a Bumen port, as OP flits of 64 bytes from the helm's router (R20, R21, R391). -/
def State.sendBulk (s : State) (port dev addr : Nat) (bytes : List Byte) : State :=
  (List.range ((bytes.length + 63) / 64)).foldl (fun s i =>
    s.inject (s.cycle + 1 + i) 8 0 ⟨.openOp, 8, helmThr, .bumen port, .bulk dev (addr + 64 * i) ((bytes.drop (64 * i)).take 64)⟩) s

/-- `checkpoint` (R383, R391): the cores of a partition stopped at a superstep are kept under the address; in what bytes they are
written there, and how many, the spec does not say. -/
def execCheckpoint : Exec := fun s =>
  .next <| s.command 0x09 .checkpoint [(0, 4), (8, 10)] fun s p =>
    let n := fieldAt p 2 1
    let host := fieldAt p 3 1
    let addr := fieldAt p 8 8
    let dev := fieldAt p 16 2
    if 15 < n || 1 < host || 1023 < dev || (host = 1 && dev != 0) then .refuse stMalformed
    else match s.ctx? (fieldAt p 0 2), s.partAt n with
      | none, _ => .refuse stNoCtx
      | some _, none => .refuse stState
      | some x, some q =>
        if !q.ctxs.contains x.id || !q.stopped || !q.stopReason.any (·.1 == 3) then .refuse stState
        else if host = 0 && (s.portTo dev).isNone then .refuse stAccess
        else if host = 1 && Config.hostFails addr (Config.freeWord s.fresh).toNat then .refuse stAccess
        else
          let size := (Config.freeWord s.fresh).toNat
          let bytes := freeBytes (s.fresh + 1) size
          let cores := q.rect.cores.map fun c => (c, s.coreAt c)
          let kept := s.helm.checkpoints.filter fun (x : Nat × Nat × List (Nat × Core)) => x.1 != addr
          let s := { s with helm := { s.helm with checkpoints := kept ++ [(addr, q.ssOf x.id, cores)] }, fresh := s.fresh + size + 1 }
          let s := if host = 1 then { s with host := { s.host with mem := memPut s.host.mem addr bytes } }
            else s.sendBulk ((s.portTo dev).getD 0) dev addr bytes
          .done s (leBytes 8 size)

/-! ### ATTEST, DEBUGREAD (R376, R377, R384) -/

/-- `attest` (R376, R391). -/
def execAttest : Exec := fun s =>
  .next <| s.command 0x0B .attest [(0, 2), (8, 40)] fun s p =>
    match s.ctx? (fieldAt p 0 2) with
    | none => .refuse stNoCtx
    | some x =>
      let report := s.attestation x ((p.drop 8).take 32)
      if Config.hostFails (fieldAt p 40 8) 256 then .refuse stAccess
      else .done { s with host := { s.host with mem := memPut s.host.mem (fieldAt p 40 8) report } } []

/-- The parts of a debug read of a range of one page at a place: 64-byte blocks. -/
def debugBlocks (vault : Option Nat) : Nat → Nat → Nat → List DebugPart
  | 0, _, _ => []
  | fuel + 1, pa, n =>
    if n = 0 then []
    else
      let m := min n (64 - pa % 64)
      ⟨vault, pa, m, none⟩ :: debugBlocks vault fuel (pa + m) (n - m)

/-- The parts of a debug read; none where a byte of it cannot be read. -/
def State.debugParts (s : State) (ctx va n : Nat) : Option (List DebugPart) :=
  let part (x : Nat × Nat × Nat) : Option (List DebugPart) :=
    let home (v : Nat) : Option (List DebugPart) := match s.translate v ctx x.1 true false with
      | .vault pa => some (debugBlocks (some v) 5 pa x.2.2)
      | _ => none
    match s.translate 0 ctx x.1 true false with
    | .vault _ => home 0
    | .foreign v => home v
    | .offstack pa => some [⟨none, pa, x.2.2, some (some (memGetN s.offstack pa x.2.2))⟩]
    | _ => none
  ((blocksOf va n).mapM part).map List.flatten

/-- A debug read begun (Table 14.10): vaults in retention leave it, which closes their rows, and each part in a vault is asked of its agent. -/
def State.startDebug (s : State) (ctx : Nat) (parts : List DebugPart) : State :=
  let asleep := ((parts.filterMap (·.vault)).eraseDups).filter fun v => (s.coreAt v).vault.power == .retention
  let s := asleep.foldl (fun s v => s.modCore v fun k => { k with vault := k.vault.wake s.cycle }) s
  let s := { s with host := { s.host with debug := parts, asleep := asleep } }
  (parts.zipIdx).foldl (fun s p => match p.1.vault with
    | some v => s.askDebug ctx v p.1.pa p.1.n p.2
    | none => s) s

/-- A debug read ended: retention is restored where no context has been placed meanwhile (Table 14.10). -/
def State.endDebug (s : State) : State :=
  let s := s.host.asleep.foldl (fun s v =>
    if (s.coreAt v).ctx != 0 then s else s.modCore v fun k => { k with vault := { k.vault with power := .retention } }) s
  { s with host := { s.host with debug := [], asleep := [] } }

/-- What the parts of a debug read come to once all have been answered: the bytes, or none where a part was refused. -/
def debugResult (parts : List DebugPart) : Option (List Byte) :=
  (parts.mapM fun (p : DebugPart) => (p.data.getD none).map (leBytes p.n)).map List.flatten

/-- `debugread` (R377, R384, R391): begun, and completed when every part has been answered; a page in migration is read when its move has
ended. -/
def execDebugread : Exec := fun s =>
  .next <| s.command 0x0C .debugread [(0, 2), (8, 10)] fun s p =>
    let va := fieldAt p 8 8
    let n := fieldAt p 16 2
    let finish (s : State) : CmdOut :=
      if (s.host.debug).any (·.data.isNone) then .later s
      else match debugResult s.host.debug with
        | some bytes => .done s.endDebug bytes
        | none => .fail s.endDebug stAccess
    if !(s.host.debug).isEmpty then finish s
    else if n = 0 || 240 < n || 2 ^ 52 ≤ va || isLocal va then .refuse stMalformed
    else match s.ctx? (fieldAt p 0 2) with
      | none => .refuse stNoCtx
      | some x =>
        if !x.dbg then .refuse stDenied
        else if (blocksOf va n).any fun b => s.translate 0 x.id b.1 true false == .moving then .later (s.postOnce (s.cycle + 1) .debugread)
        else match s.debugParts x.id va n with
          | none => .refuse stAccess
          | some parts => finish (s.startDebug x.id parts)

/-! ### POLICY, JOURNAL, CLEARPOISON (R162, R191) -/

/-- `policy` (R191). -/
def execPolicy : Exec := fun s =>
  .next <| s.command 0x0D .policy [(0, 1), (8, 12)] fun s p =>
    let flags := fieldAt p 0 1
    let epoch := fieldAt p 8 8
    if 3 < flags || epoch % 4096 != 0 then .refuse stMalformed
    else .done { s with helm := { s.helm with policy := ⟨bitOf flags 0, bitOf flags 1, epoch, fieldAt p 16 2, fieldAt p 18 2⟩ } } []

/-- The 64 bytes in which a journal entry is copied (DESIGN CHOICE, log entry 31): its record, and free bytes where it holds none. -/
def JournalRec.copied (free : Nat) (r : JournalRec) : List Byte := (r.bytes ++ freeBytes free (64 - r.bytes.length)).take 64

/-- `journal` (R391). -/
def execJournal : Exec := fun s =>
  .next <| s.command 0x0E .journal [(8, 16)] fun s p =>
    let first := fieldAt p 20 4
    let n := min (fieldAt p 16 4 / 64) (s.helm.journal.length - first)
    let bytes := (((s.helm.journal.drop first).take n).zipIdx).flatMap fun (e, i) => e.copied (s.fresh + 64 * i)
    if Config.hostFails (fieldAt p 8 8) bytes.length then .refuse stAccess
    else .done { s with host := { s.host with mem := memPut s.host.mem (fieldAt p 8 8) bytes }, fresh := s.fresh + 64 * n } (leBytes 4 n ++ leBytes 4 (first + n))

/-- `clearpoison` (R162). -/
def execClearpoison : Exec := fun s =>
  .next <| s.command 0x0F .clearpoison [(8, 10)] fun s p =>
    let pa := fieldAt p 8 8
    let flags := fieldAt p 16 1
    let v := fieldAt p 17 1
    let off := flags = 1
    if 1 < flags || pa % 65536 != 0 || (if off then 2 ^ 40 else 2 ^ 31) ≤ pa then .refuse stMalformed
    else if off then .done { s with offPoisoned := s.offPoisoned.filter (· != pa / 65536) } []
    else .done (s.modCore v fun k => { k with vault := { k.vault with poisoned := k.vault.poisoned.filter (· != pa / 65536) } }) []

end Sys2Proof.Machine
end

