-- ==== Sys2Proof/Machine/HostIo.lean ====
section
/-! DEFINITION. The host windows and the power-up: BAR2 launch records, BAR4 accesses, BAR0 registers, the completion ring's
consumer, the boot ROM and the firmware's start, the MSI-X limit, and the helm's takeover (R313, R366, R388 to R395). -/

namespace Sys2Proof.Machine

/-! ### BAR2 launches (R313, R388) -/

/-- Whether a launch record is malformed (Table 11.3, reason 14). -/
def badLaunch (r : List Byte) : Bool :=
  let w := fieldAt r 0 8
  2 ^ 34 ≤ w || bitsOf w 15 14 != 0 || bitsOf w 33 24 != 0x3FF || fieldAt r 26 2 != 0

/-- The sender number of the host interface at router (7, 0). -/
def hostThr : Nat := 8

/-- A launch record journalled and turned into an active message at router (7, 0), or answered with reason 14 (R313). -/
def State.launchRecord (s : State) (r : List Byte) : State :=
  let w := fieldAt r 0 8
  let ctx := fieldAt r 24 2
  let tag := fieldAt r 28 4
  let n := bitsOf w 23 16
  let s := s.journal journalBar2 ctx n tag 0 r
  if badLaunch r then s.complete ⟨tag, 1, 14, ctx, 0, s.ssOf n, n, 255, s.cycle⟩
  else
    let q : Req := ⟨.host ctx tag, ctx, 7, hostThr, .core n, .amsg, w % 2 ^ 14, 4, fieldAt r 8 16, 0⟩
    let at_ := s.mesh.foldl (fun t m => if m.node == 7 && m.inp == 0 && !m.here then max t (m.at_ + 1) else t) (s.cycle + 1)
    s.inject at_ 7 0 ⟨.openOp, 7, hostThr, .core n, .request q⟩

/-- `bar2_launch_record` (R313, R388): an aligned write of 32 bytes; others are discarded. While a takeover is in progress the record
is pending (R394). -/
def execBar2LaunchRecord (off : Nat) (bytes : List Byte) : Exec := fun s =>
  .next <|
    if !s.host.running || bytes.length != 32 || off % 32 != 0 || 4096 ≤ off then s
    else if s.helm.role == .takeover then { s with helm := { s.helm with pending := s.helm.pending ++ [(off, bytes)] } }
    else s.launchRecord bytes

/-! ### BAR4 (R388) -/

/-- `bar4_access` (R388): off-stack bytes written, or read for the host, which sees the bytes of the number that is kept. -/
def execBar4Access (write : Bool) (off : Nat) (bytes : List Byte) : Exec := fun s =>
  .next <|
    let pa := s.host.b4base + off
    if 2 ^ 30 < off + bytes.length then s
    else if write then { s with offstack := memPut s.offstack pa bytes }
    else { s with host := { s.host with bar4 := s.host.bar4 ++ [(off, memGetN s.offstack pa bytes.length)] } }

/-! ### BAR0 registers (R390, Table 14.15) -/

/-- The register at an offset as the host reads it, as a little-endian number of its bytes; write-only and unlisted offsets read 0 (R12, R390). -/
def State.bar0Reg (s : State) (off : Nat) : Nat :=
  let h := s.host
  if off = 0x108 then (if h.running && h.busy.isNone then 1 else 0) + (if h.busy.isSome then 2 ^ 8 else 0) + h.lastStatus % 256 * 2 ^ 16
    + h.lastSeq % 2 ^ 32 * 2 ^ 32
  else if off = 0x400 then h.crbase
  else if off = 0x408 then h.crctl
  else if off = 0x410 then h.crprod
  else if off = 0x418 then h.crcons
  else if off = 0x500 then h.bootstat % 256 + (match s.helm.role with | .primary => 0 | .takeover => 1 | .standby => 2) * 2 ^ 8
  else if off = 0x508 then h.fwaddr
  else if off = 0x510 then h.fwlen
  else if off = 0x620 then h.devid
  else if off = 0x628 then h.b4base
  else 0

/-- A byte of BAR0 as the host reads it (R390, Table 14.15). -/
def State.bar0Byte (s : State) (off : Nat) : Byte :=
  if 0x200 ≤ off && off < 0x300 then (s.host.mbxresp[off - 0x200]?).getD 0
  else if 0x600 ≤ off && off < 0x620 then (s.host.devkey[off - 0x600]?).getD 0
  else BitVec.ofNat 8 (s.bar0Reg (off / 8 * 8) / 2 ^ (8 * (off % 8)))

/-- What the host reads of n bytes of BAR0; a read changes nothing (R390). -/
def State.bar0Read (s : State) (off n : Nat) : List Byte := (List.range n).map fun i => s.bar0Byte (off + i)

/-- A register at an offset after a write of bytes at another, which may cover part of it. -/
def mergeReg (old reg off : Nat) (bytes : List Byte) : Nat :=
  leNat ((leBytes 8 old).zipIdx.map fun (b, i) => if off ≤ reg + i then (bytes[reg + i - off]?).getD b else b)

/-- Whether a write reaches a register. -/
def reaches (reg off n : Nat) : Bool := off < reg + 8 && reg < off + n

/-- BOOTSTAT's low byte changed, with MSI-X vector 2 (R390). -/
def HostIf.boot (h : HostIf) (x : Nat) : HostIf := { h with bootstat := x }.signalMsix 2

/-- `crcons_write` (R392): slots are free, and held records are written. -/
def execCrconsWrite (v : Nat) : Exec := fun s => .next { s with host := { s.host with crcons := v % 2 ^ 32 } }.drainCompletions

/-- `fwlen_write` (R390, R395): while the boot ROM waits, it reads the image and verifies it. -/
def execFwlenWrite (v : Nat) : Exec := fun s =>
  .next <|
    let h := { s.host with fwlen := v % 2 ^ 64 }
    if s.host.bootstat % 256 != 0 then { s with host := h }
    else
      let h := { h with image := memTake h.mem h.fwaddr h.fwlen }.boot 1
      (({ s with host := h }).post (s.cycle + 1 + Config.freeDelay s.fresh) .firmwareStart).tickFree

/-- The RW registers without their own rows after a write (Table 14.15); DEVID only before the first context is created. -/
def HostIf.write (h : HostIf) (off : Nat) (bytes : List Byte) : HostIf :=
  let m (old reg mask : Nat) : Nat := if reaches reg off bytes.length then stored64 mask (mergeReg old reg off bytes) else old
  { h with
    mbxcmd := (padTo 256 h.mbxcmd).zipIdx.map fun (b, i) => if off ≤ i then (bytes[i - off]?).getD b else b
    crbase := m h.crbase 0x400 0xFFFFFFFFFFFFF000
    crctl := m h.crctl 0x408 0x11F
    fwaddr := m h.fwaddr 0x508 0xFFFFFFFFFFFFFFFF
    devid := if h.devidFixed then h.devid else m h.devid 0x620 0x3FF
    b4base := m h.b4base 0x628 0xFFC0000000 }
where
  /-- The bits of a value that a mask keeps. -/
  stored64 (mask x : Nat) : Nat := (BitVec.ofNat 64 x &&& BitVec.ofNat 64 mask).toNat

/-- `host_register_write` (R390, R391): MBXCMD, the doorbell and the other registers; offsets not listed ignore it. -/
def execHostRegisterWrite (off : Nat) (bytes : List Byte) : Exec := fun s =>
  .next <|
    let s := { s with host := s.host.write off bytes }
    let s := if off = 0x100 && 4 ≤ bytes.length then s.doorbell (leNat (bytes.take 4)) else s
    s.drainCompletions

/-- `msix_vector_1_signal` (R392). -/
def execMsixVector1Signal : Exec := fun s =>
  .next { s with host := { s.host.signalMsix 1 with lastMsix1 := some s.cycle } }

/-! ### Power-up (R395) -/

/-- `power_up` (R395): every SRAM and register takes its reset value, and the boot ROM waits for an image. Host memory, the DRAM's
contents and the device's key are not the device's registers; what DRAM holds after a loss of power is as log entry 3 names. -/
def execPowerUp : Exec := fun s =>
  .next { State.reset with
    host := { HostIf.reset with mem := s.host.mem, devkey := s.host.devkey, msix := s.host.msix }
    inputs := s.inputs
    fresh := s.fresh }

/-- The spare lanes that the lane tests assign, from number 0 on (R175, R395; which lanes are faulty is free, log entry 86). -/
def spareLanes (faulty : List Nat) : List (Nat × Nat) := ((faulty.filter (· < 4608)).eraseDups.take 64).zipIdx

/-- A core's vault as the firmware finds it and brings it up: its DRAM, the faults of its cells, and the lanes replaced (R395). -/
def Vault.broughtUp (c : Nat) (v : Vault) : Vault :=
  { Vault.reset with mem := v.mem, badWords := v.badWords, weakWords := v.weakWords, lanesRepaired := spareLanes (Config.laneTests c) }

/-- The device brought up by the firmware (R395): SRAM and registers at their reset values, the links trained, and the mailbox ready. -/
def State.bringUp (s : State) : State :=
  { State.reset with
    cycle := s.cycle
    cores := Vector.ofFn fun (c : Fin 256) => { Core.reset with vault := (s.coreAt c.val).vault.broughtUp c.val }
    offstack := s.offstack
    ports := Vector.ofFn fun (p : Fin 20) => { Bumen.reset with trained := true, combining := Config.freePick (s.fresh + p.val) }
    reachable := Config.reachable
    host := { s.host with devkey := edPublic Config.deviceKey }.boot 2
    inputs := s.inputs
    fresh := s.fresh + 20 }

/-- `firmware_start` (R395): a verified image runs; one that fails is not run, and BOOTSTAT says why. -/
def execFirmwareStart : Exec := fun s =>
  .next <|
    if s.host.bootstat % 256 != 1 then s
    else
      let v := Config.imageVerdict s.host.image
      if v = 3 || v = 4 then { s with host := s.host.boot v } else s.bringUp

/-! ### Takeover (R394) -/

/-- `helm_takeover` (R366, R394): FATAL_IMEM goes to the journal and the standby takes over; once it has replayed the journal it
journals and launches each pending record once, and held completions are written. -/
def execHelmTakeover : Exec := fun s =>
  .next <|
    match s.helm.role with
    | .primary =>
      let s := s.journal journalImem 0 0 0x20 0 []
      (({ s with helm := { s.helm with role := .takeover }, host := s.host.signalMsix 2 }).post (s.cycle + 1 + Config.freeDelay s.fresh)
        .helmTakeover).tickFree
    | .takeover =>
      let waiting := s.helm.pending
      let s := { s with helm := { s.helm with pending := [] } }
      let s := waiting.foldl (fun s r => s.launchRecord r.2) s
      ({ s with helm := { s.helm with role := .standby }, host := s.host.signalMsix 2 }).drainCompletions
    | .standby => s.journal journalImem 0 0 0x20 0 []

end Sys2Proof.Machine
end

