-- ==== Sys2Proof/Machine/Scalar.lean ====
section
/-! DEFINITION. The scalar class but for its memory accesses: integer arithmetic, pointer operations, predicates, moves and
control transfer (R109 to R121). -/

namespace Sys2Proof.Machine

/-! ### Shapes of the scalar instructions -/

/-- A predicated two-source operation: it costs and takes what Table 4.1 gives (R111, R113). -/
def alu2 (f : Word → Word → Word) (lat cost : Nat) (d a b : GReg) (ea eb : Bool) (q : Pred) : Act Done :=
  predicated q (scalarOp [.rg a ea, .rg b eb] d (fun s => f (s.readG a) (s.readG b)) lat cost)

/-- A predicated one-source operation (R111, R113). -/
def alu1 (f : Word → Word) (d a : GReg) (ea : Bool) (q : Pred) : Act Done :=
  predicated q (scalarOp [.rg a ea] d (fun s => f (s.readG a)) 1 1)

/-- An I-format operation (R112). -/
def immOp (f : Word → Word) (d a : GReg) : Act Done := scalarOp [.rg a false] d (fun s => f (s.readG a)) 1 1

/-- A compare into a predicate (R116). -/
def cmp2 (f : Word → Word → Bool) (d : PReg) (a b : GReg) (ea eb : Bool) (q : Pred) : Act Done :=
  predicated q do
    let s ← operands [.rg a ea, .rg b eb]
    change fun s' => s'.writeP d.toNat (f (s.readG a) (s.readG b))
    done 1

/-- A logic operation on predicates (R116). -/
def predOp (f : Bool → Bool → Bool) (d a b : PReg) (q : Pred) : Act Done :=
  predicated q do
    change fun s => s.writeP d.toNat (f (s.readP a.toNat) (s.readP b.toNat))
    done 1

/-! ### Functions of Tables 4.2 to 4.4 -/

/-- 1 or 0. -/
def wordOf (b : Bool) : Word := if b then 1 else 0

/-- `div` (Table 4.2): −1 for a zero divisor, else the quotient truncated toward zero. -/
def divS (a b : Int) : Int := if b = 0 then -1 else a.tdiv b
/-- `divu` (Table 4.2). -/
def divU (a b : Nat) : Nat := if b = 0 then 2 ^ 64 - 1 else a / b
/-- `rem` (Table 4.2). -/
def remS (a b : Int) : Int := if b = 0 then a else a - b * a.tdiv b
/-- `remu` (Table 4.2). -/
def remU (a b : Nat) : Nat := if b = 0 then a else a - b * (a / b)

/-- Leading zero bits of a w-bit number. -/
def leadingZeros (w x : Nat) : Nat := if x = 0 then w else w - 1 - x.log2

/-- Trailing zero bits of a w-bit number. -/
def trailingZeros : Nat → Nat → Nat
  | 0, _ => 0
  | w + 1, x => if x % 2 = 1 then 0 else 1 + trailingZeros w (x / 2)

/-- One bits of a w-bit number. -/
def onesOf : Nat → Nat → Nat
  | 0, _ => 0
  | w + 1, x => x % 2 + onesOf w (x / 2)

/-- A pointer with its VA replaced modulo 2^52, its tag kept (R113, R115). -/
def withVa (a : Word) (va : Nat) : Word := BitVec.ofNat 64 (a.toNat / 2 ^ 52 * 2 ^ 52 + va % 2 ^ 52)

/-- A word with 16 bits replaced (`lui`, `luh`, `lut`). -/
def withHalf (lo : Nat) (x : BitVec 16) (a : Word) : Word :=
  BitVec.ofNat 64 (a.toNat / 2 ^ (lo + 16) * 2 ^ (lo + 16) + x.toNat * 2 ^ lo + a.toNat % 2 ^ lo)

/-- Whether a format code is assigned (Table 1.6). -/
def fmtAssigned (f : Nat) : Bool := f ≤ 8 || (0x10 ≤ f && f ≤ 0x14) || f == 0x20 || f == 0x21 || (0x30 ≤ f && f ≤ 0x32)

/-- Whether a fat pointer's tag is valid (R39, R114). -/
def tagValid (f glog : Nat) : Bool := fmtAssigned f && ((f != 0x20 && f != 0x21) || (5 ≤ glog && glog ≤ 7))

/-! ### Register-register integer operations -/

/-- `add` (R111, Table 4.2). -/
def execAdd (d a b : GReg) (ea eb : Bool) (q : Pred) : Exec :=
  runThread (alu2 (fun a b => a + b) 1 1 d a b ea eb q)

/-- `sub` (R111, Table 4.2). -/
def execSub (d a b : GReg) (ea eb : Bool) (q : Pred) : Exec :=
  runThread (alu2 (fun a b => a - b) 1 1 d a b ea eb q)

/-- `and` (R111, Table 4.2). -/
def execAnd (d a b : GReg) (ea eb : Bool) (q : Pred) : Exec :=
  runThread (alu2 (fun a b => a &&& b) 1 1 d a b ea eb q)

/-- `or` (R111, Table 4.2). -/
def execOr (d a b : GReg) (ea eb : Bool) (q : Pred) : Exec :=
  runThread (alu2 (fun a b => a ||| b) 1 1 d a b ea eb q)

/-- `xor` (R111, Table 4.2). -/
def execXor (d a b : GReg) (ea eb : Bool) (q : Pred) : Exec :=
  runThread (alu2 (fun a b => a ^^^ b) 1 1 d a b ea eb q)

/-- `andn` (R111, Table 4.2). -/
def execAndn (d a b : GReg) (ea eb : Bool) (q : Pred) : Exec :=
  runThread (alu2 (fun a b => a &&& ~~~b) 1 1 d a b ea eb q)

/-- `sll` (R111, Table 4.2). -/
def execSll (d a b : GReg) (ea eb : Bool) (q : Pred) : Exec :=
  runThread (alu2 (fun a b => a <<< (b.toNat % 64)) 1 1 d a b ea eb q)

/-- `srl` (R111, Table 4.2). -/
def execSrl (d a b : GReg) (ea eb : Bool) (q : Pred) : Exec :=
  runThread (alu2 (fun a b => a >>> (b.toNat % 64)) 1 1 d a b ea eb q)

/-- `sra` (R111, Table 4.2). -/
def execSra (d a b : GReg) (ea eb : Bool) (q : Pred) : Exec :=
  runThread (alu2 (fun a b => a.sshiftRight (b.toNat % 64)) 1 1 d a b ea eb q)

/-- `min` (R111, Table 4.2). -/
def execMin (d a b : GReg) (ea eb : Bool) (q : Pred) : Exec :=
  runThread (alu2 (fun a b => if a.toInt < b.toInt then a else b) 1 1 d a b ea eb q)

/-- `max` (R111, Table 4.2). -/
def execMax (d a b : GReg) (ea eb : Bool) (q : Pred) : Exec :=
  runThread (alu2 (fun a b => if b.toInt < a.toInt then a else b) 1 1 d a b ea eb q)

/-- `minu` (R111, Table 4.2). -/
def execMinu (d a b : GReg) (ea eb : Bool) (q : Pred) : Exec :=
  runThread (alu2 (fun a b => if a.toNat < b.toNat then a else b) 1 1 d a b ea eb q)

/-- `maxu` (R111, Table 4.2). -/
def execMaxu (d a b : GReg) (ea eb : Bool) (q : Pred) : Exec :=
  runThread (alu2 (fun a b => if b.toNat < a.toNat then a else b) 1 1 d a b ea eb q)

/-- `slt` (R111, Table 4.2). -/
def execSlt (d a b : GReg) (ea eb : Bool) (q : Pred) : Exec :=
  runThread (alu2 (fun a b => wordOf (decide (a.toInt < b.toInt))) 1 1 d a b ea eb q)

/-- `sltu` (R111, Table 4.2). -/
def execSltu (d a b : GReg) (ea eb : Bool) (q : Pred) : Exec :=
  runThread (alu2 (fun a b => wordOf (decide (a.toNat < b.toNat))) 1 1 d a b ea eb q)

/-- `seq` (R111, Table 4.2). -/
def execSeq (d a b : GReg) (ea eb : Bool) (q : Pred) : Exec :=
  runThread (alu2 (fun a b => wordOf (a == b)) 1 1 d a b ea eb q)

/-- `mul` (R111, Table 4.2). -/
def execMul (d a b : GReg) (ea eb : Bool) (q : Pred) : Exec :=
  runThread (alu2 (fun a b => a * b) 3 1 d a b ea eb q)

/-- `mulh` (R111, Table 4.2). -/
def execMulh (d a b : GReg) (ea eb : Bool) (q : Pred) : Exec :=
  runThread (alu2 (fun a b => BitVec.ofInt 64 (a.toInt * b.toInt / 2 ^ 64)) 3 1 d a b ea eb q)

/-- `mulhu` (R111, Table 4.2). -/
def execMulhu (d a b : GReg) (ea eb : Bool) (q : Pred) : Exec :=
  runThread (alu2 (fun a b => BitVec.ofNat 64 (a.toNat * b.toNat / 2 ^ 64)) 3 1 d a b ea eb q)

/-- `div` (R111, Table 4.2). -/
def execDiv (d a b : GReg) (ea eb : Bool) (q : Pred) : Exec :=
  runThread (alu2 (fun a b => BitVec.ofInt 64 (divS a.toInt b.toInt)) 18 18 d a b ea eb q)

/-- `divu` (R111, Table 4.2). -/
def execDivu (d a b : GReg) (ea eb : Bool) (q : Pred) : Exec :=
  runThread (alu2 (fun a b => BitVec.ofNat 64 (divU a.toNat b.toNat)) 18 18 d a b ea eb q)

/-- `rem` (R111, Table 4.2). -/
def execRem (d a b : GReg) (ea eb : Bool) (q : Pred) : Exec :=
  runThread (alu2 (fun a b => BitVec.ofInt 64 (remS a.toInt b.toInt)) 18 18 d a b ea eb q)

/-- `remu` (R111, Table 4.2). -/
def execRemu (d a b : GReg) (ea eb : Bool) (q : Pred) : Exec :=
  runThread (alu2 (fun a b => BitVec.ofNat 64 (remU a.toNat b.toNat)) 18 18 d a b ea eb q)

/-- `clz` (R111, Table 4.2). -/
def execClz (d a : GReg) (ea : Bool) (q : Pred) : Exec :=
  runThread (alu1 (fun a => BitVec.ofNat 64 (leadingZeros 64 a.toNat)) d a ea q)

/-- `ctz` (R111, Table 4.2). -/
def execCtz (d a : GReg) (ea : Bool) (q : Pred) : Exec :=
  runThread (alu1 (fun a => BitVec.ofNat 64 (trailingZeros 64 a.toNat)) d a ea q)

/-- `popc` (R111, Table 4.2). -/
def execPopc (d a : GReg) (ea : Bool) (q : Pred) : Exec :=
  runThread (alu1 (fun a => BitVec.ofNat 64 (onesOf 64 a.toNat)) d a ea q)

/-- `sext` (R111, Table 4.2). -/
def execSext (d a : GReg) (w : ExtWidth) (ea : Bool) (q : Pred) : Exec :=
  runThread (alu1 (fun a => BitVec.ofInt 64 (signedOf w.bits a.toNat)) d a ea q)

/-- `zext` (R111, Table 4.2). -/
def execZext (d a : GReg) (w : ExtWidth) (ea : Bool) (q : Pred) : Exec :=
  runThread (alu1 (fun a => BitVec.ofNat 64 (a.toNat % 2 ^ w.bits)) d a ea q)

/-! ### Pointer operations -/

/-- `addp` (R113, Table 4.4). -/
def execAddp (d a b : GReg) (ea eb : Bool) (q : Pred) : Exec :=
  runThread (alu2 (fun a b => withVa a (a.toNat % 2 ^ 52 + b.toNat)) 1 1 d a b ea eb q)

/-- `subp` (R113, Table 4.4). -/
def execSubp (d a b : GReg) (ea eb : Bool) (q : Pred) : Exec :=
  runThread (alu2 (fun a b => withVa a (a.toNat % 2 ^ 52 + (2 ^ 64 - b.toNat))) 1 1 d a b ea eb q)

/-- `ptag` (R113, Table 4.4). -/
def execPtag (d a b : GReg) (ea eb : Bool) (q : Pred) : Exec :=
  runThread (alu2 (fun a b => BitVec.ofNat 64 (b.toNat % 2 ^ 8 * 2 ^ 56 + bitsOf b.toNat 11 8 * 2 ^ 52 + a.toNat % 2 ^ 52)) 1 1 d a b ea eb q)

/-- `gtag` (R113, Table 4.4). -/
def execGtag (d a : GReg) (ea : Bool) (q : Pred) : Exec :=
  runThread (alu1 (fun a => BitVec.ofNat 64 (bitsOf a.toNat 63 56 + bitsOf a.toNat 55 52 * 256)) d a ea q)

/-- `pva` (R113, Table 4.4). -/
def execPva (d a : GReg) (ea : Bool) (q : Pred) : Exec :=
  runThread (alu1 (fun a => BitVec.ofNat 64 (a.toNat % 2 ^ 52)) d a ea q)

/-- `pchk` (R114): what its registers stop on, the destination among them, comes before PTAG (DESIGN CHOICE, log entry 76). -/
def execPchk (d a : GReg) (ea : Bool) (q : Pred) : Exec :=
  runThread <| predicated q do
    let s ← operands [.rg a ea, .wg d]
    let x := s.readG a
    let f := bitsOf x.toNat 63 56
    let glog := bitsOf x.toNat 55 52
    if tagValid f glog then
      change fun s' => s'.writeG d x 1
      done 1
    else fault { cause := causePtag, addr := x.toNat % 2 ^ 52, det0 := f, det1 := glog }

/-! ### Predicates -/

/-- `ceq` (R116). -/
def execCeq (d : PReg) (a b : GReg) (ea eb : Bool) (q : Pred) : Exec :=
  runThread (cmp2 (fun a b => a == b) d a b ea eb q)

/-- `cne` (R116). -/
def execCne (d : PReg) (a b : GReg) (ea eb : Bool) (q : Pred) : Exec :=
  runThread (cmp2 (fun a b => a != b) d a b ea eb q)

/-- `clt` (R116). -/
def execClt (d : PReg) (a b : GReg) (ea eb : Bool) (q : Pred) : Exec :=
  runThread (cmp2 (fun a b => decide (a.toInt < b.toInt)) d a b ea eb q)

/-- `cltu` (R116). -/
def execCltu (d : PReg) (a b : GReg) (ea eb : Bool) (q : Pred) : Exec :=
  runThread (cmp2 (fun a b => decide (a.toNat < b.toNat)) d a b ea eb q)

/-- `cge` (R116). -/
def execCge (d : PReg) (a b : GReg) (ea eb : Bool) (q : Pred) : Exec :=
  runThread (cmp2 (fun a b => decide (b.toInt ≤ a.toInt)) d a b ea eb q)

/-- `cgeu` (R116). -/
def execCgeu (d : PReg) (a b : GReg) (ea eb : Bool) (q : Pred) : Exec :=
  runThread (cmp2 (fun a b => decide (b.toNat ≤ a.toNat)) d a b ea eb q)

/-- `pand` (R116). -/
def execPand (d a b : PReg) (q : Pred) : Exec :=
  runThread (predOp (fun a b => a && b) d a b q)

/-- `por` (R116). -/
def execPor (d a b : PReg) (q : Pred) : Exec :=
  runThread (predOp (fun a b => a || b) d a b q)

/-- `pxor` (R116). -/
def execPxor (d a b : PReg) (q : Pred) : Exec :=
  runThread (predOp (fun a b => a != b) d a b q)

/-- `pandn` (R116). -/
def execPandn (d a b : PReg) (q : Pred) : Exec :=
  runThread (predOp (fun a b => a && !b) d a b q)

/-- `cmpi` (R117). -/
def execCmpi (r : Rel) (d : PReg) (a : GReg) (imm : BitVec 16) : Exec :=
  runThread do
    let s ← operands [.rg a false]
    let x := s.readG a
    let c := match r with
      | .eq => x == imm.signExtend 64
      | .lt => decide (x.toInt < imm.toInt)
      | .ltu => decide (x.toNat < imm.toNat)
      | .ne => x != imm.signExtend 64
    change fun s' => s'.writeP d.toNat c
    done 1

/-! ### Moves -/

/-- `mov` (R118). -/
def execMov (d a : GReg) (ea : Bool) (q : Pred) : Exec := runThread (alu1 (fun a => a) d a ea q)

/-- `p2g` (R118). -/
def execP2g (d : GReg) (a : PReg) (q : Pred) : Exec :=
  runThread (predicated q (scalarOp [] d (fun s => wordOf (s.readP a.toNat)) 1 1))

/-- `g2p` (R118). -/
def execG2p (d : PReg) (a : GReg) (ea : Bool) (q : Pred) : Exec :=
  runThread <| predicated q do
    let s ← operands [.rg a ea]
    change fun s' => s'.writeP d.toNat (s.readG a != 0)
    done 1

/-! ### Immediate arithmetic, shifts and constants -/

/-- `addi` (R112, Table 4.3). -/
def execAddi (d a : GReg) (imm : BitVec 16) : Exec :=
  runThread (immOp (fun a => a + imm.signExtend 64) d a)

/-- `andi` (R112, Table 4.3). -/
def execAndi (d a : GReg) (imm : BitVec 16) : Exec :=
  runThread (immOp (fun a => a &&& imm.setWidth 64) d a)

/-- `ori` (R112, Table 4.3). -/
def execOri (d a : GReg) (imm : BitVec 16) : Exec :=
  runThread (immOp (fun a => a ||| imm.setWidth 64) d a)

/-- `xori` (R112, Table 4.3). -/
def execXori (d a : GReg) (imm : BitVec 16) : Exec :=
  runThread (immOp (fun a => a ^^^ imm.setWidth 64) d a)

/-- `slli` (R112, Table 4.3). -/
def execSlli (d a : GReg) (amt : BitVec 6) : Exec :=
  runThread (immOp (fun a => a <<< amt.toNat) d a)

/-- `srli` (R112, Table 4.3). -/
def execSrli (d a : GReg) (amt : BitVec 6) : Exec :=
  runThread (immOp (fun a => a >>> amt.toNat) d a)

/-- `srai` (R112, Table 4.3). -/
def execSrai (d a : GReg) (amt : BitVec 6) : Exec :=
  runThread (immOp (fun a => a.sshiftRight amt.toNat) d a)

/-- `li` (R112, Table 4.3). -/
def execLi (d : GReg) (imm : BitVec 16) : Exec :=
  runThread (scalarOp [] d (fun _ => imm.signExtend 64) 1 1)

/-- `lui` (R112, Table 4.3). -/
def execLui (d a : GReg) (imm : BitVec 16) : Exec :=
  runThread (immOp (fun a => withHalf 16 imm a) d a)

/-- `luh` (R112, Table 4.3). -/
def execLuh (d a : GReg) (imm : BitVec 16) : Exec :=
  runThread (immOp (fun a => withHalf 32 imm a) d a)

/-- `lut` (R112, Table 4.3). -/
def execLut (d a : GReg) (imm : BitVec 16) : Exec :=
  runThread (immOp (fun a => withHalf 48 imm a) d a)

/-! ### Control transfer -/

/-- `br` (R119). -/
def execBr (q : Pred) (off : BitVec 22) : Exec :=
  runThread <| predicated q do branchTo 2 ((← get).th.pc + off.setWidth 14)

/-- `call` (R119): it writes g1 and branches. -/
def execCall (q : Pred) (off : BitVec 22) : Exec :=
  runThread <| predicated q do
    let s ← operands [.wg 1]
    change fun s' => s'.writeG 1 ((s.th.pc + 1).setWidth 64) 1
    branchTo 2 (s.th.pc + off.setWidth 14)

/-- `jr` (R120). -/
def execJr (a : GReg) (ea : Bool) (q : Pred) : Exec :=
  runThread <| predicated q do
    let s ← operands [.rg a ea]
    branchTo 2 ((s.readG a).setWidth 14)

/-- `dbnz` (R121). -/
def execDbnz (d : GReg) (off : BitVec 16) : Exec :=
  runThread do
    let s ← operands [.rg d false, .wg d]
    let c := s.readG d - 1
    change fun s' => s'.writeG d c 1
    if c = 0 then done 1 else branchTo 2 (s.th.pc + off.setWidth 14)

end Sys2Proof.Machine
end

