-- ==== Sys2Proof/Machine/SfuMath.lean ====
section
/-! DEFINITION. The functions of the special-function unit on f32 (R148, Table 5.8): exact roots and quotients, and bounds of the
transcendental functions in fixed point, fine enough to decide the rounding. -/

namespace Sys2Proof.Machine

/-! ### Square roots and quotients -/

/-- The integer square root by binary digits: the digits below 2^i that remain. -/
def isqrtFrom (n : Nat) : Nat → Nat → Nat
  | 0, r => r
  | i + 1, r => isqrtFrom n i (if (r + 2 ^ i) * (r + 2 ^ i) ≤ n then r + 2 ^ i else r)

/-- The integer square root. -/
def isqrt (n : Nat) : Nat := isqrtFrom n (n.log2 / 2 + 1) 0

/-- √(m × 2^e) for m > 0. -/
def sqrtMag (m : Nat) (e : Int) : Mag :=
  let sh := 128 + (e % 2).toNat
  let r := isqrt (m * 2 ^ sh)
  ⟨r, (e - sh) / 2, r * r != m * 2 ^ sh⟩

/-- 1 / √(m × 2^e) for m > 0. -/
def rsqrtMag (m : Nat) (e : Int) : Mag :=
  let m' := m * 2 ^ (e % 2).toNat
  let h := (e - e % 2) / 2
  let r := isqrt (2 ^ 160 / m')
  ⟨r, -80 - h, r * r * m' != 2 ^ 160⟩

/-! ### Fixed point: numbers in units of 2^−640 -/

/-- The fraction bits of the fixed-point numbers. -/
def fxBits : Nat := 640
/-- One. -/
def fxOne : Nat := 2 ^ fxBits
/-- A bound on the error of every function below, in units. -/
def fxErr : Nat := 2 ^ 24

/-- Product. -/
def fxMul (a b : Nat) : Nat := a * b / fxOne

/-- Σ z^(2k+1) / (2k+1) from a term on, with z² (atanh). -/
def fxAtanhFrom (z2 : Nat) : Nat → Nat → Nat → Nat
  | 0, _, _ => 0
  | fuel + 1, k, term => term / (2 * k + 1) + fxAtanhFrom z2 fuel (k + 1) (fxMul term z2)

/-- ln 2 = 2 atanh (1/3). -/
def fxLn2 : Nat := 2 * fxAtanhFrom (fxOne / 9) 256 0 (fxOne / 3)

/-- ln of a number of [1, 2) given in units: 2 atanh ((m − 1) / (m + 1)). -/
def fxLn (m : Nat) : Nat :=
  let z := (m - fxOne) * fxOne / (m + fxOne)
  2 * fxAtanhFrom (fxMul z z) 256 0 z

/-- Σ term of the exponential series from index k on. -/
def fxExpFrom (x : Nat) : Nat → Nat → Nat → Nat
  | 0, _, _ => 0
  | fuel + 1, k, term => term + fxExpFrom x fuel (k + 1) (fxMul term x / (k + 1))

/-- exp of a number of [0, 1) given in units. -/
def fxExp (x : Nat) : Nat := fxExpFrom x 160 0 fxOne

/-- Σ (−1)^k x^(2k) / … from a term on: sine from k = 1, cosine from k = 0. -/
def fxTrigFrom (x2 : Nat) : Nat → Nat → Nat → Int
  | 0, _, _ => 0
  | fuel + 1, k, term => term - fxTrigFrom x2 fuel (k + 2) (fxMul term x2 / ((k + 1) * (k + 2)))

/-- arctan (1/n) by its series. -/
def fxArctanInv (n : Nat) : Nat → Nat → Nat → Int
  | 0, _, _ => 0
  | fuel + 1, k, term => (term / (2 * k + 1) : Nat) - fxArctanInv n fuel (k + 1) (term / (n * n))

/-- π = 16 arctan (1/5) − 4 arctan (1/239). -/
def fxPi : Nat := (16 * fxArctanInv 5 160 0 (fxOne / 5) - 4 * fxArctanInv 239 60 0 (fxOne / 239)).toNat

/-- sin of a number of [0, 2) given in units. -/
def fxSin (x : Nat) : Nat := (fxTrigFrom (fxMul x x) 160 1 x).toNat
/-- cos of a number of [0, 2) given in units. -/
def fxCos (x : Nat) : Nat := (fxTrigFrom (fxMul x x) 160 0 fxOne).toNat

/-! ### The functions of Table 5.8 -/

/-- A result of magnitude within fxErr of a fixed-point value, not itself representable, rounded in RNE; free where the bound
does not decide the rounding (R148). -/
def fxRound (code a : Nat) (neg : Bool) (x : Nat) : Nat × Nat :=
  let f := ElemTy.f32.ffmt
  let lo := f.round .rne false neg ⟨x - fxErr, -fxBits, true⟩
  let hi := f.round .rne false neg ⟨x + fxErr - 1, -fxBits, true⟩
  if lo == hi then lo else ((Config.sfuRounded code a 0) % 2 ^ 32, flagNX)

/-- The encodings of f32's special results. -/
def sfuNan (fl : Nat) : Nat × Nat := (0x7FC00000, fl)
/-- A signed infinity. -/
def sfuInf (neg : Bool) (fl : Nat) : Nat × Nat := ((if neg then 0xFF800000 else 0x7F800000), fl)
/-- A signed zero. -/
def sfuZero (neg : Bool) : Nat × Nat := ((if neg then 0x80000000 else 0), 0)

/-- 2^a for |a| ≤ 1/2 (Table 5.8). -/
def sfuExp2 (a : Nat) (neg : Bool) (m : Nat) (e : Int) : Nat × Nat :=
  let x := m * 2 ^ (e + fxBits).toNat
  if m = 0 then (0x3F800000, 0)
  else if e > 0 || fxOne < 2 * x then sfuNan flagNV
  else
    let y := fxExp (fxMul x fxLn2)
    fxRound 4 a false (if neg then fxOne * fxOne / y else y)

/-- log2 of a positive number (Table 5.8). -/
def sfuLog2 (a m : Nat) (e : Int) : Nat × Nat :=
  let k : Int := e + m.log2
  let unit := m * 2 ^ (fxBits - m.log2)
  if unit = fxOne then ElemTy.f32.ffmt.roundVal .rne false (.ofInt k)
  else
    let v : Int := k * (fxOne : Nat) + (fxLn unit * fxOne / fxLn2 : Nat)
    fxRound 5 a (v < 0) v.natAbs

/-- A number reduced modulo 2, in units; the exponent of an f32 is at least −149. -/
def fxMod2 (m : Nat) (e : Int) : Nat := m * 2 ^ (e + fxBits).toNat % (2 * fxOne)

/-- sin(πa) (Table 5.8). -/
def sfuSinpi (a : Nat) (neg : Bool) (m : Nat) (e : Int) : Nat × Nat :=
  let x := fxMod2 m e
  if x % fxOne = 0 then sfuZero neg
  else
    let sgn := neg != (fxOne < x)
    let y := x % fxOne
    let y := if fxOne < 2 * y then fxOne - y else y
    if 2 * y = fxOne then ((if sgn then 0xBF800000 else 0x3F800000), 0)
    else fxRound 6 a sgn (fxSin (fxMul y fxPi))

/-- cos(πa) (Table 5.8). -/
def sfuCospi (a m : Nat) (e : Int) : Nat × Nat :=
  let x := fxMod2 m e
  let x := if fxOne < x then 2 * fxOne - x else x
  if 2 * x = fxOne then (0, 0)
  else if x = 0 then (0x3F800000, 0)
  else if x = fxOne then (0xBF800000, 0)
  else if fxOne < 2 * x then fxRound 7 a true (fxCos (fxMul (fxOne - x) fxPi))
  else fxRound 7 a false (fxCos (fxMul x fxPi))

/-- tanh a (Table 5.8): (1 − u) / (1 + u) with u = exp (−2|a|). -/
def sfuTanh (a : Nat) (neg : Bool) (m : Nat) (e : Int) : Nat × Nat :=
  if m = 0 then sfuZero neg
  else if 512 ≤ m * 2 ^ e.toNat / 2 ^ (-e).toNat then ElemTy.f32.ffmt.round .rne false neg ⟨fxOne - 1, -fxBits, true⟩
  else
    let x := 2 * (m * 2 ^ (e + fxBits).toNat)
    let n := x / fxLn2
    let u := fxOne * fxOne / fxExp (x % fxLn2) / 2 ^ n
    fxRound 8 a neg ((fxOne - u) * fxOne / (fxOne + u))

/-- One lane of a function of the special-function unit (R148, Table 5.8): the first four round in the mode read at issue, the
others in RNE. -/
def sfuLane (fn : SfuFn) (rm : Rnd) (a b : Nat) : Nat × Nat :=
  let f := ElemTy.f32.ffmt
  let x := f.value a
  let y := f.value b
  if x.isNan || (fn == .div && y.isNan) then sfuNan (sigFlag (if fn == .div then [x, y] else [x]))
  else
    match fn, x with
    | .rcp, .inf neg => sfuZero neg
    | .rcp, .fin neg m e => if m = 0 then sfuInf neg flagDZ else f.round rm false neg (divMag 1 m 64 (-e))
    | .rsqrt, .inf neg => if neg then sfuNan flagNV else sfuZero false
    | .rsqrt, .fin neg m e =>
      if m = 0 then sfuInf neg flagDZ else if neg then sfuNan flagNV else f.round rm false false (rsqrtMag m e)
    | .sqrt, .inf neg => if neg then sfuNan flagNV else sfuInf false 0
    | .sqrt, .fin neg m e =>
      if m = 0 then sfuZero neg else if neg then sfuNan flagNV else f.round rm false false (sqrtMag m e)
    | .div, .inf p => match y with
      | .inf _ => sfuNan flagNV
      | .fin q _ _ => sfuInf (p != q) 0
      | .nan _ => sfuNan 0
    | .div, .fin p m e => match y with
      | .inf q => sfuZero (p != q)
      | .fin q n g =>
        if n = 0 then (if m = 0 then sfuNan flagNV else sfuInf (p != q) flagDZ)
        else if m = 0 then sfuZero (p != q)
        else f.round rm false (p != q) (divMag m n 64 (e - g))
      | .nan _ => sfuNan 0
    | .exp2, .inf _ => sfuNan flagNV
    | .exp2, .fin neg m e => sfuExp2 a neg m e
    | .log2, .inf neg => if neg then sfuNan flagNV else sfuInf false 0
    | .log2, .fin neg m e => if m = 0 then sfuInf true flagDZ else if neg then sfuNan flagNV else sfuLog2 a m e
    | .sinpi, .fin neg m e => sfuSinpi a neg m e
    | .cospi, .fin _ m e => sfuCospi a m e
    | .sinpi, .inf _ | .cospi, .inf _ => sfuNan flagNV
    | .tanh, .inf neg => ((if neg then 0xBF800000 else 0x3F800000), 0)
    | .tanh, .fin neg m e => sfuTanh a neg m e
    | _, .nan _ => sfuNan 0

/-- L of Table 5.8. -/
def sfuLat : SfuFn → Nat
  | .sqrt | .div => 20
  | _ => 12

end Sys2Proof.Machine
end

