-- ==== Sys2Proof/Machine/Sfu.lean ====
section
/-! DEFINITION. The special-function unit's instructions, its queue and its result writes (R148 to R151). -/

namespace Sys2Proof.Machine

/-- The lanes of a result with their flags (R148). -/
def SfuOp.result (o : SfuOp) : Nat × Nat :=
  mapLanes 32 (16 * o.regs) fun i => sfuLane o.fn (rndOf o.rm) (laneOf o.a 32 i) (laneOf o.b 32 i)

/-- The Almanac code of the special-function unit (Table 2.11). -/
def codeSfu : Nat := 0x02

/-- The ticks that g cycles from c touch. -/
def ticksOf (c g : Nat) : List Nat := (List.range ((c + g - 1) / 8 - c / 8 + 1)).map (c / 8 + ·)

/-- An instruction of the unit (R149): booked, it starts at once with a fixed latency; open, it marks VD empty and enters the
queue, which holds 8 entries. -/
def sfuIssue (fn : SfuFn) (d a : VReg) (b : Option VReg) (w : Grp) : Act Done := do
  let g := w.regs
  let s ← operands (.rv a g :: (match b with | some b => [.rv b g] | none => []) ++ [.wv d g])
  let o : SfuOp :=
    { id := s.me.sfu.serial, thr := s.ct, fn := fn, d := d.toNat, regs := g, a := s.readV a g,
      b := match b with | some b => s.readV b g | none => 0, rm := s.th.fpsr.toNat % 4, booked := s.th.st == .booked, started := none, units := [] }
  if s.th.st == .booked then
    orStop ((ticksOf s.cycle g).findSome? fun t => s.resourceStop codeSfu t)
    change fun s => (s.modMe fun k => { k with sfu := { k.sfu with
      ops := k.sfu.ops ++ [{ o with started := some s.cycle }], serial := k.sfu.serial + 1, busyUntil := max k.sfu.busyUntil (s.cycle + g) } }).postOnce
        (s.cycle + g + sfuLat fn) .sfuResultWrite
    change fun s => s.writeV d g o.result.1 (g + sfuLat fn)
    done g
  else
    if 8 ≤ (s.me.sfu.ops.filter (·.started.isNone)).length then stall
    change fun s =>
      let (s, units) := s.reserve (.v d.toNat g)
      ((s.modMe fun k => { k with sfu := { k.sfu with ops := k.sfu.ops ++ [{ o with units := units }], serial := k.sfu.serial + 1 } }).markEmptyBut
        units (.v d.toNat g)).postOnce s.cycle .sfuQueueStart
    done g

/-- `vrcp` (R148). -/
def execVrcp (d a : VReg) (w : Grp) : Exec := runThread (sfuIssue .rcp d a none w)
/-- `vrsqrt` (R148). -/
def execVrsqrt (d a : VReg) (w : Grp) : Exec := runThread (sfuIssue .rsqrt d a none w)
/-- `vsqrt` (R148). -/
def execVsqrt (d a : VReg) (w : Grp) : Exec := runThread (sfuIssue .sqrt d a none w)
/-- `vdiv` (R148). -/
def execVdiv (d a b : VReg) (w : Grp) : Exec := runThread (sfuIssue .div d a (some b) w)
/-- `vfexp2` (R148). -/
def execVfexp2 (d a : VReg) (w : Grp) : Exec := runThread (sfuIssue .exp2 d a none w)
/-- `vlog2` (R148). -/
def execVlog2 (d a : VReg) (w : Grp) : Exec := runThread (sfuIssue .log2 d a none w)
/-- `vsinpi` (R148). -/
def execVsinpi (d a : VReg) (w : Grp) : Exec := runThread (sfuIssue .sinpi d a none w)
/-- `vcospi` (R148). -/
def execVcospi (d a : VReg) (w : Grp) : Exec := runThread (sfuIssue .cospi d a none w)
/-- `vtanh` (R148). -/
def execVtanh (d a : VReg) (w : Grp) : Exec := runThread (sfuIssue .tanh d a none w)

/-- The head of a core's queue starts if the unit is idle and no booking holds a tick of its cycles (R149). -/
def State.sfuHead (s : State) (c : Nat) : State :=
  let k := s.coreAt c
  match k.sfu.ops.find? (·.started.isNone) with
  | none => s
  | some o =>
    if s.cycle < k.sfu.busyUntil || (ticksOf s.cycle o.regs).any fun t => k.booked codeSfu t then s
    else (s.modCore c fun k => { k with sfu := { k.sfu with
        ops := k.sfu.ops.map fun x => if x.id == o.id then { x with started := some s.cycle } else x, busyUntil := s.cycle + o.regs } }).postOnce
        (s.cycle + o.regs + sfuLat o.fn) .sfuResultWrite

/-- `sfu_queue_start` (R149): the head of every queue; while entries wait the units look again in the next cycle. -/
def execSfuQueueStart : Exec := fun s =>
  .next <| s.eachCore fun s c =>
    if !(s.coreAt c).sfu.ops.any (·.started.isNone) then s
    else
      let s := s.sfuHead c
      if (s.coreAt c).sfu.ops.any (·.started.isNone) then s.postOnce (s.cycle + 1) .sfuQueueStart else s

/-- The cycle in which an operation's result is written (R149). -/
def SfuOp.endAt (o : SfuOp) : Option Nat := o.started.map fun c => c + o.regs + sfuLat o.fn

/-- A result written: an open one fills VD; the flags are ORed into the thread's FPSR (R96, R149). -/
def State.sfuWrite (s : State) (c : Nat) (o : SfuOp) : State :=
  let r := o.result
  let s := s.modCore c fun k => { k with sfu := { k.sfu with ops := k.sfu.ops.filter (·.id != o.id) } }
  let s := s.modThr c o.thr fun th => { th with fpsr := th.fpsr ||| BitVec.ofNat 64 r.2 }
  if o.booked then s else s.giveDest c o.thr o.units (.v o.d o.regs) r.1 0

/-- `sfu_result_write` (R149): the results due in this cycle. -/
def execSfuResultWrite : Exec := fun s =>
  .next <| s.eachCore fun s c =>
    ((s.coreAt c).sfu.ops.filter fun o => o.endAt.any fun e => e ≤ s.cycle).foldl (fun s o => s.sfuWrite c o) s

end Sys2Proof.Machine
end

