-- ==== Sys2Proof/Machine/Thermal.lean ====
section
/-! DEFINITION. Thermal sensing: the vote of the sensors, throttle levels, and the trip (R169, R385 to R387). -/

namespace Sys2Proof.Machine

/-- Degrees in sixteenths (Table 14.1). -/
def degrees (n : Nat) : Int := 16 * n

/-- The mesh neighbours of a core (R18). -/
def neighboursOf (c : Nat) : List Nat :=
  (if 16 ≤ c then [c - 16] else []) ++ (if c % 16 < 15 then [c + 1] else []) ++ (if c < 240 then [c + 16] else []) ++ (if 0 < c % 16 then [c - 1] else [])

/-- What the sensors of a core read at a sample; a column of which nothing is known reads free values. -/
def State.readingOf (s : State) (rs : List SensorReading) (c : Nat) : SensorReading :=
  (rs.find? (·.core == c)).getD
    (let free (i : Nat) : Int := signedOf 16 (Config.freeWord (s.fresh + 3 * c + i)).toNat
     ⟨c, free 0, free 1, free 2⟩)

/-- The temperature of a layer's sensor. -/
def layerTemp (r : SensorReading) (i : Nat) : Int := if i = 0 then r.logic else if i = 1 then r.dram6 else r.dram12

/-- The value at index ⌊k ÷ 2⌋ of k values in ascending order (R385). -/
def medianOf (xs : List Int) : Int :=
  let ys := sortBy (fun a b => decide (a ≤ b)) xs
  (ys[ys.length / 2]?).getD 0

/-- The sensor of a layer after the vote (R385): its count of consecutive samples off the median, and the mark at the third. -/
def State.vote (s : State) (read : Nat → Int) (i c : Nat) : Sensor :=
  let x := (s.coreAt c).sensor i
  let near := (neighboursOf c).filter fun n => !((s.coreAt n).sensor i).fail
  let off := (read c - medianOf (read c :: near.map read)).natAbs
  let overs := if 96 < off then x.overs + 1 else 0
  { x with overs := overs, fail := x.fail || 3 ≤ overs }

/-- What a sensor reads once the marks stand (R385): its own value, or where it has failed, the hottest unfailed neighbour of its layer
and 4 °C more; 105 °C or 95 °C where there is none. -/
def State.substitute (s : State) (read : Nat → Int) (i c : Nat) : Sensor :=
  let x := (s.coreAt c).sensor i
  if !x.fail then { x with temp := read c, subst := false }
  else
    let near := ((neighboursOf c).filter fun n => !((s.coreAt n).sensor i).fail).map read
    let t := match near with
      | [] => if i = 0 then degrees 105 else degrees 95
      | a :: r => r.foldl max a + degrees 4
    { x with temp := t, subst := true }

/-- Every sensor of every core given by a function of layer and core. -/
def State.setSensors (s : State) (f : Nat → Nat → Sensor) : State :=
  s.eachCore fun t c => t.modCore c fun k => { k with sensors := #v[f 0 c, f 1 c, f 2 c] }

/-- Whether a core enters the advisory or the emergency level (Table 14.11). -/
def Core.enters (k : Core) (level : Nat) : Bool :=
  let l := (k.sensor 0).temp
  let d := k.dramTemp
  if level = 1 then degrees 97 ≤ l || degrees 90 ≤ d else degrees 102 ≤ l || degrees 93 ≤ d

/-- Whether a core leaves the advisory or the emergency level for the level below (Table 14.11). -/
def Core.leaves (k : Core) (level : Nat) : Bool :=
  let l := (k.sensor 0).temp
  let d := k.dramTemp
  if level = 1 then l ≤ degrees 94 && d ≤ degrees 88 else l ≤ degrees 99 && d ≤ degrees 91

/-- The level that a sample gives (R386). -/
def Core.judgeLevel (k : Core) : Nat → Nat
  | 0 => if k.enters 2 then 2 else if k.enters 1 then 1 else 0
  | n + 1 =>
    if k.enters 2 && n + 1 < 2 then 2
    else if k.leaves (n + 1) then k.judgeLevel n
    else n + 1

/-- Whether a sample of a core is above a trip limit (R387). -/
def Core.tooHot (k : Core) : Bool := degrees 105 < (k.sensor 0).temp || degrees 95 < k.dramTemp

/-- The trip (R387): every partition's halt tree, the journal, and the request to remove power. -/
def State.trip (s : State) : State :=
  let s := s.startStop ((List.range 16).filter fun p => (s.partAt p).isSome) 4
  let s := s.journal journalTrip 0 0 0 0 []
  { s with offAt := some (s.offAt.getD (s.cycle + 1 + Config.freeDelay s.fresh)) }.tickFree

/-- `thermal_sample` (R385 to R387): in a cycle with CYCLE mod 8,500 = 0. -/
def execThermalSample (readings : List SensorReading) : Exec := fun s =>
  .next <|
    if s.cycle % 8500 != 0 then s
    else
      let read (i c : Nat) : Int := layerTemp (s.readingOf readings c) i
      let voted := s.setSensors fun i c => s.vote (read i) i c
      let s := { voted.setSensors fun i c => voted.substitute (read i) i c with fresh := s.fresh + 768 }
      let before := s.cores.toList.any (0 < ·.trips)
      let s := s.eachCore fun s c => s.modCore c fun k =>
        let level := k.judgeLevel k.matrix.throttle
        let next := if level = k.matrix.throttle then none else some (level, s.cycle + 64)
        { k with trips := if k.tooHot then 1 else 0, matrix := { k.matrix with throttleNext := next } }
      let s := (s.postOnce s.cycle .refreshModeSample).postOnce (s.cycle + 64) .throttleLevelApply
      if before && s.cores.toList.any (0 < ·.trips) then s.trip else s

/-- `throttle_level_apply` (R250, R386): the levels set 64 cycles ago. -/
def execThrottleLevelApply : Exec := fun s =>
  .next { s with cores := s.cores.map fun k =>
    match k.matrix.throttleNext with
    | some (level, at_) => if at_ ≤ s.cycle then { k with matrix := { k.matrix with throttle := level, throttleNext := none } } else k
    | none => k }

end Sys2Proof.Machine
end

