-- ==== Sys2Proof/Machine/VecMem.lean ====
section
/-! DEFINITION. Vector loads and stores, gathers and scatters (R151 to R159). -/

namespace Sys2Proof.Machine

/-! ### What an access moves (R99, R152) -/

/-- The bytes, the registers and the alignment of a vector access. -/
structure VecShape where
  n : Nat
  regs : Nat
  align : Nat
  deriving DecidableEq, Repr

/-- The shape of a type 0 to 12 (R152). -/
def plainShape (w : Grp) (t : ElemTy) : VecShape := ⟨64 * w.regs, w.regs, t.bits / 8⟩

/-- The shape of a record of G elements (R152). -/
def recordShape (q4 : Bool) (G : Nat) : VecShape := ⟨recordBytes q4 G, qRegs q4 G, 4⟩

/-- Table 3.5: the type a format code gives, of those with elements; 0x00 moves bytes. -/
def typeOfFmt (f : Nat) : Option ElemTy :=
  match f with
  | 0x00 | 0x02 => some .n8
  | 0x01 => some .i8
  | 0x03 => some .i16
  | 0x04 => some .n16
  | 0x05 => some .i32
  | 0x06 => some .n32
  | 0x07 => some .i64
  | 0x08 => some .n64
  | 0x10 => some .f32
  | 0x11 => some .f16
  | 0x12 => some .bf16
  | 0x13 => some .e4m3
  | 0x14 => some .e5m2
  | _ => none

/-- The group index W as a number. -/
def Grp.log : Grp → Nat
  | .single => 0
  | .pair => 1
  | .quad => 2
  | .octet => 3

/-- The shape that a pointer's tag gives an access of type auto, or FMT or PTAG (R39, R99, R152). -/
def autoShape (d : VReg) (w : Grp) (ptr : Nat) : Except Exc VecShape :=
  let f := bitsOf ptr 63 56
  let glog := bitsOf ptr 55 52
  let tag : Exc := { cause := causePtag, addr := ptr % 2 ^ 52, det0 := f, det1 := glog }
  if 0x30 ≤ f && f ≤ 0x32 then .error { cause := causeFmt, addr := ptr % 2 ^ 52, det0 := f }
  else if !tagValid f glog then .error tag
  else if f = 0x20 || f = 0x21 then
    let sh := recordShape (f == 0x21) (2 ^ glog)
    if Grp.log w = glog - 5 && d.toNat % sh.regs = 0 then .ok sh else .error tag
  else match typeOfFmt f with
    | some t => if d.toNat % w.regs = 0 then .ok (plainShape w t) else .error tag
    | none => .error tag

/-- The shape of a vector access (R152). -/
def vecShape (d : VReg) (w : Grp) (t : ElemTy) (ptr : Nat) : Except Exc VecShape :=
  match t with
  | .auto => autoShape d w ptr
  | .q8 => .ok (recordShape false (qGroup (Grp.log w)))
  | .q4 => .ok (recordShape true (qGroup (Grp.log w)))
  | t => .ok (plainShape w t)

/-- A vector access's group of registers, read or written. -/
def groupUse (store : Bool) (d : VReg) (n : Nat) : Use := if store then .rv d n else .wv d n

/-- The shape of an access. Where the pointer of an access of type auto cannot be read, or its tag gives no shape, the checks of R156 before
FMT and PTAG are made on the group that D and W name (DEDUCED, log entry 80). -/
def shapeOf (store : Bool) (d : VReg) (a : GReg) (w : Grp) (t : ElemTy) : Act VecShape := do
  let s ← get
  let named : Option Stop := s.operandStop [.rg a false, groupUse store d w.regs]
  match if t == .auto then s.operandStop [.rg a false] else none with
  | some st => do orStop named; throw st
  | none => match vecShape d w t (s.readG a).toNat with
    | .ok sh => pure sh
    | .error e => do orStop named; fault e

/-- `vld` (R153, R156). -/
def execVld (d : VReg) (a : GReg) (w : Grp) (t : ElemTy) (ql : Qual) (off : BitVec 8) : Exec :=
  runThread do
    let sh ← shapeOf false d a w t
    let s ← operands [.rg a false, groupUse false d sh.regs]
    let (va, red) := s.effective a (off.toInt * 64)
    alignTo va sh.align
    if red && !(s.effective a (off.toInt * 64 + sh.n - 1)).2 then fault { cause := causeAlign, addr := va }
    memAccess ⟨false, va, red, sh.n, ql, 0, .v d.toNat sh.regs, false, sh.regs⟩

/-- `vst` (R153, R156): a record store writes only the record's bytes. -/
def execVst (d : VReg) (a : GReg) (w : Grp) (t : ElemTy) (ql : Qual) (off : BitVec 8) : Exec :=
  runThread do
    let sh ← shapeOf true d a w t
    let s ← operands [.rg a false, groupUse true d sh.regs]
    let (va, red) := s.effective a (off.toInt * 64)
    alignTo va sh.align
    if red && !(s.effective a (off.toInt * 64 + sh.n - 1)).2 then fault { cause := causeAlign, addr := va }
    memAccess ⟨true, va, red, sh.n, ql, s.readV d sh.regs % 2 ^ (8 * sh.n), .none, false, sh.regs⟩

/-! ### Gather and scatter (R157 to R159) -/

/-- The bank and the cycle of each lane, counted from the issue: up to four lanes a cycle, no bank twice in one (R159). -/
def laneCycles (banks : List Nat) : List (Nat × Nat) :=
  (banks.foldl (fun (acc : List (Nat × Nat) × Nat × List Nat) b =>
    let (out, c, used) := acc
    if 4 ≤ used.length || used.contains b then (out ++ [(b, c + 1)], c + 1, [b]) else (out ++ [(b, c)], c, used ++ [b]))
    ([], 0, [])).1

/-- What the lanes of a gather or scatter raise, kind by kind, the lowest lane first (R158). -/
def State.lanesStop (s : State) (store : Bool) (e : Nat) (addrs : List Nat) : Option Stop :=
  let trap (cause : Nat) (a : Nat) : Stop := .trap { cause := cause, addr := a }
  ((addrs.find? fun a => a % e != 0).map (trap causeAlign)).or
    ((addrs.findSome? fun a => s.watchStop (!store) store a e).or
      (((addrs.find? fun a => !isLocal a || 0x100000 < localOff a + e).map (trap causeProt)).or
        ((addrs.find? fun a => s.me.owner (localOff a / 4096) != 0).map (trap causeOwner))))

/-- A gather or a scatter of 16 elements (R157). -/
def gatherScatter (store : Bool) (d a : VReg) (b : GReg) (t : ElemTy) : Act Done := do
  let e := t.bits / 8
  let regs := e / 4
  let s ← operands [.rg b false, .rv a 1, if store then .rv d regs else .wv d regs]
  let idx := s.readV a 1
  let addrs := (List.range 16).map fun i => ((s.readG b).toNat + laneOf idx 32 i * e) % 2 ^ 52
  orStop (s.lanesStop store e addrs)
  let offs := addrs.map localOff
  let lanes := laneCycles (offs.map bankOf)
  let c := ((lanes.getLast?.map (·.2)).getD 0) + 1
  let work : LocalWork := {
    due := s.cycle, store := store, data := if store then s.readV d regs else 0, ready := s.cycle + c + 3
    left := workCycles c lanes ((lanes.zip offs).zipIdx.map fun ((l, off), i) => (l.2, off, e * i, e))
    fin := if store then .stored else .loaded d.toNat regs }
  orStop (s.workStop work.left)
  orStop (s.acquireStop (addrs.headD 0))
  change fun s => s.beginWork work LocalWork.done
  done c

/-- `vgath` (R157). -/
def execVgath (d a : VReg) (b : GReg) (_w : Grp) (t : ElemTy) : Exec := runThread (gatherScatter false d a b t)

/-- `vscat` (R157). -/
def execVscat (d a : VReg) (b : GReg) (_w : Grp) (t : ElemTy) : Exec := runThread (gatherScatter true d a b t)

end Sys2Proof.Machine
end

