-- ==== Sys2Proof/Machine/Advance.lean ====
section
/-! DEFINITION. What the device does next: the order of events and threads within a cycle (R20, R27), fetching and decoding a
thread's instruction, and the passing of a cycle. -/

namespace Sys2Proof.Machine

/-- The rank of an event within its cycle: arrivals and completions before the threads; a thread's beats before its own
instruction; then the matrix engine, the stream engine, the vault agent with the repair copies, and the trellis engine (R27). -/
def State.rankOf (s : State) : Instr → Nat × Nat
  | .vaultAccessBeat c id | .tileBeat c id =>
    match ((s.coreAt c).vault.accs.find? (·.id == id)).map VaultAcc.by_ with
    | some (Requester.thread t) => (10 + 4 * t, c)
    | some (Requester.stream _) => (31, c)
    | _ => (32, c)
  | .vaultBeatAbandon c _ => (40, c)
  | .meCommandStart => (30, 0)
  | .streamEngineOperation => (31, 0)
  | .agentAction | .rowRepairCopyStart => (32, 0)
  | .migrationMoveStart => (32, 300)
  | .tencJobStart => (33, 0)
  | .sfuQueueStart => (34, 0)
  | .compaction => (35, 0)
  | .barrierArrival _ _ _ => (36, 0)
  | .stealRequest _ _ _ => (37, 0)
  | .giftArrival _ _ _ _ => (38, 0)
  | .tokenForward => (39, 0)
  | .confluenceForward _ _ => (1, 0)
  | _ => (0, 0)

/-- Whether a thread goes on with an operation on local SRAM in this cycle (R153, R159, R270). -/
def Thread.workDue (th : Thread) (cycle : Nat) : Bool := th.work.any (·.due ≤ cycle)

/-- Whether a thread may issue in this cycle (R25, R109), in a replay as far as its log goes (R383), or goes on with what it has
issued. -/
def State.threadReady (s : State) (c t : Nat) : Bool :=
  let th := s.thrAt c t
  th.workDue s.cycle || ((th.st == .run || th.st == .booked) && th.block == .none && th.next ≤ s.cycle && (s.coreAt c).replayLets t)

/-- What the running thread's operation leaves when its last cycle is done. -/
def State.workEnd (s : State) (w : LocalWork) : State :=
  match w.fin with
  | .stored => s
  | .loaded n count => s.workLoaded n count w
  | .decoded window rm lanes wide n count => s.workDecoded window rm lanes wide n count w
  | .counted off n => s.countTask off n

/-- The next cycle of the running thread's operation, where its banks serve it; a cycle in which they do not is one more of its issue
and of its latency (R27, R185). -/
def State.workStep (s : State) : State :=
  match s.th.work with
  | none => s
  | some w =>
    let held := s.th.st != .booked && (s.banksStop ((w.left.head?.map (·.banks)).getD [] |>.map fun b => (b, s.cycle))).isSome
    if held then
      s.modTh fun th => { (th.holdRegs w.fin (w.ready + 1)) with work := some { w with due := s.cycle + 1, ready := w.ready + 1 }, next := th.next + 1 }
    else
      let (s, w) := s.workCycle w
      if w.left.isEmpty then (s.modTh fun th => { th with work := none }).workEnd w
      else s.modTh fun th => { th with work := some w }

/-- The place of a rank on a core in the order of a cycle: what comes before the threads, then core by core the threads in their order
with their beats (R27, R336), then the rest. -/
def cycleKey (r c : Nat) : Nat := if 10 ≤ r && r < 30 then 10 * 16384 + c * 32 + (r - 10) else r * 16384 + c

/-- Whether a ready thread stands at a `wait`, which samples after every event arriving in the cycle (R333). -/
def State.atWait (s : State) (c t : Nat) : Bool :=
  let th := s.thrAt c t
  !th.workDue s.cycle && !th.stepDue && match decodeWord (s.fetchWord c t) with
    | .ok (.wait _ _ _) => true
    | _ => false

/-- The first thread of a kind, in core order and then thread order (R27, R336). -/
def firstOf (p : Nat → Nat → Bool) : Option (Fin 256 × Fin 4) :=
  (List.finRange 256).findSome? fun c => ((List.finRange 4).find? fun t => p c.val t.val).map fun t => (c, t)

/-- The first ready thread with its place in the cycle: those at a `wait` come last (R27, R333, R336). -/
def State.firstThread (s : State) : Option (Nat × Fin 256 × Fin 4) :=
  match firstOf fun c t => s.threadReady c t && !s.atWait c t with
  | some (c, t) => some (cycleKey (11 + 4 * t.val) c.val, c, t)
  | none => (firstOf s.threadReady).map fun (c, t) => (cycleKey 41 c.val, c, t)

/-- The due event of least rank, the earliest posted first, with the agenda that remains. -/
def pickEvent (key : Instr → Nat) (now : Nat) : List (Nat × Instr) → Option (Nat × Instr)
  | [] => none
  | (due, i) :: r =>
    match pickEvent key now r with
    | none => if due ≤ now then some (key i, i) else none
    | some (k, j) => if due ≤ now && key i ≤ k then some (key i, i) else some (k, j)

/-- An event removed from a list, at its first due place. -/
def dropEvent (now : Nat) (i : Instr) : List (Nat × Instr) → List (Nat × Instr)
  | [] => []
  | (due, j) :: r => if due ≤ now && j == i then r else (due, j) :: dropEvent now i r

/-- What happens next. -/
inductive Next
  | event (i : Instr) (s : State)
  | thread (c : Fin 256) (t : Fin 4)
  | pass
  deriving DecidableEq, Repr

/-- The next happening: what the outside does in this cycle, then the agenda and the threads by rank, then the cycle passes. -/
def State.whatNext (s : State) : Next :=
  match s.inputs.find? (·.1 ≤ s.cycle) with
  | some (_, i) => .event i { s with inputs := dropEvent s.cycle i s.inputs }
  | none =>
    let key (i : Instr) : Nat := let (r, c) := s.rankOf i; cycleKey r c
    match pickEvent key s.cycle s.agenda, s.firstThread with
    | some (k, i), some (k', c, t) => if k ≤ k' then .event i { s with agenda := dropEvent s.cycle i s.agenda } else .thread c t
    | some (_, i), none => .event i { s with agenda := dropEvent s.cycle i s.agenda }
    | none, some (_, c, t) => .thread c t
    | none, none => .pass

/-- The thread that runs, made current. -/
def State.atThread (s : State) (c : Fin 256) (t : Fin 4) : State := { s with cur := (c, t) }

/-- What the running thread issues: a trap in place of its word (R380, R361, R74, R75), or an instruction. -/
def State.issue (s : State) : Except Exc Instr :=
  let pc := s.th.pc.toNat
  if s.th.stepDue then .error { cause := causeStep }
  else if !s.th.priv && 0x3C00 ≤ pc then .error { cause := causeProt, addr := localBase + 0x100000 + 4 * pc, det0 := 8 }
  else match decodeWord (s.fetchWord s.cc s.ct) with
    | .ok i => .ok i
    | .error e => .error { cause := causeIllegal, det0 := e.reason, det1 := e.bit }

/-- An event posted for this cycle where a condition holds. -/
def State.postIf (s : State) (b : Bool) (i : Instr) : State := if b then s.postOnce s.cycle i else s

/-- What the new cycle brings by itself: refreshes (R167, R169), samples (R371, R385), epochs (R191) and tokens (R233). -/
def State.periodic (s : State) : State :=
  let s := s.postIf (s.cycle % 16 = 0) .normalRefresh
  let s := s.postIf (s.cycle % 16 = 8) .extraRefresh
  let s := s.postIf ((List.range 256).any s.samples) .sampleTick
  let s := s.postIf (s.helm.policy.epoch != 0 && s.cycle % s.helm.policy.epoch = 0) .epochEnd
  let s := s.postIf ((List.range 256).any s.tokenMoves) .tokenForward
  let told := s.inputs.any fun x => x.1 ≤ s.cycle && match x.2 with | .thermalSample _ => true | _ => false
  s.postIf (s.host.running && s.cycle % 8500 = 0 && !told) (.thermalSample [])

/-- What the helm does with the cores from cycle to cycle: pre-emption and replay (R372, R373, R383). -/
def State.superviseCores (s : State) : State :=
  s.eachCore fun s c =>
    let k := s.coreAt c
    let s := if k.preempt == .none then s else s.preemptStep c
    if k.net.replay.isNone then s else s.replayStep c

/-- Power removed after a trip (R387). -/
def State.powerCut (s : State) : State := if s.offAt.any (· ≤ s.cycle) then { s with powered := false } else s

/-- The cycle passes: flits move, owner fields and control registers written in it change (R331, R374), and the next cycle begins
with the arrivals at the routers. -/
def State.pass (s : State) : State :=
  let s := s.meshMove.landCompletions.applyFlips.applyCsrs
  let s := { s with cycle := s.cycle + 1 }
  s.meshArrive.periodic.superviseCores.powerCut

end Sys2Proof.Machine
end

