-- ==== Sys2Proof/Machine/Dispatch.lean ====
section
/-! DEFINITION. One arm for each instruction and event, each a call of its meaning. -/

namespace Sys2Proof.Machine

/-- The meaning of an instruction of the running thread, or of a device event. -/
def exec (i : Instr) (s : State) : Host.Outcome State Fault Refusal :=
  match i with
  | .add d a b ea eb q => Sys2Proof.Machine.execAdd d a b ea eb q s
  | .sub d a b ea eb q => Sys2Proof.Machine.execSub d a b ea eb q s
  | .and d a b ea eb q => Sys2Proof.Machine.execAnd d a b ea eb q s
  | .or d a b ea eb q => Sys2Proof.Machine.execOr d a b ea eb q s
  | .xor d a b ea eb q => Sys2Proof.Machine.execXor d a b ea eb q s
  | .andn d a b ea eb q => Sys2Proof.Machine.execAndn d a b ea eb q s
  | .sll d a b ea eb q => Sys2Proof.Machine.execSll d a b ea eb q s
  | .srl d a b ea eb q => Sys2Proof.Machine.execSrl d a b ea eb q s
  | .sra d a b ea eb q => Sys2Proof.Machine.execSra d a b ea eb q s
  | .min d a b ea eb q => Sys2Proof.Machine.execMin d a b ea eb q s
  | .max d a b ea eb q => Sys2Proof.Machine.execMax d a b ea eb q s
  | .minu d a b ea eb q => Sys2Proof.Machine.execMinu d a b ea eb q s
  | .maxu d a b ea eb q => Sys2Proof.Machine.execMaxu d a b ea eb q s
  | .slt d a b ea eb q => Sys2Proof.Machine.execSlt d a b ea eb q s
  | .sltu d a b ea eb q => Sys2Proof.Machine.execSltu d a b ea eb q s
  | .seq d a b ea eb q => Sys2Proof.Machine.execSeq d a b ea eb q s
  | .mul d a b ea eb q => Sys2Proof.Machine.execMul d a b ea eb q s
  | .mulh d a b ea eb q => Sys2Proof.Machine.execMulh d a b ea eb q s
  | .mulhu d a b ea eb q => Sys2Proof.Machine.execMulhu d a b ea eb q s
  | .div d a b ea eb q => Sys2Proof.Machine.execDiv d a b ea eb q s
  | .divu d a b ea eb q => Sys2Proof.Machine.execDivu d a b ea eb q s
  | .rem d a b ea eb q => Sys2Proof.Machine.execRem d a b ea eb q s
  | .remu d a b ea eb q => Sys2Proof.Machine.execRemu d a b ea eb q s
  | .clz d a ea q => Sys2Proof.Machine.execClz d a ea q s
  | .ctz d a ea q => Sys2Proof.Machine.execCtz d a ea q s
  | .popc d a ea q => Sys2Proof.Machine.execPopc d a ea q s
  | .sext d a w ea q => Sys2Proof.Machine.execSext d a w ea q s
  | .zext d a w ea q => Sys2Proof.Machine.execZext d a w ea q s
  | .addp d a b ea eb q => Sys2Proof.Machine.execAddp d a b ea eb q s
  | .subp d a b ea eb q => Sys2Proof.Machine.execSubp d a b ea eb q s
  | .ptag d a b ea eb q => Sys2Proof.Machine.execPtag d a b ea eb q s
  | .gtag d a ea q => Sys2Proof.Machine.execGtag d a ea q s
  | .pva d a ea q => Sys2Proof.Machine.execPva d a ea q s
  | .pchk d a ea q => Sys2Proof.Machine.execPchk d a ea q s
  | .ceq d a b ea eb q => Sys2Proof.Machine.execCeq d a b ea eb q s
  | .cne d a b ea eb q => Sys2Proof.Machine.execCne d a b ea eb q s
  | .clt d a b ea eb q => Sys2Proof.Machine.execClt d a b ea eb q s
  | .cltu d a b ea eb q => Sys2Proof.Machine.execCltu d a b ea eb q s
  | .cge d a b ea eb q => Sys2Proof.Machine.execCge d a b ea eb q s
  | .cgeu d a b ea eb q => Sys2Proof.Machine.execCgeu d a b ea eb q s
  | .pand d a b q => Sys2Proof.Machine.execPand d a b q s
  | .por d a b q => Sys2Proof.Machine.execPor d a b q s
  | .pxor d a b q => Sys2Proof.Machine.execPxor d a b q s
  | .pandn d a b q => Sys2Proof.Machine.execPandn d a b q s
  | .mov d a ea q => Sys2Proof.Machine.execMov d a ea q s
  | .p2g d a q => Sys2Proof.Machine.execP2g d a q s
  | .g2p d a ea q => Sys2Proof.Machine.execG2p d a ea q s
  | .addi d a imm => Sys2Proof.Machine.execAddi d a imm s
  | .andi d a imm => Sys2Proof.Machine.execAndi d a imm s
  | .ori d a imm => Sys2Proof.Machine.execOri d a imm s
  | .xori d a imm => Sys2Proof.Machine.execXori d a imm s
  | .slli d a amt => Sys2Proof.Machine.execSlli d a amt s
  | .srli d a amt => Sys2Proof.Machine.execSrli d a amt s
  | .srai d a amt => Sys2Proof.Machine.execSrai d a amt s
  | .li d imm => Sys2Proof.Machine.execLi d imm s
  | .lui d a imm => Sys2Proof.Machine.execLui d a imm s
  | .luh d a imm => Sys2Proof.Machine.execLuh d a imm s
  | .lut d a imm => Sys2Proof.Machine.execLut d a imm s
  | .cmpi r d a imm => Sys2Proof.Machine.execCmpi r d a imm s
  | .br q off => Sys2Proof.Machine.execBr q off s
  | .call q off => Sys2Proof.Machine.execCall q off s
  | .jr a ea q => Sys2Proof.Machine.execJr a ea q s
  | .dbnz d off => Sys2Proof.Machine.execDbnz d off s
  | .ld d a z ql off => Sys2Proof.Machine.execLd d a z ql off s
  | .ldu d a z ql off => Sys2Proof.Machine.execLdu d a z ql off s
  | .st d a z ql off => Sys2Proof.Machine.execSt d a z ql off s
  | .vaddF d a b w t => Sys2Proof.Machine.execVaddF d a b w t s
  | .vsubF d a b w t => Sys2Proof.Machine.execVsubF d a b w t s
  | .vmulF d a b w t => Sys2Proof.Machine.execVmulF d a b w t s
  | .vfma d a b w t => Sys2Proof.Machine.execVfma d a b w t s
  | .vfms d a b w t => Sys2Proof.Machine.execVfms d a b w t s
  | .vminF d a b w t => Sys2Proof.Machine.execVminF d a b w t s
  | .vmaxF d a b w t => Sys2Proof.Machine.execVmaxF d a b w t s
  | .vminn d a b w t => Sys2Proof.Machine.execVminn d a b w t s
  | .vmaxn d a b w t => Sys2Proof.Machine.execVmaxn d a b w t s
  | .vabs d a w t => Sys2Proof.Machine.execVabs d a w t s
  | .vneg d a w t => Sys2Proof.Machine.execVneg d a w t s
  | .vcpsgn d a b w t => Sys2Proof.Machine.execVcpsgn d a b w t s
  | .vrndi d a m w t => Sys2Proof.Machine.execVrndi d a m w t s
  | .vceqF d a b w t => Sys2Proof.Machine.execVceqF d a b w t s
  | .vcltF d a b w t => Sys2Proof.Machine.execVcltF d a b w t s
  | .vcle d a b w t => Sys2Proof.Machine.execVcle d a b w t s
  | .vcun d a b w t => Sys2Proof.Machine.execVcun d a b w t s
  | .vclass d a w t => Sys2Proof.Machine.execVclass d a w t s
  | .vgetexp d a w t => Sys2Proof.Machine.execVgetexp d a w t s
  | .vexpins d a b w t => Sys2Proof.Machine.execVexpins d a b w t s
  | .vaddI d a b w t => Sys2Proof.Machine.execVaddI d a b w t s
  | .vsubI d a b w t => Sys2Proof.Machine.execVsubI d a b w t s
  | .vmulI d a b w t => Sys2Proof.Machine.execVmulI d a b w t s
  | .vmulh d a b w t => Sys2Proof.Machine.execVmulh d a b w t s
  | .vadds d a b w t => Sys2Proof.Machine.execVadds d a b w t s
  | .vsubs d a b w t => Sys2Proof.Machine.execVsubs d a b w t s
  | .vminI d a b w t => Sys2Proof.Machine.execVminI d a b w t s
  | .vmaxI d a b w t => Sys2Proof.Machine.execVmaxI d a b w t s
  | .vavg d a b w t => Sys2Proof.Machine.execVavg d a b w t s
  | .vabsd d a b w t => Sys2Proof.Machine.execVabsd d a b w t s
  | .vsll d a b w t => Sys2Proof.Machine.execVsll d a b w t s
  | .vsrl d a b w t => Sys2Proof.Machine.execVsrl d a b w t s
  | .vsra d a b w t => Sys2Proof.Machine.execVsra d a b w t s
  | .vand d a b w t => Sys2Proof.Machine.execVand d a b w t s
  | .vor d a b w t => Sys2Proof.Machine.execVor d a b w t s
  | .vxor d a b w t => Sys2Proof.Machine.execVxor d a b w t s
  | .vandn d a b w t => Sys2Proof.Machine.execVandn d a b w t s
  | .vceqI d a b w t => Sys2Proof.Machine.execVceqI d a b w t s
  | .vcltI d a b w t => Sys2Proof.Machine.execVcltI d a b w t s
  | .vsel d a b w t => Sys2Proof.Machine.execVsel d a b w t s
  | .vmac d a b w t => Sys2Proof.Machine.execVmac d a b w t s
  | .vbc d a w t => Sys2Proof.Machine.execVbc d a w t s
  | .vins d a b w t => Sys2Proof.Machine.execVins d a b w t s
  | .vext d a b w t => Sys2Proof.Machine.execVext d a b w t s
  | .vperm d a b w t => Sys2Proof.Machine.execVperm d a b w t s
  | .vzip d a b w t => Sys2Proof.Machine.execVzip d a b w t s
  | .vuzp d a w t => Sys2Proof.Machine.execVuzp d a w t s
  | .vslide d a b w t => Sys2Proof.Machine.execVslide d a b w t s
  | .vrot d a b w t => Sys2Proof.Machine.execVrot d a b w t s
  | .vradd d a w t => Sys2Proof.Machine.execVradd d a w t s
  | .vrmin d a w t => Sys2Proof.Machine.execVrmin d a w t s
  | .vrmax d a w t => Sys2Proof.Machine.execVrmax d a w t s
  | .vdot4 d a b w t => Sys2Proof.Machine.execVdot4 d a b w t s
  | .vdot2 d a b w t => Sys2Proof.Machine.execVdot2 d a b w t s
  | .vcvt d a ts sat w t => Sys2Proof.Machine.execVcvt d a ts sat w t s
  | .vq d a b w t => Sys2Proof.Machine.execVq d a b w t s
  | .vdq d a q4 w t => Sys2Proof.Machine.execVdq d a q4 w t s
  | .vpk d a w t => Sys2Proof.Machine.execVpk d a w t s
  | .vunpk d a w t => Sys2Proof.Machine.execVunpk d a w t s
  | .vmov d a w => Sys2Proof.Machine.execVmov d a w s
  | .vzero d w => Sys2Proof.Machine.execVzero d w s
  | .vlane d w t => Sys2Proof.Machine.execVlane d w t s
  | .vrcp d a w => Sys2Proof.Machine.execVrcp d a w s
  | .vrsqrt d a w => Sys2Proof.Machine.execVrsqrt d a w s
  | .vsqrt d a w => Sys2Proof.Machine.execVsqrt d a w s
  | .vdiv d a b w => Sys2Proof.Machine.execVdiv d a b w s
  | .vfexp2 d a w => Sys2Proof.Machine.execVfexp2 d a w s
  | .vlog2 d a w => Sys2Proof.Machine.execVlog2 d a w s
  | .vsinpi d a w => Sys2Proof.Machine.execVsinpi d a w s
  | .vcospi d a w => Sys2Proof.Machine.execVcospi d a w s
  | .vtanh d a w => Sys2Proof.Machine.execVtanh d a w s
  | .vgath d a b w t => Sys2Proof.Machine.execVgath d a b w t s
  | .vscat d a b w t => Sys2Proof.Machine.execVscat d a b w t s
  | .vld d a w t ql off => Sys2Proof.Machine.execVld d a w t ql off s
  | .vst d a w t ql off => Sys2Proof.Machine.execVst d a w t ql off s
  | .mma acc ab wb s_ fb fa ovr sha tra => Sys2Proof.Machine.execMma acc ab wb s_ fb fa ovr sha tra s
  | .mgset a m => Sys2Proof.Machine.execMgset a m s
  | .mgget d m => Sys2Proof.Machine.execMgget d m s
  | .owne d a => Sys2Proof.Machine.execOwne d a s
  | .ownq d => Sys2Proof.Machine.execOwnq d s
  | .accz a => Sys2Proof.Machine.execAccz a s
  | .accst a b f acc => Sys2Proof.Machine.execAccst a b f acc s
  | .accld a b f acc => Sys2Proof.Machine.execAccld a b f acc s
  | .abld a b buf => Sys2Proof.Machine.execAbld a b buf s
  | .wbld a b buf => Sys2Proof.Machine.execWbld a b buf s
  | .twset d a tw => Sys2Proof.Machine.execTwset d a tw s
  | .tdec d a b w tw => Sys2Proof.Machine.execTdec d a b w tw s
  | .tdecr d a b tw => Sys2Proof.Machine.execTdecr d a b tw s
  | .tenc d a b => Sys2Proof.Machine.execTenc d a b s
  | .tencw d => Sys2Proof.Machine.execTencw d s
  | .rowact a => Sys2Proof.Machine.execRowact a s
  | .rowpre a => Sys2Proof.Machine.execRowpre a s
  | .tld a b len => Sys2Proof.Machine.execTld a b len s
  | .tst a b len => Sys2Proof.Machine.execTst a b len s
  | .rowq d a => Sys2Proof.Machine.execRowq d a s
  | .pmig d a b => Sys2Proof.Machine.execPmig d a b s
  | .ptq d a => Sys2Proof.Machine.execPtq d a s
  | .cpy d a c => Sys2Proof.Machine.execCpy d a c s
  | .cpyq d a => Sys2Proof.Machine.execCpyq d a s
  | .cpyw d a => Sys2Proof.Machine.execCpyw d a s
  | .sbind d a s_ => Sys2Proof.Machine.execSbind d a s_ s
  | .sunb d s_ => Sys2Proof.Machine.execSunb d s_ s
  | .sparkq d a => Sys2Proof.Machine.execSparkq d a s
  | .rget d a b z => Sys2Proof.Machine.execRget d a b z s
  | .rput d a b z => Sys2Proof.Machine.execRput d a b z s
  | .rfop d a b sh op => Sys2Proof.Machine.execRfop d a b sh op s
  | .rcas d a b z => Sys2Proof.Machine.execRcas d a b z s
  | .amsg d a b => Sys2Proof.Machine.execAmsg d a b s
  | .msend d a b => Sys2Proof.Machine.execMsend d a b s
  | .mrecv d a w => Sys2Proof.Machine.execMrecv d a w s
  | .rstat d => Sys2Proof.Machine.execRstat d s
  | .fop d a b ea eb q z op => Sys2Proof.Machine.execFop d a b ea eb q z op s
  | .cas d a b ea eb q z => Sys2Proof.Machine.execCas d a b ea eb q z s
  | .fence a s_ l m r => Sys2Proof.Machine.execFence a s_ l m r s
  | .wait d a b => Sys2Proof.Machine.execWait d a b s
  | .signal a b => Sys2Proof.Machine.execSignal a b s
  | .sstep a b => Sys2Proof.Machine.execSstep a b s
  | .bar a b => Sys2Proof.Machine.execBar a b s
  | .redm d a b => Sys2Proof.Machine.execRedm d a b s
  | .ownf d a b => Sys2Proof.Machine.execOwnf d a b s
  | .book d a b => Sys2Proof.Machine.execBook d a b s
  | .arm a => Sys2Proof.Machine.execArm a s
  | .unbook d a => Sys2Proof.Machine.execUnbook d a s
  | .calq d a b => Sys2Proof.Machine.execCalq d a b s
  | .calmv d a b => Sys2Proof.Machine.execCalmv d a b s
  | .spawn d a => Sys2Proof.Machine.execSpawn d a s
  | .take d a => Sys2Proof.Machine.execTake d a s
  | .seek d a => Sys2Proof.Machine.execSeek d a s
  | .tfin a => Sys2Proof.Machine.execTfin a s
  | .term d => Sys2Proof.Machine.execTerm d s
  | .dqn d => Sys2Proof.Machine.execDqn d s
  | .trap a b ea eb q => Sys2Proof.Machine.execTrap a b ea eb q s
  | .eret d a b ea eb q => Sys2Proof.Machine.execEret d a b ea eb q s
  | .halt a ea q => Sys2Proof.Machine.execHalt a ea q s
  | .sysc d a b ea eb q => Sys2Proof.Machine.execSysc d a b ea eb q s
  | .brk n q => Sys2Proof.Machine.execBrk n q s
  | .trc a b ea eb q => Sys2Proof.Machine.execTrc a b ea eb q s
  | .csrr d n => Sys2Proof.Machine.execCsrr d n s
  | .csrw d a n => Sys2Proof.Machine.execCsrw d a n s
  | .csrs d a n => Sys2Proof.Machine.execCsrs d a n s
  | .csrc d a n => Sys2Proof.Machine.execCsrc d a n s
  | .handlerEntry c t => Sys2Proof.Machine.execHandlerEntry c t s
  | .haltTreeStop part reason init => Sys2Proof.Machine.execHaltTreeStop part reason init s
  | .activeMessageLaunch c m => Sys2Proof.Machine.execActiveMessageLaunch c m s
  | .linkHoldRequest h => Sys2Proof.Machine.execLinkHoldRequest h s
  | .vaultAccessBeat c id => Sys2Proof.Machine.execVaultAccessBeat c id s
  | .vaultBeatAbandon c id => Sys2Proof.Machine.execVaultBeatAbandon c id s
  | .tileBeat c id => Sys2Proof.Machine.execTileBeat c id s
  | .layerPowerChange c p => Sys2Proof.Machine.execLayerPowerChange c p s
  | .offstackRequest ctrl => Sys2Proof.Machine.execOffstackRequest ctrl s
  | .replyArrival ret value => Sys2Proof.Machine.execReplyArrival ret value s
  | .refusalArrival ret reason => Sys2Proof.Machine.execRefusalArrival ret reason s
  | .agentRequestArrival c r => Sys2Proof.Machine.execAgentRequestArrival c r s
  | .channelResume c ch => Sys2Proof.Machine.execChannelResume c ch s
  | .copyComplete c idx => Sys2Proof.Machine.execCopyComplete c idx s
  | .stealRequest victim thief thread => Sys2Proof.Machine.execStealRequest victim thief thread s
  | .giftArrival thief thread victim g => Sys2Proof.Machine.execGiftArrival thief thread victim g s
  | .giftAck c => Sys2Proof.Machine.execGiftAck c s
  | .barrierArrival part group c => Sys2Proof.Machine.execBarrierArrival part group c s
  | .signalArrival c ctx mask => Sys2Proof.Machine.execSignalArrival c ctx mask s
  | .confluenceArrival node inp f => Sys2Proof.Machine.execConfluenceArrival node inp f s
  | .confluenceForward node id => Sys2Proof.Machine.execConfluenceForward node id s
  | .confluenceReplySplit node id value => Sys2Proof.Machine.execConfluenceReplySplit node id value s
  | .flitCrcRetry port => Sys2Proof.Machine.execFlitCrcRetry port s
  | .laneDegrade port => Sys2Proof.Machine.execLaneDegrade port s
  | .linkReroute port => Sys2Proof.Machine.execLinkReroute port s
  | .retrain port => Sys2Proof.Machine.execRetrain port s
  | .syscService c t ctx f arg dst => Sys2Proof.Machine.execSyscService c t ctx f arg dst s
  | .thermalSample readings => Sys2Proof.Machine.execThermalSample readings s
  | .contextSave c => Sys2Proof.Machine.execContextSave c s
  | .contextRestore c ctx => Sys2Proof.Machine.execContextRestore c ctx s
  | .bar2LaunchRecord off bytes => Sys2Proof.Machine.execBar2LaunchRecord off bytes s
  | .bar4Access write off bytes => Sys2Proof.Machine.execBar4Access write off bytes s
  | .crconsWrite v => Sys2Proof.Machine.execCrconsWrite v s
  | .fwlenWrite v => Sys2Proof.Machine.execFwlenWrite v s
  | .hostRegisterWrite off bytes => Sys2Proof.Machine.execHostRegisterWrite off bytes s
  | .stealRefusal thief asked => Sys2Proof.Machine.execStealRefusal thief asked s
  | .retrainComplete port => Sys2Proof.Machine.execRetrainComplete port s
  | .mwait => Sys2Proof.Machine.execMwait s
  | .vsync => Sys2Proof.Machine.execVsync s
  | .fencei => Sys2Proof.Machine.execFencei s
  | .done => Sys2Proof.Machine.execDone s
  | .ringStallRelief => Sys2Proof.Machine.execRingStallRelief s
  | .launchQueueStart => Sys2Proof.Machine.execLaunchQueueStart s
  | .bookingStart => Sys2Proof.Machine.execBookingStart s
  | .bookingLapse => Sys2Proof.Machine.execBookingLapse s
  | .compaction => Sys2Proof.Machine.execCompaction s
  | .linkCommit => Sys2Proof.Machine.execLinkCommit s
  | .normalRefresh => Sys2Proof.Machine.execNormalRefresh s
  | .extraRefresh => Sys2Proof.Machine.execExtraRefresh s
  | .refreshModeSample => Sys2Proof.Machine.execRefreshModeSample s
  | .rowRepairCopyStart => Sys2Proof.Machine.execRowRepairCopyStart s
  | .rowRepairRemap => Sys2Proof.Machine.execRowRepairRemap s
  | .laneRepairPost => Sys2Proof.Machine.execLaneRepairPost s
  | .laneRepairComplete => Sys2Proof.Machine.execLaneRepairComplete s
  | .agentAction => Sys2Proof.Machine.execAgentAction s
  | .sfuQueueStart => Sys2Proof.Machine.execSfuQueueStart s
  | .sfuResultWrite => Sys2Proof.Machine.execSfuResultWrite s
  | .meCommandStart => Sys2Proof.Machine.execMeCommandStart s
  | .meCommandComplete => Sys2Proof.Machine.execMeCommandComplete s
  | .tencJobStart => Sys2Proof.Machine.execTencJobStart s
  | .tencJobComplete => Sys2Proof.Machine.execTencJobComplete s
  | .streamEngineOperation => Sys2Proof.Machine.execStreamEngineOperation s
  | .epochEnd => Sys2Proof.Machine.execEpochEnd s
  | .migrationMoveStart => Sys2Proof.Machine.execMigrationMoveStart s
  | .migrationMoveComplete => Sys2Proof.Machine.execMigrationMoveComplete s
  | .tokenForward => Sys2Proof.Machine.execTokenForward s
  | .barrierRelease => Sys2Proof.Machine.execBarrierRelease s
  | .waitTimerExpire => Sys2Proof.Machine.execWaitTimerExpire s
  | .sampleTick => Sys2Proof.Machine.execSampleTick s
  | .throttleLevelApply => Sys2Proof.Machine.execThrottleLevelApply s
  | .create => Sys2Proof.Machine.execCreate s
  | .destroy => Sys2Proof.Machine.execDestroy s
  | .place => Sys2Proof.Machine.execPlace s
  | .window => Sys2Proof.Machine.execWindow s
  | .loadcode => Sys2Proof.Machine.execLoadcode s
  | .preempt => Sys2Proof.Machine.execPreempt s
  | .stop => Sys2Proof.Machine.execStop s
  | .resume => Sys2Proof.Machine.execResume s
  | .checkpoint => Sys2Proof.Machine.execCheckpoint s
  | .replay => Sys2Proof.Machine.execReplay s
  | .attest => Sys2Proof.Machine.execAttest s
  | .debugread => Sys2Proof.Machine.execDebugread s
  | .policy => Sys2Proof.Machine.execPolicy s
  | .journal => Sys2Proof.Machine.execJournal s
  | .clearpoison => Sys2Proof.Machine.execClearpoison s
  | .firmwareStart => Sys2Proof.Machine.execFirmwareStart s
  | .powerUp => Sys2Proof.Machine.execPowerUp s
  | .helmTakeover => Sys2Proof.Machine.execHelmTakeover s
  | .msixVector1Signal => Sys2Proof.Machine.execMsixVector1Signal s

end Sys2Proof.Machine
end

