-- ==== Sys2Proof/Machine/Step.lean ====
section
/-! DEFINITION. One step of the device, and the placing of one instruction where the next step fetches it. -/

namespace Sys2Proof.Machine

/-- One step: a device without power does nothing until the outside powers it up (R387, R395); otherwise the next event, the next
thread's instruction or the trap that comes in its place, or the passing of a cycle. -/
def step (s : State) : Host.Outcome State Fault Refusal :=
  if !s.powered then
    match s.inputs.find? (·.2 == .powerUp) with
    | some x => exec .powerUp { s with inputs := s.inputs.erase x }
    | none => .fault .poweredOff
  else match s.whatNext with
    | .event i s' => exec i s'
    | .thread c t =>
      let s' := s.atThread c t
      if s'.th.workDue s'.cycle then .next s'.workStep
      else match s'.issue with
      | .ok i => exec i s'
      | .error e => .next (takeTrap e s')
    | .pass => .next s.pass

/-- The state with one instruction word at PC 0 of thread 0 of core 0, which runs in user state and is the next to issue; no
event is due before it (DESIGN CHOICE, log entry 8). -/
def State.withFetchWord (s : State) (nbits w : Nat) : State :=
  let s := { s with agenda := [], inputs := [] }
  (s.modCore 0 fun k => { k with sram := memSetN k.sram 0x100000 4 (w % 2 ^ nbits) }).modThr 0 0 fun th =>
    { th with st := .run, priv := false, pc := 0, next := s.cycle, block := .none, stale := [], work := none, stepDue := false }

end Sys2Proof.Machine
end

