-- ==== Sys2Proof/Safety.lean ====
section
/-! DEFINITION. The terms in which claims about the device are stated: what counts as a safe step, when the operands of an
instruction can be used, what a completed instruction leaves, and which memory a step leaves alone. -/

namespace Sys2Proof.Machine

/-! ### Steps -/

/-- A step is safe where it answers a next state, or stops only because power was removed (R387). -/
def safeOutcome : Host.Outcome State Fault Refusal → Bool
  | .next _ => true
  | .fault .poweredOff => true
  | .refused _ => false

/-! ### Operands -/

/-- The general register a field names is full and may be read in this cycle (R49, R109); g0 always (R48). -/
def State.gReady (s : State) (n : GReg) : Prop := (s.th.greg n.toNat).st = .full ∧ (s.th.greg n.toNat).ready ≤ s.cycle

/-- The members of a vector group are full, may be read in this cycle, and no stream is bound to them (R49, R109, R284). -/
def State.vReady (s : State) (n : VReg) (count : Nat) : Prop :=
  ∀ i, i < count → s.me.aliasOf s.ct (n.toNat + i) = none ∧ (s.th.vreg (n.toNat + i)).st = .full ∧
    (s.th.vreg (n.toNat + i)).ready ≤ s.cycle

/-- The registers of an operand can be used. -/
def Use.readyIn (s : State) : Use → Prop
  | .rg n _ => s.gReady n
  | .wg n => s.gReady n
  | .rv n c => s.vReady n c
  | .wv n c => s.vReady n c

/-- Every operand of an instruction can be used, so that the operand check passes (R50, R51, R109). -/
def State.usable (s : State) (us : List Use) : Prop := ∀ u ∈ us, u.readyIn s

/-! ### Completion -/

/-- A thread whose instruction has retired: it goes on at a PC and may issue again from a cycle on, a stepped one to raise STEP then; the
watch skip has ended (R109, R379, R380). -/
def Thread.went (th : Thread) (pc : BitVec 14) (next : Nat) (step : Bool) : Thread :=
  { th with pc := pc, next := next, retired := th.retired + 1, wskip := none, since := none, stepDue := step }

/-- The device after the running thread's instruction has changed its thread by f and has retired, going on at a PC after a
cost; a stepped thread raises STEP in place of its next instruction (R380). -/
def State.goesOn (s : State) (pc : BitVec 14) (cost : Nat) (f : Thread → Thread) : State :=
  s.modTh fun th => (f th).went pc (s.cycle + cost) (s.steps s.cc s.ct)

/-- The running thread, changed to th by its instruction, once that has retired: it goes on at the next word after a cost. -/
def State.after (s : State) (th : Thread) (cost : Nat) : Thread := th.went (s.th.pc + 1) (s.cycle + cost) (s.steps s.cc s.ct)

/-- `goesOn` at the next word. -/
def State.completes (s : State) (cost : Nat) (f : Thread → Thread) : State := s.goesOn (s.th.pc + 1) cost f

/-- The running thread waits: the device is as it was, and the thread tries again from a cycle on. -/
def State.waits (s : State) (c : Nat) : State := s.modTh fun th => { th with next := c }

/-- An instruction of the running thread takes an exception in place of its effect (R14, R359). -/
def State.traps (s : State) (i : Instr) (e : Exc) : Prop := exec i s = .next (takeTrap e s)

/-- The running thread's instruction has issued and waits for work of its thread; it looks again in the next cycle. -/
def State.drains (s : State) : State :=
  s.modTh fun th => { th with next := s.cycle + 1, since := some (th.since.getD s.cycle) }

/-- The cost of an instruction that waited for work of its thread: the next one may issue in the cycle in which that work is
complete, and no earlier than the cycle after the issue (R184, R258, R278). -/
def State.drainCost (s : State) : Nat := if s.th.since.isSome then 0 else 1

/-- An open command has entered the matrix engine's queue (R246). -/
def State.meQueued (s : State) (op : MeOp) (geo : Nat) : State :=
  ((s.modMe fun k => { k with matrix := { k.matrix with
      cmds := k.matrix.cmds ++ [⟨k.matrix.serial, s.ct, s.th.pc.toNat, op, geo, false, none, 0, 0, 0⟩]
      serial := k.matrix.serial + 1 } }).postOnce s.cycle .meCommandStart).completes 1 id

/-- A vector instruction has written a group with a latency and ORed its flags into FPSR (R96, R134). -/
def State.vecWrote (s : State) (d : VReg) (regs r fl lat cost : Nat) : State :=
  s.completes cost fun th =>
    { th.setDest (.v d.toNat regs) .full r (s.cycle + lat) with fpsr := th.fpsr ||| BitVec.ofNat 64 fl }

/-- An instruction writes n lanes of w bits to the group VD, lane k as f k gives it, and sets a flag where a lane sets it. -/
def State.lanesResult (s : State) (i : Instr) (d : VReg) (regs w n lat cost : Nat) (f : Nat → Nat × Nat) : Prop :=
  ∃ r fl, exec i s = .next (s.vecWrote d regs r fl lat cost) ∧ (∀ k, k < n → laneOf r w k = (f k).1 % 2 ^ w) ∧
    ∀ b, fl.testBit b = true ↔ ∃ k, k < n ∧ (f k).2.testBit b = true

/-! ### Accesses -/

/-- Nothing delays or traps an access of the running thread but what its address does: no watchpoint matches, no acquire is
open, earlier accesses allow a release, and in the next 64 cycles every scratchpad bank serves the thread: in open mode no booking and no
earlier use takes it, in booked mode the thread's own booking holds it (R27, R125, R126, R185, R378). -/
def State.memoryQuiet (s : State) : Prop :=
  (∀ rd wr va n, s.watchStop rd wr va n = none) ∧ (∀ va, s.acquireStop va = none) ∧ (∀ ql va, s.releaseStop ql va = none) ∧
    ∀ b c, b < 32 → s.cycle ≤ c → c < s.cycle + 64 → s.bankStop b c = none

/-- An open thread, and no bookings or row guards on its core. -/
def State.noBookings (s : State) : Prop :=
  s.th.st ≠ .booked ∧ (∀ code tick, s.me.booked code tick = false) ∧ ∀ b tick, s.me.guarded b tick none = false

/-! ### Memory -/

/-- No byte of a vault, of a local SRAM or of off-stack memory differs. -/
def sameMemory (s t : State) : Prop :=
  (∀ a, memGet t.offstack a = memGet s.offstack a) ∧
    ∀ c a, memGet (t.coreAt c).sram a = memGet (s.coreAt c).sram a ∧ memGet (t.coreAt c).vault.mem a = memGet (s.coreAt c).vault.mem a

/-- No byte of memory differs but, of n bytes of a core's local SRAM from an offset on, perhaps those. -/
def sameButSram (s t : State) (c off n : Nat) : Prop :=
  (∀ a, memGet t.offstack a = memGet s.offstack a) ∧
    ∀ k a, memGet (t.coreAt k).vault.mem a = memGet (s.coreAt k).vault.mem a ∧
      (k ≠ c ∨ a < off ∨ off + n ≤ a → memGet (t.coreAt k).sram a = memGet (s.coreAt k).sram a)

/-- The memory of a core is in canonical form. -/
def Core.memWf (k : Core) : Prop := k.sram.wf = true ∧ k.vault.mem.wf = true

/-- A core's memories and its list of owners are in canonical form, and every owner is one of Table 6.3. -/
def Core.tidy (k : Core) : Prop := k.memWf ∧ (k.owners.map (·.1)).Pairwise (· < ·) ∧ ∀ p ∈ k.owners, p.2 ≤ 4

/-- No core but one has work of a kind. -/
def State.onlyAt (s : State) (c : Nat) (work : Core → Bool) : Prop := ∀ x, x ≠ c → work (s.coreAt x) = false

/-! ### Partitions -/

/-- Every partition's rectangle is a rectangle, and no two share a core (R43). -/
def State.partsApart (s : State) : Prop :=
  ∀ p q a b, s.partAt p = some a → s.partAt q = some b →
    (a.rect.x0 ≤ a.rect.x1 ∧ a.rect.y0 ≤ a.rect.y1) ∧ (p ≠ q → a.rect.overlaps b.rect = false)

/-! ### The invariant -/

/-- What every step keeps: the memories of the device and of the host, and those of the cores, saved cores and checkpoints with their
owners, are in canonical form; owners to come are of Table 6.3; partitions stand apart (R43). -/
def State.sound (s : State) : Prop :=
  s.offstack.wf = true ∧ s.host.mem.wf = true ∧ (∀ c, (s.coreAt c).tidy) ∧ (∀ x ∈ s.helm.saved, x.2.2.tidy) ∧
    (∀ x ∈ s.helm.checkpoints, ∀ y ∈ x.2.2, y.2.tidy) ∧ (∀ f ∈ s.flips, f.2.2 ≤ 4) ∧ s.partsApart

/-! ### The helm mailbox -/

/-- The command r is in progress, names an OP, and its parameters are zero outside the fields that the OP gives a meaning to and beyond
its length; no takeover is in progress (R391, R394). -/
def State.commanded (s : State) (r : List Byte) (op : Nat) (fields : List (Nat × Nat)) : Prop :=
  s.host.busy = some r ∧ cmdOp r = op ∧ s.helm.role ≠ .takeover ∧ cmdLen r ≤ 248 ∧
    (∀ b ∈ (cmdParams r).drop (cmdLen r), b = 0) ∧ zeroOutside fields (cmdParams r) = true

/-- The mailbox has answered a command: it is ready, and MBXSTAT and MBXRESP hold the response (Tables 14.15 and 14.16). -/
def HostIf.answered (h : HostIf) (r : List Byte) (status : Nat) (result : List Byte) : Prop :=
  h.busy = none ∧ h.lastSeq = cmdSeq r ∧ h.lastStatus = status ∧
    h.mbxresp = leBytes 4 (cmdSeq r) ++ leBytes 2 status ++ leBytes 2 result.length ++ padTo 248 result

end Sys2Proof.Machine
end

