-- ==== Sys2Proof/WellFormed.lean ====
section
/-! DEFINITION. Which instructions are well formed: the limits Table 2.8 and the class entries set on the fields of a word
(R60, R63, R64, R72, R101, R136, R152, R240), stated on the instruction and not on its encoding; for a device event, that the
cores, threads and ports it names exist (R16, R21, R46). -/

namespace Sys2Proof

/-- P = 0 with PN = 1 is not an instruction (R60). -/
def Pred.wf (q : Pred) : Bool := !(q.p.toNat == 0 && q.neg)

/-- A register number that is a multiple of n (R63). -/
def onRegs (n : Nat) (v : VReg) : Bool := v.toNat % n == 0

/-- Types 8 to 10, which the vector unit computes with (Table 5.2). -/
def isVecFloat (t : ElemTy) : Bool := t == .f32 || t == .f16 || t == .bf16

/-- Types 0 to 12, which have lanes (Table 5.2). -/
def isLane (t : ElemTy) : Bool := t.isInt || t.isFloat

/-- Registers of the operand of type t in a conversion whose other type is u (R104). -/
def cvtRegs (w : Grp) (t u : ElemTy) : Nat :=
  if u.bits ≤ t.bits then w.regs else max 1 (w.regs * t.bits / u.bits)

/-- Registers of a record whose group length is 32 times k, for k = 1, 2, 4 (Table 3.7). -/
def recordRegs (q4 : Bool) (k : Nat) : Nat :=
  if q4 then (if k = 4 then 2 else 1) else k

/-- The limits on the fields of an instruction. -/
def Instr.wf : Instr → Bool
  | .add _ _ _ _ _ q => q.wf
  | .sub _ _ _ _ _ q => q.wf
  | .and _ _ _ _ _ q => q.wf
  | .or _ _ _ _ _ q => q.wf
  | .xor _ _ _ _ _ q => q.wf
  | .andn _ _ _ _ _ q => q.wf
  | .sll _ _ _ _ _ q => q.wf
  | .srl _ _ _ _ _ q => q.wf
  | .sra _ _ _ _ _ q => q.wf
  | .min _ _ _ _ _ q => q.wf
  | .max _ _ _ _ _ q => q.wf
  | .minu _ _ _ _ _ q => q.wf
  | .maxu _ _ _ _ _ q => q.wf
  | .slt _ _ _ _ _ q => q.wf
  | .sltu _ _ _ _ _ q => q.wf
  | .seq _ _ _ _ _ q => q.wf
  | .mul _ _ _ _ _ q => q.wf
  | .mulh _ _ _ _ _ q => q.wf
  | .mulhu _ _ _ _ _ q => q.wf
  | .div _ _ _ _ _ q => q.wf
  | .divu _ _ _ _ _ q => q.wf
  | .rem _ _ _ _ _ q => q.wf
  | .remu _ _ _ _ _ q => q.wf
  | .clz _ _ _ q => q.wf
  | .ctz _ _ _ q => q.wf
  | .popc _ _ _ q => q.wf
  | .sext _ _ _ _ q => q.wf
  | .zext _ _ _ _ q => q.wf
  | .addp _ _ _ _ _ q => q.wf
  | .subp _ _ _ _ _ q => q.wf
  | .ptag _ _ _ _ _ q => q.wf
  | .gtag _ _ _ q => q.wf
  | .pva _ _ _ q => q.wf
  | .pchk _ _ _ q => q.wf
  | .ceq _ _ _ _ _ q => q.wf
  | .cne _ _ _ _ _ q => q.wf
  | .clt _ _ _ _ _ q => q.wf
  | .cltu _ _ _ _ _ q => q.wf
  | .cge _ _ _ _ _ q => q.wf
  | .cgeu _ _ _ _ _ q => q.wf
  | .pand _ _ _ q => q.wf
  | .por _ _ _ q => q.wf
  | .pxor _ _ _ q => q.wf
  | .pandn _ _ _ q => q.wf
  | .mov _ _ _ q => q.wf
  | .p2g _ _ q => q.wf
  | .g2p _ _ _ q => q.wf
  | .addi _ _ _ => true
  | .andi _ _ _ => true
  | .ori _ _ _ => true
  | .xori _ _ _ => true
  | .slli _ _ _ => true
  | .srli _ _ _ => true
  | .srai _ _ _ => true
  | .li _ _ => true
  | .lui _ _ _ => true
  | .luh _ _ _ => true
  | .lut _ _ _ => true
  | .cmpi _ _ _ _ => true
  | .br q _ => q.wf
  | .call q _ => q.wf
  | .jr _ _ q => q.wf
  | .dbnz _ _ => true
  | .ld _ _ _ _ _ => true
  | .ldu _ _ z _ _ => z != .d
  | .st _ _ _ _ _ => true
  | .vaddF d a b w t => isVecFloat t && onRegs w.regs d && onRegs w.regs a && onRegs w.regs b
  | .vsubF d a b w t => isVecFloat t && onRegs w.regs d && onRegs w.regs a && onRegs w.regs b
  | .vmulF d a b w t => isVecFloat t && onRegs w.regs d && onRegs w.regs a && onRegs w.regs b
  | .vfma d a b w t => isVecFloat t && onRegs w.regs d && onRegs w.regs a && onRegs w.regs b
  | .vfms d a b w t => isVecFloat t && onRegs w.regs d && onRegs w.regs a && onRegs w.regs b
  | .vminF d a b w t => isVecFloat t && onRegs w.regs d && onRegs w.regs a && onRegs w.regs b
  | .vmaxF d a b w t => isVecFloat t && onRegs w.regs d && onRegs w.regs a && onRegs w.regs b
  | .vminn d a b w t => isVecFloat t && onRegs w.regs d && onRegs w.regs a && onRegs w.regs b
  | .vmaxn d a b w t => isVecFloat t && onRegs w.regs d && onRegs w.regs a && onRegs w.regs b
  | .vabs d a w t => isVecFloat t && onRegs w.regs d && onRegs w.regs a
  | .vneg d a w t => isVecFloat t && onRegs w.regs d && onRegs w.regs a
  | .vcpsgn d a b w t => isVecFloat t && onRegs w.regs d && onRegs w.regs a && onRegs w.regs b
  | .vrndi d a _ w t => isVecFloat t && onRegs w.regs d && onRegs w.regs a
  | .vceqF d a b w t => isVecFloat t && onRegs w.regs d && onRegs w.regs a && onRegs w.regs b
  | .vcltF d a b w t => isVecFloat t && onRegs w.regs d && onRegs w.regs a && onRegs w.regs b
  | .vcle d a b w t => isVecFloat t && onRegs w.regs d && onRegs w.regs a && onRegs w.regs b
  | .vcun d a b w t => isVecFloat t && onRegs w.regs d && onRegs w.regs a && onRegs w.regs b
  | .vclass d a w t => isVecFloat t && onRegs w.regs d && onRegs w.regs a
  | .vgetexp d a w t => isVecFloat t && onRegs w.regs d && onRegs w.regs a
  | .vexpins d a b w t => isVecFloat t && onRegs w.regs d && onRegs w.regs a && onRegs w.regs b
  | .vaddI d a b w t => t.isInt && onRegs w.regs d && onRegs w.regs a && onRegs w.regs b
  | .vsubI d a b w t => t.isInt && onRegs w.regs d && onRegs w.regs a && onRegs w.regs b
  | .vmulI d a b w t => t.isInt && onRegs w.regs d && onRegs w.regs a && onRegs w.regs b
  | .vmulh d a b w t => t.isInt && onRegs w.regs d && onRegs w.regs a && onRegs w.regs b
  | .vadds d a b w t => t.isInt && onRegs w.regs d && onRegs w.regs a && onRegs w.regs b
  | .vsubs d a b w t => t.isInt && onRegs w.regs d && onRegs w.regs a && onRegs w.regs b
  | .vminI d a b w t => t.isInt && onRegs w.regs d && onRegs w.regs a && onRegs w.regs b
  | .vmaxI d a b w t => t.isInt && onRegs w.regs d && onRegs w.regs a && onRegs w.regs b
  | .vavg d a b w t => t.isInt && onRegs w.regs d && onRegs w.regs a && onRegs w.regs b
  | .vabsd d a b w t => t.isInt && onRegs w.regs d && onRegs w.regs a && onRegs w.regs b
  | .vsll d a b w t => t.isInt && onRegs w.regs d && onRegs w.regs a && onRegs w.regs b
  | .vsrl d a b w t => t.isInt && onRegs w.regs d && onRegs w.regs a && onRegs w.regs b
  | .vsra d a b w t => t.isInt && onRegs w.regs d && onRegs w.regs a && onRegs w.regs b
  | .vand d a b w t => t.isInt && onRegs w.regs d && onRegs w.regs a && onRegs w.regs b
  | .vor d a b w t => t.isInt && onRegs w.regs d && onRegs w.regs a && onRegs w.regs b
  | .vxor d a b w t => t.isInt && onRegs w.regs d && onRegs w.regs a && onRegs w.regs b
  | .vandn d a b w t => t.isInt && onRegs w.regs d && onRegs w.regs a && onRegs w.regs b
  | .vceqI d a b w t => t.isInt && onRegs w.regs d && onRegs w.regs a && onRegs w.regs b
  | .vcltI d a b w t => t.isInt && onRegs w.regs d && onRegs w.regs a && onRegs w.regs b
  | .vsel d a b w t => t.isInt && onRegs w.regs d && onRegs w.regs a && onRegs w.regs b
  | .vmac d a b w t => t.isInt && onRegs w.regs d && onRegs w.regs a && onRegs w.regs b
  | .vbc d _ w t => isLane t && onRegs w.regs d
  | .vins d _ _ w t => isLane t && onRegs w.regs d
  | .vext _ a _ w t => isLane t && onRegs w.regs a
  | .vperm d a b w t => isLane t && onRegs w.regs d && onRegs w.regs a && onRegs w.regs b
  | .vzip d a b w t => isLane t && onRegs (2 * w.regs) d && onRegs w.regs a && onRegs w.regs b
  | .vuzp d a w t => isLane t && onRegs (2 * w.regs) d && onRegs (2 * w.regs) a
  | .vslide d a _ w t => isLane t && onRegs w.regs d && onRegs w.regs a
  | .vrot d a _ w t => isLane t && onRegs w.regs d && onRegs w.regs a
  | .vradd _ a w t => (t.isInt || isVecFloat t) && onRegs w.regs a
  | .vrmin _ a w t => (t.isInt || isVecFloat t) && onRegs w.regs a
  | .vrmax _ a w t => (t.isInt || isVecFloat t) && onRegs w.regs a
  | .vdot4 d a b w t => (t == .i8 || t == .n8) && onRegs w.regs d && onRegs w.regs a && onRegs w.regs b
  | .vdot2 d a b w t => (t == .i16 || t == .n16 || t == .bf16) && onRegs w.regs d && onRegs w.regs a && onRegs w.regs b
  | .vcvt d a ts _ w t => isLane t && isLane ts && t != ts && onRegs (cvtRegs w t ts) d && onRegs (cvtRegs w ts t) a
  | .vq d a _ w t => w != .single && (t == .q8 || t == .q4) && onRegs (recordRegs (t == .q4) (w.regs / 2)) d && onRegs w.regs a
  | .vdq d a q4 w t => ((t == .f32 && w != .single) || ((t == .f16 || t == .bf16) && w != .octet)) && onRegs w.regs d && onRegs (recordRegs q4 (if t == .f32 then w.regs / 2 else w.regs)) a
  | .vpk d a w t => (t == .i8 || t == .n8) && onRegs (Nat.max 1 (w.regs / 2)) d && onRegs w.regs a
  | .vunpk d a w t => (t == .i8 || t == .n8) && onRegs w.regs d && onRegs (Nat.max 1 (w.regs / 2)) a
  | .vmov d a w => onRegs w.regs d && onRegs w.regs a
  | .vzero d w => onRegs w.regs d
  | .vlane d w t => t.isInt && onRegs w.regs d
  | .vrcp d a w => onRegs w.regs d && onRegs w.regs a
  | .vrsqrt d a w => onRegs w.regs d && onRegs w.regs a
  | .vsqrt d a w => onRegs w.regs d && onRegs w.regs a
  | .vdiv d a b w => onRegs w.regs d && onRegs w.regs a && onRegs w.regs b
  | .vfexp2 d a w => onRegs w.regs d && onRegs w.regs a
  | .vlog2 d a w => onRegs w.regs d && onRegs w.regs a
  | .vsinpi d a w => onRegs w.regs d && onRegs w.regs a
  | .vcospi d a w => onRegs w.regs d && onRegs w.regs a
  | .vtanh d a w => onRegs w.regs d && onRegs w.regs a
  | .vgath d _ _ w t => ((w == .single && (t == .i32 || t == .n32 || t == .f32)) || (w == .pair && (t == .i64 || t == .n64))) && onRegs w.regs d
  | .vscat d _ _ w t => ((w == .single && (t == .i32 || t == .n32 || t == .f32)) || (w == .pair && (t == .i64 || t == .n64))) && onRegs w.regs d
  | .vld d _ w t _ _ => if t == .auto then true else if t == .q8 || t == .q4 then w != .octet && onRegs (recordRegs (t == .q4) w.regs) d else onRegs w.regs d
  | .vst d _ w t _ _ => if t == .auto then true else if t == .q8 || t == .q4 then w != .octet && onRegs (recordRegs (t == .q4) w.regs) d else onRegs w.regs d
  | .mma _ ab wb s fb fa _ sha tra => pairPermitted s fa fb && (!sha || s == .bd8) && (!tra || s != .skinny) && (!(s == .sq && fa == .q8 && fb == .q4) || ab.toNat % 2 == 0) && (!(s == .bd8 && fb == .f32) || wb.toNat % 2 == 0)
  | .mgset _ _ => true
  | .mgget _ _ => true
  | .owne _ _ => true
  | .ownq _ => true
  | .mwait => true
  | .accz _ => true
  | .accst _ _ _ _ => true
  | .accld _ _ _ _ => true
  | .abld _ _ _ => true
  | .wbld _ _ _ => true
  | .twset _ _ _ => true
  | .tdec d _ _ w _ => onRegs w.regs d
  | .tdecr _ _ _ _ => true
  | .tenc _ _ _ => true
  | .tencw _ => true
  | .rowact _ => true
  | .rowpre _ => true
  | .tld _ _ _ => true
  | .tst _ _ _ => true
  | .rowq _ _ => true
  | .vsync => true
  | .pmig _ _ _ => true
  | .ptq _ _ => true
  | .cpy _ _ _ => true
  | .cpyq _ _ => true
  | .cpyw _ _ => true
  | .sbind _ _ _ => true
  | .sunb _ _ => true
  | .sparkq _ _ => true
  | .rget _ _ _ _ => true
  | .rput _ _ _ _ => true
  | .rfop _ _ _ sh op => !(op == .faddTs && sh == .d)
  | .rcas d _ _ _ => d.toNat % 2 == 0 && d.toNat != 0
  | .amsg _ _ _ => true
  | .msend _ _ _ => true
  | .mrecv _ _ _ => true
  | .rstat _ => true
  | .fop _ _ _ _ _ q z op => q.wf && !(op == .faddTs && z == .d)
  | .cas _ _ _ _ _ q _ => q.wf
  | .fence a s l m r => (l || m || r) && (s == .rect || a == 0)
  | .wait _ _ _ => true
  | .signal _ _ => true
  | .sstep _ _ => true
  | .bar _ _ => true
  | .redm _ _ _ => true
  | .ownf _ _ _ => true
  | .fencei => true
  | .book _ _ _ => true
  | .arm _ => true
  | .done => true
  | .unbook _ _ => true
  | .calq _ _ _ => true
  | .calmv _ _ _ => true
  | .spawn _ _ => true
  | .take _ _ => true
  | .seek _ _ => true
  | .tfin _ => true
  | .term _ => true
  | .dqn _ => true
  | .trap _ _ _ _ q => q.wf
  | .eret _ _ _ _ _ q => q.wf
  | .halt _ _ q => q.wf
  | .sysc _ _ _ _ _ q => q.wf
  | .brk _ q => q.wf
  | .trc _ _ _ _ q => q.wf
  | .csrr _ n => 0x400 ≤ n.toNat || csrAssigned n.toNat
  | .csrw _ _ n => 0x400 ≤ n.toNat || csrAssigned n.toNat
  | .csrs _ _ n => 0x400 ≤ n.toNat || csrAssigned n.toNat
  | .csrc _ _ n => 0x400 ≤ n.toNat || csrAssigned n.toNat
  | .handlerEntry c t => c < 256 && t < 4
  | .ringStallRelief => true
  | .haltTreeStop part _ _ => part < 16
  | .activeMessageLaunch c _ => c < 256
  | .launchQueueStart => true
  | .bookingStart => true
  | .bookingLapse => true
  | .compaction => true
  | .linkHoldRequest _ => true
  | .linkCommit => true
  | .normalRefresh => true
  | .extraRefresh => true
  | .refreshModeSample => true
  | .vaultAccessBeat c _ => c < 256
  | .vaultBeatAbandon c _ => c < 256
  | .tileBeat c _ => c < 256
  | .rowRepairCopyStart => true
  | .rowRepairRemap => true
  | .laneRepairPost => true
  | .laneRepairComplete => true
  | .layerPowerChange c _ => c < 256
  | .offstackRequest ctrl => ctrl < 16
  | .replyArrival _ _ => true
  | .refusalArrival _ _ => true
  | .agentRequestArrival c _ => c < 256
  | .agentAction => true
  | .sfuQueueStart => true
  | .sfuResultWrite => true
  | .meCommandStart => true
  | .meCommandComplete => true
  | .tencJobStart => true
  | .tencJobComplete => true
  | .streamEngineOperation => true
  | .channelResume c _ => c < 256
  | .copyComplete c _ => c < 256
  | .epochEnd => true
  | .migrationMoveStart => true
  | .migrationMoveComplete => true
  | .stealRequest victim thief thread => victim < 256 && thief < 256 && thread < 4
  | .giftArrival thief thread victim _ => thief < 256 && thread < 4 && victim < 256
  | .giftAck c => c < 256
  | .tokenForward => true
  | .barrierArrival part _ c => part < 16 && c < 256
  | .barrierRelease => true
  | .signalArrival c _ _ => c < 256
  | .waitTimerExpire => true
  | .confluenceArrival node _ _ => node < 256
  | .confluenceForward node _ => node < 256
  | .confluenceReplySplit node _ _ => node < 256
  | .flitCrcRetry port => port < 20
  | .laneDegrade port => port < 20
  | .linkReroute port => port < 20
  | .retrain port => port < 20
  | .sampleTick => true
  | .syscService c t _ _ _ _ => c < 256 && t < 4
  | .thermalSample _ => true
  | .throttleLevelApply => true
  | .contextSave c => c < 256
  | .contextRestore c _ => c < 256
  | .create => true
  | .destroy => true
  | .place => true
  | .window => true
  | .loadcode => true
  | .preempt => true
  | .stop => true
  | .resume => true
  | .checkpoint => true
  | .replay => true
  | .attest => true
  | .debugread => true
  | .policy => true
  | .journal => true
  | .clearpoison => true
  | .bar2LaunchRecord _ bytes => bytes.length == 32
  | .bar4Access _ _ _ => true
  | .crconsWrite _ => true
  | .fwlenWrite _ => true
  | .firmwareStart => true
  | .hostRegisterWrite _ _ => true
  | .powerUp => true
  | .helmTakeover => true
  | .stealRefusal thief asked => thief < 256 && asked.thread < 4 && asked.victim < 256
  | .retrainComplete port => port < 20
  | .msixVector1Signal => true

/-- Whether an instruction is an act of the device itself, which has no word (log entry 1); every other one has a word. -/
def Instr.deviceAct : Instr → Bool
  | .handlerEntry _ _ => true
  | .ringStallRelief => true
  | .haltTreeStop _ _ _ => true
  | .activeMessageLaunch _ _ => true
  | .launchQueueStart => true
  | .bookingStart => true
  | .bookingLapse => true
  | .compaction => true
  | .linkHoldRequest _ => true
  | .linkCommit => true
  | .normalRefresh => true
  | .extraRefresh => true
  | .refreshModeSample => true
  | .vaultAccessBeat _ _ => true
  | .vaultBeatAbandon _ _ => true
  | .tileBeat _ _ => true
  | .rowRepairCopyStart => true
  | .rowRepairRemap => true
  | .laneRepairPost => true
  | .laneRepairComplete => true
  | .layerPowerChange _ _ => true
  | .offstackRequest _ => true
  | .replyArrival _ _ => true
  | .refusalArrival _ _ => true
  | .agentRequestArrival _ _ => true
  | .agentAction => true
  | .sfuQueueStart => true
  | .sfuResultWrite => true
  | .meCommandStart => true
  | .meCommandComplete => true
  | .tencJobStart => true
  | .tencJobComplete => true
  | .streamEngineOperation => true
  | .channelResume _ _ => true
  | .copyComplete _ _ => true
  | .epochEnd => true
  | .migrationMoveStart => true
  | .migrationMoveComplete => true
  | .stealRequest _ _ _ => true
  | .giftArrival _ _ _ _ => true
  | .giftAck _ => true
  | .tokenForward => true
  | .barrierArrival _ _ _ => true
  | .barrierRelease => true
  | .signalArrival _ _ _ => true
  | .waitTimerExpire => true
  | .confluenceArrival _ _ _ => true
  | .confluenceForward _ _ => true
  | .confluenceReplySplit _ _ _ => true
  | .flitCrcRetry _ => true
  | .laneDegrade _ => true
  | .linkReroute _ => true
  | .retrain _ => true
  | .sampleTick => true
  | .syscService _ _ _ _ _ _ => true
  | .thermalSample _ => true
  | .throttleLevelApply => true
  | .contextSave _ => true
  | .contextRestore _ _ => true
  | .create => true
  | .destroy => true
  | .place => true
  | .window => true
  | .loadcode => true
  | .preempt => true
  | .stop => true
  | .resume => true
  | .checkpoint => true
  | .replay => true
  | .attest => true
  | .debugread => true
  | .policy => true
  | .journal => true
  | .clearpoison => true
  | .bar2LaunchRecord _ _ => true
  | .bar4Access _ _ _ => true
  | .crconsWrite _ => true
  | .fwlenWrite _ => true
  | .firmwareStart => true
  | .hostRegisterWrite _ _ => true
  | .powerUp => true
  | .helmTakeover => true
  | .stealRefusal _ _ => true
  | .retrainComplete _ => true
  | .msixVector1Signal => true
  | _ => false

end Sys2Proof
end

