-- ==== Sys2Proof/Certificates/Slice0/Obligations.lean ====
section
/-! DEFINITION. The statements about the device, family by family of the opcode table, then the whole machine. An instruction of a
thread is stated for every state in which its operands can be used (`usable`), with its predicate true and no single-step; what
a stepped, a predicated-off or a trapping instruction does has statements of its own. -/

open Sys2Proof Sys2Proof.Machine

/-! ### The scalar class -/

/-- R111, R113, Tables 4.2 and 4.4: each two-source operation writes its function of the two sources to GD after its latency,
costs what Table 4.1 gives and changes nothing else; g0 discards the result. -/
def Obligations.scalar_two_source_results : Prop :=
  ∀ (s : State) (d a b : GReg) (ea eb : Bool) (q : Pred), s.th.pred q = true →
    s.usable [.rg a ea, .rg b eb, .wg d] →
    let x := s.readG a
    let y := s.readG b
    let wrote (v : Word) (lat cost : Nat) : Host.Outcome State Fault Refusal :=
      .next (s.completes cost fun th => th.setGreg d.toNat ⟨v, .full, s.cycle + lat⟩)
    exec (.add d a b ea eb q) s = wrote (x + y) 1 1 ∧
    exec (.sub d a b ea eb q) s = wrote (x - y) 1 1 ∧
    exec (.and d a b ea eb q) s = wrote (x &&& y) 1 1 ∧
    exec (.or d a b ea eb q) s = wrote (x ||| y) 1 1 ∧
    exec (.xor d a b ea eb q) s = wrote (x ^^^ y) 1 1 ∧
    exec (.andn d a b ea eb q) s = wrote (x &&& ~~~y) 1 1 ∧
    exec (.sll d a b ea eb q) s = wrote (x <<< (y.toNat % 64)) 1 1 ∧
    exec (.srl d a b ea eb q) s = wrote (x >>> (y.toNat % 64)) 1 1 ∧
    exec (.sra d a b ea eb q) s = wrote (x.sshiftRight (y.toNat % 64)) 1 1 ∧
    exec (.min d a b ea eb q) s = wrote (if x.sle y then x else y) 1 1 ∧
    exec (.max d a b ea eb q) s = wrote (if x.sle y then y else x) 1 1 ∧
    exec (.minu d a b ea eb q) s = wrote (if x.ule y then x else y) 1 1 ∧
    exec (.maxu d a b ea eb q) s = wrote (if x.ule y then y else x) 1 1 ∧
    exec (.slt d a b ea eb q) s = wrote (if x.slt y then 1 else 0) 1 1 ∧
    exec (.sltu d a b ea eb q) s = wrote (if x.ult y then 1 else 0) 1 1 ∧
    exec (.seq d a b ea eb q) s = wrote (if x = y then 1 else 0) 1 1 ∧
    exec (.mul d a b ea eb q) s = wrote (x * y) 3 1 ∧
    exec (.mulh d a b ea eb q) s = wrote ((x.signExtend 128 * y.signExtend 128).extractLsb' 64 64) 3 1 ∧
    exec (.mulhu d a b ea eb q) s = wrote ((x.setWidth 128 * y.setWidth 128).extractLsb' 64 64) 3 1 ∧
    exec (.div d a b ea eb q) s = wrote (if y = 0 then -1 else x.sdiv y) 18 18 ∧
    exec (.divu d a b ea eb q) s = wrote (if y = 0 then -1 else x.udiv y) 18 18 ∧
    exec (.rem d a b ea eb q) s = wrote (if y = 0 then x else x.srem y) 18 18 ∧
    exec (.remu d a b ea eb q) s = wrote (if y = 0 then x else x.umod y) 18 18 ∧
    exec (.addp d a b ea eb q) s = wrote (x.extractLsb' 52 12 ++ (x.extractLsb' 0 52 + y.extractLsb' 0 52)) 1 1 ∧
    exec (.subp d a b ea eb q) s = wrote (x.extractLsb' 52 12 ++ (x.extractLsb' 0 52 - y.extractLsb' 0 52)) 1 1 ∧
    exec (.ptag d a b ea eb q) s = wrote (y.extractLsb' 0 8 ++ y.extractLsb' 8 4 ++ x.extractLsb' 0 52) 1 1

/-- R111, R113, R114, R118, Tables 4.2 and 4.4: the one-source operations, with the bit counts stated bit by bit. `pchk` copies a
pointer whose tag is valid, and raises PTAG with the VA, the format and the group length of one whose tag is not. -/
def Obligations.scalar_one_source_results : Prop :=
  ∀ (s : State) (d a : GReg) (w : ExtWidth) (ea : Bool) (q : Pred), s.th.pred q = true →
    s.usable [.rg a ea, .wg d] →
    let x := s.readG a
    let wrote (v : Word) : Host.Outcome State Fault Refusal :=
      .next (s.completes 1 fun th => th.setGreg d.toNat ⟨v, .full, s.cycle + 1⟩)
    (∃ n, n ≤ 64 ∧ exec (.clz d a ea q) s = wrote (BitVec.ofNat 64 n) ∧
      (∀ i, 64 - n ≤ i → x.getLsbD i = false) ∧ (n < 64 → x.getLsbD (63 - n) = true)) ∧
    (∃ n, n ≤ 64 ∧ exec (.ctz d a ea q) s = wrote (BitVec.ofNat 64 n) ∧
      (∀ i, i < n → x.getLsbD i = false) ∧ (n < 64 → x.getLsbD n = true)) ∧
    exec (.popc d a ea q) s = wrote (BitVec.ofNat 64 ((List.range 64).countP x.getLsbD)) ∧
    exec (.sext d a w ea q) s = wrote ((x.setWidth w.bits).signExtend 64) ∧
    exec (.zext d a w ea q) s = wrote ((x.setWidth w.bits).setWidth 64) ∧
    exec (.gtag d a ea q) s = wrote (0#52 ++ x.extractLsb' 52 4 ++ x.extractLsb' 56 8) ∧
    exec (.pva d a ea q) s = wrote (0#12 ++ x.extractLsb' 0 52) ∧
    exec (.mov d a ea q) s = wrote x ∧
    (let f := (x.extractLsb' 56 8).toNat
     let g := (x.extractLsb' 52 4).toNat
     exec (.pchk d a ea q) s = if tagValid f g then wrote x
       else .next (takeTrap { cause := 0x07, addr := (x.extractLsb' 0 52).toNat, det0 := f, det1 := g } s))

/-- R112, Table 4.3: the immediate operations. -/
def Obligations.scalar_immediate_results : Prop :=
  ∀ (s : State) (d a : GReg) (imm : BitVec 16) (n : BitVec 6), s.usable [.rg a false, .wg d] →
    let x := s.readG a
    let wrote (v : Word) : Host.Outcome State Fault Refusal :=
      .next (s.completes 1 fun th => th.setGreg d.toNat ⟨v, .full, s.cycle + 1⟩)
    exec (.addi d a imm) s = wrote (x + imm.signExtend 64) ∧
    exec (.andi d a imm) s = wrote (x &&& (0#48 ++ imm)) ∧
    exec (.ori d a imm) s = wrote (x ||| (0#48 ++ imm)) ∧
    exec (.xori d a imm) s = wrote (x ^^^ (0#48 ++ imm)) ∧
    exec (.slli d a n) s = wrote (x <<< n) ∧
    exec (.srli d a n) s = wrote (x >>> n) ∧
    exec (.srai d a n) s = wrote (x.sshiftRight' n) ∧
    exec (.li d imm) s = wrote (imm.signExtend 64) ∧
    exec (.lui d a imm) s = wrote (x.extractLsb' 32 32 ++ imm ++ x.extractLsb' 0 16) ∧
    exec (.luh d a imm) s = wrote (x.extractLsb' 48 16 ++ imm ++ x.extractLsb' 0 32) ∧
    exec (.lut d a imm) s = wrote (imm ++ x.extractLsb' 0 48)

/-- R116 to R118: the compares, the logic of predicates and `g2p` write one predicate, which p0 ignores; `p2g` writes GD. `cmpi` is not
predicated, and R117's example word decodes to it. -/
def Obligations.predicate_results : Prop :=
  ∀ (s : State) (d a' b' : PReg) (g a b : GReg) (ea eb : Bool) (imm : BitVec 16) (q : Pred), s.th.pred q = true →
    s.usable [.rg a ea, .rg b eb, .wg g] →
    let x := s.readG a
    let y := s.readG b
    let u := s.readP a'.toNat
    let v := s.readP b'.toNat
    let wrote (r : Bool) : Host.Outcome State Fault Refusal :=
      .next (s.completes 1 fun th => if d = 0 then th else { th with p := th.p.set d.toNat r d.isLt })
    exec (.ceq d a b ea eb q) s = wrote (x == y) ∧
    exec (.cne d a b ea eb q) s = wrote (!(x == y)) ∧
    exec (.clt d a b ea eb q) s = wrote (x.slt y) ∧
    exec (.cltu d a b ea eb q) s = wrote (x.ult y) ∧
    exec (.cge d a b ea eb q) s = wrote (!(x.slt y)) ∧
    exec (.cgeu d a b ea eb q) s = wrote (!(x.ult y)) ∧
    exec (.cmpi .eq d a imm) s = wrote (x == imm.signExtend 64) ∧
    exec (.cmpi .ne d a imm) s = wrote (!(x == imm.signExtend 64)) ∧
    exec (.cmpi .lt d a imm) s = wrote (x.slt (imm.signExtend 64)) ∧
    exec (.cmpi .ltu d a imm) s = wrote (x.ult (imm.setWidth 64)) ∧
    decodeWord 0x3A450064 = .ok (.cmpi .ltu 2 5 100) ∧
    exec (.pand d a' b' q) s = wrote (u && v) ∧
    exec (.por d a' b' q) s = wrote (u || v) ∧
    exec (.pxor d a' b' q) s = wrote (u ^^ v) ∧
    exec (.pandn d a' b' q) s = wrote (u && !v) ∧
    exec (.g2p d a ea q) s = wrote (x != 0) ∧
    exec (.p2g g a' q) s = .next (s.completes 1 fun th => th.setGreg g.toNat ⟨if u then 1 else 0, .full, s.cycle + 1⟩)

/-- R110, R119 to R121: a taken branch costs two cycles and goes to the PC plus the signed offset, modulo 2^14; `call` writes the
next word index to g1; `jr` goes to GA[13:0]; `dbnz` counts down and branches while the count is not 0. -/
def Obligations.branch_results : Prop :=
  ∀ (s : State) (d a : GReg) (ea : Bool) (off : BitVec 22) (o : BitVec 16) (q : Pred), s.th.pred q = true →
    s.usable [.rg a ea, .wg 1, .rg d false] →
    let tgt (n : Int) : BitVec 14 := BitVec.ofInt 14 (s.th.pc.toNat + n)
    let c := s.readG d - 1
    exec (.br q off) s = .next (s.goesOn (tgt off.toInt) 2 id) ∧
    exec (.call q off) s = .next (s.goesOn (tgt off.toInt) 2 fun th => th.setGreg 1 ⟨(th.pc + 1).setWidth 64, .full, s.cycle + 1⟩) ∧
    exec (.jr a ea q) s = .next (s.goesOn ((s.readG a).extractLsb' 0 14) 2 id) ∧
    exec (.dbnz d o) s = .next (s.goesOn (if c = 0 then s.th.pc + 1 else tgt o.toInt) (if c = 0 then 1 else 2)
      fun th => th.setGreg d.toNat ⟨c, .full, s.cycle + 1⟩)

/-- R49 to R52, R60, R61, R109: a predicated-off instruction costs one cycle and does nothing else, whatever its operands hold; this for
every instruction that takes a predicate, `eret` in privileged state. The operand check of every scalar instruction with general
registers: a result that is not ready is waited for until it is; then the first poisoned register raises WNACK with its record and
becomes full and zero; then an empty source whose trap-on-empty bit is set raises REMPTY; and the first empty register makes an open
thread wait, and a booked one raise OVRN, replayable, with the register in detail word 0 or, where its value is an abandoned vault
beat, the words of R179. -/
def Obligations.predicates_and_operand_check : Prop :=
  (∀ (s : State) (q : Pred) (d a b : GReg) (p p' p'' : PReg) (ea eb : Bool) (off : BitVec 22) (w : ExtWidth) (z : OpSize) (op : FopOp)
    (n : BitVec 5), s.th.pred q = false →
    (∀ i ∈ ([.add d a b ea eb q, .sub d a b ea eb q, .and d a b ea eb q, .or d a b ea eb q, .xor d a b ea eb q, .andn d a b ea eb q,
        .sll d a b ea eb q, .srl d a b ea eb q, .sra d a b ea eb q, .min d a b ea eb q, .max d a b ea eb q, .minu d a b ea eb q,
        .maxu d a b ea eb q, .slt d a b ea eb q, .sltu d a b ea eb q, .seq d a b ea eb q, .mul d a b ea eb q, .mulh d a b ea eb q,
        .mulhu d a b ea eb q, .div d a b ea eb q, .divu d a b ea eb q, .rem d a b ea eb q, .remu d a b ea eb q, .clz d a ea q,
        .ctz d a ea q, .popc d a ea q, .sext d a w ea q, .zext d a w ea q, .addp d a b ea eb q, .subp d a b ea eb q, .ptag d a b ea eb q,
        .gtag d a ea q, .pva d a ea q, .pchk d a ea q, .ceq p a b ea eb q, .cne p a b ea eb q, .clt p a b ea eb q, .cltu p a b ea eb q,
        .cge p a b ea eb q, .cgeu p a b ea eb q, .pand p p' p'' q, .por p p' p'' q, .pxor p p' p'' q, .pandn p p' p'' q, .mov d a ea q,
        .p2g d p q, .g2p p a ea q, .br q off, .call q off, .jr a ea q, .fop d a b ea eb q z op, .cas d a b ea eb q z,
        .trap a b ea eb q, .halt a ea q, .sysc d a b ea eb q, .brk n q, .trc a b ea eb q] : List Instr),
      exec i s = .next (s.completes 1 id)) ∧
    (s.th.priv = true → exec (.eret d a b ea eb q) s = .next (s.completes 1 id))) ∧
  (∀ (s : State) (q : Pred) (d a b : GReg) (p : PReg) (ea eb : Bool) (imm : BitVec 16) (h : BitVec 6) (r : Rel) (off : BitVec 22)
    (w : ExtWidth) (z : OpSize) (op : FopOp), s.th.pred q = true →
    let two : List (GReg × Bool) := [(a, ea), (b, eb), (d, false)]
    let one : List (GReg × Bool) := [(a, ea), (d, false)]
    let pair : List (GReg × Bool) := [(a, ea), (b, eb)]
    let plain : List (GReg × Bool) := [(a, false), (d, false)]
    let forms : List (Instr × List (GReg × Bool)) := [(.add d a b ea eb q, two), (.sub d a b ea eb q, two), (.and d a b ea eb q, two),
      (.or d a b ea eb q, two), (.xor d a b ea eb q, two), (.andn d a b ea eb q, two), (.sll d a b ea eb q, two), (.srl d a b ea eb q, two),
      (.sra d a b ea eb q, two), (.min d a b ea eb q, two), (.max d a b ea eb q, two), (.minu d a b ea eb q, two), (.maxu d a b ea eb q, two),
      (.slt d a b ea eb q, two), (.sltu d a b ea eb q, two), (.seq d a b ea eb q, two), (.mul d a b ea eb q, two), (.mulh d a b ea eb q, two),
      (.mulhu d a b ea eb q, two), (.div d a b ea eb q, two), (.divu d a b ea eb q, two), (.rem d a b ea eb q, two), (.remu d a b ea eb q, two),
      (.addp d a b ea eb q, two), (.subp d a b ea eb q, two), (.ptag d a b ea eb q, two), (.fop d a b ea eb q z op, two),
      (.cas d a b ea eb q z, two), (.clz d a ea q, one), (.ctz d a ea q, one), (.popc d a ea q, one), (.sext d a w ea q, one),
      (.zext d a w ea q, one), (.gtag d a ea q, one), (.pva d a ea q, one), (.pchk d a ea q, one), (.mov d a ea q, one),
      (.ceq p a b ea eb q, pair), (.cne p a b ea eb q, pair), (.clt p a b ea eb q, pair), (.cltu p a b ea eb q, pair), (.cge p a b ea eb q, pair),
      (.cgeu p a b ea eb q, pair), (.trap a b ea eb q, pair), (.p2g d p q, [(d, false)]), (.g2p p a ea q, [(a, ea)]), (.jr a ea q, [(a, ea)]),
      (.halt a ea q, [(a, ea)]), (.call q off, [(1, false)]), (.addi d a imm, plain), (.andi d a imm, plain), (.ori d a imm, plain),
      (.xori d a imm, plain), (.slli d a h, plain), (.srli d a h, plain), (.srai d a h, plain), (.lui d a imm, plain), (.luh d a imm, plain),
      (.lut d a imm, plain), (.li d imm, [(d, false)]), (.cmpi r p a imm, [(a, false)]), (.dbnz d imm, [(d, false)])] ++
      (if s.th.priv then [(.eret d a b ea eb q, two)] else []) ++ (if s.th.st = .booked then [] else [(.sysc d a b ea eb q, two)])
    let due (l : List (GReg × Bool)) : Nat := l.foldl (fun m x => max m (s.th.greg x.1.toNat).ready) 0
    let st (x : GReg × Bool) : RegSt := (s.th.greg x.1.toNat).st
    ∀ f ∈ forms, let i := f.1; let l := f.2
      (s.cycle < due l → exec i s = .next (s.waits (due l))) ∧
      (due l ≤ s.cycle →
        (∀ (k : Nat) (x : GReg × Bool) (va reason target : Nat), l[k]? = some x → st x = .poisoned va reason target →
          (∀ (j : Nat) (y : GReg × Bool), j < k → l[j]? = some y → st y = .full ∨ st y = .empty) →
          s.traps i { cause := 0x0C, addr := va, det0 := x.1.toNat, det1 := reason + target % 2 ^ 18 * 256,
                      effect := if s.th.priv && x.1.toNat ≤ 8 then .clearHg (x.1.toNat - 1) else .clearG x.1.toNat }) ∧
        ((∀ x ∈ l, st x = .full ∨ st x = .empty) →
          ((∃ x ∈ l, x.2 = true ∧ st x = .empty) → s.traps i { cause := 0x08 }) ∧
          ((∀ x ∈ l, x.2 = true → st x = .full) → ∀ x, l.find? (fun x => st x == .empty) = some x →
            (s.th.st ≠ .booked → exec i s = .next (s.waits (s.cycle + 1))) ∧
            (s.th.st = .booked → s.traps i (s.me.ovrnReg s.ct x.1.toNat)))))) ∧
  ∀ (k : Core) (t n : Nat),
    ((∀ x ∈ k.vault.accs, x.abandoned = false) → k.ovrnReg t n = { cause := 0x0B, det0 := n, replay := true }) ∧
    ∀ o x, (k.thr t).outs.find? (fun o => destCovers (k.thr t).priv o.dest n) = some o →
      k.vault.accs.find? (fun x => x.by_ == .thread t && x.acc == o.id && x.abandoned) = some x →
      k.ovrnReg t n = { cause := 0x0B, det0 := x.lateWords.1, det1 := x.lateWords.2, replay := true }

/-! ### The scalar memory class -/

/-- R122 to R125, R127: a scalar access to the thread's own scratchpad, code store, buffers and accumulators. The address is computed by
`effective`; a load writes its sign-extended or zero-extended bytes after three cycles, a store writes its low bytes in its issue cycle;
in the scratchpad, qualifier 11 empties the granule of a load and fills that of a store, and 10 fills that of a store; every other
byte and granule is as before. A store to the code store leaves the threads of the core the words it changes as stale (R38). -/
def Obligations.local_scalar_access : Prop :=
  ∀ (s : State) (d a : GReg) (z : Size) (ql : Qual) (off : BitVec 12) (o : Nat), s.memoryQuiet →
    s.usable [.rg a false, .wg d] → s.me.sram.wf = true →
    s.effective a (off.toInt * z.bytes) = (localBase + o, false) → o % z.bytes = 0 → o < 0x280000 → placeOf o ≠ .hole →
    (∀ u, unitOf o = some u → s.me.owner u = 0) → o < 0x100000 ∨ ql = .plain ∨ ql = .order →
    (s.qualStop false ql (localBase + o) o z.bytes = none →
      ∀ signed : Bool, ∃ t,
        exec (if signed then .ld d a z ql off else .ldu d a z ql off) s = .next t ∧
        t.th = s.after (s.th.setGreg d.toNat ⟨if signed then BitVec.ofInt 64 (signedOf (8 * z.bytes) (memGetN s.me.sram o z.bytes))
          else BitVec.ofNat 64 (memGetN s.me.sram o z.bytes), .full, s.cycle + 3⟩) 1 ∧
        sameMemory s t ∧ ∀ g, t.me.granFull g = if ql = .exchange ∧ g = o / 16 then false else s.me.granFull g) ∧
    (s.qualStop true ql (localBase + o) o z.bytes = none → s.th.priv = true ∨ o < 0x10F000 ∨ 0x110000 ≤ o →
      ∃ t, exec (.st d a z ql off) s = .next t ∧ t.th = { s.after s.th 1 with stale := t.th.stale } ∧
        (o < 0x100000 ∨ 0x110000 ≤ o → t.th.stale = s.th.stale) ∧
        memGetN t.me.sram o z.bytes = (s.readG d).toNat % 2 ^ (8 * z.bytes) ∧
        (∀ c x, c ≠ s.cc ∨ x < o ∨ o + z.bytes ≤ x → memGet (t.coreAt c).sram x = memGet (s.coreAt c).sram x) ∧
        (∀ c x, memGet (t.coreAt c).vault.mem x = memGet (s.coreAt c).vault.mem x) ∧ t.offstack = s.offstack ∧
        ∀ g, t.me.granFull g = if (ql = .full ∨ ql = .exchange) ∧ g = o / 16 then true else s.me.granFull g)

/-- R31, R124, R126, R153, R154, R166, R315: a scalar or vector access to the core's own vault or to off-stack memory. One to the vault by an
open thread is issued to the vault controller in its issue cycle, at the physical address its translation gives, behind the
accesses that are there (that it does not wait at issue for its bank is the reading of log entry 62); one to off-stack memory
leaves as one OP flit for each controller's 4 KiB line that it touches. A load marks its destination empty, and no byte changes
until its beat or its controller performs it. -/
def Obligations.vault_scalar_access : Prop :=
  ∀ (s : State) (d a : GReg) (v : VReg) (z : Size) (w : Grp) (ty : ElemTy) (ql : Qual) (off : BitVec 12) (off8 : BitVec 8) (sh : VecShape)
    (va pa : Nat), s.memoryQuiet → s.usable [.rg a false, .wg d] → ql = .plain ∨ ql = .order →
    let issued (i : Instr) (store signed : Bool) (n data : Nat) (dest : Dest) : Prop :=
      let th := if store then s.th else s.th.setDest dest .empty 0 0
      let leaves (t : State) (x : Access) : Prop := exec i s = .next t ∧ sameMemory s t ∧
        t.th = s.after { th with outs := s.th.outs ++ [x], serial := s.th.serial + 1 } 1 ∧ x.id = s.th.serial ∧ x.va = va ∧ x.bytes = n ∧
        x.store = store ∧ x.dest = dest ∧ x.signed = signed ∧ x.acquire = (!store && ql == .order) ∧ x.tile = false
      (s.noBookings → s.me.vault.rowErrs = [] → s.translate s.cc s.me.ctx va (!store) store = .vault pa →
        ∃ t x y, leaves t x ∧ x.kind = .vault ∧ t.me.vault.accs.getLast? = some y ∧ y.id = s.me.vault.serial ∧
          (∀ u, u.id ≠ y.id → (u ∈ t.me.vault.accs ↔ u ∈ s.me.vault.accs)) ∧ y.by_ = .thread s.ct ∧ y.acc = x.id ∧ y.va = va ∧ y.n = n ∧
          y.op = (if store then .store else .load) ∧ (store = true → y.data = data) ∧
          (let m := min n (8192 - pa % 8192)
           y.segs.map (fun g => (g.pa, g.n, g.off, g.moved)) = (pa, m, 0, 0) :: if m = n then [] else [(pa + m, n - m, m, 0)]) ∧
          (s.cycle + 1, .vaultAccessBeat s.cc y.id) ∈ t.agenda) ∧
      (s.me.net.replay = none → s.translate s.cc s.me.ctx va (!store) store = .offstack pa →
        ∃ t x, leaves t x ∧ x.kind = .off ∧
          (let m := min n (4096 - pa % 4096)
           let flit (k p at_ n : Nat) : MeshFlit := ⟨⟨.openOp, s.cc, s.ct, .off (ctrlOf p), .request ⟨.thread s.cc s.ct (4 * s.th.serial + k),
             s.me.ctx, s.cc, s.ct, .off (ctrlOf p), if store then .put else .get, p, n, (if store then data else 0) / 2 ^ (8 * at_) % 2 ^ (8 * n),
             0⟩⟩, s.cc, 4, s.cycle + 1, false, false, none⟩
           t.mesh = s.mesh ++ flit 0 pa 0 m :: if m = n then [] else [flit 1 (pa + m) m (n - m)]))
    (s.effective a (off.toInt * z.bytes) = (va, false) → va % z.bytes = 0 → pa % 65536 = va % 65536 →
      issued (.ld d a z ql off) false true z.bytes 0 (s.th.destOf d.toNat) ∧
      issued (.ldu d a z ql off) false false z.bytes 0 (s.th.destOf d.toNat) ∧
      issued (.st d a z ql off) true false z.bytes ((s.readG d).toNat % 2 ^ (8 * z.bytes)) .none) ∧
    (vecShape v w ty (s.readG a).toNat = .ok sh → 0 < sh.n → sh.n ≤ 64 * sh.regs → sh.regs ≤ 8 → s.usable [.rv v sh.regs, .wv v sh.regs] →
      s.effective a (off8.toInt * 64) = (va, false) → va % sh.align = 0 → va % 65536 + sh.n ≤ 65536 → pa % 65536 = va % 65536 →
      issued (.vld v a w ty ql off8) false false sh.n 0 (.v v.toNat sh.regs) ∧
      issued (.vst v a w ty ql off8) true false sh.n (s.readV v sh.regs % 2 ^ (8 * sh.n)) .none)

/-- R122, R125, R127, R129, R153, R156, R179, R361, R378: the faults of scalar and vector accesses whose registers can be used and whose bytes
lie in one 64 KiB block, in their order: ALIGN with the address; WATCH with the mask of the watchpoints that match; PAGE; PROT of the
page, of a hole, of a qualifier outside the scratchpad (detail word 1), of a redirected address that is not off-stack (2), of a
user store to the handler's region (7); FOREIGN; OWNER at the first byte that an engine owns; BOOKV of a booked thread that does not
hold the bank, with its code and task tick; OVRN of one that an acquire delays; and RPAIR of a vault load to a row under repair. A
page in migration makes an open thread wait. -/
def Obligations.misaligned_access : Prop :=
  (∀ (s : State) (d a : GReg) (v : VReg) (z : Size) (w : Grp) (ty : ElemTy) (ql : Qual) (off : BitVec 12) (off8 : BitVec 8) (sh : VecShape),
    let faults (i : Instr) (store : Bool) (n align : Nat) (at_ : Nat × Bool) : Prop :=
      let va := at_.1
      let m := s.watchMask (!store) store va n
      let x := s.translate s.cc s.me.ctx va (!store) store
      let granule : Prop := ql = .full ∨ ql = .exchange
      let b := s.me.booking (s.th.slot.getD 0)
      let bookv (code : Nat) : Exc := { cause := 0x0A, det0 := code, det1 := (s.tick + b.k0 / 8 + 2 ^ 48 - b.start) % 2 ^ 48 }
      (va % align ≠ 0 → s.traps i { cause := 0x03, addr := va }) ∧
      (va % align = 0 → m ≠ 0 → s.traps i { cause := 0x10, addr := va, det0 := m, replay := true }) ∧
      (va % align = 0 → m = 0 → va % 65536 + n ≤ 65536 →
        (x = .page → s.traps i { cause := 0x04, addr := va }) ∧
        (x = .prot → s.traps i { cause := 0x05, addr := va }) ∧
        (x = .moving → ¬ granule → s.th.st ≠ .booked → exec i s = .next (s.waits (s.cycle + 1))) ∧
        (∀ c, x = .foreign c → ¬ granule → at_.2 = false → s.traps i { cause := 0x06, addr := va }) ∧
        (granule → x = .moving ∨ (∃ c, x = .foreign c) ∨ (∃ pa, x = .vault pa) ∨ (∃ pa, x = .offstack pa) ∨
          (∃ o, x = .loc o ∧ 0x100000 ≤ o ∧ placeOf o ≠ .hole) → s.traps i { cause := 0x05, addr := va, det0 := 1 }) ∧
        (¬ granule → at_.2 = true → (∃ c, x = .foreign c) ∨ (∃ pa, x = .vault pa) ∨ (∃ o, x = .loc o ∧ placeOf o ≠ .hole) →
          s.traps i { cause := 0x05, addr := va, det0 := 2 }) ∧
        (∀ o, x = .loc o → placeOf o = .hole → s.traps i { cause := 0x05, addr := va }) ∧
        (∀ o, x = .loc o → ¬ granule → at_.2 = false → store = true → s.th.priv = false → 0x100000 ≤ o → o < 0x110000 → 0x10F000 < o + n →
          s.traps i { cause := 0x05, addr := va + (0x10F000 - o), det0 := 7 }) ∧
        (∀ o u, x = .loc o → o < 0x100000 ∨ ¬ granule → at_.2 = false → placeOf o ≠ .hole → unitOf o = some u → s.me.owner u ≠ 0 →
          s.traps i { cause := 0x09, addr := va }) ∧
        (∀ o, x = .loc o → o < 0x100000 → at_.2 = false → s.me.engineByte o n = none → s.th.st = .booked →
          s.me.ownHolds s.th (0x10 + bankOf o) s.tick = false → s.traps i (bookv (0x10 + bankOf o))) ∧
        (∀ pa, x = .vault pa → ¬ granule → at_.2 = false → pa % 65536 = va % 65536 →
          (s.th.st = .booked → s.me.ownHolds s.th (0x40 + vbank pa) s.tick = false → s.traps i (bookv (0x40 + vbank pa))) ∧
          (s.noBookings → (∀ u, s.acquireStop u = none) → store = false → ∀ r, s.me.vault.repairOf (vbank pa) (vrow pa) = some r →
            s.traps i { cause := 0x0D, addr := va, det0 := r.bank * 2 ^ 13 + r.row * 2 ^ 18, det1 := r.remapAt.getD (2 ^ 64 - 1), replay := true })) ∧
        (∀ pa, x = .offstack pa → ¬ granule → (∃ o ∈ s.th.outs, o.acquire = true) → (∀ y ∈ s.me.vault.accs, y.abandoned = false) →
          (s.th.st = .booked → s.traps i { cause := 0x0B, addr := va, replay := true }) ∧
          (s.th.st ≠ .booked → exec i s = .next (s.waits (s.cycle + 1)))))
    (s.usable [.rg a false, .wg d] → let at_ := s.effective a (off.toInt * z.bytes)
      faults (.ld d a z ql off) false z.bytes z.bytes at_ ∧ faults (.ldu d a z ql off) false z.bytes z.bytes at_ ∧
      faults (.st d a z ql off) true z.bytes z.bytes at_) ∧
    (vecShape v w ty (s.readG a).toNat = .ok sh → 0 < sh.n → sh.n ≤ 64 * sh.regs → sh.regs ≤ 8 →
      s.usable [.rg a false, .rv v sh.regs, .wv v sh.regs] → let at_ := s.effective a (off8.toInt * 64)
      (at_.2 = true → (s.effective a (off8.toInt * 64 + sh.n - 1)).2 = true) →
      faults (.vld v a w ty ql off8) false sh.n sh.align at_ ∧ faults (.vst v a w ty ql off8) true sh.n sh.align at_)) ∧
  ∀ (s : State) (rd wr : Bool) (va n i : Nat), i < 4 → (bitOf (s.watchMask rd wr va n) i = true ↔
    s.th.priv = false ∧ (s.ctxOf s.me.ctx).dbg = true ∧ s.th.wskip ≠ some s.th.pc ∧
      let w := ((s.me.watch[i]?).getD 0).toNat
      let size := 2 ^ bitsOf w 60 56
      let base := w % 2 ^ 52 / size * size
      bitOf w 63 = true ∧ ((rd = true ∧ bitOf w 62 = true) ∨ (wr = true ∧ bitOf w 61 = true)) ∧ va < base + size ∧ base < va + n)

/-! ### The vector classes -/

/-- R133, R137 to R141, Tables 5.1 and 5.3: each floating lane operation gives every lane of VD its value of the same lanes of the
sources in the mode of FPSR[1:0], sets the flags of its lanes, and changes nothing else. -/
def Obligations.float_lane_results : Prop :=
  ∀ (s : State) (d a b : VReg) (w : Grp) (t : ElemTy) (m : RndSel),
    s.usable [.rv a w.regs, .rv b w.regs, .rv d w.regs, .wv d w.regs] →
    let f := t.ffmt
    let x (k : Nat) := laneOf (s.readV a w.regs) t.bits k
    let y (k : Nat) := laneOf (s.readV b w.regs) t.bits k
    let z (k : Nat) := laneOf (s.readV d w.regs) t.bits k
    let gives (i : Instr) (extra : Nat) (g : Nat → Nat × Nat) : Prop :=
      s.lanesResult i d w.regs t.bits (512 * w.regs / t.bits) (w.regs + extra) w.regs g
    gives (.vaddF d a b w t) 3 (fun k => f.addR s.rm (f.value (x k)) (f.value (y k))) ∧
    gives (.vsubF d a b w t) 3 (fun k => f.addR s.rm (f.value (x k)) (f.value (y k)).neg) ∧
    gives (.vmulF d a b w t) 3 (fun k => f.mulR s.rm (f.value (x k)) (f.value (y k))) ∧
    gives (.vfma d a b w t) 3 (fun k => f.fmaR s.rm (f.value (x k)) (f.value (y k)) (f.value (z k))) ∧
    gives (.vfms d a b w t) 3 (fun k => f.fmaR s.rm (f.value (x k)) (f.value (y k)) (f.value (z k)).neg) ∧
    gives (.vminF d a b w t) 3 (fun k => f.minmax true false (x k) (y k)) ∧
    gives (.vmaxF d a b w t) 3 (fun k => f.minmax false false (x k) (y k)) ∧
    gives (.vminn d a b w t) 3 (fun k => f.minmax true true (x k) (y k)) ∧
    gives (.vmaxn d a b w t) 3 (fun k => f.minmax false true (x k) (y k)) ∧
    gives (.vabs d a w t) 1 (fun k => (x k % f.sign, 0)) ∧
    gives (.vneg d a w t) 1 (fun k => ((x k + f.sign) % (2 * f.sign), 0)) ∧
    gives (.vcpsgn d a b w t) 1 (fun k => (x k % f.sign + y k / f.sign * f.sign, 0)) ∧
    gives (.vrndi d a m w t) 1 (fun k => f.rndi (m.mode s.rm) (x k)) ∧
    gives (.vceqF d a b w t) 1 (fun k => compareLane f .eq (x k) (y k)) ∧
    gives (.vcltF d a b w t) 1 (fun k => compareLane f .lt (x k) (y k)) ∧
    gives (.vcle d a b w t) 1 (fun k => compareLane f .le (x k) (y k)) ∧
    gives (.vcun d a b w t) 1 (fun k => compareLane f .un (x k) (y k)) ∧
    gives (.vclass d a w t) 1 (fun k => (2 ^ f.classOf (x k), 0)) ∧
    gives (.vgetexp d a w t) 1 (fun k => f.getexp (x k)) ∧
    gives (.vexpins d a b w t) 3 (fun k => f.expins (x k) (y k))

/-- R133, R142, Table 5.6: each integer lane operation gives every lane of VD the low bits of its exact value, by the signedness
of the type; a shift by the width or more gives 0, or the sign; no flag changes. -/
def Obligations.integer_lane_results : Prop :=
  ∀ (s : State) (d a b : VReg) (w : Grp) (t : ElemTy),
    s.usable [.rv a w.regs, .rv b w.regs, .rv d w.regs, .wv d w.regs] → t.isInt = true →
    let x (k : Nat) := laneOf (s.readV a w.regs) t.bits k
    let y (k : Nat) := laneOf (s.readV b w.regs) t.bits k
    let z (k : Nat) := laneOf (s.readV d w.regs) t.bits k
    let u := fun n => t.int n
    let gives (i : Instr) (extra : Nat) (g : Nat → Int) : Prop :=
      s.lanesResult i d w.regs t.bits (512 * w.regs / t.bits) (w.regs + extra) w.regs fun k => (cutTo t.bits (g k), 0)
    gives (.vaddI d a b w t) 1 (fun k => u (x k) + u (y k)) ∧
    gives (.vsubI d a b w t) 1 (fun k => u (x k) - u (y k)) ∧
    gives (.vmulI d a b w t) 3 (fun k => u (x k) * u (y k)) ∧
    gives (.vmulh d a b w t) 3 (fun k => u (x k) * u (y k) / (2 ^ t.bits : Nat)) ∧
    gives (.vadds d a b w t) 1 (fun k => t.clamp (u (x k) + u (y k))) ∧
    gives (.vsubs d a b w t) 1 (fun k => t.clamp (u (x k) - u (y k))) ∧
    gives (.vminI d a b w t) 1 (fun k => if u (x k) ≤ u (y k) then u (x k) else u (y k)) ∧
    gives (.vmaxI d a b w t) 1 (fun k => if u (x k) ≤ u (y k) then u (y k) else u (x k)) ∧
    gives (.vavg d a b w t) 1 (fun k => (u (x k) + u (y k) + 1) / 2) ∧
    gives (.vabsd d a b w t) 1 (fun k => ((u (x k) - u (y k)).natAbs : Int)) ∧
    gives (.vsll d a b w t) 1 (fun k => if t.bits ≤ y k then 0 else x k * 2 ^ y k) ∧
    gives (.vsrl d a b w t) 1 (fun k => if t.bits ≤ y k then 0 else x k / 2 ^ y k) ∧
    gives (.vsra d a b w t) 1 (fun k => signedOf t.bits (x k) / (2 ^ min (y k) (t.bits - 1) : Nat)) ∧
    gives (.vand d a b w t) 1 (fun k => (x k &&& y k : Nat)) ∧
    gives (.vor d a b w t) 1 (fun k => (x k ||| y k : Nat)) ∧
    gives (.vxor d a b w t) 1 (fun k => (x k ^^^ y k : Nat)) ∧
    gives (.vandn d a b w t) 1 (fun k => (x k &&& (2 ^ t.bits - 1 - y k) : Nat)) ∧
    gives (.vceqI d a b w t) 1 (fun k => if x k = y k then -1 else 0) ∧
    gives (.vcltI d a b w t) 1 (fun k => if u (x k) < u (y k) then -1 else 0) ∧
    gives (.vsel d a b w t) 1 (fun k => if z k = 0 then y k else x k) ∧
    gives (.vmac d a b w t) 3 (fun k => u (z k) + u (x k) * u (y k))

/-- R133, R143, R144, R147, Table 5.7: the permutes and the register moves, lane by lane; `vext` writes a general register. `vzip`
interleaves the lanes of two groups into a group of twice the registers, and `vuzp` undoes it. -/
def Obligations.permute_results : Prop :=
  ∀ (s : State) (d a b : VReg) (e h : GReg) (w : Grp) (t : ElemTy), (t.isInt = true ∨ t.isFloat = true) →
    let n := 512 * w.regs / t.bits
    (s.usable [.rv a w.regs, .rv b w.regs, .rv a (2 * w.regs), .wv d (2 * w.regs)] →
      s.lanesResult (.vzip d a b w t) d (2 * w.regs) t.bits (2 * n) (2 * w.regs + 1) (2 * w.regs)
        (fun k => (laneOf (s.readV (if k % 2 = 0 then a else b) w.regs) t.bits (k / 2), 0)) ∧
      s.lanesResult (.vuzp d a w t) d (2 * w.regs) t.bits (2 * n) (2 * w.regs + 1) (2 * w.regs)
        (fun k => (laneOf (s.readV a (2 * w.regs)) t.bits (if k < n then 2 * k else 2 * (k - n) + 1), 0))) ∧
    (s.usable [.rv a w.regs, .rv b w.regs, .rv d w.regs, .wv d w.regs, .rg e false, .rg h false, .wg e] →
    let x (k : Nat) := laneOf (s.readV a w.regs) t.bits k
    let y (k : Nat) := laneOf (s.readV b w.regs) t.bits k
    let z (k : Nat) := laneOf (s.readV d w.regs) t.bits k
    let i := (s.readG h).toInt
    let gives (j : Instr) (lat cost : Nat) (g : Nat → Nat) : Prop :=
      s.lanesResult j d w.regs t.bits n lat cost fun k => (g k, 0)
    gives (.vbc d e w t) (w.regs + 1) w.regs (fun _ => (s.readG e).toNat) ∧
    gives (.vins d e h w t) 2 1 (fun k => if k = (s.readG h).toNat % n then (s.readG e).toNat else z k) ∧
    gives (.vperm d a b w t) (w.regs + 2) w.regs (fun k => x (y k % n)) ∧
    gives (.vslide d a h w t) (w.regs + 2) w.regs (fun k => if 0 ≤ k + i ∧ k + i < n then x (k + i).toNat else 0) ∧
    gives (.vrot d a h w t) (w.regs + 2) w.regs (fun k => x ((k + i) % n).toNat) ∧
    gives (.vlane d w t) (w.regs + 1) w.regs (fun k => k) ∧
    gives (.vmov d a w) (w.regs + 1) w.regs x ∧
    gives (.vzero d w) (w.regs + 1) w.regs (fun _ => 0) ∧
    exec (.vext e a h w t) s = .next (s.completes 1 fun th => th.setGreg e.toNat
      ⟨if t.isSigned then BitVec.ofInt 64 (signedOf t.bits (x ((s.readG h).toNat % n))) else BitVec.ofNat 64 (x ((s.readG h).toNat % n)),
        .full, s.cycle + 2⟩))

/-- R145, R146: integer reductions are exact sums and extremes in one register; dot products add exact products to 32-bit lanes;
float reductions and the bf16 dot product round as their entries give. -/
def Obligations.reduction_results : Prop :=
  ∀ (s : State) (d a b : VReg) (w : Grp) (t : ElemTy), (t.isInt = true ∨ isVecFloat t = true) →
    s.usable [.rv a w.regs, .rv b w.regs, .rv d w.regs, .wv d w.regs, .wv d 1] →
    let n := 512 * w.regs / t.bits
    let x (k : Nat) := laneOf (s.readV a w.regs) t.bits k
    let y (k : Nat) := laneOf (s.readV b w.regs) t.bits k
    let z (k : Nat) := laneOf (s.readV d w.regs) 32 k
    let xs := (List.range n).map x
    let one (i : Instr) (r fl lat : Nat) : Prop := exec i s = .next (s.vecWrote d 1 r fl lat w.regs)
    (t.isInt = true →
      one (.vradd d a w t) (cutTo 64 (xs.map t.int).sum) 0 (w.regs + n.log2 + 1) ∧
      (∃ k, k < n ∧ (∀ j, j < n → t.int (x k) ≤ t.int (x j)) ∧ one (.vrmin d a w t) (x k) 0 (w.regs + n.log2 + 1)) ∧
      (∃ k, k < n ∧ (∀ j, j < n → t.int (x j) ≤ t.int (x k)) ∧ one (.vrmax d a w t) (x k) 0 (w.regs + n.log2 + 1)) ∧
      s.lanesResult (.vdot4 d a b w t) d w.regs 32 (16 * w.regs) (w.regs + 3) w.regs (fun j =>
        (cutTo 32 (z j + ((List.range 4).map fun i => t.int (x (4 * j + i)) * t.int (y (4 * j + i))).sum), 0)) ∧
      s.lanesResult (.vdot2 d a b w t) d w.regs 32 (16 * w.regs) (w.regs + 3) w.regs (fun j =>
        (cutTo 32 (z j + ((List.range 2).map fun i => t.int (x (2 * j + i)) * t.int (y (2 * j + i))).sum), 0))) ∧
    (isVecFloat t = true →
      one (.vradd d a w t) ((reduceTree (fun u v => t.ffmt.addR s.rm (t.ffmt.value u) (t.ffmt.value v)) 16 xs).1.headD 0)
        (reduceTree (fun u v => t.ffmt.addR s.rm (t.ffmt.value u) (t.ffmt.value v)) 16 xs).2 (w.regs + 3 * n.log2) ∧
      one (.vrmin d a w t) ((reduceTree (t.ffmt.minmax true false) 16 xs).1.headD 0) (reduceTree (t.ffmt.minmax true false) 16 xs).2
        (w.regs + n.log2 + 1) ∧
      one (.vrmax d a w t) ((reduceTree (t.ffmt.minmax false false) 16 xs).1.headD 0) (reduceTree (t.ffmt.minmax false false) 16 xs).2
        (w.regs + n.log2 + 1) ∧
      s.lanesResult (.vdot2 d a b w t) d w.regs 32 (16 * w.regs) (w.regs + 3) w.regs (fun j =>
        let v (k : Nat) := t.ffmt.value k
        dotBf16 s.rm (v (x (2 * j))) (v (y (2 * j))) (v (x (2 * j + 1))) (v (y (2 * j + 1))) (ElemTy.f32.ffmt.value (z j))))

/-- R104 to R108: conversions. `vcvt` converts every element, `vq` writes one record whose codes are the quantised elements, `vdq`
gives the rounded values of a record's elements, and an ill-formed record's elements are the default NaN; `vpk` clamps to
nibbles and `vunpk` extends them. -/
def Obligations.conversion_results : Prop :=
  ∀ (s : State) (d a b : VReg) (w : Grp) (ts t : ElemTy) (sat q4 : Bool), (t.isInt = true ∨ t.isFloat = true) →
    (ts.isInt = true ∨ ts.isFloat = true) →
    let n := 512 * w.regs / max t.bits ts.bits
    let gs := max 1 (n * ts.bits / 512)
    let gd := max 1 (n * t.bits / 512)
    let G := 16 * w.regs
    let H := 512 * w.regs / t.bits
    let half := max 1 (w.regs / 2)
    (s.usable [.rv a gs, .wv d gd] →
      s.lanesResult (.vcvt d a ts sat w t) d gd t.bits n (w.regs + 3) w.regs
        (fun k => cvtElem ts t sat s.rm (laneOf (s.readV a gs) ts.bits k))) ∧
    (s.usable [.rv a w.regs, .rv b 1, .wv d (qRegs q4 G)] → w ≠ .single →
      let c := s.readV b 1 % 2 ^ 32
      let Q := if q4 then 15 else 255
      let value (k : Nat) := ElemTy.f32.ffmt.value (laneOf (s.readV a w.regs) 32 k)
      let auto := autoScale Q (((List.range G).map value).filterMap f32Units)
      let sc := if bitOf c 24 then auto.1 else bitsOf c 15 0
      let z := if bitOf c 24 then auto.2 else if q4 then bitsOf c 19 16 else bitsOf c 23 16
      let code (k : Nat) := quantise s.rm Q sc z (value k)
      ∃ r fl, exec (.vq d a b w (if q4 then .q4 else .q8)) s = .next (s.vecWrote d (qRegs q4 G) r fl (w.regs + 7) w.regs) ∧
        (∀ k, k < G → recordCode q4 r k = (code k).1) ∧
        bitsOf r (8 * recordBytes q4 G - 17) (8 * recordBytes q4 G - 32) = sc % 2 ^ 16 ∧
        bitsOf r (8 * recordBytes q4 G - 1) (8 * recordBytes q4 G - 16) = z ∧
        ∀ i, fl.testBit i = true ↔ ∃ k, k < G ∧ (code k).2.testBit i = true) ∧
    (s.usable [.rv a (qRegs q4 H), .wv d w.regs] → t.isFloat = true →
      s.lanesResult (.vdq d a q4 w t) d w.regs t.bits H (w.regs + 3) w.regs (fun k =>
        match recordValue q4 H (s.readV a (qRegs q4 H)) k with
        | some v => t.ffmt.roundVal s.rm false v
        | none => (t.ffmt.nan, 0x10))) ∧
    (s.usable [.rv a w.regs, .wv d half] → t.bits = 8 → t.isInt = true →
      s.lanesResult (.vpk d a w t) d half 4 (64 * w.regs) (w.regs + 1) w.regs (fun k =>
        let v := t.int (laneOf (s.readV a w.regs) 8 k)
        (cutTo 4 (if t.isSigned then (if v < -8 then -8 else if 7 < v then 7 else v) else if 15 < v then 15 else v), 0))) ∧
    (s.usable [.rv a half, .wv d w.regs] → t.bits = 8 → t.isInt = true →
      s.lanesResult (.vunpk d a w t) d w.regs 8 (64 * w.regs) (w.regs + 1) w.regs (fun k =>
        let v := laneOf (s.readV a half) 4 k
        (cutTo 8 (if t.isSigned then signedOf 4 v else v), 0)))

/-- R148, R149: a special function in open mode marks VD empty and enters the unit's queue with its operands and rounding mode, or waits for
a place among eight; in booked mode it raises BOOKV where its booking does not hold the unit, and else starts at once and VD is written
with the fixed latency. -/
def Obligations.special_functions : Prop :=
  ∀ (s : State) (d a b : VReg) (w : Grp), s.usable [.rv a w.regs, .rv b w.regs, .wv d w.regs] →
    ∀ p ∈ ([(.vrcp d a w, .rcp, false), (.vrsqrt d a w, .rsqrt, false), (.vsqrt d a w, .sqrt, false), (.vdiv d a b w, .div, true),
        (.vfexp2 d a w, .exp2, false), (.vlog2 d a w, .log2, false), (.vsinpi d a w, .sinpi, false), (.vcospi d a w, .cospi, false),
        (.vtanh d a w, .tanh, false)] : List (Instr × SfuFn × Bool)),
      let y := if p.2.2 then s.readV b w.regs else 0
      let o (booked : Bool) (started : Option Nat) : SfuOp :=
        ⟨s.me.sfu.serial, s.ct, p.2.1, d.toNat, w.regs, s.readV a w.regs, y, s.th.fpsr.toNat % 4, booked, started, []⟩
      (s.th.st ≠ .booked → (s.me.sfu.ops.filter (·.started.isNone)).length < 8 →
        ∃ t, exec p.1 s = .next t ∧ t.me.sfu.ops = s.me.sfu.ops ++ [o false none] ∧
          t.th = s.after (s.th.setDest (.v d.toNat w.regs) .empty 0 0) w.regs ∧
          (s.cycle, .sfuQueueStart) ∈ t.agenda ∧ sameMemory s t) ∧
      (s.th.st ≠ .booked → 8 ≤ (s.me.sfu.ops.filter (·.started.isNone)).length → exec p.1 s = .next (s.waits (s.cycle + 1))) ∧
      (s.th.st = .booked → s.me.ownHolds s.th 2 s.tick = false →
        let bk := s.me.booking (s.th.slot.getD 0)
        s.traps p.1 { cause := 0x0A, det0 := 2, det1 := (s.tick + bk.k0 / 8 + 2 ^ 48 - bk.start) % 2 ^ 48 }) ∧
      (s.th.st = .booked → (∀ tick, s.cycle / 8 ≤ tick → tick ≤ (s.cycle + w.regs - 1) / 8 → s.resourceStop 2 tick = none) →
        ∃ t r, exec p.1 s = .next t ∧ t.me.sfu.ops = s.me.sfu.ops ++ [o true (some s.cycle)] ∧
          (∀ k, k < 16 * w.regs → laneOf r 32 k =
            (sfuLane p.2.1 s.rm (laneOf (s.readV a w.regs) 32 k) (laneOf y 32 k)).1 % 2 ^ 32) ∧
          t.th = s.after (s.th.setDest (.v d.toNat w.regs) .full r (s.cycle + w.regs + sfuLat p.2.1)) w.regs ∧
          (s.cycle + w.regs + sfuLat p.2.1, .sfuResultWrite) ∈ t.agenda ∧ sameMemory s t)

/-- R152 to R156, Table 5.9: a vector load or store in the thread's own local SRAM moves the bytes of its shape: those of g registers, of
a group record, or of what the pointer's tag names. It takes one issue cycle a register: register k's bytes move in the k-th cycle from
the issue on, and in the scratchpad use their banks then; the first move at once, and the thread's work holds the rest. A load's registers
are readable their number + 2 cycles after the issue. In the scratchpad, with qualifier 10 or 11, all bytes move in the issue cycle, and
the granules touched are filled or emptied with them (R155). Every other byte and granule is as before. In a later cycle the thread's work
moves that cycle's bytes where the banks serve it, and else waits one cycle more; a load's registers are written with the last. -/
def Obligations.local_vector_access : Prop :=
  (∀ (s : State) (d : VReg) (a : GReg) (w : Grp) (ty : ElemTy) (ql : Qual) (off : BitVec 8) (sh : VecShape) (o : Nat),
    s.memoryQuiet → vecShape d w ty (s.readG a).toNat = .ok sh → 0 < sh.n → sh.n ≤ 64 * sh.regs → sh.regs ≤ 8 →
    s.usable [.rg a false, .rv d sh.regs, .wv d sh.regs] → s.me.sram.wf = true →
    s.effective a (off.toInt * 64) = (localBase + o, false) → (localBase + o) % sh.align = 0 → (∀ u, s.me.owner u = 0) →
    o + sh.n ≤ 0x100000 ∨ ((ql = .plain ∨ ql = .order) ∧ o % 65536 + sh.n ≤ 65536 ∧
      (0x100000 ≤ o ∧ o < 0x160000 ∨ 0x200000 ≤ o ∧ o < 0x280000)) →
    let touched (g : Nat) : Prop := o / 16 ≤ g ∧ g ≤ (o + sh.n - 1) / 16
    let whole : Prop := ql = .full ∨ ql = .exchange
    let part (k : Nat) : Nat := min 64 (sh.n - 64 * k)
    let first := if whole then sh.n else part 0
    let rest : List WorkCycle := (List.range (sh.regs - 1)).map fun k =>
      ⟨banksOf (o + 64 * (k + 1)) (part (k + 1)), if whole then [] else [(o + 64 * (k + 1), 64 * (k + 1), part (k + 1))]⟩
    let work (store : Bool) (data : Nat) (fin : WorkEnd) : LocalWork := ⟨s.cycle + 1, rest, store, data, fin, s.cycle + sh.regs + 2⟩
    (s.qualStop false ql (localBase + o) o sh.n = none →
      ∃ t, exec (.vld d a w ty ql off) s = .next t ∧ sameMemory s t ∧
        (∀ g, t.me.granFull g = true ↔ s.me.granFull g = true ∧ ¬ (ql = .exchange ∧ touched g)) ∧
        (sh.regs = 1 → t.th = s.after (s.th.setDest (.v d.toNat 1) .full (memGetN s.me.sram o sh.n) (s.cycle + 3)) 1) ∧
        (1 < sh.regs → t.th = { s.after (s.th.holdRegs (.loaded d.toNat sh.regs) (s.cycle + sh.regs + 2)) sh.regs with
          work := some (work false (memGetN s.me.sram o first) (.loaded d.toNat sh.regs)) })) ∧
    (s.qualStop true ql (localBase + o) o sh.n = none → s.th.priv = true ∨ o + sh.n ≤ 0x10F000 ∨ 0x110000 ≤ o →
      ∃ t, exec (.vst d a w ty ql off) s = .next t ∧ memGetN t.me.sram o first = s.readV d sh.regs % 2 ^ (8 * first) ∧
        (∀ c x, c ≠ s.cc ∨ x < o ∨ o + first ≤ x → memGet (t.coreAt c).sram x = memGet (s.coreAt c).sram x) ∧
        (∀ c x, memGet (t.coreAt c).vault.mem x = memGet (s.coreAt c).vault.mem x) ∧ t.offstack = s.offstack ∧
        (∀ g, t.me.granFull g = true ↔ s.me.granFull g = true ∨ (whole ∧ touched g)) ∧
        (o < 0x100000 ∨ 0x110000 ≤ o → t.th.stale = s.th.stale) ∧
        (sh.regs = 1 → t.th = { s.after s.th 1 with stale := t.th.stale }) ∧
        (1 < sh.regs → t.th = { s.after s.th sh.regs with
          stale := t.th.stale, work := some (work true (s.readV d sh.regs % 2 ^ (8 * sh.n)) .stored) }))) ∧
  (∀ (th : Thread) (n count ready i : Nat), (th.holdRegs (.loaded n count) ready).vreg i =
    if n ≤ i ∧ i < n + count ∧ i < 32 then { th.vreg i with ready := ready } else th.vreg i) ∧
  ∀ (s : State) (w : LocalWork) (c : WorkCycle) (rest : List WorkCycle), s.th.work = some w → w.left = c :: rest → s.me.sram.wf = true →
    let stopped := s.banksStop (c.banks.map fun b => (b, s.cycle)) ≠ none
    let t := s.workStep
    (s.th.st ≠ .booked → stopped → sameMemory s t ∧ t.th =
      { s.th.holdRegs w.fin (w.ready + 1) with work := some { w with due := s.cycle + 1, ready := w.ready + 1 }, next := s.th.next + 1 }) ∧
    (s.th.st = .booked ∨ ¬ stopped → ∀ off at_ n, c.parts = [(off, at_, n)] →
      (w.store = true → memGetN t.me.sram off n = w.data / 2 ^ (8 * at_) % 2 ^ (8 * n) ∧
        (∀ x y, x ≠ s.cc ∨ y < off ∨ off + n ≤ y → memGet (t.coreAt x).sram y = memGet (s.coreAt x).sram y) ∧
        (rest ≠ [] → t.th.work = some { w with left := rest, due := s.cycle + 1 }) ∧ (rest = [] → w.fin = .stored → t.th.work = none)) ∧
      (w.store = false →
        let data := w.data + memGetN s.me.sram off n * 2 ^ (8 * at_)
        (rest ≠ [] → sameMemory s t ∧ t.th = { s.th with work := some { w with left := rest, data := data, due := s.cycle + 1 } }) ∧
        ∀ r count, rest = [] → w.fin = .loaded r count → r + count ≤ 32 → s.cycle ≤ w.ready → (∀ i, s.me.aliasOf s.ct i = none) →
          sameMemory s t ∧ t.th = { s.th.setDest (.v r count) .full data w.ready with work := none }))

/-- R157, R159: a gather reads 16 elements at the base plus index times the element size, each from the thread's own scratchpad, and a
scatter writes them. The issue takes 4 to 16 cycles: the lanes move in their order, at most four in a cycle and no two of one bank, the
first group at once; the thread's work holds the later groups, each with its banks, offsets and places. A gather's registers are
readable three cycles after the last. -/
def Obligations.gather_and_scatter : Prop :=
  ∀ (s : State) (d a : VReg) (b : GReg) (w : Grp) (ty : ElemTy) (o : Nat → Nat), s.memoryQuiet → ty.bits = 32 ∨ ty.bits = 64 →
    s.usable [.rg b false, .rv a 1, .rv d (ty.bits / 32), .wv d (ty.bits / 32)] → s.me.sram.wf = true →
    let e := ty.bits / 8
    (∀ k, k < 16 → ((s.readG b).toNat + laneOf (s.readV a 1) 32 k * e) % 2 ^ 52 = localBase + o k ∧ o k % e = 0 ∧
      o k < 0x100000 ∧ s.me.owner (o k / 4096) = 0) →
    ∃ (c : WorkCycle) (cs : List WorkCycle), 3 ≤ cs.length ∧ cs.length ≤ 15 ∧
      let work (store : Bool) (data : Nat) (fin : WorkEnd) : LocalWork := ⟨s.cycle + 1, cs, store, data, fin, s.cycle + cs.length + 4⟩
      ((c :: cs).flatMap (·.parts)) = (List.range 16).map (fun k => (o k, e * k, e)) ∧
      (∀ x ∈ c :: cs, x.parts.length ≤ 4 ∧ x.banks = x.parts.map (fun p => bankOf p.1) ∧ x.banks.Nodup) ∧
      (∃ t data, exec (.vgath d a b w ty) s = .next t ∧ sameMemory s t ∧
        (∀ k, k < c.parts.length → laneOf data ty.bits k = memGetN s.me.sram (o k) e) ∧ data < 2 ^ (ty.bits * c.parts.length) ∧
        t.th = { s.after (s.th.holdRegs (.loaded d.toNat (ty.bits / 32)) (s.cycle + cs.length + 4)) (cs.length + 1) with
          work := some (work false data (.loaded d.toNat (ty.bits / 32))) }) ∧
      ∃ t, exec (.vscat d a b w ty) s = .next t ∧
        t.th = { s.after s.th (cs.length + 1) with work := some (work true (s.readV d (ty.bits / 32)) .stored) } ∧
        (∀ k, k < c.parts.length → memGetN t.me.sram (o k) e = laneOf (s.readV d (ty.bits / 32)) ty.bits k) ∧
        (∀ x y, (x = s.cc → ∀ k, k < c.parts.length → y < o k ∨ o k + e ≤ y) → memGet (t.coreAt x).sram y = memGet (s.coreAt x).sram y) ∧
        ∀ x y, memGet (t.coreAt x).vault.mem y = memGet (s.coreAt x).vault.mem y

/-! ### The matrix engine -/

/-- R187, R235, R255 to R258: geometry registers are read and written; `owne` changes the owner of the buffers and accumulators that
its operand names, where each is the threads' or already the new owner's and what uses it is quiet, and answers the new
owners; `ownq` answers them; `mwait` waits for the thread's commands. -/
def Obligations.matrix_registers : Prop :=
  ∀ (s : State) (d a : GReg) (m : BitVec 3), s.usable [.rg a false, .wg d] →
    exec (.mgset a m) s = .next ((s.modMe fun k =>
      { k with matrix := { k.matrix with mg := k.matrix.mg.set m.toNat (s.readG a) m.isLt } }).completes 1 id) ∧
    exec (.mgget d m) s = .next (s.completes 1 fun th =>
      th.setGreg d.toNat ⟨(s.me.matrix.mg[m.toNat]?).getD 0, .full, s.cycle + 1⟩) ∧
    (let u := (s.readG a).toNat
     let tgt := bitsOf u 18 16
     let units := ((List.range 16).filter (bitOf u)).map (256 + ·)
     u < 2 ^ 19 → tgt ≤ 4 → u % 65536 ≠ 0 → (∀ n ∈ units, s.me.owner n = 0 ∨ tgt = 0 ∨ s.me.owner n = tgt) →
     (∀ n ∈ units, s.me.owner n ≠ tgt → s.me.quiet n = true) → s.me.tidy →
     ∃ t w, exec (.owne d a) s = .next t ∧ (∀ n, t.me.owner n = if n ∈ units then tgt else s.me.owner n) ∧
       (∀ n, n < 16 → bitsOf w (3 * n + 2) (3 * n) = t.me.owner (256 + n) % 8) ∧ sameMemory s t ∧
       t.th = s.after (s.th.setGreg d.toNat ⟨BitVec.ofNat 64 w, .full, s.cycle + 2⟩) 1) ∧
    (∃ w, exec (.ownq d) s = .next (s.completes 1 fun th => th.setGreg d.toNat ⟨BitVec.ofNat 64 w, .full, s.cycle + 2⟩) ∧
      ((∀ n, n < 16 → s.me.owner (256 + n) < 8) → (∀ n, n < 16 → bitsOf w (3 * n + 2) (3 * n) = s.me.owner (256 + n)) ∧
        bitsOf w 50 48 = min 4 (s.me.matrix.cmds.filter (·.start.isNone)).length ∧
        bitOf w 51 = s.me.matrix.cmds.any (·.start.isSome) ∧ bitsOf w 53 52 = s.me.matrix.throttle % 4)) ∧
    ((∀ x ∈ s.me.matrix.cmds, x.thr ≠ s.ct) → exec .mwait s = .next (s.completes s.drainCost id)) ∧
    ((∃ x ∈ s.me.matrix.cmds, x.thr = s.ct) → s.th.st ≠ .booked → exec .mwait s = .next s.drains)

/-- R245 to R247, R250, R251, R253, R254, R259 to R261: a command whose units the engine owns and whose operands are well-formed. Of an open
thread it enters the queue of four and retires in one cycle; with four entries waiting the thread waits. Of a booked thread it starts
in its issue cycle for the time of Table 8.8: OVRN while the engine is occupied; BOOKV at the first tick of that time that the booking does
not hold; THROT for an `mma` of two passes whose doubled time is not held, with that time and the cycles that are held. A unit that the
engine does not own raises OWNER; a malformed geometry or operand raises ENGINE with its code, a misaligned local address ALIGN. -/
def Obligations.matrix_commands : Prop :=
  ∀ (s : State) (a b : GReg) (acc : BitVec 3) (ab wb buf : BitVec 2) (sh : Shape) (fb : FmtB) (fa : FmtA) (f : AccFmt)
    (ovr sha tra : Bool), s.usable [.rg a false, .rg b false] →
    let x := (s.readG a).toNat
    let la := x % 2 ^ 52
    let w := (s.readG b).toNat
    let off := localOff la
    let rows := (bitsOf w 14 8 + 1) * 128 * (if f = .f32 then 4 else 2)
    let geo := ((s.me.matrix.mg[acc.toNat]?).getD 0).toNat
    let owned (op : MeOp) : Prop := ∀ u ∈ op.units, s.me.owner u = 1
    let bk := s.me.booking (s.th.slot.getD 0)
    let holds (tick : Nat) : Prop := s.me.ownHolds s.th 1 tick = true
    let held (n : Nat) : Prop := ∀ tick, s.cycle / 8 ≤ tick → tick ≤ (s.cycle + n - 1) / 8 → holds tick
    let accepts (i : Instr) (op : MeOp) (g : Nat) : Prop :=
      let d := op.cycles.1
      let two : Bool := op.isMma && (bk.thr || s.me.matrix.throttle == 2)
      (s.th.st ≠ .booked →
        ((s.me.matrix.cmds.filter (·.start.isNone)).length < 4 → exec i s = .next (s.meQueued op g)) ∧
        (4 ≤ (s.me.matrix.cmds.filter (·.start.isNone)).length → exec i s = .next (s.waits (s.cycle + 1)))) ∧
      (s.th.st = .booked →
        ((∃ m ∈ s.me.matrix.cmds, m.start.isSome = true ∧ s.cycle < m.freeAt) → s.traps i { cause := 0x0B, replay := true }) ∧
        ((∀ m ∈ s.me.matrix.cmds, m.start.isSome = true → m.freeAt ≤ s.cycle) →
          (∀ tick, s.cycle / 8 ≤ tick → tick ≤ (s.cycle + d - 1) / 8 → ¬ holds tick → (∀ u, s.cycle / 8 ≤ u → u < tick → holds u) →
            s.traps i { cause := 0x0A, det0 := 1, det1 := (tick + bk.k0 / 8 + 2 ^ 48 - bk.start) % 2 ^ 48 }) ∧
          (held d → (∀ k, k < op.blocks.2 → s.bankStop (bankOf (op.blocks.1 + 64 * k)) (s.cycle + k) = none) →
            (two = true → ∀ tick, s.cycle / 8 ≤ tick → tick ≤ (s.cycle + 2 * d - 1) / 8 → ¬ holds tick →
              (∀ u, s.cycle / 8 ≤ u → u < tick → holds u) →
              s.traps i { cause := 0x0F, det0 := 2 * d, det1 := 8 * tick - s.cycle, replay := true }) ∧
            ((two = true → held (2 * d)) → s.me.matrix.soft = [] →
              let time := if two then 2 * d else d
              ∃ t m, exec i s = .next t ∧ t.th = s.after s.th 1 ∧ t.me.matrix.cmds.getLast? = some m ∧ m.id = s.me.matrix.serial ∧
                m.thr = s.ct ∧ m.op = op ∧ m.start = some s.cycle ∧ m.freeAt = s.cycle + time ∧ m.doneAt = s.cycle + time + op.cycles.2 ∧
                (∀ y, y.id ≠ m.id → (y ∈ t.me.matrix.cmds ↔ y ∈ s.me.matrix.cmds)) ∧ (m.doneAt, .meCommandComplete) ∈ t.agenda ∧
                t.me.sram = op.apply g s.me.sram))))
    let range (size : Nat) : Prop := w < 2 ^ 32 ∧ bitsOf w 31 16 % 64 = 0 ∧ bitsOf w 15 0 % 64 = 0 ∧ 64 ≤ bitsOf w 31 16 ∧
      bitsOf w 15 0 + bitsOf w 31 16 ≤ size
    let moves (i : Instr) (op : MeOp) (n : Nat) (good : Prop) : Prop :=
      (la % 64 ≠ 0 → s.traps i { cause := 0x03, addr := la }) ∧
      (la % 64 = 0 → ¬ (good ∧ isLocal la = true ∧ off + n ≤ 0x100000) → s.traps i { cause := 0x14, det0 := 7 }) ∧
      (la % 64 = 0 → good → isLocal la = true → off + n ≤ 0x100000 →
        (owned op → accepts i op 0) ∧
        (∀ u, op.units.find? (fun u => s.me.owner u != 1) = some u →
          s.traps i (if u < 256 then { cause := 0x09, addr := localBase + max (4096 * u) off } else { cause := 0x09, det0 := u - 256 })))
    (let op : MeOp := .mma acc ab wb sh fb fa ovr sha tra
     let i : Instr := .mma acc ab wb sh fb fa ovr sha tra
     let code := geometryFault sh fa fb sha tra (geoOf geo)
     (∀ u, op.units.find? (fun u => s.me.owner u != 1) = some u → s.traps i { cause := 0x09, det0 := u - 256 }) ∧
     (owned op → code ≠ 0 → s.traps i { cause := 0x14, det0 := code, det1 := geo }) ∧
     (owned op → code = 0 → accepts i op geo)) ∧
    (256 ≤ x ∨ x = 0 → s.traps (.accz a) { cause := 0x14, det0 := 6 }) ∧
    (x < 256 → x ≠ 0 → (owned (.accz x) → accepts (.accz a) (.accz x) 0) ∧
      ∀ u, (MeOp.accz x).units.find? (fun u => s.me.owner u != 1) = some u → s.traps (.accz a) { cause := 0x09, det0 := u - 256 }) ∧
    (let good : Prop := w < 2 ^ 15 ∧ bitOf w 7 = false ∧ bitsOf w 6 0 + bitsOf w 14 8 ≤ 127
     moves (.accst a b f acc) (.accst off w f acc) rows good ∧ moves (.accld a b f acc) (.accld off w f acc) rows good) ∧
    moves (.abld a b buf) (.abld off w buf) (bitsOf w 31 16) (range 0x8000) ∧
    moves (.wbld a b buf) (.wbld off w buf) (bitsOf w 31 16) (range 0xC000)

/-- R236 to R249, R280, Tables 8.2 to 8.4 and 8.8: the one waiting command of an idle engine starts. It completes after its occupancy, which
a throttle doubles for an `mma`, and its drain, and leaves in local SRAM what it computes: `accz` zeroes accumulators, `abld` and `wbld`
copy bytes, `accst` and `accld` move elements, converted. An `mma` sums products from the old element on: SQ over its K values in
chunks; BD8 over the eight of its group; SKINNY in sixteen partial sums and a pairwise tree, into the rows that CROWG names; a q pair group
by group, from integer sums and scales. Its elements lie in the buffers as the geometry says; a trellis column is decoded record by
record. A command that has completed leaves the engine. -/
def Obligations.matrix_starts : Prop :=
  (∀ (s : State) (c : Nat) (m : MeCmd), c < 256 → s.onlyAt c (fun k => k.meWork) → (s.coreAt c).matrix.cmds = [m] → m.start = none →
    (s.coreAt c).matrix.soft = [] → (∀ tick, (s.coreAt c).booked 1 tick = false) →
    (∀ b tick, (s.coreAt c).booked (0x10 + b) tick = false) → (s.coreAt c).bankUses = [] →
    let time := if m.op.isMma && decide (0 < (s.coreAt c).matrix.throttle) then 2 * m.op.cycles.1 else m.op.cycles.1
    ∃ t m', exec .meCommandStart s = .next t ∧ (t.coreAt c).matrix.cmds = [m'] ∧ m'.id = m.id ∧ m'.op = m.op ∧ m'.start = some s.cycle ∧
      m'.freeAt = s.cycle + time ∧ m'.doneAt = s.cycle + time + m.op.cycles.2 ∧ m'.left = m.op.blocks.2 - 1 ∧
      (m.op.blocks.2 = 0 → (m'.doneAt, .meCommandComplete) ∈ t.agenda) ∧
      (t.coreAt c).sram = m.op.apply m.geo (s.coreAt c).sram ∧ (∀ x, x ≠ c → (t.coreAt x).sram = (s.coreAt x).sram)) ∧
  (∀ (mem : Memory) (mask x : Nat), mem.wf = true → memGet ((MeOp.accz mask).apply 0 mem) x =
    if 0x200000 ≤ x ∧ x < 0x280000 ∧ bitOf mask ((x - 0x200000) / 0x10000) = true then 0 else memGet mem x) ∧
  (∀ (mem : Memory) (la w x : Nat) (buf : BitVec 2), mem.wf = true → la + bitsOf w 31 16 ≤ 0x100000 →
    (memGet ((MeOp.abld la w buf).apply 0 mem) x =
      let tgt := 0x110000 + 0x8000 * buf.toNat + bitsOf w 15 0
      if tgt ≤ x ∧ x < tgt + bitsOf w 31 16 then memGet mem (la + (x - tgt)) else memGet mem x) ∧
    memGet ((MeOp.wbld la w buf).apply 0 mem) x =
      let tgt := 0x130000 + 0xC000 * buf.toNat + bitsOf w 15 0
      if tgt ≤ x ∧ x < tgt + bitsOf w 31 16 then memGet mem (la + (x - tgt)) else memGet mem x) ∧
  (∀ (mem : Memory) (la w r j : Nat) (f : AccFmt) (acc : BitVec 3), mem.wf = true → r ≤ bitsOf w 14 8 → j < 128 →
    let ty : ElemTy := match f with | .f32 => .f32 | .bf16 => .bf16 | .f16 => .f16
    let e := ty.bits / 8
    la + (bitsOf w 14 8 + 1) * 128 * e ≤ 0x100000 → bitsOf w 6 0 + bitsOf w 14 8 ≤ 127 →
    let at_ := accAt acc.toNat (bitsOf w 6 0 + r) j
    let pos := la + e * (128 * r + j)
    memGetN ((MeOp.accst la w f acc).apply 0 mem) pos e = (if f = .f32 then memGetN mem at_ 4
      else (ty.ffmt.roundVal .rne false (ElemTy.f32.ffmt.value (memGetN mem at_ 4))).1 % 2 ^ (8 * e)) ∧
    memGetN ((MeOp.accld la w f acc).apply 0 mem) at_ 4 = (if f = .f32 then memGetN mem pos 4
      else (ElemTy.f32.ffmt.roundVal .rne false (ty.ffmt.value (memGetN mem pos e))).1 % 2 ^ 32)) ∧
  (∀ (mem : Memory) (acc : BitVec 3) (ab wb : BitVec 2) (fa : FmtA) (fb : FmtB) (sh : Shape) (ovr sha tra : Bool) (geo i j : Nat), j < 128 →
    mem.wf = true →
    let g := geoOf geo
    let K := (shapeSpec sh fa fb).1
    let z := (shapeSpec sh fa fb).2.1
    let out (row : Nat) : Nat := memGetN ((MeOp.mma acc ab wb sh fb fa ovr sha tra).apply geo mem) (accAt acc.toNat row j) 4
    let old (row : Nat) : Nat := if ovr then 0 else memGetN mem (accAt acc.toNat row j) 4
    let A (k : Nat) : FVal := elemA mem ab.toNat sh fa sha tra g i k
    let B (n k : Nat) : FVal := ((colB mem wb.toNat sh fa fb g n j)[k]?).getD (.nan false)
    (sh = .sq → fa ≠ .q8 → i < 128 → out i = floatSum z ((List.range K).map fun k => (A k, B K k)) (old i) % 2 ^ 32) ∧
    (sh = .bd8 → i < 128 → out i = floatSum z ((List.range 8).map fun m => (A m, B 128 (i / 8 * 8 + m))) (old i) % 2 ^ 32) ∧
    (sh = .skinny → i < 8 →
      let part (h : Nat) : Nat := floatSum z ((List.range 64).map fun k => (A (64 * h + k), B K (64 * h + k))) 0
      let level (p : Nat → Nat) (n : Nat) : Nat := addF32 (p (2 * n)) (p (2 * n + 1))
      out (8 * g.crowg + i) = addF32 (old (8 * g.crowg + i)) (level (level (level (level part))) 0) % 2 ^ 32) ∧
    (sh = .skinny → i < 128 → i / 8 ≠ g.crowg → out i = memGetN mem (accAt acc.toNat i j) 4) ∧
    (sh = .sq → fa = .q8 → g.qg < 3 → i < 128 →
      let ra := recordBytes false g.G
      let rb := recordBytes (fb == .q4) g.G
      let recA (q : Nat) : Nat :=
        memGetN mem (0x110000 + 0x8000 * (ab.toNat + q * g.G / 128) + g.ao + i * g.as_ + q * g.G % 128 / g.G * ra) ra
      let recB (q : Nat) : Nat := memGetN mem (0x130000 + 0xC000 * wb.toNat + g.bo + j * g.bs + q * rb) rb
      out i = (List.range (K / g.G)).foldl (fun c q => addF32 c (groupSum g.G (fb == .q4) (recA q) (recB q))) (old i) % 2 ^ 32)) ∧
  (∀ (G ra rb : Nat) (q4 : Bool),
    let well : Prop := (recordValue false G ra 0).isSome = true ∧ (recordValue q4 G rb 0).isSome = true
    let zero (four : Bool) (r : Nat) : Int := ((r / 2 ^ ((if four then G / 2 else G) * 8 + 16) % 256 : Nat) : Int)
    let scale (four : Bool) (r : Nat) : FVal := ElemTy.f16.ffmt.value (r / 2 ^ ((if four then G / 2 else G) * 8) % 2 ^ 16)
    let sum : Int := ((List.range G).map fun i => ((recordCode false ra i : Int) - zero false ra) * ((recordCode q4 rb i : Int) - zero q4 rb)).sum
    (¬ well → groupSum G q4 ra rb = 0x7FC00000) ∧ (well → sum = 0 → groupSum G q4 ra rb = 0) ∧
    (well → sum ≠ 0 → ∃ p v, (scale false ra).mul (scale q4 rb) = some p ∧ (FVal.ofInt sum).mul p = some v ∧
      groupSum G q4 ra rb = (ElemTy.f32.ffmt.roundVal .rne false v).1)) ∧
  (∀ (mem : Memory) (ab wb i j k n : Nat) (fa : FmtA) (fb : FmtB) (sh : Shape) (sha tra : Bool) (geo : Nat),
    let g := geoOf geo
    let e := fa.bytes
    let a (pos : Nat) : FVal := fa.ffmt.value (memGetN mem (0x110000 + 0x8000 * ab + g.ao + pos) e)
    let base := if sh = .bd8 ∧ fa = .f32 then 0x130000 + 0xC000 * (wb + j / 64) + g.bo + j % 64 * g.bs else 0x130000 + 0xC000 * wb + g.bo + j * g.bs
    (sh ≠ .bd8 → elemA mem ab sh fa sha tra g i k = if tra then a (k * g.as_ + i * e) else a (i * g.as_ + k * e)) ∧
    (sh = .bd8 → let blk := if sha then g.ablk else i / 8
      elemA mem ab sh fa sha tra g i k = if tra then a ((8 * blk + k) * g.as_ + i % 8 * e) else a ((8 * blk + i % 8) * g.as_ + k * e)) ∧
    (k < n → fb.isTrellis = false →
      (colB mem wb sh fa fb g n j)[k]? = some (fb.ffmt.value (memGetN mem (base + k * fb.bytes) fb.bytes))) ∧
    (k < n → fb.isTrellis = true → n % 128 = 0 →
      let r := trellisBytes fb.step
      (colB mem wb sh fa fb g n j)[k]? = some (trellisValue fb.step (memGetN mem (base + k / 128 * r) r) (k % 128)))) ∧
  ∀ (s : State) (c : Nat), ∃ t, exec .meCommandComplete s = .next t ∧
    (t.coreAt c).matrix.cmds = (s.coreAt c).matrix.cmds.filter
      (fun m => !(m.start.isSome && m.left == 0 && decide (m.doneAt ≤ s.cycle))) ∧ sameMemory s t

/-! ### The trellis engine -/

/-- R262 to R271, R276, R278: `twset` answers the old window; `tdec` decodes consecutive weights of a block and `tdecr` the weights
that 16 indexes name, each by `trellisOut`, with the flags of the weights decoded. They read a block of 64 bytes, and up to four banks,
in an issue cycle: the first at once, the thread's work holds the later ones, and VD is written when the last has been read. A reserved
window raises ENGINE with code 9, a block past NBLK with code 10, a record past the scratchpad PROT. `tenc` queues a job and gives its
tiles to the engine, and waits while four jobs wait (that the job may start in the cycle of its issue is the reading of log entry
29); `tencw` waits for the thread's jobs, those that a pre-emption saved among them, and answers and clears their status. -/
def Obligations.trellis_instructions : Prop :=
  (∀ (s : State) (d : VReg) (e a b : GReg) (bv : VReg) (w : Grp) (n : BitVec 2), s.memoryQuiet → (∀ u, s.me.owner u = 0) → s.me.sram.wf = true →
    s.usable [.rg e false, .rg a false, .rg b false, .wg e, .rv bv 1, .wv d w.regs, .wv d 1] →
    let r := s.me.twReg n.toNat
    let seen := if r.at_ = s.cycle then r.prev.toNat else r.val.toNat
    let gathered (cs : List WorkCycle) : Nat := ((cs.flatMap (·.parts)).map fun p => memGetN s.me.sram p.1 p.2.2 * 2 ^ (8 * p.2.1)).sum
    let goesOn (t : State) (fin : WorkEnd) (cs : List WorkCycle) (cost : Nat) : Prop :=
      t.th = { s.after (s.th.holdRegs fin (s.cycle + cost + 4)) cost with
        work := some ⟨s.cycle + 1, cs.tail, false, gathered (cs.take 1), fin, s.cycle + cost + 4⟩ }
    (exec (.twset e a n) s = .next ((s.modMe fun k => { k with trellis := { k.trellis with
        tw := k.trellis.tw.set n.toNat ⟨s.readG a, s.cycle, if r.at_ = s.cycle then r.prev else r.val⟩ n.isLt } }).completes 1
        fun th => th.setGreg e.toNat ⟨r.val, .full, s.cycle + 1⟩)) ∧
    (windowOf seen = none →
      s.traps (.tdec d a b w n) { cause := 0x14, det0 := 9, det1 := seen } ∧ s.traps (.tdecr d a bv n) { cause := 0x14, det0 := 9, det1 := seen }) ∧
    (∀ x, windowOf seen = some x →
      let N := trellisBytes x.k
      let blk := (s.readG a).toNat
      let f := (s.readG b).toNat % 128
      let o := x.at_ blk
      let a := (o + N - 1) / 64 - o / 64 + 1
      let cost := max w.regs a
      let i : Instr := .tdec d a b w n
      let out (rec q : Nat) : Nat × Nat := trellisOut x.out s.rm x.k rec q
      (x.nblk ≤ blk → s.traps i { cause := 0x14, det0 := 10, det1 := blk }) ∧
      (blk < x.nblk → 0x100000 < o + N → s.traps i { cause := 0x05, addr := localBase + max o 0x100000 }) ∧
      (blk < x.nblk → o + N ≤ 0x100000 →
        let lanes := 512 * w.regs / x.out.bits
        let m := 64 - o % 64
        (a = 1 → ∃ t v fl, exec i s = .next t ∧ sameMemory s t ∧
          (∀ i, i < lanes → laneOf v x.out.bits i = (out (memGetN s.me.sram o N) ((f + i) % 128)).1 % 2 ^ x.out.bits) ∧
          (∀ k, fl.testBit k = true ↔ ∃ i, i < lanes ∧ (out (memGetN s.me.sram o N) ((f + i) % 128)).2.testBit k = true) ∧
          t.th = s.after ({ s.th.setDest (.v d.toNat w.regs) .full v (s.cycle + cost + 4) with fpsr := s.th.fpsr ||| BitVec.ofNat 64 fl }) cost) ∧
        (a ≠ 1 → ∃ t, exec i s = .next t ∧ sameMemory s t ∧
          goesOn t (.decoded seen s.th.fpsr.toNat ((List.range lanes).map fun i => (0, (f + i) % 128)) false d.toNat w.regs)
            [⟨[bankOf o], [(o, 0, m)]⟩, ⟨[bankOf (o + m)], [(o + m, m, N - m)]⟩] cost)) ∧
      (let idx (i : Nat) : Nat := laneOf (s.readV bv 1) 32 i
       let blkOf (i : Nat) : Nat := blk + idx i / 128
       let at_ (i : Nat) : Nat := x.at_ (blkOf i)
       (∀ i, i < 16 → blkOf i < x.nblk ∧ at_ i + N ≤ 0x100000) →
        ∃ t cs, exec (.tdecr d a bv n) s = .next t ∧ sameMemory s t ∧ 1 ≤ cs.length ∧ cs.length ≤ 16 ∧
          (∀ y ∈ cs, y.banks.length ≤ 4 ∧ y.banks.Nodup ∧ ∀ p ∈ y.parts, bankOf p.1 ∈ y.banks) ∧
          (∀ i, i < 16 → gathered cs / 2 ^ (512 * i) % 2 ^ (8 * N) = memGetN s.me.sram (at_ i) N) ∧
          (cs.length = 1 → ∃ v fl,
            (∀ i, i < 16 → let y := (out (memGetN s.me.sram (at_ i) N) (idx i % 128)).1
              laneOf v 32 i = (if x.out = .i8 then cutTo 32 (signedOf 8 y) else y) % 2 ^ 32) ∧
            (∀ k, fl.testBit k = true ↔ ∃ i, i < 16 ∧ (out (memGetN s.me.sram (at_ i) N) (idx i % 128)).2.testBit k = true) ∧
            t.th = s.after ({ s.th.setDest (.v d.toNat 1) .full v (s.cycle + 5) with fpsr := s.th.fpsr ||| BitVec.ofNat 64 fl }) 1) ∧
          (cs.length ≠ 1 → goesOn t (.decoded seen s.th.fpsr.toNat ((List.range 16).map fun i => (64 * i, idx i % 128)) true d.toNat 1) cs cs.length))) ∧
    (∀ src dst,
      let ctl := (s.readG b).toNat
      let j : TrellisJob := ⟨s.me.trellis.serial, s.ct, s.th.pc.toNat, src, dst, ctl, 0, 0, false, 0, s.cycle⟩
      s.th.st ≠ .booked → (s.readG a).toNat % 2 ^ 52 = localBase + src → (s.readG e).toNat % 2 ^ 52 = localBase + dst → src % 64 = 0 →
      dst % 4 = 0 → badEncWord ctl = false → src + 512 * j.n ≤ 0x100000 → dst + trellisBytes j.k * j.n ≤ 0x100000 →
      src + 512 * j.n ≤ dst ∨ dst + trellisBytes j.k * j.n ≤ src → (∀ u, s.me.tileOn u = none) →
      ((s.me.trellis.jobs.filter fun x => !x.running).length < 4 →
        ∃ t, exec (.tenc e a b) s = .next t ∧ t.th = s.after s.th 1 ∧ t.me.trellis.jobs = s.me.trellis.jobs ++ [j] ∧
          (∀ u, t.me.owner u = if u ∈ j.tiles then 3 else 0) ∧ (s.cycle, .tencJobStart) ∈ t.agenda ∧ sameMemory s t) ∧
      (4 ≤ (s.me.trellis.jobs.filter fun x => !x.running).length → exec (.tenc e a b) s = .next (s.waits (s.cycle + 1)))) ∧
    (s.th.st ≠ .booked →
      ((∀ j ∈ s.me.trellis.jobs ++ s.me.trellis.saved, j.thr ≠ s.ct) → exec (.tencw e) s = .next (s.completes s.drainCost fun th =>
        { th.setGreg e.toNat ⟨th.trellis, .full, s.cycle + 1⟩ with trellis := 0 })) ∧
      ((∃ j ∈ s.me.trellis.jobs ++ s.me.trellis.saved, j.thr = s.ct) → exec (.tencw e) s = .next s.drains))) ∧
  ∀ (s : State) (w : LocalWork) (c : WorkCycle) (window rm n count : Nat) (lanes : List (Nat × Nat)) (wide : Bool) (x : TrellisWindow),
    s.th.work = some w → w.left = [c] → w.store = false → w.fin = .decoded window rm lanes wide n count → windowOf window = some x →
    s.th.st = .booked ∨ s.banksStop (c.banks.map fun b => (b, s.cycle)) = none → s.me.sram.wf = true → s.cycle ≤ w.ready →
    (∀ i, s.me.aliasOf s.ct i = none) → n + count ≤ 32 → 0 < count →
    let bits := if wide then 32 else x.out.bits
    let data := w.data + (c.parts.map fun p => memGetN s.me.sram p.1 p.2.2 * 2 ^ (8 * p.2.1)).sum
    let out (l : Nat × Nat) : Nat × Nat := trellisOut x.out (rndOf rm) x.k (data / 2 ^ (8 * l.1) % 2 ^ (8 * trellisBytes x.k)) l.2
    let t := s.workStep
    ∃ v fl, sameMemory s t ∧
      (∀ i l, lanes[i]? = some l → laneOf v bits i = (if wide ∧ x.out = .i8 then cutTo 32 (signedOf 8 (out l).1) else (out l).1) % 2 ^ bits) ∧
      (∀ k, fl.testBit k = true ↔ ∃ l ∈ lanes, (out l).2.testBit k = true) ∧
      t.th = { s.th.setDest (.v n count) .full v w.ready with work := none, fpsr := s.th.fpsr ||| BitVec.ofNat 64 fl }

/-- R272 to R277: the job at the head of the queue. Its block takes eight reads, one in a cycle, the passes and its writes, one to each
bank its record touches; they leave the block's record, which `encBlock` makes of its inputs and scale, and the last ends the block. A
job that is done gives its tiles back, counts its blocks in the thread's status and ORs its status bits into it, and the next job may
start. While the core is being pre-empted no block starts (R279). -/
def Obligations.encoder_jobs : Prop :=
  ∀ (s : State) (c : Nat) (j : TrellisJob) (rest : List TrellisJob), c < 256 → s.onlyAt c (fun k => !k.trellis.jobs.isEmpty) →
    (s.coreAt c).trellis.jobs = j :: rest → (∀ y ∈ rest, y.id ≠ j.id) → j.dueAt ≤ s.cycle → (s.coreAt c).tidy →
    (s.coreAt c).trellis.soft = false → (s.coreAt c).bankUses = [] → (∀ b tick, (s.coreAt c).booked (0x10 + b) tick = false) →
    let auto := bitOf j.ctl 17
    let n := trellisBytes j.k
    let tgt := j.dst + j.blocks * n
    let runs : Prop := (s.coreAt c).preempt = .none ∨ j.access ≠ 0
    (j.blocks < j.n → ¬ runs → exec .tencJobStart s = .next s) ∧
    (j.blocks < j.n → runs → j.access < 7 → ∃ t, exec .tencJobStart s = .next t ∧ sameMemory s t ∧
      (t.coreAt c).trellis.jobs = { j with running := true, access := j.access + 1, dueAt := s.cycle + 1 } :: rest) ∧
    (j.blocks < j.n → j.access = 7 → ∃ t, exec .tencJobStart s = .next t ∧ sameMemory s t ∧
      (t.coreAt c).trellis.jobs = { j with
        running := true, access := 8, dueAt := s.cycle + 8193 + (if auto then 16 else 0) + 120 - (j.writes.length) } :: rest) ∧
    (j.writes = if n ≤ 0x8000 - tgt % 0x8000 then [(tgt, n)]
      else [(tgt, 0x8000 - tgt % 0x8000), (tgt + (0x8000 - tgt % 0x8000), n - (0x8000 - tgt % 0x8000))]) ∧
    (∀ i off m, j.blocks < j.n → j.access = 8 + i → j.writes[i]? = some (off, m) → tgt + n ≤ 0x100000 →
      let xs := (List.range 128).map fun i => memGetN (s.coreAt c).sram (j.src + 512 * j.blocks + 4 * i) 4
      let r := encBlock j.k (if auto then encAuto xs else j.ctl % 65536) xs
      ∃ t, exec .tencJobStart s = .next t ∧ memGetN (t.coreAt c).sram off m = r.1 / 2 ^ (8 * (off - tgt)) % 2 ^ (8 * m) ∧
        (∀ x a, x ≠ c ∨ a < off ∨ off + m ≤ a → memGet (t.coreAt x).sram a = memGet (s.coreAt x).sram a) ∧
        (t.coreAt c).trellis.jobs = (if i + 1 < j.writes.length
          then { j with running := true, access := j.access + 1, dueAt := s.cycle + 1 }
          else { j with running := true, access := 0, blocks := j.blocks + 1, flags := j.flags ||| r.2, dueAt := s.cycle + 1 }) :: rest) ∧
    (j.n ≤ j.blocks → j.thr < 4 →
      let x := ((s.coreAt c).thr j.thr).trellis.toNat
      ∃ t, exec .tencJobComplete s = .next t ∧ (t.coreAt c).trellis.jobs = rest ∧ sameMemory s t ∧
        (rest ≠ [] → (s.cycle, .tencJobStart) ∈ t.agenda) ∧
        (∀ u, (t.coreAt c).owner u = if u ∈ j.tiles then 0 else (s.coreAt c).owner u) ∧
        ((t.coreAt c).thr j.thr).trellis =
          BitVec.ofNat 64 (min (x % 65536 + j.n) 65535 + (x / 65536 ||| j.flags) * 65536))

/-! ### The vault -/

/-- R163 to R165, R173, R181, R183: `rowact` and `rowpre` ask for a row state of their bank; neither moves a byte. A request is done where
the bank already has it; in an idle bank outside windows a precharge starts 30 cycles or more after the activation, and an activation
in a bank with no open row, each for 14 cycles, where the requester may change the bank's row; else the request stands at the controller
and is looked at again in the next cycle (that it is judged in the cycle in which it would start is the reading of log entry 78). `rowq`
answers the bank's state. The faults of the three, in their order. -/
def Obligations.row_operations : Prop :=
  (∀ (s : State) (d a : GReg), s.usable [.rg a false, .wg d] →
    let va := (s.readG a).toNat % 2 ^ 52
    let x := s.translate s.cc s.me.ctx va true false
    (∀ i ∈ ([.rowact a, .rowpre a, .rowq d a] : List Instr),
      (x = .page → s.traps i { cause := 0x04, addr := va }) ∧ (x = .prot → s.traps i { cause := 0x05, addr := va }) ∧
      ((∃ o, x = .loc o) ∨ (∃ o, x = .offstack o) → s.traps i { cause := 0x05, addr := va, det0 := 3 }) ∧
      (∀ c, x = .foreign c → s.traps i { cause := 0x06, addr := va }) ∧
      (x = .moving → (s.th.st ≠ .booked → exec i s = .next (s.waits (s.cycle + 1))) ∧
        (s.th.st = .booked → s.traps i { cause := 0x0B, addr := va, replay := true }))) ∧
    ∀ pa, x = .vault pa →
      let v := s.me.vault
      let b := vbank pa
      let r := vrow pa
      let n := s.cycle
      let bank := v.bankAt b n
      let bk := s.me.booking (s.th.slot.getD 0)
      let clear : Prop := ∀ c, n ≤ c → c < n + 14 → v.windowEnd s.cc b c false = none
      let opening : Bank := ⟨some r, n, [⟨n, n + 14, none, some r⟩]⟩
      let closing : Bank := ⟨none, 0, [⟨n, n + 14, bank.row, none⟩]⟩
      let leaves (i : Instr) (op : BeatOp) (y : Bank) (ends : Bool) : Prop := ∃ t, exec i s = .next t ∧ t.me.vault.bank b = y ∧
        (∀ b', b' ≠ b → t.me.vault.bank b' = v.bank b') ∧ t.th = s.after s.th 1 ∧ sameMemory s t ∧
        if ends then t.me.vault.accs = []
        else ∃ q, t.me.vault.accs = [q] ∧ q.op = op ∧ q.by_ = .thread s.ct ∧ (n + 1, .vaultAccessBeat s.cc q.id) ∈ t.agenda
      exec (.rowq d a) s = .next (s.completes 1 fun th => th.setGreg d.toNat ⟨s.rowWord b r, .full, n + 4⟩) ∧
      (let w := (s.rowWord b r).toNat
       ((v.bank b).ops = [] → (∀ q, (v.bank b).row = some q → q < 8192) →
        bitsOf w 12 0 = (v.bank b).row.getD 0 ∧ bitOf w 13 = (v.bank b).row.isSome ∧ bitOf w 14 = false ∧
        bitOf w 15 = (v.repairOf b r).isSome ∧ bitOf w 16 = v.refreshEntered s.cc b n ∧
        bitsOf w 47 32 = match v.windowEnd s.cc b n false with | some e => min 65535 (e - n) | none => 0) ∧
       ∀ o, (v.bank b).ops = [o] → o.first ≤ n → n < o.fin → (∀ q, o.after = some q → q < 8192) →
        bitsOf w 12 0 = o.after.getD 0 ∧ bitOf w 13 = false ∧ bitOf w 14 = o.after.isSome ∧
        (v.windowEnd s.cc b n false = none → bitsOf w 47 32 = min 65535 (o.fin - n))) ∧
      (s.th.st = .booked → s.me.ownHolds s.th (0x40 + b) s.tick = false → ∀ i ∈ ([.rowact a, .rowpre a] : List Instr),
        s.traps i { cause := 0x0A, det0 := 0x40 + b, det1 := (s.tick + bk.k0 / 8 + 2 ^ 48 - bk.start) % 2 ^ 48 }) ∧
      (s.noBookings → (∀ y, v.repairOf b r = some y →
        s.traps (.rowact a) { cause := 0x0D, addr := va, det0 := b * 2 ^ 13 + r * 2 ^ 18, det1 := y.remapAt.getD (2 ^ 64 - 1), replay := true })) ∧
      (s.noBookings → v.accs = [] → v.powerAt ≤ n →
        (bank.row = none → exec (.rowpre a) s = .next (s.completes 1 id)) ∧
        (∀ q, bank.row = some q →
          (bank.ops = [] → clear → bank.actAt + 30 ≤ n → leaves (.rowpre a) .rowpre closing true) ∧
          (bank.ops ≠ [] ∨ ¬ clear ∨ n < bank.actAt + 30 → leaves (.rowpre a) .rowpre bank false)) ∧
        (v.repairOf b r = none →
          (bank.row = some r → exec (.rowact a) s = .next (s.completes 1 id)) ∧
          (bank.row = none → bank.ops = [] → clear → leaves (.rowact a) .rowact opening true) ∧
          (bank.row = none → bank.ops ≠ [] ∨ ¬ clear → leaves (.rowact a) .rowact bank false) ∧
          ∀ q, q ≠ r → bank.row = some q →
            (bank.ops = [] → clear → bank.actAt + 30 ≤ n → leaves (.rowact a) .rowact closing false) ∧
            (bank.ops ≠ [] ∨ ¬ clear ∨ n < bank.actAt + 30 → leaves (.rowact a) .rowact bank false)))) ∧
  ∀ (s : State) (c : Nat) (q : VaultAcc) (g : Seg), c < 256 → (s.coreAt c).vault.accs = [q] → q.segs = [g] → q.abandoned = false →
    g.held = false → g.moved ≠ g.n → g.ready = false → g.bank < 32 → (s.coreAt c).vault.powerAt ≤ s.cycle →
    let k := s.coreAt c
    let n := s.cycle
    let bank := k.vault.bankAt g.bank n
    let may : Prop := k.mayMove n g.bank q = true ∧ ∀ m, n ≤ m → m < n + 14 → k.vault.windowEnd c g.bank m false = none
    let closing : Bank := ⟨none, 0, [⟨n, n + 14, bank.row, none⟩]⟩
    let leaves (y : Bank) (ends : Bool) : Prop := ∃ t, exec (.vaultAccessBeat c q.id) s = .next t ∧ sameMemory s t ∧
      (t.coreAt c).vault.bank g.bank = y ∧ (∀ b', b' ≠ g.bank → (t.coreAt c).vault.bank b' = k.vault.bank b') ∧
      if ends then (t.coreAt c).vault.accs = []
      else (n + 1, .vaultAccessBeat c q.id) ∈ t.agenda ∧ ∃ q', (t.coreAt c).vault.accs = [q'] ∧ q'.id = q.id ∧ q'.op = q.op
    (q.op = .rowact →
      (bank.row = some g.row → bank.ops ≠ [] ∨ k.vault.windowEnd c g.bank n false = none → leaves bank true) ∧
      (bank.row = none → bank.ops = [] → may → leaves ⟨some g.row, n, [⟨n, n + 14, none, some g.row⟩]⟩ true) ∧
      (bank.row = none → bank.ops ≠ [] ∨ ¬ may → leaves bank false) ∧
      ∀ r, r ≠ g.row → bank.row = some r →
        (bank.ops = [] → may → bank.actAt + 30 ≤ n → leaves closing false) ∧
        (bank.ops ≠ [] ∨ ¬ may ∨ n < bank.actAt + 30 → leaves bank false)) ∧
    (q.op = .rowpre →
      (bank.row = none → leaves bank true) ∧
      ∀ r, bank.row = some r →
        (bank.ops = [] → may → bank.actAt + 30 ≤ n → leaves closing true) ∧
        (bank.ops ≠ [] ∨ ¬ may ∨ n < bank.actAt + 30 → leaves bank false))

/-- R173, R176 to R178, R182, R184: a tile move of an open thread is issued in one cycle as an outstanding access of the thread and an
access of the vault controller over the named range; its beats are looked at from the next cycle on, and no byte moves before them; with
four outstanding a fifth waits. The faults of a tile move, in their order. `vsync` waits until the thread's tile moves and vault stores
are complete; booked, it raises OVRN. -/
def Obligations.tile_moves : Prop :=
  (∀ (s : State) (a b : GReg) (len : BitVec 6) (store : Bool), (∀ rd wr va n, s.watchStop rd wr va n = none) →
    s.usable [.rg a false, .rg b false] →
    let va := (s.readG a).toNat % 2 ^ 52
    let la := (s.readG b).toNat % 2 ^ 52
    let n := (len.toNat + 1) * 512
    let i : Instr := if store then .tst a b len else .tld a b len
    let x := s.translate s.cc s.me.ctx va (!store) store
    let target : Prop := isLocal la = true ∧ (localOff la + n ≤ 0x100000 ∨
      (0x110000 ≤ localOff la ∧ localOff la < 0x130000 ∧ (localOff la - 0x110000) % 0x8000 + n ≤ 0x8000) ∨
      (0x130000 ≤ localOff la ∧ localOff la < 0x160000 ∧ (localOff la - 0x130000) % 0xC000 + n ≤ 0xC000) ∨
      (store = true ∧ 0x200000 ≤ localOff la ∧ localOff la < 0x280000 ∧ localOff la % 0x10000 + n ≤ 0x10000))
    (va % 512 ≠ 0 → s.traps i { cause := 0x03, addr := va }) ∧
    (va % 512 = 0 → la % 512 ≠ 0 → s.traps i { cause := 0x03, addr := la }) ∧
    (va % 512 = 0 → la % 512 = 0 → va / 65536 ≠ (va + n - 1) / 65536 → s.traps i { cause := 0x03, addr := va }) ∧
    (va % 512 = 0 → la % 512 = 0 → va / 65536 = (va + n - 1) / 65536 →
      (x = .page → s.traps i { cause := 0x04, addr := va }) ∧
      (x = .prot ∨ (∃ o, x = .loc o) → s.traps i { cause := 0x05, addr := va }) ∧
      ((∃ o, x = .offstack o) → s.traps i { cause := 0x05, addr := va, det0 := 3 }) ∧
      ((∃ c, x = .foreign c) ∨ x = .moving ∨ (∃ pa, x = .vault pa) → ¬ target → s.traps i { cause := 0x05, addr := la }) ∧
      (target →
        (∀ c, x = .foreign c → s.traps i { cause := 0x06, addr := va }) ∧
        (x = .moving → (s.th.st ≠ .booked → exec i s = .next (s.waits (s.cycle + 1))) ∧
          (s.th.st = .booked → s.traps i { cause := 0x0B, addr := va, replay := true })) ∧
        ∀ pa, x = .vault pa →
          ((s.me.engineByte (localOff la) n).isSome = true → s.traps i { cause := 0x09, addr := la }) ∧
          (s.me.engineByte (localOff la) n = none → s.noBookings →
            let tiles := (s.th.outs.filter (·.tile)).length
            (4 ≤ tiles → exec i s = .next (s.waits (s.cycle + 1))) ∧
            (tiles < 4 → s.acquireStop va = none →
              (∀ g r, store = false → (segsFrom 8 pa n 0).head? = some g → s.me.vault.repairOf g.bank g.row = some r →
                s.traps i { cause := 0x0D, addr := va, det0 := g.bank * 2 ^ 13 + g.row * 2 ^ 18, det1 := r.remapAt.getD (2 ^ 64 - 1), replay := true }) ∧
              (s.me.vault.rowErrs = [] →
                ∃ t o y, exec i s = .next t ∧ sameMemory s t ∧
                  t.th = s.after ({ s.th with outs := s.th.outs ++ [o], serial := s.th.serial + 1 }) 1 ∧
                  o.id = s.th.serial ∧ o.tile = true ∧ o.lo = localOff la ∧ o.n = n ∧
                  t.me.vault.accs.getLast? = some y ∧ y.id = s.me.vault.serial ∧
                  (∀ u, u.id ≠ y.id → (u ∈ t.me.vault.accs ↔ u ∈ s.me.vault.accs)) ∧
                  y.by_ = .thread s.ct ∧ y.acc = s.th.serial ∧ y.op = (if store then .tileStore else .tileLoad) ∧ y.lo = localOff la ∧ y.n = n ∧
                  (y.segs.map fun g => (g.pa, g.n, g.off, g.moved)) = ((segsFrom 8 pa n 0).map fun g => (g.pa, g.n, g.off, 0)) ∧
                  (s.cycle + 1, .tileBeat s.cc y.id) ∈ t.agenda)))))) ∧
  ∀ (s : State),
    let works : Prop := ∃ o ∈ s.th.outs, o.tile = true ∨ (o.kind = .vault ∧ o.store = true)
    (¬ works → exec .vsync s = .next (s.completes s.drainCost id)) ∧
    (s.th.st ≠ .booked → works → exec .vsync s = .next s.drains) ∧
    (s.th.st = .booked → works → (∀ x ∈ s.me.vault.accs, x.abandoned = false) → s.traps .vsync { cause := 0x0B, replay := true })

/-- R124, R154, R164, R166, R177, R179, R301, R343: an access's beat, in a cycle at least ten after its row is ready and in which the port
and its bank serve it. A load's register or group receives the bytes, a store's bytes are written, an atomic reads in one beat and writes
in another at least two cycles later, a tile move moves 64 or 512 bytes; in other cycles the access tries again. An access whose row does
not stand open takes its bank the next step towards it, as R164 says. An access abandoned at its limit moves no beat. -/
def Obligations.vault_beats : Prop :=
  (∀ (v : Vault) (core b row n : Nat) (may : Bool),
    let bank := v.bankAt b n
    let clear : Prop := ∀ c, n ≤ c → c < n + 14 → v.windowEnd core b c false = none
    (bank.ops ≠ [] → v.rowStep core b row n may = (if bank.row = some row then some bank.busyEnd else none, bank)) ∧
    (bank.ops = [] →
      (bank.row = some row → v.rowStep core b row n may = (if (v.windowEnd core b n false).isSome then none else some n, bank)) ∧
      (bank.row ≠ some row → may = false ∨ ¬ clear → v.rowStep core b row n may = (none, bank)) ∧
      (bank.row = none → may = true → clear → v.rowStep core b row n may = (some (n + 14), ⟨some row, n, [⟨n, n + 14, none, some row⟩]⟩)) ∧
      ∀ q, bank.row = some q → q ≠ row → may = true → clear →
        (n < bank.actAt + 30 → v.rowStep core b row n may = (none, bank)) ∧
        (bank.actAt + 30 ≤ n → v.rowStep core b row n may = (none, ⟨none, 0, [⟨n, n + 14, some q, none⟩]⟩)))) ∧
  ∀ (s : State) (c : Nat) (a : VaultAcc) (g : Seg) (tn : Fin 4), c < 256 → (s.coreAt c).vault.accs = [a] → a.segs = [g] → a.by_ = .thread tn →
    a.abandoned = false → g.held = false → g.off = 0 → g.moved < g.n → g.bank < 32 → (s.coreAt c).vault.badWords = [] →
    (s.coreAt c).vault.mem.wf = true → (s.coreAt c).sram.wf = true →
    let k := s.coreAt c
    let old := memGetN k.vault.mem g.pa g.n
    let rowOpen : Prop := g.ready = true ∧ (k.vault.bank g.bank).row = some g.row
    let served : Prop := k.serves c s.cycle g.bank a = true ∧ g.rdy + 10 ≤ s.cycle
    let others (t : State) (b n : Nat) : Prop := t.offstack = s.offstack ∧ (∀ x y, memGet (t.coreAt x).sram y = memGet (s.coreAt x).sram y) ∧
      ∀ x y, x ≠ c ∨ y < b ∨ b + n ≤ y → memGet (t.coreAt x).vault.mem y = memGet (s.coreAt x).vault.mem y
    (rowOpen → served →
      (a.op = .load → a.readAt = none → a.data = 0 →
        ∀ o, ((k.thr tn).outs.find? (·.id == a.acc)) = some o → o.left = 1 → o.data = 0 → o.store = false → o.bytes = g.n → o.units = [] →
          ∃ t, exec (.vaultAccessBeat c a.id) s = .next t ∧ sameMemory s t ∧ (t.coreAt c).vault.accs = [] ∧
            ((t.coreAt c).thr tn).outs = (k.thr tn).outs.filter (·.id != o.id) ∧
            (∀ m, o.dest = .g m → m < 32 → o.kind = .vault → ((t.coreAt c).thr tn).g[m]? =
              some ⟨if o.signed then BitVec.ofInt 64 (signedOf (8 * g.n) old) else BitVec.ofNat 64 old, .full, 0⟩) ∧
            (∀ m count j, o.dest = .v m count → m + count ≤ 32 → j < count → o.signed = false → o.kind = .vault →
              ((t.coreAt c).thr tn).vreg (m + j) = ⟨BitVec.ofNat 512 (old / 2 ^ (512 * j)), .full, 0⟩)) ∧
      (a.op = .store → a.readAt = none →
        ∃ t, exec (.vaultAccessBeat c a.id) s = .next t ∧ others t g.pa g.n ∧
          memGetN (t.coreAt c).vault.mem g.pa g.n = a.data % 2 ^ (8 * g.n) ∧ (t.coreAt c).vault.accs = [] ∧
          (s.cycle + 1, .replyArrival (.thread c tn (4 * a.acc)) 0) ∈ t.agenda) ∧
      ((∃ f l, a.op = .fop f l) ∨ a.op = .cas →
        (a.readAt = none → ∃ t, exec (.vaultAccessBeat c a.id) s = .next t ∧ sameMemory s t ∧
          (t.coreAt c).vault.accs = [{ a with readAt := some s.cycle }] ∧ (s.cycle + 1, .vaultAccessBeat c a.id) ∈ t.agenda) ∧
        (∀ r, a.readAt = some r → r + 2 ≤ s.cycle → ∃ t, exec (.vaultAccessBeat c a.id) s = .next t ∧ others t g.pa g.n ∧
          memGetN (t.coreAt c).vault.mem g.pa g.n = rmwApply a.op g.n old a.data a.cmp % 2 ^ (8 * g.n) ∧
          (s.cycle + 1, .replyArrival (.thread c tn (4 * a.acc)) old) ∈ t.agenda) ∧
        (∀ r, a.readAt = some r → s.cycle < r + 2 →
          exec (.vaultAccessBeat c a.id) s = .next (s.post (s.cycle + 1) (.vaultAccessBeat c a.id)))) ∧
      (∀ store : Bool, a.op = (if store then .tileStore else .tileLoad) →
        let lo := a.lo + g.moved
        let β := if lo < 0x100000 then 64 else 512
        let pa := g.pa + g.moved
        (lo < 0x100000 → k.beatBank s.cycle (bankOf lo) a = true) →
        ∃ t, exec (.tileBeat c a.id) s = .next t ∧
          (if store then others t pa β ∧ memGetN (t.coreAt c).vault.mem pa β = memGetN k.sram lo β
           else memGetN (t.coreAt c).sram lo β = memGetN k.vault.mem pa β ∧
            (∀ i, 16 * i < lo + β → lo < 16 * i + 16 → lo < 0x100000 → (t.coreAt c).granFull i = true) ∧
            (∀ x y, x ≠ c ∨ y < lo ∨ lo + β ≤ y → memGet (t.coreAt x).sram y = memGet (s.coreAt x).sram y) ∧
            ∀ x y, memGet (t.coreAt x).vault.mem y = memGet (s.coreAt x).vault.mem y) ∧
          (g.moved + β = g.n → (t.coreAt c).vault.accs = [] ∧ (s.cycle + 1, .replyArrival (.thread c tn (4 * a.acc)) 0) ∈ t.agenda) ∧
          (g.moved + β < g.n → (t.coreAt c).vault.accs = [{ a with segs := [{ g with moved := g.moved + β }] }] ∧
            (s.cycle + 1, .tileBeat c a.id) ∈ t.agenda))) ∧
    (rowOpen → ¬ served → a.rowOp = false →
      exec (.vaultAccessBeat c a.id) s = .next (s.post (s.cycle + 1) (.vaultAccessBeat c a.id)) ∧
      exec (.tileBeat c a.id) s = .next (s.post (s.cycle + 1) (.tileBeat c a.id))) ∧
    (¬ rowOpen → a.rowOp = false → k.vault.powerAt ≤ s.cycle →
      let y := k.vault.rowStep c g.bank g.row s.cycle (k.mayMove s.cycle g.bank a)
      let g' : Seg := { g with ready := y.1.isSome, rdy := y.1.getD 0 + if k.vault.power = .gated then 20 else 0 }
      ∀ i ∈ ([.vaultAccessBeat c a.id, .tileBeat c a.id] : List Instr), ∃ t, exec i s = .next t ∧ sameMemory s t ∧
        (t.coreAt c).vault.accs = [{ a with segs := [g'] }] ∧ (t.coreAt c).vault.bank g.bank = y.2 ∧
        (∀ b, b ≠ g.bank → (t.coreAt c).vault.bank b = k.vault.bank b) ∧ (s.cycle + 1, i) ∈ t.agenda) ∧
    (exec (.vaultBeatAbandon c a.id) s = .next (s.modCore c fun k => { k with vault := { k.vault with
      accs := [if a.heldFor.isSome then { a with abandoned := true } else a] } })) ∧
    ∀ s' : State, (s'.coreAt c).vault.accs = [{ a with abandoned := true }] →
      exec (.vaultAccessBeat c a.id) s' = .next s' ∧ exec (.tileBeat c a.id) s' = .next s'

/-- R167 to R175: refresh windows begin on every core's schedule, and extra ones are entered 64 cycles ahead in hot mode, which a
sample decides; the helm changes the power state of a vault's layers, to a low-power one only while the core lies outside every
partition or its partition has no context placed. A row's second corrected error schedules its repair while the bank has a spare row;
the repair copies when no earlier access of the row is outstanding, for 2,000 cycles, and remaps the row. The eighth code word of a lane
decides its repair, which is placed on free ticks 128 ticks later or more and ends 400 cycles after its start with its record (the
spare numbers taken in order are the model's choice, log entry 79). -/
def Obligations.vault_upkeep : Prop :=
  (∀ (s : State) (c : Nat), c < 256 →
    let v := (s.coreAt c).vault
    (∃ t, exec .normalRefresh s = .next t ∧ sameMemory s t ∧
      (phi c ≤ s.cycle → (s.cycle - phi c) % 400 = 0 → v.power ≠ .retention → v.powerAt ≤ s.cycle →
        (⟨some ((s.cycle - phi c) / 400 % 32), s.cycle, s.cycle + 111⟩ : Window) ∈ (t.coreAt c).vault.windows) ∧
      (s.cycle < phi c ∨ (s.cycle - phi c) % 400 ≠ 0 ∨ v.power = .retention ∨ s.cycle < v.powerAt → t.coreAt c = s.coreAt c)) ∧
    (∃ t, exec .extraRefresh s = .next t ∧ sameMemory s t ∧
      (200 + phi c ≤ s.cycle + 64 → (s.cycle + 64 - 200 - phi c) % 400 = 0 → v.hot = true → v.power ≠ .retention →
        (⟨some (((s.cycle + 64 - 200 - phi c) / 400 + 16) % 32), s.cycle + 64, s.cycle + 175⟩ : Window) ∈ (t.coreAt c).vault.windows) ∧
      (v.hot = false → t.coreAt c = s.coreAt c)) ∧
    (∃ t, exec .refreshModeSample s = .next t ∧ sameMemory s t ∧
      ∀ t1 t2 : Int, ((s.coreAt c).sensors[1]).temp = t1 → ((s.coreAt c).sensors[2]).temp = t2 →
        (t.coreAt c).vault.hot = if 1360 < t1 ∨ 1360 < t2 then true else if t1 ≤ 1328 ∧ t2 ≤ 1328 then false else v.hot) ∧
    ∀ p, ∃ t, exec (.layerPowerChange c p) s = .next t ∧ sameMemory s t ∧
      let idle : Prop := ∀ q x, s.partOf c = some q → s.partAt q = some x → x.ctxs = []
      (p = .active ∨ idle → (t.coreAt c).vault.power = p) ∧ (p ≠ .active → ¬ idle → t.coreAt c = s.coreAt c) ∧
      (v.power = .retention → p = .active → (t.coreAt c).vault.powerAt = s.cycle + 2551 ∧ ∀ b, (t.coreAt c).vault.bank b = Bank.reset) ∧
      (v.power ≠ .retention → (t.coreAt c).vault.powerAt = v.powerAt ∧ ∀ b, (t.coreAt c).vault.bank b = v.bank b)) ∧
  (∀ (v : Vault) (bank row : Nat),
    let here (r : RowErr) : Prop := r.bank = bank ∧ r.row = row
    let used := ((v.sparesUsed.find? (·.1 == bank)).map (·.2)).getD 0 + (v.rowErrs.filter fun r => r.bank == bank && r.scheduled).length
    ((∃ r ∈ v.rowErrs, here r ∧ r.scheduled = true) → v.noteRow bank row = v) ∧
    ((∀ r ∈ v.rowErrs, ¬ here r) → (v.rowErrs.filter (!·.displaced)).length < 16 →
      (v.noteRow bank row).rowErrs = v.rowErrs ++ [⟨bank, row, 1, false, none, false⟩]) ∧
    (∀ (i : Nat) (r : RowErr), v.rowErrs[i]? = some r → here r → (∀ y ∈ v.rowErrs, here y → y.scheduled = false) →
      (v.noteRow bank row).rowErrs[i]? = some { r with count := r.count + 1, scheduled := decide (2 ≤ r.count + 1 ∧ used < 64) })) ∧
  (∀ (v : Vault) (tick lane w : Nat),
    let old := ((v.laneErrs.find? (·.1 == lane)).map (·.2)).getD []
    let words := if w ∈ old then old else old ++ [w]
    (8 ≤ words.length → v.lanesRepaired.length + v.laneRepairs.length < 64 → (∀ x ∈ v.laneRepairs, x.1 ≠ lane) → (∀ x ∈ v.lanesRepaired, x.1 ≠ lane) →
      (v.noteLane tick lane w).laneRepairs = v.laneRepairs ++ [(lane, tick, none)]) ∧
    (words.length < 8 → (v.noteLane tick lane w).laneRepairs = v.laneRepairs ∧ (lane, words) ∈ (v.noteLane tick lane w).laneErrs)) ∧
  (∀ (s : State) (c : Nat) (r : RowErr), c < 256 → s.onlyAt c (fun k => !k.vault.rowErrs.isEmpty) → (s.coreAt c).vault.rowErrs = [r] →
    let v := (s.coreAt c).vault
    (r.scheduled = true → r.remapAt = none → v.badWords = [] → r.bank < 32 → r.row < 8192 →
      ∃ t, exec .rowRepairCopyStart s = .next t ∧ sameMemory s t ∧ (t.coreAt c).vault.power = .active ∧
        (s.cycle + 1, .rowRepairCopyStart) ∈ t.agenda ∧
        (v.power = .retention → (t.coreAt c).vault.powerAt = s.cycle + 2551 ∧ (t.coreAt c).vault.rowErrs = [r]) ∧
        (v.power ≠ .retention → v.powerAt ≤ s.cycle → (∀ a ∈ v.accs, ∀ g ∈ a.segs, g.bank = r.bank → g.row = r.row → g.held = true) →
          v.portAt ≠ some s.cycle → (t.coreAt c).vault.rowErrs = [{ r with remapAt := some (s.cycle + 2000) }] ∧
            (s.cycle + 2000, .rowRepairRemap) ∈ t.agenda) ∧
        (v.power ≠ .retention → (∃ a ∈ v.accs, ∃ g ∈ a.segs, g.bank = r.bank ∧ g.row = r.row ∧ g.held = false) →
          (t.coreAt c).vault.rowErrs = [r])) ∧
    (∀ m, r.remapAt = some m → m ≤ s.cycle →
      let spare := 8192 + ((v.sparesUsed.find? (·.1 == r.bank)).map (·.2)).getD 0
      ∃ t, exec .rowRepairRemap s = .next t ∧ (t.coreAt c).vault.rowErrs = [] ∧ sameMemory s t ∧
        (t.coreAt c).vault.remapped = v.remapped ++ [(r.bank, r.row)] ∧
        (r.bank < 32 → ((t.coreAt c).vault.bank r.bank).row =
          if (v.bank r.bank).row = some r.row ∨ (v.bank r.bank).row = some spare then none else (v.bank r.bank).row) ∧
        ∀ b, b ≠ r.bank → (t.coreAt c).vault.bank b = v.bank b)) ∧
  ∀ (s : State) (c lane decided : Nat) (f : Option Nat), c < 256 → s.onlyAt c (fun k => !k.vault.laneRepairs.isEmpty) →
    (s.coreAt c).vault.laneRepairs = [(lane, decided, f)] →
    let v := (s.coreAt c).vault
    let least := max (decided + 128) (s.tick + 8)
    let taken (d : Nat) : Prop := ∃ i h, i < 16 ∧ ((s.coreAt c).booking i).live = true ∧ h ∈ ((s.coreAt c).booking i).holds ∧
      (h.code = 3 ∨ (0x40 ≤ h.code ∧ h.code < 0x60)) ∧ h.first < d + 50 ∧ d ≤ h.last
    (f = none → v.power ≠ .retention → v.powerAt ≤ 8 * least →
      (∀ d, least ≤ d → d < s.tick + 463 → ¬ taken d → (∀ e, least ≤ e → e < d → taken e) →
        ∃ t, exec .laneRepairPost s = .next t ∧ (t.coreAt c).vault.laneRepairs = [(lane, decided, some (8 * d))] ∧
          (⟨none, 8 * d, 8 * d + 399⟩ : Window) ∈ (t.coreAt c).vault.windows ∧ (8 * d + 400, .laneRepairComplete) ∈ t.agenda ∧ sameMemory s t) ∧
      ((∀ d, least ≤ d → d < s.tick + 463 → taken d) →
        ∃ t, exec .laneRepairPost s = .next t ∧ (8 * (s.tick + 1), .laneRepairPost) ∈ t.agenda ∧
          (t.coreAt c).vault.laneRepairs = v.laneRepairs ∧ (t.coreAt c).vault.windows = v.windows ∧ sameMemory s t)) ∧
    (∀ first, f = some first → first + 400 ≤ s.cycle →
      ∃ t, exec .laneRepairComplete s = .next t ∧ (t.coreAt c).vault.laneRepairs = [] ∧
        (t.coreAt c).vault.lanesRepaired = v.lanesRepaired ++ [(lane, v.lanesRepaired.length)] ∧
        ((s.coreAt c).ctx = 0 → sameMemory s t ∧ ∃ e, t.helm.journal = s.helm.journal ++ [e] ∧ e.kind = 8 ∧ e.core = c ∧ e.a = lane))

/-! ### Page tiers and migration -/

/-- R171, R190 to R194: `pmig` answers 6 for a malformed target word and else the lowest status that applies (that 6 comes first is the
model's choice, log entry 81), and queues the move on status 0; `ptq` answers a page's tier word; both trap on a page without a leaf and
on a local address. Epochs halve the counters. A queued move starts unless a booking pins it, in which case it is looked at again eight
cycles later, and a move that cannot be made leaves the queue (log entry 81 for both): its entry is marked as moving. It goes chunk by
chunk of 4 KiB: read at its source, a vault's in an agent tick that the agent leaves unused, sent as OP traffic, written at a vault
likewise. When the last chunk is there the entry names the destination, and the source's counters are zero. A booking of a vault's port or
banks aborts the move that touches the vault. -/
def Obligations.page_migration : Prop :=
  (∀ (s : State) (d a b : GReg) (l : LeafAt), s.usable [.rg a false, .rg b false, .wg d] →
    let va := (s.readG a).toNat % 2 ^ 52
    let w := (s.readG b).toNat
    let tgt : Option Nat := if bitsOf w 9 8 = 1 then some (w % 256) else none
    let here := vaultOf l.entry
    let page := va / 2 ^ l.log * 2 ^ l.log
    isLocal va = false → s.leaf s.me.ctx va = some l →
    (let st := if 1024 ≤ w ∨ 1 < bitsOf w 9 8 then 6
       else if bitsOf l.entry 62 61 ≠ 2 ∧ here = tgt then 1
       else if s.pinned here tgt then 2
       else if 64 ≤ s.helm.moves.length then 3
       else if s.helm.policy.hints = false ∨ bitOf l.entry 56 then 4
       else if 1 < bitsOf l.entry 60 59 ∨ s.freeFrames s.me.ctx tgt (2 ^ (l.log - 16)) = none then 5 else 0
     let m : Move := Move.queued s.me.ctx page l.entryPa tgt
     let queued : State := { s with helm := { s.helm with moves := s.helm.moves ++ [m] } }
     let q := queued.postOnce (s.cycle + 1) .migrationMoveStart
     exec (.pmig d a b) s =
       .next ((if st = 0 then q else s).completes 1 fun th => th.setGreg d.toNat ⟨BitVec.ofNat 64 st, .full, s.cycle + 4⟩)) ∧
    (∃ x, exec (.ptq d a) s = .next (s.completes 1 fun th => th.setGreg d.toNat ⟨BitVec.ofNat 64 x, .full, s.cycle + 4⟩) ∧ x < 2 ^ 64 ∧
      bitsOf x 1 0 = bitsOf l.entry 62 61 ∧ bitsOf x 9 2 = bitsOf l.entry 54 47 ∧ bitsOf x 11 10 = bitsOf l.entry 60 59 ∧
      bitOf x 13 = (s.helm.moves.any fun m => m.ctx == s.me.ctx && m.va == page) ∧ bitOf x 14 = bitOf l.entry 55 ∧
      bitOf x 15 = bitOf l.entry 56 ∧
      (bitsOf l.entry 62 61 ≠ 2 →
        let y := s.frameCnt here (bitsOf l.entry 39 16 + va % 2 ^ l.log / 65536)
        bitsOf x 31 16 = y.count % 65536 ∧ bitsOf x 39 32 = y.cand % 256 ∧ bitsOf x 55 40 = y.weight % 65536 ∧
        ((∀ m ∈ s.helm.moves, m.ctx ≠ s.me.ctx ∨ m.va ≠ page) → bitOf x 12 = s.pinned here none)))) ∧
  (∀ (s : State) (d a b : GReg), s.usable [.rg a false, .rg b false, .wg d] →
    let va := (s.readG a).toNat % 2 ^ 52
    (isLocal va = true → s.traps (.pmig d a b) { cause := 0x05, addr := va } ∧ s.traps (.ptq d a) { cause := 0x05, addr := va }) ∧
    (isLocal va = false → s.leaf s.me.ctx va = none →
      s.traps (.pmig d a b) { cause := 0x04, addr := va } ∧ s.traps (.ptq d a) { cause := 0x04, addr := va })) ∧
  (∀ s : State, let half (f : FrameCnt) : FrameCnt := { f with count := f.count / 2, weight := f.weight / 2 }
    ∃ t l, exec .epochEnd s = .next t ∧ t.offFrames = s.offFrames.map half ∧
      (∀ c, (t.coreAt c).vault.frames = (s.coreAt c).vault.frames.map half) ∧ sameMemory s t ∧
      t.helm.moves = s.helm.moves ++ l ∧ (s.helm.policy.enable = false → l = [])) ∧
  (∀ (s : State) (l : LeafAt) (f : Nat), l.log = 16 → l.frames = [f] →
    let here := vaultOf l.entry
    let y := s.frameCnt here f
    let p := s.helm.policy
    let warm : Prop := p.hot ≤ y.count ∧ y.count ≤ 2 * y.weight
    bitsOf l.entry 60 59 ≤ 1 → bitsOf l.entry 62 61 ≤ 1 →
      (bitOf l.entry 56 = true → s.judge l = none) ∧
      (bitOf l.entry 56 = false → bitsOf l.entry 62 61 = 0 → (warm → s.judge l = some (some y.cand)) ∧ (¬ warm → s.judge l = none)) ∧
      (bitOf l.entry 56 = false → ∀ v, here = some v → (warm → y.cand ≠ v → s.judge l = some (some y.cand)) ∧
        (¬ warm ∨ y.cand = v → s.judge l = if y.count < p.cold then some none else none))) ∧
  (∀ (s : State) (m : Move) (rest : List Move), s.helm.moves = m :: rest → m.moving = false → s.offstack.wf = true →
    let dropped : Prop := ∃ t, exec .migrationMoveStart s = .next t ∧ t.helm.moves = rest ∧ sameMemory s t
    (s.leaf m.ctx m.va = none → dropped) ∧
    ∀ l, s.leaf m.ctx m.va = some l →
      let movable : Prop := bitsOf l.entry 62 61 ≤ 1 ∧ bitsOf l.entry 60 59 ≤ 1 ∧ bitOf l.entry 56 = false ∧ vaultOf l.entry ≠ m.toVault
      (¬ movable → dropped) ∧
      (movable → s.pinned (vaultOf l.entry) m.toVault = true →
        exec .migrationMoveStart s = .next (s.postOnce (s.cycle + 8) .migrationMoveStart)) ∧
      (movable → s.pinned (vaultOf l.entry) m.toVault = false →
        (s.freeFrames m.ctx m.toVault (2 ^ (l.log - 16)) = none → dropped) ∧
        ∀ f, s.freeFrames m.ctx m.toVault (2 ^ (l.log - 16)) = some f →
          ∃ t m', exec .migrationMoveStart s = .next t ∧ t.helm.moves = m' :: rest ∧ m'.moving = true ∧ m'.entryPa = l.entryPa ∧
            m'.source = BitVec.ofNat 64 l.entry ∧ m'.toVault = m.toVault ∧ bitsOf (memGetN t.offstack l.entryPa 8) 62 61 = 2 ∧
            (∀ v, vaultOf l.entry = some v ∨ m.toVault = some v → v < 256 → (t.coreAt v).vault.power = .active) ∧
            (∀ x, x < l.entryPa ∨ l.entryPa + 8 ≤ x → memGet t.offstack x = memGet s.offstack x) ∧
            (∀ c x, memGet (t.coreAt c).vault.mem x = memGet (s.coreAt c).vault.mem x) ∧ (s.cycle + 1, .migrationMoveStart) ∈ t.agenda)) ∧
  (∀ (s : State) (m : Move) (rest : List Move), s.helm.moves = m :: rest → m.moving = true → s.offstack.wf = true →
    let src := vaultOf m.source.toNat
    let spa := bitsOf m.source.toNat 39 16 * 65536 + 4096 * m.chunk
    let dpa := bitsOf m.dest.toNat 39 16 * 65536 + 4096 * m.chunk
    let chunks := 16 * (framesOfEntry m.source.toNat).length
    let turn (v pa : Nat) : Prop := (s.coreAt v).vault.powerAt ≤ s.cycle ∧ agentTick s.tick = true ∧ s.cycle % 8 = 7 ∧
      (∃ r, m.rdy = some r ∧ r + 10 ≤ 8 * s.tick) ∧ ((s.coreAt v).vault.bank (vbank pa)).row = some (vrow pa) ∧
      (∀ p, (s.coreAt v).vault.portAt = some p → p < 8 * s.tick) ∧ (s.coreAt v).booked (0x40 + vbank pa) s.tick = false ∧
      (s.coreAt v).vault.windowEnd v (vbank pa) (8 * s.tick) false = none ∧ (s.coreAt v).vault.windowEnd v (vbank pa) s.cycle false = none
    let waits : Prop := exec .migrationMoveStart s = .next (s.postOnce (s.cycle + 1) .migrationMoveStart)
    let asks (core : Nat) (y : Nat → FlitEnd × Payload) : Prop := ∃ t, exec .migrationMoveStart s = .next t ∧ sameMemory s t ∧
      t.helm.moves = { m with asked := true, rdy := none } :: rest ∧ (s.cycle + 1, .migrationMoveStart) ∈ t.agenda ∧
      ∀ i, i < 64 → (⟨⟨.openOp, core, 4, (y i).1, (y i).2⟩, core, 4, s.cycle + 1, false, false, none⟩ : MeshFlit) ∈ t.mesh
    let block (i : Nat) : Nat := 64 * m.chunk + i
    m.chunk < chunks →
    (m.asked = false → ∀ v, src = some v → v < 256 →
      (agentTick s.tick = false ∨ s.cycle < (s.coreAt v).vault.powerAt → waits) ∧
      (turn v spa → (s.coreAt v).net.replay = none →
        let word (i : Nat) : Nat := memGetN (s.coreAt v).vault.mem (spa + 64 * i) 64
        (∀ w, (s.coreAt v).vault.badWord spa 4096 = some w → ∃ t, exec .migrationMoveStart s = .next t ∧ t.helm.moves = rest ∧
          memGetN t.offstack m.entryPa 8 = m.source.toNat ∧ w / 1024 ∈ (t.coreAt v).vault.poisoned) ∧
        ((s.coreAt v).vault.badWord spa 4096 = none → spa / 65536 ∉ (s.coreAt v).vault.poisoned →
          (∀ d, m.toVault = some d → d ≠ v → asks v fun i => (.core d, .reply (.copy d m.uid (block i)) (word i))) ∧
          (m.toVault = none → asks v fun i => let p := dpa + 64 * i
            (.off (ctrlOf p), .request ⟨.copy v m.uid (block i), m.ctx, v, 4, .off (ctrlOf p), .put, p, 64, word i, 0⟩))))) ∧
    (m.asked = false → src = none → ∀ d, m.toVault = some d → (s.coreAt d).net.replay = none → spa / 65536 ∉ s.offPoisoned →
      asks d fun i => let p := spa + 64 * i
        (.off (ctrlOf p), .request ⟨.copy d m.uid (block i), m.ctx, d, 4, .off (ctrlOf p), .get, p, 64, 0, 0⟩)) ∧
    (m.asked = true → m.got.length < 64 → waits ∧
      ∀ c blk x, blk / 64 = m.chunk → (∀ y ∈ m.got, y.1 ≠ blk) →
        ∃ t, exec (.replyArrival (.copy c m.uid blk) x) s = .next t ∧ sameMemory s t ∧ t.helm.moves = { m with got := m.got ++ [(blk, x)] } :: rest) ∧
    (m.asked = true → 64 ≤ m.got.length →
      let next (t : State) : Prop :=
        (m.chunk + 1 < chunks → t.helm.moves = { m with chunk := m.chunk + 1, asked := false, got := [], rdy := none } :: rest) ∧
        (m.chunk + 1 = chunks → t.helm.moves = { m with chunk := m.chunk + 1 } :: rest ∧ (s.cycle + 1, .migrationMoveComplete) ∈ t.agenda)
      (m.toVault = none → ∃ t, exec .migrationMoveStart s = .next t ∧ sameMemory s t ∧ next t) ∧
      ∀ d, m.toVault = some d → d < 256 → (s.coreAt d).vault.mem.wf = true →
        (agentTick s.tick = false ∨ s.cycle < (s.coreAt d).vault.powerAt → waits) ∧
        (turn d dpa → (m.got.map (·.1)).Nodup → (∀ y ∈ m.got, y.1 / 64 = m.chunk) →
          ∃ t, exec .migrationMoveStart s = .next t ∧ next t ∧ t.offstack = s.offstack ∧
            (∀ y ∈ m.got, memGetN (t.coreAt d).vault.mem (dpa + 64 * (y.1 % 64)) 64 = y.2 % 2 ^ 512) ∧
            ∀ c x, c ≠ d ∨ x < dpa ∨ dpa + 4096 ≤ x → memGet (t.coreAt c).vault.mem x = memGet (s.coreAt c).vault.mem x)) ∧
    ∀ n, src = some n ∨ m.toVault = some n → (s.abortMoves n).helm.moves = rest ∧
      memGetN (s.abortMoves n).offstack m.entryPa 8 = m.source.toNat) ∧
  ∀ (s : State) (m : Move) (rest : List Move), s.helm.moves = m :: rest → m.moving = true → s.offstack.wf = true →
    ∃ t, exec .migrationMoveComplete s = .next t ∧ t.helm.moves = rest ∧ memGetN t.offstack m.entryPa 8 = m.dest.toNat ∧
      (∀ c x, memGet (t.coreAt c).vault.mem x = memGet (s.coreAt c).vault.mem x) ∧
      (∀ x, x < m.entryPa ∨ m.entryPa + 8 ≤ x → memGet t.offstack x = memGet s.offstack x) ∧
      (∀ v, vaultOf m.source.toNat = some v → v < 256 → (t.coreAt v).vault.frames =
        (s.coreAt v).vault.frames.filter fun f => !(framesOfEntry m.source.toNat).contains f.frame) ∧
      (vaultOf m.source.toNat = none → t.offFrames = s.offFrames.filter fun f => !(framesOfEntry m.source.toNat).contains f.frame)

/-! ### Atomic accesses -/

/-- R343 to R346: an atomic marks its destination empty and is outstanding until the old value arrives. On the thread's own scratchpad the
action takes place in the issue cycle and the old value comes three cycles after it; on the core's vault it is issued to the controller; to
off-stack memory it leaves as a request. The faults of its address, in their order. -/
def Obligations.atomic_accesses : Prop :=
  ∀ (s : State) (d a b : GReg) (ea eb : Bool) (q : Pred) (z : OpSize) (op : FopOp), s.th.pred q = true → s.memoryQuiet →
    s.usable [.rg a ea, .rg b eb, .wg d, .rg d false] → s.me.sram.wf = true → (op = .faddTs → z.bytes = 4) →
    let n := z.bytes
    let w := 8 * n
    let va := (s.readG a).toNat % 2 ^ 52
    let x := (s.readG b).toNat % 2 ^ w
    let e := (s.readG d).toNat % 2 ^ w
    let dest := s.th.destOf d.toNat
    let tr := s.translate s.cc s.me.ctx va true true
    let rid := 4 * s.th.serial
    let waiting (t : State) (kind : AccessKind) : Prop := ∃ o, o.id = s.th.serial ∧ o.kind = kind ∧ o.dest = dest ∧ o.bytes = n ∧ o.store = false ∧
      t.th = s.after ({ s.th.setDest dest .empty 0 0 with outs := s.th.outs ++ [o], serial := s.th.serial + 1 }) 1
    (∀ o, va = localBase + o → o % n = 0 → o < 0x100000 → s.me.owner (o / 4096) = 0 →
      let old := memGetN s.me.sram o n
      let leaves (i : Instr) (new : Nat) : Prop := ∃ t, exec i s = .next t ∧ waiting t .loc ∧
        (s.cycle + 3, .replyArrival (.thread s.cc s.ct rid) old) ∈ t.agenda ∧ memGetN t.me.sram o n = new % 2 ^ w ∧
        (∀ g, t.me.granFull g = s.me.granFull g) ∧
        (∀ c y, c ≠ s.cc ∨ y < o ∨ o + n ≤ y → memGet (t.coreAt c).sram y = memGet (s.coreAt c).sram y) ∧
        (∀ c y, memGet (t.coreAt c).vault.mem y = memGet (s.coreAt c).vault.mem y) ∧ t.offstack = s.offstack
      leaves (.cas d a b ea eb q z) (if old = e then x else old) ∧
      leaves (.fop d a b ea eb q z op) (match op with
        | .add => old + x
        | .and => old &&& x
        | .or => old ||| x
        | .xor => old ^^^ x
        | .min => if signedOf w old < signedOf w x then old else x
        | .max => if signedOf w old < signedOf w x then x else old
        | .minu => min old x
        | .maxu => max old x
        | .swap => x
        | .faddTs => (ElemTy.f32.ffmt.addR .rne (ElemTy.f32.ffmt.value old) (ElemTy.f32.ffmt.value x)).1)) ∧
    (∀ pa, tr = .vault pa → va % n = 0 → s.noBookings → s.me.vault.rowErrs = [] →
      let issues (i : Instr) (bop : BeatOp) (cmp : Nat) : Prop := ∃ t v, exec i s = .next t ∧ sameMemory s t ∧ waiting t .vault ∧
        t.me.vault.accs.getLast? = some v ∧ v.id = s.me.vault.serial ∧ (∀ u, u.id ≠ v.id → (u ∈ t.me.vault.accs ↔ u ∈ s.me.vault.accs)) ∧
        v.op = bop ∧ v.data = x ∧ v.cmp = cmp ∧ v.va = va ∧ v.n = n ∧ v.by_ = .thread s.ct ∧ v.acc = s.th.serial ∧
        (s.cycle + 1, .vaultAccessBeat s.cc v.id) ∈ t.agenda
      issues (.cas d a b ea eb q z) .cas e ∧ issues (.fop d a b ea eb q z op) (.fop op w) 0) ∧
    (∀ pa, tr = .offstack pa → va % n = 0 → s.me.net.replay = none →
      let sends (i : Instr) (rop : ReqOp) (cmp : Nat) : Prop := ∃ t, exec i s = .next t ∧ sameMemory s t ∧ waiting t .off ∧
        t.mesh = s.mesh ++ [⟨⟨.openOp, s.cc, s.ct, .off (ctrlOf pa),
          .request ⟨.thread s.cc s.ct rid, s.me.ctx, s.cc, s.ct, .off (ctrlOf pa), rop, pa, n, x, cmp⟩⟩, s.cc, 4, s.cycle + 1, false, false, none⟩]
      sends (.cas d a b ea eb q z) .cas e ∧ sends (.fop d a b ea eb q z op) (.fop op w) 0) ∧
    ∀ i ∈ ([.fop d a b ea eb q z op, .cas d a b ea eb q z] : List Instr),
      (va % n ≠ 0 → s.traps i { cause := 0x03, addr := va }) ∧
      (va % n = 0 →
        (tr = .page → s.traps i { cause := 0x04, addr := va }) ∧ (tr = .prot → s.traps i { cause := 0x05, addr := va }) ∧
        (∀ o, tr = .loc o → 0x100000 ≤ o → s.traps i { cause := 0x05, addr := va, det0 := 6 }) ∧
        (∀ c, tr = .foreign c → s.traps i { cause := 0x06, addr := va }) ∧
        (∀ o, tr = .loc o → o < 0x100000 → (s.me.engineByte o 4).isSome = true → s.traps i { cause := 0x09, addr := va }) ∧
        (tr = .moving → (s.th.st ≠ .booked → exec i s = .next (s.waits (s.cycle + 1))) ∧
          (s.th.st = .booked → s.traps i { cause := 0x0B, addr := va, replay := true })))

/-! ### Copies and streams -/

/-- R281, R286, R290, R294 to R298: `cpy` reads a descriptor, queues the copy on its channel, gives its tiles to the engine and
answers a handle; `sbind` binds a stream register; `sunb` unbinds it once its appends are drained and answers the units taken;
`cpyq`, `cpyw` and `sparkq` answer status words. Malformed operands raise ENGINE; the open-only ones raise BOOKV in booked mode. (The
serial of the first copy and the cycle from which a copy runs are the model's, log entries 12 and 73.) -/
def Obligations.copies_and_streams : Prop :=
  ∀ (s : State) (d a : GReg) (c : BitVec 4) (n : BitVec 3), s.memoryQuiet → s.usable [.rg a false, .wg d] →
    let e := s.me.engine
    let x := (s.readG a).toNat
    let answers (i : Instr) (v lat cost : Nat) : Prop := ∃ t, exec i s = .next t ∧ sameMemory s t ∧
      t.th = s.after (s.th.setGreg d.toNat ⟨BitVec.ofNat 64 v, .full, s.cycle + lat⟩) cost
    let engine (i : Instr) (code w : Nat) : Prop := s.traps i { cause := 0x14, det0 := code, det1 := w }
    let bound := e.streams.find? fun p => p.2.thr == s.ct && p.2.sreg == n.toNat
    (s.th.st = .booked → ∀ i ∈ ([.cpy d a c, .cpyw d a, .sbind d a n, .sunb d n] : List Instr), s.traps i { cause := 0x0A, det0 := 0x100 }) ∧
    (s.th.st ≠ .booked →
      (∀ i ∈ ([.cpy d a c, .sbind d a n] : List Instr), let va := x % 2 ^ 52
        (va % 64 ≠ 0 → s.traps i { cause := 0x03, addr := va }) ∧
        (va % 64 = 0 → va < localBase ∨ localBase + 0x100000 ≤ va → s.traps i { cause := 0x05, addr := va, det0 := 5 }) ∧
        (∀ o, va = localBase + o → o % 64 = 0 → o < 0x100000 → s.me.owner (o / 4096) ≠ 0 → s.traps i { cause := 0x09, addr := va })) ∧
      (∀ o, x % 2 ^ 52 = localBase + o → o % 64 = 0 → o < 0x100000 → (∀ u, s.me.owner u = 0) → (∀ u, s.me.tileOn u = none) →
        let desc := memGetN s.me.sram o 64
        (∀ y off, copyOf desc = (y, some off) → engine (.cpy d a c) 14 off) ∧
        (∀ y, copyOf desc = (y, none) →
          let live := (e.copies.filter fun z => z.st == .queued || z.st == .running || z.st == .parked || !z.tiles.isEmpty).length
          (512 ≤ live → answers (.cpy d a c) (2 ^ 63 + 1) 2 2) ∧
          (live < 512 → (∃ p ∈ e.streams, p.1 = c.toNat) → answers (.cpy d a c) (2 ^ 63 + 2) 2 2) ∧
          (live < 512 → (∀ p ∈ e.streams, p.1 ≠ c.toNat) → ∃ t z, exec (.cpy d a c) s = .next t ∧ sameMemory s t ∧
            t.me.engine.copies.getLast? = some z ∧ z.idx < 512 ∧ z.serial = (e.serial + 1) % 65536 ∧ z.chan = c.toNat ∧ z.thr = s.ct ∧
            z.st = .queued ∧ z.src = y.src ∧ z.dst = y.dst ∧ z.rows = y.rows ∧ z.cols = y.cols ∧ z.srs = y.srs ∧ z.drs = y.drs ∧
            z.stype = y.stype ∧ z.dtype = y.dtype ∧ z.trans = y.trans ∧ z.crc = y.crc ∧ z.fe = y.fe ∧ z.event = y.event ∧
            (∀ u, t.me.owner u = if u ∈ z.tiles then 2 else 0) ∧ (∃ at_, (at_, .streamEngineOperation) ∈ t.agenda) ∧
            t.th = s.after (s.th.setGreg d.toNat ⟨BitVec.ofNat 64 (z.idx + z.serial * 2 ^ 9), .full, s.cycle + 2⟩) 2)) ∧
        (streamOf desc = none → engine (.sbind d a n) 13 0) ∧
        (∀ y ch rng, streamOf desc = some (y, ch, rng) →
          let carries : Prop := (∃ p ∈ e.streams, p.1 = ch) ∨ ∃ z ∈ e.copies, z.chan = ch ∧ (z.st = .queued ∨ z.st = .running ∨ z.st = .parked)
          (bound.isSome → answers (.sbind d a n) (2 ^ 63 + 1) 2 2) ∧
          (bound = none → carries → answers (.sbind d a n) (2 ^ 63 + 2) 2 2) ∧
          (bound = none → ¬ carries →
            ∃ (t : State) (z : Stream) (th : Thread), exec (.sbind d a n) s = .next t ∧ sameMemory s t ∧ t.me.engine.streams = e.streams ++ [(ch, z)] ∧ z.thr = s.ct ∧
              z.sreg = n.toNat ∧ z.base = y.base ∧ z.cnt = y.cnt ∧ z.str = y.str ∧ z.write = y.write ∧ z.elastic = y.elastic ∧ z.fe = y.fe ∧
              z.depth = y.depth ∧ z.ring = y.ring ∧ z.slip = s.th.lslip.toNat % 65536 ∧ z.taken = 0 ∧ z.drained = 0 ∧ z.requested = 0 ∧
              z.readyAt = s.cycle + 1 ∧
              z.requestAt = (if y.elastic ∧ y.write = false then (List.range (min y.depth y.units)).map fun u => (u, s.cycle + 1) else []) ∧
              (∀ u, t.me.owner u = if u ∈ z.tiles then 2 else 0) ∧ (s.cycle + 1, .streamEngineOperation) ∈ t.agenda ∧
              th.outs.length = s.th.outs.length ∧ { th with outs := s.th.outs } = s.th ∧
              t.th = s.after ((th.setVreg (24 + n.toNat) (Reg.of 0)).setGreg d.toNat ⟨0, .full, s.cycle + 2⟩) 2))) ∧
      (bound = none → engine (.sunb d n) 11 n.toNat) ∧
      (∀ ch y, bound = some (ch, y) →
        (∀ u cause, y.write = true → y.failed = some (u, cause) → s.steps s.cc s.ct = false →
          s.traps (.sunb d n) { cause := cause, addr := y.unitVa u, source := some 6 }) ∧
        (y.write = true → y.failed = none → y.drained < y.taken → exec (.sunb d n) s = .next (s.waits (s.cycle + 1))) ∧
        (y.write = false ∨ (y.failed = none ∧ y.taken ≤ y.drained) → ∃ t, exec (.sunb d n) s = .next t ∧ sameMemory s t ∧
          t.me.engine.streams = e.streams.filter (·.1 != ch) ∧
          t.th = s.after ((s.th.setVreg (24 + n.toNat) (Reg.of 0)).setGreg d.toNat ⟨BitVec.ofNat 64 y.taken, .full, s.cycle + 1⟩) 1)) ∧
      (∀ z, x < 2 ^ 25 → (e.copies.find? fun z => z.idx == x % 512 && z.serial == x / 512 % 65536) = some z → z.st ≠ .done → z.st ≠ .failed →
        exec (.cpyw d a) s = .next s.drains)) ∧
    (let status := match (e.copies.find? fun z => z.idx == x % 512 && z.serial == x / 512 % 65536) with
       | some z => if x < 2 ^ 25 then z.status else 0
       | none => 0
     answers (.cpyq d a) status 2 1 ∧
     (s.th.st ≠ .booked → (x < 2 ^ 25 → ∀ z ∈ e.copies, z.idx = x % 512 → z.st = .done ∨ z.st = .failed) →
       answers (.cpyw d a) status 0 s.drainCost)) ∧
    (15 < x → engine (.sparkq d a) 15 0) ∧
    (x ≤ 15 → ∃ w, answers (.sparkq d a) w 2 1 ∧ ((∀ p ∈ e.parks, p.va < 2 ^ 52) → (∀ p ∈ e.streams, p.2.sreg < 8) →
      let copies := e.copies.any fun z => z.chan == x && (z.st == .queued || z.st == .running || z.st == .parked)
      let mine := e.streams.find? fun p => p.1 == x
      bitOf w 63 = (e.parks.any fun p => p.chan == x) ∧ bitOf w 62 = copies ∧ bitOf w 61 = (copies || mine.isSome) ∧
      bitOf w 60 = (mine.any fun p => p.2.failed.isSome) ∧ bitsOf w 59 57 = (match mine with | some p => p.2.sreg | none => 0) ∧
      bitsOf w 51 0 = ((e.parks.find? (·.chan == x)).map (·.va)).getD 0))

/-- R284, R285, R287, R289: a vector register that a stream is bound to. Reading it takes the stream's next unit from its ring and moves the
position on; writing it appends a unit. The other direction raises ENGINE with code 11, a use past the last unit code 12, the unit that
failed its cause (a write stream raises it at once). A unit that is not there, or a ring without room, makes an open thread wait and a
booked one raise OVRN with the channel and a reason; a booked thread must hold the channel. -/
def Obligations.stream_registers : Prop :=
  ∀ (s : State) (d a : VReg) (ch : Nat) (x : Stream), s.memoryQuiet → s.me.sram.wf = true → s.steps s.cc s.ct = false →
    let i : Instr := .vmov d a .single
    let change (f : Stream → Stream) := s.me.engine.streams.map fun p => if p.1 == ch then (p.1, f p.2) else p
    let bk := s.me.booking (s.th.slot.getD 0)
    let held : Prop := s.me.ownHolds s.th (0x30 + ch) s.tick = true
    let bookv : Prop := s.traps i { cause := 0x0A, det0 := 0x30 + ch, det1 := (s.tick + bk.k0 / 8 + 2 ^ 48 - bk.start) % 2 ^ 48 }
    let ovrn (reason w : Nat) : Prop := s.traps i { cause := 0x0B, det0 := ch + reason * 256, det1 := w, replay := true }
    let use : Prop :=
      (x.units ≤ x.taken → s.traps i { cause := 0x14, det0 := 12 }) ∧
      (x.taken < x.units → ∀ u cause, x.failed = some (u, cause) → x.write = true ∨ u = x.taken →
        s.traps i { cause := cause, addr := x.unitVa u, source := some 6 })
    let going : Prop := x.taken < x.units ∧ ∀ u cause, x.failed = some (u, cause) → x.write = false ∧ u ≠ x.taken
    (s.me.aliasOf s.ct a.toNat = some (ch, x) → s.usable [.wv d 1] →
      (x.write = true → s.traps i { cause := 0x14, det0 := 11, det1 := x.sreg }) ∧
      (x.write = false → use ∧ (going →
        let here : Prop := ∃ p ∈ x.present, p.1 = x.taken ∧ p.2 < s.cycle
        (here → s.th.st ≠ .booked ∨ held → ∃ t, exec i s = .next t ∧ sameMemory s t ∧
          t.me.engine.streams = change (fun y => { y with
            taken := y.taken + 1
            present := y.present.filter (·.1 != y.taken)
            requestAt := if y.elastic then y.requestAt.filter (·.1 != y.taken) ++ [(y.taken + y.depth, s.cycle)] else y.requestAt }) ∧
          t.th = s.after (s.th.setDest (.v d.toNat 1) .full (memGetN s.me.sram (x.ring + 64 * (x.taken % x.depth)) 64) (s.cycle + 2)) 1) ∧
        (here → s.th.st = .booked → ¬ held → bookv) ∧
        (¬ here → s.th.st ≠ .booked → exec i s = .next (s.waits (s.cycle + 1))) ∧
        (¬ here → s.th.st = .booked →
          let due := x.askedAt x.taken + x.slip
          let place := s.translate s.cc s.me.ctx (x.unitVa x.taken) false false
          let far : Prop := (∃ pa, place = .offstack pa) ∨ ∃ c, place = .foreign c
          (x.elastic = true → (due ≤ s.cycle → ovrn 1 due) ∧ (s.cycle < due → ovrn 2 due)) ∧
          (x.elastic = false → (far → ovrn 3 0) ∧ (¬ far → ovrn 4 0)))))) ∧
    (s.me.aliasOf s.ct d.toNat = some (ch, x) → s.usable [.rv a 1] →
      (x.write = false → s.traps i { cause := 0x14, det0 := 11, det1 := x.sreg }) ∧
      (x.write = true → use ∧ (going →
        let room : Prop := x.taken < x.drained + x.depth
        (room → s.th.st ≠ .booked ∨ held → ∃ t, exec i s = .next t ∧
          t.me.engine.streams = change (fun y => { y with taken := y.taken + 1, present := y.present ++ [(y.taken, s.cycle)] }) ∧
          t.th = s.after s.th 1 ∧ memGetN t.me.sram (x.ring + 64 * (x.taken % x.depth)) 64 = s.readV a 1 % 2 ^ 512) ∧
        (room → s.th.st = .booked → ¬ held → bookv) ∧
        (¬ room → s.th.st ≠ .booked → exec i s = .next (s.waits (s.cycle + 1))) ∧
        (¬ room → s.th.st = .booked → ovrn 4 0))))

/-- R282, R285 to R293: the engine's one operation in a cycle. A fill copies a unit from the scratchpad into its ring, with FE once all its
granules are full and clearing them, or starts its vault read or asks for it off-stack; a drain stores the next appended unit, in
order. A copy reads the blocks of a source tile and then writes the bytes it owns of each destination block, converted, transposed and
with their CRC-32C, tile by tile. A page without an entry or in migration parks the channel, another failure is recorded in the stream or
ends the copy; a channel resumed goes on. A copy that is complete gives its tiles back and, if it asks for it, sets bit 2 of EVPEND. -/
def Obligations.stream_engine_events : Prop :=
  (∀ (s : State) (c ch : Nat) (x : Stream), c < 256 → ch < 16 → s.onlyAt c (fun k => k.engineWork) → (s.coreAt c).engine.streams = [(ch, x)] →
    (s.coreAt c).engine.copies = [] → (s.coreAt c).engine.parks = [] → (s.coreAt c).preempt = .none → x.arrived = [] → x.failed = none →
    x.readyAt ≤ s.cycle → x.requested < x.units → x.units < 2 ^ 48 → x.write = true ∨ x.requested < x.taken + x.depth →
    x.write = false ∨ ((∃ p ∈ x.present, p.1 = x.requested) ∧ x.requestAt = [] ∧ ∀ v ∈ (s.coreAt c).vault.accs, v.by_ ≠ .stream ch) →
    (s.coreAt c).sram.wf = true → (s.coreAt c).net.replay = none →
    let k := s.coreAt c
    let u := x.requested
    let va := x.unitVa u
    let place := x.ring + 64 * (u % x.depth)
    let id := engineId x.uid x.write u
    let tr := s.translate c k.ctx va (!x.write) x.write
    let gone := if x.write then x.present.filter (·.1 != u) else x.present
    let bank (off : Nat) : Prop := k.engineBank s.cycle ch (bankOf off) = true
    let does (y : Stream) (t : State) : Prop := exec .streamEngineOperation s = .next t ∧ (t.coreAt c).engine.streams = [(ch, y)] ∧
      (s.cycle + 1, .streamEngineOperation) ∈ t.agenda
    let idle : Prop := ∃ t, does x t ∧ sameMemory s t ∧ ∀ g, (t.coreAt c).granFull g = k.granFull g
    place + 64 ≤ 0x100000 →
    (∀ off, tr = .loc off → off + 64 ≤ 0x100000 → off + 64 ≤ place ∨ place + 64 ≤ off → off % 64 = 0 → place % 64 = 0 →
      let grans (o g : Nat) : Prop := o / 16 ≤ g ∧ g < o / 16 + 4
      let full : Prop := ∀ g, grans off g → k.granFull g = true
      let moves (y : Stream) (src dst : Nat) : Prop := ∃ t, does y t ∧ memGetN (t.coreAt c).sram dst 64 = memGetN k.sram src 64 ∧
        sameButSram s t c dst 64 ∧ (t.coreAt c).engine.served = ch ∧
        ∀ g, ((t.coreAt c).granFull g = true ↔ grans dst g ∨ (k.granFull g = true ∧ ¬ (x.write = false ∧ x.fe = true ∧ grans off g)))
      (bank off → bank place →
        (x.write = false → x.fe = false ∨ full → moves { x with requested := u + 1, present := x.present ++ [(u, s.cycle)] } off place) ∧
        (x.write = false → x.fe = true → ¬ full → idle) ∧
        (x.write = true → moves { x with requested := u + 1, drained := x.drained + 1, present := gone } place off)) ∧
      (¬ bank off ∨ ¬ bank place → idle)) ∧
    (∀ pa, tr = .vault pa →
      (k.engineRow s.cycle ch (segsFrom 2 pa 64 0) = true →
        ∃ t v, does { x with requested := u + 1, present := gone } t ∧ sameMemory s t ∧ (t.coreAt c).vault.accs.getLast? = some v ∧
          v.by_ = .stream ch ∧ v.op = (if x.write then .tileStore else .tileLoad) ∧ v.lo = place ∧ v.n = 64 ∧ v.va = va ∧ v.acc = id ∧
          (s.cycle + 1, .tileBeat c v.id) ∈ t.agenda) ∧
      (k.engineRow s.cycle ch (segsFrom 2 pa 64 0) = false → idle)) ∧
    (∀ pa, tr = .offstack pa → x.write = false ∨ bank place →
      ∃ t, does { x with requested := u + 1, present := gone, requestAt := if x.write then [(u, s.cycle)] else x.requestAt } t ∧ sameMemory s t ∧
        t.mesh = s.mesh ++ [⟨⟨.openOp, c, 4, .off (ctrlOf pa), .request ⟨.engine c ch id true, k.ctx, c, 4, .off (ctrlOf pa),
          if x.write then .put else .get, pa, 64, if x.write then memGetN k.sram place 64 else 0, 0⟩⟩, c, 4, s.cycle + 1, false, false, none⟩]) ∧
    (tr = .page →
      let parked := s.modCore c fun k => { k with engine := { k.engine with parks := [⟨ch, va, true⟩] } }
      exec .streamEngineOperation s = .next ((parked.noteRecord ⟨0x15, 0, 6, c, k.ctx, 0, va, 0, s.ssOf c, s.cycle, ch, x.taken, 0⟩).postOnce
        (s.cycle + 1) .streamEngineOperation)) ∧
    (tr = .moving → ∃ t, does x t ∧ sameMemory s t ∧ (t.coreAt c).engine.parks = [⟨ch, va, false⟩]) ∧
    ∀ cause, (tr = .prot ∧ cause = 0x05) ∨ ((∃ n, tr = .foreign n) ∧ cause = 0x06) ∨ ((∃ pa, tr = .poison pa) ∧ cause = 0x1F) →
      ∃ t, does { x with failed := some (u, cause) } t ∧ sameMemory s t ∧ (t.coreAt c).engine.parks = []) ∧
  (∀ (s : State) (c ch : Nat) (x : Copy), c < 256 → ch < 16 → s.onlyAt c (fun k => k.engineWork) → (s.coreAt c).engine.copies = [x] → x.chan = ch →
    (s.coreAt c).engine.streams = [] → (s.coreAt c).engine.parks = [] → x.st = .running → x.readyAt ≤ s.cycle → (s.coreAt c).sram.wf = true →
    let k := s.coreAt c
    let does (t : State) (y : Copy) : Prop := exec .streamEngineOperation s = .next t ∧ (t.coreAt c).engine.copies = [y]
    let idle : Prop := ∃ t, does t x ∧ sameMemory s t
    let fails (va : Nat) (tr : Xlate) : Prop :=
      let parked := s.modCore c fun k => { k with engine := { k.engine with parks := [⟨ch, va, true⟩], copies := [{ x with st := .parked }] } }
      (tr = .page → exec .streamEngineOperation s = .next ((parked.noteRecord ⟨0x15, 0, 6, c, k.ctx, 0, va, 0, s.ssOf c, s.cycle, ch, x.tile, 0⟩).postOnce
        (s.cycle + 1) .streamEngineOperation)) ∧
      (tr = .moving → ∃ t, does t { x with st := .parked } ∧ sameMemory s t ∧ (t.coreAt c).engine.parks = [⟨ch, va, false⟩]) ∧
      ∀ cause, (tr = .prot ∧ cause = 0x05) ∨ ((∃ n, tr = .foreign n) ∧ cause = 0x06) ∨ ((∃ pa, tr = .poison pa) ∧ cause = 0x1F) →
        ∃ t, does t { x with st := .failed, cause := cause } ∧ sameMemory s t ∧ (s.cycle + 1, .copyComplete c x.idx) ∈ t.agenda
    (∀ va r, x.reads[x.asked]? = some (va, r) → x.performed < x.writes.length → (∀ j y, x.reads[j]? = some y → j ≠ x.asked → y.1 ≠ va) →
      let tr := s.translate c k.ctx va true false
      fails va tr ∧ ∀ off, tr = .loc off → off % 64 = 0 → off + 64 ≤ 0x100000 →
        let full : Prop := ∀ g, off / 16 ≤ g → g < off / 16 + 4 → k.granFull g = true
        (k.engineBank s.cycle ch (bankOf off) = true → x.fe = false ∨ full → ∃ t,
          does t { x with asked := x.asked + 1, reads := x.reads.set x.asked (va, some (memGetN k.sram off 64)) } ∧ sameMemory s t ∧
          ∀ g, ((t.coreAt c).granFull g = true ↔ k.granFull g = true ∧ ¬ (x.fe = true ∧ off / 16 ≤ g ∧ g < off / 16 + 4))) ∧
        (k.engineBank s.cycle ch (bankOf off) = false ∨ (x.fe = true ∧ ¬ full) → idle)) ∧
    (∀ va, x.reads.length ≤ x.asked → (∀ r ∈ x.reads, r.2.isSome = true) → x.writes[x.sent]? = some va →
      let tr := s.translate c k.ctx va false true
      let data := (x.blockData va).1
      let mask := (x.blockData va).2
      fails va tr ∧ ∀ off, tr = .loc off → off % 64 = 0 → off + 64 ≤ 0x100000 →
        (k.engineBank s.cycle ch (bankOf off) = false → idle) ∧
        (k.engineBank s.cycle ch (bankOf off) = true → x.performed + 1 < x.writes.length → ∃ t,
          (∃ y, does t y ∧ y.sent = x.sent + 1 ∧ y.performed = x.performed + 1 ∧ y.st = .running ∧ y.tile = x.tile) ∧
          (∀ i, i < 64 → memGet (t.coreAt c).sram (off + i) = if bitOf mask i then BitVec.ofNat 8 (data / 2 ^ (8 * i)) else memGet k.sram (off + i)) ∧
          sameButSram s t c off 64 ∧
          ∀ g, ((t.coreAt c).granFull g = true ↔ k.granFull g = true ∨ ∃ i, i < 64 ∧ bitOf mask i = true ∧ g = (off + i) / 16)) ∧
        (k.engineBank s.cycle ch (bankOf off) = true → x.writes.length ≤ x.performed + 1 → ∃ t y, does t y ∧
          let per := (x.cols + 63) / 64
          (x.tile + 1 < (x.rows + 63) / 64 * per → y.tile = x.tile + 1 ∧ y.asked = 0 ∧ y.sent = 0 ∧ y.performed = 0) ∧
          ((x.rows + 63) / 64 * per ≤ x.tile + 1 → y.writes = [] ∧ (s.cycle + 1, .copyComplete c x.idx) ∈ t.agenda)))) ∧
  (∀ (x : Copy) (b i : Nat), i < 64 → x.cells.Nodup → (∀ u ∈ x.cells, ∀ v ∈ x.cells, u ≠ v → u.1 + x.de ≤ v.1 ∨ v.1 + x.de ≤ u.1) →
    (bitOf (x.blockData b).2 i = true ↔ ∃ u ∈ x.cells, u.1 ≤ b + i ∧ b + i < u.1 + x.de) ∧
    ∀ u ∈ x.cells, u.1 ≤ b + i → b + i < u.1 + x.de → (x.blockData b).1 / 2 ^ (8 * i) % 256 = u.2.1 / 2 ^ (8 * (b + i - u.1)) % 256) ∧
  (∀ (x : Copy) (r c : Nat), 0 < x.cols →
    let per := (x.cols + 63) / 64
    let R := 64 * (x.tile / per) + r
    let C := 64 * (x.tile % per) + c
    r < 64 → c < 64 → R < x.rows → C < x.cols → x.stype.isRecord = false →
      let e := x.bytesAt (x.src + R * x.srs + C * (x.stype.bits / 8)) (x.stype.bits / 8)
      let v := if x.stype = x.dtype then (e, 0) else cvtElem x.stype x.dtype false .rne e
      ((if x.trans then x.dst + C * x.drs + R * x.de else x.dst + R * x.drs + C * x.de) % 2 ^ 52, v.1, v.2) ∈ x.cells) ∧
  (∀ (x : Copy),
    let rows := if x.trans then x.cols else x.rows
    let len := (if x.trans then x.rows else x.cols) * x.de
    x.crcOf = (((List.range rows).flatMap fun r => (List.range len).map fun i => memGet x.written (x.dst + r * x.drs + i)).foldl crcByte 0xFFFFFFFF) ^^^ 0xFFFFFFFF) ∧
  ([0x31, 0x32, 0x33, 0x34, 0x35, 0x36, 0x37, 0x38, 0x39].foldl crcByte 0xFFFFFFFF ^^^ 0xFFFFFFFF = 0xE3069283) ∧
  (∀ (s : State) (c ch u v : Nat) (x : Stream), c < 256 → (s.coreAt c).engine.streams = [(ch, x)] → u < 2 ^ 48 →
    let answered (off : Bool) (y : Stream) : Prop := ∃ t, exec (.replyArrival (.engine c ch (engineId x.uid x.write u) off) v) s = .next t ∧
      (t.coreAt c).engine.streams = [(ch, y)] ∧ sameMemory s t
    (x.write = true → ∀ off, answered off { x with drained := x.drained + 1, requestAt := x.requestAt.filter (·.1 != u) }) ∧
    (x.write = false → answered false { x with present := x.present ++ [(u, s.cycle - 1)] } ∧ answered true { x with arrived := x.arrived ++ [(u, v)] })) ∧
  (∀ (s : State) (c ch : Nat), c < 256 → ∃ t, exec (.channelResume c ch) s = .next t ∧ sameMemory s t ∧
    (t.coreAt c).engine.parks = (s.coreAt c).engine.parks.filter (·.chan != ch) ∧
    (t.coreAt c).engine.copies = (s.coreAt c).engine.copies.map
      (fun x => if x.chan == ch && x.st == .parked then { x with st := .running } else x) ∧
    (s.cycle, .streamEngineOperation) ∈ t.agenda) ∧
  ∀ (s : State) (c : Nat) (x : Copy), c < 256 → (s.coreAt c).engine.copies = [x] → (s.coreAt c).engine.streams = [] → (s.coreAt c).tidy →
    x.thr < 4 →
    ∃ t, exec (.copyComplete c x.idx) s = .next t ∧ sameMemory s t ∧
      (t.coreAt c).engine.copies = [{ x with st := if x.st = .failed then .failed else .done, tiles := [], reads := [], writes := [] }] ∧
      (∀ u, (t.coreAt c).owner u = if u ∈ x.tiles then 0 else (s.coreAt c).owner u) ∧
      ((t.coreAt c).thr x.thr).evpend = ((s.coreAt c).thr x.thr).evpend ||| (if x.event then 4 else 0)

/-! ### Requests, messages and the vault agent -/

/-- R126, R302, R306, R309, R315 to R317, R320, R321: a request or message is outstanding at its thread from its issue on and leaves as one OP
flit that stands at the core's router in the next cycle; one to the core itself bypasses the mesh, and one to a device that is not
reachable is refused with reason 13. A value's register is empty until the answer. A target word above 18 bits raises ENGINE with code
16, a bound stream register as destination code 17, an unaligned address ALIGN; with 64 requests outstanding, and for the memory requests
after an acquire that is not complete, an open thread waits and a booked one raises OVRN, replayable. -/
def Obligations.remote_requests : Prop :=
  ∀ (s : State) (d a b : BitVec 5) (z : RemSize) (o : OpSize) (sh : RfopShape) (op : FopOp), s.me.net.replay = none →
    let va := (s.readG a).toNat % 2 ^ 52
    let tw := (s.readG b).toNat
    let w := (s.readG a).toNat
    let vec := z = .v
    let rvec := sh = .v16 ∨ sh = .v64
    let full : Prop := 64 ≤ (s.th.outs.filter fun o => o.kind == .remote && !o.told).length
    let engine (i : Instr) (code w : Nat) : Prop := s.traps i { cause := 0x14, det0 := code, det1 := w }
    let sent (t : State) (dst : FlitEnd) (r : Req) : Prop := t.me.net.sent = s.me.net.sent + 1 ∧
      t.mesh = s.mesh ++ [⟨⟨.openOp, s.cc, s.ct, dst, .request r⟩, s.cc, 4, s.cycle + 1, false, false, none⟩]
    let leaves (t : State) (r : Req) : Prop := match r.target with
      | .core m => (m ≠ s.cc → sent t (.core m) r) ∧ (m = s.cc → t.mesh = s.mesh ∧ (s.cycle + 2, .agentRequestArrival m r) ∈ t.agenda)
      | .device dev _ => (∀ p, s.portTo dev = some p → sent t (.bumen p) r) ∧
          (s.portTo dev = none → t.mesh = s.mesh ∧ (s.cycle + 2, .refusalArrival r.ret 13) ∈ t.agenda)
      | .off _ => False
    let sends (i : Instr) (tw va n x e : Nat) (op : ReqOp) (dest : Dest) (code : Nat) : Prop :=
      ∃ t o, exec i s = .next t ∧ sameMemory s t ∧
        t.th = s.after ({ s.th.setDest dest .empty 0 0 with outs := s.th.outs ++ [o], serial := s.th.serial + 1 }) 1 ∧
        o.id = s.th.serial ∧ o.kind = .remote ∧ o.told = false ∧ o.dest = dest ∧ o.va = va ∧ o.bytes = n ∧ o.det0 = code ∧ o.target = tw % 2 ^ 18 ∧
        leaves t ⟨.thread s.cc s.ct (4 * s.th.serial), s.me.ctx, s.cc, s.ct, targetOf tw, op, va, n, x, e⟩
    let limited (i : Instr) : Prop := (s.th.st ≠ .booked → exec i s = .next (s.waits (s.cycle + 1))) ∧
      (s.th.st = .booked → s.traps i { cause := 0x0B, replay := true })
    let memory (i : Instr) (us : List Use) (n x e : Nat) (op : ReqOp) (dest : Dest) (code : Nat) : Prop := s.usable us →
      (2 ^ 18 ≤ tw → engine i 16 tw) ∧
      (tw < 2 ^ 18 →
        (va % n ≠ 0 → s.traps i { cause := 0x03, addr := va }) ∧
        (va % n = 0 →
          (full → limited i) ∧
          (¬ full → (∃ y ∈ s.th.outs, y.acquire = true) → (s.th.st ≠ .booked → exec i s = .next (s.waits (s.cycle + 1))) ∧
            (s.th.st = .booked → (∀ v ∈ s.me.vault.accs, v.abandoned = false) → s.traps i { cause := 0x0B, addr := va, replay := true })) ∧
          (¬ full → (∀ y ∈ s.th.outs, y.acquire = false) → s.th.acqAt ≤ s.cycle → sends i tw va n x e op dest code)))
    let reg (n : Nat) : Nat := ((s.readG (BitVec.ofNat 5 n)).toNat)
    memory (.rget d a b z) [.rg a false, .rg b false, if vec then .wv d 1 else .wg d] z.bytes 0 0 .get
      (if vec then .v d.toNat 1 else s.th.destOf d.toNat) 0 ∧
    memory (.rput d a b z) [.rg a false, .rg b false, if vec then .rv d 1 else .rg d false] z.bytes
      ((if vec then s.readV d 1 else reg d.toNat) % 2 ^ (8 * z.bytes)) 0 .put .none 0x41 ∧
    memory (.rfop d a b sh op) [.rg a false, .rg b false, if rvec then .rv d 1 else .rg d false] sh.bytes
      ((if rvec then s.readV d 1 else reg d.toNat) % 2 ^ (8 * sh.bytes)) 0 (.fop op sh.laneBits)
      (if rvec then .v d.toNat 1 else s.th.destOf d.toNat) 0 ∧
    memory (.rcas d a b o) [.rg a false, .rg b false, .rg d false, .rg (d + 1) false] o.bytes (reg (d.toNat + 1) % 2 ^ (8 * o.bytes))
      (reg d.toNat % 2 ^ (8 * o.bytes)) .cas (s.th.destOf d.toNat) 0 ∧
    (s.usable [.rg a false, .rg b false] → tw < 2 ^ 18 → (s.me.aliasOf s.ct d.toNat).isSome →
      (vec → engine (.rget d a b z) 17 0) ∧ (rvec → engine (.rfop d a b sh op) 17 0)) ∧
    (s.usable [.rg a false, .rg b false, .rv d 1] →
      (2 ^ 18 ≤ tw → engine (.msend d a b) 16 tw) ∧
      (tw < 2 ^ 18 → full → limited (.msend d a b)) ∧
      (tw < 2 ^ 18 → ¬ full → sends (.msend d a b) tw 0 64 (s.readV d 1)
        (w % 2 ^ 32 + s.cc % 256 * 2 ^ 32 + s.host.devid % 1024 * 2 ^ 40 + s.ct % 4 * 2 ^ 50 + 2 ^ 63) .msend .none 0x43)) ∧
    (s.usable [.rg a false, .rg b false, .rg d false] → let bad : Prop := 2 ^ 34 ≤ w ∨ bitsOf w 15 14 ≠ 0
      (bad → engine (.amsg d a b) 16 w) ∧
      (¬ bad → full → limited (.amsg d a b)) ∧
      (¬ bad → ¬ full → sends (.amsg d a b) (w / 2 ^ 16 % 2 ^ 18) (w % 2 ^ 14) 4 (tw + reg d.toNat * 2 ^ 64) 0 .amsg .none 0x42))

/-- R318 to R320: `mrecv` takes the head message of the core's queue, payload and header, and with none answers zeros or, in the waiting form,
waits in open mode and raises OVRN, replayable, in booked mode; a bound stream register as its destination raises ENGINE with code 17.
`rstat` answers the layout of Table 11.6. -/
def Obligations.messages_and_status : Prop :=
  ∀ (s : State) (d : VReg) (a : GReg) (w : Bool),
    let q := s.me.agent
    let gets (x : Nat) (h : Word) (th : Thread) : Thread :=
      (th.setDest (.v d.toNat 1) .full x (s.cycle + 2)).setGreg a.toNat ⟨h, .full, s.cycle + 2⟩
    (s.usable [.wv d 1, .wg a] →
      (∀ m rest, q.messages = m :: rest → exec (.mrecv d a w) s = .next
        ((s.modMe fun k => { k with agent := { k.agent with messages := rest } }).completes 1 (gets m.payload.toNat m.header))) ∧
      (q.messages = [] → w = false → exec (.mrecv d a w) s = .next (s.completes 1 (gets 0 0))) ∧
      (q.messages = [] → w = true → s.th.st ≠ .booked → exec (.mrecv d a w) s = .next (s.waits (s.cycle + 1))) ∧
      (q.messages = [] → w = true → s.th.st = .booked → s.traps (.mrecv d a w) { cause := 0x0B, replay := true })) ∧
    (s.usable [.wg a] → (s.me.aliasOf s.ct d.toNat).isSome → s.traps (.mrecv d a w) { cause := 0x14, det0 := 17 }) ∧
    (s.usable [.wg a] → ∃ x, exec (.rstat a) s = .next (s.completes 1 fun th => th.setGreg a.toNat ⟨BitVec.ofNat 64 x, .full, s.cycle + 1⟩) ∧ x < 2 ^ 48 ∧
      bitsOf x 7 0 = min 64 (s.th.outs.filter fun o => o.kind == .remote && !o.told).length ∧ bitsOf x 15 8 = min 32 q.messages.length ∧
      bitsOf x 23 16 = min 16 q.launches.length ∧ bitsOf x 31 24 = min 8 s.th.refusals.length ∧ bitsOf x 47 32 = min q.ovfcnt 65535)

/-- R300, R301, R304, R305, R308, R311, R312, R315: a request takes its place in the agent's queue, and its checks end in two cycles or after those
of the request ahead. They refuse it by the windows, the translation or the place that it reaches. The head whose checks have ended acts on
local SRAM, an agent write filling its granules, and answers, or is refused with its reason; on the vault it asks for its row. A message
joins the queue and sets bit 0 of the EVPEND of the core's threads, an active message starts the lowest idle thread or joins its queue;
where these are full they are refused with reason 10 or 11, and counted. -/
def Obligations.agent_requests : Prop :=
  (∀ (s : State) (c : Nat) (r : Req), c < 256 →
    let e1 := max (s.cycle + 2) ((s.coreAt c).agent.lastE1 + 1)
    ∃ t, exec (.agentRequestArrival c r) s = .next t ∧ sameMemory s t ∧
      (t.coreAt c).agent.queue = (s.coreAt c).agent.queue ++ [⟨r, e1, none, none, false, false⟩] ∧ (t.coreAt c).agent.lastE1 = e1 ∧
      (e1, .agentAction) ∈ t.agenda) ∧
  (∀ (s : State) (c : Nat) (r : Req), r.thr < 9 →
    let k := s.coreAt c
    let serving (w : Word × Word × Word) : Prop := w.2.2.getLsbD 7 = true ∧ (w.2.2.extractLsb' 16 16).toNat = r.ctx ∧ r.ctx = k.ctx
    let first := if r.op = .amsg then localBase + 0x100000 + 4 * r.addr else r.addr
    let past := first + if r.op = .amsg then 4 else r.n
    let covers (w : Word × Word × Word) : Prop := serving w ∧
      (r.op = .msend ∨ ((w.1.extractLsb' 6 46).toNat * 64 ≤ first ∧ past ≤ (w.2.1.extractLsb' 6 46).toNat * 64))
    let bit := match r.op with
      | .get => 0
      | .put => 1
      | .fop _ _ | .cas | .tfin => 2
      | .amsg => 3
      | .msend => 4
    let grants (w : Word × Word × Word) : Prop := covers w ∧ w.2.2.getLsbD bit = true
    let judged (o : AgentOut) : Prop := s.admission c r = o
    (s.partOf c = none ∨ k.ctx = 0 → judged (.refuse 12)) ∧
    (s.partOf c ≠ none → k.ctx ≠ 0 → k.net.accepting = true →
      ((∀ w ∈ k.agent.windows.toList, ¬ serving w) → judged (.refuse 1)) ∧
      ((∃ w ∈ k.agent.windows.toList, serving w) → (∀ w ∈ k.agent.windows.toList, ¬ covers w) → judged (.refuse 2)) ∧
      ((∃ w ∈ k.agent.windows.toList, covers w) → (∀ w ∈ k.agent.windows.toList, ¬ grants w) → judged (.refuse 3)) ∧
      ((∃ w ∈ k.agent.windows.toList, grants w) →
        (r.op = .amsg ∨ r.op = .msend → judged .accept) ∧
        (r.op ≠ .amsg → r.op ≠ .msend →
          let tr := s.translate c k.ctx r.addr (r.op != .put) (r.op != .get)
          (tr = .page → judged (.refuse 4)) ∧ (tr = .prot → judged (.refuse 5)) ∧
          ((∃ n, tr = .foreign n) ∨ (∃ pa, tr = .offstack pa) → judged (.refuse 6)) ∧
          (∀ pa, tr = .poison pa → judged (.poison pa)) ∧ (tr = .moving → judged .moving) ∧ (∀ pa, tr = .vault pa → judged (.vault pa)) ∧
          ∀ off, tr = .loc off →
            (placeOf off = .hole ∨ placeOf (off + r.n - 1) = .hole → judged (.refuse 6)) ∧
            (0x10F000 ≤ off → off < 0x110000 → 0 < r.n → r.op ≠ .get → judged (.refuse 6)) ∧
            (placeOf off ≠ .hole → placeOf (off + r.n - 1) ≠ .hole → r.op = .get ∨ off + r.n ≤ 0x10F000 ∨ 0x110000 ≤ off → judged (.loc off)))))) ∧
  ∀ (s : State) (c : Nat) (r : Req) (e1 from_ thr id : Nat), c < 256 →
    s.onlyAt c (fun k => !k.agent.queue.isEmpty || !k.agent.retry.isEmpty) → (s.coreAt c).agent.queue = [⟨r, e1, none, none, false, false⟩] →
    (s.coreAt c).agent.retry = [] → e1 ≤ s.cycle → (s.coreAt c).agent.lastAct < s.cycle → (s.coreAt c).net.replay = none → r.thr < 9 →
    r.ret = .thread from_ thr id → from_ ≠ c → (s.coreAt c).sram.wf = true →
    (∀ v ∈ (s.coreAt c).vault.accs, v.by_ ≠ .agent ∧ v.id < (s.coreAt c).vault.serial) →
    let k := s.coreAt c
    let ack (cls : TrafficClass) (load : Payload) : MeshFlit := ⟨⟨cls, c, 4, .core from_, load⟩, c, 4, s.cycle + 1, false, false, none⟩
    let acts (cls : TrafficClass) (load : Payload) (P : State → Prop) : Prop := ∃ t, exec .agentAction s = .next t ∧ P t ∧
      (t.coreAt c).agent.queue = [] ∧ (t.coreAt c).agent.lastAct = s.cycle ∧ t.mesh = s.mesh ++ [ack cls load]
    let refused (reason : Nat) (P : State → Prop) : Prop := acts .control (.refusal r.ret reason) fun t => sameMemory s t ∧ P t
    (∀ off, s.admission c r = .loc off → off < 0x100000 → off + r.n ≤ 0x100000 →
      (k.owner (off / 4096) = 0 ∨ k.owner (off / 4096) = 4) → (∀ u ∈ k.bankUses, u.cycle ≠ s.cycle) → (∀ b tick, k.booked (0x10 + b) tick = false) →
      let old := memGetN k.sram off r.n
      let writes (cls : TrafficClass) (answer new : Nat) : Prop := acts cls (.reply r.ret answer) fun t =>
        memGetN (t.coreAt c).sram off r.n = new % 2 ^ (8 * r.n) ∧ sameButSram s t c off r.n ∧
        ∀ g, ((t.coreAt c).granFull g = true ↔ k.granFull g = true ∨ g ∈ granulesOf off r.n)
      (r.op = .get → acts .openOp (.reply r.ret old) fun t => sameMemory s t ∧ ∀ g, (t.coreAt c).granFull g = k.granFull g) ∧
      (r.op = .put → writes .control 0 r.x) ∧
      (∀ f l, r.op = .fop f l → writes .openOp old (rmwApply (.fop f l) r.n old r.x r.e)) ∧
      (r.op = .cas → (old = r.e → writes .openOp old r.x) ∧
        (old ≠ r.e → acts .openOp (.reply r.ret old) fun t => sameMemory s t ∧ ∀ g, (t.coreAt c).granFull g = k.granFull g))) ∧
    (∀ off, s.admission c r = .loc off → (∃ u, unitOf off = some u ∧ k.owner u ≠ 0 ∧ k.owner u ≠ 4) → refused 7 fun _ => True) ∧
    (∀ reason, s.admission c r = .refuse reason → refused reason fun _ => True) ∧
    (∀ pa, s.admission c r = .vault pa → k.vault.rowErrs = [] → ∃ t v, exec .agentAction s = .next t ∧ sameMemory s t ∧ t.mesh = s.mesh ∧
      (t.coreAt c).agent.queue = [⟨r, e1, some (.vault pa), some v.id, false, true⟩] ∧ (t.coreAt c).vault.accs.getLast? = some v ∧
      v.by_ = .agent ∧ v.va = r.addr ∧ v.n = r.n ∧ v.data = r.x ∧ v.cmp = r.e ∧ (s.cycle + 1, .agentAction) ∈ t.agenda ∧
      v.op = (match r.op with | .put => .store | .fop f l => .fop f l | .cas => .cas | _ => .load)) ∧
    (s.admission c r = .accept → r.op = .msend →
      (k.agent.messages.length < 32 → acts .control (.reply r.ret 0) fun t => sameMemory s t ∧
        (t.coreAt c).agent.messages = k.agent.messages ++ [⟨BitVec.ofNat 64 r.e, BitVec.ofNat 512 r.x⟩] ∧
        ∀ n, n < 4 → ((t.coreAt c).thr n).evpend = if (k.thr n).st = .idle then (k.thr n).evpend else (k.thr n).evpend ||| 1) ∧
      (32 ≤ k.agent.messages.length → refused 10 fun t => (t.coreAt c).agent.ovfcnt = min 65535 (k.agent.ovfcnt + 1) ∧
        (t.coreAt c).agent.messages = k.agent.messages)) ∧
    (s.admission c r = .accept → r.op = .amsg →
      let m : Launch := ⟨r.addr, r.x % 2 ^ 64, r.x / 2 ^ 64, r.ctx, none⟩
      let counted (t : State) : Prop := (∀ n, ((t.helm.launches.find? (·.1 == c)).map (·.2) = some n ↔
        ((s.helm.launches.find? (·.1 == c)).map (·.2)).getD 0 + 1 = n)) ∧ t.helm.journal.length = s.helm.journal.length + 1
      (∀ n, k.agent.launches = [] → s.idleThread c = some n → acts .control (.reply r.ret 0) fun t => sameMemory s t ∧ counted t ∧
        (s.cycle + 1, .activeMessageLaunch c m) ∈ t.agenda ∧ (t.coreAt c).agent.launches = []) ∧
      (k.agent.launches ≠ [] ∨ s.idleThread c = none →
        (k.agent.launches.length < 16 → acts .control (.reply r.ret 0) fun t => sameMemory s t ∧ counted t ∧
          (t.coreAt c).agent.launches = k.agent.launches ++ [m]) ∧
        (16 ≤ k.agent.launches.length → refused 11 fun t => counted t ∧ (t.coreAt c).agent.ovfcnt = min 65535 (k.agent.ovfcnt + 1))))

/-- R31, R126, R302, R306, R309, R322: an answer writes its destination, which a thread may read from the next cycle on, and ends the request; of an
access in two parts the first is kept. A refusal of a request with a destination poisons it; of another it joins the thread's queue of 8 or
is counted. An off-stack controller acts on the request at the head of its queue, which alone changes its bytes, and answers. -/
def Obligations.answers_and_offstack : Prop :=
  (∀ (s : State) (c part value reason : Nat) (tn : Fin 4) (o : Access), c < 256 → (s.coreAt c).net.replay = none →
    ((s.coreAt c).thr tn).outs = [o] → ((s.coreAt c).thr tn).imaged = none → o.units = [] → part < 2 →
    let th := (s.coreAt c).thr tn
    let data := o.data + value % 2 ^ (8 * o.bytes) * 2 ^ (if part = 0 then 0 else 8 * o.split)
    let done := { th with outs := [], relAt := max th.relAt s.cycle }
    let answered (P : State → Prop) : Prop := ∃ t, exec (.replyArrival (.thread c tn (4 * o.id + part)) value) s = .next t ∧ sameMemory s t ∧ P t
    let refused (th' : Thread) : Prop := ∃ t, exec (.refusalArrival (.thread c tn (4 * o.id + part)) reason) s = .next t ∧ sameMemory s t ∧
      (t.coreAt c).thr tn = th'
    (o.left ≤ 1 → answered fun t =>
      let th' := { done with acqAt := if o.acquire then s.cycle + 1 else th.acqAt }
      (t.coreAt c).thr tn = if o.store then th' else th'.setDest o.dest .full
        (if o.signed then ((BitVec.ofNat (8 * o.bytes) data).signExtend 64).toNat else data) (if o.kind = .remote then s.cycle + 1 else 0)) ∧
    (1 < o.left → answered fun t => (t.coreAt c).thr tn = { th with outs := [{ o with left := o.left - 1, data := data }] }) ∧
    (o.det0 = 0 → refused (done.setDest o.dest (.poisoned o.va reason o.target) 0 (s.cycle + 1))) ∧
    (o.det0 ≠ 0 → 8 ≤ th.refusals.length → refused { done with refLost := th.refLost + 1 }) ∧
    (o.det0 ≠ 0 → th.refusals.length < 8 → refused { done with refusals := th.refusals ++
      [⟨reason == 10 || reason == 11, if o.det0 = 0x40 ∨ o.det0 = 0x41 then o.va else 0, o.det0, reason + o.target * 256⟩] })) ∧
  ∀ (s : State) (ctrl : Nat) (q : OffAcc) (rest : List OffAcc), s.offQueues[ctrl]? = some (q :: rest) → s.offstack.wf = true →
    let r := q.req
    let old := memGetN s.offstack r.addr r.n
    ∃ t, exec (.offstackRequest ctrl) s = .next t ∧ t.offQueues[ctrl]? = some rest ∧
      (∀ c x, memGet (t.coreAt c).sram x = memGet (s.coreAt c).sram x ∧ memGet (t.coreAt c).vault.mem x = memGet (s.coreAt c).vault.mem x) ∧
      (∀ x, x < r.addr ∨ r.addr + r.n ≤ x → memGet t.offstack x = memGet s.offstack x) ∧
      (r.op = .get → memGetN t.offstack r.addr r.n = old) ∧
      (r.op = .put → r.e = 0 → memGetN t.offstack r.addr r.n = r.x % 2 ^ (8 * r.n)) ∧
      (r.op = .put → r.e ≠ 0 → ∀ i, i < r.n → memGet t.offstack (r.addr + i) =
        if bitOf r.e i then BitVec.ofNat 8 (r.x / 2 ^ (8 * i)) else memGet s.offstack (r.addr + i)) ∧
      (r.op = .cas → memGetN t.offstack r.addr r.n = (if old = r.e then r.x else old) % 2 ^ (8 * r.n)) ∧
      (∀ f l, r.op = .fop f l → memGetN t.offstack r.addr r.n = rmwApply (.fop f l) r.n old r.x 0 % 2 ^ (8 * r.n)) ∧
      ∀ core thr id, r.ret = .thread core thr id → ∃ f, t.mesh = s.mesh ++ [f] ∧ f.at_ = s.cycle + 1 ∧ f.flit.dst = .core core ∧
        f.flit.cls = (if r.op = .put then .control else .openOp) ∧ f.flit.load = .reply r.ret (if r.op = .put then 0 else old)

/-- R28, R43, R128, R312, R357: a launch starts the lowest-numbered idle thread of a core whose partition is not stopped (the model's reading,
log entry 25): open mode and user state, the PC and arguments of the message, the other registers zero and full, p0 alone true, the
launch values of the context, and the handler registers as they were. With no idle thread the message waits at the head of the
launch queue, and the queue's messages start in their order when threads are idle. -/
def Obligations.launches : Prop :=
  ∀ (s : State) (c p : Nat) (m : Launch) (tn : Fin 4) (q : Partition), c < 256 → s.partOf c = some p → s.partAt p = some q →
    (s.coreAt c).net.replay = none →
    let started (t : State) : Prop :=
      let x := (t.coreAt c).thr tn
      x.st = .run ∧ x.priv = false ∧ x.pc = BitVec.ofNat 14 m.pc ∧ x.block = .none ∧ x.next = s.cycle ∧ x.tag = m.tag ∧ x.slot = none ∧
      x.g[3] = Reg.of (BitVec.ofNat 64 m.arg0) ∧ x.g[4] = Reg.of (BitVec.ofNat 64 m.arg1) ∧
      (∀ i : Fin 32, i ≠ 3 → i ≠ 4 → x.g[i] = Reg.of 0) ∧ (∀ i : Fin 32, x.v[i] = Reg.of 0) ∧ (∀ i : Fin 8, x.p[i] = (i == 0)) ∧
      x.hg = ((s.coreAt c).thr tn).hg ∧ x.fpsr = 0 ∧ x.evpend = 0 ∧ (x.spbase, x.spsize, x.ovfp) = (s.ctxOf m.ctx).launchSp ∧
      (∀ n, n < 4 → n ≠ tn.val → (t.coreAt c).thr n = (s.coreAt c).thr n) ∧ sameMemory s t
    let free : Prop := q.stopped = false ∧ ((s.coreAt c).thr tn).st = .idle ∧ ∀ n, n < tn.val → ((s.coreAt c).thr n).st ≠ .idle
    let full : Prop := q.stopped = true ∨ ∀ n, n < 4 → ((s.coreAt c).thr n).st ≠ .idle
    (free → ∃ t, exec (.activeMessageLaunch c m) s = .next t ∧ started t ∧ (t.coreAt c).agent.launches = (s.coreAt c).agent.launches) ∧
    (full → ∃ t, exec (.activeMessageLaunch c m) s = .next t ∧ sameMemory s t ∧ (t.coreAt c).thr tn = (s.coreAt c).thr tn ∧
      (t.coreAt c).agent.launches = m :: (s.coreAt c).agent.launches) ∧
    (∀ rest, free → (∀ n, tn.val < n → n < 4 → ((s.coreAt c).thr n).st ≠ .idle) → (s.coreAt c).agent.launches = m :: rest →
      s.onlyAt c (fun k => !k.agent.launches.isEmpty) →
      ∃ t, exec .launchQueueStart s = .next t ∧ started t ∧ (t.coreAt c).agent.launches = rest)

/-! ### Ordering, events and signals -/

/-- R38, R52, R306, R325 to R331: `fence` completes when nothing of its kinds is outstanding in its scope: tile accesses of kind l; vault and
off-stack accesses of kind m; requests, copies and units appended to write streams of kind r. Else an open thread waits and a
booked one raises OVRN, replayable. Before, it raises BADRECT for a bad rectangle, the record of the lowest poisoned g register, else of the
lowest v one, and that of the oldest queued refusal. `fencei` makes the thread fetch what memory holds. `ownf` asks for tiles' owners
to change at the end of the cycle and answers how many do; its faults, in their order. -/
def Obligations.fences_and_owners : Prop :=
  (∀ (s : State) (a : GReg) (sc : Scope) (l m r : Bool), s.usable (if sc == .rect then [.rg a false] else []) →
    let w := (s.readG a).toNat
    let q := rectOf w
    let i : Instr := .fence a sc l m r
    let rectOk : Prop := w < 2 ^ 16 ∧ q.x0 ≤ q.x1 ∧ q.y0 ≤ q.y1 ∧ ∃ p, s.myPart = some p ∧
      p.rect.x0 ≤ q.x0 ∧ q.x1 ≤ p.rect.x1 ∧ p.rect.y0 ≤ q.y0 ∧ q.y1 ≤ p.rect.y1
    let wide : Prop := sc = .device ∨ sc = .domain
    let near (c : Nat) : Prop := c = s.cc ∨ (sc = .rect ∧ q.has c = true) ∨ wide
    let home (va : Nat) : Prop := match s.translate s.cc s.me.ctx va false false with
      | .loc _ | .vault _ | .moving => True
      | .foreign v => near v
      | .offstack _ | .page | .prot | .poison _ => wide
    let aim (tw : Nat) : Prop := match targetOf tw with
      | .core c => near c
      | .off _ => wide
      | .device _ _ => sc = .domain
    let pending : Prop :=
      (∃ o ∈ s.th.outs, (o.kind = .tile ∧ l = true) ∨ (o.kind = .vault ∧ m = true) ∨ (o.kind = .off ∧ m = true ∧ wide) ∨
        (o.kind = .remote ∧ o.told = false ∧ r = true ∧ aim o.target)) ∨
      (r = true ∧ ∃ x ∈ s.me.engine.copies, x.thr = s.ct ∧ (x.st = .queued ∨ x.st = .running ∨ x.st = .parked) ∧ ∃ va ∈ x.pages, home va) ∨
      (r = true ∧ ∃ p ∈ s.me.engine.streams, p.2.thr = s.ct ∧ p.2.write = true ∧ ∃ u, p.2.drained ≤ u ∧ u < p.2.taken ∧ home (p.2.unitVa u))
    (s.th.allRegs.map (·.code)).Pairwise (· ≤ ·) ∧
    (∀ n : Fin 32, (0 < n.val → ⟨n, .clearG n, false, s.th.g[n].st, s.th.g[n].ready⟩ ∈ s.th.allRegs) ∧
      ⟨32 + n, .clearV n, false, (s.th.vreg n).st, (s.th.vreg n).ready⟩ ∈ s.th.allRegs) ∧
    (∀ n : Fin 8, ⟨n + 1, .clearHg n, false, s.th.hg[n].st, s.th.hg[n].ready⟩ ∈ s.th.allRegs) ∧
    let clean : Prop := s.th.since.isSome ∨ ((∀ x ∈ s.th.allRegs, ∀ va n tgt, OpReg.st x ≠ .poisoned va n tgt) ∧ s.th.refusals = [])
    (sc = .rect → ¬ rectOk → s.traps i { cause := 0x17, det1 := w }) ∧
    (sc ≠ .rect ∨ rectOk →
      (clean → ¬ pending → exec i s = .next (s.completes 1 id)) ∧
      (clean → pending → s.th.st ≠ .booked → exec i s = .next s.drains) ∧
      (clean → pending → s.th.st = .booked → (∀ v ∈ s.me.vault.accs, v.abandoned = false) → s.traps i { cause := 0x0B, replay := true }) ∧
      (s.th.since = none → ∀ (k : Nat) (x : OpReg) (va n tgt : Nat), s.th.allRegs[k]? = some x → x.st = .poisoned va n tgt →
        (∀ (j : Nat) (y : OpReg), j < k → s.th.allRegs[j]? = some y → ∀ va n tgt, y.st ≠ .poisoned va n tgt) →
        s.traps i { cause := 0x0C, addr := va, det0 := x.code, det1 := n + tgt % 2 ^ 18 * 256, effect := x.clear }) ∧
      ((∀ x ∈ s.th.allRegs, ∀ va n tgt, x.st ≠ .poisoned va n tgt) → s.th.since = none → ∀ x rest, s.th.refusals = x :: rest →
        s.traps i { cause := if x.overflow then 0x16 else 0x0C, addr := x.addr, det0 := x.det0, det1 := x.det1, effect := .popRefusal }))) ∧
  (∀ (s : State) (d a b : GReg), exec .fencei s = .next (s.completes 3 fun th => { th with stale := [] }) ∧
    (s.usable [.rg a false, .rg b false, .wg d] →
      let va := (s.readG a).toNat % 2 ^ 52
      let v := (s.readG b).toNat
      let n := v % 2 ^ 9
      let tgt := bitsOf v 18 16
      let us := (List.range n).map ((va - localBase) / 4096 + ·)
      let within : Prop := localBase ≤ va ∧ va + 4096 * n ≤ localBase + 0x100000
      let formed : Prop := v < 2 ^ 19 ∧ bitsOf v 15 9 = 0 ∧ n ≠ 0 ∧ n ≤ 256 ∧ (tgt = 0 ∨ tgt = 1 ∨ tgt = 4)
      let mine (u : Nat) : Prop := s.me.owner u ≠ 2 ∧ s.me.owner u ≠ 3 ∧ (s.me.owner u = 0 ∨ s.me.owner u = tgt ∨ tgt = 0)
      let still (u : Nat) : Prop := s.me.owner u = tgt ∨ s.me.quiet u = true
      let new := us.filter fun u => s.me.owner u != tgt
      (va % 4096 ≠ 0 → s.traps (.ownf d a b) { cause := 0x03, addr := va }) ∧
      (va % 4096 = 0 → ¬ within → s.traps (.ownf d a b) { cause := 0x05, addr := va }) ∧
      (va % 4096 = 0 → within → ¬ formed → s.traps (.ownf d a b) { cause := 0x14, det0 := 18, det1 := v }) ∧
      (va % 4096 = 0 → within → formed →
        (∀ j, j < n → ¬ mine ((va - localBase) / 4096 + j) → (∀ k, k < j → mine ((va - localBase) / 4096 + k)) →
          s.traps (.ownf d a b) { cause := 0x09, det0 := (va - localBase) / 4096 + j }) ∧
        ((∀ u ∈ us, mine u) → (∃ u ∈ us, ¬ still u) → s.th.st ≠ .booked → exec (.ownf d a b) s = .next (s.waits (s.cycle + 1))) ∧
        ((∀ u ∈ us, mine u) → (∃ u ∈ us, ¬ still u) → s.th.st = .booked → (∀ v ∈ s.me.vault.accs, v.abandoned = false) →
          s.traps (.ownf d a b) { cause := 0x0B, replay := true }) ∧
        ((∀ u ∈ us, mine u ∧ still u) →
          exec (.ownf d a b) s = .next (({ s with flips := s.flips ++ new.map fun u => (s.cc, u, tgt) }).completes 1 fun th =>
            th.setGreg d.toNat ⟨BitVec.ofNat 64 new.length, .full, s.cycle + 2⟩))))) ∧
  ∀ (s : State) (c u tgt : Nat), c < 256 → s.flips = [(c, u, tgt)] → (s.coreAt c).tidy →
    (∀ x, (s.applyFlips.coreAt c).owner x = if x = u then tgt else (s.coreAt c).owner x) ∧ s.applyFlips.flips = []

/-- R332 to R334: `wait` answers and clears the pending events of its mask; while none is pending an open thread stays at the instruction, with its
deadline's event due, and a booked one raises OVRN, replayable. A malformed mask raises ENGINE with code 21. `signal` sends a CT flit, which
a core's own bypasses; its arrival sets bit 5 of EVPEND in the threads of the context that its mask names and that are not idle. A deadline
sets bit 6. (That a pending deadline is a timer of the thread, and that a wait samples at the end of its cycle, is the model's order of
log entry 15.) -/
def Obligations.events_and_signals : Prop :=
  (∀ (s : State) (d a b : GReg),
    let m := (s.readG a).toNat
    let y := (s.readG b).toNat
    (s.usable (if bitOf m 6 then [.rg a false, .rg b false, .wg d] else [.rg a false, .wg d]) → s.me.net.replay = none →
      let pend := s.th.evpend ||| (if bitOf m 6 = true ∧ y ≤ s.cycle then 0x40 else 0)
      let e := pend &&& s.readG a
      (m = 0 ∨ 2 ^ 7 ≤ m → s.traps (.wait d a b) { cause := 0x14, det0 := 21, det1 := m }) ∧
      (m ≠ 0 → m < 2 ^ 7 →
        (e ≠ 0 → ∃ t, exec (.wait d a b) s = .next t ∧ sameMemory s t ∧
          t.th = s.after (({ s.th with evpend := pend &&& ~~~e, timer := none }).setGreg d.toNat ⟨e, .full, s.cycle + 1⟩) 1) ∧
        (e = 0 → s.th.st ≠ .booked → ∃ t, exec (.wait d a b) s = .next t ∧ sameMemory s t ∧
          t.th = { s.th with timer := if bitOf m 6 then some y else s.th.timer, next := s.cycle + 1 } ∧
          (bitOf m 6 = true → (y, .waitTimerExpire) ∈ t.agenda)) ∧
        (e = 0 → s.th.st = .booked → s.traps (.wait d a b) { cause := 0x0B, replay := true }))) ∧
    (s.usable [.rg a false, .rg b false] →
      let target := m % 256
      let inside : Prop := ∃ p, s.myPart = some p ∧ p.rect.has target = true
      (2 ^ 18 ≤ m ∨ bitsOf m 17 8 ≠ 0x3FF → s.traps (.signal a b) { cause := 0x14, det0 := 16, det1 := m }) ∧
      (m < 2 ^ 18 → bitsOf m 17 8 = 0x3FF →
        (y = 0 ∨ 16 ≤ y → s.traps (.signal a b) { cause := 0x14, det0 := 22, det1 := y }) ∧
        (y ≠ 0 → y < 16 → ¬ inside → s.traps (.signal a b) { cause := 0x14, det0 := 22, det1 := m }) ∧
        (y ≠ 0 → y < 16 → inside → s.me.net.replay = none →
          (target ≠ s.cc → exec (.signal a b) s = .next ((s.inject (s.cycle + 1) s.cc 4
            ⟨.control, s.cc, s.ct, .core target, .signal target s.me.ctx y⟩).completes 1 id)) ∧
          (target = s.cc → exec (.signal a b) s = .next ((s.post (s.cycle + 2) (.signalArrival target s.me.ctx y)).completes 1 id)))))) ∧
  ∀ (s : State) (c mask : Nat), c < 256 →
    (∃ t, exec (.signalArrival c (s.coreAt c).ctx mask) s = .next t ∧ sameMemory s t ∧ ∀ n, n < 4 →
      let x := (s.coreAt c).thr n
      (t.coreAt c).thr n = if bitOf mask n = true ∧ x.st ≠ .idle then { x with evpend := x.evpend ||| 0x20 } else x) ∧
    ∃ t, exec .waitTimerExpire s = .next t ∧ sameMemory s t ∧ ∀ n, n < 4 →
      let x := (s.coreAt c).thr n
      (t.coreAt c).thr n = if x.timer.any (· ≤ s.cycle) then { x with evpend := x.evpend ||| 0x40, timer := none } else x

/-! ### Barriers -/

/-- R306, R329, R335 to R337, R340: `sstep`, `bar` and `redm` of an open thread enter the group that their control word names, once, and wait for its
release; a booked one raises BOOKV. A malformed word raises ENGINE with code 19, a bad rectangle BADRECT, an issue that disagrees with the
live group ENGINE with code 20; `sstep` then raises a poisoned register and the oldest refusal. A release that came while the thread was
away completes the instruction at once (the model's reading, log entry 52). -/
def Obligations.barriers_join : Prop :=
  ∀ (s : State) (d a b : GReg) (p : Nat) (q : Partition), s.me.net.replay = none → s.partOf s.cc = some p → s.partAt p = some q →
    let w := (s.readG a).toNat
    let rw := (s.readG b).toNat
    let g := w % 8
    let issue (k : GroupKind) : Instr × Nat × Dest × List Use := match k with
      | .sstep => (.sstep a b, 0, .none, [.rg a false, .rg b false])
      | .bar => (.bar a b, 0, .none, [.rg a false, .rg b false])
      | .redm => (.redm d a b, (s.readG d).toNat, s.th.destOf d.toNat, [.rg a false, .rg b false, .rg d false])
    let me (v : Nat) : Issuer := ⟨s.me.ctx, s.cc, s.ct, v⟩
    let op := bitsOf w 15 12
    let tmask := bitsOf w 7 4
    let dom := bitOf w 8
    ∀ k : GroupKind, s.usable (issue k).2.2.2 →
      let i := (issue k).1
      let v := (issue k).2.1
      let dest := (issue k).2.2.1
      let bad : Prop := 2 ^ 16 ≤ w ∨ bitsOf w 11 9 ≠ 0 ∨ bitOf w 3 = true ∨ (k ≠ .redm ∧ op ≠ 0) ∨ 8 < op ∨ tmask = 0 ∨ bitOf tmask s.ct = false ∨
        (dom = true ∧ ¬ (rw < 2 ^ 16 ∧ rectOf rw = q.rect))
      let r := rectOf rw
      let rectOk : Prop := rw < 2 ^ 16 ∧ r.x0 ≤ r.x1 ∧ r.y0 ≤ r.y1 ∧ q.rect.x0 ≤ r.x0 ∧ r.x1 ≤ q.rect.x1 ∧ q.rect.y0 ≤ r.y0 ∧ r.y1 ≤ q.rect.y1 ∧
        r.has s.cc = true
      let asked : Group := ⟨k, r, tmask, dom, op, [], [], none⟩
      let agrees (x : Group) : Prop := x.kind = k ∧ x.rect = r ∧ x.tmask = tmask ∧ x.dom = dom ∧ x.op = op
      let fits : Prop := ∀ x, q.group g = some x → agrees x
      let clean : Prop := k ≠ .sstep ∨ s.th.since.isSome ∨ ((∀ x ∈ s.th.allRegs, ∀ va n tgt, OpReg.st x ≠ .poisoned va n tgt) ∧ s.th.refusals = [])
      (s.th.st = .booked → s.traps i { cause := 0x0A, det0 := 0x100 }) ∧
      (s.th.st ≠ .booked →
        (bad → s.traps i { cause := 0x14, det0 := 19, det1 := w }) ∧
        (¬ bad → ¬ rectOk → s.traps i { cause := 0x17, det1 := rw }) ∧
        (¬ bad → rectOk → ¬ fits → (∀ y, s.th.owed ≠ some (g, y)) → s.traps i { cause := 0x14, addr := rw, det0 := 20, det1 := w }) ∧
        (¬ bad → rectOk → fits → k = .sstep → s.th.since = none →
          (∀ (j : Nat) (x : OpReg) (va n tgt : Nat), s.th.allRegs[j]? = some x → x.st = .poisoned va n tgt →
            (∀ (m : Nat) (y : OpReg), m < j → s.th.allRegs[m]? = some y → ∀ va n tgt, y.st ≠ .poisoned va n tgt) →
            s.traps i { cause := 0x0C, addr := va, det0 := x.code, det1 := n + tgt % 2 ^ 18 * 256, effect := x.clear }) ∧
          ((∀ x ∈ s.th.allRegs, ∀ va n tgt, OpReg.st x ≠ .poisoned va n tgt) → ∀ x rest, s.th.refusals = x :: rest →
            s.traps i { cause := if x.overflow then 0x16 else 0x0C, addr := x.addr, det0 := x.det0, det1 := x.det1, effect := .popRefusal })) ∧
        (¬ bad → rectOk → clean →
          (∀ y, s.th.owed = some (g, y) → exec i s = .next (s.completes 1 fun th => { th.setDest dest .full y (s.cycle + 1) with owed := none })) ∧
          ((∀ y, s.th.owed ≠ some (g, y)) → fits →
            let x := (q.group g).getD asked
            let again : Prop := ∃ y ∈ x.issued, y.ctx = s.me.ctx ∧ y.core = s.cc ∧ y.thr = s.ct
            let joins (x' : Group) : Prop := ∃ t, exec i s = .next t ∧ sameMemory s t ∧
              t.th = { s.th with block := .barrier p g dest, next := s.cycle + 1 } ∧ (t.partAt p).bind (·.group g) = some x' ∧
              (s.cycle, .barrierArrival p g s.cc) ∈ t.agenda
            (again → joins x) ∧ (¬ again → joins { x with issued := x.issued ++ [me v] }))))

/-- R337 to R339, R341: a core arrives in the first cycle in which its threads have issued and its further condition holds; the last arrival sets
the release 96 cycles on. At the release every waiting thread completes, `redm` with the reduction, and one that is away is owed its
completion (log entry 52); bit 1 of EVPEND is set in the other threads of the context on the group's cores; the group is idle. A group of
the whole partition ends a superstep. The reduction is a pairwise tree over the participants in order, each operation as Table 12.6 gives;
the imbalance record is laid out as Table 12.7 gives. Groups within this device, and where no stop is asked for. -/
def Obligations.barrier_events : Prop :=
  (∀ (s : State) (p g c : Nat) (q : Partition) (x : Group), p < 16 → s.partAt p = some q → q.group g = some x →
    (∀ y ∈ x.arrived, y.1 ≠ c) → x.dom = false →
    let k := s.coreAt c
    let issued : Prop := ∀ n, n < 4 → bitOf x.tmask n = true → (∃ d, (k.thr n).block = .barrier p g d) ∧
      ∃ i ∈ x.issued, i.ctx = k.ctx ∧ i.core = c ∧ i.thr = n
    let quiet : Prop := match x.kind with
      | .sstep => (∀ n, n < 4 → ∀ o ∈ (k.thr n).outs, o.told = true) ∧
          (∀ y ∈ k.engine.copies, y.st ≠ .queued ∧ y.st ≠ .running ∧ y.st ≠ .parked) ∧ ∀ y ∈ k.engine.streams, y.2.write = true → y.2.taken ≤ y.2.drained
      | .bar | .redm => ∀ n, n < 4 → bitOf x.tmask n = true → ∀ o ∈ (k.thr n).outs, o.kind = .off ∨ o.kind = .remote ∨ o.kind = .loc
    (¬ issued → exec (.barrierArrival p g c) s = .next s) ∧
    (issued → ¬ quiet → exec (.barrierArrival p g c) s = .next (s.postOnce (s.cycle + 1) (.barrierArrival p g c))) ∧
    (issued → quiet →
      ((∀ n ∈ x.rect.cores, n = c ∨ ∃ y ∈ x.arrived, y.1 = n) → ∃ t, exec (.barrierArrival p g c) s = .next t ∧
        (t.partAt p).bind (·.group g) = some { x with arrived := x.arrived ++ [(c, s.cycle)], releaseAt := some (s.cycle + 96) } ∧
        (s.cycle + 96, .barrierRelease) ∈ t.agenda ∧ sameMemory s t) ∧
      ((∃ n ∈ x.rect.cores, n ≠ c ∧ ∀ y ∈ x.arrived, y.1 ≠ n) → ∃ t, exec (.barrierArrival p g c) s = .next t ∧
        (t.partAt p).bind (·.group g) = some { x with arrived := x.arrived ++ [(c, s.cycle)] } ∧ sameMemory s t))) ∧
  (∀ a b : Word,
    let x := a.toNat
    let y := b.toNat
    redmOp 0 x y = (a + b).toNat ∧ redmOp 1 x y = (a &&& b).toNat ∧ redmOp 2 x y = (a ||| b).toNat ∧ redmOp 3 x y = (a ^^^ b).toNat ∧
    redmOp 4 x y = (if a.sle b then x else y) ∧ redmOp 5 x y = (if a.sle b then y else x) ∧
    redmOp 6 x y = (if a.ule b then x else y) ∧ redmOp 7 x y = (if a.ule b then y else x) ∧
    redmOp 8 x y = (ElemTy.f32.ffmt.addR .rne (ElemTy.f32.ffmt.value (x % 2 ^ 32)) (ElemTy.f32.ffmt.value (y % 2 ^ 32))).1) ∧
  (∀ (s : State) (x y : Group), x.dom = false → y.dom = false →
    (x.ordered.Perm x.issued ∧ x.ordered.Pairwise fun i j => i.core < j.core ∨ (i.core = j.core ∧ i.thr ≤ j.thr)) ∧
    (∀ v, x.ordered.map (·.value) = [v] → s.reduction x = v) ∧
    (1 < x.issued.length → x.issued.length ≤ 1024 → y.op = x.op → y.ordered.map (·.value) = pairUp (redmOp x.op) (x.ordered.map (·.value)) →
      s.reduction x = s.reduction y)) ∧
  (∀ (x : Group) (g ss start : Nat), x.arrived ≠ [] → (∀ a ∈ x.arrived, start ≤ a.2 ∧ a.1 < 256) →
    let r := x.imbalance g ss start
    ∃ early late : Nat × Nat, early ∈ x.arrived ∧ late ∈ x.arrived ∧ (∀ a ∈ x.arrived, early.2 ≤ a.2 ∧ a.2 ≤ late.2 ∧ (a.2 = late.2 → late.1 ≤ a.1)) ∧
      bitsOf r 31 0 = ss % 2 ^ 32 ∧ bitsOf r 63 32 = (early.2 - start) % 2 ^ 32 ∧ bitsOf r 95 64 = (late.2 - start) % 2 ^ 32 ∧
      bitsOf r 103 96 = late.1 ∧ bitsOf r 111 104 = g % 8 ∧ bitsOf r 127 112 = x.arrived.length % 2 ^ 16 ∧
      bitsOf r 191 128 = (x.arrived.map fun a => a.2 - start).sum % 2 ^ 64 ∧ bitsOf r 255 192 = start % 2 ^ 64) ∧
  ∀ (s : State) (p g at_ : Nat) (q : Partition) (x : Group), p < 16 → s.partAt p = some q → q.group g = some x → x.releaseAt = some at_ →
    at_ ≤ s.cycle → x.dom = false → (x.issued.map fun i => (i.ctx, i.core, i.thr)).Nodup → (∀ i ∈ x.issued, i.core < 256 ∧ i.thr < 4) →
    (∀ p' g' q' y, s.partAt p' = some q' → q'.group g' = some y → (p', g') ≠ (p, g) → y.releaseAt = none) →
    q.ssStop = false → (∀ c, bitOf (s.coreAt c).dbgctl.toNat 1 = false) → bitOf q.imbring.toNat 63 = false →
    (∀ c, ∀ e ∈ (s.coreAt c).agent.queue ++ (s.coreAt c).agent.retry, e.req.thr ≠ 9) →
    ∃ t, exec .barrierRelease s = .next t ∧ sameMemory s t ∧ (t.partAt p).bind (·.group g) = none ∧
      (x.rect = q.rect → (t.partAt p).map (fun y => (y.sscnt, y.ssStart)) = some ((q.sscnt + 1) % 2 ^ 64, s.cycle)) ∧
      (x.rect ≠ q.rect → (t.partAt p).map (fun y => (y.sscnt, y.ssStart)) = some (q.sscnt, q.ssStart)) ∧
      ∀ (c : Fin 256) (n : Fin 4),
        let y := (s.coreAt c).thr n
        let z := (t.coreAt c).thr n
        let ctx := (s.coreAt c).ctx
        let v := if x.kind = .redm then s.reduction x else 0
        let takes : Prop := ∃ i ∈ x.issued, i.ctx = ctx ∧ i.core = c ∧ i.thr = n
        (takes → ∀ d, y.block = .barrier p g d →
          z = ({ y.setDest d .full v (s.cycle + 1) with block := .none } : Thread).went (y.pc + 1) (s.cycle + 1) (s.steps c n)) ∧
        (takes → (∀ d, y.block ≠ .barrier p g d) → z = { y with owed := some (g, v) }) ∧
        (¬ takes → z = if x.rect.has c = true ∧ (∃ i ∈ x.issued, i.ctx = ctx) ∧ y.st ≠ .idle then { y with evpend := y.evpend ||| 2 } else y)

/-! ### The Almanac -/

/-- R197 to R203, R207 to R212: the placement of an entry's occurrences, the statuses of a list, and `book` over a list in the scratchpad. The list is
read a 64-byte block a cycle; then a malformed list, a full table or a throttled engine answers its status; otherwise the booking is
made at the earliest multiple of eight ticks at which all its ticks are open and free, and the handle names it, or, with links, waits
for the commit of that start; with no such start within the horizon the status is 1. The faults of the list's place, and BOOKV in booked
mode. (That the Almanac serves one request at a time is the model's reading, log entry 53.) -/
def Obligations.booking_requests : Prop :=
  (∀ (core slip e : Nat) (thr : Bool), e < 2 ^ 64 →
    let code := bitsOf e 63 56
    let len := bitsOf e 45 36
    let cnt := bitsOf e 35 28
    let at_ (i : Nat) := bitsOf e 55 46 + i * bitsOf e 27 18
    let covers (node dir tick : Nat) : Prop := ∃ h ∈ placeEntry core slip thr e, h.code = code ∧ h.node = node ∧ h.dir = dir ∧ h.first ≤ tick ∧ tick ≤ h.last
    (code ≠ 3 → code ≠ 0x60 → 0 < len → ∀ tick, covers 0 0 tick ↔
      ∃ i, i < cnt ∧ at_ i ≤ tick ∧ tick < at_ i + if code = 1 ∧ thr = true then 2 * len else if 0x40 ≤ code then len + slip else len) ∧
    (code = 3 → ∀ tick, covers 0 0 tick ↔ ∃ i, i < cnt ∧ at_ i ≤ tick ∧ tick % 8 ≠ 7 ∧
      ((List.range (tick - at_ i)).filter fun j => (at_ i + j) % 8 != 7).length < len + slip) ∧
    (code = 0x60 → 0 < len → ∀ (j n d : Nat), (routeHops 32 core (bitsOf e 17 10))[j]? = some (n, d) →
      (∀ k, k ≠ j → (routeHops 32 core (bitsOf e 17 10))[k]? ≠ some (n, d)) →
      ∀ tick, covers n d tick ↔ ∃ i, i < cnt ∧ at_ i + j ≤ tick ∧ tick < at_ i + j + len)) ∧
  (∀ (core kap slip : Nat) (part : Rect) (thr : Bool) (ws : List Nat),
    let h := ws.headD 0
    let dur := bitsOf h 25 16
    let es := listEntries ws
    let code (e : Nat) := bitsOf e 63 56
    let len (e : Nat) := bitsOf e 45 36
    let ends (e n : Nat) := bitsOf e 55 46 + (bitsOf e 35 28 - 1) * bitsOf e 27 18 + n
    let badHead : Prop := 2 ^ 34 ≤ h ∨ bitsOf h 31 26 ≠ 0 ∨ bitsOf h 15 7 ≠ 0 ∨ bitsOf h 6 0 = 0 ∨ 64 < bitsOf h 6 0 ∨ dur = 0 ∨ 512 < dur
    let bad (e : Nat) : Prop := ¬ ((1 ≤ code e ∧ code e ≤ 3) ∨ (0x10 ≤ code e ∧ code e ≤ 0x60)) ∨ len e = 0 ∨ bitsOf e 35 28 = 0 ∨
      (1 < bitsOf e 35 28 ∧ bitsOf e 27 18 < len e) ∨ (code e ≠ 0x60 ∧ bitsOf e 17 10 ≠ 0) ∨ bitsOf e 9 0 ≠ 0 ∨
      (code e = 0x60 ∧ (bitsOf e 17 10 = core ∨ part.has (bitsOf e 17 10) = false)) ∨ dur < ends e (len e)
    let late : Prop := 8 * dur ≤ kap ∨ ∃ x ∈ placeList core slip thr (8 * (kap / 64)) ws, 512 ≤ x.last
    let twice (e : Nat) : Prop := code e = 1 ∧ ((1 < bitsOf e 35 28 ∧ bitsOf e 27 18 < 2 * len e) ∨ dur < ends e (2 * len e))
    (badHead → listStatus core part kap slip thr ws = some (3, 0)) ∧
    (∀ (i e : Nat), ¬ badHead → es[i]? = some e → bad e → (∀ (j x : Nat), j < i → es[j]? = some x → ¬ bad x) →
      listStatus core part kap slip thr ws = some (4, i)) ∧
    (¬ badHead → (∀ e ∈ es, ¬ bad e) → (late → listStatus core part kap slip thr ws = some (5, 0)) ∧
      (¬ late → listStatus core part kap slip thr ws = none)) ∧
    (∀ (i e : Nat), thr = true → es[i]? = some e → twice e → (∀ (j x : Nat), j < i → es[j]? = some x → ¬ twice x) → throttleStatus thr ws = some (7, i)) ∧
    (thr = false ∨ (∀ e ∈ es, ¬ twice e) → throttleStatus thr ws = none)) ∧
  ∀ (s : State) (d a b : GReg), s.memoryQuiet → s.usable [.rg a false, .rg b false, .wg d] →
    let va := (s.readG a).toNat % 2 ^ 52
    let kap := (s.readG b).toNat
    let i : Instr := .book d a b
    let alm := s.me.almanac
    let booked (ws : List Nat) (spent : Nat) : Prop :=
      let head := ws.headD 0
      let part := (s.myPart.map (·.rect)).getD ⟨1, 1, 0, 0⟩
      let slip := if bitOf head 33 then ceilDiv (s.th.vslip.toNat % 65536) 8 else 0
      let thr := s.me.matrix.throttle != 0
      let cost := 16 + 2 * headCount head + 4 * listHops s.cc ws
      let left := cost - spent
      let free := (List.range 16).find? fun j => (s.me.booking j).st == .free || (s.me.booking j).st == .lapsed
      let status := (listStatus s.cc part kap slip thr ws).or ((if free.isNone then some (2, 0) else none).or (throttleStatus thr ws))
      let holds := placeList s.cc slip thr (8 * (kap / 64)) ws
      let first := 8 * ceilDiv (s.cycle + left + 8) 64
      let start := s.findStart s.cc none holds noBound 70 first
      let linked : Prop := ∃ h ∈ holds, h.code = 0x60
      let gives (t : State) (x : Nat) : Prop := exec i s = .next t ∧ (s.helm.moves = [] → sameMemory s t) ∧ t.me.almanac.reading = none ∧
        t.th = s.after (s.th.setDest (s.th.destOf d.toNat) .full x (s.cycle + left)) left ∧ t.me.almanac.busyUntil = s.cycle + left
      (∀ st k, status = some (st, k) → ∃ t, gives t (2 ^ 63 + st + k * 2 ^ 8) ∧ ∀ j, t.me.booking j = s.me.booking j) ∧
      (status = none → start = none → ∃ t, gives t (2 ^ 63 + 1) ∧ ∀ j, t.me.booking j = s.me.booking j) ∧
      (∀ j st, status = none → start = some st → free = some j →
        (∀ h ∈ holdsAt st holds, s.holdFits s.cc none h = true) ∧
        (∀ st', first ≤ st' → st' < st → st' % 8 = 0 → ∃ h ∈ holdsAt st' holds, s.holdFits s.cc none h = false) ∧
        (¬ linked → ∃ t, gives t ((if thr then 2 ^ 62 else 0) + j % 16 * 2 ^ 56 + (alm.serial + 1) % 256 * 2 ^ 48 + st % 2 ^ 48) ∧
          t.me.booking j = ⟨.made, (alm.serial + 1) % 256, st, 64 * (kap / 64), kap, ws, va, slip, thr, s.ct, holdsAt st holds⟩ ∧
          t.me.almanac.serial = (alm.serial + 1) % 256 ∧ ∀ k, k ≠ j → t.me.booking k = s.me.booking k) ∧
        (linked → ∃ t c, exec i s = .next t ∧ sameMemory s t ∧ t.me.almanac.commit = some c ∧ c.booking.start = st ∧ c.booking.holds = holds ∧
          c.why = .make ∧ c.slot = j ∧ c.attempt = 0 ∧ c.failed = false ∧ c.cost = cost ∧ c.thr = s.ct ∧ (∀ k, t.me.booking k = s.me.booking k) ∧
          t.th.block = .link (s.th.destOf d.toNat)))
    (s.th.st = .booked → alm.reading = none → s.traps i { cause := 0x0A, det0 := 0x100 }) ∧
    (s.th.st ≠ .booked →
      ((∀ r, alm.reading = some r → r.thr ≠ s.ct) → s.cycle < alm.busyUntil ∨ alm.commit.isSome ∨ alm.reading.isSome →
        exec i s = .next (s.waits (s.cycle + 1))) ∧
      (alm.busyUntil ≤ s.cycle → alm.commit = none → alm.reading = none →
        (va % 8 ≠ 0 → s.traps i { cause := 0x03, addr := va }) ∧
        (va % 8 = 0 →
          let tr := s.translate s.cc s.me.ctx va true false
          (tr = .page → s.traps i { cause := 0x04, addr := va }) ∧
          (∀ o, va = localBase + o → o + 8 * (1 + headCount (memGetN s.me.sram o 8)) ≤ 0x100000 →
            let n := 1 + headCount (memGetN s.me.sram o 8)
            (∀ j, j < 8 * n → s.me.owner ((o + j) / 4096) ≠ 0 → (∀ k, k < j → s.me.owner ((o + k) / 4096) = 0) →
              s.traps i { cause := 0x09, addr := va + j }) ∧
            ((∀ j, j < 8 * n → s.me.owner ((o + j) / 4096) = 0) →
              (o / 64 = (o + 8 * n - 1) / 64 → booked ((List.range n).map fun j => memGetN s.me.sram (o + 8 * j) 8) 0) ∧
              (o / 64 ≠ (o + 8 * n - 1) / 64 → ∃ t r, exec i s = .next t ∧ sameMemory s t ∧ t.me.almanac.reading = some r ∧ r.thr = s.ct ∧
                r.forTake = false ∧ r.acc = none ∧ r.data = memGetN s.me.sram o (64 - o % 64) ∧
                r.left = ((listBlocks o (8 * n)).drop 1) ∧ t.th = { s.th with next := s.cycle + 1 }))) ∧
          (∀ o, va = localBase + o → 0x100000 ≤ o → o < 0x200000 → s.traps i { cause := 0x05, addr := va, det0 := 4 }) ∧
          (∀ pa, tr = .offstack pa → s.traps i { cause := 0x05, addr := va, det0 := 4 }) ∧
          (∀ c, tr = .foreign c → s.traps i { cause := 0x06, addr := va }) ∧
          (∀ pa, tr = .vault pa → s.noBookings → s.me.vault.rowErrs = [] →
            let n := 8 * (1 + headCount (memGetN s.me.vault.mem pa 8))
            va % 65536 + n ≤ 65536 → ∃ t v o, exec i s = .next t ∧ sameMemory s t ∧ t.me.almanac.reading = some ⟨s.ct, false, 0, [], some s.th.serial⟩ ∧
              t.th = { s.th with outs := s.th.outs ++ [o], serial := s.th.serial + 1, next := s.cycle + 1 } ∧ o.id = s.th.serial ∧ o.kind = .vault ∧
              t.me.vault.accs.getLast? = some v ∧ v.op = .load ∧ v.va = va ∧ v.n = n ∧ v.by_ = .thread s.ct ∧ v.acc = s.th.serial))) ∧
      (∀ r acc, alm.reading = some r → r.thr = s.ct → r.acc = some acc → r.left = [] → va % 8 = 0 →
        ((∃ o ∈ s.th.outs, o.id = acc) → exec i s = .next (s.waits (s.cycle + 1))) ∧
        ((∀ o ∈ s.th.outs, o.id ≠ acc) →
          booked ((List.range (1 + headCount (r.data % 2 ^ 64))).map fun j => r.data / 2 ^ (64 * j) % 2 ^ 64) 0)) ∧
      (∀ r, alm.reading = some r → r.thr = s.ct → r.acc = none → va % 8 = 0 →
        (∀ o p n rest, r.left = (o, p, n) :: rest → rest ≠ [] → exec i s = .next (((s.modMe fun k => { k with
            bankUses := (k.bankUses.filter (s.cycle ≤ ·.cycle)) ++ [⟨bankOf o, s.cycle, s.ct⟩]
            almanac := { alm with reading := some { r with data := r.data + k.sramRead o n * 2 ^ (8 * p), left := rest } } }).modTh
              fun th => { th with next := s.cycle + 1 }))) ∧
        (∀ o p n, r.left = [(o, p, n)] →
          let data := r.data + memGetN s.me.sram o n * 2 ^ (8 * p)
          let m := 1 + headCount (data % 2 ^ 64)
          booked ((List.range m).map fun j => data / 2 ^ (64 * j) % 2 ^ 64) ((listBlocks (localOff va) (8 * m)).length - 1))))

/-- R202 to R207, R213 to R217: `arm` arms the thread on a made booking, raises OVRN for a lapsed one and BOOKV for any other; `done` ends the booked
thread's booking; `unbook` frees a made booking and answers why it does not free another; `calmv` moves a booking to the earliest start
from a tick on, or, with links, by a commit; `calq` answers the states of the slots or the ticks of a row that no booking can claim. The
open-only ones raise BOOKV in booked mode. (One request at a time, log entry 53; the cost of a `calmv` with status 8 and `calq`
towards the core itself, log entry 85.) -/
def Obligations.booking_operations : Prop :=
  ∀ (s : State) (d a b : GReg),
    let slot := s.me.handleSlot (s.readG a).toNat
    let answers (i : Instr) (v cost : Nat) (t : State) : Prop := exec i s = .next t ∧
      t.th = s.after (s.th.setDest (s.th.destOf d.toNat) .full v (s.cycle + cost)) cost
    let others (t : State) (i : Nat) : Prop := ∀ j, j ≠ i → t.me.booking j = s.me.booking j
    let free : Prop := s.me.almanac.busyUntil ≤ s.cycle ∧ s.me.almanac.commit = none ∧ s.me.almanac.reading = none
    let busy : Prop := s.cycle < s.me.almanac.busyUntil ∨ s.me.almanac.commit.isSome ∨ ∃ r, s.me.almanac.reading = some r ∧ r.thr ≠ s.ct
    (∀ w, s.me.handleSlot w = (let i := w / 2 ^ 56 % 16
      if w / 2 ^ 63 % 2 = 1 ∨ (s.me.booking i).st = .free ∨ (s.me.booking i).serial ≠ w / 2 ^ 48 % 256 then none else some i)) ∧
    (s.th.st = .booked → s.usable [.rg a false, .rg b false, .wg d] → ∀ i ∈ ([.arm a, .unbook d a, .calmv d a b] : List Instr),
      s.traps i { cause := 0x0A, det0 := 0x100 }) ∧
    (s.usable [.rg a false] → s.th.st ≠ .booked →
      (slot = none → s.traps (.arm a) { cause := 0x0A, det0 := 0x200 }) ∧
      (∀ i, slot = some i →
        let x := s.me.booking i
        (x.st = .made → ∃ t, exec (.arm a) s = .next t ∧ sameMemory s t ∧ others t i ∧
          t.th = s.after ({ s.th with st := .armed, slot := some i }) 1 ∧ t.me.booking i = { x with st := .armed } ∧
          t.me.bookIdOf t.th = 4096 + 256 * i + x.serial ∧ (max (8 * x.start + x.kappa - x.k0) (s.cycle + 1), .bookingStart) ∈ t.agenda) ∧
        (x.st = .lapsed → s.traps (.arm a) { cause := 0x0B, det0 := 1, det1 := x.start % 2 ^ 48, replay := true }) ∧
        (x.st = .armed ∨ x.st = .started → s.traps (.arm a) { cause := 0x0A, det0 := 0x200 }))) ∧
    (s.th.st ≠ .booked → exec .done s = .next (s.completes 1 id)) ∧
    (∀ i, i < 16 → s.th.st = .booked → s.th.slot = some i → ∃ t, exec .done s = .next t ∧ sameMemory s t ∧ others t i ∧
      t.th = s.after ({ s.th with st := .run, slot := none }) 1 ∧ (t.me.booking i).st = .free ∧ (t.me.booking i).holds = [] ∧
      (s.cycle + 1, .compaction) ∈ t.agenda) ∧
    (s.th.st ≠ .booked → busy → s.usable [.rg a false, .rg b false, .wg d] →
      exec (.unbook d a) s = .next (s.waits (s.cycle + 1)) ∧ exec (.calmv d a b) s = .next (s.waits (s.cycle + 1))) ∧
    (s.th.st ≠ .booked → free → s.usable [.rg a false, .wg d] →
      (slot = none → ∃ t, answers (.unbook d a) 1 8 t ∧ ∀ j, t.me.booking j = s.me.booking j) ∧
      (∀ i, slot = some i →
        let x := s.me.booking i
        let cost := 8 + 2 * listHops s.cc x.list
        (x.st = .made → ∃ t, answers (.unbook d a) 0 cost t ∧ others t i ∧ t.me.booking i = { x with st := .free, holds := [] } ∧
          (∀ l ∈ t.links, l.core ≠ s.cc ∨ l.slot ≠ i ∨ l.first < s.tick) ∧ (s.cycle + cost, .compaction) ∈ t.agenda) ∧
        (x.st = .armed ∨ x.st = .started → ∃ t, answers (.unbook d a) 2 cost t ∧ ∀ j, t.me.booking j = s.me.booking j) ∧
        (x.st = .lapsed → ∃ t, answers (.unbook d a) 1 cost t ∧ ∀ j, t.me.booking j = s.me.booking j))) ∧
    (s.th.st ≠ .booked → free → s.usable [.rg a false, .rg b false, .wg d] →
      (slot = none → ∃ t, answers (.calmv d a b) (2 ^ 63 + 8) 16 t) ∧
      (∀ i, slot = some i →
        let x := s.me.booking i
        let cost := 16 + 2 * headCount (x.list.headD 0) + 4 * listHops s.cc x.list
        let rel := x.holds.map fun h => { h with first := h.first - x.start, last := h.last - x.start }
        let from_ := max (8 * ceilDiv (s.cycle + cost + 8) 64) (8 * ceilDiv (s.readG b).toNat 8)
        (x.st = .made ∨ x.st = .armed →
          (s.findStart s.cc (some i) rel noBound 70 from_ = none → ∃ t, answers (.calmv d a b) (2 ^ 63 + 1) cost t ∧ t.me.booking i = x ∧ others t i) ∧
          (∀ st, s.findStart s.cc (some i) rel noBound 70 from_ = some st →
            ((∀ h ∈ x.holds, h.code ≠ 0x60) → ∃ t,
              answers (.calmv d a b) ((if x.thr then 2 ^ 62 else 0) + i % 16 * 2 ^ 56 + x.serial % 256 * 2 ^ 48 + st % 2 ^ 48) cost t ∧
              t.me.booking i = { x with start := st, holds := holdsAt st rel } ∧ others t i) ∧
            ((∃ h ∈ x.holds, h.code = 0x60) → ∃ t c, exec (.calmv d a b) s = .next t ∧ t.me.almanac.commit = some c ∧ c.why = .move ∧ c.slot = i ∧
              c.booking.start = st ∧ c.booking.holds = rel ∧ t.me.booking i = x ∧ t.th.block = .link (s.th.destOf d.toNat)))) ∧
        (x.st = .started ∨ x.st = .lapsed → ∃ t, answers (.calmv d a b) (2 ^ 63 + 8) 16 t ∧ t.me.booking i = x))) ∧
    (s.usable [.rg a false, .rg b false, .wg d] →
      let code := (s.readG a).toNat % 256
      let dest := bitsOf (s.readG a).toNat 15 8
      let tick := (s.readG b).toNat
      let near : Prop := dest ≠ s.cc ∧ ∃ p, s.myPart = some p ∧ p.rect.has dest = true
      ∃ w : Word, exec (.calq d a b) s = .next (s.completes 1 fun th => th.setGreg d.toNat ⟨w, .full, s.cycle + 4⟩) ∧
        let row (code node dir : Nat) : Prop := ∀ i, i < 64 → (w.getLsbD i = true ↔ tick + i < s.tick ∨ s.tick + 511 < tick + i ∨
          s.me.tickClosed s.cc code (tick + i) = true ∨ s.heldByOther s.cc none ⟨code, node, dir, tick + i, tick + i⟩ = true)
        (code = 0 → w.toNat < 2 ^ 48 ∧ ∀ i, i < 16 → w.getLsbD i = (s.me.booking i).live ∧
          w.getLsbD (16 + i) = ((s.me.booking i).st == .armed) ∧ w.getLsbD (32 + i) = ((s.me.booking i).st == .started)) ∧
        ((1 ≤ code ∧ code ≤ 3) ∨ (0x10 ≤ code ∧ code ≤ 0x5F) → row code 0 0) ∧
        (code = 0x60 → near → row 0x60 s.cc (hopDir s.cc dest)) ∧
        (code = 0x60 ∧ ¬ near ∨ 4 ≤ code ∧ code < 0x10 ∨ 0x60 < code → w = BitVec.allOnes 64))

/-- R205, R211, R213, R217, R218: an armed thread whose cycle has come enters booked mode and issues; a made booking whose start passes
lapses, gives up its ticks and sets bit 4 of its maker's EVPEND; a router holds a link for a commit or turns it down; a commit
all of whose routers agreed, whose local ticks fit and whose start lies ahead makes the booking, and another tries again, with the status
6 after three failures, or 1 where no start is left; compaction moves a flagged booking to an earlier start, with links by a commit of one
attempt. (The cycle in which a thread is found awake, log entry 27; the re-check of a commit's start, log entry 85.) -/
def Obligations.booking_events : Prop :=
  (∀ (s : State) (c : Nat) (n : Fin 4) (i : Nat), c < 256 → i < 16 →
    let b := (s.coreAt c).booking i
    (((s.coreAt c).thr n).st = .armed → ((s.coreAt c).thr n).slot = some i → b.st = .armed → 8 * b.start + b.kappa - b.k0 ≤ s.cycle →
      (∀ m, m ≠ n.val → ((s.coreAt c).thr m).slot ≠ some i) →
      ∃ t, exec .bookingStart s = .next t ∧ sameMemory s t ∧ (t.coreAt c).thr n = { (s.coreAt c).thr n with st := .booked, next := s.cycle } ∧
        (t.coreAt c).booking i = { b with st := .started }) ∧
    (b.st = .made → 8 * b.start ≤ s.cycle → b.maker = n.val → ((s.coreAt c).thr n).st ≠ .idle →
      ∃ t, exec .bookingLapse s = .next t ∧ sameMemory s t ∧ (t.coreAt c).booking i = { b with st := .lapsed, holds := [] } ∧
        (∀ l ∈ t.links, l.core ≠ c ∨ l.slot ≠ i ∨ l.first < s.tick) ∧
        ((t.coreAt c).thr n).evpend = ((s.coreAt c).thr n).evpend ||| 0x10 ∧ (s.cycle + 1, .compaction) ∈ t.agenda)) ∧
  (∀ (s : State) (h : LinkHold) (cm : Commit), h.core < 256 → (s.coreAt h.core).almanac.commit = some cm →
    let last := h.tick + h.len - 1
    let clash (l : LinkUse) : Prop := (l.core ≠ h.core ∨ (l.committed = true ∧ some l.slot ≠ cm.own)) ∧ l.node = h.node ∧ l.dir = h.dir ∧
      l.first ≤ last ∧ h.tick ≤ l.last
    ((∃ l ∈ s.links, clash l) → ∃ t, exec (.linkHoldRequest h) s = .next t ∧ t.links = s.links ∧
      (t.coreAt h.core).almanac.commit = some { cm with failed := true }) ∧
    ((∀ l ∈ s.links, ¬ clash l) → exec (.linkHoldRequest h) s = .next
      { s with links := s.links ++ [⟨h.node, h.dir, h.tick, last, h.core, cm.slot, false⟩] })) ∧
  (∀ (s : State) (c : Fin 256) (n : Fin 4) (cm : Commit), s.onlyAt c (fun k => k.almanac.commit.isSome) →
    (s.coreAt c).almanac.commit = some cm → cm.pending = 0 → cm.due ≤ s.cycle → cm.why = .make → cm.slot < 16 → cm.thr = n.val →
    ((s.coreAt c).thr n).block = .link cm.d → s.helm.moves = [] →
    let b := cm.booking
    let fits : Prop := s.cycle < 8 * b.start ∧ ∀ h ∈ holdsAt b.start b.holds, h.code ≠ 0x60 → s.holdFits c none h = true
    let again := s.findStart c none b.holds noBound 70 cm.from_
    let gives (t : State) (x : Nat) : Prop := exec .linkCommit s = .next t ∧ (t.coreAt c).almanac.commit = none ∧
      let y := (s.coreAt c).thr n
      let z : Thread := { y.setDest cm.d .full x (s.cycle + 1) with block := .none }
      (t.coreAt c).thr n = z.went (y.pc + 1) (s.cycle + 1) (s.steps c n)
    let released (t : State) : Prop := ∀ l, l ∈ t.links ↔ l ∈ s.links ∧ (l.core ≠ c.val ∨ l.committed = true)
    (cm.failed = false → fits →
      let serial := ((s.coreAt c).almanac.serial + 1) % 256
      let b' : Booking := { b with st := .made, serial := serial, holds := holdsAt b.start b.holds }
      ∃ t, gives t ((if b.thr then 2 ^ 62 else 0) + cm.slot % 16 * 2 ^ 56 + serial * 2 ^ 48 + b.start % 2 ^ 48) ∧ (t.coreAt c).booking cm.slot = b' ∧
        (∀ j, j ≠ cm.slot → (t.coreAt c).booking j = (s.coreAt c).booking j) ∧
        t.links = s.links.map fun l => if l.core = c.val then { l with committed := true } else l) ∧
    (cm.failed = true ∨ ¬ fits →
      (cm.attempt = 2 → ∃ t, gives t (2 ^ 63 + 6) ∧ released t ∧ ∀ j, (t.coreAt c).booking j = (s.coreAt c).booking j) ∧
      (cm.attempt ≠ 2 → (∀ l ∈ s.links, l.core = c.val → l.committed = true) →
        (again = none → ∃ t, gives t (2 ^ 63 + 1) ∧ released t ∧ ∀ j, (t.coreAt c).booking j = (s.coreAt c).booking j) ∧
        (∀ st, again = some st → ∃ t x, exec .linkCommit s = .next t ∧ (t.coreAt c).almanac.commit = some x ∧ x.booking = { b with start := st } ∧
          x.attempt = cm.attempt + 1 ∧ x.failed = false ∧ x.due = s.cycle + cm.cost ∧ x.why = .make ∧ x.slot = cm.slot ∧ x.from_ = cm.from_)))) ∧
  ∀ (s : State) (c : Nat) (x : Nat), c < 256 → s.onlyAt c (fun k => k.almanac.dirty.isSome) → (s.coreAt c).almanac.dirty = some x →
    let k := s.coreAt c
    let busy : Prop := s.cycle < k.almanac.busyUntil ∨ k.almanac.reading.isSome ∨ k.almanac.commit.isSome
    (busy → exec .compaction s = .next (s.postOnce (max (s.cycle + 1) k.almanac.busyUntil) .compaction)) ∧
    (¬ busy →
      ((∀ i, i < 16 → (k.booking i).st ≠ .made ∧ (k.booking i).st ≠ .armed) →
        exec .compaction s = .next (s.modCore c fun k => { k with almanac := { k.almanac with dirty := none } })) ∧
      (∀ i st, i < 16 → (∀ j, j < 16 → j ≠ i → (k.booking j).st ≠ .made ∧ (k.booking j).st ≠ .armed) →
        let b := k.booking i
        b.st = .made ∨ b.st = .armed → bitOf (b.list.headD 0) 32 = true → b.holds ≠ [] →
        let rel := b.holds.map fun h => { h with first := h.first - b.start, last := h.last - b.start }
        s.findStart c (some i) rel b.start 70 (8 * ceilDiv (8 * (s.tick + 8)) 64) = some st → st < b.start ∧
          ((∀ h ∈ b.holds, h.code ≠ 0x60) → ∃ t, exec .compaction s = .next t ∧ (t.coreAt c).booking i = { b with start := st, holds := holdsAt st rel }) ∧
          ((∃ h ∈ b.holds, h.code = 0x60) → ∃ t y, exec .compaction s = .next t ∧ (t.coreAt c).booking i = b ∧ (t.coreAt c).almanac.commit = some y ∧
            y.why = .compact [] ∧ y.slot = i ∧ y.attempt = 2 ∧ y.booking.start = st ∧ y.booking.holds = rel)))

/-! ### Tasks -/

/-- R207, R223 to R227, R229, R230, R232, R234: `spawn` pushes a well-formed task record and answers its status; `take` carves a chunk of at most a
grain from the bottom record, writes it and answers its length, and books first where the record names a list; `tfin` subtracts a
task's length from its join counter, here in its second cycle or by a request; `term` acknowledges; `dqn` answers the state of the queue;
`seek` asks the next core of the ring. The faults of the record's place, TERMERR, and BOOKV in booked mode. (The order of the statuses of
`spawn`, log entry 54; when a booked `take` writes its record, log entry 85.) -/
def Obligations.task_operations : Prop :=
  (∀ (s : State) (d a : GReg), s.memoryQuiet → s.usable [.rg a false, .wg d] → s.me.sram.wf = true →
    let va := (s.readG a).toNat % 2 ^ 52
    let recs := s.me.tasks.recs
    let epoch := (s.myPart.map (·.epoch)).getD 0
    let answers (i : Instr) (v lat cost : Nat) (t : State) : Prop := exec i s = .next t ∧
      t.th = s.after (s.th.setGreg d.toNat ⟨BitVec.ofNat 64 v, .full, s.cycle + lat⟩) cost
    let locked : Prop := (∃ r, s.me.almanac.reading = some r ∧ r.forTake = true) ∨ ∃ c off, s.me.almanac.commit = some c ∧ c.why = .take off
    let reading : Prop := ∃ r, s.me.almanac.reading = some r ∧ r.thr = s.ct
    (s.th.st = .booked → ¬ reading → ∀ i ∈ ([.spawn d a, .take d a, .tfin a, .seek d a, .term d] : List Instr),
      s.traps i { cause := 0x0A, det0 := 0x100 }) ∧
    (∃ x t, answers (.dqn d) x 2 1 t ∧ sameMemory s t ∧ bitsOf x 7 0 = min 64 recs.length ∧ bitOf x 8 = s.me.tasks.black ∧
      bitOf x 9 = s.me.tasks.acked ∧ bitOf x 10 = (s.me.tasks.token && decide (s.me.tasks.tokenAt ≤ s.cycle)) ∧
      bitOf x 11 = decide (0 < s.me.tasks.gifts) ∧ bitsOf x 47 16 = epoch % 2 ^ 32) ∧
    (s.th.st ≠ .booked → ¬ reading →
      (∃ t, answers (.term d) (epoch % 2 ^ 32) 1 1 t ∧ t.me.tasks = { s.me.tasks with acked := true, black := false }) ∧
      (s.me.tasks.acked = false → s.traps (.seek d a) { cause := 0x1B }) ∧
      (locked → exec (.spawn d a) s = .next (s.waits (s.cycle + 1)) ∧ exec (.take d a) s = .next (s.waits (s.cycle + 1))) ∧
      (∀ i ∈ ([.spawn d a, .take d a, .tfin a, .seek d a] : List Instr),
        (i = .spawn d a ∨ i = .take d a → ¬ locked) → (i = .seek d a → s.me.tasks.acked = true) →
        (va % 64 ≠ 0 → s.traps i { cause := 0x03, addr := va }) ∧
        (va % 64 = 0 → va < localBase ∨ localBase + 0x100000 ≤ va → s.traps i { cause := 0x05, addr := va }) ∧
        (∀ o, va = localBase + o → o % 64 = 0 → o < 0x100000 → s.me.owner (o / 4096) ≠ 0 → s.traps i { cause := 0x09, addr := va })) ∧
      (∀ o, va = localBase + o → o % 64 = 0 → o < 0x100000 → s.me.owner (o / 4096) = 0 →
        let r := taskOf (memGetN s.me.sram o 64)
        let n := (r.hi + 2 ^ 64 - r.lo) % 2 ^ 64
        let part := (s.myPart.map (·.rect)).getD ⟨1, 1, 0, 0⟩
        (¬ locked →
          (let seeks : Prop := ∃ m, m < 4 ∧ ∃ d l v, (s.me.thr m).block = .seek d l v
           ∀ status, (recs.length = 64 ∨ 64 < recs.length ∨ (recs.length = 63 ∧ seeks) → status = 1) →
            (recs.length < 63 ∨ (recs.length = 63 ∧ ¬ seeks) →
              status = if badRecord part r then 2 else if r.hi = r.lo then 3 else 0) →
            ∃ t, answers (.spawn d a) status 3 2 t ∧ sameMemory s t ∧ t.me.tasks.recs = if status = 0 then recs ++ [r] else recs) ∧
          (recs = [] → ∃ t, answers (.take d a) 0 3 3 t ∧ sameMemory s t ∧ t.me.tasks.recs = []) ∧
          (∀ q b, recs = q ++ [b] →
            let len := taskLen b
            let m := min b.grain len
            let mid := (b.lo + m) % 2 ^ 64
            let left := q ++ (if len ≤ m then [] else [{ b with lo := mid }])
            (b.blist = 0 → ∃ t, answers (.take d a) m 3 3 t ∧ t.me.tasks.recs = left ∧
              memGetN t.me.sram o 64 = taskWord { b with hi := mid, handle := 0 } % 2 ^ 512 ∧ sameButSram s t s.cc o 64) ∧
            (∀ l, b.blist ≠ 0 → b.blist % 2 ^ 52 = localBase + l → l % 8 = 0 → (∀ u, s.me.owner u = 0) → s.helm.moves = [] →
              s.me.almanac.busyUntil ≤ s.cycle → s.me.almanac.commit = none → s.me.almanac.reading = none →
              let words := 1 + headCount (memGetN s.me.sram l 8)
              let ws := (List.range words).map fun j => memGetN s.me.sram (l + 8 * j) 8
              let cost := 19 + 2 * headCount (ws.headD 0) + 4 * listHops s.cc ws
              let slip := if bitOf (ws.headD 0) 33 then ceilDiv (s.th.vslip.toNat % 65536) 8 else 0
              let thr := s.me.matrix.throttle != 0
              let free := (List.range 16).find? fun j => (s.me.booking j).st == .free || (s.me.booking j).st == .lapsed
              let status := (listStatus s.cc part 0 slip thr ws).or ((if free.isNone then some (2, 0) else none).or (throttleStatus thr ws))
              let holds := placeList s.cc slip thr 0 ws
              let start := s.findStart s.cc none holds noBound 70 (8 * ceilDiv (s.cycle + cost + 8) 64)
              l + 8 * words ≤ 0x100000 → l / 64 = (l + 8 * words - 1) / 64 →
              (∀ st k, status = some (st, k) ∨ (status = none ∧ start = none ∧ st = 1) →
                ∃ t, answers (.take d a) (2 ^ 63 + st) cost cost t ∧ sameMemory s t ∧ t.me.tasks.recs = recs) ∧
              (∀ j st, status = none → start = some st → free = some j → (∀ h ∈ holds, h.code ≠ 0x60) →
                let serial := (s.me.almanac.serial + 1) % 256
                let handle := (if thr then 2 ^ 62 else 0) + j % 16 * 2 ^ 56 + serial * 2 ^ 48 + st % 2 ^ 48
                let last := s.cycle + cost - 1
                ∃ t, exec (.take d a) s = .next t ∧ sameMemory s t ∧ t.me.tasks.recs = left ∧
                  t.me.booking j = ⟨.made, serial, st, 0, 0, ws, b.blist % 2 ^ 52, slip, thr, s.ct, holdsAt st holds⟩ ∧
                  t.th = s.after ({ s.th.setGreg d.toNat ⟨BitVec.ofNat 64 m, .full, s.cycle + cost⟩ with
                    work := some ⟨last, [⟨[bankOf o], [(o, 0, 64)]⟩], true, taskWord { b with hi := mid, handle := handle }, .stored, last⟩ }) cost)))) ∧
        (bitOf r.join 63 = false → ∃ t, exec (.tfin a) s = .next t ∧ sameMemory s t ∧ t.th = s.after s.th 2) ∧
        (bitOf r.join 63 = true →
          let at_ := r.join % 2 ^ 20 / 8 * 8
          let home := bitsOf r.join 27 20
          (home = s.cc → s.me.owner (at_ / 4096) ≠ 0 → s.traps (.tfin a) { cause := 0x09, addr := localBase + at_ }) ∧
          (home = s.cc → s.me.owner (at_ / 4096) = 0 → ∃ t, exec (.tfin a) s = .next t ∧ sameMemory s t ∧
            t.th = { s.after s.th 2 with work := some ⟨s.cycle + 1, [⟨[bankOf at_], []⟩], false, 0, .counted at_ n, s.cycle⟩ }) ∧
          (home ≠ s.cc → (s.th.outs.filter fun o => o.kind == .remote && !o.told).length < 64 → s.me.net.replay = none → ∃ t q,
            exec (.tfin a) s = .next t ∧ sameMemory s t ∧ t.th = s.after ({ s.th with outs := s.th.outs ++ [q], serial := s.th.serial + 1 }) 2 ∧
            q.kind = .remote ∧ q.id = s.th.serial ∧ q.dest = .none ∧ q.det0 = 0x40 ∧ q.va = localBase + at_ ∧
            ∃ f, t.mesh = s.mesh ++ [f] ∧ f.flit.dst = .core home ∧ f.flit.load = .request
              ⟨.thread s.cc s.ct (4 * s.th.serial), s.me.ctx, s.cc, s.ct, .core home, .tfin, localBase + at_, 8, n, 0⟩)) ∧
        (s.me.tasks.acked = true → (recs ≠ [] → ∃ t, answers (.seek d a) (2 ^ 61) 1 1 t) ∧
          (recs = [] → s.me.net.replay = none → ∀ v rest, s.ringAfter s.cc = v :: rest → v ≠ s.cc → ∃ t, exec (.seek d a) s = .next t ∧
            t.th = { s.th with block := .seek (s.th.destOf d.toNat) rest v, next := s.cycle + 1 } ∧
            t.me.tasks.asked = s.me.tasks.asked ++ [(s.ct, v)] ∧
            t.mesh = s.mesh ++ [⟨⟨.control, s.cc, s.ct, .core v, .steal v s.cc s.ct⟩, s.cc, 4, s.cycle + 1, false, false, none⟩]))))) ∧
  ∀ (s : State) (w : LocalWork) (off n : Nat), s.th.work = some w → w.left = [⟨[bankOf off], []⟩] → w.fin = .counted off n →
    s.th.st = .booked ∨ s.bankStop (bankOf off) s.cycle = none → s.me.sram.wf = true → off + 8 ≤ 0x100000 → n < 2 ^ 64 →
    let t := s.workStep
    t.th = { s.th with work := none } ∧ sameButSram s t s.cc off 8 ∧
      memGetN t.me.sram off 8 = (memGetN s.me.sram off 8 + 2 ^ 64 - n) % 2 ^ 64 ∧
      ∀ g, (t.me.granFull g = true ↔ s.me.granFull g = true ∨ (g = off / 16 ∧ memGetN t.me.sram off 8 = 0))

/-- R224, R228, R229, R231 to R233: the victim of a steal gives half of a long top record, or the whole of a top record that is not its
last, or refuses, and its answer leaves four cycles later; a gift is pushed once no `take` is booking, acknowledged, and completes the
`seek` that asked for it; after a refusal the next core of the ring is asked. A token passes to the core before as a CT flit; from
core 0 it starts a new round or, come back white, raises TERM: EPOCH counts up, ACKED clears, the threads that are not idle get event bit 3, and
every waiting `seek` completes with bit 62. (Log entry 54: what a core that runs another context answers to a steal.) -/
def Obligations.task_events : Prop :=
  (∀ (s : State) (v th n : Nat), v < 256 → th ≠ v →
    (s.coreAt v).queueLocked = true → exec (.stealRequest v th n) s = .next (s.post (s.cycle + 1) (.stealRequest v th n))) ∧
  (∀ (s : State) (v th n : Nat), v < 256 → th ≠ v → (s.coreAt v).queueLocked = false →
    (s.coreAt v).net.replay = none →
    let flit (load : Payload) : MeshFlit := ⟨⟨.control, v, 4, .core th, load⟩, v, 4, s.cycle + 5, false, false, none⟩
    let refuses : Prop := ∃ t, exec (.stealRequest v th n) s = .next t ∧ (t.coreAt v).tasks = (s.coreAt v).tasks ∧
      t.mesh = s.mesh ++ [flit (.stealRefusal th n v)]
    ((s.coreAt v).ctx ≠ (s.coreAt th).ctx → refuses) ∧ ((s.coreAt v).tasks.recs = [] → refuses) ∧
    ∀ (top : TaskRec) (rest : List TaskRec), (s.coreAt v).ctx = (s.coreAt th).ctx → (s.coreAt v).tasks.recs = top :: rest →
    let len := taskLen top
    let mid := (top.hi + 2 ^ 64 - len / 2) % 2 ^ 64
    let gives (g : TaskRec) (q : List TaskRec) : Prop := ∃ t, exec (.stealRequest v th n) s = .next t ∧ (t.coreAt v).tasks.recs = q ∧
      (t.coreAt v).tasks.gifts = (s.coreAt v).tasks.gifts + 1 ∧ (t.coreAt v).tasks.black = ((s.coreAt v).tasks.black || decide (th < v)) ∧
      t.mesh = s.mesh ++ [flit (.gift th n v g)]
    (bitOf top.flags 0 = true → refuses) ∧
    (bitOf top.flags 0 = false →
      (bitOf top.flags 1 = false → 2 * top.grain ≤ len → gives { top with lo := mid } ({ top with hi := mid } :: rest)) ∧
      (bitOf top.flags 1 = true ∨ len < 2 * top.grain → (rest ≠ [] → gives top rest) ∧ (rest = [] → refuses)))) ∧
  (∀ (s : State) (c v n : Nat) (g : TaskRec), (s.coreAt c).queueLocked = true →
    exec (.giftArrival c n v g) s = .next (s.post (s.cycle + 1) (.giftArrival c n v g))) ∧
  (∀ (s : State) (c : Fin 256) (n : Fin 4) (v : Nat) (g : TaskRec) (d : Dest) (left : List Nat), v ≠ c →
    (s.coreAt c).queueLocked = false → (s.coreAt c).net.replay = none → ((s.coreAt c).thr n).block = .seek d left v →
    (s.coreAt c).tasks.asked = [(n.val, v)] →
    let ends (t : State) (x : Nat) : Prop :=
      let y := (s.coreAt c).thr n
      let z : Thread := { y.setDest d .full x (s.cycle + 1) with block := .none }
      (t.coreAt c).thr n = z.went (y.pc + 1) (s.cycle + 1) (s.steps c n) ∧ (t.coreAt c).tasks.asked = []
    (∃ t, exec (.giftArrival c n v g) s = .next t ∧ (t.coreAt c).tasks.recs = (s.coreAt c).tasks.recs ++ [g] ∧ ends t (taskLen g % 2 ^ 32) ∧
      t.mesh = s.mesh ++ [⟨⟨.control, c, 4, .core v, .giftAck v⟩, c, 4, s.cycle + 1, false, false, none⟩]) ∧
    ((s.coreAt c).tasks.recs ≠ [] → ∃ t, exec (.stealRefusal c ⟨n, v⟩) s = .next t ∧ ends t (2 ^ 61)) ∧
    (∀ w rest, (s.coreAt c).tasks.recs = [] → (if left = [] then s.ringAfter c else left) = w :: rest → w ≠ c →
      ∃ t, exec (.stealRefusal c ⟨n, v⟩) s = .next t ∧ ((t.coreAt c).thr n).block = .seek d rest w ∧ (t.coreAt c).tasks.asked = [(n.val, w)] ∧
      t.mesh = s.mesh ++ [⟨⟨.control, c, n, .core w, .steal w c n⟩, c, 4, s.cycle + 1, false, false, none⟩])) ∧
  (∀ (s : State) (c : Nat), c < 256 → ∃ t, exec (.giftAck c) s = .next t ∧ sameMemory s t ∧
    (t.coreAt c).tasks.gifts = (s.coreAt c).tasks.gifts - 1 ∧ (t.coreAt c).tasks.recs = (s.coreAt c).tasks.recs) ∧
  (∀ (s : State) (p : Nat) (q : Partition) (c : Nat), p < 16 → s.partAt p = some q → (∀ p', p' ≠ p → s.partAt p' = none) → c ∈ q.rect.cores →
    s.tokenMoves c = true → (∀ x, x ≠ c → s.tokenMoves x = false) → (∀ x ∈ q.rect.cores, (s.coreAt x).ctx = (s.coreAt c).ctx) →
    let x := (s.coreAt c).tasks
    let sends (b : Nat) (black : Bool) : Prop := ∃ t, exec .tokenForward s = .next t ∧ sameMemory s t ∧
      (t.coreAt c).tasks = { x with token := false, tokenNew := false, black := false } ∧
      t.mesh = s.mesh ++ [⟨⟨.control, c, 4, .core b, .token (s.coreAt c).ctx black⟩, c, 4, s.cycle + 1, false, false, none⟩]
    (∀ i b, q.rect.cores.idxOf c = i + 1 → q.rect.cores[i]? = some b → sends b (x.tokenBlack || x.black)) ∧
    (q.rect.cores.idxOf c = 0 →
      (x.tokenNew = true ∨ x.tokenBlack = true ∨ x.black = true →
        (∀ b, q.rect.cores.getLast? = some b → b ≠ c → sends b false) ∧
        (q.rect.cores = [c] → ∃ t, exec .tokenForward s = .next t ∧ sameMemory s t ∧ (t.coreAt c).tasks =
          { x with token := true, tokenNew := false, tokenBlack := false, black := false, tokenAt := s.cycle + 2 })) ∧
      (x.tokenNew = false → x.tokenBlack = false → x.black = false → ∃ t, exec .tokenForward s = .next t ∧ sameMemory s t ∧
        (t.partAt p).map (·.epoch) = some ((q.epoch + 1) % 2 ^ 32) ∧ (t.coreAt c).tasks.token = true ∧ (t.coreAt c).tasks.tokenNew = true ∧
        ∀ k ∈ q.rect.cores, (t.coreAt k).tasks.acked = false ∧ ∀ n, n < 4 →
          let y := (s.coreAt k).thr n
          let z : Thread := if y.st = .idle then y else { y with evpend := y.evpend ||| 8 }
          ((∀ d l v, y.block ≠ .seek d l v) → (t.coreAt k).thr n = z) ∧
          ∀ d l v, y.block = .seek d l v →
            let w : Thread := { z.setDest d .full (2 ^ 62) (s.cycle + 1) with block := .none }
            (t.coreAt k).thr n = w.went (y.pc + 1) (s.cycle + 1) (s.steps k n)))) ∧
  ∀ (s : State) (a c ctx : Nat) (black : Bool), c < 256 → (s.coreAt c).ctx = ctx →
    ((s.deliver ⟨.control, a, 4, .core c, .token ctx black⟩).coreAt c).tasks =
      { (s.coreAt c).tasks with token := true, tokenBlack := black, tokenNew := false, tokenAt := s.cycle + 1 }

/-! ### System instructions -/

/-- R366 to R371: `trap` and `brk` raise SWTRAP and BREAK; `eret` raises PRIV in user state, and leaves privileged state at the resume word's
PC, with a handle only where it names a booking Made that can still be armed, which it arms, and otherwise answers why not; `halt` makes an
open thread without work idle, in booked mode after ending its booking, stops a handler and otherwise waits; a halt of a BAR2
record's thread sends its completion; `sysc` leaves its register empty and sends the call, BOOKV in booked mode, and the helm answers INFO,
ATTEST and FAULTIN by a flit that fills the register; `trc` makes a record only where the debug control enables it, and waits in open mode for
a place in the ring. (When a halt that waited ends and what its streams become, log entries 21 and 73; that the call, its answer and a
completion are CT flits from and to (8, 0) and (7, 0), log entry 83; what FAULTIN judges first and which frame it takes, log entry 28.) -/
def Obligations.system_instructions : Prop :=
  (∀ (s : State) (d a b : GReg) (ea eb : Bool) (q : Pred) (n : BitVec 5), s.th.pred q = true →
    s.usable [.rg a ea, .rg b eb, .wg d] →
    let r := (s.readG a).toNat
    let h := (s.readG b).toNat
    exec (.trap a b ea eb q) s = .next (takeTrap { cause := 0x13, det0 := r, det1 := h } s) ∧
    exec (.brk n q) s = .next (takeTrap { cause := 0x11, det0 := n.toNat } s) ∧
    (s.th.priv = false → exec (.eret d a b ea eb q) s = .next (takeTrap { cause := 0x02 } s)) ∧
    (s.th.priv = true →
      (2 ^ 15 ≤ r → s.traps (.eret d a b ea eb q) { cause := 0x18, det0 := 23, det1 := r }) ∧
      (r < 2 ^ 15 →
        let back : Thread := { s.th with priv := false, pc := (s.readG a).extractLsb' 0 14,
                                         wskip := if bitOf r 14 then some ((s.readG a).extractLsb' 0 14) else none,
                                         retired := s.th.retired + 1, since := none, next := s.cycle + 2 }
        let answers (x : Nat) : Prop := ∃ t, exec (.eret d a b ea eb q) s = .next t ∧ sameMemory s t ∧
          t.th = s.after (s.th.setGreg d.toNat ⟨BitVec.ofNat 64 x, .full, s.cycle + 2⟩) 2
        (b = 0 → ∃ t, exec (.eret d a b ea eb q) s = .next t ∧ sameMemory s t ∧ t.th = back) ∧
        (b ≠ 0 →
          (s.me.handleSlot h = none → answers 2) ∧
          (∀ i, s.me.handleSlot h = some i →
            let x := s.me.booking i
            (x.st = .lapsed → answers 1) ∧ (x.st ≠ .lapsed → x.st ≠ .made → answers 2) ∧
            (x.st = .made → (8 * x.start + x.kappa - x.k0 < s.cycle + 2 → answers 1) ∧
              (s.cycle + 2 ≤ 8 * x.start + x.kappa - x.k0 → ∃ t, exec (.eret d a b ea eb q) s = .next t ∧ sameMemory s t ∧
                t.th = { back with st := .armed, slot := some i } ∧ t.me.booking i = { x with st := .armed })))))) ∧
    (s.th.priv = true → ∃ t, exec (.halt a ea q) s = .next t ∧ sameMemory s t ∧ t.th =
      { s.th with st := .stopped, left := .run, pc := s.th.pc + 1, retired := s.th.retired + 1, since := none, wskip := none,
                  next := s.cycle + 1 }) ∧
    (s.th.priv = false →
      (∀ e, s.th.poisonStop = some (.trap e) → s.traps (.halt a ea q) e) ∧
      (s.th.poisonStop = none → (∀ e, s.th.refusalStop = some (.trap e) → s.traps (.halt a ea q) e) ∧
      (s.th.refusalStop = none →
        let ends (t : State) : Prop := exec (.halt a ea q) s = .next t ∧ sameMemory s t ∧ t.th.st = .idle ∧ t.th.slot = none ∧ t.th.tag = none ∧
          t.th.g = s.th.g ∧ t.th.retired = s.th.retired + 1 ∧ (s.cycle + 1, .launchQueueStart) ∈ t.agenda
        (s.th.st ≠ .booked →
          (s.threadBusy = true → exec (.halt a ea q) s = .next s.drains) ∧
          (s.threadBusy = false →
            (∀ k, s.th.since = some k → exec (.halt a ea q) s = .next (s.modTh fun th => { th with since := none, next := s.cycle + 1 })) ∧
            (s.th.since = none →
              (s.th.tag = none → ∃ t, ends t ∧ t.mesh = s.mesh) ∧
              (∀ tag, s.th.tag = some tag → s.me.net.replay = none → ∃ t, ends t ∧
                t.host.coming = s.host.coming ++ [(s.serial, ⟨tag, 2, 0, s.me.ctx, r, s.ssOf s.cc, s.cc, s.ct, s.cycle⟩, false)] ∧
                t.mesh = s.mesh ++ [⟨⟨.control, s.cc, 4, .host, .completion s.serial⟩, s.cc, 4, s.cycle + 1, false, false, none⟩])))) ∧
        (∀ i, s.th.st = .booked → s.th.slot = some i → i < 16 → s.th.since = none →
          (s.threadBusy = true → ∃ t, exec (.halt a ea q) s = .next t ∧ sameMemory s t ∧ t.th.st = .run ∧ t.th.slot = none ∧
            t.th.pc = s.th.pc ∧ t.th.next = s.cycle + 1 ∧ (t.me.booking i).st = .free) ∧
          (s.threadBusy = false → s.th.tag = none → ∃ t, ends t ∧ (t.me.booking i).st = .free))))) ∧
    (s.th.st = .booked → s.traps (.sysc d a b ea eb q) { cause := 0x0A, det0 := 0x100 }) ∧
    (s.th.st ≠ .booked → s.me.net.replay = none → ∃ t, exec (.sysc d a b ea eb q) s = .next t ∧ sameMemory s t ∧
      t.th = s.after (s.th.setDest (s.th.destOf d.toNat) .empty 0 0) 1 ∧
      t.mesh = s.mesh ++ [⟨⟨.control, s.cc, s.ct, .helm, .call s.cc s.ct s.me.ctx (r % 256) h (s.th.destOf d.toNat)⟩, s.cc, 4, s.cycle + 1,
        false, false, none⟩]) ∧
    ((s.ctxOf s.me.ctx).dbg = false ∨ bitOf s.me.dbgctl.toNat (20 + s.ct) = false →
      exec (.trc a b ea eb q) s = .next (s.completes 1 id)) ∧
    ((s.ctxOf s.me.ctx).dbg = true → bitOf s.me.dbgctl.toNat (20 + s.ct) = true →
      (s.th.st = .booked ∨ (s.ctxOf s.me.ctx).ringFull = false → exec (.trc a b ea eb q) s = .next ((s.noteRecord
        (s.traceRecord s.cc s.ct (s.fetchWord s.cc s.ct).toNat r h)).completes 1 id)) ∧
      (s.th.st ≠ .booked → (s.ctxOf s.me.ctx).ringFull = true → ∃ t, exec (.trc a b ea eb q) s = .next t ∧ sameMemory s t ∧
        t.th = { s.th with since := some (s.th.since.getD s.cycle), next := s.cycle + 1 } ∧
        (s.th.since = none → (s.cycle + 8500, .ringStallRelief) ∈ t.agenda)))) ∧
  (∀ (s : State) (c ctx f arg : Nat) (n : Nat) (dst : Dest), c < 256 →
    let answer (x : Nat) : MeshFlit := ⟨⟨.control, 8, 4, .core c, .reply (.helm c n ctx dst) x⟩, 8, 0, s.cycle + 1, false, false, none⟩
    let gives (x : Nat) : Prop := ∃ t, exec (.syscService c n ctx f arg dst) s = .next t ∧ sameMemory s t ∧ t.mesh = s.mesh ++ [answer x]
    let va := arg % 2 ^ 52
    let x := s.ctxOf ctx
    (f = 0 → gives (s.host.devid % 1024 + (s.partOf c).getD 0 % 16 * 2 ^ 16 + ctx % 2 ^ 16 * 2 ^ 20)) ∧
    (2 < f → gives (2 ^ 64 - 1)) ∧
    (f = 1 → s.anyMoving c ctx va 256 = false →
      (s.placesOf c ctx va 256 = none → gives 1) ∧
      (s.placesOf c ctx va 256 ≠ none →
        let report := s.attestation x ((s.helmRead c ctx va 256).drop 144 |>.take 32)
        let w := s.helmWrite c ctx va report
        exec (.syscService c n ctx f arg dst) s = .next { w with mesh := w.mesh ++ [answer 0] })) ∧
    (f = 2 →
      (isLocal va = true ∨ va < x.fiBase ∨ x.fiLim ≤ va → gives 1) ∧
      (isLocal va = false → x.fiBase ≤ va → va < x.fiLim →
        let root := bitsOf x.ptbase.toNat 39 16 * 65536
        let need := tablesLacking s.offstack va 4 0 root + 1
        ((s.leaf ctx va).isSome → gives 0) ∧
        (s.leaf ctx va = none → x.poolFree.length < need → gives 1) ∧
        ∀ (tables : List Nat) (page : Nat) (later : List Nat) (m : Memory), s.leaf ctx va = none → tables.length + 1 = need →
          x.poolFree = tables ++ page :: later →
          mapPage (2 ^ 63 + 3 * 2 ^ 57 + page * 65536) va 4 0 root tables ((tables ++ [page]).foldl zeroFrame s.offstack) = some m →
          let u := ({ s with offstack := m }.modCtx ctx fun x => { x with poolFree := x.poolFree.drop need }).signalParked ctx va
          exec (.syscService c n ctx f arg dst) s = .next { u with mesh := u.mesh ++ [answer 0] }))) ∧
  ∀ (s : State) (c x m : Nat) (n : Fin 4), c < 256 → m < 32 → ((s.coreAt c).thr n).imaged = none →
    ∃ t, exec (.replyArrival (.helm c n (s.coreAt c).ctx (.g m)) x) s = .next t ∧ sameMemory s t ∧
      ((t.coreAt c).thr n).g[m]? = some ⟨BitVec.ofNat 64 x, .full, s.cycle + 1⟩

/-- R12, R17, R55, R96, R131, R132, R358, Tables 2.2 and 14.1: the control-register forms read the register into GD with latency 1; the writing
forms store the register's writable bits, SPBASE, SPSIZE and OVFP in privileged state only; a number above 0x3FF raises PRIV in user
state, an unassigned one ILLEGAL; an access of FPSR waits for the thread's SFU results. Every assigned register reads as its map says.
(A core- or partition-scope write takes effect from the next cycle, R374: that it does so between two cycles, and that LOST is cleared where a 1
is written to it by `csrs` too, log entry 26; CTXID of a core without a context, log entry 9.) -/
def Obligations.control_registers : Prop :=
  (∀ (s : State) (d a : GReg) (n : BitVec 11), s.usable [.rg a false, .wg d] → s.me.net.replay = none →
    let num := n.toNat
    let old := s.csrGet num
    let x := s.ctxOf s.me.ctx
    let forms : List Instr := [.csrr d n, .csrw d a n, .csrs d a n, .csrc d a n]
    let quiet : Prop := ∀ o ∈ s.me.sfu.ops ++ s.me.sfu.removed, o.thr ≠ s.ct
    let leavesAnd (i : Instr) (f : Thread → Thread) (p : State → Prop) : Prop := ∃ t, exec i s = .next t ∧ sameMemory s t ∧
      t.th = s.after ((f s.th).setGreg d.toNat ⟨BitVec.ofNat 64 old, .full, s.cycle + 1⟩) 1 ∧ p t
    let leaves (i : Instr) (f : Thread → Thread) : Prop := leavesAnd i f fun t => t.csrs = s.csrs ∧ t.ctxs = s.ctxs ∧ t.parts = s.parts
    (0x400 ≤ num → s.th.priv = false → ∀ i ∈ forms, exec i s = .next (takeTrap { cause := 0x02 } s)) ∧
    (num < 0x400 ∨ s.th.priv = true → csrAssigned num = false → ∀ i ∈ forms,
      exec i s = .next (takeTrap { cause := 0x01, det0 := 9, det1 := 5 } s)) ∧
    (num = 1 → ¬ quiet → ∀ i ∈ forms,
      (s.th.st ≠ .booked → exec i s = .next (s.waits (s.cycle + 1))) ∧ (s.th.st = .booked → s.traps i { cause := 0x0B, replay := true })) ∧
    (num < 0x400 ∨ s.th.priv = true → csrAssigned num = true → (num = 1 → quiet) →
      leaves (.csrr d n) id ∧ (a = 0 → leaves (.csrs d a n) id ∧ leaves (.csrc d a n) id)) ∧
    (∀ i v, (i, v) ∈ ([(.csrw d a n, s.readG a), (.csrs d a n, BitVec.ofNat 64 old ||| s.readG a),
        (.csrc d a n, BitVec.ofNat 64 old &&& ~~~(s.readG a))] : List (Instr × Word)) → (a ≠ 0 ∨ i = .csrw d a n) →
      (num = 1 → quiet → leaves i fun th => { th with fpsr := v &&& 0x1F3 }) ∧
      (num = 7 → leaves i fun th => { th with evpend := v &&& 0x7F }) ∧
      (num = 0x10 → leaves i fun th => { th with vslip := v &&& 0xFFFF }) ∧
      (num = 0x11 → leaves i fun th => { th with lslip := v &&& 0xFFFF }) ∧
      (2 ≤ num ∧ num ≤ 6 ∨ num = 0x12 → leaves i id) ∧
      (num = 0x20 → leaves i fun th => if th.priv then { th with spbase := v &&& 0xFFFC0 } else th) ∧
      (num = 0x21 → leaves i fun th => if th.priv then { th with spsize := BitVec.ofNat 64 (min 0x100000 (v &&& 0x1FFFC0).toNat) } else th) ∧
      (num = 0x22 → leaves i fun th => if th.priv then { th with ovfp := v &&& 0xFFFFFFFFFFFC0 } else th) ∧
      (s.th.priv = true →
        (0x430 ≤ num ∧ num ≤ 0x433 → leaves i id) ∧
        (0x440 ≤ num ∧ num ≤ 0x444 → x.dbg = false → leaves i id) ∧
        ((∀ c t r k w, (s.thrAt c t).block ≠ .ring r k w) →
          let sets (y : Ctx) : Prop := leavesAnd i id fun t => t.ctxOf s.me.ctx = y ∧ t.csrs = s.csrs ∧ t.parts = s.parts ∧
            ∀ o, o ≠ s.me.ctx → t.ctxOf o = s.ctxOf o
          (num = 0x401 → sets { x with trbase := v &&& 0xFFFFFFFFFFFC0 }) ∧
          (num = 0x402 → sets { x with trsize := BitVec.ofNat 64 (min 16 (max 4 (v.toNat % 32))) }) ∧
          (num = 0x403 → sets { x with trprod := v &&& 0xFFFFFFFF }) ∧
          (num = 0x404 → sets { x with trcons := v &&& 0xFFFFFFFF, consAt := if x.trcons = v &&& 0xFFFFFFFF then x.consAt else s.cycle }) ∧
          (num = 0x405 → sets { x with lostcnt := bitsOf v.toNat 31 16, lost := x.lost && !v.getLsbD 1 }) ∧
          (num = 0x406 → sets { x with fatalslot := v &&& 0xFFFFFFFFFFFC0 }) ∧
          (num = 0x450 → sets { x with ptbase := v &&& 0xFFFFFF0000 })) ∧
        (num = 0x400 ∨ (0x410 ≤ num ∧ num ≤ 0x427) ∨ (0x440 ≤ num ∧ num ≤ 0x444 ∧ x.dbg = true) ∨ num = 0x460 →
          leavesAnd i id fun t => t.csrs = s.csrs ++ [(s.cc, num, v.toNat)] ∧ t.csrGet num = old ∧ t.ctxs = s.ctxs ∧ t.parts = s.parts))) ∧
    (∀ k v, (k, v) ∈ ([(1, s.th.fpsr.toNat), (2, s.cycle % 2 ^ 64), (3, s.cycle % 2 ^ 64 / 8), (4, s.ct + 4 * s.cc), (5, s.me.ctx), (6, s.ssOf s.cc),
        (7, s.th.evpend.toNat), (0x10, s.th.vslip.toNat), (0x11, s.th.lslip.toNat), (0x12, s.me.bookIdOf s.th), (0x20, s.th.spbase.toNat),
        (0x21, s.th.spsize.toNat), (0x22, s.th.ovfp.toNat), (0x400, s.me.tvec.toNat), (0x401, x.trbase.toNat), (0x402, x.trsize.toNat),
        (0x403, x.trprod.toNat), (0x404, x.trcons.toNat),
        (0x405, (if x.fatal then 1 else 0) + (if x.lost then 2 else 0) + x.lostcnt % 2 ^ 16 * 2 ^ 16 + (if x.stopped then 2 ^ 32 else 0) +
          (if x.dbg then 2 ^ 33 else 0)),
        (0x406, x.fatalslot.toNat), (0x433, cutTo 16 s.me.dramTemp + cutTo 16 (s.me.sensor 0).temp * 2 ^ 16 + s.me.matrix.throttle % 4 * 2 ^ 32 +
          (if s.me.vault.hot then 2 ^ 34 else 0)),
        (0x440, if x.dbg then s.me.dbgctl.toNat else 0), (0x450, x.ptbase.toNat)] : List (Nat × Nat)) → num = k → old = v) ∧
    (∀ j, j < 8 → (num = 0x410 + j → old = (s.me.window j).1.toNat) ∧ (num = 0x418 + j → old = (s.me.window j).2.1.toNat) ∧
      (num = 0x420 + j → old = (s.me.window j).2.2.toNat)) ∧
    (∀ j, j < 3 → num = 0x430 + j → old = cutTo 16 (s.me.sensor j).temp + (if (s.me.sensor j).fail then 2 ^ 16 else 0) +
      (if (s.me.sensor j).subst then 2 ^ 17 else 0)) ∧
    (∀ j w, j < 4 → num = 0x441 + j → s.me.watch[j]? = some w → old = if x.dbg then w.toNat else 0) ∧
    ∀ q, num = 0x460 → s.myPart = some q → old = q.imbring.toNat) ∧
  ∀ (s : State) (c : Fin 256) (num v : Nat), s.csrs = [(c.val, num, v)] → v < 2 ^ 64 →
    let t := s.applyCsrs
    let w (mask : Nat) : Word := BitVec.ofNat 64 v &&& BitVec.ofNat 64 mask
    let k := s.coreAt c
    t.csrs = [] ∧ sameMemory s t ∧
    (num = 0x400 → t.coreAt c = { k with tvec := BitVec.ofNat 64 (v % 2 ^ 40 / 2 ^ 34 * 2 ^ 34 + max 0x3C00 (v % 2 ^ 14)) }) ∧
    (∀ j, j < 8 →
      (num = 0x410 + j → (t.coreAt c).window j = (w 0xFFFFFFFFFFFC0, (k.window j).2)) ∧
      (num = 0x418 + j → (t.coreAt c).window j = ((k.window j).1, w 0xFFFFFFFFFFFC0, (k.window j).2.2)) ∧
      (num = 0x420 + j → (t.coreAt c).window j = ((k.window j).1, (k.window j).2.1, w 0xFFFF009F))) ∧
    (num = 0x440 → t.coreAt c = { k with dbgctl := w 0xF0FF0002 }) ∧
    (∀ j, j < 4 → num = 0x441 + j → (t.coreAt c).watch[j]? = some (w 0xFF0FFFFFFFFFFFFF)) ∧
    ∀ p q, num = 0x460 → s.partOf c = some p → s.partAt p = some q → p < 16 →
      t.partAt p = some { q with imbring := w 0x80FFFFFFFFFFFFE0 }

/-! ### Exceptions -/

/-- R14, R52, R150, R206, R306, R359, R362 to R365, Tables 14.2 and 14.3: an exception in user state ends the thread's booking, withdraws its
unstarted special-function entries, stores its record in the ring slot of its sequence number and holds the thread; where the ring is
full it waits for a place; when the store is acknowledged the handler is entered: privileged state, the PC at TVEC.ENTRY, and hg1 and
hg3 to hg7 as Table 14.2 gives them: hg6 the task cycle and hg7 the list of the booking that ended. Registers and memory are as
before, but for a poisoned register that the exception clears. (A PAGE record is replayable, log entry 14; a slot that does not translate
drops the record and the handler is entered in the next cycle, log entry 13.) -/
def Obligations.exception_entry : Prop :=
  (∀ (s : State) (e : Exc), s.th.priv = false → e.cause ≠ 0x1F → e.cause < 2 ^ 16 → (∀ i, s.th.slot = some i → i < 16) →
    let x := s.ctxOf s.me.ctx
    let seq := x.trprod.toNat % 2 ^ 32
    let src := e.source.getD s.ct
    let flags := (if e.replay = true ∨ e.cause = 4 then 1 else 0) + (if 0 < s.th.refLost then 4 else 0) + (if e.after then 8 else 0)
    let lost := if x.lostBefore = true ∧ s.th.refLost = 0 then 4 else 0
    let skip := if s.th.wskip = some s.th.pc then 2 ^ 14 else 0
    let kappa := match s.th.slot with
      | some i => (s.cycle + (s.me.booking i).k0 + 2 ^ 64 - 8 * (s.me.booking i).start) % 2 ^ 64
      | none => 2 ^ 64 - 1
    let list := match s.th.slot with
      | some i => (s.me.booking i).va
      | none => 0
    let t := takeTrap e s
    let leftAs (b : Block) : Prop := t.th = { s.th.excEffect e.effect with st := .run, slot := none, refLost := 0, since := none, stepDue := false,
                                                                            block := b } ∧ sameMemory s t ∧
      (∀ i, s.th.slot = some i → (t.me.booking i).st = .free) ∧ (∀ o ∈ t.me.sfu.ops, o.thr = s.ct → o.started.isSome) ∧
      (∀ o ∈ s.me.sfu.ops, o.thr = s.ct → o.started = none → o ∈ t.me.sfu.removed)
    s.me.net.replay = none →
      (x.ringFull = true → leftAs (.ring (s.excRecord e) ⟨s.th.pc.toNat + skip, 0, e.cause + flags * 2 ^ 16, kappa, list⟩ s.cycle) ∧
        (s.cycle + 8500, .ringStallRelief) ∈ t.agenda) ∧
      (x.ringFull = false →
        ((∀ pa, s.translate s.cc s.me.ctx (x.slotVa seq) true true ≠ .offstack pa) →
          leftAs (.record ⟨s.th.pc.toNat + skip, x.slotVa seq, e.cause + flags * 2 ^ 16, kappa, list⟩) ∧ t.mesh = s.mesh ∧
          t.ctxOf s.me.ctx = { x with lostcnt := min 65535 (x.lostcnt + 1), lost := true, lostBefore := true } ∧
          (s.cycle + 1, .handlerEntry s.cc s.ct) ∈ t.agenda) ∧
        ∀ pa, s.translate s.cc s.me.ctx (x.slotVa seq) true true = .offstack pa →
          leftAs (.record ⟨s.th.pc.toNat + skip, x.slotVa seq, e.cause + (flags + lost) * 2 ^ 16, kappa, list⟩) ∧
          t.ctxOf s.me.ctx = { x with trprod := BitVec.ofNat 64 ((seq + 1) % 2 ^ 32), lostBefore := false } ∧
          (∃ m w, t.mesh = s.mesh ++ [m] ∧ m.flit.dst = .off (ctrlOf pa) ∧
            m.flit.load = .request ⟨.record s.cc s.ct, s.me.ctx, s.cc, if src < 4 then src else 4, .off (ctrlOf pa), .put, pa, 64, w, 0⟩ ∧
            bitsOf w 15 0 = e.cause ∧ bitsOf w 23 16 = flags + lost ∧ bitsOf w 31 24 = src % 2 ^ 8 ∧ bitsOf w 39 32 = s.cc % 16 ∧
            bitsOf w 47 40 = s.cc / 16 ∧ bitsOf w 63 48 = s.me.ctx % 2 ^ 16 ∧ bitsOf w 127 64 = (e.pc.getD s.th.pc.toNat) % 2 ^ 14 ∧
            bitsOf w 191 128 = e.addr % 2 ^ 64 ∧ bitsOf w 223 192 = (s.fetchWord s.cc s.ct).toNat ∧ bitsOf w 255 224 = s.ssOf s.cc % 2 ^ 32 ∧
            bitsOf w 319 256 = s.cycle % 2 ^ 64 ∧ bitsOf w 383 320 = e.det0 % 2 ^ 64 ∧ bitsOf w 447 384 = e.det1 % 2 ^ 64 ∧
            bitsOf w 479 448 = s.me.bookIdOf s.th % 2 ^ 32 ∧ bitsOf w 511 480 = seq))) ∧
  ∀ (s : State) (c : Nat) (n : Fin 4) (h : HandlerArgs), c < 256 → ((s.coreAt c).thr n).block = .record h → ((s.coreAt c).thr n).priv = false →
    let x := (s.coreAt c).thr n
    let tv := (s.coreAt c).tvec.toNat
    ∃ t, exec (.handlerEntry c n) s = .next t ∧ sameMemory s t ∧
      let y := (t.coreAt c).thr n
      y.priv = true ∧ y.pc = BitVec.ofNat 14 (tv % 2 ^ 14) ∧ y.block = .none ∧ y.next = s.cycle + 1 ∧ y.wskip = none ∧
      y.g = x.g ∧ y.v = x.v ∧ y.p = x.p ∧ y.fpsr = x.fpsr ∧ y.st = x.st ∧
      y.hg[0] = Reg.of (BitVec.ofNat 64 h.resume) ∧ y.hg[1] = x.hg[1] ∧ y.hg[2] = Reg.of (BitVec.ofNat 64 h.record) ∧
      y.hg[3] = Reg.of (BitVec.ofNat 64 (localBase + bitsOf tv 39 20 + 4096 * n)) ∧ y.hg[4] = Reg.of (BitVec.ofNat 64 h.cause) ∧
      y.hg[5] = Reg.of (BitVec.ofNat 64 h.kappa) ∧ y.hg[6] = Reg.of (BitVec.ofNat 64 h.list) ∧ y.hg[7] = x.hg[7]

/-- R25, R206, R360, R365, R366, R380, R381: an exception in privileged state, or FATAL_UE, is fatal to its context: it is journalled and
stored in the fatal slot, the context is marked, and the stop of its partitions is on its way; a second one is only journalled and
counted lost. A halt tree stops every thread of the partition at an instruction boundary, releases the ticks of its booking, and leaves
the cores' stop records, and each initiation gives one GANG record; a record that finds the ring full is lost, which LOSTCNT and LOST
count. Every instruction of a stepped thread that retires raises STEP in place of the next one. A ring that stays full for 8,500 cycles loses its
oldest record, and a waiting thread's record takes the place. (That a thread stopped in a booked task keeps its slot, log entry 88; how
soon within 64 cycles a halt tree stops, log entry 18.) -/
def Obligations.fatal_and_stops : Prop :=
  (∀ (s : State) (e : Exc), s.th.priv = true ∨ e.cause = 0x1F → e.cause < 2 ^ 16 → s.me.net.replay = none →
    let x := s.ctxOf s.me.ctx
    let t := takeTrap e s
    let va := bitsOf x.fatalslot.toNat 51 6 * 64
    let flags := (if e.replay = true ∨ e.cause = 4 then 1 else 0) + 2 + (if 0 < s.th.refLost then 4 else 0) + (if e.after then 8 else 0)
    sameMemory s t ∧ t.th.priv = s.th.priv ∧ t.th.st = .run ∧ t.th.slot = none ∧
    (∃ j, t.helm.journal = s.helm.journal ++ [j] ∧ j.kind = 1 ∧ j.ctx = s.me.ctx ∧ j.core = s.cc ∧ j.a = e.cause) ∧
    (x.fatal = true → t.mesh = s.mesh ∧ (∃ h, t.th.block = .record h) ∧
      t.ctxOf s.me.ctx = { x with lostcnt := min 65535 (x.lostcnt + 1), lost := true, lostBefore := true }) ∧
    (x.fatal = false →
      (∃ h, t.th.block = .record h ∧ h.resume % 2 ^ 14 = s.th.pc.toNat ∧ h.cause = e.cause + flags * 2 ^ 16 ∧
        (t.ctxOf s.me.ctx).fatal = true ∧ (t.ctxOf s.me.ctx).fatalBy = some (s.cc, s.ct, { h with record := va })) ∧
      ((∀ pa, s.translate s.cc s.me.ctx va true true ≠ .offstack pa) → t.mesh = s.mesh ∧ (t.ctxOf s.me.ctx).lost = true ∧
        (t.ctxOf s.me.ctx).lostcnt = min 65535 (x.lostcnt + 1)) ∧
      (∀ pa, s.translate s.cc s.me.ctx va true true = .offstack pa → (t.ctxOf s.me.ctx).lostcnt = x.lostcnt ∧ ∃ m w, t.mesh = s.mesh ++ [m] ∧
        m.flit.dst = .off (ctrlOf pa) ∧ m.flit.load = .request ⟨.none, s.me.ctx, s.cc, 4, .off (ctrlOf pa), .put, pa, 64, w, 0⟩ ∧
        bitsOf w 15 0 = e.cause ∧ bitsOf w 23 16 = flags ∧ bitsOf w 511 480 = s.helm.journal.length % 2 ^ 32) ∧
      ∀ p ∈ s.partsOf s.me.ctx, ∃ due, s.cycle ≤ due ∧ due ≤ s.cycle + 64 ∧ (due, .haltTreeStop p 2 s.cycle) ∈ t.agenda)) ∧
  (∀ (s : State) (p reason init : Nat) (q : Partition), s.partAt p = some q → p < 16 →
    let origin := 16 * q.rect.y0 + q.rect.x0
    let ctx := if (s.coreAt origin).ctx = 0 then q.ctxs.headD 0 else (s.coreAt origin).ctx
    let x := s.ctxOf ctx
    let seq := x.trprod.toNat % 2 ^ 32
    ∃ t, exec (.haltTreeStop p reason init) s = .next t ∧ sameMemory s t ∧
      (t.partAt p).map (fun q => (q.stopped, q.stopReason)) = some (true, some (reason, init)) ∧ (∀ id ∈ q.ctxs, (t.ctxOf id).stopped = true) ∧
      (q.stopped = true → ∀ c, c < 256 → (t.coreAt c).threads = (s.coreAt c).threads ∧ (t.coreAt c).stop = (s.coreAt c).stop) ∧
      (q.stopped = false → ∀ c ∈ q.rect.cores,
        let k := s.coreAt c
        (t.coreAt c).stop = some ⟨s.cycle, s.ssOf c, k.net.sent, k.net.received, (List.range 4).map fun n =>
          ((k.thr n).pc.toNat, (k.thr n).st, k.bookIdOf (k.thr n))⟩ ∧
        ∀ n, n < 4 →
          let y := k.thr n
          (y.st = .idle ∨ y.st = .stopped → (t.coreAt c).thr n = y) ∧
          (y.st ≠ .idle → y.st ≠ .stopped → (t.coreAt c).thr n = { y with st := .stopped, left := y.st, timer := none, since := none } ∧
            ∀ i, y.slot = some i → i < 16 → ((t.coreAt c).booking i).holds = [])) ∧
      (ctx ≠ 0 → (s.coreAt origin).net.replay = none →
        (x.ringFull = true → t.mesh = s.mesh ∧ (t.ctxOf ctx).lost = true ∧ (t.ctxOf ctx).lostBefore = true ∧
          (t.ctxOf ctx).lostcnt = min 65535 (x.lostcnt + 1)) ∧
        (∀ pa, x.ringFull = false → s.translate origin ctx (x.slotVa seq) true true = .offstack pa →
          (t.ctxOf ctx).trprod = BitVec.ofNat 64 ((seq + 1) % 2 ^ 32) ∧ ∃ m w, t.mesh = s.mesh ++ [m] ∧ m.flit.dst = .off (ctrlOf pa) ∧
          m.flit.load = .request ⟨.none, ctx, origin, 4, .off (ctrlOf pa), .put, pa, 64, w, 0⟩ ∧ bitsOf w 15 0 = 0x19 ∧ bitsOf w 31 24 = 9 ∧
          bitsOf w 319 256 = s.cycle % 2 ^ 64 ∧ bitsOf w 383 320 = reason % 2 ^ 64 ∧ bitsOf w 447 384 = init % 2 ^ 64 ∧ bitsOf w 511 480 = seq))) ∧
  (∀ (s : State) (body : Act Done) (d : Done) (t : State), body.run s = .ok (d, t) → d.held = false →
    ∃ u, runThread body s = .next u ∧ u.th.stepDue = t.steps t.cc t.ct ∧ u.th.retired = t.th.retired + 1 ∧ u.th.pc = d.pc.getD (t.th.pc + 1)) ∧
  (∀ (s : State) (c : Fin 256) (n : Fin 4), s.powered = true → s.whatNext = .thread c n →
    let t := s.atThread c n
    t.th.workDue t.cycle = false → t.th.stepDue = true → step s = .next (takeTrap { cause := 0x12 } t)) ∧
  (∀ (s : State) (d a b : GReg) (q : Pred), s.usable [.rg a false, .rg b false, .wg d] → s.steps s.cc s.ct = true →
    ∃ t, exec (.add d a b false false q) s = .next t ∧ t.th.stepDue = true ∧ t.th.pc = s.th.pc + 1) ∧
  (∀ (s : State) (r : TrapRec), (s.ctxOf r.ctx).ringFull = true → (s.coreAt r.core).net.replay = none →
    let t := s.noteRecord r
    sameMemory s t ∧ t.mesh = s.mesh ∧ (t.ctxOf r.ctx).lostcnt = min 65535 ((s.ctxOf r.ctx).lostcnt + 1) ∧
    (t.ctxOf r.ctx).lost = true ∧ (t.ctxOf r.ctx).lostBefore = true) ∧
  ∀ (s : State) (x : Ctx) (since c n : Nat), s.ctxs = [x] → s.ringWaiters x.id = [(since, c, n)] →
    (max since x.consAt + 8500 ≤ s.cycle → ∃ t j, exec .ringStallRelief s = .next t ∧ sameMemory s t ∧
        t.helm.journal = s.helm.journal ++ [j] ∧ j.kind = journalRescue ∧ j.ctx = x.id ∧
        (t.ctxOf x.id).trcons = BitVec.ofNat 64 ((x.trcons.toNat + 1) % 2 ^ 32) ∧ (t.ctxOf x.id).lost = true ∧
        ((s.thrAt c n).block = .none → (t.ctxOf x.id).lostcnt = min 65535 (x.lostcnt + 1)) ∧
        ∀ r a k, (s.thrAt c n).block = .ring r a k → r.ctx = x.id → r.core = c → (s.coreAt c).net.replay = none →
          (x.trprod.toNat + 2 ^ 32 - x.trcons.toNat % 2 ^ 32) % 2 ^ 32 = x.ringSlots →
          let seq := x.trprod.toNat % 2 ^ 32
          ∀ pa, s.translate c x.id (x.slotVa seq) true true = .offstack pa →
            (t.ctxOf x.id).trprod = BitVec.ofNat 64 ((seq + 1) % 2 ^ 32) ∧ ∃ h, (t.thrAt c n).block = .record h ∧ h.record = x.slotVa seq) ∧
    (s.cycle < max since x.consAt + 8500 →
      exec .ringStallRelief s = .next (s.postOnce (max since x.consAt + 8500) .ringStallRelief))

/-! ### The mesh and the links -/

/-- R18 to R20, R346 to R351, R354, R355, R393: a flit at a router goes along its row, then along its column, in two cycles, or six across
the bridge, where no booking holds the link's tick; CT goes before OP, and among flits of one class the inputs are served round robin
and the earlier of one input first; an OP flit that cannot move holds back those behind it, and a CT flit passes. A flit at
its destination's router is delivered in the next cycle. A request that cannot combine asks for its egress at once, and so does every
other flit; a combinable one opens an entry that is held until the fourth cycle after; a matching one combines into an entry in
its hold, and the entry then carries the operation of both operands; a later one of the same sender and destination waits behind it; the
hold ends with the request and the flits behind it at the egress; the answer splits, the first requester receiving v and the second
Op(v, a), and a refusal reaches both. A request takes its number as it reaches a Bumen port, a combined one keeps the first's, and
the port's head leaves where the link is trained, at the rate of its lanes; the link events change their port alone and are
journalled. (Input buffers hold a number of flits that the spec does not give, and each lane of an input takes one a cycle, log entry 82;
round-robin places at the local port and what a confluence buffer counts, log entry 35; link states, log entries 49 and 61.) -/
def Obligations.mesh_and_links : Prop :=
  (∀ (s : State) (x : MeshFlit), s.mesh = [x] → s.entries = [] → x.here = true → x.ahead = false → x.entry = none → x.inp < 5 → x.node < 256 →
    x.flit.dst.node < 256 → x.flit.dst.node ≠ x.node →
    let n := x.node
    let m := x.flit.dst.node
    let d := hopDir n m
    let lands (next inp time : Nat) : Prop := s.meshMove.mesh = [⟨x.flit, next, inp, s.cycle + time, false, false, none⟩]
    (s.linkBooked n d = true → s.meshMove.mesh = [x]) ∧
    (s.linkBooked n d = false → s.meshMove.pointer n d x.flit.cls = (x.inp + 1) % 5 ∧
      (n % 16 < m % 16 → lands (n + 1) 3 (if n % 16 = 7 then 6 else 2)) ∧
      (m % 16 < n % 16 → lands (n - 1) 1 (if n % 16 = 8 then 6 else 2)) ∧
      (n % 16 = m % 16 → n < m → lands (n + 16) 0 2) ∧ (n % 16 = m % 16 → m < n → lands (n - 16) 2 2))) ∧
  (∀ (s : State) (x y : MeshFlit), s.mesh = [x, y] → s.entries = [] → (∀ z ∈ [x, y], z.here = true ∧ z.ahead = false ∧ z.entry = none ∧
      z.node = x.node ∧ z.inp < 5 ∧ z.flit.dst.node < 256 ∧ z.flit.dst.node ≠ x.node) → x.node < 256 →
    let n := x.node
    let go (z : MeshFlit) : MeshFlit :=
      let d := hopDir n z.flit.dst.node
      ⟨z.flit, neighbour n d, (d + 2) % 4, s.cycle + hopTime n d, false, false, none⟩
    let dx := hopDir n x.flit.dst.node
    let dy := hopDir n y.flit.dst.node
    (dx = dy → s.linkBooked n dx = false →
      (x.flit.cls = .control → y.flit.cls = .openOp → s.meshMove.mesh = [y, go x]) ∧
      (x.flit.cls = y.flit.cls → x.inp ≠ y.inp →
        (x.inp + 5 - s.pointer n dx x.flit.cls) % 5 < (y.inp + 5 - s.pointer n dx x.flit.cls) % 5 →
        s.pointer n dx x.flit.cls < 5 → s.meshMove.mesh = [y, go x] ∧ s.meshMove.pointer n dx x.flit.cls = (x.inp + 1) % 5) ∧
      (x.flit.cls = y.flit.cls → x.inp = y.inp → x.at_ < y.at_ ∨ (x.at_ = y.at_ ∧ x.flit.thr ≤ y.flit.thr) → s.meshMove.mesh = [y, go x])) ∧
    (dx ≠ dy → x.inp = y.inp → x.at_ < y.at_ → s.linkBooked n dx = true → s.linkBooked n dy = false → x.flit.cls = .openOp →
      (y.flit.cls = .openOp → s.meshMove.mesh = [x, y]) ∧ (y.flit.cls = .control → s.meshMove.mesh = [x, go y]))) ∧
  (∀ (s : State) (x : MeshFlit) (n : Nat), s.mesh = [x] → x.here = true → x.ahead = false → x.entry = none → x.node = n → x.inp < 5 →
    (∀ ret v, x.flit.dst = .core n → x.flit.load = .reply ret v → s.meshMove.mesh = [] ∧ (s.cycle + 1, .replyArrival ret v) ∈ s.meshMove.agenda) ∧
    (∀ r, n < 256 → x.flit.dst = .core n → x.flit.load = .request r →
      ((s.coreAt n).agent.queue.length < 32 → s.meshMove.mesh = [] ∧ (s.cycle + 1, .agentRequestArrival n r) ∈ s.meshMove.agenda) ∧
      (32 ≤ (s.coreAt n).agent.queue.length → s.meshMove.mesh = [x]))) ∧
  (∀ (s : State) (x : MeshFlit), s.mesh = [x] → s.entries = [] → x.here = false → x.at_ ≤ s.cycle →
    (∀ r, x.flit.load = .request r → s.meshArrive.mesh = [] ∧ s.meshArrive.agenda = s.agenda ++ [(s.cycle, .confluenceArrival x.node x.inp x.flit)]) ∧
    (∀ ret v n, x.flit.load = .reply ret v → x.flit.dst = .core n →
      s.meshArrive.mesh = [{ x with at_ := s.cycle, here := true }] ∧ s.meshArrive.agenda = s.agenda)) ∧
  (∀ (s : State) (node inp : Nat) (f : Flit), node < 256 →
    let stands (ahead : Bool) (at_ : Nat) : Prop := exec (.confluenceArrival node inp f) s =
      .next { s with mesh := s.mesh ++ [⟨f, node, at_, s.cycle, true, ahead, none⟩] }
    ((∀ r, f.load ≠ .request r) → stands false inp) ∧
    ∀ r, f.load = .request r → (∀ e ∈ s.entries, e.node = node → e.st ≠ .held) →
      (∀ i, s.follows node r = some i → stands true i) ∧
      (s.follows node r = none →
        let places := (s.entries.filter fun e => e.node == node && e.inp == inp).length
        (r.combinable = false ∨ 16 ≤ places → stands false inp) ∧
        (r.combinable = true → places < 16 →
          ∃ t e, exec (.confluenceArrival node inp f) s = .next t ∧ t.entries = s.entries ++ [e] ∧ t.mesh = s.mesh ∧ sameMemory s t ∧
            e.node = node ∧ e.inp = inp ∧ e.flit = f ∧ e.st = .held ∧ e.combined = false ∧ e.behind = [] ∧
            (s.cycle + 4, .confluenceForward node e.id) ∈ t.agenda))) ∧
  (∀ (s : State) (e : Entry) (inp : Nat) (f : Flit) (q r : Req), s.entries = [e] → e.st = .held → e.node < 256 →
    e.flit.load = .request q → f.load = .request r → s.follows e.node r = none →
    (∀ op lane, q.op = .fop op lane → q.n = 4 ∨ q.n = 8 → r.op = q.op → r.n = q.n → r.ctx = q.ctx → r.target = q.target → r.addr = q.addr →
      let both : Req := { q with ret := .pair s.serial, x := fopApply op lane q.x r.x }
      ∃ t, exec (.confluenceArrival e.node inp f) s = .next t ∧ t.mesh = s.mesh ∧ sameMemory s t ∧
        t.entries = [{ e with combined := true, flit := { e.flit with load := .request both } }] ∧
        t.pairs = s.pairs ++ [⟨s.serial, e.id, e.node, q.ret, r.ret, s.sendersOf q ++ s.sendersOf r, e.flit.dst, op, lane, q.x⟩]) ∧
    (r.combinable = false → s.sharesSender q r = true → q.target = r.target →
      exec (.confluenceArrival e.node inp f) s = .next { s with entries := [{ e with behind := e.behind ++ [f] }] })) ∧
  (∀ (s : State) (e : Entry), s.entries = [e] → e.st = .held → e.node < 256 →
    exec (.confluenceForward e.node e.id) s = .next { s with
      entries := [{ e with st := .leaving, behind := [] }],
      mesh := s.mesh ++ [⟨e.flit, e.node, e.inp, s.cycle, true, true, some e.id⟩] ++
        e.behind.map fun f => ⟨f, e.node, e.inp, s.cycle, true, true, none⟩ }) ∧
  (∀ (s : State) (p : PairRec) (others : List PairRec) (v reason : Nat), s.pairs = p :: others → (∀ o ∈ others, o.id ≠ p.id) → p.node < 256 →
    let w := v % 2 ^ p.laneBits
    let i := if p.dst.node = p.node then p.dst.port else inputFrom p.dst.node p.node
    let leaves (dst : FlitEnd) (cls : TrafficClass) (load : Payload) : MeshFlit := ⟨⟨cls, p.node, 4, dst, load⟩, p.node, i, s.cycle, true, false, none⟩
    let splits (a b : FlitEnd) : Prop :=
      (∃ t, exec (.confluenceReplySplit p.node p.id v) s = .next t ∧ t.pairs = others ∧ t.entries = s.entries.filter (·.id != p.entry) ∧
        sameMemory s t ∧ t.mesh = s.mesh ++ [leaves a .openOp (.reply p.first w),
          leaves b .openOp (.reply p.second (fopApply p.op p.laneBits w p.a))]) ∧
      ∃ t, exec (.refusalArrival (.pair p.id) reason) s = .next t ∧ t.pairs = others ∧ sameMemory s t ∧
        t.mesh = s.mesh ++ [leaves a .control (.refusal p.first reason), leaves b .control (.refusal p.second reason)]
    ∀ c2 t2 i2, p.second = .thread c2 t2 i2 →
      (∀ c1 t1 i1, p.first = .thread c1 t1 i1 → splits (.core c1) (.core c2)) ∧
      (∀ o, others = [o] → p.first = .pair o.id → o.node < 256 → o.node ≠ p.node → splits (.router o.node) (.core c2)) ∧
      (∀ o, others = [o] → p.first = .pair o.id → 256 ≤ o.node → splits (.bumen (o.node - 256)) (.core c2))) ∧
  (∀ (s : State) (n : Fin 20) (f : Flit), (∀ r, f.load ≠ .request r) →
    let b := s.ports[n]
    (∀ y ∈ b.numbers, y.1 ≠ .none) →
    exec (.confluenceArrival (256 + n) 0 f) s =
      .next { s with ports := s.ports.set n { b with seq := b.seq + 1, held := b.held ++ [(b.seq, f)] } }) ∧
  (∀ (s : State) (n : Fin 20) (f : Flit) (k : Nat) (rest : List (Nat × Flit)),
    let b := s.ports[n]
    let t := s.portTurn n
    (b.held = [] ∨ b.trained = false ∨ s.cycle < b.nextAt → t = s) ∧
    (b.held = (k, f) :: rest → b.trained = true → b.nextAt ≤ s.cycle → 0 < b.lanes →
      t = { s with outbox := s.outbox ++ [⟨n, k, f⟩], ports := s.ports.set n { b with held := rest, nextAt := s.cycle + 8 / b.lanes } })) ∧
  (∀ (b : Bumen) (first second both : RetPath) (i j : Nat), b.numbers = [(first, i), (second, j)] → first ≠ second →
    (b.join first second both).numbers = [(both, i)] ∧ (b.join first second both).retired = b.retired ++ [j]) ∧
  ∀ (s : State) (n : Fin 20),
    let b := s.ports[n]
    let event (i : Instr) (kind : Nat) (b' : Bumen) (t : State) : Prop := exec i s = .next t ∧ sameMemory s t ∧ t.ports = s.ports.set n b' ∧
      t.outbox = s.outbox ∧ ∃ j, t.helm.journal = s.helm.journal ++ [j] ∧ j.kind = 6 ∧ j.a = n.val ∧ j.b = kind
    (∃ t, event (.flitCrcRetry n) 0 { b with replays := b.replays + 1 } t) ∧
    (∃ t, event (.laneDegrade n) 1 { b with lanes := if 4 < b.lanes then 4 else 2 } t) ∧
    (∃ t, event (.linkReroute n) 2 { b with alternate := !b.alternate } t) ∧
    (∃ t due, event (.retrain n) 3 { b with trained := false } t ∧ s.cycle < due ∧ due ≤ s.cycle + 25500 ∧
      (due, .retrainComplete n) ∈ t.agenda) ∧
    ∃ t comb, event (.retrainComplete n) 4 { b with trained := true, combining := comb } t

/-! ### The special-function unit's queue, the sensors and samples -/

/-- R96, R148, R149, R250, R371, R385 to R387: the head of a core's special-function queue starts while the unit is idle and no booking holds a
tick of its cycles, and its result is written after the lanes' cycles and the function's latency. A sample of uniform temperatures marks
no sensor, sets the level of Table 14.11 for 64 cycles later, and trips the device where a second one in a row is above the
limits (log entry 46: on whichever cores the two samples are). A sample tick records each running user thread. -/
def Obligations.units_and_sensors : Prop :=
  (∀ (s : State) (c : Nat) (o : SfuOp), c < 256 → s.onlyAt c (fun k => !k.sfu.ops.isEmpty) → (s.coreAt c).sfu.ops = [o] →
    (o.started = none →
      (s.cycle < (s.coreAt c).sfu.busyUntil → exec .sfuQueueStart s = .next (s.postOnce (s.cycle + 1) .sfuQueueStart)) ∧
      ((s.coreAt c).sfu.busyUntil ≤ s.cycle → (∀ tick, (s.coreAt c).booked 2 tick = false) → ∃ t, exec .sfuQueueStart s = .next t ∧
        sameMemory s t ∧ (t.coreAt c).sfu.ops = [{ o with started := some s.cycle }] ∧ (t.coreAt c).sfu.busyUntil = s.cycle + o.regs ∧
        (s.cycle + o.regs + sfuLat o.fn, .sfuResultWrite) ∈ t.agenda) ∧
      ∀ k tick, k < o.regs → tick = (s.cycle + k) / 8 → (s.coreAt c).booked 2 tick = true →
        exec .sfuQueueStart s = .next (s.postOnce (s.cycle + 1) .sfuQueueStart)) ∧
    (∀ a, o.started = some a → o.thr < 4 → o.units = [] →
      (s.cycle < a + o.regs + sfuLat o.fn → exec .sfuResultWrite s = .next s) ∧
      (a + o.regs + sfuLat o.fn ≤ s.cycle → ∃ t r fl, exec .sfuResultWrite s = .next t ∧ sameMemory s t ∧ (t.coreAt c).sfu.ops = [] ∧
        (t.coreAt c).thr o.thr =
          (let x := (s.coreAt c).thr o.thr
           let y : Thread := { x with fpsr := x.fpsr ||| BitVec.ofNat 64 fl }
           if o.booked then y else y.setDest (.v o.d o.regs) .full r 0) ∧
        (∀ k, k < 16 * o.regs → laneOf r 32 k = (sfuLane o.fn (rndOf o.rm) (laneOf o.a 32 k) (laneOf o.b 32 k)).1 % 2 ^ 32) ∧
        ∀ b, fl.testBit b = true ↔ ∃ k, k < 16 * o.regs ∧ (sfuLane o.fn (rndOf o.rm) (laneOf o.a 32 k) (laneOf o.b 32 k)).2.testBit b = true))) ∧
  (∀ (s : State) (rs : List SensorReading), s.cycle % 8500 ≠ 0 → exec (.thermalSample rs) s = .next s) ∧
  (∀ (s : State) (l d6 d12 : Int), s.cycle % 8500 = 0 → (∀ c i, ((s.coreAt c).sensor i).fail = false) →
    ∀ lv, lv < 3 → (∀ c, c < 256 → (s.coreAt c).matrix.throttle = lv) →
    let d := max d6 d12
    let leaves1 := l ≤ 94 * 16 ∧ d ≤ 88 * 16
    let leaves2 := l ≤ 99 * 16 ∧ d ≤ 91 * 16
    let level := if 102 * 16 ≤ l ∨ 93 * 16 ≤ d then 2 else if lv = 0 then (if 97 * 16 ≤ l ∨ 90 * 16 ≤ d then 1 else 0) else
      if lv = 2 ∧ ¬leaves2 then 2 else if leaves1 then 0 else 1
    let next : Option (Nat × Nat) := if level = lv then none else some (level, s.cycle + 64)
    let hot := 105 * 16 < l ∨ 95 * 16 < d
    ∃ t, exec (.thermalSample ((List.range 256).map fun c => ⟨c, l, d6, d12⟩)) s = .next t ∧ sameMemory s t ∧
      (s.cycle + 64, .throttleLevelApply) ∈ t.agenda ∧ (s.cycle, .refreshModeSample) ∈ t.agenda ∧
      (∀ c, c < 256 → (∀ i, i < 3 → ((t.coreAt c).sensor i).fail = false ∧
          ((t.coreAt c).sensor i).temp = if i = 0 then l else if i = 1 then d6 else d12) ∧
        (t.coreAt c).matrix.throttle = lv ∧ (t.coreAt c).matrix.throttleNext = next ∧ ((t.coreAt c).trips = 0 ↔ ¬hot)) ∧
      (¬hot ∨ (∀ c, c < 256 → (s.coreAt c).trips = 0) → t.offAt = s.offAt) ∧
      (hot → (∃ c, c < 256 ∧ 0 < (s.coreAt c).trips) → t.offAt.isSome ∧
        (∃ j, t.helm.journal = s.helm.journal ++ [j] ∧ j.kind = 7) ∧
        ∀ p, p < 16 → (s.partAt p).isSome → ∃ due, s.cycle ≤ due ∧ due ≤ s.cycle + 64 ∧ (due, .haltTreeStop p 4 s.cycle) ∈ t.agenda)) ∧
  (∀ s : State, ∃ t, exec .throttleLevelApply s = .next t ∧ sameMemory s t ∧ ∀ c, c < 256 →
    (t.coreAt c).threads = (s.coreAt c).threads ∧ (t.coreAt c).matrix.throttle = match (s.coreAt c).matrix.throttleNext with
      | some (level, at_) => if at_ ≤ s.cycle then level else (s.coreAt c).matrix.throttle
      | none => (s.coreAt c).matrix.throttle) ∧
  ∀ (s : State) (c n : Nat), c < 256 → n < 4 → (∀ x, x < 256 → s.samples x = decide (x = c)) →
    (∀ m, m < 4 → (m ≠ n ↔ ((s.coreAt c).thr m).st = .idle ∨ ((s.coreAt c).thr m).priv = true)) →
    let x := (s.coreAt c).thr n
    ∃ r, exec .sampleTick s = .next (s.noteRecord r) ∧ r.cause = 0 ∧ r.source = n ∧ r.core = c ∧ r.ctx = (s.coreAt c).ctx ∧
      r.pc = x.pc.toNat ∧ r.cycle = s.cycle ∧ r.det0 = stateCode x.st ∧
      ∀ k, r.det1.testBit k = true ↔ 0 < k ∧ ∃ y, x.g[k]? = some y ∧ y.st = .empty

/-! ### The host windows, the firmware and the helm -/

/-- R12, R21, R44, R313, R366, R388 to R395: a launch record of 32 bytes becomes an active message at router (7, 0), or a completion with
reason 14 where it is malformed; BAR4 reads and writes off-stack memory; BAR0 reads as Table 14.15 lists it, write-only and unlisted
offsets as 0, and its RW registers keep the bits of their maps; the doorbell submits the mailbox's command; completion records are
written in the order of their events when the ring has a place; FWLEN starts the boot, a verified image brings the device up with the
lanes that the lane tests replace, and a takeover starts the standby. (What works before the firmware runs, log entry 47; the order of a
takeover, log entry 48; a doorbell that is ignored and the order of statuses, log entry 38; which images are verified, log entry 65; links
after training, log entry 5; how soon each part of the firmware acts, log entry 18; which lanes the tests find faulty, log entry 86.) -/
def Obligations.host_and_firmware : Prop :=
  (∀ (s : State) (off : Nat) (bytes : List Byte),
    let w := fieldAt bytes 0 8
    let tag := fieldAt bytes 28 4
    let ctx := fieldAt bytes 24 2
    let n := bitsOf w 23 16
    let bad := 2 ^ 34 ≤ w ∨ bitsOf w 15 14 ≠ 0 ∨ bitsOf w 33 24 ≠ 0x3FF ∨ fieldAt bytes 26 2 ≠ 0
    let message : Flit := ⟨.openOp, 7, 8, .core n, .request ⟨.host ctx tag, ctx, 7, 8, .core n, .amsg, w % 2 ^ 14, 4, fieldAt bytes 8 16, 0⟩⟩
    (s.host.running = false ∨ bytes.length ≠ 32 ∨ off % 32 ≠ 0 ∨ 4096 ≤ off → exec (.bar2LaunchRecord off bytes) s = .next s) ∧
    (s.host.running = true → bytes.length = 32 → off % 32 = 0 → off < 4096 →
      (s.helm.role = .takeover → exec (.bar2LaunchRecord off bytes) s =
        .next { s with helm := { s.helm with pending := s.helm.pending ++ [(off, bytes)] } }) ∧
      (s.helm.role ≠ .takeover → ¬bad → ∃ t m j, exec (.bar2LaunchRecord off bytes) s = .next t ∧ sameMemory s t ∧
        t.mesh = s.mesh ++ [m] ∧ m.node = 7 ∧ m.inp = 0 ∧ s.cycle < m.at_ ∧ m.flit = message ∧
        t.helm.journal = s.helm.journal ++ [j] ∧ j.kind = 9 ∧ j.bytes = bytes) ∧
      (s.helm.role ≠ .takeover → bad → s.host.ringOn = false →
        let record : Completion := ⟨tag, 1, 14, ctx, 0, s.ssOf n, n, 255, s.cycle⟩
        ∃ t, exec (.bar2LaunchRecord off bytes) s = .next t ∧ sameMemory s t ∧ t.mesh = s.mesh ∧
          (s.host.coming = [] → t.host.coming = [] ∧ t.host.held = s.host.held ++ [record]) ∧
          ∀ k r, s.host.coming = [(k, r, false)] → t.host.held = s.host.held ∧ t.host.coming = [(k, r, false), (s.serial, record, true)])) ∧
    (∀ a, s.helm.role = .takeover → s.helm.pending = [(a, bytes)] → s.host.held = [] → ¬bad → ∃ t m, exec .helmTakeover s = .next t ∧
      sameMemory s t ∧ t.helm.role = .standby ∧ t.helm.pending = [] ∧ t.mesh = s.mesh ++ [m] ∧ m.flit = message)) ∧
  (∀ s : State, (s.helm.role = .primary → ∃ t due j, exec .helmTakeover s = .next t ∧ sameMemory s t ∧ t.helm.role = .takeover ∧
      t.helm.journal = s.helm.journal ++ [j] ∧ j.kind = 10 ∧ j.a = 0x20 ∧ s.cycle < due ∧ (due, .helmTakeover) ∈ t.agenda) ∧
    (s.helm.role = .standby → ∃ t j, exec .helmTakeover s = .next t ∧ sameMemory s t ∧ t.helm.role = .standby ∧
      t.helm.journal = s.helm.journal ++ [j] ∧ j.kind = 10 ∧ j.a = 0x20)) ∧
  (∀ (s : State) (wr : Bool) (off : Nat) (bytes : List Byte), s.offstack.wf = true →
    let pa := s.host.b4base + off
    (2 ^ 30 < off + bytes.length → exec (.bar4Access wr off bytes) s = .next s) ∧
    (off + bytes.length ≤ 2 ^ 30 →
      (∃ t, exec (.bar4Access true off bytes) s = .next t ∧ t.cores = s.cores ∧
        ∀ a, memGet t.offstack a = if pa ≤ a then (bytes[a - pa]?).getD (memGet s.offstack a) else memGet s.offstack a) ∧
      exec (.bar4Access false off bytes) s =
        .next { s with host := { s.host with bar4 := s.host.bar4 ++ [(off, memGetN s.offstack pa bytes.length)] } })) ∧
  (∀ (s : State) (v : Nat) (r : Completion), s.host.held = [r] → s.helm.role ≠ .takeover → s.host.mem.wf = true →
    let h := { s.host with crcons := v % 2 ^ 32 }
    (h.ringOpen = false → exec (.crconsWrite v) s = .next { s with host := h }) ∧
    (h.ringOpen = true → (∀ x ∈ s.agenda, x.2 ≠ .msixVector1Signal) → ∃ t due, exec (.crconsWrite v) s = .next t ∧ sameMemory s t ∧
      t.host.held = [] ∧ t.host.crprod = (h.crprod + 1) % 2 ^ 32 ∧
      memGetN t.host.mem (h.crbase + 32 * (h.crprod % h.ringSlots)) 32 = r.word % 2 ^ 256 ∧ (due, .msixVector1Signal) ∈ t.agenda ∧
      s.cycle ≤ due ∧ ∀ c, h.lastMsix1 = some c → c + 850 ≤ due)) ∧
  (∀ r : Completion, bitsOf r.word 31 0 = r.tag % 2 ^ 32 ∧ bitsOf r.word 39 32 = r.kind % 256 ∧ bitsOf r.word 47 40 = r.reason % 256 ∧
    bitsOf r.word 63 48 = r.ctx % 2 ^ 16 ∧ bitsOf r.word 127 64 = r.status % 2 ^ 64 ∧ bitsOf r.word 159 128 = r.ss % 2 ^ 32 ∧
    bitsOf r.word 167 160 = r.core % 16 ∧ bitsOf r.word 175 168 = r.core / 16 % 16 ∧ bitsOf r.word 183 176 = r.thr % 256 ∧
    bitsOf r.word 191 184 = 0 ∧ bitsOf r.word 255 192 = r.cycle % 2 ^ 64) ∧
  (∀ (s : State) (c : Nat) (r : Completion), (s.coreAt c).net.replay = none →
    let t := s.completeFrom c r
    t.host.coming = s.host.coming ++ [(s.serial, r, false)] ∧ t.host.held = s.host.held ∧ sameMemory s t ∧
    (∃ j, t.helm.journal = s.helm.journal ++ [j] ∧ j.kind = journalCompletion) ∧
    t.mesh = s.mesh ++ [⟨⟨.control, c, 4, .host, .completion s.serial⟩, c, 4, s.cycle + 1, false, false, none⟩]) ∧
  (∀ (s : State) (c k : Nat) (r : Completion), s.host.coming = [(k, r, false)] →
    (s.deliver ⟨.control, c, 4, .host, .completion k⟩).host.coming = [(k, r, true)]) ∧
  (∀ (s : State) (k l : Nat) (a b : Completion), s.host.ringOn = false →
    (s.host.coming = [(k, a, true), (l, b, false)] → s.landCompletions.host.held = s.host.held ++ [a] ∧
      s.landCompletions.host.coming = [(l, b, false)]) ∧
    (s.host.coming = [(k, a, false), (l, b, true)] → s.landCompletions.host = s.host) ∧
    (s.host.coming = [(k, a, true), (l, b, true)] → s.landCompletions.host.held = s.host.held ++ [a, b] ∧ s.landCompletions.host.coming = [])) ∧
  (∀ s : State, exec .msixVector1Signal s =
    .next { s with host := { s.host with msix := s.host.msix.set 1 (s.host.msix[1] + 1), lastMsix1 := some s.cycle } }) ∧
  (∀ (s : State) (off : Nat) (bytes : List Byte), s.host.held = [] → off + bytes.length ≤ 256 →
    ∃ t, exec (.hostRegisterWrite off bytes) s = .next t ∧ t.cores = s.cores ∧ t.offstack = s.offstack ∧ t.host.busy = s.host.busy ∧
      ∀ i, i < 256 → (t.host.mbxcmd[i]?).getD 0 = (if off ≤ i then bytes[i - off]? else none).getD ((s.host.mbxcmd[i]?).getD 0)) ∧
  (∀ (s : State) (v : Nat), s.host.held = [] → v < 2 ^ 64 →
    let sets (off : Nat) (p : HostIf → Prop) : Prop := ∃ t, exec (.hostRegisterWrite off (leBytes 8 v)) s = .next t ∧ t.cores = s.cores ∧
      t.offstack = s.offstack ∧ t.host.busy = s.host.busy ∧ p t.host
    sets 0x400 (·.crbase = v / 4096 * 4096) ∧ sets 0x408 (·.crctl = v % 32 + bitsOf v 8 8 * 256) ∧ sets 0x508 (·.fwaddr = v) ∧
    sets 0x620 (·.devid = if s.host.devidFixed then s.host.devid else v % 1024) ∧ sets 0x628 (·.b4base = bitsOf v 39 30 * 2 ^ 30)) ∧
  (∀ s : State,
    let reads (off : Nat) : Nat := leNat (s.bar0Read off 8)
    let h := s.host
    (∀ i, i < 0x20 → reads (8 * i) = 0) ∧ reads 0x100 = 0 ∧ (∀ i, 0xC6 ≤ i → reads (8 * i) = 0) ∧
    reads 0x108 = (if h.running ∧ h.busy = none then 1 else 0) + (if h.busy = none then 0 else 2 ^ 8) + h.lastStatus % 256 * 2 ^ 16 +
      h.lastSeq % 2 ^ 32 * 2 ^ 32 ∧
    (∀ i x, i < 256 → h.mbxresp[i]? = some x → s.bar0Read (0x200 + i) 1 = [x]) ∧ (∀ i x, i < 32 → h.devkey[i]? = some x → s.bar0Read (0x600 + i) 1 = [x]) ∧
    reads 0x400 = h.crbase % 2 ^ 64 ∧ reads 0x408 = h.crctl % 2 ^ 64 ∧ reads 0x410 = h.crprod % 2 ^ 64 ∧ reads 0x418 = h.crcons % 2 ^ 64 ∧
    reads 0x500 = h.bootstat % 256 + (match s.helm.role with | .primary => 0 | .takeover => 1 | .standby => 2) * 2 ^ 8 ∧
    reads 0x508 = h.fwaddr % 2 ^ 64 ∧ reads 0x510 = h.fwlen % 2 ^ 64 ∧ reads 0x620 = h.devid % 2 ^ 64 ∧ reads 0x628 = h.b4base % 2 ^ 64) ∧
  (∀ (s : State) (x : Nat), x < 2 ^ 32 → s.host.held = [] → s.host.running = true → s.host.busy = none → s.host.ringOn = false →
    let r := padTo 256 s.host.mbxcmd
    let wrote := exec (.hostRegisterWrite 0x100 (leBytes 4 x)) s
    (x ≠ cmdSeq r → ∃ t, wrote = .next t ∧ sameMemory s t ∧ t.host.busy = none ∧ t.host.lastSeq = s.host.lastSeq) ∧
    (x = cmdSeq r →
      (x ≠ s.host.nextSeq → ∃ t, wrote = .next t ∧ sameMemory s t ∧ t.host.answered r 9 [] ∧ t.agenda = s.agenda) ∧
      (x = s.host.nextSeq → opEvent (cmdOp r) = none → ∃ t, wrote = .next t ∧ sameMemory s t ∧ t.host.answered r 1 []) ∧
      (x = s.host.nextSeq → ∀ i, opEvent (cmdOp r) = some i → ∃ t due, wrote = .next t ∧ sameMemory s t ∧ t.host.busy = some r ∧
        s.cycle < due ∧ (due, i) ∈ t.agenda))) ∧
  (∀ (s : State) (v : Nat), (s.host.bootstat % 256 ≠ 0 → exec (.fwlenWrite v) s = .next { s with host := { s.host with fwlen := v % 2 ^ 64 } }) ∧
    (s.host.bootstat % 256 = 0 → ∃ t due, exec (.fwlenWrite v) s = .next t ∧ sameMemory s t ∧ t.host.bootstat = 1 ∧
      t.host.image = memTake s.host.mem s.host.fwaddr (v % 2 ^ 64) ∧ s.cycle < due ∧ (due, .firmwareStart) ∈ t.agenda)) ∧
  ∀ s : State,
    (s.host.bootstat % 256 ≠ 1 → exec .firmwareStart s = .next s) ∧
    (s.host.bootstat % 256 = 1 →
      let v := Config.imageVerdict s.host.image
      (v = 3 ∨ v = 4 → ∃ t, exec .firmwareStart s = .next t ∧ t.host.bootstat = v ∧ t.cores = s.cores) ∧
      (v ≠ 3 → v ≠ 4 → ∃ t, exec .firmwareStart s = .next t ∧ t.host.bootstat = 2 ∧ t.offstack = s.offstack ∧ t.ctxs = [] ∧
        (∀ p, t.partAt p = none) ∧ (∀ p : Fin 20, t.ports[p].trained = true) ∧
        t.host.devkey = edPublic Config.deviceKey ∧
        ∀ c, c < 256 → (t.coreAt c).vault.mem = (s.coreAt c).vault.mem ∧ (t.coreAt c).threads = Core.reset.threads ∧ (t.coreAt c).sram = [] ∧
          (t.coreAt c).vault.lanesRepaired = spareLanes (Config.laneTests c))) ∧
    ∃ t, exec .powerUp s = .next t ∧ t.powered = true ∧ t.cycle = 0 ∧ t.cores = State.reset.cores ∧ t.host.bootstat = 0 ∧
      t.host.mem = s.host.mem

/-- R42 to R44, R171, R303, R361, R366, R372 to R376, R381, R382, R391: the mailbox commands that make, place, load, stop and resume contexts,
and the saving of a pre-empted core and its return. (How many contexts there is room for, status 6 of PLACE and when a host access
fails, log entry 86; the order of the statuses, log entry 38; PREEMPT's statuses, log entry 39; what CREATE checks, log entry 40;
DENIED, log entry 41; a thread of another context's fatal record, log entry 43; memory of a new context, log entry 44; what a report's
CTXHASH takes as creation, log entries 45 and 65; which context comes next and when, log entry 30; what a restored thread gets, log entry 52.) -/
def Obligations.contexts_and_partitions : Prop :=
  (∀ (s : State) (r : List Byte),
    let p := cmdParams r
    let id := fieldAt p 0 2
    let n := fieldAt p 2 1
    let answers (i : Instr) (status : Nat) (t : State) : Prop := exec i s = .next t ∧ t.host.answered r status []
    (s.commanded r 1 [(0, 3), (8, 96)] →
      (ctxFrom p = none → ∃ t, answers .create 2 t ∧ t.ctxs = s.ctxs) ∧
      ∀ x, ctxFrom p = some x → x.id = id ∧ x.dbg = bitOf n 0 ∧ x.ptbase.toNat = fieldAt p 8 8 ∧ x.trbase.toNat = fieldAt p 16 8 ∧
        x.fatalslot.toNat = fieldAt p 32 8 ∧ x.poolBase = fieldAt p 72 8 ∧ x.fiBase = fieldAt p 88 8 ∧ x.fiLim = fieldAt p 96 8 ∧
        ((s.ctx? id).isSome → ∃ t, answers .create 4 t ∧ t.ctxs = s.ctxs) ∧
        (s.ctx? id = none → Config.contextSlots < s.ctxs.length → ∃ t, answers .create 6 t ∧ t.ctxs = s.ctxs) ∧
        (s.ctx? id = none → s.ctxs.length ≤ Config.contextSlots →
          ∃ t, answers .create 0 t ∧ sameMemory s t ∧ t.ctxs = s.ctxs ++ [x] ∧ t.host.devidFixed = true)) ∧
    (s.commanded r 2 [(0, 2)] →
      (s.ctx? id = none → ∃ t, answers .destroy 3 t ∧ t.ctxs = s.ctxs ∧ t.parts = s.parts) ∧
      ((s.ctx? id).isSome → ∃ t, answers .destroy 0 t ∧ t.ctxs = s.ctxs.filter (·.id != id) ∧
        ∀ m q, t.partAt m = some q → id ∉ q.ctxs)) ∧
    (s.commanded r 3 [(0, 3), (4, 2), (8, 8)] →
      let rect := rectOf (fieldAt p 4 2)
      let valid := rect.x0 ≤ rect.x1 ∧ rect.y0 ≤ rect.y1
      let refuses (status : Nat) : Prop := ∃ t, answers .place status t ∧ sameMemory s t ∧ t.parts = s.parts
      let imb : Word := BitVec.ofNat 64 (fieldAt p 8 8) &&& 0x80FFFFFFFFFFFFE0
      (15 < n → refuses 2) ∧ (n ≤ 15 → s.ctx? id = none → refuses 3) ∧ (n ≤ 15 → (s.ctx? id).isSome → ¬valid → refuses 5) ∧
      (n ≤ 15 → (s.ctx? id).isSome → valid →
        let clash : Prop := ∃ m q, m < 16 ∧ s.partAt m = some q ∧ q.rect.overlaps rect = true
        ((∀ q, s.partAt n = some q → (q.rect ≠ rect → clash → refuses 5) ∧ (q.rect ≠ rect → ¬clash → refuses 6) ∧
          (q.rect = rect → id ∈ q.ctxs → refuses 7) ∧
          (q.rect = rect → id ∉ q.ctxs → (∀ b ∈ q.bases, b.1 ≠ id) → ∃ t u, answers .place 0 t ∧ t.cores = s.cores ∧
            t.partAt n = some u ∧ u.ctxs = q.ctxs ++ [id] ∧ u.ssOf id = 0 ∧ u.imbring = imb ∧
            ∀ k ∈ q.ctxs, u.ssOf k = q.ssOf k))) ∧
        (s.partAt n = none → clash → refuses 5) ∧
        (s.partAt n = none → ¬clash → ∃ t q, answers .place 0 t ∧
          t.partAt n = some q ∧ q.rect = rect ∧ q.ctxs = [id] ∧ q.sscnt = 0 ∧ q.stopped = false ∧ q.imbring = imb ∧
          (∀ c ∈ rect.cores, (t.coreAt c).ctx = id ∧ (t.coreAt c).vault.mem = (s.coreAt c).vault.mem ∧ ∀ k, ((t.coreAt c).thr k).st = .idle) ∧
          ∀ c, c ∉ rect.cores → t.coreAt c = s.coreAt c))) ∧
    (s.commanded r 4 [(0, 4), (8, 24)] →
      let i := fieldAt p 3 1
      (7 < i → ∃ t, answers .window 2 t ∧ t.cores = s.cores) ∧
      (i ≤ 7 → (s.ctx? id).isSome → s.onCore n id = false → ∃ t, answers .window 7 t ∧ t.cores = s.cores) ∧
      (i ≤ 7 → (s.ctx? id).isSome → (s.coreAt n).ctx = id → ∃ t, answers .window 0 t ∧ sameMemory s t ∧
        (∀ k, k ≠ i → (t.coreAt n).window k = (s.coreAt n).window k) ∧
        (t.coreAt n).window i = (BitVec.ofNat 64 (fieldAt p 8 8) &&& 0xFFFFFFFFFFFC0, BitVec.ofNat 64 (fieldAt p 16 8) &&& 0xFFFFFFFFFFFC0,
          BitVec.ofNat 64 (fieldAt p 24 8) &&& 0xFFFF009F) ∧
        (s.unbegun id n = true → (8 * n + i, (p.drop 8).take 24) ∈ (t.ctxOf id).windows))) ∧
    (s.commanded r 5 [(0, 4), (8, 8), (16, 4)] →
      let len := fieldAt p 16 4
      let handler := fieldAt p 3 1
      let base := if handler = 1 then 0x10F000 else 0x100000
      let quiet (c : Nat) : Prop := ∀ k, k < 4 → ((s.coreAt c).thr k).st = .idle ∨ ((s.coreAt c).thr k).st = .stopped
      let refuses (status : Nat) : Prop := ∃ t, answers .loadcode status t ∧ sameMemory s t
      let malformed : Prop := 1 < handler ∨ len % 4 ≠ 0 ∨ (if handler = 1 then 4096 else 61440) < len
      (malformed → refuses 2) ∧ (¬malformed → s.ctx? id = none → refuses 3) ∧
      (¬malformed → (s.ctx? id).isSome →
        (n ≠ 0xFF → s.onCore n id = false → refuses 7) ∧
        (n ≠ 0xFF → (s.coreAt n).ctx = id → ¬quiet n → refuses 7) ∧
        ∀ cores : List Nat, (if n = 0xFF then s.helm.saved = [] ∧ cores = (List.range 256).filter fun c => (s.coreAt c).ctx == id
            else (s.coreAt n).ctx = id ∧ cores = [n]) → cores ≠ [] → (∀ c ∈ cores, quiet c ∧ (s.coreAt c).sram.wf = true) →
          (Config.hostFails (fieldAt p 8 8) len = true → refuses 10) ∧
          (Config.hostFails (fieldAt p 8 8) len = false → ∃ t, answers .loadcode 0 t ∧
            (∀ c ∈ cores, ∀ i, i < len → memGet (t.coreAt c).sram (base + i) = memGet s.host.mem (fieldAt p 8 8 + i)) ∧
            ∀ c x, c ∉ cores ∨ x < base ∨ base + len ≤ x → memGet (t.coreAt c).sram x = memGet (s.coreAt c).sram x))) ∧
    (s.commanded r 6 [(0, 3)] → (s.ctx? id).isSome →
      ((s.coreAt n).ctx ≠ id ∨ (s.coreAt n).preempt ≠ .none ∨ (∃ m q, s.partOf n = some m ∧ s.partAt m = some q ∧ q.stopped = true) →
        ∃ t, answers .preempt 7 t ∧ t.cores = s.cores) ∧
      ((s.coreAt n).ctx = id → (s.coreAt n).preempt = .none → (∀ m q, s.partOf n = some m → s.partAt m = some q → q.stopped = false) →
        ∃ t, answers .preempt 0 t ∧ sameMemory s t ∧ (t.coreAt n).preempt = .stopping ∧ (t.coreAt n).net.accepting = false)) ∧
    (s.commanded r 7 [(0, 4)] → n ≤ 15 → ∀ x q, s.ctx? id = some x → s.partAt n = some q → id ∈ q.ctxs →
      (fieldAt p 3 1 = 0 → ∃ t due, answers .stop 0 t ∧ sameMemory s t ∧ s.cycle ≤ due ∧ due ≤ s.cycle + 64 ∧
        (due, .haltTreeStop n 1 s.cycle) ∈ t.agenda) ∧
      (fieldAt p 3 1 = 1 → x.dbg = false → ∃ t, answers .stop 8 t ∧ sameMemory s t ∧ t.parts = s.parts) ∧
      (fieldAt p 3 1 = 1 → x.dbg = true → ∃ t, answers .stop 0 t ∧ sameMemory s t ∧ (t.partAt n).map (·.ssStop) = some true)) ∧
    (s.commanded r 8 [(0, 4)] → n ≤ 15 → ∀ x q, s.ctx? id = some x → s.partAt n = some q →
      (q.stopped = false ∨ id ∉ q.ctxs ∨ (fieldAt p 3 1 = 0 ∧ ∃ k ∈ q.ctxs, (s.ctxOf k).fatal = true) → fieldAt p 3 1 ≤ 1 →
        ∃ t, answers .resume 7 t ∧ t.cores = s.cores ∧ t.parts = s.parts) ∧
      (q.stopped = true → id ∈ q.ctxs → fieldAt p 3 1 = 0 → (∀ k ∈ q.ctxs, (s.ctxOf k).fatal = false) → ∃ t, answers .resume 0 t ∧
        sameMemory s t ∧ (t.partAt n).map (·.stopped) = some false ∧ ∀ c ∈ q.rect.cores, ∀ k, k < 4 →
          let a := (s.coreAt c).thr k
          let b := (t.coreAt c).thr k
          b.st = (if a.st = .stopped ∧ a.imaged = none then a.left else a.st) ∧ b.pc = a.pc ∧ b.g = a.g ∧ b.v = a.v) ∧
      (q.stopped = true → q.ctxs = [id] → fieldAt p 3 1 = 1 → ∃ t, answers .resume 0 t ∧ sameMemory s t ∧ (t.ctxOf id).fatal = false ∧
        ∀ c k h, x.fatalBy = some (c, k, h) → c < 256 → k < 4 → (s.coreAt c).ctx = id →
          let y := (t.coreAt c).thr k
          let tv := (s.coreAt c).tvec.toNat
          y.priv = true ∧ y.pc = BitVec.ofNat 14 (tv % 2 ^ 14) ∧ y.block = .none ∧ y.hg[0] = Reg.of (BitVec.ofNat 64 h.resume) ∧
            y.hg[2] = Reg.of (BitVec.ofNat 64 h.record) ∧ y.hg[4] = Reg.of (BitVec.ofNat 64 h.cause) ∧
            y.hg[5] = Reg.of (BitVec.ofNat 64 h.kappa) ∧ y.hg[6] = Reg.of (BitVec.ofNat 64 h.list)))) ∧
  (∀ (s : State) (c m : Nat) (q : Partition), c < 256 → s.partOf c = some m → s.partAt m = some q →
    let k := s.coreAt c
    ((k.handlersDone && k.quietToSave) = false → exec (.contextSave c) s = .next s) ∧
    ((k.handlersDone && k.quietToSave) = true → (∀ i, (k.booking i).st ≠ .made) → ∃ t k' due, exec (.contextSave c) s = .next t ∧
      (k.ctx, c, k') ∈ t.helm.saved ∧ k'.ctx = k.ctx ∧ k'.sram = k.sram ∧ k'.threads = k.threads ∧ (t.coreAt c).ctx = 0 ∧
      (t.coreAt c).net.accepting = false ∧ (∀ x, (t.coreAt x).vault.mem = (s.coreAt x).vault.mem) ∧ t.offstack = s.offstack ∧
      s.cycle < due ∧ (due, .contextRestore c (q.nextCtx k.ctx)) ∈ t.agenda)) ∧
  ∀ (s : State) (c m ctx : Nat) (q : Partition) (k : Core), c < 256 → s.partOf c = some m → s.partAt m = some q →
    (q.stopped = true → exec (.contextRestore c ctx) s = .next (s.post (s.cycle + 1) (.contextRestore c ctx))) ∧
    (q.stopped = false → ctx ∈ q.ctxs → (s.coreAt c).ctx = 0 →
      s.helm.saved.find? (fun x => x.1 == ctx && x.2.1 == c) = some (ctx, c, k) → ∃ t, exec (.contextRestore c ctx) s = .next t ∧
        (t.coreAt c).ctx = ctx ∧ (t.coreAt c).sram = k.sram ∧ (t.coreAt c).tvec = k.tvec ∧ (t.coreAt c).net.accepting = true ∧
        (∀ x, (t.coreAt x).vault.mem = (s.coreAt x).vault.mem) ∧ (∀ x ∈ t.helm.saved, x.1 ≠ ctx ∨ x.2.1 ≠ c) ∧ ∀ n : Fin 4,
          let x := k.thr n
          let y := (t.coreAt c).thr n
          (x.imaged = none → y.st = x.st ∧ y.pc = x.pc ∧ y.priv = x.priv ∧ y.g = x.g ∧ y.v = x.v ∧ y.hg = x.hg) ∧
          ∀ i, x.imaged = some i → y.st = .run ∧ y.priv = true ∧ y.pc = k.tvec.extractLsb' 0 14 ∧ y.hg[0] = x.hg[0] ∧
            y.hg[4] = Reg.of (BitVec.ofNat 64 (i.cause + 2 ^ 24)) ∧ y.hg[5] = x.hg[5] ∧ y.hg[6] = x.hg[6])

/-- R162, R191, R376, R377, R383, R384, R391: the other mailbox commands. A command whose parameters are not zero where Table 14.17
gives no field completes with status 2 and does nothing; an event that is not the command in progress does nothing. A debug read of a vault
is a request of its agent, and completes when every part has been answered. (In what bytes a checkpoint is written, log entry 42; how it
is sent to another device and when a host access fails, log entry 86; the bytes of a journal entry, log entry 31; statuses, log
entries 38 and 41; what a replay delivers and discards, log entries 51 and 87.) -/
def Obligations.mailbox_services : Prop :=
  (∀ (s : State) (r : List Byte) (i : Instr) (op : Nat) (fields : List (Nat × Nat)),
    (i, op, fields) ∈ ([(.create, 1, [(0, 3), (8, 96)]), (.destroy, 2, [(0, 2)]), (.place, 3, [(0, 3), (4, 2), (8, 8)]),
      (.window, 4, [(0, 4), (8, 24)]), (.loadcode, 5, [(0, 4), (8, 8), (16, 4)]), (.preempt, 6, [(0, 3)]), (.stop, 7, [(0, 4)]),
      (.resume, 8, [(0, 4)]), (.checkpoint, 9, [(0, 4), (8, 10)]), (.replay, 10, [(0, 3), (8, 8), (16, 4)]), (.attest, 11, [(0, 2), (8, 40)]),
      (.debugread, 12, [(0, 2), (8, 10)]), (.policy, 13, [(0, 1), (8, 12)]), (.journal, 14, [(8, 16)]), (.clearpoison, 15, [(8, 10)])] :
      List (Instr × Nat × List (Nat × Nat))) →
    opEvent op = some i ∧
    (s.host.busy = none → exec i s = .next s) ∧
    (s.host.busy = some r → cmdOp r ≠ op → exec i s = .next s) ∧
    (s.host.busy = some r → cmdOp r = op → s.helm.role = .takeover → exec i s = .next (s.postOnce (s.cycle + 1) i)) ∧
    (s.host.busy = some r → cmdOp r = op → s.helm.role ≠ .takeover →
      248 < cmdLen r ∨ (∃ b ∈ (cmdParams r).drop (cmdLen r), b ≠ 0) ∨ zeroOutside fields (cmdParams r) = false →
      ∃ t, exec i s = .next t ∧ t.host.answered r 2 [] ∧ t.cores = s.cores ∧ t.ctxs = s.ctxs ∧ t.parts = s.parts ∧ t.offstack = s.offstack)) ∧
  ∀ (s : State) (r : List Byte),
    let p := cmdParams r
    let id := fieldAt p 0 2
    let n := fieldAt p 2 1
    let answers (i : Instr) (status : Nat) (result : List Byte) (t : State) : Prop := exec i s = .next t ∧ t.host.answered r status result
    let refuses (i : Instr) (status : Nat) : Prop := ∃ t, answers i status [] t ∧ t.cores = s.cores ∧ t.parts = s.parts ∧ t.offstack = s.offstack
    (s.commanded r 9 [(0, 4), (8, 10)] → n ≤ 15 → (s.ctx? id).isSome →
      let host := fieldAt p 3 1
      let dev := fieldAt p 16 2
      let addr := fieldAt p 8 8
      (1 < host ∨ 1023 < dev ∨ (host = 1 ∧ dev ≠ 0) → refuses .checkpoint 2) ∧
      ∀ q, s.partAt n = some q → host ≤ 1 → dev < 1024 → (host = 1 → dev = 0) →
        (id ∉ q.ctxs ∨ q.stopped = false ∨ q.stopReason.map (·.1) ≠ some 3 → refuses .checkpoint 7) ∧
        (id ∈ q.ctxs → q.stopped = true → q.stopReason.map (·.1) = some 3 →
          let size := (Config.freeWord s.fresh).toNat
          let writes (t : State) : Prop := answers .checkpoint 0 (leBytes 8 size) t ∧ sameMemory s t ∧
            t.helm.checkpoints = s.helm.checkpoints.filter (·.1 != addr) ++ [(addr, q.ssOf id, q.rect.cores.map fun c => (c, s.coreAt c))]
          (host = 1 → (Config.hostFails addr size = true → refuses .checkpoint 10) ∧ (Config.hostFails addr size = false → ∃ t, writes t)) ∧
          (host = 0 → (s.portTo dev = none → refuses .checkpoint 10) ∧ ∀ port, s.portTo dev = some port → ∃ (t : State) (bytes : List Byte), writes t ∧ bytes.length = size ∧
            t.mesh = s.mesh ++ (List.range ((size + 63) / 64)).map fun i =>
              ⟨⟨.openOp, 8, helmThr, .bumen port, .bulk dev (addr + 64 * i) ((bytes.drop (64 * i)).take 64)⟩, 8, 0, s.cycle + 1 + i,
                false, false, none⟩))) ∧
    (s.commanded r 10 [(0, 3), (8, 8), (16, 4)] → ∀ x m q, s.ctxs.find? (·.id == id) = some x → s.partOf n = some m → s.partAt m = some q →
      (q.stopped = false ∨ (s.coreAt n).ctx ≠ id → refuses .replay 7) ∧
      (q.stopped = true → (s.coreAt n).ctx = id →
        (x.dbg = false → refuses .replay 8) ∧
        (x.dbg = true → s.helm.checkpoints.find? (·.1 == fieldAt p 8 8) = none → refuses .replay 10) ∧
        (x.dbg = true → ∀ a ss cores, s.helm.checkpoints.find? (·.1 == fieldAt p 8 8) = some (a, ss, cores) →
          cores.find? (·.1 == n) = none → refuses .replay 7) ∧
        (x.dbg = true → ∀ a ss cores old, s.helm.checkpoints.find? (·.1 == fieldAt p 8 8) = some (a, ss, cores) →
          cores.find? (·.1 == n) = some (n, old) → ∃ t, exec .replay s = .next t ∧ t.host.busy = some r ∧ (t.coreAt n).ctx = id ∧
            (t.coreAt n).sram = old.sram ∧ (t.coreAt n).vault.mem = old.vault.mem ∧
            (t.coreAt n).net.replay = some ⟨(s.coreAt n).net.log.drop old.net.log.length, fieldAt p 16 4, ss⟩ ∧
            (∀ c, c ≠ n → t.coreAt c = s.coreAt c) ∧
            ∀ k, ((t.coreAt n).thr k).g = (old.thr k).g ∧ ((t.coreAt n).thr k).pc = (old.thr k).pc ∧
              ((t.coreAt n).thr k).st = if (old.thr k).st = .stopped then (old.thr k).left else (old.thr k).st))) ∧
    (s.commanded r 11 [(0, 2), (8, 40)] → s.host.mem.wf = true → s.host.ringOn = false →
      (s.ctx? id = none → refuses .attest 3) ∧
      ∀ x, s.ctx? id = some x → (Config.hostFails (fieldAt p 40 8) 256 = true → refuses .attest 10) ∧
        (Config.hostFails (fieldAt p 40 8) 256 = false → ∃ t report, answers .attest 0 [] t ∧ sameMemory s t ∧ report = s.attestation x ((p.drop 8).take 32) ∧
        leNat (report.take 2) = 1 ∧ leNat ((report.drop 2).take 2) = id % 2 ^ 16 ∧
        ∀ a, memGet t.host.mem a = if fieldAt p 40 8 ≤ a then (report[a - fieldAt p 40 8]?).getD (memGet s.host.mem a) else memGet s.host.mem a)) ∧
    (s.commanded r 12 [(0, 2), (8, 10)] →
      let va := fieldAt p 8 8
      let len := fieldAt p 16 2
      (s.host.debug = [] →
        (len = 0 ∨ 240 < len ∨ 2 ^ 52 ≤ va ∨ isLocal va = true → refuses .debugread 2) ∧
        (0 < len → len ≤ 240 → va < 2 ^ 52 → isLocal va = false → va % 65536 + len ≤ 65536 →
          (s.ctx? id = none → refuses .debugread 3) ∧
          ∀ x, s.ctx? id = some x → (x.dbg = false → refuses .debugread 8) ∧ (x.dbg = true →
            (s.translate 0 x.id va true false = .page → refuses .debugread 10) ∧
            (s.translate 0 x.id va true false = .moving → exec .debugread s = .next (s.postOnce (s.cycle + 1) .debugread)) ∧
            (∀ pa, s.translate 0 x.id va true false = .offstack pa → s.host.asleep = [] →
              ∃ t, answers .debugread 0 (leBytes len (memGetN s.offstack pa len)) t ∧ t.cores = s.cores ∧ t.offstack = s.offstack) ∧
            ∀ v pa, v < 256 → (if v = 0 then s.translate 0 x.id va true false = .vault pa else s.translate 0 x.id va true false = .foreign v ∧
                s.translate v x.id va true false = .vault pa) → pa % 64 + len ≤ 64 →
              let e1 := max (s.cycle + 2) ((s.coreAt v).agent.lastE1 + 1)
              ∃ t, exec .debugread s = .next t ∧ sameMemory s t ∧ t.host.busy = some r ∧ t.host.debug = [⟨some v, pa, len, none⟩] ∧
                (t.coreAt v).agent.queue = (s.coreAt v).agent.queue ++
                  [⟨⟨.debug 0, id, v, debugThr, .core v, .get, pa, len, 0, 0⟩, e1, some (.vault pa), none, false, true⟩] ∧
                (e1, .agentAction) ∈ t.agenda ∧
                ((s.coreAt v).vault.power = .active → t.host.asleep = [] ∧ (t.coreAt v).vault = (s.coreAt v).vault) ∧
                ((s.coreAt v).vault.power = .retention → t.host.asleep = [v] ∧ (t.coreAt v).vault.power = .active)))) ∧
      (∀ v pa m, s.host.debug = [⟨v, pa, m, none⟩] → exec .debugread s = .next s) ∧
      (∀ v pa m y, s.host.asleep = [] → s.host.debug = [⟨v, pa, m, some (some y)⟩] → ∃ t, answers .debugread 0 (leBytes m y) t ∧ t.cores = s.cores ∧
        t.host.debug = []) ∧
      (∀ v pa m, s.host.asleep = [] → s.host.debug = [⟨v, pa, m, some none⟩] → refuses .debugread 10)) ∧
    (s.commanded r 13 [(0, 1), (8, 12)] →
      (3 < fieldAt p 0 1 ∨ fieldAt p 8 8 % 4096 ≠ 0 → ∃ t, answers .policy 2 [] t ∧ t.helm.policy = s.helm.policy) ∧
      (fieldAt p 0 1 ≤ 3 → fieldAt p 8 8 % 4096 = 0 → ∃ t, answers .policy 0 [] t ∧ sameMemory s t ∧ t.helm.policy =
        ⟨bitOf (fieldAt p 0 1) 0, bitOf (fieldAt p 0 1) 1, fieldAt p 8 8, fieldAt p 16 2, fieldAt p 18 2⟩)) ∧
    (s.commanded r 14 [(8, 16)] → s.host.mem.wf = true → s.host.ringOn = false →
      let first := fieldAt p 20 4
      let m := min (fieldAt p 16 4 / 64) (s.helm.journal.length - first)
      (Config.hostFails (fieldAt p 8 8) (64 * m) = true → refuses .journal 10) ∧
      (Config.hostFails (fieldAt p 8 8) (64 * m) = false → ∃ t, answers .journal 0 (leBytes 4 m ++ leBytes 4 (first + m)) t ∧ sameMemory s t ∧
        ∀ i k e b, i < m → k < 64 → s.helm.journal[first + i]? = some e → e.bytes[k]? = some b →
          memGet t.host.mem (fieldAt p 8 8 + 64 * i + k) = b)) ∧
    (s.commanded r 15 [(8, 10)] →
      let pa := fieldAt p 8 8
      let off := fieldAt p 16 1
      let v := fieldAt p 17 1
      (1 < off ∨ pa % 65536 ≠ 0 ∨ (if off = 1 then 2 ^ 40 else 2 ^ 31) ≤ pa → refuses .clearpoison 2) ∧
      (pa % 65536 = 0 → off = 1 → pa < 2 ^ 40 → ∃ t, answers .clearpoison 0 [] t ∧ sameMemory s t ∧
        (∀ f, f ∈ t.offPoisoned ↔ f ∈ s.offPoisoned ∧ f ≠ pa / 65536) ∧ t.cores = s.cores) ∧
      (pa % 65536 = 0 → off = 0 → pa < 2 ^ 31 → ∃ t, answers .clearpoison 0 [] t ∧ sameMemory s t ∧ t.offPoisoned = s.offPoisoned ∧
        (∀ f, f ∈ (t.coreAt v).vault.poisoned ↔ f ∈ (s.coreAt v).vault.poisoned ∧ f ≠ pa / 65536) ∧
        ∀ c, c ≠ v → t.coreAt c = s.coreAt c))

/-! ### The whole machine -/

/-- R56, R58, R60 to R75: the encoder gives a word for every well-formed instruction but the acts of the device itself, which have none
(log entry 1); that word decodes to the instruction, with every operand, and every word that decodes is the encoder's word for the
well-formed instruction it decodes to. -/
def Obligations.decode_and_encode_agree : Prop :=
  (∀ i : Instr, i.deviceAct = false → (encodeWord i).isSome) ∧ (∀ i : Instr, i.deviceAct = true → encodeWord i = none) ∧
  (∀ (i : Instr) (w : Insn), i.wf = true → encodeWord i = some w → decodeWord w = .ok i) ∧
  (∀ (i : Instr) (w : Insn), decodeWord w = .ok i → i.wf = true ∧ encodeWord i = some w) ∧
  (∀ (w : Insn) (rest : List Byte), decode (bytesOfWord w ++ rest) = match decodeWord w with
    | .ok i => .ok (i, rest)
    | .error e => .error (.illegal e)) ∧
  ∀ bytes : List Byte, bytes.length < 4 → decode bytes = .error .short

/-- Examples 2.1 to 2.5 and 14.1: the words that the spec writes out decode to the instructions it writes beside them, and the four that it
calls no instruction are rejected with the reasons and bits it gives. -/
def Obligations.words_of_the_spec : Prop :=
  decodeWord 0x04A63AE0 = .ok (.add 5 6 7 false true ⟨3, true⟩) ∧ decodeWord 0x04A63A20 = .error ⟨3, 5⟩ ∧
  decodeWord 0x51029006 = .ok (.ld 8 2 .w .order 6) ∧
  decodeWord 0x610A6300 = .ok (.vaddF 8 10 12 .pair .f32) ∧ decodeWord 0x612A6300 = .error ⟨8, 21⟩ ∧
  decodeWord 0x91398500 = .ok (.mma 2 1 3 .skinny .tc3 .e4m3 true false false) ∧ decodeWord 0x91398580 = .error ⟨7, 7⟩ ∧
  (∃ bit, decodeWord 0x91398300 = .error ⟨7, bit⟩) ∧
  decodeWord 0x14A00000 = .ok (.addi 5 0 0) ∧ decodeWord 0x14C00008 = .ok (.addi 6 0 8) ∧ decodeWord 0x50E3C000 = .ok (.ld 7 3 .d .plain 0) ∧
  decodeWord 0x04A53800 = .ok (.add 5 5 7 false false ⟨0, false⟩) ∧ decodeWord 0x14630008 = .ok (.addi 3 3 8) ∧
  decodeWord 0x4CC0FFFD = .ok (.dbnz 6 (BitVec.ofInt 16 (-3))) ∧ decodeWord 0x58A4C000 = .ok (.st 5 4 .d .plain 0) ∧
  decodeWord 0xE0000002 = .ok (.halt 0 false ⟨0, false⟩) ∧ decodeWord 0x50E5C000 = .ok (.ld 7 5 .d .plain 0)

/-- R25, R27, R38, R56, R74, R75, R210, R336, R361, R380, R387: with no event due, a step runs the instruction whose four bytes stand at the PC of
the first ready thread, cores in order and the threads of a core in order; a thread with a local access of its own due makes that
access's next use instead; a stepped thread whose instruction has retired raises STEP instead; bytes that are no instruction raise
ILLEGAL, and a user thread in the handler's region PROT. With an event due and no thread ready a step runs the event; with neither the cycle
passes. A device without power takes only its power-up. (That the threads of a cycle run core by core, those at a `wait` last, and where
events stand among them, log entry 15; that an event is a constructor of its own, log entry 1; a device without power, log entry 60.) -/
def Obligations.step_runs_the_instruction : Prop :=
  ∀ s : State,
    (s.powered = true → (∀ x ∈ s.inputs, s.cycle < x.1) →
      ((∀ x ∈ s.agenda, s.cycle < x.1) → ∀ (c : Fin 256) (n : Fin 4), s.threadReady c n = true →
        (let before (c' : Fin 256) (n' : Fin 4) : Prop := c' < c ∨ (c' = c ∧ n' < n)
         (s.atWait c n = false ∧ ∀ c' n', before c' n' → s.threadReady c' n' = true → s.atWait c' n' = true) ∨
           ((∀ (c' : Fin 256) (n' : Fin 4), s.threadReady c' n' = true → s.atWait c' n' = true) ∧
             ∀ c' n', before c' n' → s.threadReady c' n' = false)) →
        let k := s.coreAt c
        let x := k.thr n
        let at_ := 0x100000 + 4 * x.pc.toNat
        let here : State := { s with cur := (c, n) }
        (x.workDue s.cycle = true → step s = .next here.workStep) ∧
        (x.workDue s.cycle = false → x.stepDue = true → step s = .next (takeTrap { cause := 0x12 } here)) ∧
        (x.workDue s.cycle = false → x.stepDue = false →
          (x.priv = false → 0x3C00 ≤ x.pc.toNat →
            step s = .next (takeTrap { cause := 0x05, addr := localBase + at_, det0 := 8 } here)) ∧
          (x.priv = true ∨ x.pc.toNat < 0x3C00 → x.stale = [] →
            let bytes := [memGet k.sram at_, memGet k.sram (at_ + 1), memGet k.sram (at_ + 2), memGet k.sram (at_ + 3)]
            (∀ i, decode bytes = .ok (i, []) → step s = exec i here) ∧
            ∀ e, decode bytes = .error (.illegal e) →
              step s = .next (takeTrap { cause := 0x01, det0 := e.reason, det1 := e.bit } here)))) ∧
      ((∀ (c : Fin 256) (n : Fin 4), s.threadReady c n = false) →
        (∀ due i rest, s.agenda = (due, i) :: rest → due ≤ s.cycle → (∀ x ∈ rest, s.cycle < x.1) →
          step s = exec i { s with agenda := rest }) ∧
        ((∀ x ∈ s.agenda, s.cycle < x.1) → step s = .next s.pass)) ∧
      ∀ due i rest k c n, s.agenda = (due, i) :: rest → due ≤ s.cycle → (∀ x ∈ rest, s.cycle < x.1) → s.firstThread = some (k, c, n) →
        let key := cycleKey (s.rankOf i).1 (s.rankOf i).2
        (key ≤ k → step s = exec i { s with agenda := rest }) ∧ (k < key → s.whatNext = .thread c n)) ∧
    (s.powered = true → ∀ at_ i rest, s.inputs = (at_, i) :: rest → at_ ≤ s.cycle → step s = exec i { s with inputs := rest }) ∧
    (s.powered = false → (∀ x ∈ s.inputs, x.2 ≠ .powerUp) → step s = .fault .poweredOff) ∧
    (s.powered = false → ∀ at_ rest, s.inputs = (at_, .powerUp) :: rest → ∃ t, step s = .next t ∧ t.powered = true ∧ t.inputs = rest)

/-- No instruction and no event ends a run: each answers a next state on every state and operands, and a step stops only where power was
removed (R387) and no power-up is at hand. -/
def Obligations.nothing_ends_a_run : Prop :=
  (∀ (i : Instr) (s : State), ∃ t, exec i s = .next t) ∧
  ∀ s : State, safeOutcome (step s) = true ∧ (s.powered = true → ∃ t, step s = .next t)

/-- What the device is right after reset: the values of R20, R128, R169, R186, R187, R232, R237, R266, R303 and Tables 14.1 and 14.11; the cycle count,
the contents of memory, the thread states and the registers without a reset value of the spec are the model's choice (log entries 2, 3
and 9). It meets the invariant. -/
def Obligations.reset_state : Prop :=
  State.reset.sound ∧ State.reset.powered = true ∧ State.reset.cycle = 0 ∧ (∀ p, State.reset.partAt p = none) ∧
  (∀ node port cls, State.reset.pointer node port cls = 0) ∧
  (∀ c, let k := State.reset.coreAt c
    (∀ a, memGet k.sram a = 0) ∧ (∀ g, k.granFull g = false) ∧ (∀ u, k.owner u = 0) ∧ k.tvec = 0x3C00 ∧ k.dbgctl = 0 ∧
    (∀ i : Fin 4, k.watch[i] = 0) ∧ (∀ i : Fin 8, k.agent.windows[i] = (0, 0, 0)) ∧ (∀ i : Fin 8, k.matrix.mg[i] = 0) ∧ (∀ i : Fin 4, k.trellis.tw[i].val = 0) ∧
    k.matrix.throttle = 0 ∧ k.vault.hot = false ∧ k.vault.power = .active ∧ k.tasks.acked = false ∧ k.tasks.recs = [] ∧
    ∀ n, let x := k.thr n
      x.st = .idle ∧ x.priv = false ∧ x.spbase = 0 ∧ x.spsize = 0 ∧ x.ovfp = 0 ∧ x.fpsr = 0 ∧ x.evpend = 0 ∧
      (∀ i : Fin 32, x.g[i] = Reg.of 0 ∧ x.v[i] = Reg.of 0) ∧ ∀ i : Fin 8, x.hg[i] = Reg.of 0) ∧
  ∀ id, (Ctx.reset id).trbase = 0 ∧ (Ctx.reset id).trsize = 4 ∧ (Ctx.reset id).trprod = 0 ∧ (Ctx.reset id).trcons = 0 ∧ (Ctx.reset id).stat = 0

/-- R43 and the canonical form of the model's memories: a step of a device whose memories and owner lists are in canonical form, and whose
partitions are rectangles that share no core, leaves one of which the same holds. -/
def Obligations.every_step_keeps_the_invariant : Prop :=
  ∀ s t : State, s.sound → step s = .next t → t.sound
end

