-- ==== Sys2Proof/Machine/AsmText.lean ====
section
/-! DEFINITION. The text of a pliper source (R76, R80): the errors pliper reports, the tokens of a line, integer and decimal
literals, and expressions in 64-bit two's complement. -/

namespace Sys2Proof.Asm

/-- Why pliper refuses a source line; whoever assembles reads it, and the machine never sees it. Safe: no word is emitted. -/
inductive AsmErr
  /-- A character that no token begins with. -/
  | badCharacter (c : Char)
  /-- A numeral that R80 does not allow. -/
  | badNumber (text : String)
  /-- Tokens that are no expression of R80. -/
  | badExpression
  /-- A name that nothing defines, or defines only further down where the value is needed at once. -/
  | undefinedName (name : String)
  /-- A name defined twice. -/
  | duplicateName (name : String)
  /-- A text that cannot be a label or a constant. -/
  | badName
  /-- Division by zero in an expression. -/
  | divideByZero
  /-- A value outside the range of its field (R80). -/
  | outOfRange
  /-- An offset that is not a multiple of the access unit (R78). -/
  | badOffset
  /-- An operand that is not of the kind its place asks for (R78, R79). -/
  | badOperand
  /-- Grouped operands with different group suffixes (R78). -/
  | groupMismatch
  /-- A branch target that is no label in `.code` (R78). -/
  | notACodeLabel
  /-- A mnemonic or suffix that the instruction set does not have (R77). -/
  | unknownMnemonic
  /-- A number of operands that the form does not take (R79). -/
  | operandCount
  /-- A predicate before something that R60 does not allow to be predicated (R76). -/
  | notPredicable
  /-- The fields make a word that is not an instruction, with its reason of Table 2.8. -/
  | notAnInstruction (reason : Nat)
  /-- A directive that Table 2.10 does not have. -/
  | unknownDirective
  /-- The arguments of a directive do not fit Table 2.10. -/
  | badDirective
  /-- An instruction or a code label that does not stand on a word. -/
  | misplaced
  /-- A section's contents exceed what it can hold. -/
  | sectionFull
  /-- A task body that can fall through, or `.task` and `.endtask` that do not pair (R81, Table 2.10). -/
  | badTask
  /-- A booking list that R82 does not allow. -/
  | badBooking
  deriving DecidableEq, Repr

/-! ### Tokens -/

/-- A token of a source line: a name with its suffixes, a numeral, a shift operator, or a single character. -/
inductive Tok
  | name (text : String)
  | num (text : String)
  | shl
  | shr
  | sym (c : Char)
  deriving DecidableEq, Repr

/-- Characters a name, a mnemonic, a directive or a register begins with. -/
def nameStart (c : Char) : Bool := c.isAlpha || c == '_' || c == '.'
/-- Characters that go on in a name or a numeral. -/
def nameRest (c : Char) : Bool := c.isAlphanum || c == '_' || c == '.'

/-- The token a scan stands in, with its characters last first. -/
inductive Pending
  | blank
  | name (r : List Char)
  | num (r : List Char)
  | op (c : Char)
  deriving DecidableEq, Repr

/-- The token that ends here. -/
def Pending.ended : Pending → Except AsmErr (List Tok)
  | .blank => .ok []
  | .name r => .ok [.name (String.ofList r.reverse)]
  | .num r => .ok [.num (String.ofList r.reverse)]
  | .op '/' => .ok [.sym '/']
  | .op c => .error (.badCharacter c)

/-- Whether a sign goes on in a numeral: after the exponent letter of a decimal one (DESIGN CHOICE, log entry 72). -/
def signGoesOn : List Char → Bool
  | 'e' :: r | 'E' :: r => !r.contains 'x'
  | _ => false

/-- The character c read in the middle of a token: the token that goes on, or none where it ends before c. -/
def Pending.extend (c : Char) : Pending → Option Pending
  | .name r => if nameRest c then some (.name (c :: r)) else none
  | .num r => if nameRest c || ((c == '+' || c == '-') && signGoesOn r) then some (.num (c :: r)) else none
  | _ => none

/-- The characters that are tokens by themselves. -/
def loneSymbols : List Char := ['(', ')', '[', ']', ',', ':', '!', '+', '-', '*', '%', '&', '|', '^', '~']

/-- The tokens of a line (R76); `;` and `//` begin a comment. -/
def lexFrom : Pending → List Char → Except AsmErr (List Tok)
  | p, [] => p.ended
  | p, c :: cs =>
    match p.extend c with
    | some q => lexFrom q cs
    | none =>
      if p == .op '/' && c == '/' then .ok []
      else if p == .op '<' && c == '<' then do return .shl :: (← lexFrom .blank cs)
      else if p == .op '>' && c == '>' then do return .shr :: (← lexFrom .blank cs)
      else do
        let before ← p.ended
        if c == ';' then return before
        else if c == ' ' || c == '\t' || c == '\r' || c == '\n' then return before ++ (← lexFrom .blank cs)
        else if c.isDigit then return before ++ (← lexFrom (.num [c]) cs)
        else if nameStart c then return before ++ (← lexFrom (.name [c]) cs)
        else if c == '/' || c == '<' || c == '>' then return before ++ (← lexFrom (.op c) cs)
        else if loneSymbols.contains c then return before ++ .sym c :: (← lexFrom .blank cs)
        else .error (.badCharacter c)

/-- The tokens of a source line. -/
def tokens (line : String) : Except AsmErr (List Tok) := lexFrom .blank line.toList

/-! ### Literals (R80) -/

/-- The value of a digit, 16 and above for what is none. -/
def digitValue (c : Char) : Nat :=
  if c.isDigit then c.toNat - '0'.toNat
  else if 'a' ≤ c && c ≤ 'f' then c.toNat - 'a'.toNat + 10
  else if 'A' ≤ c && c ≤ 'F' then c.toNat - 'A'.toNat + 10
  else 16

/-- A numeral in a base, with underscores between digits only; after tells whether a digit stands just before. -/
def numeral (base : Nat) : List Char → Nat → Bool → Option Nat
  | [], acc, after => if after then some acc else none
  | c :: cs, acc, after =>
    if c == '_' then (if after then numeral base cs acc false else none)
    else if digitValue c < base then numeral base cs (acc * base + digitValue c) true
    else none

/-- An integer literal: decimal, 0x hexadecimal or 0b binary. -/
def naturalOf : List Char → Option Nat
  | '0' :: 'x' :: r => numeral 16 r 0 false
  | '0' :: 'b' :: r => numeral 2 r 0 false
  | r => numeral 10 r 0 false

/-- An integer literal as a 64-bit value. -/
def integerOf (text : String) : Except AsmErr Word :=
  match naturalOf text.toList with
  | none => .error (.badNumber text)
  | some n => if n < 2 ^ 64 then .ok (BitVec.ofNat 64 n) else .error .outOfRange

/-- The part of a list before the first character that passes a test, and what follows it. -/
def cutAt (p : Char → Bool) : List Char → List Char × Option (List Char)
  | [] => ([], none)
  | c :: cs => if p c then ([], some cs) else let (a, b) := cutAt p cs; (c :: a, b)

/-- A decimal literal of `.f32` and `.bf16` as numerator and denominator (R81): digits, an optional fraction and an optional
exponent (DESIGN CHOICE, log entry 72). -/
def decimalOf (cs : List Char) : Option (Nat × Nat) := do
  let (mantissa, exponent) := cutAt (fun c => c == 'e' || c == 'E') cs
  let (whole, fraction) := cutAt (· == '.') mantissa
  let w ← numeral 10 whole 0 false
  let (f, k) ← match fraction with
    | none => some (0, 0)
    | some r => (numeral 10 r 0 false).map fun f => (f, (r.filter (· != '_')).length)
  let m := w * 10 ^ k + f
  match exponent with
  | none => some (m, 10 ^ k)
  | some ('-' :: r) => (numeral 10 r 0 false).map fun e => (m, 10 ^ (k + e))
  | some ('+' :: r) | some r => (numeral 10 r 0 false).map fun e => (m * 10 ^ e, 10 ^ k)

/-- One value of `.f32` or `.bf16`: a decimal literal is rounded RNE, a 0x literal is the exact bit pattern (Table 2.10). -/
def floatOf (t : ElemTy) (neg : Bool) (text : String) : Except AsmErr Nat :=
  match text.toList with
  | '0' :: 'x' :: r =>
    match numeral 16 r 0 false with
    | none => .error (.badNumber text)
    | some n => if neg then .error .badOperand else if n < 2 ^ t.bits then .ok n else .error .outOfRange
  | cs =>
    match decimalOf cs with
    | none => .error (.badNumber text)
    | some (m, q) =>
      .ok (t.ffmt.round .rne false neg (if m = 0 then ⟨0, 0, false⟩ else Machine.divMag m q 64 0)).1

/-! ### Expressions (R80) -/

/-- A defined name: its value, and whether it is a label in `.code` (R81). -/
structure Sym where
  name : String
  value : Word
  isCode : Bool
  deriving DecidableEq, Repr

/-- The definition of a name. -/
def lookup (syms : List Sym) (name : String) : Except AsmErr Sym :=
  match syms.find? (·.name == name) with
  | some s => .ok s
  | none => .error (.undefinedName name)

/-- The level at which a binary operator binds: the higher, the tighter, in the order of C (DESIGN CHOICE, log entry 72). -/
def opLevel : Tok → Option Nat
  | .sym '|' => some 0
  | .sym '^' => some 1
  | .sym '&' => some 2
  | .shl | .shr => some 3
  | .sym '+' | .sym '-' => some 4
  | .sym '*' | .sym '/' | .sym '%' => some 5
  | _ => none

/-- The level of an operand and of the unary operators. -/
def unaryLevel : Nat := 6

/-- A binary operator in 64-bit two's complement (R80); division truncates toward zero, a right shift keeps the sign, and a
negative shift count is refused (DESIGN CHOICE, log entry 72). -/
def applyOp (op : Tok) (x y : Word) : Except AsmErr Word :=
  match op with
  | .sym '|' => .ok (x ||| y)
  | .sym '^' => .ok (x ^^^ y)
  | .sym '&' => .ok (x &&& y)
  | .shl => if y.msb then .error .outOfRange else .ok (if y.toNat < 64 then x <<< y.toNat else 0)
  | .shr => if y.msb then .error .outOfRange else .ok (x.sshiftRight (min y.toNat 63))
  | .sym '+' => .ok (x + y)
  | .sym '-' => .ok (x - y)
  | .sym '*' => .ok (x * y)
  | .sym '/' => if y = 0 then .error .divideByZero else .ok (x.sdiv y)
  | .sym '%' => if y = 0 then .error .divideByZero else .ok (x.srem y)
  | _ => .error .badExpression

/-- `bits(x, hi, lo)` yields x[hi:lo] (R80). -/
def bitField (x hi lo : Word) : Except AsmErr Word :=
  if lo.toNat ≤ hi.toNat ∧ hi.toNat < 64 then .ok (BitVec.ofNat 64 (bitsOf x.toNat hi.toNat lo.toNat)) else .error .outOfRange

/-- What a reading of an expression does next: read an operand of a level, or go on after the left operand x of a level. -/
inductive Job
  | operand (level : Nat)
  | after (level : Nat) (x : Word)
  deriving DecidableEq, Repr

/-- Reads tokens as an expression: the value and the tokens left. The first argument bounds the depth. -/
def evalJob (syms : List Sym) : Nat → Job → List Tok → Except AsmErr (Word × List Tok)
  | 0, _, _ => .error .badExpression
  | depth + 1, .after level x, ts =>
    match ts with
    | op :: rest =>
      if opLevel op == some level then do
        let (y, rest) ← evalJob syms depth (.operand (level + 1)) rest
        let z ← applyOp op x y
        evalJob syms depth (.after level z) rest
      else .ok (x, ts)
    | [] => .ok (x, [])
  | depth + 1, .operand level, ts =>
    if level < unaryLevel then do
      let (x, rest) ← evalJob syms depth (.operand (level + 1)) ts
      evalJob syms depth (.after level x) rest
    else
      match ts with
      | .sym '-' :: rest => do
        let (x, rest) ← evalJob syms depth (.operand unaryLevel) rest
        return (-x, rest)
      | .sym '+' :: rest => evalJob syms depth (.operand unaryLevel) rest
      | .sym '~' :: rest => do
        let (x, rest) ← evalJob syms depth (.operand unaryLevel) rest
        return (~~~x, rest)
      | .sym '(' :: rest => do
        match ← evalJob syms depth (.operand 0) rest with
        | (x, .sym ')' :: rest) => return (x, rest)
        | _ => .error .badExpression
      | .num text :: rest => do
        return (← integerOf text, rest)
      | .name "bits" :: .sym '(' :: rest => do
        match ← evalJob syms depth (.operand 0) rest with
        | (x, .sym ',' :: rest) =>
          match ← evalJob syms depth (.operand 0) rest with
          | (hi, .sym ',' :: rest) =>
            match ← evalJob syms depth (.operand 0) rest with
            | (lo, .sym ')' :: rest) => return (← bitField x hi lo, rest)
            | _ => .error .badExpression
          | _ => .error .badExpression
        | _ => .error .badExpression
      | .name n :: rest => do
        return ((← lookup syms n).value, rest)
      | _ => .error .badExpression

/-- The value of a whole operand that is an expression (R80). -/
def evalExpr (syms : List Sym) (ts : List Tok) : Except AsmErr Word := do
  match ← evalJob syms (16 * ts.length + 16) (.operand 0) ts with
  | (x, []) => return x
  | _ => .error .badExpression

/-- An expression within a range, read as a signed number. -/
def evalIn (syms : List Sym) (lo hi : Int) (ts : List Tok) : Except AsmErr Int := do
  let x := (← evalExpr syms ts).toInt
  if lo ≤ x ∧ x ≤ hi then return x else .error .outOfRange

end Sys2Proof.Asm
end

