-- ==== Sys2Proof/Machine/AsmTable.lean ====
section
/-! DEFINITION. The mnemonics of pliper (R77 to R79): for each its format, its fixed fields and the order of its operands, as
Table 2.9 and the class chapters give them, and the word that an instruction line assembles to. -/

namespace Sys2Proof.Asm

/-! ### Forms -/

/-- The format of a mnemonic with its major and the fields that the mnemonic itself fixes (Tables 2.3 and 2.7). x is
X[10:5]; high is D[4:3] of `cmpi`; select is IMM[15:14] of the immediate shifts. -/
inductive Fmt
  | g (maj : BitVec 6) (fn : BitVec 5)
  | csr (fn : BitVec 5)
  | i (maj : BitVec 6) (high select : BitVec 2)
  | b (maj : BitVec 6)
  | s (maj : BitVec 6) (size : Size) (q : Qual)
  | v (maj : BitVec 6) (fn : BitVec 5) (t : ElemTy) (vb : BitVec 5)
  | vm (maj : BitVec 6) (t : ElemTy) (q : Qual)
  | c (maj : BitVec 6) (fn : BitVec 5) (x : BitVec 6)
  | m (shape : Shape) (fa : FmtA) (fb : FmtB) (ovr sha tra : Bool)
  deriving DecidableEq, Repr

/-- The place of one operand (Table 2.9): the field it fills and what it must be written as. -/
inductive Slot
  /-- A g register in D, A or B. -/
  | gD | gA | gB
  /-- A g register in A or B that may carry the trap-on-empty mark (R78). -/
  | gAt | gBt
  /-- A predicate in D, A or B. -/
  | pD | pA | pB
  /-- A single vector or stream register in D, A or B. -/
  | vD | vA | vB
  /-- A grouped one; its suffix sets W. -/
  | vDg | vAg | vBg
  /-- The group of `tdec`, whose suffix sets X[8:7]. -/
  | vDx
  /-- A numbered unit such as acc3 or tw1, its number into X[10:5] from bit 0 up. -/
  | unit (file : String) (count : Nat)
  /-- The accumulator, A buffer and weight buffer of `mma`. -/
  | acc | ab | wb
  /-- A literal 0 to most in B, or in X[10:5]. -/
  | litB (most : Nat)
  | litX (most : Nat)
  /-- The width 8, 16 or 32 of `sext` and `zext`. -/
  | width
  /-- The byte count of `tld` and `tst`, in X[10:5] as units of 512 less one. -/
  | tile
  /-- IMM16 signed, unsigned, or a shift amount (R69). -/
  | immS | immU | amount
  /-- A label in `.code`, as the distance from the instruction (R78). -/
  | target
  /-- A memory operand with an offset of unit bytes times most 2^bits signed units (R65, R67, R78). -/
  | mem (unit bits : Nat)
  /-- A control register's name (Table 2.2). -/
  | csrName
  deriving DecidableEq, Repr

/-- A mnemonic's form: its format, and the operand orders it accepts, at most one for each number of operands. -/
structure Form where
  fmt : Fmt
  orders : List (List Slot)
  deriving DecidableEq, Repr

/-! ### Suffixes -/

/-- An element type's suffix (Table 2.4). -/
def typeSuffix : List (String × ElemTy) :=
  [("i8", .i8), ("n8", .n8), ("i16", .i16), ("n16", .n16), ("i32", .i32), ("n32", .n32), ("i64", .i64), ("n64", .n64),
   ("f32", .f32), ("f16", .f16), ("bf16", .bf16), ("e4m3", .e4m3), ("e5m2", .e5m2), ("q8", .q8), ("q4", .q4), ("auto", .auto)]

/-- A size suffix of the S format (R122). -/
def sizeSuffix : List (String × Size) := [("b", .b), ("h", .h), ("w", .w), ("d", .d)]

/-- The qualifier suffixes of loads (R66). -/
def loadQual : List (String × Qual) := [("acq", .order), ("wf", .full), ("wfc", .exchange)]
/-- The qualifier suffixes of stores (R66). -/
def storeQual : List (String × Qual) := [("rel", .order), ("sf", .full), ("wesf", .exchange)]

/-- An optional qualifier. -/
def qualOf (table : List (String × Qual)) : List String → Option Qual
  | [] => some .plain
  | [q] => table.lookup q
  | _ => none

/-- The operation suffixes of `fop`, `rfop` (R77, Tables 13.2 and 11.7) but for `fadd.ts`. -/
def opSuffix : List (String × FopOp) :=
  [("add", .add), ("and", .and), ("or", .or), ("xor", .xor), ("min", .min), ("max", .max), ("minu", .minu), ("maxu", .maxu),
   ("swap", .swap)]

/-- The shapes of `mma` (R253). -/
def shapeSuffix : List (String × Shape) := [("sq", .sq), ("skinny", .skinny), ("bd8", .bd8)]
/-- The A formats of `mma` (Table 2.5). -/
def fmtASuffix : List (String × FmtA) :=
  [("bf16", .bf16), ("f16", .f16), ("e4m3", .e4m3), ("e5m2", .e5m2), ("q8", .q8), ("f32", .f32)]
/-- The B formats of `mma` (Table 2.5). -/
def fmtBSuffix : List (String × FmtB) :=
  [("bf16", .bf16), ("f16", .f16), ("e4m3", .e4m3), ("e5m2", .e5m2), ("q8", .q8), ("q4", .q4), ("f32", .f32), ("tc2", .tc2),
   ("tc3", .tc3), ("tc4", .tc4)]

/-- The flags of `mma`, each at most once, in the order `.ovr`, `.sha`, `.tra` (R77). -/
def mmaFlags (fs : List String) : Option (Bool × Bool × Bool) :=
  let (ovr, fs) := match fs with | "ovr" :: r => (true, r) | r => (false, r)
  let (sha, fs) := match fs with | "sha" :: r => (true, r) | r => (false, r)
  let (tra, fs) := match fs with | "tra" :: r => (true, r) | r => (false, r)
  if fs.isEmpty then some (ovr, sha, tra) else none

/-- The scope suffixes of `fence` (Table 12.2). -/
def scopeSuffix : List (String × Scope) :=
  [("thr", .thread), ("core", .core), ("rect", .rect), ("dev", .device), ("dom", .domain)]
/-- The kinds of `fence`, as the mask X[7:5] (R70, Table 12.4). -/
def kindsSuffix : List (String × BitVec 3) :=
  [("l", 1), ("m", 2), ("lm", 3), ("r", 4), ("lr", 5), ("mr", 6), ("lmr", 7)]

/-- The sizes of `rget` and `rput` (Table 11.5). -/
def remSuffix : List (String × RemSize) := [("b", .b), ("h", .h), ("w", .w), ("d", .d), ("v", .v)]
/-- The shapes of `rfop` (Table 11.7). -/
def rfopSuffix : List (String × RfopShape) := [("w", .w), ("d", .d), ("v16", .v16), ("v64", .v64)]
/-- The formats of `accst` and `accld`. -/
def accSuffix : List (String × AccFmt) := [("f32", .f32), ("bf16", .bf16), ("f16", .f16)]
/-- The relations of `cmpi` (R117). -/
def relSuffix : List (String × Rel) := [("eq", .eq), ("lt", .lt), ("ltu", .ltu), ("ne", .ne)]

/-! ### Mnemonics without suffix -/

/-- Names numbered in order of function code. -/
def inOrder (names : List String) : List (String × Nat) := names.zipIdx

/-- MAJ 0x01, two sources (Table 4.2). -/
def aluNames : List String :=
  ["add", "sub", "and", "or", "xor", "andn", "sll", "srl", "sra", "min", "max", "minu", "maxu", "slt", "sltu", "seq", "mul",
   "mulh", "mulhu", "div", "divu", "rem", "remu"]

/-- The G-format mnemonics (Tables 2.7 and 2.9, 14.4). -/
def gForms : List (String × Form) :=
  (inOrder aluNames).map (fun (n, k) => (n, ⟨.g 0x01 (BitVec.ofNat 5 k), [[.gD, .gAt, .gBt]]⟩))
  ++ [("clz", ⟨.g 0x01 0x17, [[.gD, .gAt]]⟩), ("ctz", ⟨.g 0x01 0x18, [[.gD, .gAt]]⟩), ("popc", ⟨.g 0x01 0x19, [[.gD, .gAt]]⟩),
      ("sext", ⟨.g 0x01 0x1A, [[.gD, .gAt, .width]]⟩), ("zext", ⟨.g 0x01 0x1B, [[.gD, .gAt, .width]]⟩)]
  ++ [("addp", ⟨.g 0x02 0, [[.gD, .gAt, .gBt]]⟩), ("subp", ⟨.g 0x02 1, [[.gD, .gAt, .gBt]]⟩),
      ("ptag", ⟨.g 0x02 2, [[.gD, .gAt, .gBt]]⟩), ("gtag", ⟨.g 0x02 3, [[.gD, .gAt]]⟩), ("pva", ⟨.g 0x02 4, [[.gD, .gAt]]⟩),
      ("pchk", ⟨.g 0x02 5, [[.gD, .gAt]]⟩)]
  ++ (inOrder ["ceq", "cne", "clt", "cltu", "cge", "cgeu"]).map (fun (n, k) => (n, ⟨.g 0x03 (BitVec.ofNat 5 k), [[.pD, .gAt, .gBt]]⟩))
  ++ [("pand", ⟨.g 0x03 6, [[.pD, .pA, .pB]]⟩), ("por", ⟨.g 0x03 7, [[.pD, .pA, .pB]]⟩),
      ("pxor", ⟨.g 0x03 8, [[.pD, .pA, .pB]]⟩), ("pandn", ⟨.g 0x03 9, [[.pD, .pA, .pB]]⟩)]
  ++ [("mov", ⟨.g 0x04 0, [[.gD, .gAt]]⟩), ("p2g", ⟨.g 0x04 1, [[.gD, .pA]]⟩), ("g2p", ⟨.g 0x04 2, [[.pD, .gAt]]⟩),
      ("jr", ⟨.g 0x12 0, [[.gAt]]⟩)]
  ++ [("trap", ⟨.g 0x38 0, [[.gAt, .gBt]]⟩), ("eret", ⟨.g 0x38 1, [[.gD, .gAt, .gBt]]⟩), ("halt", ⟨.g 0x38 2, [[], [.gAt]]⟩),
      ("sysc", ⟨.g 0x38 3, [[.gD, .gAt, .gBt]]⟩), ("brk", ⟨.g 0x38 4, [[.litB 31]]⟩), ("trc", ⟨.g 0x38 5, [[.gAt, .gBt]]⟩)]

/-- The CSR, I- and B-format mnemonics without suffix (R79, R112, R121, R131). -/
def iForms : List (String × Form) :=
  [("csrr", ⟨.csr 6, [[.gD, .csrName]]⟩), ("csrw", ⟨.csr 7, [[.gD, .csrName, .gA], [.csrName, .gA]]⟩),
   ("csrs", ⟨.csr 8, [[.gD, .csrName, .gA], [.csrName, .gA]]⟩), ("csrc", ⟨.csr 9, [[.gD, .csrName, .gA], [.csrName, .gA]]⟩),
   ("addi", ⟨.i 0x05 0 0, [[.gD, .gA, .immS]]⟩), ("andi", ⟨.i 0x06 0 0, [[.gD, .gA, .immU]]⟩),
   ("ori", ⟨.i 0x07 0 0, [[.gD, .gA, .immU]]⟩), ("xori", ⟨.i 0x08 0 0, [[.gD, .gA, .immU]]⟩),
   ("slli", ⟨.i 0x09 0 0, [[.gD, .gA, .amount]]⟩), ("srli", ⟨.i 0x09 0 1, [[.gD, .gA, .amount]]⟩),
   ("srai", ⟨.i 0x09 0 2, [[.gD, .gA, .amount]]⟩), ("li", ⟨.i 0x0A 0 0, [[.gD, .immS]]⟩),
   ("lui", ⟨.i 0x0B 0 0, [[.gD, .gA, .immU]]⟩), ("luh", ⟨.i 0x0C 0 0, [[.gD, .gA, .immU]]⟩),
   ("lut", ⟨.i 0x0D 0 0, [[.gD, .gA, .immU]]⟩), ("br", ⟨.b 0x10, [[.target]]⟩), ("call", ⟨.b 0x11, [[.target]]⟩),
   ("dbnz", ⟨.i 0x13 0 0, [[.gD, .target]]⟩)]

/-- The engine classes' C-format mnemonics without suffix (Tables 8.6 and 10.6; R181, R182, R194, R267). -/
def engineForms : List (String × Form) :=
  [("mgset", ⟨.c 0x25 0 0, [[.unit "mg" 8, .gA]]⟩), ("mgget", ⟨.c 0x25 1 0, [[.gD, .unit "mg" 8]]⟩),
   ("owne", ⟨.c 0x25 2 0, [[.gD, .gA]]⟩), ("ownq", ⟨.c 0x25 3 0, [[.gD]]⟩), ("mwait", ⟨.c 0x25 4 0, [[]]⟩),
   ("accz", ⟨.c 0x25 5 0, [[.gA]]⟩), ("abld", ⟨.c 0x25 8 0, [[.unit "ab" 4, .gA, .gB]]⟩),
   ("wbld", ⟨.c 0x25 9 0, [[.unit "wb" 4, .gA, .gB]]⟩),
   ("twset", ⟨.c 0x28 0 0, [[.gD, .unit "tw" 4, .gA]]⟩), ("tdec", ⟨.c 0x28 1 0, [[.vDx, .unit "tw" 4, .gA, .gB]]⟩),
   ("tdecr", ⟨.c 0x28 2 0, [[.vD, .unit "tw" 4, .gA, .vB]]⟩), ("tenc", ⟨.c 0x28 3 0, [[.gD, .gA, .gB]]⟩),
   ("tencw", ⟨.c 0x28 4 0, [[.gD]]⟩),
   ("rowact", ⟨.c 0x2A 0 0, [[.gA]]⟩), ("rowpre", ⟨.c 0x2A 1 0, [[.gA]]⟩), ("tld", ⟨.c 0x2A 2 0, [[.gA, .gB, .tile]]⟩),
   ("tst", ⟨.c 0x2A 3 0, [[.gA, .gB, .tile]]⟩), ("rowq", ⟨.c 0x2A 4 0, [[.gD, .gA]]⟩), ("vsync", ⟨.c 0x2A 5 0, [[]]⟩),
   ("pmig", ⟨.c 0x2A 6 0, [[.gD, .gA, .gB]]⟩), ("ptq", ⟨.c 0x2A 7 0, [[.gD, .gA]]⟩),
   ("cpy", ⟨.c 0x2C 0 0, [[.gD, .gA, .litX 15]]⟩), ("cpyq", ⟨.c 0x2C 1 0, [[.gD, .gA]]⟩), ("cpyw", ⟨.c 0x2C 2 0, [[.gD, .gA]]⟩),
   ("sbind", ⟨.c 0x2C 3 0, [[.gD, .unit "s" 8, .gA]]⟩), ("sunb", ⟨.c 0x2C 4 0, [[.gD, .unit "s" 8]]⟩),
   ("sparkq", ⟨.c 0x2C 5 0, [[.gD, .gA]]⟩)]

/-- The C-format mnemonics without suffix of the remote, ordering, calendar and task classes (Tables 11.5, 12.4, 7.10; R207). -/
def controlForms : List (String × Form) :=
  [("amsg", ⟨.c 0x2E 4 0, [[.gD, .gA, .gB]]⟩), ("msend", ⟨.c 0x2E 5 0, [[.vD, .gA, .gB]]⟩),
   ("mrecv", ⟨.c 0x2E 6 0, [[.vD, .gA]]⟩), ("rstat", ⟨.c 0x2E 7 0, [[.gD]]⟩),
   ("wait", ⟨.c 0x32 1 0, [[.gD, .gA, .gB]]⟩), ("signal", ⟨.c 0x32 2 0, [[.gA, .gB]]⟩), ("sstep", ⟨.c 0x32 3 0, [[.gA, .gB]]⟩),
   ("bar", ⟨.c 0x32 4 0, [[.gA, .gB]]⟩), ("redm", ⟨.c 0x32 5 0, [[.gD, .gA, .gB]]⟩), ("ownf", ⟨.c 0x32 6 0, [[.gD, .gA, .gB]]⟩),
   ("fencei", ⟨.c 0x32 7 0, [[]]⟩),
   ("book", ⟨.c 0x34 0 0, [[.gD, .gA], [.gD, .gA, .gB]]⟩), ("arm", ⟨.c 0x34 1 0, [[.gA]]⟩), ("done", ⟨.c 0x34 2 0, [[]]⟩),
   ("unbook", ⟨.c 0x34 3 0, [[.gD, .gA]]⟩), ("calq", ⟨.c 0x34 4 0, [[.gD, .gA, .gB]]⟩), ("calmv", ⟨.c 0x34 5 0, [[.gD, .gA, .gB]]⟩),
   ("spawn", ⟨.c 0x36 0 0, [[.gD, .gA]]⟩), ("take", ⟨.c 0x36 1 0, [[.gD, .gA]]⟩), ("seek", ⟨.c 0x36 2 0, [[.gD, .gA]]⟩),
   ("tfin", ⟨.c 0x36 3 0, [[.gA]]⟩), ("term", ⟨.c 0x36 4 0, [[.gD]]⟩), ("dqn", ⟨.c 0x36 5 0, [[.gD]]⟩)]

/-! ### Vector mnemonics (the type follows) -/

/-- A V-format mnemonic: major, function code and operands. -/
structure VForm where
  name : String
  maj : BitVec 6
  fn : BitVec 5
  slots : List Slot
  deriving DecidableEq, Repr

/-- Two grouped sources. -/
def twoSources : List Slot := [.vDg, .vAg, .vBg]
/-- One grouped source. -/
def oneSource : List Slot := [.vDg, .vAg]

/-- MAJ 0x18 (Table 5.3). -/
def vfForms : List VForm :=
  (inOrder ["vadd", "vsub", "vmul", "vfma", "vfms", "vmin", "vmax", "vminn", "vmaxn"]).map
    (fun (n, k) => ⟨n, 0x18, BitVec.ofNat 5 k, twoSources⟩)
  ++ [⟨"vabs", 0x18, 0x09, oneSource⟩, ⟨"vneg", 0x18, 0x0A, oneSource⟩, ⟨"vcpsgn", 0x18, 0x0B, twoSources⟩,
      ⟨"vrndi", 0x18, 0x0C, [.vDg, .vAg, .litB 4]⟩, ⟨"vceq", 0x18, 0x0D, twoSources⟩, ⟨"vclt", 0x18, 0x0E, twoSources⟩,
      ⟨"vcle", 0x18, 0x0F, twoSources⟩, ⟨"vcun", 0x18, 0x10, twoSources⟩, ⟨"vclass", 0x18, 0x11, oneSource⟩,
      ⟨"vgetexp", 0x18, 0x12, oneSource⟩, ⟨"vexpins", 0x18, 0x13, twoSources⟩]

/-- MAJ 0x19 (Table 5.6). -/
def viForms : List VForm :=
  (inOrder ["vadd", "vsub", "vmul", "vmulh", "vadds", "vsubs", "vmin", "vmax", "vavg", "vabsd", "vsll", "vsrl", "vsra", "vand",
    "vor", "vxor", "vandn", "vceq", "vclt", "vsel", "vmac"]).map (fun (n, k) => ⟨n, 0x19, BitVec.ofNat 5 k, twoSources⟩)

/-- The other typed V-format mnemonics (Table 5.7; R145 to R148, R157). -/
def vxForms : List VForm :=
  [⟨"vbc", 0x1A, 0, [.vDg, .gA]⟩, ⟨"vins", 0x1A, 1, [.vDg, .gA, .gB]⟩, ⟨"vext", 0x1A, 2, [.gD, .vAg, .gB]⟩,
   ⟨"vperm", 0x1A, 3, twoSources⟩, ⟨"vzip", 0x1A, 4, twoSources⟩, ⟨"vuzp", 0x1A, 5, oneSource⟩,
   ⟨"vslide", 0x1A, 6, [.vDg, .vAg, .gB]⟩, ⟨"vrot", 0x1A, 7, [.vDg, .vAg, .gB]⟩,
   ⟨"vradd", 0x1B, 0, [.vD, .vAg]⟩, ⟨"vrmin", 0x1B, 1, [.vD, .vAg]⟩, ⟨"vrmax", 0x1B, 2, [.vD, .vAg]⟩,
   ⟨"vdot4", 0x1B, 3, twoSources⟩, ⟨"vdot2", 0x1B, 4, twoSources⟩,
   ⟨"vpk", 0x1C, 4, [.vD, .vAg]⟩, ⟨"vunpk", 0x1C, 5, [.vDg, .vA]⟩, ⟨"vlane", 0x1D, 2, [.vDg]⟩,
   ⟨"vrcp", 0x20, 0, oneSource⟩, ⟨"vrsqrt", 0x20, 1, oneSource⟩, ⟨"vsqrt", 0x20, 2, oneSource⟩, ⟨"vdiv", 0x20, 3, twoSources⟩,
   ⟨"vfexp2", 0x20, 4, oneSource⟩, ⟨"vlog2", 0x20, 5, oneSource⟩, ⟨"vsinpi", 0x20, 6, oneSource⟩,
   ⟨"vcospi", 0x20, 7, oneSource⟩, ⟨"vtanh", 0x20, 8, oneSource⟩,
   ⟨"vgath", 0x21, 0, [.vDg, .vA, .gB]⟩, ⟨"vscat", 0x21, 1, [.vDg, .vA, .gB]⟩]

/-- The major of a name in both VF and VI follows from the type: 8 to 10 give VF and 0 to 7 give VI (R77). -/
def vectorForm (name : String) (t : ElemTy) : Option Form :=
  let table := if t.num ≤ 7 then viForms ++ vxForms else if t.num ≤ 10 then vfForms ++ vxForms else vxForms
  (table.find? (·.name == name)).map fun f => ⟨.v f.maj f.fn t 0, [f.slots]⟩

/-- The operands of `vcvt`: the group suffix stands on the operand of the wider type, or on both (R104). -/
def cvtSlots (td ts : ElemTy) : List Slot :=
  if td.bits < ts.bits then [.vD, .vAg] else if ts.bits < td.bits then [.vDg, .vA] else [.vDg, .vAg]

/-- VB of `vcvt`: the source type and sat (R104). -/
def cvtVb (ts : ElemTy) (sat : Bool) : BitVec 5 := BitVec.ofBool sat ++ ts.code

/-! ### The form of a mnemonic with its suffixes -/

/-- The slots of a remote request's register operand: v registers for the vector forms. -/
def remoteSlots (vector : Bool) : List (List Slot) := [[if vector then .vD else .gD, .gA, .gB]]

/-- The form of `rfop` (Table 11.7): X[8:5] the operation, X[10:9] the shape. -/
def rfopForm (op : FopOp) (shape : String) : Option Form := do
  let sh ← rfopSuffix.lookup shape
  some ⟨.c 0x2E 2 (sh.code ++ op.code), remoteSlots (sh == .v16 || sh == .v64)⟩

/-- A mnemonic taken apart at its full stops: the form of that instruction, none where R77 knows no such spelling. -/
def formOf : List String → Option Form
  | ["vmov"] => some ⟨.v 0x1D 0 .i8 0, [oneSource]⟩
  | ["vzero"] => some ⟨.v 0x1D 1 .i8 0, [[.vDg]]⟩
  | [name] =>
    match gForms.lookup name with
    | some f => some f
    | none =>
      match iForms.lookup name with
      | some f => some f
      | none => (engineForms ++ controlForms).lookup name
  | ["cmpi", rel] => (relSuffix.lookup rel).map fun r => ⟨.i 0x0E r.code 0, [[.pD, .gA, if r == .ltu then .immU else .immS]]⟩
  | "ld" :: size :: q => do
    let z ← sizeSuffix.lookup size
    some ⟨.s 0x14 z (← qualOf loadQual q), [[.gD, .mem z.bytes 12]]⟩
  | "ldu" :: size :: q => do
    let z ← sizeSuffix.lookup size
    some ⟨.s 0x15 z (← qualOf loadQual q), [[.gD, .mem z.bytes 12]]⟩
  | "st" :: size :: q => do
    let z ← sizeSuffix.lookup size
    some ⟨.s 0x16 z (← qualOf storeQual q), [[.gD, .mem z.bytes 12]]⟩
  | "vld" :: type :: q => do
    some ⟨.vm 0x22 (← typeSuffix.lookup type) (← qualOf loadQual q), [[.vDg, .mem 64 8]]⟩
  | "vst" :: type :: q => do
    some ⟨.vm 0x23 (← typeSuffix.lookup type) (← qualOf storeQual q), [[.vDg, .mem 64 8]]⟩
  | "mma" :: shape :: fa :: fb :: flags => do
    let (ovr, sha, tra) ← mmaFlags flags
    some ⟨.m (← shapeSuffix.lookup shape) (← fmtASuffix.lookup fa) (← fmtBSuffix.lookup fb) ovr sha tra, [[.acc, .ab, .wb]]⟩
  | ["vcvt", td, ts] => do
    let (d, s) := (← typeSuffix.lookup td, ← typeSuffix.lookup ts)
    some ⟨.v 0x1C 0 d (cvtVb s false), [cvtSlots d s]⟩
  | ["vcvt", td, ts, "sat"] => do
    let (d, s) := (← typeSuffix.lookup td, ← typeSuffix.lookup ts)
    some ⟨.v 0x1C 0 d (cvtVb s true), [cvtSlots d s]⟩
  | ["vq", td, "f32"] => do some ⟨.v 0x1C 2 (← typeSuffix.lookup td) 0, [[.vD, .vAg, .vB]]⟩
  | ["vdq", td, "q8"] => do some ⟨.v 0x1C 3 (← typeSuffix.lookup td) 0, [[.vDg, .vA]]⟩
  | ["vdq", td, "q4"] => do some ⟨.v 0x1C 3 (← typeSuffix.lookup td) 1, [[.vDg, .vA]]⟩
  | ["fop", "fadd", "ts"] => some ⟨.g 0x30 0x09, [[.gD, .gAt, .gBt]]⟩
  | ["fop", op, "w"] => (opSuffix.lookup op).map fun o => ⟨.g 0x30 ((0 : BitVec 1) ++ o.code), [[.gD, .gAt, .gBt]]⟩
  | ["fop", op, "d"] => (opSuffix.lookup op).map fun o => ⟨.g 0x30 ((1 : BitVec 1) ++ o.code), [[.gD, .gAt, .gBt]]⟩
  | ["cas", "w"] => some ⟨.g 0x31 0, [[.gD, .gAt, .gBt]]⟩
  | ["cas", "d"] => some ⟨.g 0x31 1, [[.gD, .gAt, .gBt]]⟩
  | ["accst", fmt] => (accSuffix.lookup fmt).map fun f => ⟨.c 0x25 6 ((0 : BitVec 1) ++ f.code ++ (0 : BitVec 3)), [[.unit "acc" 8, .gA, .gB]]⟩
  | ["accld", fmt] => (accSuffix.lookup fmt).map fun f => ⟨.c 0x25 7 ((0 : BitVec 1) ++ f.code ++ (0 : BitVec 3)), [[.unit "acc" 8, .gA, .gB]]⟩
  | ["rget", size] => (remSuffix.lookup size).map fun z => ⟨.c 0x2E 0 ((0 : BitVec 3) ++ z.code), remoteSlots (z == .v)⟩
  | ["rput", size] => (remSuffix.lookup size).map fun z => ⟨.c 0x2E 1 ((0 : BitVec 3) ++ z.code), remoteSlots (z == .v)⟩
  | ["rfop", "fadd", "ts", shape] => rfopForm .faddTs shape
  | ["rfop", op, shape] => do rfopForm (← opSuffix.lookup op) shape
  | ["rcas", "w"] => some ⟨.c 0x2E 3 0, remoteSlots false⟩
  | ["rcas", "d"] => some ⟨.c 0x2E 3 1, remoteSlots false⟩
  | ["mrecv", "wait"] => some ⟨.c 0x2E 6 1, [[.vD, .gA]]⟩
  | ["fence", scope, kinds] => do
    let sc ← scopeSuffix.lookup scope
    let k ← kindsSuffix.lookup kinds
    some ⟨.c 0x32 0 (sc.code ++ k), if sc == .rect then [[], [.gA]] else [[]]⟩
  | [name, type] => do vectorForm name (← typeSuffix.lookup type)
  | _ => none

/-! ### Control-register names (Table 2.2) -/

/-- The names of Table 2.2 with their numbers; a name with a digit at the end is one of a numbered run. -/
def csrNames : List (String × Nat) :=
  [("FPSR", 0x001), ("CYCLE", 0x002), ("TICK", 0x003), ("THREADID", 0x004), ("CTXID", 0x005), ("SSCNT", 0x006), ("EVPEND", 0x007),
   ("VSLIP", 0x010), ("LSLIP", 0x011), ("BOOKID", 0x012), ("SPBASE", 0x020), ("SPSIZE", 0x021), ("OVFP", 0x022), ("TVEC", 0x400),
   ("TRBASE", 0x401), ("TRSIZE", 0x402), ("TRPROD", 0x403), ("TRCONS", 0x404), ("CTXSTAT", 0x405), ("FATALSLOT", 0x406),
   ("WBASE0", 0x410), ("WBASE1", 0x411), ("WBASE2", 0x412), ("WBASE3", 0x413), ("WBASE4", 0x414), ("WBASE5", 0x415),
   ("WBASE6", 0x416), ("WBASE7", 0x417), ("WLIM0", 0x418), ("WLIM1", 0x419), ("WLIM2", 0x41A), ("WLIM3", 0x41B), ("WLIM4", 0x41C),
   ("WLIM5", 0x41D), ("WLIM6", 0x41E), ("WLIM7", 0x41F), ("WCTL0", 0x420), ("WCTL1", 0x421), ("WCTL2", 0x422), ("WCTL3", 0x423),
   ("WCTL4", 0x424), ("WCTL5", 0x425), ("WCTL6", 0x426), ("WCTL7", 0x427), ("THERM0", 0x430), ("THERM1", 0x431),
   ("THERM2", 0x432), ("THERMEFF", 0x433), ("DBGCTL", 0x440), ("WATCH0", 0x441), ("WATCH1", 0x442), ("WATCH2", 0x443),
   ("WATCH3", 0x444), ("PTBASE", 0x450), ("IMBRING", 0x460)]

/-! ### Operands (R78) -/

/-- A text taken apart at its full stops. -/
def dotted : List Char → List String
  | [] => [""]
  | '.' :: cs => "" :: dotted cs
  | c :: cs =>
    match dotted cs with
    | s :: rest => (String.ofList (c :: s.toList)) :: rest
    | [] => [String.ofList [c]]

/-- The number of a register or unit name after its letters: no leading zero, below count. -/
def regNumber (file : String) (count : Nat) (name : String) : Option Nat :=
  if file.toList.isPrefixOf name.toList then
    match name.toList.drop file.length with
    | '0' :: _ :: _ => none
    | digits =>
      if digits.all Char.isDigit then
        match numeral 10 digits 0 false with
        | some n => if n < count then some n else none
        | none => none
      else none
  else none

/-- A vector or stream register with its group suffix; s0 to s7 are v24 to v31 (R48, R78). -/
def vectorOperand (text : String) : Option (Nat × Grp) :=
  match dotted text.toList with
  | name :: grp => do
    let g ← match grp with
      | [] => some Grp.single
      | ["p"] => some .pair
      | ["q"] => some .quad
      | ["o"] => some .octet
      | _ => none
    match regNumber "v" 32 name, regNumber "s" 8 name with
    | some n, _ => some (n, g)
    | none, some n => some (n + 24, g)
    | none, none => none
  | [] => none

/-- The fields that the operands of one instruction fill. -/
structure Fields where
  d : BitVec 5
  a : BitVec 5
  b : BitVec 5
  ea : Bool
  eb : Bool
  grp : Option Grp
  x : BitVec 6
  imm : BitVec 22
  csrn : BitVec 11
  deriving DecidableEq, Repr

/-- No operand yet: a field that no operand fills is 0. -/
def Fields.empty : Fields := ⟨0, 0, 0, false, false, none, 0, 0, 0⟩

/-- What an operand may need to know: the defined names and the instruction's own word index. -/
structure Env where
  syms : List Sym
  pc : Nat
  deriving DecidableEq, Repr

/-- A g register, with the trap-on-empty mark where the place accepts it. -/
def gOperand (marked : Bool) : List Tok → Except AsmErr (BitVec 5 × Bool)
  | [.name n] => match regNumber "g" 32 n with
    | some k => .ok (BitVec.ofNat 5 k, false)
    | none => .error .badOperand
  | [.name n, .sym '!'] => match regNumber "g" 32 n with
    | some k => if marked then .ok (BitVec.ofNat 5 k, true) else .error .badOperand
    | none => .error .badOperand
  | _ => .error .badOperand

/-- A name with a number, such as p3, acc2 or tw1. -/
def unitOperand (file : String) (count : Nat) : List Tok → Except AsmErr Nat
  | [.name n] => match regNumber file count n with
    | some k => .ok k
    | none => .error .badOperand
  | _ => .error .badOperand

/-- A vector operand; in a place that is not grouped it carries no suffix. -/
def vOperand (grouped : Bool) : List Tok → Except AsmErr (BitVec 5 × Grp)
  | [.name n] => match vectorOperand n with
    | some (k, g) => if grouped || g == .single then .ok (BitVec.ofNat 5 k, g) else .error .badOperand
    | none => .error .badOperand
  | _ => .error .badOperand

/-- Every grouped operand of one instruction carries the same suffix (R78). -/
def Fields.withGroup (f : Fields) (g : Grp) : Except AsmErr Fields :=
  match f.grp with
  | none => .ok { f with grp := some g }
  | some h => if h = g then .ok f else .error .groupMismatch

/-- A literal in a range. -/
def litOperand (e : Env) (lo hi : Int) (ts : List Tok) : Except AsmErr Int := evalIn e.syms lo hi ts

/-- The distance from the instruction to a label in `.code` (R78). -/
def targetOperand (e : Env) : List Tok → Except AsmErr Int
  | [.name n] => do
    let s ← lookup e.syms n
    if s.isCode then return (s.value.toNat : Int) - e.pc else .error .notACodeLabel
  | _ => .error .badOperand

/-- A memory operand `[gA + off]` or `[gA]`: the register and the offset in units (R78). -/
def memOperand (e : Env) (unit bits : Nat) : List Tok → Except AsmErr (BitVec 5 × Int)
  | .sym '[' :: .name n :: rest =>
    match regNumber "g" 32 n, rest.getLast? with
    | some k, some (.sym ']') => do
      let inner := rest.dropLast
      match inner with
      | [] => return (BitVec.ofNat 5 k, 0)
      | .sym '+' :: _ | .sym '-' :: _ =>
        let off := (← evalExpr e.syms (.num "0" :: inner)).toInt
        if off % (unit : Int) ≠ 0 then .error .badOffset
        else
          let n := off / (unit : Int)
          if -(2 ^ (bits - 1) : Int) ≤ n ∧ n < (2 ^ (bits - 1) : Int) then return (BitVec.ofNat 5 k, n) else .error .outOfRange
      | _ => .error .badOperand
    | _, _ => .error .badOperand
  | _ => .error .badOperand

/-- One operand put into its field. -/
def fill (e : Env) (f : Fields) (slot : Slot) (ts : List Tok) : Except AsmErr Fields :=
  match slot with
  | .gD => do return { f with d := (← gOperand false ts).1 }
  | .gA => do return { f with a := (← gOperand false ts).1 }
  | .gB => do return { f with b := (← gOperand false ts).1 }
  | .gAt => do let (n, t) ← gOperand true ts; return { f with a := n, ea := t }
  | .gBt => do let (n, t) ← gOperand true ts; return { f with b := n, eb := t }
  | .pD => do return { f with d := BitVec.ofNat 5 (← unitOperand "p" 8 ts) }
  | .pA => do return { f with a := BitVec.ofNat 5 (← unitOperand "p" 8 ts) }
  | .pB => do return { f with b := BitVec.ofNat 5 (← unitOperand "p" 8 ts) }
  | .vD => do return { f with d := (← vOperand false ts).1 }
  | .vA => do return { f with a := (← vOperand false ts).1 }
  | .vB => do return { f with b := (← vOperand false ts).1 }
  | .vDg => do let (n, g) ← vOperand true ts; { f with d := n }.withGroup g
  | .vAg => do let (n, g) ← vOperand true ts; { f with a := n }.withGroup g
  | .vBg => do let (n, g) ← vOperand true ts; { f with b := n }.withGroup g
  | .vDx => do let (n, g) ← vOperand true ts; return { f with d := n, x := f.x ||| (g.code.setWidth 6 <<< 2) }
  | .unit file count => do return { f with x := f.x ||| BitVec.ofNat 6 (← unitOperand file count ts) }
  | .acc => do return { f with d := BitVec.ofNat 5 (← unitOperand "acc" 8 ts) }
  | .ab => do return { f with a := BitVec.ofNat 5 (← unitOperand "ab" 4 ts) }
  | .wb => do return { f with b := BitVec.ofNat 5 (← unitOperand "wb" 4 ts) }
  | .litB most => do return { f with b := BitVec.ofInt 5 (← litOperand e 0 most ts) }
  | .litX most => do return { f with x := f.x ||| BitVec.ofInt 6 (← litOperand e 0 most ts) }
  | .width => do
    let w ← litOperand e 8 32 ts
    if w = 8 then return { f with b := ExtWidth.w8.code }
    else if w = 16 then return { f with b := ExtWidth.w16.code }
    else if w = 32 then return { f with b := ExtWidth.w32.code }
    else .error .outOfRange
  | .tile => do
    let n ← litOperand e 512 32768 ts
    if n % 512 = 0 then return { f with x := BitVec.ofInt 6 (n / 512 - 1) } else .error .outOfRange
  | .immS => do return { f with imm := BitVec.ofInt 22 (← litOperand e (-32768) 32767 ts) }
  | .immU => do return { f with imm := BitVec.ofInt 22 (← litOperand e 0 65535 ts) }
  | .amount => do return { f with imm := BitVec.ofInt 22 (← litOperand e 0 63 ts) }
  | .target => do return { f with imm := BitVec.ofInt 22 (← targetOperand e ts) }
  | .mem unit bits => do let (n, off) ← memOperand e unit bits ts; return { f with a := n, imm := BitVec.ofInt 22 off }
  | .csrName =>
    match ts with
    | [.name n] => match csrNames.lookup n with
      | some k => .ok { f with csrn := BitVec.ofNat 11 k }
      | none => .error (.undefinedName n)
    | _ => .error .badOperand

/-- All operands put into their fields, in order. -/
def fillAll (e : Env) : List Slot → List (List Tok) → Fields → Except AsmErr Fields
  | s :: ss, t :: ts, f => do fillAll e ss ts (← fill e f s t)
  | _, _, f => .ok f

/-! ### Words -/

/-- A prefix is accepted on G-format instructions other than the CSR forms and on B format (R60, R76). -/
def Fmt.predicable : Fmt → Bool
  | .g _ _ | .b _ => true
  | _ => false

/-- W as the group suffix sets it (R63, R78). -/
def Fields.w (f : Fields) : BitVec 2 := (f.grp.getD .single).code

/-- The word of a format with its fields (Table 2.3); an absent prefix is P = 0 with PN = 0. -/
def Fmt.word (fmt : Fmt) (pred : Pred) (f : Fields) : Insn :=
  match fmt with
  | .g maj fn => wordG maj ⟨f.d, f.a, f.b, f.ea, f.eb, pred.p, pred.neg, fn⟩
  | .csr fn => wordCsr 0x38 ⟨f.d, f.a, f.csrn, fn⟩
  | .i maj high select => wordI maj ⟨f.d ||| (high.setWidth 5 <<< 3), f.a, f.imm.setWidth 16 ||| (select.setWidth 16 <<< 14)⟩
  | .b maj => wordB maj ⟨pred.p, pred.neg, f.imm⟩
  | .s maj size q => wordS maj ⟨f.d, f.a, size.code, q.code, f.imm.setWidth 12⟩
  | .v maj fn t vb => wordV maj ⟨f.d, f.a, f.b ||| vb, f.w, t.code, fn⟩
  | .vm maj t q => wordVm maj ⟨f.d, f.a, f.w, t.code, q.code, f.imm.setWidth 8⟩
  | .c maj fn x => wordC maj ⟨f.d, f.a, f.b, f.x ||| x, fn⟩
  | .m shape fa fb ovr sha tra =>
    wordM 0x24 ⟨f.d.setWidth 3, f.a.setWidth 2, f.b.setWidth 2, shape.code, fb.code, fa.code, ovr, sha, tra, 0⟩

/-- The word that one instruction line assembles to (R76 to R80); what would be no instruction is refused (log entry 72). -/
def assembleInsn (e : Env) (pred : Option Pred) (mnemonic : String) (operands : List (List Tok)) : Except AsmErr Insn := do
  let form ← match formOf (dotted mnemonic.toList) with
    | some f => .ok f
    | none => .error .unknownMnemonic
  let slots ← match form.orders.find? (·.length == operands.length) with
    | some s => .ok s
    | none => .error .operandCount
  if pred.isSome && !form.fmt.predicable then .error .notPredicable
  else
    let f ← fillAll e slots operands Fields.empty
    let w := form.fmt.word (pred.getD ⟨0, false⟩) f
    match decodeWord w with
    | .ok _ => return w
    | .error i => .error (.notAnInstruction i.reason)

end Sys2Proof.Asm
end

