-- ==== Sys2Proof/Machine/Assembler.lean ====
section
/-! DEFINITION. The pliper assembler (R76, R81, R82): source lines, labels, sections, the directives of Table 2.10, task bodies
and booking lists, in two passes over the source. -/

namespace Sys2Proof.Asm

/-! ### Source lines (R76) -/

/-- A source line taken apart: label, predicate, mnemonic or directive, operands. -/
structure Line where
  label : Option String
  pred : Option Pred
  head : Option String
  args : List (List Tok)
  deriving DecidableEq, Repr

/-- Operands separated by commas outside parentheses; depth counts the open ones. -/
def splitArgs : Nat → List Tok → List (List Tok)
  | _, [] => [[]]
  | depth, t :: ts =>
    if t == .sym ',' && depth == 0 then [] :: splitArgs depth ts
    else
      let depth := if t == .sym '(' then depth + 1 else if t == .sym ')' then depth - 1 else depth
      match splitArgs depth ts with
      | a :: rest => (t :: a) :: rest
      | [] => [[t]]

/-- The operands of a line; no token is no operand. -/
def argsOf (ts : List Tok) : List (List Tok) := if ts.isEmpty then [] else splitArgs 0 ts

/-- The prefix `(pn)` or `(!pn)`, and the tokens after it. -/
def predOfTokens : List Tok → Except AsmErr (Option Pred × List Tok)
  | .sym '(' :: .name n :: .sym ')' :: rest =>
    match regNumber "p" 8 n with
    | some k => .ok (some ⟨BitVec.ofNat 3 k, false⟩, rest)
    | none => .error .badOperand
  | .sym '(' :: .sym '!' :: .name n :: .sym ')' :: rest =>
    match regNumber "p" 8 n with
    | some k => .ok (some ⟨BitVec.ofNat 3 k, true⟩, rest)
    | none => .error .badOperand
  | ts => .ok (none, ts)

/-- The label of a line, and the tokens after it. -/
def labelOf : List Tok → Option String × List Tok
  | .name n :: .sym ':' :: rest => (some n, rest)
  | ts => (none, ts)

/-- A line of tokens taken apart. -/
def lineOf (ts : List Tok) : Except AsmErr Line := do
  let (label, rest) := labelOf ts
  let (pred, rest) ← predOfTokens rest
  match rest with
  | [] => if pred.isSome then .error .notPredicable else return ⟨label, none, none, []⟩
  | .name h :: rest => return ⟨label, pred, some h, argsOf rest⟩
  | _ => .error .unknownMnemonic

/-! ### Sections (R81) -/

/-- The sections of Table 2.10. -/
inductive Section | code | data | vault | scratch | offstack
  deriving DecidableEq, Repr

/-- Where the loader places each section: the first word index of `.code`, the offset of `.scratch`, and the virtual addresses
of the others (R81). -/
structure Bases where
  code : Nat
  data : Nat
  vault : Nat
  scratch : Nat
  offstack : Nat
  deriving DecidableEq, Repr

/-- The bytes of every section, last byte first. -/
structure Contents where
  code : List Byte
  data : List Byte
  vault : List Byte
  scratch : List Byte
  offstack : List Byte
  deriving DecidableEq, Repr

/-- A section's bytes so far. -/
def Contents.of (c : Contents) : Section → List Byte
  | .code => c.code | .data => c.data | .vault => c.vault | .scratch => c.scratch | .offstack => c.offstack

/-- Bytes added to a section. -/
def Contents.add (c : Contents) (s : Section) (bs : List Byte) : Contents :=
  match s with
  | .code => { c with code := bs.reverse ++ c.code }
  | .data => { c with data := bs.reverse ++ c.data }
  | .vault => { c with vault := bs.reverse ++ c.vault }
  | .scratch => { c with scratch := bs.reverse ++ c.scratch }
  | .offstack => { c with offstack := bs.reverse ++ c.offstack }

/-- The byte address at which a section begins; in `.code` four bytes a word, in `.scratch` the local region (R81). -/
def Bases.start (b : Bases) : Section → Nat
  | .code => 4 * b.code
  | .data => b.data
  | .vault => b.vault
  | .scratch => 0xF000000000000 + b.scratch
  | .offstack => b.offstack

/-! ### Booking lists (R82) -/

/-- A list under way: its two flags, the entries so far, last first, and the total duration. -/
structure Booking where
  movable : Bool
  slipovr : Bool
  entries : List Nat
  duration : Nat
  deriving DecidableEq, Repr

/-- The tokens before the first name kw, and those after it. -/
def cutName (kw : String) : List Tok → List Tok × Option (List Tok)
  | [] => ([], none)
  | t :: ts => if t == .name kw then ([], some ts) else let (a, b) := cutName kw ts; (t :: a, b)

/-- A clause's value in its range, or what stands for an absent clause (R82). -/
def clause (syms : List Sym) (lo hi : Int) (absent : Nat) : Option (List Tok) → Except AsmErr Nat
  | none => .ok absent
  | some ts => do return (← evalIn syms lo hi ts).toNat

/-- The code and destination of a resource form (Table 2.11). -/
def resourceOf (syms : List Sym) : List Tok → Except AsmErr (Nat × Nat)
  | [.name "me"] => .ok (0x01, 0)
  | [.name "sfu"] => .ok (0x02, 0)
  | [.name "vp"] => .ok (0x03, 0)
  | .name "spbank" :: n => do return (0x10 + (← evalIn syms 0 31 n).toNat, 0)
  | .name "chan" :: n => do return (0x30 + (← evalIn syms 0 15 n).toNat, 0)
  | .name "vbank" :: n => do return (0x40 + (← evalIn syms 0 31 n).toNat, 0)
  | .name "link" :: xy =>
    match splitArgs 0 xy with
    | [x, y] => do return (0x60, (← evalIn syms 0 15 y).toNat * 16 + (← evalIn syms 0 15 x).toNat)
    | _ => .error .badBooking
  | _ => .error .badBooking

/-- One booking entry `resource at s [for l] [every k times n]` (R82): its dword, and the tick after its last occurrence. -/
def bookingEntry (syms : List Sym) (ts : List Tok) : Except AsmErr (Nat × Nat) := do
  let (res, clauses) := cutName "at" ts
  match clauses with
  | none => .error .badBooking
  | some rest =>
    let (rest, times) := cutName "times" rest
    let (rest, every) := cutName "every" rest
    let (start, len) := cutName "for" rest
    let (code, dest) ← resourceOf syms res
    let s ← clause syms 0 1023 0 (some start)
    let l ← clause syms 1 1023 1 len
    let n ← clause syms 1 255 1 times
    let k ← clause syms 0 1023 0 every
    if (every.isSome && times.isNone) || (every.isNone && n > 1) then .error .badBooking
    else return (code * 2 ^ 56 + s * 2 ^ 46 + l * 2 ^ 36 + n * 2 ^ 28 + k * 2 ^ 18 + dest * 2 ^ 10, s + (n - 1) * k + l)

/-- The header of a list (Table 7.2): entry count, flags and total duration. -/
def Booking.header (b : Booking) : Nat :=
  (if b.slipovr then 2 ^ 33 else 0) + (if b.movable then 2 ^ 32 else 0) + b.duration * 2 ^ 16 + b.entries.length

/-- A number as n little-endian bytes (R8). -/
def littleEndian (n : Nat) (x : Nat) : List Byte := (List.range n).map fun i => BitVec.ofNat 8 (x / 2 ^ (8 * i))

/-- The bytes of a finished list: the header and the entries. -/
def Booking.bytes (b : Booking) : Except AsmErr (List Byte) :=
  if b.entries.length = 0 ∨ 64 < b.entries.length ∨ 512 < b.duration then .error .badBooking
  else .ok ((b.header :: b.entries.reverse).flatMap (littleEndian 8))

/-! ### Assembling line by line -/

/-- A task body under way: whether its last instruction so far can fall through, which no instruction yet can (Table 2.10). -/
structure TaskBody where
  falls : Bool
  deriving DecidableEq, Repr

/-- What has been assembled so far, and the section lines go to. syms grows in the first pass and is complete in the second. -/
structure Asm where
  here : Section
  contents : Contents
  syms : List Sym
  entry : Option String
  exports : List String
  task : Option TaskBody
  booking : Option Booking
  deriving DecidableEq, Repr

/-- Which pass runs, and where the loader places the sections. In the first pass values that only fill words are not read. -/
structure Pass where
  final : Bool
  bases : Bases
  deriving DecidableEq, Repr

/-- The byte address at which the next byte goes. -/
def Asm.address (a : Asm) (p : Pass) : Nat := p.bases.start a.here + (a.contents.of a.here).length

/-- Bytes emitted into the current section. -/
def Asm.emit (a : Asm) (bs : List Byte) : Asm := { a with contents := a.contents.add a.here bs }

/-- A name that can be a label or a constant: it begins with a letter or an underscore and has no full stop (log entry 72). -/
def goodName (n : String) : Bool := !n.toList.contains '.'

/-- A name defined in the first pass; the second pass finds it there. -/
def Asm.define (a : Asm) (p : Pass) (name : String) (value : Word) (isCode : Bool) : Except AsmErr Asm :=
  if !goodName name then .error .badName
  else if p.final then .ok a
  else if a.syms.any (·.name == name) then .error (.duplicateName name)
  else .ok { a with syms := a.syms ++ [⟨name, value, isCode⟩] }

/-- A label at the current place (R81): in `.code` the word index of the next word, elsewhere the virtual address. -/
def Asm.label (a : Asm) (p : Pass) (name : String) : Except AsmErr Asm :=
  let pos := a.address p
  if a.here == .code then
    if pos % 4 = 0 then a.define p name (BitVec.ofNat 64 (pos / 4)) true else .error .misplaced
  else a.define p name (BitVec.ofNat 64 pos) false

/-- Zero bytes up to a multiple of n. -/
def Asm.alignTo (a : Asm) (p : Pass) (n : Nat) : Asm := a.emit (List.replicate ((n - a.address p % n) % n) 0)

/-- Only an unpredicated `br`, `jr` or `halt` cannot fall through (Table 2.10). -/
def fallsThrough (pred : Option Pred) (mnemonic : String) : Bool :=
  pred.isSome || !(mnemonic == "br" || mnemonic == "jr" || mnemonic == "halt")

/-- An instruction line: one word in `.code`. -/
def Asm.instruction (a : Asm) (p : Pass) (pred : Option Pred) (mnemonic : String) (args : List (List Tok)) : Except AsmErr Asm := do
  let pos := a.address p
  if a.here ≠ .code ∨ pos % 4 ≠ 0 then .error .misplaced
  else
    let w ← if p.final then assembleInsn ⟨a.syms, pos / 4⟩ pred mnemonic args else .ok 0
    let a := { a with task := a.task.map fun _ => ⟨fallsThrough pred mnemonic⟩ }
    return a.emit (littleEndian 4 w.toNat)

/-- Integers of n bytes (Table 2.10), from the least signed to the greatest unsigned value (log entry 72). -/
def Asm.integers (a : Asm) (p : Pass) (n : Nat) (args : List (List Tok)) : Except AsmErr Asm := do
  if args.isEmpty then .error .badDirective
  else if p.final then
    let vs ← args.mapM fun ts => do
      let x ← evalIn a.syms (-(2 ^ (8 * n - 1) : Int)) (2 ^ (8 * n) - 1 : Int) ts
      return littleEndian n (x % (2 ^ 64 : Int)).toNat
    return a.emit vs.flatten
  else return a.emit (List.replicate (n * args.length) 0)

/-- One literal of `.f32` or `.bf16`, with an optional minus sign. -/
def floatArg (t : ElemTy) : List Tok → Except AsmErr Nat
  | [.num x] => floatOf t false x
  | [.sym '-', .num x] => floatOf t true x
  | _ => .error .badDirective

/-- Floating values (Table 2.10). -/
def Asm.floats (a : Asm) (t : ElemTy) (args : List (List Tok)) : Except AsmErr Asm := do
  if args.isEmpty then .error .badDirective
  else return a.emit (← args.mapM fun ts => do return littleEndian (t.bits / 8) (← floatArg t ts)).flatten

/-- The flags after the name of `.book`. -/
def bookingFlags : List (List Tok) → Option Booking
  | [] => some ⟨false, false, [], 0⟩
  | [[.name "movable"]] => some ⟨true, false, [], 0⟩
  | [[.name "slipovr"]] => some ⟨false, true, [], 0⟩
  | [[.name "movable"], [.name "slipovr"]] => some ⟨true, true, [], 0⟩
  | _ => none

/-- A directive of Table 2.10 outside a booking list. -/
def Asm.directive (a : Asm) (p : Pass) (name : String) (args : List (List Tok)) : Except AsmErr Asm :=
  match name, args with
  | ".code", [] => .ok { a with here := .code }
  | ".data", [] => .ok { a with here := .data }
  | ".vault", [] => .ok { a with here := .vault }
  | ".scratch", [] => .ok { a with here := .scratch }
  | ".offstack", [] => .ok { a with here := .offstack }
  | ".align", [n] => do
    let n := (← evalIn a.syms 1 (2 ^ 52) n).toNat
    if 2 ^ n.log2 = n then return a.alignTo p n else .error .badDirective
  | ".byte", args => a.integers p 1 args
  | ".half", args => a.integers p 2 args
  | ".word", args => a.integers p 4 args
  | ".dword", args => a.integers p 8 args
  | ".f32", args => a.floats .f32 args
  | ".bf16", args => a.floats .bf16 args
  | ".space", [n] => do return a.emit (List.replicate (← evalIn a.syms 0 (2 ^ 52) n).toNat 0)
  | ".equ", [[.name n], e] => do
    if p.final then .ok a else a.define p n (← evalExpr a.syms e) false
  | ".global", [[.name n]] => .ok { a with exports := a.exports ++ [n] }
  | ".entry", [[.name n]] => .ok { a with entry := some n }
  | ".task", [[.name n]] =>
    if a.task.isSome then .error .badTask
    else if a.here ≠ .code then .error .misplaced
    else do
      let a ← a.label p n
      return { a with task := some ⟨true⟩ }
  | ".endtask", [] =>
    match a.task with
    | some t => if t.falls then .error .badTask else .ok { a with task := none }
    | none => .error .badTask
  | ".book", [.name n] :: flags => do
    match bookingFlags flags with
    | none => .error .badDirective
    | some b =>
      let a ← (a.alignTo p 8).label p n
      return { a with booking := some b }
  | n, _ => if n ∈ [".code", ".data", ".vault", ".scratch", ".offstack", ".align", ".space", ".equ", ".global", ".entry", ".task",
      ".endtask", ".book"] then .error .badDirective else .error .unknownDirective

/-- A line inside a booking list: an entry or `.endbook` (R82). -/
def Asm.bookingLine (a : Asm) (p : Pass) (b : Booking) (ts : List Tok) : Except AsmErr Asm := do
  match ts with
  | [] => return a
  | [.name ".endbook"] =>
    let bytes ← if p.final then b.bytes else .ok (List.replicate (8 + 8 * b.entries.length) 0)
    return { a with booking := none }.emit bytes
  | ts =>
    let (e, last) ← if p.final then bookingEntry a.syms ts else .ok (0, 0)
    return { a with booking := some { b with entries := e :: b.entries, duration := max b.duration last } }

/-- One source line. -/
def Asm.line (a : Asm) (p : Pass) (text : String) : Except AsmErr Asm := do
  let ts ← tokens text
  match a.booking with
  | some b => a.bookingLine p b ts
  | none =>
    let l ← lineOf ts
    let a ← match l.label with
      | some n => a.label p n
      | none => .ok a
    match l.head with
    | none => return a
    | some h =>
      if h.toList.head? == some '.' then
        if l.pred.isSome then .error .notPredicable else a.directive p h l.args
      else a.instruction p l.pred h l.args

/-- A refusal with its line, counted from 1. -/
structure AsmFail where
  line : Nat
  why : AsmErr
  deriving DecidableEq, Repr

/-- The lines of a source in order. -/
def Asm.lines (p : Pass) : Nat → List String → Asm → Except AsmFail Asm
  | _, [], a => .ok a
  | n, t :: ts, a =>
    match a.line p t with
    | .ok a => Asm.lines p (n + 1) ts a
    | .error e => .error ⟨n, e⟩

/-! ### The image -/

/-- What pliper makes of a source: the code-store image as words, the bytes of the other sections, the launch entry's word
index, and the exported and all defined names. -/
structure Image where
  code : List Insn
  data : List Byte
  vault : List Byte
  scratch : List Byte
  offstack : List Byte
  entry : Option Nat
  exports : List Sym
  symbols : List Sym
  deriving DecidableEq, Repr

/-- Four bytes as a word (R8). -/
def wordOf4 (b0 b1 b2 b3 : Byte) : Insn := b3 ++ b2 ++ b1 ++ b0

/-- Bytes as words, the last filled up with zero bytes. -/
def wordsOf : List Byte → List Insn
  | b0 :: b1 :: b2 :: b3 :: rest => wordOf4 b0 b1 b2 b3 :: wordsOf rest
  | [b0, b1, b2] => [wordOf4 b0 b1 b2 0]
  | [b0, b1] => [wordOf4 b0 b1 0 0]
  | [b0] => [wordOf4 b0 0 0 0]
  | [] => []

/-- The source before its first line: lines go to `.code` until a section is named (DESIGN CHOICE, log entry 72). -/
def Asm.start (syms : List Sym) : Asm := ⟨.code, ⟨[], [], [], [], []⟩, syms, none, [], none, none⟩

/-- The image of a source that has been read to its end. -/
def Asm.image (a : Asm) (p : Pass) : Except AsmErr Image := do
  if a.task.isSome then .error .badTask
  else if a.booking.isSome then .error .badBooking
  else
    let code := wordsOf a.contents.code.reverse
    if 16384 < p.bases.code + code.length ∨ 0x100000 < p.bases.scratch + a.contents.scratch.length then .error .sectionFull
    else
      let entry ← match a.entry with
        | none => .ok none
        | some n => do
          let s ← lookup a.syms n
          if s.isCode then .ok (some s.value.toNat) else .error .notACodeLabel
      let exports ← a.exports.mapM (lookup a.syms)
      return ⟨code, a.contents.data.reverse, a.contents.vault.reverse, a.contents.scratch.reverse, a.contents.offstack.reverse,
        entry, exports, a.syms⟩

/-- The assembler: a first pass gives every label its value, a second makes the words and bytes. A refusal that no single line
causes stands on the line after the last. -/
def assemble (bases : Bases) (source : List String) : Except AsmFail Image := do
  let first ← Asm.lines ⟨false, bases⟩ 1 source (Asm.start [])
  let second ← Asm.lines ⟨true, bases⟩ 1 source (Asm.start first.syms)
  match second.image ⟨true, bases⟩ with
  | .ok i => return i
  | .error e => .error ⟨source.length + 1, e⟩

end Sys2Proof.Asm
end

