-- ==== Sys2Proof/Laws/Assembler.lean ====
section
/-! SUPPORT. What the assembler answers: an instruction line makes a word that decodes, or nothing. -/

namespace Sys2Proof.Asm

/-- Every word that an instruction line assembles to is an instruction (R57). -/
theorem assembleInsn_decodes {e : Env} {pred : Option Pred} {mnemonic : String} {operands : List (List Tok)} {w : Insn}
    (h : assembleInsn e pred mnemonic operands = .ok w) : ∃ i, decodeWord w = .ok i := by
  simp only [assembleInsn, bind, Except.bind, pure, Except.pure] at h
  repeat' split at h
  all_goals first
    | (injection h with h; subst h; exact ⟨_, ‹_›⟩)
    | cases h

/-- A prefix on anything but a G-format instruction outside the CSR forms or a B-format one is refused (R60, R76). -/
theorem assembleInsn_pred {e : Env} {p : Pred} {mnemonic : String} {operands : List (List Tok)} {w : Insn}
    (h : assembleInsn e (some p) mnemonic operands = .ok w) :
    ∃ f, formOf (dotted mnemonic.toList) = some f ∧ f.fmt.predicable = true := by
  simp only [assembleInsn, bind, Except.bind, pure, Except.pure] at h
  cases hf : formOf (dotted mnemonic.toList) with
  | none => simp [hf] at h
  | some f =>
    refine ⟨f, rfl, ?_⟩
    simp only [hf] at h
    cases hp : f.fmt.predicable with
    | true => rfl
    | false =>
      simp only [Option.isSome, hp] at h
      split at h <;> simp at h

end Sys2Proof.Asm
end

