-- ==== Sys2Proof/Laws/State.lean ====
section
/-! SUPPORT. What each named update of the state leaves in each field: one lemma per field per update, true by rfl, so that no
later proof unfolds a record update. -/

namespace Sys2Proof.Machine

variable (s : State)

/-! ### A core replaced or changed -/

@[simp] theorem State.setCore_cycle (c : Nat) (k : Core) : (s.setCore c k).cycle = s.cycle := rfl
@[simp] theorem State.setCore_powered (c : Nat) (k : Core) : (s.setCore c k).powered = s.powered := rfl
@[simp] theorem State.setCore_offAt (c : Nat) (k : Core) : (s.setCore c k).offAt = s.offAt := rfl
@[simp] theorem State.setCore_ctxs (c : Nat) (k : Core) : (s.setCore c k).ctxs = s.ctxs := rfl
@[simp] theorem State.setCore_parts (c : Nat) (k : Core) : (s.setCore c k).parts = s.parts := rfl
@[simp] theorem State.setCore_offstack (c : Nat) (k : Core) : (s.setCore c k).offstack = s.offstack := rfl
@[simp] theorem State.setCore_offPoisoned (c : Nat) (k : Core) : (s.setCore c k).offPoisoned = s.offPoisoned := rfl
@[simp] theorem State.setCore_offFrames (c : Nat) (k : Core) : (s.setCore c k).offFrames = s.offFrames := rfl
@[simp] theorem State.setCore_offQueues (c : Nat) (k : Core) : (s.setCore c k).offQueues = s.offQueues := rfl
@[simp] theorem State.setCore_mesh (c : Nat) (k : Core) : (s.setCore c k).mesh = s.mesh := rfl
@[simp] theorem State.setCore_pointers (c : Nat) (k : Core) : (s.setCore c k).pointers = s.pointers := rfl
@[simp] theorem State.setCore_entries (c : Nat) (k : Core) : (s.setCore c k).entries = s.entries := rfl
@[simp] theorem State.setCore_pairs (c : Nat) (k : Core) : (s.setCore c k).pairs = s.pairs := rfl
@[simp] theorem State.setCore_serial (c : Nat) (k : Core) : (s.setCore c k).serial = s.serial := rfl
@[simp] theorem State.setCore_links (c : Nat) (k : Core) : (s.setCore c k).links = s.links := rfl
@[simp] theorem State.setCore_ports (c : Nat) (k : Core) : (s.setCore c k).ports = s.ports := rfl
@[simp] theorem State.setCore_reachable (c : Nat) (k : Core) : (s.setCore c k).reachable = s.reachable := rfl
@[simp] theorem State.setCore_outbox (c : Nat) (k : Core) : (s.setCore c k).outbox = s.outbox := rfl
@[simp] theorem State.setCore_flips (c : Nat) (k : Core) : (s.setCore c k).flips = s.flips := rfl
@[simp] theorem State.setCore_csrs (c : Nat) (k : Core) : (s.setCore c k).csrs = s.csrs := rfl
@[simp] theorem State.setCore_helm (c : Nat) (k : Core) : (s.setCore c k).helm = s.helm := rfl
@[simp] theorem State.setCore_host (c : Nat) (k : Core) : (s.setCore c k).host = s.host := rfl
@[simp] theorem State.setCore_agenda (c : Nat) (k : Core) : (s.setCore c k).agenda = s.agenda := rfl
@[simp] theorem State.setCore_inputs (c : Nat) (k : Core) : (s.setCore c k).inputs = s.inputs := rfl
@[simp] theorem State.setCore_fresh (c : Nat) (k : Core) : (s.setCore c k).fresh = s.fresh := rfl
@[simp] theorem State.setCore_cur (c : Nat) (k : Core) : (s.setCore c k).cur = s.cur := rfl

/-! ### A core changed -/

@[simp] theorem State.modCore_cycle (c : Nat) (f : Core → Core) : (s.modCore c f).cycle = s.cycle := rfl
@[simp] theorem State.modCore_powered (c : Nat) (f : Core → Core) : (s.modCore c f).powered = s.powered := rfl
@[simp] theorem State.modCore_offAt (c : Nat) (f : Core → Core) : (s.modCore c f).offAt = s.offAt := rfl
@[simp] theorem State.modCore_ctxs (c : Nat) (f : Core → Core) : (s.modCore c f).ctxs = s.ctxs := rfl
@[simp] theorem State.modCore_parts (c : Nat) (f : Core → Core) : (s.modCore c f).parts = s.parts := rfl
@[simp] theorem State.modCore_offstack (c : Nat) (f : Core → Core) : (s.modCore c f).offstack = s.offstack := rfl
@[simp] theorem State.modCore_offPoisoned (c : Nat) (f : Core → Core) : (s.modCore c f).offPoisoned = s.offPoisoned := rfl
@[simp] theorem State.modCore_offFrames (c : Nat) (f : Core → Core) : (s.modCore c f).offFrames = s.offFrames := rfl
@[simp] theorem State.modCore_offQueues (c : Nat) (f : Core → Core) : (s.modCore c f).offQueues = s.offQueues := rfl
@[simp] theorem State.modCore_mesh (c : Nat) (f : Core → Core) : (s.modCore c f).mesh = s.mesh := rfl
@[simp] theorem State.modCore_pointers (c : Nat) (f : Core → Core) : (s.modCore c f).pointers = s.pointers := rfl
@[simp] theorem State.modCore_entries (c : Nat) (f : Core → Core) : (s.modCore c f).entries = s.entries := rfl
@[simp] theorem State.modCore_pairs (c : Nat) (f : Core → Core) : (s.modCore c f).pairs = s.pairs := rfl
@[simp] theorem State.modCore_serial (c : Nat) (f : Core → Core) : (s.modCore c f).serial = s.serial := rfl
@[simp] theorem State.modCore_links (c : Nat) (f : Core → Core) : (s.modCore c f).links = s.links := rfl
@[simp] theorem State.modCore_ports (c : Nat) (f : Core → Core) : (s.modCore c f).ports = s.ports := rfl
@[simp] theorem State.modCore_reachable (c : Nat) (f : Core → Core) : (s.modCore c f).reachable = s.reachable := rfl
@[simp] theorem State.modCore_outbox (c : Nat) (f : Core → Core) : (s.modCore c f).outbox = s.outbox := rfl
@[simp] theorem State.modCore_flips (c : Nat) (f : Core → Core) : (s.modCore c f).flips = s.flips := rfl
@[simp] theorem State.modCore_csrs (c : Nat) (f : Core → Core) : (s.modCore c f).csrs = s.csrs := rfl
@[simp] theorem State.modCore_helm (c : Nat) (f : Core → Core) : (s.modCore c f).helm = s.helm := rfl
@[simp] theorem State.modCore_host (c : Nat) (f : Core → Core) : (s.modCore c f).host = s.host := rfl
@[simp] theorem State.modCore_agenda (c : Nat) (f : Core → Core) : (s.modCore c f).agenda = s.agenda := rfl
@[simp] theorem State.modCore_inputs (c : Nat) (f : Core → Core) : (s.modCore c f).inputs = s.inputs := rfl
@[simp] theorem State.modCore_fresh (c : Nat) (f : Core → Core) : (s.modCore c f).fresh = s.fresh := rfl
@[simp] theorem State.modCore_cur (c : Nat) (f : Core → Core) : (s.modCore c f).cur = s.cur := rfl

/-! ### A thread changed -/

@[simp] theorem State.modThr_cycle (c t : Nat) (f : Thread → Thread) : (s.modThr c t f).cycle = s.cycle := rfl
@[simp] theorem State.modThr_powered (c t : Nat) (f : Thread → Thread) : (s.modThr c t f).powered = s.powered := rfl
@[simp] theorem State.modThr_offAt (c t : Nat) (f : Thread → Thread) : (s.modThr c t f).offAt = s.offAt := rfl
@[simp] theorem State.modThr_ctxs (c t : Nat) (f : Thread → Thread) : (s.modThr c t f).ctxs = s.ctxs := rfl
@[simp] theorem State.modThr_parts (c t : Nat) (f : Thread → Thread) : (s.modThr c t f).parts = s.parts := rfl
@[simp] theorem State.modThr_offstack (c t : Nat) (f : Thread → Thread) : (s.modThr c t f).offstack = s.offstack := rfl
@[simp] theorem State.modThr_offPoisoned (c t : Nat) (f : Thread → Thread) : (s.modThr c t f).offPoisoned = s.offPoisoned := rfl
@[simp] theorem State.modThr_offFrames (c t : Nat) (f : Thread → Thread) : (s.modThr c t f).offFrames = s.offFrames := rfl
@[simp] theorem State.modThr_offQueues (c t : Nat) (f : Thread → Thread) : (s.modThr c t f).offQueues = s.offQueues := rfl
@[simp] theorem State.modThr_mesh (c t : Nat) (f : Thread → Thread) : (s.modThr c t f).mesh = s.mesh := rfl
@[simp] theorem State.modThr_pointers (c t : Nat) (f : Thread → Thread) : (s.modThr c t f).pointers = s.pointers := rfl
@[simp] theorem State.modThr_entries (c t : Nat) (f : Thread → Thread) : (s.modThr c t f).entries = s.entries := rfl
@[simp] theorem State.modThr_pairs (c t : Nat) (f : Thread → Thread) : (s.modThr c t f).pairs = s.pairs := rfl
@[simp] theorem State.modThr_serial (c t : Nat) (f : Thread → Thread) : (s.modThr c t f).serial = s.serial := rfl
@[simp] theorem State.modThr_links (c t : Nat) (f : Thread → Thread) : (s.modThr c t f).links = s.links := rfl
@[simp] theorem State.modThr_ports (c t : Nat) (f : Thread → Thread) : (s.modThr c t f).ports = s.ports := rfl
@[simp] theorem State.modThr_reachable (c t : Nat) (f : Thread → Thread) : (s.modThr c t f).reachable = s.reachable := rfl
@[simp] theorem State.modThr_outbox (c t : Nat) (f : Thread → Thread) : (s.modThr c t f).outbox = s.outbox := rfl
@[simp] theorem State.modThr_flips (c t : Nat) (f : Thread → Thread) : (s.modThr c t f).flips = s.flips := rfl
@[simp] theorem State.modThr_csrs (c t : Nat) (f : Thread → Thread) : (s.modThr c t f).csrs = s.csrs := rfl
@[simp] theorem State.modThr_helm (c t : Nat) (f : Thread → Thread) : (s.modThr c t f).helm = s.helm := rfl
@[simp] theorem State.modThr_host (c t : Nat) (f : Thread → Thread) : (s.modThr c t f).host = s.host := rfl
@[simp] theorem State.modThr_agenda (c t : Nat) (f : Thread → Thread) : (s.modThr c t f).agenda = s.agenda := rfl
@[simp] theorem State.modThr_inputs (c t : Nat) (f : Thread → Thread) : (s.modThr c t f).inputs = s.inputs := rfl
@[simp] theorem State.modThr_fresh (c t : Nat) (f : Thread → Thread) : (s.modThr c t f).fresh = s.fresh := rfl
@[simp] theorem State.modThr_cur (c t : Nat) (f : Thread → Thread) : (s.modThr c t f).cur = s.cur := rfl

/-! ### The running thread changed -/

@[simp] theorem State.modTh_cycle (f : Thread → Thread) : (s.modTh f).cycle = s.cycle := rfl
@[simp] theorem State.modTh_powered (f : Thread → Thread) : (s.modTh f).powered = s.powered := rfl
@[simp] theorem State.modTh_offAt (f : Thread → Thread) : (s.modTh f).offAt = s.offAt := rfl
@[simp] theorem State.modTh_ctxs (f : Thread → Thread) : (s.modTh f).ctxs = s.ctxs := rfl
@[simp] theorem State.modTh_parts (f : Thread → Thread) : (s.modTh f).parts = s.parts := rfl
@[simp] theorem State.modTh_offstack (f : Thread → Thread) : (s.modTh f).offstack = s.offstack := rfl
@[simp] theorem State.modTh_offPoisoned (f : Thread → Thread) : (s.modTh f).offPoisoned = s.offPoisoned := rfl
@[simp] theorem State.modTh_offFrames (f : Thread → Thread) : (s.modTh f).offFrames = s.offFrames := rfl
@[simp] theorem State.modTh_offQueues (f : Thread → Thread) : (s.modTh f).offQueues = s.offQueues := rfl
@[simp] theorem State.modTh_mesh (f : Thread → Thread) : (s.modTh f).mesh = s.mesh := rfl
@[simp] theorem State.modTh_pointers (f : Thread → Thread) : (s.modTh f).pointers = s.pointers := rfl
@[simp] theorem State.modTh_entries (f : Thread → Thread) : (s.modTh f).entries = s.entries := rfl
@[simp] theorem State.modTh_pairs (f : Thread → Thread) : (s.modTh f).pairs = s.pairs := rfl
@[simp] theorem State.modTh_serial (f : Thread → Thread) : (s.modTh f).serial = s.serial := rfl
@[simp] theorem State.modTh_links (f : Thread → Thread) : (s.modTh f).links = s.links := rfl
@[simp] theorem State.modTh_ports (f : Thread → Thread) : (s.modTh f).ports = s.ports := rfl
@[simp] theorem State.modTh_reachable (f : Thread → Thread) : (s.modTh f).reachable = s.reachable := rfl
@[simp] theorem State.modTh_outbox (f : Thread → Thread) : (s.modTh f).outbox = s.outbox := rfl
@[simp] theorem State.modTh_flips (f : Thread → Thread) : (s.modTh f).flips = s.flips := rfl
@[simp] theorem State.modTh_csrs (f : Thread → Thread) : (s.modTh f).csrs = s.csrs := rfl
@[simp] theorem State.modTh_helm (f : Thread → Thread) : (s.modTh f).helm = s.helm := rfl
@[simp] theorem State.modTh_host (f : Thread → Thread) : (s.modTh f).host = s.host := rfl
@[simp] theorem State.modTh_agenda (f : Thread → Thread) : (s.modTh f).agenda = s.agenda := rfl
@[simp] theorem State.modTh_inputs (f : Thread → Thread) : (s.modTh f).inputs = s.inputs := rfl
@[simp] theorem State.modTh_fresh (f : Thread → Thread) : (s.modTh f).fresh = s.fresh := rfl
@[simp] theorem State.modTh_cur (f : Thread → Thread) : (s.modTh f).cur = s.cur := rfl

/-! ### The running core changed -/

@[simp] theorem State.modMe_cycle (f : Core → Core) : (s.modMe f).cycle = s.cycle := rfl
@[simp] theorem State.modMe_powered (f : Core → Core) : (s.modMe f).powered = s.powered := rfl
@[simp] theorem State.modMe_offAt (f : Core → Core) : (s.modMe f).offAt = s.offAt := rfl
@[simp] theorem State.modMe_ctxs (f : Core → Core) : (s.modMe f).ctxs = s.ctxs := rfl
@[simp] theorem State.modMe_parts (f : Core → Core) : (s.modMe f).parts = s.parts := rfl
@[simp] theorem State.modMe_offstack (f : Core → Core) : (s.modMe f).offstack = s.offstack := rfl
@[simp] theorem State.modMe_offPoisoned (f : Core → Core) : (s.modMe f).offPoisoned = s.offPoisoned := rfl
@[simp] theorem State.modMe_offFrames (f : Core → Core) : (s.modMe f).offFrames = s.offFrames := rfl
@[simp] theorem State.modMe_offQueues (f : Core → Core) : (s.modMe f).offQueues = s.offQueues := rfl
@[simp] theorem State.modMe_mesh (f : Core → Core) : (s.modMe f).mesh = s.mesh := rfl
@[simp] theorem State.modMe_pointers (f : Core → Core) : (s.modMe f).pointers = s.pointers := rfl
@[simp] theorem State.modMe_entries (f : Core → Core) : (s.modMe f).entries = s.entries := rfl
@[simp] theorem State.modMe_pairs (f : Core → Core) : (s.modMe f).pairs = s.pairs := rfl
@[simp] theorem State.modMe_serial (f : Core → Core) : (s.modMe f).serial = s.serial := rfl
@[simp] theorem State.modMe_links (f : Core → Core) : (s.modMe f).links = s.links := rfl
@[simp] theorem State.modMe_ports (f : Core → Core) : (s.modMe f).ports = s.ports := rfl
@[simp] theorem State.modMe_reachable (f : Core → Core) : (s.modMe f).reachable = s.reachable := rfl
@[simp] theorem State.modMe_outbox (f : Core → Core) : (s.modMe f).outbox = s.outbox := rfl
@[simp] theorem State.modMe_flips (f : Core → Core) : (s.modMe f).flips = s.flips := rfl
@[simp] theorem State.modMe_csrs (f : Core → Core) : (s.modMe f).csrs = s.csrs := rfl
@[simp] theorem State.modMe_helm (f : Core → Core) : (s.modMe f).helm = s.helm := rfl
@[simp] theorem State.modMe_host (f : Core → Core) : (s.modMe f).host = s.host := rfl
@[simp] theorem State.modMe_agenda (f : Core → Core) : (s.modMe f).agenda = s.agenda := rfl
@[simp] theorem State.modMe_inputs (f : Core → Core) : (s.modMe f).inputs = s.inputs := rfl
@[simp] theorem State.modMe_fresh (f : Core → Core) : (s.modMe f).fresh = s.fresh := rfl
@[simp] theorem State.modMe_cur (f : Core → Core) : (s.modMe f).cur = s.cur := rfl

/-! ### A context changed -/

@[simp] theorem State.modCtx_cycle (id : Nat) (f : Ctx → Ctx) : (s.modCtx id f).cycle = s.cycle := rfl
@[simp] theorem State.modCtx_powered (id : Nat) (f : Ctx → Ctx) : (s.modCtx id f).powered = s.powered := rfl
@[simp] theorem State.modCtx_offAt (id : Nat) (f : Ctx → Ctx) : (s.modCtx id f).offAt = s.offAt := rfl
@[simp] theorem State.modCtx_cores (id : Nat) (f : Ctx → Ctx) : (s.modCtx id f).cores = s.cores := rfl
@[simp] theorem State.modCtx_parts (id : Nat) (f : Ctx → Ctx) : (s.modCtx id f).parts = s.parts := rfl
@[simp] theorem State.modCtx_offstack (id : Nat) (f : Ctx → Ctx) : (s.modCtx id f).offstack = s.offstack := rfl
@[simp] theorem State.modCtx_offPoisoned (id : Nat) (f : Ctx → Ctx) : (s.modCtx id f).offPoisoned = s.offPoisoned := rfl
@[simp] theorem State.modCtx_offFrames (id : Nat) (f : Ctx → Ctx) : (s.modCtx id f).offFrames = s.offFrames := rfl
@[simp] theorem State.modCtx_offQueues (id : Nat) (f : Ctx → Ctx) : (s.modCtx id f).offQueues = s.offQueues := rfl
@[simp] theorem State.modCtx_mesh (id : Nat) (f : Ctx → Ctx) : (s.modCtx id f).mesh = s.mesh := rfl
@[simp] theorem State.modCtx_pointers (id : Nat) (f : Ctx → Ctx) : (s.modCtx id f).pointers = s.pointers := rfl
@[simp] theorem State.modCtx_entries (id : Nat) (f : Ctx → Ctx) : (s.modCtx id f).entries = s.entries := rfl
@[simp] theorem State.modCtx_pairs (id : Nat) (f : Ctx → Ctx) : (s.modCtx id f).pairs = s.pairs := rfl
@[simp] theorem State.modCtx_serial (id : Nat) (f : Ctx → Ctx) : (s.modCtx id f).serial = s.serial := rfl
@[simp] theorem State.modCtx_links (id : Nat) (f : Ctx → Ctx) : (s.modCtx id f).links = s.links := rfl
@[simp] theorem State.modCtx_ports (id : Nat) (f : Ctx → Ctx) : (s.modCtx id f).ports = s.ports := rfl
@[simp] theorem State.modCtx_reachable (id : Nat) (f : Ctx → Ctx) : (s.modCtx id f).reachable = s.reachable := rfl
@[simp] theorem State.modCtx_outbox (id : Nat) (f : Ctx → Ctx) : (s.modCtx id f).outbox = s.outbox := rfl
@[simp] theorem State.modCtx_flips (id : Nat) (f : Ctx → Ctx) : (s.modCtx id f).flips = s.flips := rfl
@[simp] theorem State.modCtx_csrs (id : Nat) (f : Ctx → Ctx) : (s.modCtx id f).csrs = s.csrs := rfl
@[simp] theorem State.modCtx_helm (id : Nat) (f : Ctx → Ctx) : (s.modCtx id f).helm = s.helm := rfl
@[simp] theorem State.modCtx_host (id : Nat) (f : Ctx → Ctx) : (s.modCtx id f).host = s.host := rfl
@[simp] theorem State.modCtx_agenda (id : Nat) (f : Ctx → Ctx) : (s.modCtx id f).agenda = s.agenda := rfl
@[simp] theorem State.modCtx_inputs (id : Nat) (f : Ctx → Ctx) : (s.modCtx id f).inputs = s.inputs := rfl
@[simp] theorem State.modCtx_fresh (id : Nat) (f : Ctx → Ctx) : (s.modCtx id f).fresh = s.fresh := rfl
@[simp] theorem State.modCtx_cur (id : Nat) (f : Ctx → Ctx) : (s.modCtx id f).cur = s.cur := rfl

/-! ### A partition changed -/

@[simp] theorem State.modPart_cycle (p : Nat) (f : Partition → Partition) : (s.modPart p f).cycle = s.cycle := rfl
@[simp] theorem State.modPart_powered (p : Nat) (f : Partition → Partition) : (s.modPart p f).powered = s.powered := rfl
@[simp] theorem State.modPart_offAt (p : Nat) (f : Partition → Partition) : (s.modPart p f).offAt = s.offAt := rfl
@[simp] theorem State.modPart_cores (p : Nat) (f : Partition → Partition) : (s.modPart p f).cores = s.cores := rfl
@[simp] theorem State.modPart_ctxs (p : Nat) (f : Partition → Partition) : (s.modPart p f).ctxs = s.ctxs := rfl
@[simp] theorem State.modPart_offstack (p : Nat) (f : Partition → Partition) : (s.modPart p f).offstack = s.offstack := rfl
@[simp] theorem State.modPart_offPoisoned (p : Nat) (f : Partition → Partition) : (s.modPart p f).offPoisoned = s.offPoisoned := rfl
@[simp] theorem State.modPart_offFrames (p : Nat) (f : Partition → Partition) : (s.modPart p f).offFrames = s.offFrames := rfl
@[simp] theorem State.modPart_offQueues (p : Nat) (f : Partition → Partition) : (s.modPart p f).offQueues = s.offQueues := rfl
@[simp] theorem State.modPart_mesh (p : Nat) (f : Partition → Partition) : (s.modPart p f).mesh = s.mesh := rfl
@[simp] theorem State.modPart_pointers (p : Nat) (f : Partition → Partition) : (s.modPart p f).pointers = s.pointers := rfl
@[simp] theorem State.modPart_entries (p : Nat) (f : Partition → Partition) : (s.modPart p f).entries = s.entries := rfl
@[simp] theorem State.modPart_pairs (p : Nat) (f : Partition → Partition) : (s.modPart p f).pairs = s.pairs := rfl
@[simp] theorem State.modPart_serial (p : Nat) (f : Partition → Partition) : (s.modPart p f).serial = s.serial := rfl
@[simp] theorem State.modPart_links (p : Nat) (f : Partition → Partition) : (s.modPart p f).links = s.links := rfl
@[simp] theorem State.modPart_ports (p : Nat) (f : Partition → Partition) : (s.modPart p f).ports = s.ports := rfl
@[simp] theorem State.modPart_reachable (p : Nat) (f : Partition → Partition) : (s.modPart p f).reachable = s.reachable := rfl
@[simp] theorem State.modPart_outbox (p : Nat) (f : Partition → Partition) : (s.modPart p f).outbox = s.outbox := rfl
@[simp] theorem State.modPart_flips (p : Nat) (f : Partition → Partition) : (s.modPart p f).flips = s.flips := rfl
@[simp] theorem State.modPart_csrs (p : Nat) (f : Partition → Partition) : (s.modPart p f).csrs = s.csrs := rfl
@[simp] theorem State.modPart_helm (p : Nat) (f : Partition → Partition) : (s.modPart p f).helm = s.helm := rfl
@[simp] theorem State.modPart_host (p : Nat) (f : Partition → Partition) : (s.modPart p f).host = s.host := rfl
@[simp] theorem State.modPart_agenda (p : Nat) (f : Partition → Partition) : (s.modPart p f).agenda = s.agenda := rfl
@[simp] theorem State.modPart_inputs (p : Nat) (f : Partition → Partition) : (s.modPart p f).inputs = s.inputs := rfl
@[simp] theorem State.modPart_fresh (p : Nat) (f : Partition → Partition) : (s.modPart p f).fresh = s.fresh := rfl
@[simp] theorem State.modPart_cur (p : Nat) (f : Partition → Partition) : (s.modPart p f).cur = s.cur := rfl

/-! ### An event posted -/

@[simp] theorem State.post_cycle (due : Nat) (i : Instr) : (s.post due i).cycle = s.cycle := rfl
@[simp] theorem State.post_powered (due : Nat) (i : Instr) : (s.post due i).powered = s.powered := rfl
@[simp] theorem State.post_offAt (due : Nat) (i : Instr) : (s.post due i).offAt = s.offAt := rfl
@[simp] theorem State.post_cores (due : Nat) (i : Instr) : (s.post due i).cores = s.cores := rfl
@[simp] theorem State.post_ctxs (due : Nat) (i : Instr) : (s.post due i).ctxs = s.ctxs := rfl
@[simp] theorem State.post_parts (due : Nat) (i : Instr) : (s.post due i).parts = s.parts := rfl
@[simp] theorem State.post_offstack (due : Nat) (i : Instr) : (s.post due i).offstack = s.offstack := rfl
@[simp] theorem State.post_offPoisoned (due : Nat) (i : Instr) : (s.post due i).offPoisoned = s.offPoisoned := rfl
@[simp] theorem State.post_offFrames (due : Nat) (i : Instr) : (s.post due i).offFrames = s.offFrames := rfl
@[simp] theorem State.post_offQueues (due : Nat) (i : Instr) : (s.post due i).offQueues = s.offQueues := rfl
@[simp] theorem State.post_mesh (due : Nat) (i : Instr) : (s.post due i).mesh = s.mesh := rfl
@[simp] theorem State.post_pointers (due : Nat) (i : Instr) : (s.post due i).pointers = s.pointers := rfl
@[simp] theorem State.post_entries (due : Nat) (i : Instr) : (s.post due i).entries = s.entries := rfl
@[simp] theorem State.post_pairs (due : Nat) (i : Instr) : (s.post due i).pairs = s.pairs := rfl
@[simp] theorem State.post_serial (due : Nat) (i : Instr) : (s.post due i).serial = s.serial := rfl
@[simp] theorem State.post_links (due : Nat) (i : Instr) : (s.post due i).links = s.links := rfl
@[simp] theorem State.post_ports (due : Nat) (i : Instr) : (s.post due i).ports = s.ports := rfl
@[simp] theorem State.post_reachable (due : Nat) (i : Instr) : (s.post due i).reachable = s.reachable := rfl
@[simp] theorem State.post_outbox (due : Nat) (i : Instr) : (s.post due i).outbox = s.outbox := rfl
@[simp] theorem State.post_flips (due : Nat) (i : Instr) : (s.post due i).flips = s.flips := rfl
@[simp] theorem State.post_csrs (due : Nat) (i : Instr) : (s.post due i).csrs = s.csrs := rfl
@[simp] theorem State.post_helm (due : Nat) (i : Instr) : (s.post due i).helm = s.helm := rfl
@[simp] theorem State.post_host (due : Nat) (i : Instr) : (s.post due i).host = s.host := rfl
@[simp] theorem State.post_inputs (due : Nat) (i : Instr) : (s.post due i).inputs = s.inputs := rfl
@[simp] theorem State.post_fresh (due : Nat) (i : Instr) : (s.post due i).fresh = s.fresh := rfl
@[simp] theorem State.post_cur (due : Nat) (i : Instr) : (s.post due i).cur = s.cur := rfl

/-! ### A free value read -/

@[simp] theorem State.tickFree_cycle  : (s.tickFree).cycle = s.cycle := rfl
@[simp] theorem State.tickFree_powered  : (s.tickFree).powered = s.powered := rfl
@[simp] theorem State.tickFree_offAt  : (s.tickFree).offAt = s.offAt := rfl
@[simp] theorem State.tickFree_cores  : (s.tickFree).cores = s.cores := rfl
@[simp] theorem State.tickFree_ctxs  : (s.tickFree).ctxs = s.ctxs := rfl
@[simp] theorem State.tickFree_parts  : (s.tickFree).parts = s.parts := rfl
@[simp] theorem State.tickFree_offstack  : (s.tickFree).offstack = s.offstack := rfl
@[simp] theorem State.tickFree_offPoisoned  : (s.tickFree).offPoisoned = s.offPoisoned := rfl
@[simp] theorem State.tickFree_offFrames  : (s.tickFree).offFrames = s.offFrames := rfl
@[simp] theorem State.tickFree_offQueues  : (s.tickFree).offQueues = s.offQueues := rfl
@[simp] theorem State.tickFree_mesh  : (s.tickFree).mesh = s.mesh := rfl
@[simp] theorem State.tickFree_pointers  : (s.tickFree).pointers = s.pointers := rfl
@[simp] theorem State.tickFree_entries  : (s.tickFree).entries = s.entries := rfl
@[simp] theorem State.tickFree_pairs  : (s.tickFree).pairs = s.pairs := rfl
@[simp] theorem State.tickFree_serial  : (s.tickFree).serial = s.serial := rfl
@[simp] theorem State.tickFree_links  : (s.tickFree).links = s.links := rfl
@[simp] theorem State.tickFree_ports  : (s.tickFree).ports = s.ports := rfl
@[simp] theorem State.tickFree_reachable  : (s.tickFree).reachable = s.reachable := rfl
@[simp] theorem State.tickFree_outbox  : (s.tickFree).outbox = s.outbox := rfl
@[simp] theorem State.tickFree_flips  : (s.tickFree).flips = s.flips := rfl
@[simp] theorem State.tickFree_csrs  : (s.tickFree).csrs = s.csrs := rfl
@[simp] theorem State.tickFree_helm  : (s.tickFree).helm = s.helm := rfl
@[simp] theorem State.tickFree_host  : (s.tickFree).host = s.host := rfl
@[simp] theorem State.tickFree_agenda  : (s.tickFree).agenda = s.agenda := rfl
@[simp] theorem State.tickFree_inputs  : (s.tickFree).inputs = s.inputs := rfl
@[simp] theorem State.tickFree_cur  : (s.tickFree).cur = s.cur := rfl

/-! ### A flit put at a router -/

@[simp] theorem State.inject_cycle (at_ node inp : Nat) (f : Flit) : (s.inject at_ node inp f).cycle = s.cycle := rfl
@[simp] theorem State.inject_powered (at_ node inp : Nat) (f : Flit) : (s.inject at_ node inp f).powered = s.powered := rfl
@[simp] theorem State.inject_offAt (at_ node inp : Nat) (f : Flit) : (s.inject at_ node inp f).offAt = s.offAt := rfl
@[simp] theorem State.inject_cores (at_ node inp : Nat) (f : Flit) : (s.inject at_ node inp f).cores = s.cores := rfl
@[simp] theorem State.inject_ctxs (at_ node inp : Nat) (f : Flit) : (s.inject at_ node inp f).ctxs = s.ctxs := rfl
@[simp] theorem State.inject_parts (at_ node inp : Nat) (f : Flit) : (s.inject at_ node inp f).parts = s.parts := rfl
@[simp] theorem State.inject_offstack (at_ node inp : Nat) (f : Flit) : (s.inject at_ node inp f).offstack = s.offstack := rfl
@[simp] theorem State.inject_offPoisoned (at_ node inp : Nat) (f : Flit) : (s.inject at_ node inp f).offPoisoned = s.offPoisoned := rfl
@[simp] theorem State.inject_offFrames (at_ node inp : Nat) (f : Flit) : (s.inject at_ node inp f).offFrames = s.offFrames := rfl
@[simp] theorem State.inject_offQueues (at_ node inp : Nat) (f : Flit) : (s.inject at_ node inp f).offQueues = s.offQueues := rfl
@[simp] theorem State.inject_pointers (at_ node inp : Nat) (f : Flit) : (s.inject at_ node inp f).pointers = s.pointers := rfl
@[simp] theorem State.inject_entries (at_ node inp : Nat) (f : Flit) : (s.inject at_ node inp f).entries = s.entries := rfl
@[simp] theorem State.inject_pairs (at_ node inp : Nat) (f : Flit) : (s.inject at_ node inp f).pairs = s.pairs := rfl
@[simp] theorem State.inject_serial (at_ node inp : Nat) (f : Flit) : (s.inject at_ node inp f).serial = s.serial := rfl
@[simp] theorem State.inject_links (at_ node inp : Nat) (f : Flit) : (s.inject at_ node inp f).links = s.links := rfl
@[simp] theorem State.inject_ports (at_ node inp : Nat) (f : Flit) : (s.inject at_ node inp f).ports = s.ports := rfl
@[simp] theorem State.inject_reachable (at_ node inp : Nat) (f : Flit) : (s.inject at_ node inp f).reachable = s.reachable := rfl
@[simp] theorem State.inject_outbox (at_ node inp : Nat) (f : Flit) : (s.inject at_ node inp f).outbox = s.outbox := rfl
@[simp] theorem State.inject_flips (at_ node inp : Nat) (f : Flit) : (s.inject at_ node inp f).flips = s.flips := rfl
@[simp] theorem State.inject_csrs (at_ node inp : Nat) (f : Flit) : (s.inject at_ node inp f).csrs = s.csrs := rfl
@[simp] theorem State.inject_helm (at_ node inp : Nat) (f : Flit) : (s.inject at_ node inp f).helm = s.helm := rfl
@[simp] theorem State.inject_host (at_ node inp : Nat) (f : Flit) : (s.inject at_ node inp f).host = s.host := rfl
@[simp] theorem State.inject_agenda (at_ node inp : Nat) (f : Flit) : (s.inject at_ node inp f).agenda = s.agenda := rfl
@[simp] theorem State.inject_inputs (at_ node inp : Nat) (f : Flit) : (s.inject at_ node inp f).inputs = s.inputs := rfl
@[simp] theorem State.inject_fresh (at_ node inp : Nat) (f : Flit) : (s.inject at_ node inp f).fresh = s.fresh := rfl
@[simp] theorem State.inject_cur (at_ node inp : Nat) (f : Flit) : (s.inject at_ node inp f).cur = s.cur := rfl

/-! ### The journal -/

@[simp] theorem State.journal_cycle (kind ctx core a b : Nat) (bytes : List Byte) : (s.journal kind ctx core a b bytes).cycle = s.cycle := rfl
@[simp] theorem State.journal_powered (kind ctx core a b : Nat) (bytes : List Byte) : (s.journal kind ctx core a b bytes).powered = s.powered := rfl
@[simp] theorem State.journal_offAt (kind ctx core a b : Nat) (bytes : List Byte) : (s.journal kind ctx core a b bytes).offAt = s.offAt := rfl
@[simp] theorem State.journal_cores (kind ctx core a b : Nat) (bytes : List Byte) : (s.journal kind ctx core a b bytes).cores = s.cores := rfl
@[simp] theorem State.journal_ctxs (kind ctx core a b : Nat) (bytes : List Byte) : (s.journal kind ctx core a b bytes).ctxs = s.ctxs := rfl
@[simp] theorem State.journal_parts (kind ctx core a b : Nat) (bytes : List Byte) : (s.journal kind ctx core a b bytes).parts = s.parts := rfl
@[simp] theorem State.journal_offstack (kind ctx core a b : Nat) (bytes : List Byte) : (s.journal kind ctx core a b bytes).offstack = s.offstack := rfl
@[simp] theorem State.journal_offPoisoned (kind ctx core a b : Nat) (bytes : List Byte) : (s.journal kind ctx core a b bytes).offPoisoned = s.offPoisoned := rfl
@[simp] theorem State.journal_offFrames (kind ctx core a b : Nat) (bytes : List Byte) : (s.journal kind ctx core a b bytes).offFrames = s.offFrames := rfl
@[simp] theorem State.journal_offQueues (kind ctx core a b : Nat) (bytes : List Byte) : (s.journal kind ctx core a b bytes).offQueues = s.offQueues := rfl
@[simp] theorem State.journal_mesh (kind ctx core a b : Nat) (bytes : List Byte) : (s.journal kind ctx core a b bytes).mesh = s.mesh := rfl
@[simp] theorem State.journal_pointers (kind ctx core a b : Nat) (bytes : List Byte) : (s.journal kind ctx core a b bytes).pointers = s.pointers := rfl
@[simp] theorem State.journal_entries (kind ctx core a b : Nat) (bytes : List Byte) : (s.journal kind ctx core a b bytes).entries = s.entries := rfl
@[simp] theorem State.journal_pairs (kind ctx core a b : Nat) (bytes : List Byte) : (s.journal kind ctx core a b bytes).pairs = s.pairs := rfl
@[simp] theorem State.journal_serial (kind ctx core a b : Nat) (bytes : List Byte) : (s.journal kind ctx core a b bytes).serial = s.serial := rfl
@[simp] theorem State.journal_links (kind ctx core a b : Nat) (bytes : List Byte) : (s.journal kind ctx core a b bytes).links = s.links := rfl
@[simp] theorem State.journal_ports (kind ctx core a b : Nat) (bytes : List Byte) : (s.journal kind ctx core a b bytes).ports = s.ports := rfl
@[simp] theorem State.journal_reachable (kind ctx core a b : Nat) (bytes : List Byte) : (s.journal kind ctx core a b bytes).reachable = s.reachable := rfl
@[simp] theorem State.journal_outbox (kind ctx core a b : Nat) (bytes : List Byte) : (s.journal kind ctx core a b bytes).outbox = s.outbox := rfl
@[simp] theorem State.journal_flips (kind ctx core a b : Nat) (bytes : List Byte) : (s.journal kind ctx core a b bytes).flips = s.flips := rfl
@[simp] theorem State.journal_csrs (kind ctx core a b : Nat) (bytes : List Byte) : (s.journal kind ctx core a b bytes).csrs = s.csrs := rfl
@[simp] theorem State.journal_host (kind ctx core a b : Nat) (bytes : List Byte) : (s.journal kind ctx core a b bytes).host = s.host := rfl
@[simp] theorem State.journal_agenda (kind ctx core a b : Nat) (bytes : List Byte) : (s.journal kind ctx core a b bytes).agenda = s.agenda := rfl
@[simp] theorem State.journal_inputs (kind ctx core a b : Nat) (bytes : List Byte) : (s.journal kind ctx core a b bytes).inputs = s.inputs := rfl
@[simp] theorem State.journal_fresh (kind ctx core a b : Nat) (bytes : List Byte) : (s.journal kind ctx core a b bytes).fresh = s.fresh := rfl
@[simp] theorem State.journal_cur (kind ctx core a b : Nat) (bytes : List Byte) : (s.journal kind ctx core a b bytes).cur = s.cur := rfl

/-! ### The running thread's registers -/

@[simp] theorem State.writeG_cycle (n : GReg) (x : Word) (lat : Nat) : (s.writeG n x lat).cycle = s.cycle := rfl
@[simp] theorem State.writeG_powered (n : GReg) (x : Word) (lat : Nat) : (s.writeG n x lat).powered = s.powered := rfl
@[simp] theorem State.writeG_offAt (n : GReg) (x : Word) (lat : Nat) : (s.writeG n x lat).offAt = s.offAt := rfl
@[simp] theorem State.writeG_ctxs (n : GReg) (x : Word) (lat : Nat) : (s.writeG n x lat).ctxs = s.ctxs := rfl
@[simp] theorem State.writeG_parts (n : GReg) (x : Word) (lat : Nat) : (s.writeG n x lat).parts = s.parts := rfl
@[simp] theorem State.writeG_offstack (n : GReg) (x : Word) (lat : Nat) : (s.writeG n x lat).offstack = s.offstack := rfl
@[simp] theorem State.writeG_offPoisoned (n : GReg) (x : Word) (lat : Nat) : (s.writeG n x lat).offPoisoned = s.offPoisoned := rfl
@[simp] theorem State.writeG_offFrames (n : GReg) (x : Word) (lat : Nat) : (s.writeG n x lat).offFrames = s.offFrames := rfl
@[simp] theorem State.writeG_offQueues (n : GReg) (x : Word) (lat : Nat) : (s.writeG n x lat).offQueues = s.offQueues := rfl
@[simp] theorem State.writeG_mesh (n : GReg) (x : Word) (lat : Nat) : (s.writeG n x lat).mesh = s.mesh := rfl
@[simp] theorem State.writeG_pointers (n : GReg) (x : Word) (lat : Nat) : (s.writeG n x lat).pointers = s.pointers := rfl
@[simp] theorem State.writeG_entries (n : GReg) (x : Word) (lat : Nat) : (s.writeG n x lat).entries = s.entries := rfl
@[simp] theorem State.writeG_pairs (n : GReg) (x : Word) (lat : Nat) : (s.writeG n x lat).pairs = s.pairs := rfl
@[simp] theorem State.writeG_serial (n : GReg) (x : Word) (lat : Nat) : (s.writeG n x lat).serial = s.serial := rfl
@[simp] theorem State.writeG_links (n : GReg) (x : Word) (lat : Nat) : (s.writeG n x lat).links = s.links := rfl
@[simp] theorem State.writeG_ports (n : GReg) (x : Word) (lat : Nat) : (s.writeG n x lat).ports = s.ports := rfl
@[simp] theorem State.writeG_reachable (n : GReg) (x : Word) (lat : Nat) : (s.writeG n x lat).reachable = s.reachable := rfl
@[simp] theorem State.writeG_outbox (n : GReg) (x : Word) (lat : Nat) : (s.writeG n x lat).outbox = s.outbox := rfl
@[simp] theorem State.writeG_flips (n : GReg) (x : Word) (lat : Nat) : (s.writeG n x lat).flips = s.flips := rfl
@[simp] theorem State.writeG_csrs (n : GReg) (x : Word) (lat : Nat) : (s.writeG n x lat).csrs = s.csrs := rfl
@[simp] theorem State.writeG_helm (n : GReg) (x : Word) (lat : Nat) : (s.writeG n x lat).helm = s.helm := rfl
@[simp] theorem State.writeG_host (n : GReg) (x : Word) (lat : Nat) : (s.writeG n x lat).host = s.host := rfl
@[simp] theorem State.writeG_agenda (n : GReg) (x : Word) (lat : Nat) : (s.writeG n x lat).agenda = s.agenda := rfl
@[simp] theorem State.writeG_inputs (n : GReg) (x : Word) (lat : Nat) : (s.writeG n x lat).inputs = s.inputs := rfl
@[simp] theorem State.writeG_fresh (n : GReg) (x : Word) (lat : Nat) : (s.writeG n x lat).fresh = s.fresh := rfl
@[simp] theorem State.writeG_cur (n : GReg) (x : Word) (lat : Nat) : (s.writeG n x lat).cur = s.cur := rfl

/-! ### The running thread's flags -/

@[simp] theorem State.markEmpty_cycle (d : Dest) : (s.markEmpty d).cycle = s.cycle := rfl
@[simp] theorem State.markEmpty_powered (d : Dest) : (s.markEmpty d).powered = s.powered := rfl
@[simp] theorem State.markEmpty_offAt (d : Dest) : (s.markEmpty d).offAt = s.offAt := rfl
@[simp] theorem State.markEmpty_ctxs (d : Dest) : (s.markEmpty d).ctxs = s.ctxs := rfl
@[simp] theorem State.markEmpty_parts (d : Dest) : (s.markEmpty d).parts = s.parts := rfl
@[simp] theorem State.markEmpty_offstack (d : Dest) : (s.markEmpty d).offstack = s.offstack := rfl
@[simp] theorem State.markEmpty_offPoisoned (d : Dest) : (s.markEmpty d).offPoisoned = s.offPoisoned := rfl
@[simp] theorem State.markEmpty_offFrames (d : Dest) : (s.markEmpty d).offFrames = s.offFrames := rfl
@[simp] theorem State.markEmpty_offQueues (d : Dest) : (s.markEmpty d).offQueues = s.offQueues := rfl
@[simp] theorem State.markEmpty_mesh (d : Dest) : (s.markEmpty d).mesh = s.mesh := rfl
@[simp] theorem State.markEmpty_pointers (d : Dest) : (s.markEmpty d).pointers = s.pointers := rfl
@[simp] theorem State.markEmpty_entries (d : Dest) : (s.markEmpty d).entries = s.entries := rfl
@[simp] theorem State.markEmpty_pairs (d : Dest) : (s.markEmpty d).pairs = s.pairs := rfl
@[simp] theorem State.markEmpty_serial (d : Dest) : (s.markEmpty d).serial = s.serial := rfl
@[simp] theorem State.markEmpty_links (d : Dest) : (s.markEmpty d).links = s.links := rfl
@[simp] theorem State.markEmpty_ports (d : Dest) : (s.markEmpty d).ports = s.ports := rfl
@[simp] theorem State.markEmpty_reachable (d : Dest) : (s.markEmpty d).reachable = s.reachable := rfl
@[simp] theorem State.markEmpty_outbox (d : Dest) : (s.markEmpty d).outbox = s.outbox := rfl
@[simp] theorem State.markEmpty_flips (d : Dest) : (s.markEmpty d).flips = s.flips := rfl
@[simp] theorem State.markEmpty_csrs (d : Dest) : (s.markEmpty d).csrs = s.csrs := rfl
@[simp] theorem State.markEmpty_helm (d : Dest) : (s.markEmpty d).helm = s.helm := rfl
@[simp] theorem State.markEmpty_host (d : Dest) : (s.markEmpty d).host = s.host := rfl
@[simp] theorem State.markEmpty_agenda (d : Dest) : (s.markEmpty d).agenda = s.agenda := rfl
@[simp] theorem State.markEmpty_inputs (d : Dest) : (s.markEmpty d).inputs = s.inputs := rfl
@[simp] theorem State.markEmpty_fresh (d : Dest) : (s.markEmpty d).fresh = s.fresh := rfl
@[simp] theorem State.markEmpty_cur (d : Dest) : (s.markEmpty d).cur = s.cur := rfl

/-! ### The fields an update writes -/

@[simp] theorem State.setCore_cores (c : Nat) (k : Core) : (s.setCore c k).cores = s.cores.setIfInBounds c k := rfl
@[simp] theorem State.post_agenda (due : Nat) (i : Instr) : (s.post due i).agenda = s.agenda ++ [(due, i)] := rfl
@[simp] theorem State.tickFree_fresh : s.tickFree.fresh = s.fresh + 1 := rfl
@[simp] theorem State.inject_mesh (at_ node inp : Nat) (f : Flit) :
    (s.inject at_ node inp f).mesh = s.mesh ++ [⟨f, node, inp, at_, false, false, none⟩] := rfl

/-! ### An event posted once -/

@[simp] theorem State.postOnce_cycle (due : Nat) (i : Instr) : (s.postOnce due i).cycle = s.cycle := by
  unfold State.postOnce; split <;> rfl
@[simp] theorem State.postOnce_powered (due : Nat) (i : Instr) : (s.postOnce due i).powered = s.powered := by
  unfold State.postOnce; split <;> rfl
@[simp] theorem State.postOnce_offAt (due : Nat) (i : Instr) : (s.postOnce due i).offAt = s.offAt := by
  unfold State.postOnce; split <;> rfl
@[simp] theorem State.postOnce_cores (due : Nat) (i : Instr) : (s.postOnce due i).cores = s.cores := by
  unfold State.postOnce; split <;> rfl
@[simp] theorem State.postOnce_ctxs (due : Nat) (i : Instr) : (s.postOnce due i).ctxs = s.ctxs := by
  unfold State.postOnce; split <;> rfl
@[simp] theorem State.postOnce_parts (due : Nat) (i : Instr) : (s.postOnce due i).parts = s.parts := by
  unfold State.postOnce; split <;> rfl
@[simp] theorem State.postOnce_offstack (due : Nat) (i : Instr) : (s.postOnce due i).offstack = s.offstack := by
  unfold State.postOnce; split <;> rfl
@[simp] theorem State.postOnce_offPoisoned (due : Nat) (i : Instr) : (s.postOnce due i).offPoisoned = s.offPoisoned := by
  unfold State.postOnce; split <;> rfl
@[simp] theorem State.postOnce_offFrames (due : Nat) (i : Instr) : (s.postOnce due i).offFrames = s.offFrames := by
  unfold State.postOnce; split <;> rfl
@[simp] theorem State.postOnce_offQueues (due : Nat) (i : Instr) : (s.postOnce due i).offQueues = s.offQueues := by
  unfold State.postOnce; split <;> rfl
@[simp] theorem State.postOnce_mesh (due : Nat) (i : Instr) : (s.postOnce due i).mesh = s.mesh := by
  unfold State.postOnce; split <;> rfl
@[simp] theorem State.postOnce_pointers (due : Nat) (i : Instr) : (s.postOnce due i).pointers = s.pointers := by
  unfold State.postOnce; split <;> rfl
@[simp] theorem State.postOnce_entries (due : Nat) (i : Instr) : (s.postOnce due i).entries = s.entries := by
  unfold State.postOnce; split <;> rfl
@[simp] theorem State.postOnce_pairs (due : Nat) (i : Instr) : (s.postOnce due i).pairs = s.pairs := by
  unfold State.postOnce; split <;> rfl
@[simp] theorem State.postOnce_serial (due : Nat) (i : Instr) : (s.postOnce due i).serial = s.serial := by
  unfold State.postOnce; split <;> rfl
@[simp] theorem State.postOnce_links (due : Nat) (i : Instr) : (s.postOnce due i).links = s.links := by
  unfold State.postOnce; split <;> rfl
@[simp] theorem State.postOnce_ports (due : Nat) (i : Instr) : (s.postOnce due i).ports = s.ports := by
  unfold State.postOnce; split <;> rfl
@[simp] theorem State.postOnce_reachable (due : Nat) (i : Instr) : (s.postOnce due i).reachable = s.reachable := by
  unfold State.postOnce; split <;> rfl
@[simp] theorem State.postOnce_outbox (due : Nat) (i : Instr) : (s.postOnce due i).outbox = s.outbox := by
  unfold State.postOnce; split <;> rfl
@[simp] theorem State.postOnce_flips (due : Nat) (i : Instr) : (s.postOnce due i).flips = s.flips := by
  unfold State.postOnce; split <;> rfl
@[simp] theorem State.postOnce_csrs (due : Nat) (i : Instr) : (s.postOnce due i).csrs = s.csrs := by
  unfold State.postOnce; split <;> rfl
@[simp] theorem State.postOnce_helm (due : Nat) (i : Instr) : (s.postOnce due i).helm = s.helm := by
  unfold State.postOnce; split <;> rfl
@[simp] theorem State.postOnce_host (due : Nat) (i : Instr) : (s.postOnce due i).host = s.host := by
  unfold State.postOnce; split <;> rfl
@[simp] theorem State.postOnce_inputs (due : Nat) (i : Instr) : (s.postOnce due i).inputs = s.inputs := by
  unfold State.postOnce; split <;> rfl
@[simp] theorem State.postOnce_fresh (due : Nat) (i : Instr) : (s.postOnce due i).fresh = s.fresh := by
  unfold State.postOnce; split <;> rfl
@[simp] theorem State.postOnce_cur (due : Nat) (i : Instr) : (s.postOnce due i).cur = s.cur := by
  unfold State.postOnce; split <;> rfl

/-! ### A core's agent changed -/

@[simp] theorem State.modAgent_cycle (c : Nat) (f : Agent → Agent) : (s.modAgent c f).cycle = s.cycle := rfl
@[simp] theorem State.modAgent_powered (c : Nat) (f : Agent → Agent) : (s.modAgent c f).powered = s.powered := rfl
@[simp] theorem State.modAgent_offAt (c : Nat) (f : Agent → Agent) : (s.modAgent c f).offAt = s.offAt := rfl
@[simp] theorem State.modAgent_ctxs (c : Nat) (f : Agent → Agent) : (s.modAgent c f).ctxs = s.ctxs := rfl
@[simp] theorem State.modAgent_parts (c : Nat) (f : Agent → Agent) : (s.modAgent c f).parts = s.parts := rfl
@[simp] theorem State.modAgent_offstack (c : Nat) (f : Agent → Agent) : (s.modAgent c f).offstack = s.offstack := rfl
@[simp] theorem State.modAgent_offPoisoned (c : Nat) (f : Agent → Agent) : (s.modAgent c f).offPoisoned = s.offPoisoned := rfl
@[simp] theorem State.modAgent_offFrames (c : Nat) (f : Agent → Agent) : (s.modAgent c f).offFrames = s.offFrames := rfl
@[simp] theorem State.modAgent_offQueues (c : Nat) (f : Agent → Agent) : (s.modAgent c f).offQueues = s.offQueues := rfl
@[simp] theorem State.modAgent_mesh (c : Nat) (f : Agent → Agent) : (s.modAgent c f).mesh = s.mesh := rfl
@[simp] theorem State.modAgent_pointers (c : Nat) (f : Agent → Agent) : (s.modAgent c f).pointers = s.pointers := rfl
@[simp] theorem State.modAgent_entries (c : Nat) (f : Agent → Agent) : (s.modAgent c f).entries = s.entries := rfl
@[simp] theorem State.modAgent_pairs (c : Nat) (f : Agent → Agent) : (s.modAgent c f).pairs = s.pairs := rfl
@[simp] theorem State.modAgent_serial (c : Nat) (f : Agent → Agent) : (s.modAgent c f).serial = s.serial := rfl
@[simp] theorem State.modAgent_links (c : Nat) (f : Agent → Agent) : (s.modAgent c f).links = s.links := rfl
@[simp] theorem State.modAgent_ports (c : Nat) (f : Agent → Agent) : (s.modAgent c f).ports = s.ports := rfl
@[simp] theorem State.modAgent_reachable (c : Nat) (f : Agent → Agent) : (s.modAgent c f).reachable = s.reachable := rfl
@[simp] theorem State.modAgent_outbox (c : Nat) (f : Agent → Agent) : (s.modAgent c f).outbox = s.outbox := rfl
@[simp] theorem State.modAgent_flips (c : Nat) (f : Agent → Agent) : (s.modAgent c f).flips = s.flips := rfl
@[simp] theorem State.modAgent_csrs (c : Nat) (f : Agent → Agent) : (s.modAgent c f).csrs = s.csrs := rfl
@[simp] theorem State.modAgent_helm (c : Nat) (f : Agent → Agent) : (s.modAgent c f).helm = s.helm := rfl
@[simp] theorem State.modAgent_host (c : Nat) (f : Agent → Agent) : (s.modAgent c f).host = s.host := rfl
@[simp] theorem State.modAgent_agenda (c : Nat) (f : Agent → Agent) : (s.modAgent c f).agenda = s.agenda := rfl
@[simp] theorem State.modAgent_inputs (c : Nat) (f : Agent → Agent) : (s.modAgent c f).inputs = s.inputs := rfl
@[simp] theorem State.modAgent_fresh (c : Nat) (f : Agent → Agent) : (s.modAgent c f).fresh = s.fresh := rfl
@[simp] theorem State.modAgent_cur (c : Nat) (f : Agent → Agent) : (s.modAgent c f).cur = s.cur := rfl

/-! ### A Bumen port changed -/

@[simp] theorem State.modPort_cycle (p : Nat) (f : Bumen → Bumen) : (s.modPort p f).cycle = s.cycle := by
  unfold State.modPort; split <;> rfl
@[simp] theorem State.modPort_powered (p : Nat) (f : Bumen → Bumen) : (s.modPort p f).powered = s.powered := by
  unfold State.modPort; split <;> rfl
@[simp] theorem State.modPort_offAt (p : Nat) (f : Bumen → Bumen) : (s.modPort p f).offAt = s.offAt := by
  unfold State.modPort; split <;> rfl
@[simp] theorem State.modPort_cores (p : Nat) (f : Bumen → Bumen) : (s.modPort p f).cores = s.cores := by
  unfold State.modPort; split <;> rfl
@[simp] theorem State.modPort_ctxs (p : Nat) (f : Bumen → Bumen) : (s.modPort p f).ctxs = s.ctxs := by
  unfold State.modPort; split <;> rfl
@[simp] theorem State.modPort_parts (p : Nat) (f : Bumen → Bumen) : (s.modPort p f).parts = s.parts := by
  unfold State.modPort; split <;> rfl
@[simp] theorem State.modPort_offstack (p : Nat) (f : Bumen → Bumen) : (s.modPort p f).offstack = s.offstack := by
  unfold State.modPort; split <;> rfl
@[simp] theorem State.modPort_offPoisoned (p : Nat) (f : Bumen → Bumen) : (s.modPort p f).offPoisoned = s.offPoisoned := by
  unfold State.modPort; split <;> rfl
@[simp] theorem State.modPort_offFrames (p : Nat) (f : Bumen → Bumen) : (s.modPort p f).offFrames = s.offFrames := by
  unfold State.modPort; split <;> rfl
@[simp] theorem State.modPort_offQueues (p : Nat) (f : Bumen → Bumen) : (s.modPort p f).offQueues = s.offQueues := by
  unfold State.modPort; split <;> rfl
@[simp] theorem State.modPort_mesh (p : Nat) (f : Bumen → Bumen) : (s.modPort p f).mesh = s.mesh := by
  unfold State.modPort; split <;> rfl
@[simp] theorem State.modPort_pointers (p : Nat) (f : Bumen → Bumen) : (s.modPort p f).pointers = s.pointers := by
  unfold State.modPort; split <;> rfl
@[simp] theorem State.modPort_entries (p : Nat) (f : Bumen → Bumen) : (s.modPort p f).entries = s.entries := by
  unfold State.modPort; split <;> rfl
@[simp] theorem State.modPort_pairs (p : Nat) (f : Bumen → Bumen) : (s.modPort p f).pairs = s.pairs := by
  unfold State.modPort; split <;> rfl
@[simp] theorem State.modPort_serial (p : Nat) (f : Bumen → Bumen) : (s.modPort p f).serial = s.serial := by
  unfold State.modPort; split <;> rfl
@[simp] theorem State.modPort_links (p : Nat) (f : Bumen → Bumen) : (s.modPort p f).links = s.links := by
  unfold State.modPort; split <;> rfl
@[simp] theorem State.modPort_reachable (p : Nat) (f : Bumen → Bumen) : (s.modPort p f).reachable = s.reachable := by
  unfold State.modPort; split <;> rfl
@[simp] theorem State.modPort_outbox (p : Nat) (f : Bumen → Bumen) : (s.modPort p f).outbox = s.outbox := by
  unfold State.modPort; split <;> rfl
@[simp] theorem State.modPort_flips (p : Nat) (f : Bumen → Bumen) : (s.modPort p f).flips = s.flips := by
  unfold State.modPort; split <;> rfl
@[simp] theorem State.modPort_csrs (p : Nat) (f : Bumen → Bumen) : (s.modPort p f).csrs = s.csrs := by
  unfold State.modPort; split <;> rfl
@[simp] theorem State.modPort_helm (p : Nat) (f : Bumen → Bumen) : (s.modPort p f).helm = s.helm := by
  unfold State.modPort; split <;> rfl
@[simp] theorem State.modPort_host (p : Nat) (f : Bumen → Bumen) : (s.modPort p f).host = s.host := by
  unfold State.modPort; split <;> rfl
@[simp] theorem State.modPort_agenda (p : Nat) (f : Bumen → Bumen) : (s.modPort p f).agenda = s.agenda := by
  unfold State.modPort; split <;> rfl
@[simp] theorem State.modPort_inputs (p : Nat) (f : Bumen → Bumen) : (s.modPort p f).inputs = s.inputs := by
  unfold State.modPort; split <;> rfl
@[simp] theorem State.modPort_fresh (p : Nat) (f : Bumen → Bumen) : (s.modPort p f).fresh = s.fresh := by
  unfold State.modPort; split <;> rfl
@[simp] theorem State.modPort_cur (p : Nat) (f : Bumen → Bumen) : (s.modPort p f).cur = s.cur := by
  unfold State.modPort; split <;> rfl

/-! ### Updates of a core -/

@[simp] theorem Core.setThr_ctx (k : Core) (t : Nat) (th : Thread) : (k.setThr t th).ctx = k.ctx := rfl
@[simp] theorem Core.setThr_sram (k : Core) (t : Nat) (th : Thread) : (k.setThr t th).sram = k.sram := rfl
@[simp] theorem Core.setThr_granules (k : Core) (t : Nat) (th : Thread) : (k.setThr t th).granules = k.granules := rfl
@[simp] theorem Core.setThr_owners (k : Core) (t : Nat) (th : Thread) : (k.setThr t th).owners = k.owners := rfl
@[simp] theorem Core.setThr_bankUses (k : Core) (t : Nat) (th : Thread) : (k.setThr t th).bankUses = k.bankUses := rfl
@[simp] theorem Core.setThr_tvec (k : Core) (t : Nat) (th : Thread) : (k.setThr t th).tvec = k.tvec := rfl
@[simp] theorem Core.setThr_dbgctl (k : Core) (t : Nat) (th : Thread) : (k.setThr t th).dbgctl = k.dbgctl := rfl
@[simp] theorem Core.setThr_watch (k : Core) (t : Nat) (th : Thread) : (k.setThr t th).watch = k.watch := rfl
@[simp] theorem Core.setThr_vault (k : Core) (t : Nat) (th : Thread) : (k.setThr t th).vault = k.vault := rfl
@[simp] theorem Core.setThr_almanac (k : Core) (t : Nat) (th : Thread) : (k.setThr t th).almanac = k.almanac := rfl
@[simp] theorem Core.setThr_tasks (k : Core) (t : Nat) (th : Thread) : (k.setThr t th).tasks = k.tasks := rfl
@[simp] theorem Core.setThr_sfu (k : Core) (t : Nat) (th : Thread) : (k.setThr t th).sfu = k.sfu := rfl
@[simp] theorem Core.setThr_matrix (k : Core) (t : Nat) (th : Thread) : (k.setThr t th).matrix = k.matrix := rfl
@[simp] theorem Core.setThr_trellis (k : Core) (t : Nat) (th : Thread) : (k.setThr t th).trellis = k.trellis := rfl
@[simp] theorem Core.setThr_engine (k : Core) (t : Nat) (th : Thread) : (k.setThr t th).engine = k.engine := rfl
@[simp] theorem Core.setThr_agent (k : Core) (t : Nat) (th : Thread) : (k.setThr t th).agent = k.agent := rfl
@[simp] theorem Core.setThr_net (k : Core) (t : Nat) (th : Thread) : (k.setThr t th).net = k.net := rfl
@[simp] theorem Core.setThr_sensors (k : Core) (t : Nat) (th : Thread) : (k.setThr t th).sensors = k.sensors := rfl
@[simp] theorem Core.setThr_trips (k : Core) (t : Nat) (th : Thread) : (k.setThr t th).trips = k.trips := rfl
@[simp] theorem Core.setThr_stop (k : Core) (t : Nat) (th : Thread) : (k.setThr t th).stop = k.stop := rfl
@[simp] theorem Core.setThr_preempt (k : Core) (t : Nat) (th : Thread) : (k.setThr t th).preempt = k.preempt := rfl

@[simp] theorem Core.setOwner_threads (k : Core) (u code : Nat) : (k.setOwner u code).threads = k.threads := rfl
@[simp] theorem Core.setOwner_ctx (k : Core) (u code : Nat) : (k.setOwner u code).ctx = k.ctx := rfl
@[simp] theorem Core.setOwner_sram (k : Core) (u code : Nat) : (k.setOwner u code).sram = k.sram := rfl
@[simp] theorem Core.setOwner_granules (k : Core) (u code : Nat) : (k.setOwner u code).granules = k.granules := rfl
@[simp] theorem Core.setOwner_bankUses (k : Core) (u code : Nat) : (k.setOwner u code).bankUses = k.bankUses := rfl
@[simp] theorem Core.setOwner_tvec (k : Core) (u code : Nat) : (k.setOwner u code).tvec = k.tvec := rfl
@[simp] theorem Core.setOwner_dbgctl (k : Core) (u code : Nat) : (k.setOwner u code).dbgctl = k.dbgctl := rfl
@[simp] theorem Core.setOwner_watch (k : Core) (u code : Nat) : (k.setOwner u code).watch = k.watch := rfl
@[simp] theorem Core.setOwner_vault (k : Core) (u code : Nat) : (k.setOwner u code).vault = k.vault := rfl
@[simp] theorem Core.setOwner_almanac (k : Core) (u code : Nat) : (k.setOwner u code).almanac = k.almanac := rfl
@[simp] theorem Core.setOwner_tasks (k : Core) (u code : Nat) : (k.setOwner u code).tasks = k.tasks := rfl
@[simp] theorem Core.setOwner_sfu (k : Core) (u code : Nat) : (k.setOwner u code).sfu = k.sfu := rfl
@[simp] theorem Core.setOwner_matrix (k : Core) (u code : Nat) : (k.setOwner u code).matrix = k.matrix := rfl
@[simp] theorem Core.setOwner_trellis (k : Core) (u code : Nat) : (k.setOwner u code).trellis = k.trellis := rfl
@[simp] theorem Core.setOwner_engine (k : Core) (u code : Nat) : (k.setOwner u code).engine = k.engine := rfl
@[simp] theorem Core.setOwner_agent (k : Core) (u code : Nat) : (k.setOwner u code).agent = k.agent := rfl
@[simp] theorem Core.setOwner_net (k : Core) (u code : Nat) : (k.setOwner u code).net = k.net := rfl
@[simp] theorem Core.setOwner_sensors (k : Core) (u code : Nat) : (k.setOwner u code).sensors = k.sensors := rfl
@[simp] theorem Core.setOwner_trips (k : Core) (u code : Nat) : (k.setOwner u code).trips = k.trips := rfl
@[simp] theorem Core.setOwner_stop (k : Core) (u code : Nat) : (k.setOwner u code).stop = k.stop := rfl
@[simp] theorem Core.setOwner_preempt (k : Core) (u code : Nat) : (k.setOwner u code).preempt = k.preempt := rfl

@[simp] theorem Core.setGran_threads (k : Core) (g : Nat) (full : Bool) : (k.setGran g full).threads = k.threads := rfl
@[simp] theorem Core.setGran_ctx (k : Core) (g : Nat) (full : Bool) : (k.setGran g full).ctx = k.ctx := rfl
@[simp] theorem Core.setGran_sram (k : Core) (g : Nat) (full : Bool) : (k.setGran g full).sram = k.sram := rfl
@[simp] theorem Core.setGran_owners (k : Core) (g : Nat) (full : Bool) : (k.setGran g full).owners = k.owners := rfl
@[simp] theorem Core.setGran_bankUses (k : Core) (g : Nat) (full : Bool) : (k.setGran g full).bankUses = k.bankUses := rfl
@[simp] theorem Core.setGran_tvec (k : Core) (g : Nat) (full : Bool) : (k.setGran g full).tvec = k.tvec := rfl
@[simp] theorem Core.setGran_dbgctl (k : Core) (g : Nat) (full : Bool) : (k.setGran g full).dbgctl = k.dbgctl := rfl
@[simp] theorem Core.setGran_watch (k : Core) (g : Nat) (full : Bool) : (k.setGran g full).watch = k.watch := rfl
@[simp] theorem Core.setGran_vault (k : Core) (g : Nat) (full : Bool) : (k.setGran g full).vault = k.vault := rfl
@[simp] theorem Core.setGran_almanac (k : Core) (g : Nat) (full : Bool) : (k.setGran g full).almanac = k.almanac := rfl
@[simp] theorem Core.setGran_tasks (k : Core) (g : Nat) (full : Bool) : (k.setGran g full).tasks = k.tasks := rfl
@[simp] theorem Core.setGran_sfu (k : Core) (g : Nat) (full : Bool) : (k.setGran g full).sfu = k.sfu := rfl
@[simp] theorem Core.setGran_matrix (k : Core) (g : Nat) (full : Bool) : (k.setGran g full).matrix = k.matrix := rfl
@[simp] theorem Core.setGran_trellis (k : Core) (g : Nat) (full : Bool) : (k.setGran g full).trellis = k.trellis := rfl
@[simp] theorem Core.setGran_engine (k : Core) (g : Nat) (full : Bool) : (k.setGran g full).engine = k.engine := rfl
@[simp] theorem Core.setGran_agent (k : Core) (g : Nat) (full : Bool) : (k.setGran g full).agent = k.agent := rfl
@[simp] theorem Core.setGran_net (k : Core) (g : Nat) (full : Bool) : (k.setGran g full).net = k.net := rfl
@[simp] theorem Core.setGran_sensors (k : Core) (g : Nat) (full : Bool) : (k.setGran g full).sensors = k.sensors := rfl
@[simp] theorem Core.setGran_trips (k : Core) (g : Nat) (full : Bool) : (k.setGran g full).trips = k.trips := rfl
@[simp] theorem Core.setGran_stop (k : Core) (g : Nat) (full : Bool) : (k.setGran g full).stop = k.stop := rfl
@[simp] theorem Core.setGran_preempt (k : Core) (g : Nat) (full : Bool) : (k.setGran g full).preempt = k.preempt := rfl

@[simp] theorem Core.setBooking_threads (k : Core) (i : Nat) (b : Booking) : (k.setBooking i b).threads = k.threads := rfl
@[simp] theorem Core.setBooking_ctx (k : Core) (i : Nat) (b : Booking) : (k.setBooking i b).ctx = k.ctx := rfl
@[simp] theorem Core.setBooking_sram (k : Core) (i : Nat) (b : Booking) : (k.setBooking i b).sram = k.sram := rfl
@[simp] theorem Core.setBooking_granules (k : Core) (i : Nat) (b : Booking) : (k.setBooking i b).granules = k.granules := rfl
@[simp] theorem Core.setBooking_owners (k : Core) (i : Nat) (b : Booking) : (k.setBooking i b).owners = k.owners := rfl
@[simp] theorem Core.setBooking_bankUses (k : Core) (i : Nat) (b : Booking) : (k.setBooking i b).bankUses = k.bankUses := rfl
@[simp] theorem Core.setBooking_tvec (k : Core) (i : Nat) (b : Booking) : (k.setBooking i b).tvec = k.tvec := rfl
@[simp] theorem Core.setBooking_dbgctl (k : Core) (i : Nat) (b : Booking) : (k.setBooking i b).dbgctl = k.dbgctl := rfl
@[simp] theorem Core.setBooking_watch (k : Core) (i : Nat) (b : Booking) : (k.setBooking i b).watch = k.watch := rfl
@[simp] theorem Core.setBooking_vault (k : Core) (i : Nat) (b : Booking) : (k.setBooking i b).vault = k.vault := rfl
@[simp] theorem Core.setBooking_tasks (k : Core) (i : Nat) (b : Booking) : (k.setBooking i b).tasks = k.tasks := rfl
@[simp] theorem Core.setBooking_sfu (k : Core) (i : Nat) (b : Booking) : (k.setBooking i b).sfu = k.sfu := rfl
@[simp] theorem Core.setBooking_matrix (k : Core) (i : Nat) (b : Booking) : (k.setBooking i b).matrix = k.matrix := rfl
@[simp] theorem Core.setBooking_trellis (k : Core) (i : Nat) (b : Booking) : (k.setBooking i b).trellis = k.trellis := rfl
@[simp] theorem Core.setBooking_engine (k : Core) (i : Nat) (b : Booking) : (k.setBooking i b).engine = k.engine := rfl
@[simp] theorem Core.setBooking_agent (k : Core) (i : Nat) (b : Booking) : (k.setBooking i b).agent = k.agent := rfl
@[simp] theorem Core.setBooking_net (k : Core) (i : Nat) (b : Booking) : (k.setBooking i b).net = k.net := rfl
@[simp] theorem Core.setBooking_sensors (k : Core) (i : Nat) (b : Booking) : (k.setBooking i b).sensors = k.sensors := rfl
@[simp] theorem Core.setBooking_trips (k : Core) (i : Nat) (b : Booking) : (k.setBooking i b).trips = k.trips := rfl
@[simp] theorem Core.setBooking_stop (k : Core) (i : Nat) (b : Booking) : (k.setBooking i b).stop = k.stop := rfl
@[simp] theorem Core.setBooking_preempt (k : Core) (i : Nat) (b : Booking) : (k.setBooking i b).preempt = k.preempt := rfl

@[simp] theorem Core.useBanks_threads (k : Core) (now rank : Nat) (uses : List (Nat × Nat)) : (k.useBanks now rank uses).threads = k.threads := rfl
@[simp] theorem Core.useBanks_ctx (k : Core) (now rank : Nat) (uses : List (Nat × Nat)) : (k.useBanks now rank uses).ctx = k.ctx := rfl
@[simp] theorem Core.useBanks_sram (k : Core) (now rank : Nat) (uses : List (Nat × Nat)) : (k.useBanks now rank uses).sram = k.sram := rfl
@[simp] theorem Core.useBanks_granules (k : Core) (now rank : Nat) (uses : List (Nat × Nat)) : (k.useBanks now rank uses).granules = k.granules := rfl
@[simp] theorem Core.useBanks_owners (k : Core) (now rank : Nat) (uses : List (Nat × Nat)) : (k.useBanks now rank uses).owners = k.owners := rfl
@[simp] theorem Core.useBanks_tvec (k : Core) (now rank : Nat) (uses : List (Nat × Nat)) : (k.useBanks now rank uses).tvec = k.tvec := rfl
@[simp] theorem Core.useBanks_dbgctl (k : Core) (now rank : Nat) (uses : List (Nat × Nat)) : (k.useBanks now rank uses).dbgctl = k.dbgctl := rfl
@[simp] theorem Core.useBanks_watch (k : Core) (now rank : Nat) (uses : List (Nat × Nat)) : (k.useBanks now rank uses).watch = k.watch := rfl
@[simp] theorem Core.useBanks_vault (k : Core) (now rank : Nat) (uses : List (Nat × Nat)) : (k.useBanks now rank uses).vault = k.vault := rfl
@[simp] theorem Core.useBanks_almanac (k : Core) (now rank : Nat) (uses : List (Nat × Nat)) : (k.useBanks now rank uses).almanac = k.almanac := rfl
@[simp] theorem Core.useBanks_tasks (k : Core) (now rank : Nat) (uses : List (Nat × Nat)) : (k.useBanks now rank uses).tasks = k.tasks := rfl
@[simp] theorem Core.useBanks_sfu (k : Core) (now rank : Nat) (uses : List (Nat × Nat)) : (k.useBanks now rank uses).sfu = k.sfu := rfl
@[simp] theorem Core.useBanks_matrix (k : Core) (now rank : Nat) (uses : List (Nat × Nat)) : (k.useBanks now rank uses).matrix = k.matrix := rfl
@[simp] theorem Core.useBanks_trellis (k : Core) (now rank : Nat) (uses : List (Nat × Nat)) : (k.useBanks now rank uses).trellis = k.trellis := rfl
@[simp] theorem Core.useBanks_engine (k : Core) (now rank : Nat) (uses : List (Nat × Nat)) : (k.useBanks now rank uses).engine = k.engine := rfl
@[simp] theorem Core.useBanks_agent (k : Core) (now rank : Nat) (uses : List (Nat × Nat)) : (k.useBanks now rank uses).agent = k.agent := rfl
@[simp] theorem Core.useBanks_net (k : Core) (now rank : Nat) (uses : List (Nat × Nat)) : (k.useBanks now rank uses).net = k.net := rfl
@[simp] theorem Core.useBanks_sensors (k : Core) (now rank : Nat) (uses : List (Nat × Nat)) : (k.useBanks now rank uses).sensors = k.sensors := rfl
@[simp] theorem Core.useBanks_trips (k : Core) (now rank : Nat) (uses : List (Nat × Nat)) : (k.useBanks now rank uses).trips = k.trips := rfl
@[simp] theorem Core.useBanks_stop (k : Core) (now rank : Nat) (uses : List (Nat × Nat)) : (k.useBanks now rank uses).stop = k.stop := rfl
@[simp] theorem Core.useBanks_preempt (k : Core) (now rank : Nat) (uses : List (Nat × Nat)) : (k.useBanks now rank uses).preempt = k.preempt := rfl

/-! ### Updates of a thread -/

@[simp] theorem Thread.setGreg_st (th : Thread) (n : Nat) (r : Reg 64) : (th.setGreg n r).st = th.st := by
  unfold Thread.setGreg; repeat (first | rfl | split)
@[simp] theorem Thread.setGreg_left (th : Thread) (n : Nat) (r : Reg 64) : (th.setGreg n r).left = th.left := by
  unfold Thread.setGreg; repeat (first | rfl | split)
@[simp] theorem Thread.setGreg_priv (th : Thread) (n : Nat) (r : Reg 64) : (th.setGreg n r).priv = th.priv := by
  unfold Thread.setGreg; repeat (first | rfl | split)
@[simp] theorem Thread.setGreg_pc (th : Thread) (n : Nat) (r : Reg 64) : (th.setGreg n r).pc = th.pc := by
  unfold Thread.setGreg; repeat (first | rfl | split)
@[simp] theorem Thread.setGreg_v (th : Thread) (n : Nat) (r : Reg 64) : (th.setGreg n r).v = th.v := by
  unfold Thread.setGreg; repeat (first | rfl | split)
@[simp] theorem Thread.setGreg_p (th : Thread) (n : Nat) (r : Reg 64) : (th.setGreg n r).p = th.p := by
  unfold Thread.setGreg; repeat (first | rfl | split)
@[simp] theorem Thread.setGreg_fpsr (th : Thread) (n : Nat) (r : Reg 64) : (th.setGreg n r).fpsr = th.fpsr := by
  unfold Thread.setGreg; repeat (first | rfl | split)
@[simp] theorem Thread.setGreg_evpend (th : Thread) (n : Nat) (r : Reg 64) : (th.setGreg n r).evpend = th.evpend := by
  unfold Thread.setGreg; repeat (first | rfl | split)
@[simp] theorem Thread.setGreg_vslip (th : Thread) (n : Nat) (r : Reg 64) : (th.setGreg n r).vslip = th.vslip := by
  unfold Thread.setGreg; repeat (first | rfl | split)
@[simp] theorem Thread.setGreg_lslip (th : Thread) (n : Nat) (r : Reg 64) : (th.setGreg n r).lslip = th.lslip := by
  unfold Thread.setGreg; repeat (first | rfl | split)
@[simp] theorem Thread.setGreg_spbase (th : Thread) (n : Nat) (r : Reg 64) : (th.setGreg n r).spbase = th.spbase := by
  unfold Thread.setGreg; repeat (first | rfl | split)
@[simp] theorem Thread.setGreg_spsize (th : Thread) (n : Nat) (r : Reg 64) : (th.setGreg n r).spsize = th.spsize := by
  unfold Thread.setGreg; repeat (first | rfl | split)
@[simp] theorem Thread.setGreg_ovfp (th : Thread) (n : Nat) (r : Reg 64) : (th.setGreg n r).ovfp = th.ovfp := by
  unfold Thread.setGreg; repeat (first | rfl | split)
@[simp] theorem Thread.setGreg_next (th : Thread) (n : Nat) (r : Reg 64) : (th.setGreg n r).next = th.next := by
  unfold Thread.setGreg; repeat (first | rfl | split)
@[simp] theorem Thread.setGreg_since (th : Thread) (n : Nat) (r : Reg 64) : (th.setGreg n r).since = th.since := by
  unfold Thread.setGreg; repeat (first | rfl | split)
@[simp] theorem Thread.setGreg_block (th : Thread) (n : Nat) (r : Reg 64) : (th.setGreg n r).block = th.block := by
  unfold Thread.setGreg; repeat (first | rfl | split)
@[simp] theorem Thread.setGreg_wskip (th : Thread) (n : Nat) (r : Reg 64) : (th.setGreg n r).wskip = th.wskip := by
  unfold Thread.setGreg; repeat (first | rfl | split)
@[simp] theorem Thread.setGreg_slot (th : Thread) (n : Nat) (r : Reg 64) : (th.setGreg n r).slot = th.slot := by
  unfold Thread.setGreg; repeat (first | rfl | split)
@[simp] theorem Thread.setGreg_outs (th : Thread) (n : Nat) (r : Reg 64) : (th.setGreg n r).outs = th.outs := by
  unfold Thread.setGreg; repeat (first | rfl | split)
@[simp] theorem Thread.setGreg_serial (th : Thread) (n : Nat) (r : Reg 64) : (th.setGreg n r).serial = th.serial := by
  unfold Thread.setGreg; repeat (first | rfl | split)
@[simp] theorem Thread.setGreg_acqAt (th : Thread) (n : Nat) (r : Reg 64) : (th.setGreg n r).acqAt = th.acqAt := by
  unfold Thread.setGreg; repeat (first | rfl | split)
@[simp] theorem Thread.setGreg_relAt (th : Thread) (n : Nat) (r : Reg 64) : (th.setGreg n r).relAt = th.relAt := by
  unfold Thread.setGreg; repeat (first | rfl | split)
@[simp] theorem Thread.setGreg_refusals (th : Thread) (n : Nat) (r : Reg 64) : (th.setGreg n r).refusals = th.refusals := by
  unfold Thread.setGreg; repeat (first | rfl | split)
@[simp] theorem Thread.setGreg_refLost (th : Thread) (n : Nat) (r : Reg 64) : (th.setGreg n r).refLost = th.refLost := by
  unfold Thread.setGreg; repeat (first | rfl | split)
@[simp] theorem Thread.setGreg_trellis (th : Thread) (n : Nat) (r : Reg 64) : (th.setGreg n r).trellis = th.trellis := by
  unfold Thread.setGreg; repeat (first | rfl | split)
@[simp] theorem Thread.setGreg_stale (th : Thread) (n : Nat) (r : Reg 64) : (th.setGreg n r).stale = th.stale := by
  unfold Thread.setGreg; repeat (first | rfl | split)
@[simp] theorem Thread.setGreg_retired (th : Thread) (n : Nat) (r : Reg 64) : (th.setGreg n r).retired = th.retired := by
  unfold Thread.setGreg; repeat (first | rfl | split)
@[simp] theorem Thread.setGreg_tag (th : Thread) (n : Nat) (r : Reg 64) : (th.setGreg n r).tag = th.tag := by
  unfold Thread.setGreg; repeat (first | rfl | split)
@[simp] theorem Thread.setGreg_imaged (th : Thread) (n : Nat) (r : Reg 64) : (th.setGreg n r).imaged = th.imaged := by
  unfold Thread.setGreg; repeat (first | rfl | split)
@[simp] theorem Thread.setGreg_timer (th : Thread) (n : Nat) (r : Reg 64) : (th.setGreg n r).timer = th.timer := by
  unfold Thread.setGreg; repeat (first | rfl | split)
@[simp] theorem Thread.setGreg_owed (th : Thread) (n : Nat) (r : Reg 64) : (th.setGreg n r).owed = th.owed := by
  unfold Thread.setGreg; repeat (first | rfl | split)
@[simp] theorem Thread.setGreg_work (th : Thread) (n : Nat) (r : Reg 64) : (th.setGreg n r).work = th.work := by
  unfold Thread.setGreg; repeat (first | rfl | split)
@[simp] theorem Thread.setGreg_stepDue (th : Thread) (n : Nat) (r : Reg 64) : (th.setGreg n r).stepDue = th.stepDue := by
  unfold Thread.setGreg; repeat (first | rfl | split)
@[simp] theorem Thread.setVreg_st (th : Thread) (n : Nat) (r : Reg 512) : (th.setVreg n r).st = th.st := rfl
@[simp] theorem Thread.setVreg_left (th : Thread) (n : Nat) (r : Reg 512) : (th.setVreg n r).left = th.left := rfl
@[simp] theorem Thread.setVreg_priv (th : Thread) (n : Nat) (r : Reg 512) : (th.setVreg n r).priv = th.priv := rfl
@[simp] theorem Thread.setVreg_pc (th : Thread) (n : Nat) (r : Reg 512) : (th.setVreg n r).pc = th.pc := rfl
@[simp] theorem Thread.setVreg_g (th : Thread) (n : Nat) (r : Reg 512) : (th.setVreg n r).g = th.g := rfl
@[simp] theorem Thread.setVreg_hg (th : Thread) (n : Nat) (r : Reg 512) : (th.setVreg n r).hg = th.hg := rfl
@[simp] theorem Thread.setVreg_p (th : Thread) (n : Nat) (r : Reg 512) : (th.setVreg n r).p = th.p := rfl
@[simp] theorem Thread.setVreg_fpsr (th : Thread) (n : Nat) (r : Reg 512) : (th.setVreg n r).fpsr = th.fpsr := rfl
@[simp] theorem Thread.setVreg_evpend (th : Thread) (n : Nat) (r : Reg 512) : (th.setVreg n r).evpend = th.evpend := rfl
@[simp] theorem Thread.setVreg_vslip (th : Thread) (n : Nat) (r : Reg 512) : (th.setVreg n r).vslip = th.vslip := rfl
@[simp] theorem Thread.setVreg_lslip (th : Thread) (n : Nat) (r : Reg 512) : (th.setVreg n r).lslip = th.lslip := rfl
@[simp] theorem Thread.setVreg_spbase (th : Thread) (n : Nat) (r : Reg 512) : (th.setVreg n r).spbase = th.spbase := rfl
@[simp] theorem Thread.setVreg_spsize (th : Thread) (n : Nat) (r : Reg 512) : (th.setVreg n r).spsize = th.spsize := rfl
@[simp] theorem Thread.setVreg_ovfp (th : Thread) (n : Nat) (r : Reg 512) : (th.setVreg n r).ovfp = th.ovfp := rfl
@[simp] theorem Thread.setVreg_next (th : Thread) (n : Nat) (r : Reg 512) : (th.setVreg n r).next = th.next := rfl
@[simp] theorem Thread.setVreg_since (th : Thread) (n : Nat) (r : Reg 512) : (th.setVreg n r).since = th.since := rfl
@[simp] theorem Thread.setVreg_block (th : Thread) (n : Nat) (r : Reg 512) : (th.setVreg n r).block = th.block := rfl
@[simp] theorem Thread.setVreg_wskip (th : Thread) (n : Nat) (r : Reg 512) : (th.setVreg n r).wskip = th.wskip := rfl
@[simp] theorem Thread.setVreg_slot (th : Thread) (n : Nat) (r : Reg 512) : (th.setVreg n r).slot = th.slot := rfl
@[simp] theorem Thread.setVreg_outs (th : Thread) (n : Nat) (r : Reg 512) : (th.setVreg n r).outs = th.outs := rfl
@[simp] theorem Thread.setVreg_serial (th : Thread) (n : Nat) (r : Reg 512) : (th.setVreg n r).serial = th.serial := rfl
@[simp] theorem Thread.setVreg_acqAt (th : Thread) (n : Nat) (r : Reg 512) : (th.setVreg n r).acqAt = th.acqAt := rfl
@[simp] theorem Thread.setVreg_relAt (th : Thread) (n : Nat) (r : Reg 512) : (th.setVreg n r).relAt = th.relAt := rfl
@[simp] theorem Thread.setVreg_refusals (th : Thread) (n : Nat) (r : Reg 512) : (th.setVreg n r).refusals = th.refusals := rfl
@[simp] theorem Thread.setVreg_refLost (th : Thread) (n : Nat) (r : Reg 512) : (th.setVreg n r).refLost = th.refLost := rfl
@[simp] theorem Thread.setVreg_trellis (th : Thread) (n : Nat) (r : Reg 512) : (th.setVreg n r).trellis = th.trellis := rfl
@[simp] theorem Thread.setVreg_stale (th : Thread) (n : Nat) (r : Reg 512) : (th.setVreg n r).stale = th.stale := rfl
@[simp] theorem Thread.setVreg_retired (th : Thread) (n : Nat) (r : Reg 512) : (th.setVreg n r).retired = th.retired := rfl
@[simp] theorem Thread.setVreg_tag (th : Thread) (n : Nat) (r : Reg 512) : (th.setVreg n r).tag = th.tag := rfl
@[simp] theorem Thread.setVreg_imaged (th : Thread) (n : Nat) (r : Reg 512) : (th.setVreg n r).imaged = th.imaged := rfl
@[simp] theorem Thread.setVreg_timer (th : Thread) (n : Nat) (r : Reg 512) : (th.setVreg n r).timer = th.timer := rfl
@[simp] theorem Thread.setVreg_owed (th : Thread) (n : Nat) (r : Reg 512) : (th.setVreg n r).owed = th.owed := rfl
@[simp] theorem Thread.setVreg_work (th : Thread) (n : Nat) (r : Reg 512) : (th.setVreg n r).work = th.work := rfl
@[simp] theorem Thread.setVreg_stepDue (th : Thread) (n : Nat) (r : Reg 512) : (th.setVreg n r).stepDue = th.stepDue := rfl

end Sys2Proof.Machine
end

