-- ==== Sys2Proof/Laws/Thread.lean ====
section
/-! SUPPORT. Cores, threads and registers read back after an update, and the composition of updates of the running thread. -/

namespace Sys2Proof.Machine

variable (s : State)

/-! ### Cores -/

/-- A core read back after one is replaced. -/
theorem State.coreAt_setCore (c n : Nat) (k : Core) :
    (s.setCore c k).coreAt n = if n = c ∧ c < 256 then k else s.coreAt n := by
  unfold State.coreAt State.setCore
  by_cases h : n = c
  · subst h
    by_cases hc : n < 256 <;> simp [hc]
  · have h' : ¬ c = n := fun e => h e.symm
    simp [h, h']

/-- The core that was changed. -/
theorem State.coreAt_modCore_self {c : Nat} (h : c < 256) (f : Core → Core) : (s.modCore c f).coreAt c = f (s.coreAt c) := by
  unfold State.modCore; rw [State.coreAt_setCore]; simp [h]

/-- A core other than the one changed. -/
theorem State.coreAt_modCore_ne {c n : Nat} (h : n ≠ c) (f : Core → Core) : (s.modCore c f).coreAt n = s.coreAt n := by
  unfold State.modCore; rw [State.coreAt_setCore]; simp [h]

/-- A change of a core that does not exist changes nothing. -/
theorem State.modCore_out {c : Nat} (h : 256 ≤ c) (f : Core → Core) : s.modCore c f = s := by
  unfold State.modCore State.setCore
  rw [Vector.setIfInBounds_eq_of_size_le h]

/-- Two changes of one core. -/
theorem State.modCore_modCore (c : Nat) (f g : Core → Core) : (s.modCore c f).modCore c g = s.modCore c (g ∘ f) := by
  by_cases h : c < 256
  · conv => lhs; unfold State.modCore
    rw [show (s.setCore c (f (s.coreAt c))).coreAt c = f (s.coreAt c) from s.coreAt_modCore_self h f]
    simp [State.modCore, State.setCore]
  · rw [s.modCore_out (by omega), s.modCore_out (by omega), s.modCore_out (by omega)]

/-- A change of a core that leaves it as it is. -/
theorem State.modCore_id (c : Nat) (f : Core → Core) (h : f (s.coreAt c) = s.coreAt c) : s.modCore c f = s := by
  unfold State.modCore State.setCore
  rw [h]
  have : s.cores.setIfInBounds c (s.coreAt c) = s.cores := by
    ext i hi
    by_cases he : c = i
    · subst he; simp [State.coreAt, hi]
    · simp [he]
  rw [this]

@[simp] theorem State.coreAt_post (due : Nat) (i : Instr) (n : Nat) : (s.post due i).coreAt n = s.coreAt n := rfl
@[simp] theorem State.coreAt_tickFree (n : Nat) : s.tickFree.coreAt n = s.coreAt n := rfl
@[simp] theorem State.coreAt_postOnce (due : Nat) (i : Instr) (n : Nat) : (s.postOnce due i).coreAt n = s.coreAt n := by
  unfold State.postOnce; split <;> rfl
@[simp] theorem State.coreAt_modCtx (id : Nat) (f : Ctx → Ctx) (n : Nat) : (s.modCtx id f).coreAt n = s.coreAt n := rfl
@[simp] theorem State.coreAt_modPart (p : Nat) (f : Partition → Partition) (n : Nat) : (s.modPart p f).coreAt n = s.coreAt n := rfl

/-! ### Threads -/

/-- A thread read back after one is replaced. -/
theorem Core.thr_setThr (k : Core) (t n : Nat) (th : Thread) :
    (k.setThr t th).thr n = if n = t ∧ t < 4 then th else k.thr n := by
  unfold Core.thr Core.setThr
  by_cases h : n = t
  · subst h
    by_cases hc : n < 4 <;> simp [hc]
  · have h' : ¬ t = n := fun e => h e.symm
    simp [h, h']

/-- A thread replaced twice. -/
theorem Core.setThr_setThr (k : Core) (t : Nat) (a b : Thread) : (k.setThr t a).setThr t b = k.setThr t b := by
  unfold Core.setThr; simp

/-- The thread that was changed. -/
theorem State.thrAt_modThr_self {c t : Nat} (hc : c < 256) (ht : t < 4) (f : Thread → Thread) :
    (s.modThr c t f).thrAt c t = f (s.thrAt c t) := by
  unfold State.thrAt State.modThr
  rw [State.coreAt_modCore_self s hc, Core.thr_setThr]; simp [ht]

/-- A thread other than the one changed. -/
theorem State.thrAt_modThr_ne {c t n m : Nat} (h : ¬ (n = c ∧ m = t)) (f : Thread → Thread) :
    (s.modThr c t f).thrAt n m = s.thrAt n m := by
  unfold State.thrAt State.modThr
  by_cases hn : n = c
  · subst hn
    by_cases hc : n < 256
    · rw [State.coreAt_modCore_self s hc, Core.thr_setThr]
      simp only [true_and] at h
      simp [h]
    · rw [s.modCore_out (by omega)]
  · rw [State.coreAt_modCore_ne s hn]

/-- Two changes of one thread. -/
theorem State.modThr_modThr {c t : Nat} (ht : t < 4) (f g : Thread → Thread) :
    (s.modThr c t f).modThr c t g = s.modThr c t (g ∘ f) := by
  unfold State.modThr
  rw [State.modCore_modCore]
  congr 1
  funext k
  simp [Function.comp, Core.thr_setThr, ht, Core.setThr_setThr]

/-! ### The running thread -/

theorem State.cc_lt : s.cc < 256 := s.cur.1.isLt
theorem State.ct_lt : s.ct < 4 := s.cur.2.isLt

@[simp] theorem State.cc_modTh (f : Thread → Thread) : (s.modTh f).cc = s.cc := rfl
@[simp] theorem State.ct_modTh (f : Thread → Thread) : (s.modTh f).ct = s.ct := rfl
@[simp] theorem State.cc_modMe (f : Core → Core) : (s.modMe f).cc = s.cc := rfl
@[simp] theorem State.ct_modMe (f : Core → Core) : (s.modMe f).ct = s.ct := rfl
@[simp] theorem State.cc_post (due : Nat) (i : Instr) : (s.post due i).cc = s.cc := rfl
@[simp] theorem State.ct_post (due : Nat) (i : Instr) : (s.post due i).ct = s.ct := rfl
@[simp] theorem State.cc_tickFree : s.tickFree.cc = s.cc := rfl
@[simp] theorem State.ct_tickFree : s.tickFree.ct = s.ct := rfl
@[simp] theorem State.cc_postOnce (due : Nat) (i : Instr) : (s.postOnce due i).cc = s.cc := by unfold State.cc; simp
@[simp] theorem State.ct_postOnce (due : Nat) (i : Instr) : (s.postOnce due i).ct = s.ct := by unfold State.ct; simp
@[simp] theorem State.me_post (due : Nat) (i : Instr) : (s.post due i).me = s.me := rfl
@[simp] theorem State.th_post (due : Nat) (i : Instr) : (s.post due i).th = s.th := rfl
@[simp] theorem State.me_tickFree : s.tickFree.me = s.me := rfl
@[simp] theorem State.th_tickFree : s.tickFree.th = s.th := rfl
@[simp] theorem State.me_postOnce (due : Nat) (i : Instr) : (s.postOnce due i).me = s.me := by unfold State.me; simp
@[simp] theorem State.th_postOnce (due : Nat) (i : Instr) : (s.postOnce due i).th = s.th := by unfold State.th State.thrAt; simp

/-- The running thread after it is changed. -/
@[simp] theorem State.th_modTh (f : Thread → Thread) : (s.modTh f).th = f s.th :=
  s.thrAt_modThr_self s.cc_lt s.ct_lt f

/-- The running core after it is changed. -/
@[simp] theorem State.me_modMe (f : Core → Core) : (s.modMe f).me = f s.me := s.coreAt_modCore_self s.cc_lt f

/-- The running core after its thread is changed. -/
@[simp] theorem State.me_modTh (f : Thread → Thread) : (s.modTh f).me = s.me.setThr s.ct (f s.th) :=
  s.coreAt_modCore_self s.cc_lt _

/-- The running thread after its core is changed. -/
@[simp] theorem State.th_modMe (f : Core → Core) : (s.modMe f).th = (f s.me).thr s.ct := by
  show ((s.modMe f).me).thr s.ct = _
  rw [State.me_modMe]

/-- Two changes of the running thread. -/
theorem State.modTh_modTh (f g : Thread → Thread) : (s.modTh f).modTh g = s.modTh (g ∘ f) :=
  s.modThr_modThr s.ct_lt f g

/-- Two changes of the running core. -/
theorem State.modMe_modMe (f g : Core → Core) : (s.modMe f).modMe g = s.modMe (g ∘ f) := s.modCore_modCore s.cc f g

/-- A change of the running thread is a change of the running core. -/
theorem State.modTh_eq_modMe (f : Thread → Thread) : s.modTh f = s.modMe fun k => k.setThr s.ct (f (k.thr s.ct)) := rfl

/-- A core other than the running one after a change of the running thread. -/
theorem State.coreAt_modTh_ne {n : Nat} (h : n ≠ s.cc) (f : Thread → Thread) : (s.modTh f).coreAt n = s.coreAt n :=
  s.coreAt_modCore_ne h _

/-! ### Registers -/

/-- g0 reads zero, full and ready (R48). -/
@[simp] theorem Thread.greg_zero (th : Thread) : th.greg 0 = Reg.of 0 := rfl

/-- g0 discards a write (R48). -/
@[simp] theorem Thread.setGreg_zero (th : Thread) (r : Reg 64) : th.setGreg 0 r = th := rfl

/-- The register written reads as written. -/
theorem Thread.greg_setGreg_self (th : Thread) {n : Nat} (h0 : n ≠ 0) (h : n < 32) (r : Reg 64) : (th.setGreg n r).greg n = r := by
  unfold Thread.greg
  rw [if_neg h0, Thread.setGreg_priv]
  unfold Thread.setGreg
  rw [if_neg h0]
  by_cases hp : (th.priv && decide (n ≤ 8)) = true
  · simp only [hp, ↓reduceIte]
    have : n - 1 < 8 := by simp at hp; omega
    simp [this]
  · simp only [hp]
    simp [h]

/-- Every other register reads as before. -/
theorem Thread.greg_setGreg_ne (th : Thread) {n m : Nat} (h : m ≠ n) (r : Reg 64) : (th.setGreg n r).greg m = th.greg m := by
  unfold Thread.greg
  by_cases hm : m = 0
  · simp [hm]
  by_cases hn : n = 0
  · simp [hn]
  rw [if_neg hm, if_neg hm, Thread.setGreg_priv]
  unfold Thread.setGreg
  rw [if_neg hn]
  have hnm : ¬ n = m := fun e => h e.symm
  by_cases hp : (th.priv && decide (n ≤ 8)) = true
  · simp only [hp, ↓reduceIte]
    split
    · have : ¬ n - 1 = m - 1 := by omega
      simp [this]
    · rfl
  · simp only [hp]
    split
    · simp
    · simp [hnm]

/-- A vector register read back after one is written. -/
theorem Thread.vreg_setVreg (th : Thread) (n m : Nat) (r : Reg 512) :
    (th.setVreg n r).vreg m = if m = n ∧ n < 32 then r else th.vreg m := by
  unfold Thread.vreg Thread.setVreg
  by_cases h : m = n
  · subst h
    by_cases hc : m < 32 <;> simp [hc]
  · have h' : ¬ n = m := fun e => h e.symm
    simp [h, h']

end Sys2Proof.Machine
end

