-- ==== Sys2Proof/Laws/Body.lean ====
section
/-! SUPPORT. What running an instruction's body does: the operand check of usable operands, predication, the shapes of the
scalar and vector instructions, completion, waiting and trapping. -/

namespace Sys2Proof.Machine

variable {s : State}

/-! ### The operand check -/

/-- A usable general register, as the check sees it. -/
theorem opG_ready {n : GReg} (h : s.gReady n) (e : Bool) :
    ∀ r ∈ (s.me.thr s.ct).opG n.toNat e, r.st = .full ∧ r.ready ≤ s.cycle := by
  unfold Thread.opG
  split
  · simp
  · intro r hr
    obtain rfl := List.mem_singleton.mp hr
    exact h

/-- A usable vector group, as the check sees it. -/
theorem opV_ready {n : VReg} {c : Nat} (h : s.vReady n c) :
    ∀ r ∈ s.me.opV s.ct n.toNat c, r.st = .full ∧ r.ready ≤ s.cycle := by
  intro r hr
  simp only [Core.opV, List.mem_filterMap, List.mem_map, List.mem_range] at hr
  obtain ⟨m, ⟨i, hi, rfl⟩, hm⟩ := hr
  obtain ⟨ha, hf, hc⟩ := h i hi
  rw [if_neg (by simp [ha])] at hm
  obtain rfl := Option.some.inj hm
  exact ⟨hf, hc⟩

/-- The registers of a usable operand are full and readable. -/
theorem Use.regs_ready {u : Use} (h : u.readyIn s) : ∀ r ∈ u.regs s.me s.ct, r.st = .full ∧ r.ready ≤ s.cycle := by
  cases u with
  | rg n e => exact opG_ready h e
  | wg n => exact opG_ready h false
  | rv n c => exact opV_ready h
  | wv n c => exact opV_ready h

/-- No stream is bound to a usable operand. -/
theorem streamUses_usable {us : List Use} (h : s.usable us) : s.streamUses us = [] := by
  have : (us.flatMap fun u => match u with
    | .rv n c => ((List.range c).map (n.toNat + ·)).filterMap fun m => (s.me.aliasOf s.ct m).map fun p => (false, p)
    | .wv n c => ((List.range c).map (n.toNat + ·)).filterMap fun m => (s.me.aliasOf s.ct m).map fun p => (true, p)
    | _ => []) = ([] : List (Bool × Nat × Stream)) := by
    rw [List.flatMap_eq_nil_iff]
    intro u hu
    cases u with
    | rg n e => rfl
    | wg n => rfl
    | rv n c =>
      simp only [List.filterMap_eq_nil_iff, List.mem_map, List.mem_range]
      rintro m ⟨i, hi, rfl⟩
      simp [(h _ hu i hi).1]
    | wv n c =>
      simp only [List.filterMap_eq_nil_iff, List.mem_map, List.mem_range]
      rintro m ⟨i, hi, rfl⟩
      simp [(h _ hu i hi).1]
  unfold State.streamUses
  have h2 : ∀ l : List (Bool × Nat × Stream), l = [] → l.eraseDups = [] := by intro l hl; subst hl; simp
  apply h2
  exact this

/-- A fold of maxima stays below a bound. -/
theorem foldl_max_le {α : Type} (f : α → Nat) (b : Nat) : ∀ (l : List α) (m : Nat), m ≤ b → (∀ x ∈ l, f x ≤ b) →
    l.foldl (fun m x => max m (f x)) m ≤ b
  | [], _, hm, _ => hm
  | x :: l, m, hm, h => by
    refine foldl_max_le f b l _ ?_ fun y hy => h y (List.mem_cons_of_mem _ hy)
    exact Nat.max_le.mpr ⟨hm, h x List.mem_cons_self⟩

/-- Usable operands stop nothing. -/
theorem operandStop_usable {us : List Use} (h : s.usable us) : s.operandStop us = none := by
  have hr : ∀ r ∈ us.flatMap (·.regs s.me s.ct), r.st = RegSt.full ∧ r.ready ≤ s.cycle := by
    intro r hr
    obtain ⟨u, hu, hru⟩ := List.mem_flatMap.mp hr
    exact Use.regs_ready (h u hu) r hru
  unfold State.operandStop
  have h1 : (us.flatMap (·.regs s.me s.ct)).foldl (fun m r => max m r.ready) 0 ≤ s.cycle :=
    foldl_max_le _ _ _ _ (Nat.zero_le _) fun r hr' => (hr r hr').2
  have h2 : (us.flatMap (·.regs s.me s.ct)).findSome? OpReg.wnack = none := by
    rw [List.findSome?_eq_none_iff]
    intro r hr'; unfold OpReg.wnack; rw [(hr r hr').1]
  have h3 : ((us.flatMap (·.regs s.me s.ct)).any fun r => r.trapEmpty && r.st == .empty) = false := by
    rw [List.any_eq_false]
    intro r hr'; rw [(hr r hr').1]; simp
  have h4 : (us.flatMap (·.regs s.me s.ct)).find? (·.st == .empty) = none := by
    rw [List.find?_eq_none]
    intro r hr'; rw [(hr r hr').1]; simp
  rw [if_neg (by omega), h2, h3, h4, streamUses_usable h]
  simp

/-- The operand check of usable operands answers the state as it is. -/
theorem operands_usable {us : List Use} (h : s.usable us) : operands us s = .ok (s, s) := by
  unfold operands
  have ht : s.takeStreams us = s := by unfold State.takeStreams; rw [streamUses_usable h]; rfl
  simp only [bind, StateT.bind, get, getThe, MonadStateOf.get, StateT.get, pure, Except.pure, Except.bind]
  rw [operandStop_usable h]
  simp [orStop, set, StateT.set, pure, StateT.pure, Except.pure, ht]

/-- The operand check of usable operands of an open-only instruction outside booked mode. -/
theorem operandsOpenOnly_usable {us : List Use} (h : s.usable us) (ho : s.th.st ≠ .booked) :
    operandsOpenOnly us s = .ok (s, s) := by
  unfold operandsOpenOnly
  have hb : (s.th.st == ThreadSt.booked) = false := by simpa using ho
  simp only [bind, StateT.bind, get, getThe, MonadStateOf.get, StateT.get, pure, Except.pure, Except.bind, hb]
  simpa [StateT.pure, pure, Except.pure, bind, StateT.bind, Except.bind] using operands_usable h

theorem usable_nil : s.usable [] := by intro u hu; simp at hu

/-- Operands can be used where the first can and the others can. -/
theorem usable_cons {u : Use} {us : List Use} : s.usable (u :: us) ↔ u.readyIn s ∧ s.usable us := by
  unfold State.usable; simp

theorem usable_append {us vs : List Use} : s.usable (us ++ vs) ↔ s.usable us ∧ s.usable vs := by
  unfold State.usable
  constructor
  · intro h; exact ⟨fun u hu => h u (by simp [hu]), fun u hu => h u (by simp [hu])⟩
  · rintro ⟨h1, h2⟩ u hu
    rcases List.mem_append.mp hu with h | h
    · exact h1 u h
    · exact h2 u h

/-! ### Running a body -/

/-- A body that completes retires. -/
theorem runThread_done {body : Act Done} {d : Done} {s' : State} (h : body s = .ok (d, s')) (hh : d.held = false) :
    runThread body s = .next (retire d s') := by
  unfold runThread StateT.run; rw [h]; simp [hh]

/-- A body that an event will complete stays. -/
theorem runThread_held {body : Act Done} {d : Done} {s' : State} (h : body s = .ok (d, s')) (hh : d.held = true) :
    runThread body s = .next (s'.modTh fun th => { th with next := s.cycle + d.cost }) := by
  unfold runThread StateT.run; rw [h]; simp [hh]

/-- A body that raises an exception takes it, with no other change of state (R14). -/
theorem runThread_trap {body : Act Done} {e : Exc} (h : body s = .error (.trap e)) :
    runThread body s = .next (takeTrap e s) := by
  unfold runThread StateT.run; rw [h]

/-- A body that waits. -/
theorem runThread_wait {body : Act Done} {c : Nat} (h : body s = .error (.wait c)) :
    runThread body s = .next (waiting c s) := by
  unfold runThread StateT.run; rw [h]

/-- Every instruction of a thread answers a next state: complete, waiting or trapped. -/
theorem runThread_next (body : Act Done) (s : State) : ∃ t, runThread body s = .next t := by
  unfold runThread
  split <;> exact ⟨_, rfl⟩

/-- Whether a thread is stepped does not depend on its own fields but for its privilege. -/
theorem steps_modTh (f : Thread → Thread) (h : (f s.th).priv = s.th.priv) :
    (s.modTh f).steps s.cc s.ct = s.steps s.cc s.ct := by
  unfold State.steps
  have h1 : (s.modTh f).coreAt s.cc = s.me.setThr s.ct (f s.th) := s.me_modTh f
  have h2 : (s.modTh f).thrAt s.cc s.ct = f s.th := s.th_modTh f
  rw [h1, h2, h]
  rfl

/-- A retired instruction goes on at its next PC. -/
theorem retire_eq (d : Done) (s : State) : retire d s = s.goesOn (d.pc.getD (s.th.pc + 1)) d.cost id := rfl

/-- A completion after a change of the running thread alone. -/
theorem goesOn_modTh (pc : BitVec 14) (cost : Nat) (f g : Thread → Thread) (hp : (f s.th).priv = s.th.priv) :
    (s.modTh f).goesOn pc cost g = s.goesOn pc cost (g ∘ f) := by
  unfold State.goesOn
  rw [State.cc_modTh, State.ct_modTh, steps_modTh f hp, State.modTh_modTh]
  rfl

/-- An instruction that changed the running thread, but neither its PC nor its privilege, completes at the next word. -/
theorem retire_modTh (cost : Nat) (f : Thread → Thread) (hp : (f s.th).priv = s.th.priv)
    (hpc : (f s.th).pc = s.th.pc) : retire ⟨cost, none, false⟩ (s.modTh f) = s.completes cost f := by
  rw [retire_eq, goesOn_modTh _ _ _ _ hp, State.th_modTh]
  show s.goesOn ((f s.th).pc + 1) cost (id ∘ f) = _
  rw [hpc]
  rfl

/-! ### Predication (R60, R61) -/

/-- With its predicate true the body runs. -/
theorem predicated_on {q : Pred} {body : Act Done} (h : s.th.pred q = true) : predicated q body s = body s := by
  unfold predicated
  simp only [bind, StateT.bind, get, getThe, MonadStateOf.get, StateT.get, pure, Except.pure, Except.bind, h, ↓reduceIte]

/-- A predicated-off instruction completes after one cycle and does nothing (R61). -/
theorem predicated_off {q : Pred} {body : Act Done} (h : s.th.pred q = false) :
    predicated q body s = .ok (⟨1, none, false⟩, s) := by
  unfold predicated
  simp only [bind, StateT.bind, get, getThe, MonadStateOf.get, StateT.get, pure, Except.pure, Except.bind, h]
  rfl

/-! ### The shapes of instructions -/

/-- An instruction of the scalar shape whose operands can be used writes its destination and completes. -/
theorem scalarOp_usable {us : List Use} {d : GReg} {f : State → Word} {lat cost : Nat} (h : s.usable (us ++ [.wg d])) :
    scalarOp us d f lat cost s = .ok (⟨cost, none, false⟩, s.writeG d (f s) lat) := by
  unfold scalarOp
  simp only [bind, StateT.bind, operands_usable h, Except.bind]
  rfl

/-- WriteG then completion. -/
theorem retire_writeG (d : GReg) (x : Word) (lat cost : Nat) :
    retire ⟨cost, none, false⟩ (s.writeG d x lat) =
      s.completes cost fun th => th.setGreg d.toNat ⟨x, .full, s.cycle + lat⟩ :=
  retire_modTh cost _ (Thread.setGreg_priv ..) (Thread.setGreg_pc ..)

/-- The scalar shape, run. -/
theorem run_scalarOp {us : List Use} {d : GReg} {f : State → Word} {lat cost : Nat} (h : s.usable (us ++ [.wg d])) :
    runThread (scalarOp us d f lat cost) s =
      .next (s.completes cost fun th => th.setGreg d.toNat ⟨f s, .full, s.cycle + lat⟩) := by
  rw [runThread_done (scalarOp_usable h) rfl, retire_writeG d _ lat cost]

/-- The predicated two-source shape, run with its predicate true. -/
theorem run_alu2 {f : Word → Word → Word} {lat cost : Nat} {d a b : GReg} {ea eb : Bool} {q : Pred} (hq : s.th.pred q = true)
    (h : s.usable [.rg a ea, .rg b eb, .wg d]) : runThread (alu2 f lat cost d a b ea eb q) s =
      .next (s.completes cost fun th => th.setGreg d.toNat ⟨f (s.readG a) (s.readG b), .full, s.cycle + lat⟩) := by
  have := runThread_done (body := alu2 f lat cost d a b ea eb q) (s := s) (by rw [alu2, predicated_on hq]; exact scalarOp_usable h) rfl
  rw [this, retire_writeG d _ lat cost]

/-- The predicated one-source shape, run with its predicate true. -/
theorem run_alu1 {f : Word → Word} {d a : GReg} {ea : Bool} {q : Pred} (hq : s.th.pred q = true)
    (h : s.usable [.rg a ea, .wg d]) : runThread (alu1 f d a ea q) s =
      .next (s.completes 1 fun th => th.setGreg d.toNat ⟨f (s.readG a), .full, s.cycle + 1⟩) := by
  have := runThread_done (body := alu1 f d a ea q) (s := s) (by rw [alu1, predicated_on hq]; exact scalarOp_usable h) rfl
  rw [this, retire_writeG d _ 1 1]

end Sys2Proof.Machine
end

