-- ==== Sys2Proof/Laws/Memory.lean ====
section
/-! SUPPORT. Memory by bytes: every operation keeps the canonical form, a read after a write, and the bytes a write leaves
alone. -/

namespace Sys2Proof.Machine

/-! ### The canonical form -/

/-- A memory whose first listed address may be lower. -/
theorem memWfFrom_mono {lo lo' : Nat} (h : lo' ≤ lo) : ∀ {m : Memory}, memWfFrom lo m = true → memWfFrom lo' m = true
  | [], _ => rfl
  | (k, b) :: m, hm => by
    simp only [memWfFrom, Bool.and_eq_true, decide_eq_true_eq] at hm ⊢
    exact ⟨⟨by omega, hm.1.2⟩, hm.2⟩

/-- Below the first listed address every byte reads 0. -/
theorem memGet_below {lo x : Nat} (hx : x < lo) : ∀ {m : Memory}, memWfFrom lo m = true → memGet m x = 0
  | [], _ => rfl
  | (k, b) :: m, hm => by
    simp only [memWfFrom, Bool.and_eq_true, decide_eq_true_eq] at hm
    have : x < k := by omega
    simp [memGet, this]

/-- One byte written keeps the canonical form. -/
theorem memWfFrom_memSet {lo a : Nat} (ha : lo ≤ a) (b : Byte) :
    ∀ {m : Memory}, memWfFrom lo m = true → memWfFrom lo (memSet m a b) = true
  | [], _ => by
    by_cases h : b = 0#8 <;> simp [memSet, memWfFrom, h, ha]
  | (k, x) :: m, hm => by
    have hm' := hm
    simp only [memWfFrom, Bool.and_eq_true, decide_eq_true_eq] at hm'
    obtain ⟨⟨hk, hx⟩, hr⟩ := hm'
    unfold memSet
    split
    · next hlt =>
      split
      · exact hm
      · next hb => simp_all [memWfFrom, show a + 1 ≤ k by omega]
    · next hlt =>
      split
      · next he =>
        split
        · exact memWfFrom_mono (by omega) hr
        · next hb => subst he; simp_all [memWfFrom]
      · next hne =>
        have := memWfFrom_memSet (show k + 1 ≤ a by omega) b hr
        simp_all [memWfFrom]

/-- One byte written: the byte reads as written, every other as before. -/
theorem memGet_memSet {lo : Nat} (a x : Nat) (b : Byte) :
    ∀ {m : Memory}, memWfFrom lo m = true → memGet (memSet m a b) x = if x = a then b else memGet m x
  | [], _ => by
    by_cases h : b = 0#8 <;> by_cases hx : x = a <;> simp [memSet, memGet, h, hx]
  | (k, y) :: m, hm => by
    simp only [memWfFrom, Bool.and_eq_true, decide_eq_true_eq] at hm
    obtain ⟨⟨hk, hy⟩, hr⟩ := hm
    unfold memSet
    split
    · next hlt =>
      split
      · next hb =>
        by_cases hx : x = a
        · simp [memGet, hx, hlt, hb]
        · simp [hx]
      · next hb =>
        by_cases hx : x = a
        · simp [memGet, hx]
        · by_cases h1 : x < a
          · have : x < k := by omega
            simp [memGet, hx, h1, this]
          · simp [memGet, hx, h1]
    · next hlt =>
      split
      · next he =>
        subst he
        split
        · next hb =>
          by_cases hx : x = a
          · subst hx; simp [hb, memGet_below (Nat.lt_succ_self x) hr]
          · by_cases h1 : x < a
            · simp [memGet, hx, h1, memGet_below (show x < a + 1 by omega) hr]
            · simp [memGet, hx, h1]
        · by_cases hx : x = a
          · simp [memGet, hx]
          · simp [memGet, hx]
      · next hne =>
        by_cases h1 : x < k
        · have : x ≠ a := by omega
          simp [memGet, h1, this]
        · by_cases h2 : k = x
          · have : x ≠ a := by omega
            simp [memGet, h2, this]
          · have h3 : ¬ x = k := fun h => h2 h.symm
            simp [memGet, h1, h3, memGet_memSet a x b hr]

/-- n bytes written keep the canonical form. -/
theorem memWf_memSetN {m : Memory} (hm : m.wf = true) (a : Nat) : ∀ n x, (memSetN m a n x).wf = true
  | 0, _ => hm
  | n + 1, x => by
    induction n generalizing a x with
    | zero => exact memWfFrom_memSet (Nat.zero_le _) _ hm
    | succ n ih => exact memWfFrom_memSet (Nat.zero_le _) _ (ih (a + 1) (x / 256))

/-- A list of bytes written keeps the canonical form. -/
theorem memWf_memPut {m : Memory} (hm : m.wf = true) : ∀ (bs : List Byte) (a : Nat), (memPut m a bs).wf = true
  | [], _ => hm
  | _ :: bs, a => memWfFrom_memSet (Nat.zero_le _) _ (memWf_memPut hm bs (a + 1))

/-- One byte written keeps the canonical form of a whole memory. -/
theorem memWf_memSet {m : Memory} (hm : m.wf = true) (a : Nat) (b : Byte) : (memSet m a b).wf = true :=
  memWfFrom_memSet (Nat.zero_le _) b hm

/-! ### Reads after writes -/

theorem memSetN_succ (m : Memory) (a n x : Nat) :
    memSetN m a (n + 1) x = memSet (memSetN m (a + 1) n (x / 256)) a (BitVec.ofNat 8 x) := rfl

/-- Bytes outside those written read as before. -/
theorem memGet_memSetN_outside {m : Memory} (hm : m.wf = true) {y : Nat} :
    ∀ (n a x : Nat), (y < a ∨ a + n ≤ y) → memGet (memSetN m a n x) y = memGet m y
  | 0, _, _, _ => rfl
  | n + 1, a, x, h => by
    rw [memSetN_succ]
    rw [memGet_memSet (lo := 0) a y _ (memWf_memSetN hm (a + 1) n (x / 256)), if_neg (by omega)]
    exact memGet_memSetN_outside hm n (a + 1) (x / 256) (by omega)

/-- Each byte written reads as its part of the number (R8). -/
theorem memGet_memSetN_inside {m : Memory} (hm : m.wf = true) :
    ∀ (n a x i : Nat), i < n → memGet (memSetN m a n x) (a + i) = BitVec.ofNat 8 (x / 256 ^ i)
  | n + 1, a, x, 0, _ => by
    rw [memSetN_succ]
    rw [memGet_memSet (lo := 0) a _ _ (memWf_memSetN hm (a + 1) n (x / 256))]
    simp
  | n + 1, a, x, i + 1, h => by
    rw [memSetN_succ]
    rw [memGet_memSet (lo := 0) a _ _ (memWf_memSetN hm (a + 1) n (x / 256)), if_neg (by omega)]
    rw [show a + (i + 1) = a + 1 + i by omega, memGet_memSetN_inside hm n (a + 1) (x / 256) i (by omega), Nat.div_div_eq_div_mul,
      Nat.pow_succ']

/-- Bytes that agree one by one read as the same number. -/
theorem memGetN_congr {m m' : Memory} : ∀ (n a : Nat), (∀ i, i < n → memGet m (a + i) = memGet m' (a + i)) →
    memGetN m a n = memGetN m' a n
  | 0, _, _ => rfl
  | n + 1, a, h => by
    have h0 := h 0 (by omega)
    have ih := memGetN_congr n (a + 1) (fun i hi => by have := h (i + 1) (by omega); simpa [Nat.add_assoc, Nat.add_comm 1] using this)
    simp only [Nat.add_zero] at h0
    simp [memGetN, h0, ih]

/-- A read of the bytes just written gives the number's low bytes (R8). -/
theorem memGetN_memSetN {m : Memory} (hm : m.wf = true) : ∀ (n a x : Nat), memGetN (memSetN m a n x) a n = x % 256 ^ n
  | 0, _, x => by simp [memGetN, Nat.mod_one]
  | n + 1, a, x => by
    have h0 := memGet_memSetN_inside hm (n + 1) a x 0 (by omega)
    have ih := memGetN_memSetN hm n (a + 1) (x / 256)
    have hc : memGetN (memSetN m a (n + 1) x) (a + 1) n = memGetN (memSetN m (a + 1) n (x / 256)) (a + 1) n := by
      apply memGetN_congr
      intro i hi
      rw [memSetN_succ]
      rw [memGet_memSet (lo := 0) a _ _ (memWf_memSetN hm (a + 1) n (x / 256)), if_neg (by omega)]
    simp only [Nat.add_zero, Nat.pow_zero, Nat.div_one] at h0
    have h1 : x % 256 ^ (n + 1) = x % 256 + 256 * (x / 256 % 256 ^ n) := by
      rw [show 256 ^ (n + 1) = 256 * 256 ^ n from Nat.pow_succ', Nat.mod_mul]
    rw [memGetN, h0, hc, ih, BitVec.toNat_ofNat, h1]

/-- A number read from n bytes is below 256^n. -/
theorem memGetN_lt (m : Memory) : ∀ (n a : Nat), memGetN m a n < 256 ^ n
  | 0, _ => by simp [memGetN]
  | n + 1, a => by
    have ih := memGetN_lt m n (a + 1)
    have hb := (memGet m a).isLt
    rw [memGetN, Nat.pow_succ']
    omega

/-- A read of bytes that a write left alone. -/
theorem memGetN_memSetN_outside {m : Memory} (hm : m.wf = true) (n a x k b : Nat) (h : b + k ≤ a ∨ a + n ≤ b) :
    memGetN (memSetN m a n x) b k = memGetN m b k :=
  memGetN_congr k b fun i hi => memGet_memSetN_outside hm n a x (by omega)

/-! ### Equal memories are equal data -/

/-- Two memories in canonical form that read the same everywhere are the same list. -/
theorem memory_ext {lo : Nat} : ∀ {m m' : Memory}, memWfFrom lo m = true → memWfFrom lo m' = true →
    (∀ a, memGet m a = memGet m' a) → m = m'
  | [], [], _, _, _ => rfl
  | [], (k, b) :: m', _, hm', h => by
    simp only [memWfFrom, Bool.and_eq_true, bne_iff_ne, ne_eq] at hm'
    have := h k
    simp [memGet] at this
    exact absurd this.symm hm'.1.2
  | (k, b) :: m, [], hm, _, h => by
    simp only [memWfFrom, Bool.and_eq_true, bne_iff_ne, ne_eq] at hm
    have := h k
    simp [memGet] at this
    exact absurd this hm.1.2
  | (k, b) :: m, (k', b') :: m', hm, hm', h => by
    simp only [memWfFrom, Bool.and_eq_true, bne_iff_ne, ne_eq, decide_eq_true_eq] at hm hm'
    have hkk : k = k' := by
      rcases Nat.lt_trichotomy k k' with hl | he | hl
      · have := h k; simp [memGet, hl] at this; exact absurd this hm.1.2
      · exact he
      · have := h k'; simp [memGet, hl] at this; exact absurd this.symm hm'.1.2
    subst hkk
    have hb : b = b' := by have := h k; simpa [memGet] using this
    subst hb
    have ht : m = m' := by
      refine memory_ext hm.2 hm'.2 fun a => ?_
      by_cases hlt : a < k + 1
      · rw [memGet_below hlt hm.2, memGet_below hlt hm'.2]
      · have := h a
        simpa [memGet, show ¬ a < k by omega, show ¬ a = k by omega] using this
    rw [ht]

end Sys2Proof.Machine
end

