-- ==== Sys2Proof/Tests/Slice0.lean ====
section
/-! SUPPORT. Tests of the model: ill-formed instructions are refused; words written out from the encoding tables decode to their
instructions; worked examples of the spec; and, for every statement with hypotheses, states and operands that meet them. -/

set_option maxRecDepth 100000

namespace Sys2Proof.Tests

open Sys2Proof Sys2Proof.Machine

/-! ### Small states -/

/-- A page-table entry that points to a table, and a leaf entry. -/
def ptr (pa : Nat) : Nat := 2 ^ 63 + 3 * 2 ^ 61 + pa
def leafOf (tier vid pa : Nat) : Nat := 2 ^ 63 + tier * 2 ^ 61 + 3 * 2 ^ 57 + vid * 2 ^ 47 + pa

/-- Page tables: VA 0x10000 in the vault of core 0, 0x20000 off-stack, 0x30000 in the vault of core 1. -/
def tables : Memory :=
  [(0x10000, ptr 0x20000), (0x20000, ptr 0x21000), (0x21000, ptr 0x22000), (0x22008, leafOf 1 0 0x30000), (0x22010, leafOf 0 0 0x50000),
   (0x22018, leafOf 1 1 0x30000)].foldl (fun m e => memSetN m e.1 8 e.2) []

def ctx1 : Ctx := { Ctx.reset 1 with ptbase := 0x10000 }
def part0 : Partition := ⟨⟨0, 0, 1, 1⟩, [1], 7, [], 0, 0, 3, Vector.replicate 8 none, false, false, none⟩

/-- A thread that runs at word 5, with general registers given by number. -/
def thrOf (l : List (Nat × Nat)) : Thread :=
  l.foldl (fun th p => th.setGreg p.1 (Reg.of (BitVec.ofNat 64 p.2))) { Thread.reset with st := .run, pc := 5 }

/-- A core of context 1 whose thread 0 is the given one. -/
def coreOf (th : Thread) : Core := { Core.reset with ctx := 1, threads := Core.reset.threads.set 0 th }

/-- A device at cycle 1,000 with a partition of four cores, and a given core 0. -/
def dev (k : Core) : State :=
  { State.reset with cycle := 1000, ctxs := [ctx1], parts := State.reset.parts.set 0 (some part0), offstack := tables,
                     cores := State.reset.cores.set 0 k }

/-- A device whose thread 0 of core 0 runs with the given registers. -/
def run (l : List (Nat × Nat)) : State := dev (coreOf (thrOf l))

def always : Pred := ⟨0, false⟩

/-! ### What small states meet -/

theorem coreAt_dev (k : Core) : (dev k).coreAt 0 = k := by simp [dev, State.coreAt]

theorem coreAt_dev_ne (k : Core) {x : Nat} (h : x ≠ 0) : (dev k).coreAt x = Core.reset := by
  simp only [dev, State.coreAt, State.reset]
  rw [Vector.getElem?_set_ne _ h.symm]
  by_cases hx : x < 256 <;> simp [hx]

theorem onlyAt_dev {k : Core} {work : Core → Bool} (h : work Core.reset = false) : (dev k).onlyAt 0 work := by
  intro x hx; rw [coreAt_dev_ne k hx]; exact h

/-- Whether every register of the running thread is full and ready, and no stream is bound. -/
def allFull (s : State) : Bool :=
  s.me.engine.streams.isEmpty && (List.range 32).all (fun n => (s.th.greg n).st == .full && decide ((s.th.greg n).ready ≤ s.cycle)) &&
    s.th.v.toList.all fun r => r.st == .full && decide (r.ready ≤ s.cycle)

theorem usable_of {s : State} (h : allFull s = true) (us : List Use) : s.usable us := by
  simp only [allFull, Bool.and_eq_true, List.all_eq_true, List.mem_range, beq_iff_eq, decide_eq_true_eq, List.isEmpty_iff] at h
  obtain ⟨⟨hs, hg⟩, hv⟩ := h
  have greg (n : GReg) : s.gReady n := hg n.toNat n.isLt
  have vreg (n : VReg) (c : Nat) : s.vReady n c := by
    intro i _
    refine ⟨by simp [Core.aliasOf, hs], ?_⟩
    unfold Thread.vreg
    cases hx : s.th.v[n.toNat + i]? with
    | none => simp [Reg.of]
    | some r => exact hv r (Vector.mem_toList_iff.2 (Vector.mem_of_getElem? hx))
  intro u _
  cases u <;> first | exact greg _ | exact vreg _ _

/-- Whether the running thread is open and nothing else is under way on its core. -/
def calm (s : State) : Bool :=
  s.th.st == .run && !(s.ctxOf s.me.ctx).dbg && s.th.outs.isEmpty && decide (s.th.acqAt ≤ s.cycle) && decide (s.th.relAt ≤ s.cycle) &&
    s.me.engine.copies.isEmpty && s.me.bankUses.isEmpty && s.me.almanac.kept.isEmpty && s.me.almanac.slots.toList.all (fun b => !b.live)

theorem booking_mem (k : Core) (i : Nat) : k.booking i = Booking.reset ∨ k.booking i ∈ k.almanac.slots.toList := by
  unfold Core.booking
  cases hx : k.almanac.slots[i]? with
  | none => exact .inl rfl
  | some b => exact .inr (Vector.mem_toList_iff.2 (Vector.mem_of_getElem? hx))

theorem booked_of_idle {k : Core} (hk : k.almanac.kept = []) (hl : ∀ b ∈ k.almanac.slots.toList, b.live = false) (code tick : Nat) :
    k.booked code tick = false := by
  simp only [Core.booked, Core.bookedBut, hk, List.any_nil, Bool.or_false, List.any_eq_false, Bool.and_eq_true, not_and]
  intro b hb h; simp [hl b hb] at h

theorem guarded_of_idle {k : Core} (hl : ∀ b ∈ k.almanac.slots.toList, b.live = false) (b tick : Nat) (own : Option Nat) :
    k.guarded b tick own = false := by
  simp only [Core.guarded, List.any_eq_false, Bool.and_eq_true, not_and]
  intro i _ h
  rcases booking_mem k i with hi | hi
  · rw [hi] at h; simp [Booking.reset, Booking.live] at h
  · simp [hl _ hi] at h

section
variable {s : State} (h : calm s = true)
include h

theorem calm_parts : s.th.st = .run ∧ (s.ctxOf s.me.ctx).dbg = false ∧ s.th.outs = [] ∧ s.th.acqAt ≤ s.cycle ∧ s.th.relAt ≤ s.cycle ∧
    s.me.engine.copies = [] ∧ s.me.bankUses = [] ∧ s.me.almanac.kept = [] ∧ ∀ b ∈ s.me.almanac.slots.toList, b.live = false := by
  simp only [calm, Bool.and_eq_true, beq_iff_eq, Bool.not_eq_true', List.isEmpty_iff, decide_eq_true_eq, List.all_eq_true, and_assoc] at h
  exact h

theorem calm_booked (code tick : Nat) : s.me.booked code tick = false :=
  let ⟨_, _, _, _, _, _, _, hk, hl⟩ := calm_parts h; booked_of_idle hk hl code tick

theorem calm_noBookings : s.noBookings :=
  let ⟨hs, _, _, _, _, _, _, _, hl⟩ := calm_parts h
  ⟨by simp [hs], calm_booked h, fun b t => guarded_of_idle hl b t none⟩

theorem calm_quiet : s.memoryQuiet := by
  obtain ⟨hs, hd, ho, ha, hr, hc, hb, -, -⟩ := calm_parts h
  refine ⟨?_, ?_, ?_, ?_⟩
  · intro rd wr va n; simp [State.watchStop, State.watchMask, hd]
  · intro va; simp [State.acquireStop, ho, Nat.not_lt.2 ha]
  · intro ql va; simp [State.releaseStop, ho, hc, Nat.not_lt.2 hr]
  · intro b c _ _ _; simp [State.bankStop, State.resourceStop, hs, calm_booked h, hb]

end

theorem owner_of_nil {k : Core} (h : k.owners = []) (u : Nat) : k.owner u = 0 := by simp [Core.owner, h]

/-- A device whose core 0 is changed from the one of run. -/
def onCore (l : List (Nat × Nat)) (f : Core → Core) : State := dev (f (coreOf (thrOf l)))

/-- A device whose thread 0 of core 0 is changed from the one of run. -/
def onThread (l : List (Nat × Nat)) (f : Thread → Thread) : State := dev (coreOf (f (thrOf l)))

theorem tidy_of {k : Core} (h1 : k.sram.wf = true) (h2 : k.vault.mem.wf = true) (h3 : k.owners = []) : k.tidy :=
  ⟨⟨h1, h2⟩, by simp [h3], by simp [h3]⟩

theorem tileOn_of {k : Core} (h : ∀ th ∈ k.threads.toList, th.outs = []) (u : Nat) : k.tileOn u = none := by
  simp only [Core.tileOn, List.findSome?_eq_none_iff]
  intro th hth; simp [h th hth]

/-- An access that nothing distinguishes. -/
def access (kind : AccessKind) (dest : Dest) : Access :=
  { id := 7, kind := kind, dest := dest, bytes := 8, signed := false, va := 0x10000, det0 := 0, target := 0, acquire := false, store := false,
    tile := false, lo := 0, n := 0, split := 8, left := 1, data := 0, units := [], told := false }

/-! Ill-formed instructions, one or more for each limit. -/

theorem test_wf_refuses : ([.add 1 2 3 false false ⟨0, true⟩, .sext 1 2 .w8 false ⟨0, true⟩, .addp 1 2 3 false false ⟨0, true⟩, .ceq 1 2 3 false false ⟨0, true⟩,
    .pand 1 2 3 ⟨0, true⟩, .mov 1 2 false ⟨0, true⟩, .br ⟨0, true⟩ 4, .call ⟨0, true⟩ 4, .jr 1 false ⟨0, true⟩, .fop 1 2 3 false false ⟨0, true⟩ .w .add,
    .halt 0 false ⟨0, true⟩, .brk 0 ⟨0, true⟩, .ldu 1 2 .d .plain 0,
    .vaddF 1 2 4 .pair .f32, .vaddF 2 1 4 .pair .f32, .vaddF 2 4 1 .pair .f32, .vaddF 2 4 6 .pair .i32, .vabs 2 4 .quad .f16, .vaddI 8 4 0 .octet .i32,
    .vaddI 8 0 0 .octet .f32, .vbc 2 1 .pair .q8, .vbc 1 1 .pair .i8, .vext 1 3 0 .pair .i8, .vzip 2 4 6 .pair .i32, .vuzp 4 2 .pair .i32, .vradd 1 2 .single .e4m3,
    .vdot4 1 2 3 .single .i16, .vdot2 1 2 3 .single .f16, .vcvt 2 4 .f16 false .pair .f16, .vcvt 2 4 .q8 false .pair .f16, .vcvt 1 4 .f32 false .pair .f32,
    .vq 1 2 3 .single .q8, .vq 1 2 3 .pair .i8, .vdq 1 2 false .single .f32, .vdq 8 2 false .octet .f16, .vpk 1 2 .pair .i16, .vunpk 1 2 .pair .i8,
    .vmov 1 2 .pair, .vlane 2 .pair .f32, .vdiv 8 0 4 .octet, .vgath 1 2 3 .pair .i32, .vgath 1 2 3 .pair .i64, .vscat 1 2 3 .single .f16,
    .vld 1 2 .pair .i8 .plain 0, .vst 8 2 .octet .q8 .plain 0,
    .mma 0 0 0 .skinny .tc3 .bf16 false false true, .mma 0 0 0 .sq .bf16 .bf16 false true false, .mma 0 1 0 .sq .q4 .q8 false false false,
    .mma 0 0 1 .bd8 .f32 .f32 false false false, .mma 0 0 0 .sq .f32 .bf16 false false false,
    .tdec 1 0 0 .pair 0, .rfop 1 2 3 .d .faddTs, .rcas 0 1 2 .d, .rcas 1 2 3 .w, .fop 1 2 3 false false ⟨0, false⟩ .d .faddTs,
    .fence 0 .thread false false false, .fence 1 .core true false false, .csrr 1 8, .csrw 1 2 8, .csrs 1 2 8, .csrc 1 2 8,
    .handlerEntry 256 0, .handlerEntry 0 4, .haltTreeStop 16 0 0, .offstackRequest 16, .stealRequest 0 0 4, .barrierArrival 0 0 256, .confluenceForward 256 0,
    .flitCrcRetry 20, .bar2LaunchRecord 0 []] : List Instr).all (fun i => !i.wf) = true := by decide

theorem test_wf_admits : ([.add 1 2 3 false false ⟨7, true⟩, .vaddF 30 28 26 .pair .bf16, .vzip 4 6 6 .pair .i32, .vq 31 30 3 .pair .q8, .vst 28 2 .quad .q8 .plain 0,
    .mma 0 2 2 .bd8 .f32 .f32 false true true, .rcas 30 1 2 .d, .fence 1 .rect true false false, .csrr 1 0x7FF, .handlerEntry 255 3] : List Instr).all Instr.wf = true := by
  decide

/-! Encodings that are not instructions, with the reason and the offending field of R75. -/

/-- Every word of the list is rejected with the reason and bit beside it. -/
def rejects (l : List (Insn × Nat × Nat)) : Bool := l.all fun p => match decodeWord p.1 with
  | .ok _ => false
  | .error e => e == ⟨p.2.1, p.2.2⟩

/-- Words of Table 2.8, of R74 and of Examples 2.1, 2.3 and 2.4, and words built from Table 2.3 with one field out of its range. -/
theorem test_rejected_words : rejects [
    (0x00000000, 1, 26), (0xFFFFFFFF, 1, 26), (0b000001_00101_00110_00111_0_0_000_0_11100, 2, 0), (0b011100_00010_00100_00000_01_1001_00001, 2, 0), (0b110000_00101_00110_00111_0_0_000_0_11001, 2, 0), (0b110000_00101_00110_00111_0_0_000_0_01010, 2, 0), (0x04A63A20, 3, 5), (0b010000_000_1_0000000000000000000101, 3, 22), (0b000011_01000_01000_01001_0_0_000_0_00000, 4, 24), (0b001001_00101_00110_0000000001000000, 4, 6), (0b001010_00101_00001_0000000000000111, 4, 16), (0b010011_00110_00001_0000000000000111, 4, 16), (0b100100_010_01_11_001_1000_010_1_0_0_000001, 4, 0), (0b000001_00101_00110_00011_0_0_000_0_11010, 5, 11), (0b011000_00100_01000_00101_10_1001_01100, 5, 11), (0b001001_00101_00110_1100000000000000, 5, 14), (0b011000_01000_01010_01100_01_1111_00000, 6, 5), (0b010101_01000_00010_11_00_000000000000, 6, 14), (0x91398580, 7, 7), (0b011100_00010_00100_01000_01_1000_00000, 7, 11), (0x612A6300, 8, 21), (0b011000_01000_01001_01100_01_1000_00000, 8, 16), (0b011000_01000_01010_00110_10_1000_00000, 8, 16), (0b111000_00101_00000_00000001000_00110, 9, 5), (0b111000_00101_00110_00000001000_00110, 4, 16)] = true := by decide

/-! Words written out bit by bit from Tables 2.3 to 2.7. -/

/-- Every word of the list decodes to the instruction beside it. -/
def reads (l : List (Insn × Instr)) : Bool := l.all fun p => match decodeWord p.1 with | .ok i => i == p.2 | .error _ => false

theorem test_words_of_scalar_arithmetic : reads [
    (0b000001_00001_00010_11111_0_0_000_0_00000, .add 1 2 31 false false ⟨0, false⟩),
    (0b000001_00010_01001_11110_1_0_001_0_00001, .sub 2 9 30 true false ⟨1, false⟩),
    (0b000001_00011_10000_11101_0_1_010_0_00010, .and 3 16 29 false true ⟨2, false⟩),
    (0b000001_00100_10111_11100_1_1_011_1_00011, .or 4 23 28 true true ⟨3, true⟩),
    (0b000001_00101_11110_11011_0_0_100_0_00100, .xor 5 30 27 false false ⟨4, false⟩),
    (0b000001_00110_00101_11010_1_0_101_0_00101, .andn 6 5 26 true false ⟨5, false⟩),
    (0b000001_00111_01100_11001_0_1_110_1_00110, .sll 7 12 25 false true ⟨6, true⟩),
    (0b000001_01000_10011_11000_1_1_111_0_00111, .srl 8 19 24 true true ⟨7, false⟩),
    (0b000001_01001_11010_10111_0_0_000_0_01000, .sra 9 26 23 false false ⟨0, false⟩),
    (0b000001_01010_00001_10110_1_0_001_1_01001, .min 10 1 22 true false ⟨1, true⟩),
    (0b000001_01011_01000_10101_0_1_010_0_01010, .max 11 8 21 false true ⟨2, false⟩),
    (0b000001_01100_01111_10100_1_1_011_0_01011, .minu 12 15 20 true true ⟨3, false⟩),
    (0b000001_01101_10110_10011_0_0_100_1_01100, .maxu 13 22 19 false false ⟨4, true⟩),
    (0b000001_01110_11101_10010_1_0_101_0_01101, .slt 14 29 18 true false ⟨5, false⟩),
    (0b000001_01111_00100_10001_0_1_110_0_01110, .sltu 15 4 17 false true ⟨6, false⟩),
    (0b000001_10000_01011_10000_1_1_111_1_01111, .seq 16 11 16 true true ⟨7, true⟩),
    (0b000001_10001_10010_01111_0_0_000_0_10000, .mul 17 18 15 false false ⟨0, false⟩),
    (0b000001_10010_11001_01110_1_0_001_0_10001, .mulh 18 25 14 true false ⟨1, false⟩),
    (0b000001_10011_00000_01101_0_1_010_1_10010, .mulhu 19 0 13 false true ⟨2, true⟩),
    (0b000001_10100_00111_01100_1_1_011_0_10011, .div 20 7 12 true true ⟨3, false⟩),
    (0b000001_10101_01110_01011_0_0_100_0_10100, .divu 21 14 11 false false ⟨4, false⟩),
    (0b000001_10110_10101_01010_1_0_101_1_10101, .rem 22 21 10 true false ⟨5, true⟩),
    (0b000001_10111_11100_01001_0_1_110_0_10110, .remu 23 28 9 false true ⟨6, false⟩),
    (0b000001_00100_01001_00000_1_0_111_1_10111, .clz 4 9 true ⟨7, true⟩),
    (0b000001_00100_01010_00000_1_0_111_1_11000, .ctz 4 10 true ⟨7, true⟩),
    (0b000001_00100_01011_00000_1_0_111_1_11001, .popc 4 11 true ⟨7, true⟩),
    (0b000001_00100_01001_00000_0_0_000_0_11010, .sext 4 9 .w8 false ⟨0, false⟩),
    (0b000001_00100_01001_00010_0_0_000_0_11011, .zext 4 9 .w32 false ⟨0, false⟩)] = true := by decide

theorem test_words_of_pointers_predicates_and_moves : reads [
    (0b000010_00011_00100_00101_0_1_000_0_00000, .addp 3 4 5 false true ⟨0, false⟩),
    (0b000010_00100_00100_00101_0_1_000_0_00001, .subp 4 4 5 false true ⟨0, false⟩),
    (0b000010_00101_00100_00101_0_1_000_0_00010, .ptag 5 4 5 false true ⟨0, false⟩),
    (0b000010_00011_00100_00000_1_0_000_0_00011, .gtag 3 4 true ⟨0, false⟩),
    (0b000010_00100_00100_00000_1_0_000_0_00100, .pva 4 4 true ⟨0, false⟩),
    (0b000010_00101_00100_00000_1_0_000_0_00101, .pchk 5 4 true ⟨0, false⟩),
    (0b000011_00111_01000_01001_0_1_001_1_00000, .ceq 7 8 9 false true ⟨1, true⟩),
    (0b000011_00110_01000_01001_0_1_001_1_00001, .cne 6 8 9 false true ⟨1, true⟩),
    (0b000011_00101_01000_01001_0_1_001_1_00010, .clt 5 8 9 false true ⟨1, true⟩),
    (0b000011_00100_01000_01001_0_1_001_1_00011, .cltu 4 8 9 false true ⟨1, true⟩),
    (0b000011_00011_01000_01001_0_1_001_1_00100, .cge 3 8 9 false true ⟨1, true⟩),
    (0b000011_00010_01000_01001_0_1_001_1_00101, .cgeu 2 8 9 false true ⟨1, true⟩),
    (0b000011_00010_00110_00111_0_0_000_0_00110, .pand 2 6 7 ⟨0, false⟩),
    (0b000011_00010_00110_00110_0_0_000_0_00111, .por 2 6 6 ⟨0, false⟩),
    (0b000011_00010_00110_00101_0_0_000_0_01000, .pxor 2 6 5 ⟨0, false⟩),
    (0b000011_00010_00110_00100_0_0_000_0_01001, .pandn 2 6 4 ⟨0, false⟩),
    (0b000100_01100_01111_00000_1_0_000_0_00000, .mov 12 15 true ⟨0, false⟩),
    (0b000100_01100_00101_00000_0_0_000_0_00001, .p2g 12 5 ⟨0, false⟩),
    (0b000100_00110_01111_00000_1_0_000_0_00010, .g2p 6 15 true ⟨0, false⟩)] = true := by decide

theorem test_words_of_immediates_branches_and_scalar_memory : reads [
    (0b000101_00101_00110_1000000000000001, .addi 5 6 0x8001),
    (0b000110_00101_00110_1000000000000010, .andi 5 6 0x8002),
    (0b000111_00101_00110_1000000000000011, .ori 5 6 0x8003),
    (0b001000_00101_00110_1000000000000100, .xori 5 6 0x8004),
    (0b001001_00101_00110_0000000000111111, .slli 5 6 63),
    (0b001001_00101_00110_0100000000111110, .srli 5 6 62),
    (0b001001_00101_00110_1000000000111101, .srai 5 6 61),
    (0b001010_00111_00000_0001001000110100, .li 7 0x1234),
    (0b001011_00111_01000_0001001000110100, .lui 7 8 0x1234),
    (0b001100_00111_01000_0001001000110100, .luh 7 8 0x1234),
    (0b001101_00111_01000_0001001000110100, .lut 7 8 0x1234),
    (0b001110_00101_00110_1000000000000000, .cmpi .eq 5 6 0x8000),
    (0b001110_01101_00110_1000000000000000, .cmpi .lt 5 6 0x8000),
    (0b001110_10101_00110_1000000000000000, .cmpi .ltu 5 6 0x8000),
    (0b001110_11101_00110_1000000000000000, .cmpi .ne 5 6 0x8000),
    (0b010000_010_1_1111111111111111111111, .br ⟨2, true⟩ 0x3FFFFF),
    (0b010001_000_0_1000000000000000000001, .call ⟨0, false⟩ 0x200001),
    (0b010010_00000_01001_00000_1_0_000_0_00000, .jr 9 true ⟨0, false⟩),
    (0b010011_00110_00000_1111111111111101, .dbnz 6 0xFFFD),
    (0b010100_01000_00010_10_01_000000000110, .ld 8 2 .w .order 6),
    (0b010101_01000_00010_01_11_100000000001, .ldu 8 2 .h .exchange 0x801),
    (0b010110_00100_00101_11_10_000000000111, .st 4 5 .d .full 7)] = true := by decide

theorem test_words_of_float_lanes : reads [
    (0b011000_01000_10000_11000_00_1000_00000, .vaddF 8 16 24 .single .f32),
    (0b011000_01000_10000_11000_01_1001_00001, .vsubF 8 16 24 .pair .f16),
    (0b011000_01000_10000_11000_10_1010_00010, .vmulF 8 16 24 .quad .bf16),
    (0b011000_01000_10000_11000_11_1000_00011, .vfma 8 16 24 .octet .f32),
    (0b011000_01000_10000_11000_00_1001_00100, .vfms 8 16 24 .single .f16),
    (0b011000_01000_10000_11000_01_1010_00101, .vminF 8 16 24 .pair .bf16),
    (0b011000_01000_10000_11000_10_1000_00110, .vmaxF 8 16 24 .quad .f32),
    (0b011000_01000_10000_11000_11_1001_00111, .vminn 8 16 24 .octet .f16),
    (0b011000_01000_10000_11000_00_1010_01000, .vmaxn 8 16 24 .single .bf16),
    (0b011000_01000_10000_00000_01_1000_01001, .vabs 8 16 .pair .f32),
    (0b011000_01000_10000_00000_10_1001_01010, .vneg 8 16 .quad .f16),
    (0b011000_01000_10000_11000_11_1010_01011, .vcpsgn 8 16 24 .octet .bf16),
    (0b011000_01000_10000_00000_00_1000_01100, .vrndi 8 16 .rne .single .f32),
    (0b011000_01000_10000_00001_00_1000_01100, .vrndi 8 16 .rtz .single .f32),
    (0b011000_01000_10000_00010_00_1000_01100, .vrndi 8 16 .rdn .single .f32),
    (0b011000_01000_10000_00011_00_1000_01100, .vrndi 8 16 .rup .single .f32),
    (0b011000_01000_10000_00100_00_1000_01100, .vrndi 8 16 .dyn .single .f32),
    (0b011000_01000_10000_11000_01_1001_01101, .vceqF 8 16 24 .pair .f16),
    (0b011000_01000_10000_11000_10_1010_01110, .vcltF 8 16 24 .quad .bf16),
    (0b011000_01000_10000_11000_11_1000_01111, .vcle 8 16 24 .octet .f32),
    (0b011000_01000_10000_11000_00_1001_10000, .vcun 8 16 24 .single .f16),
    (0b011000_01000_10000_00000_01_1010_10001, .vclass 8 16 .pair .bf16),
    (0b011000_01000_10000_00000_10_1000_10010, .vgetexp 8 16 .quad .f32),
    (0b011000_01000_10000_11000_11_1001_10011, .vexpins 8 16 24 .octet .f16)] = true := by decide

theorem test_words_of_integer_lanes : reads [
    (0b011001_01000_11000_10000_00_0000_00000, .vaddI 8 24 16 .single .i8),
    (0b011001_01000_11000_10000_01_0001_00001, .vsubI 8 24 16 .pair .n8),
    (0b011001_01000_11000_10000_10_0010_00010, .vmulI 8 24 16 .quad .i16),
    (0b011001_01000_11000_10000_11_0011_00011, .vmulh 8 24 16 .octet .n16),
    (0b011001_01000_11000_10000_00_0100_00100, .vadds 8 24 16 .single .i32),
    (0b011001_01000_11000_10000_01_0101_00101, .vsubs 8 24 16 .pair .n32),
    (0b011001_01000_11000_10000_10_0110_00110, .vminI 8 24 16 .quad .i64),
    (0b011001_01000_11000_10000_11_0111_00111, .vmaxI 8 24 16 .octet .n64),
    (0b011001_01000_11000_10000_00_0000_01000, .vavg 8 24 16 .single .i8),
    (0b011001_01000_11000_10000_01_0001_01001, .vabsd 8 24 16 .pair .n8),
    (0b011001_01000_11000_10000_10_0010_01010, .vsll 8 24 16 .quad .i16),
    (0b011001_01000_11000_10000_11_0011_01011, .vsrl 8 24 16 .octet .n16),
    (0b011001_01000_11000_10000_00_0100_01100, .vsra 8 24 16 .single .i32),
    (0b011001_01000_11000_10000_01_0101_01101, .vand 8 24 16 .pair .n32),
    (0b011001_01000_11000_10000_10_0110_01110, .vor 8 24 16 .quad .i64),
    (0b011001_01000_11000_10000_11_0111_01111, .vxor 8 24 16 .octet .n64),
    (0b011001_01000_11000_10000_00_0000_10000, .vandn 8 24 16 .single .i8),
    (0b011001_01000_11000_10000_01_0001_10001, .vceqI 8 24 16 .pair .n8),
    (0b011001_01000_11000_10000_10_0010_10010, .vcltI 8 24 16 .quad .i16),
    (0b011001_01000_11000_10000_11_0011_10011, .vsel 8 24 16 .octet .n16),
    (0b011001_01000_11000_10000_00_0100_10100, .vmac 8 24 16 .single .i32)] = true := by decide

theorem test_words_of_permutes_reductions_and_conversions : reads [
    (0b011010_00110_00111_00000_01_1001_00000, .vbc 6 7 .pair .f16),
    (0b011010_00110_00111_01000_01_1100_00001, .vins 6 7 8 .pair .e5m2),
    (0b011010_00101_00110_00111_00_1011_00010, .vext 5 6 7 .single .e4m3),
    (0b011010_00100_01000_01100_10_0000_00011, .vperm 4 8 12 .quad .i8),
    (0b011010_00100_00010_00110_01_0100_00100, .vzip 4 2 6 .pair .i32),
    (0b011010_00100_01000_00000_01_0100_00101, .vuzp 4 8 .pair .i32),
    (0b011010_00100_01000_00011_01_0010_00110, .vslide 4 8 3 .pair .i16),
    (0b011010_00100_01000_00011_01_0010_00111, .vrot 4 8 3 .pair .i16),
    (0b011011_00011_01000_00000_11_1010_00000, .vradd 3 8 .octet .bf16),
    (0b011011_00011_01000_00000_11_0111_00001, .vrmin 3 8 .octet .n64),
    (0b011011_00011_01000_00000_11_1000_00010, .vrmax 3 8 .octet .f32),
    (0b011011_00010_00100_00110_01_0001_00011, .vdot4 2 4 6 .pair .n8),
    (0b011011_00011_00100_00101_00_1010_00100, .vdot2 3 4 5 .single .bf16),
    (0b011100_00010_00100_11000_01_1001_00000, .vcvt 2 4 .f32 true .pair .f16),
    (0b011100_00010_00100_00011_01_1110_00010, .vq 2 4 3 .pair .q4),
    (0b011100_00100_00011_00001_01_1000_00011, .vdq 4 3 true .pair .f32),
    (0b011100_00011_00100_00000_01_0000_00100, .vpk 3 4 .pair .i8),
    (0b011100_00100_00011_00000_01_0001_00101, .vunpk 4 3 .pair .n8),
    (0b011101_00100_01000_00000_10_0000_00000, .vmov 4 8 .quad),
    (0b011101_01000_00000_00000_11_0000_00001, .vzero 8 .octet),
    (0b011101_00110_00000_00000_01_0101_00010, .vlane 6 .pair .n32),
    (0b100000_01000_10000_00000_11_1000_00000, .vrcp 8 16 .octet),
    (0b100000_01000_10000_00000_11_1000_00001, .vrsqrt 8 16 .octet),
    (0b100000_01000_10000_00000_11_1000_00010, .vsqrt 8 16 .octet),
    (0b100000_01000_10000_11000_11_1000_00011, .vdiv 8 16 24 .octet),
    (0b100000_01000_10000_00000_11_1000_00100, .vfexp2 8 16 .octet),
    (0b100000_01000_10000_00000_11_1000_00101, .vlog2 8 16 .octet),
    (0b100000_01000_10000_00000_11_1000_00110, .vsinpi 8 16 .octet),
    (0b100000_01000_10000_00000_11_1000_00111, .vcospi 8 16 .octet),
    (0b100000_01000_10000_00000_11_1000_01000, .vtanh 8 16 .octet),
    (0b100001_00100_00101_00110_01_0110_00000, .vgath 4 5 6 .pair .i64),
    (0b100001_00011_00100_00101_00_1000_00001, .vscat 3 4 5 .single .f32),
    (0b100010_01000_00011_01_1111_01_11111111, .vld 8 3 .pair .auto .order 0xFF),
    (0b100011_00100_00011_10_1110_00_00000010, .vst 4 3 .quad .q4 .plain 2)] = true := by decide

theorem test_words_of_matrix_and_trellis : reads [
    (0b100100_010_01_11_001_1000_010_1_0_0_000000, .mma 2 1 3 .skinny .tc3 .e4m3 true false false),
    (0b100100_111_11_10_010_0110_101_0_1_1_000000, .mma 7 3 2 .bd8 .f32 .f32 false true true),
    (0b100101_00000_00111_00000_000101_00000, .mgset 7 5),
    (0b100101_00111_00000_00000_000101_00001, .mgget 7 5),
    (0b100101_00111_01001_00000_000000_00010, .owne 7 9),
    (0b100101_00111_00000_00000_000000_00011, .ownq 7),
    (0b100101_00000_00000_00000_000000_00100, .mwait),
    (0b100101_00000_01001_00000_000000_00101, .accz 9),
    (0b100101_00000_01001_01010_010110_00110, .accst 9 10 .f16 6),
    (0b100101_00000_01001_01010_001101_00111, .accld 9 10 .bf16 5),
    (0b100101_00000_01001_01010_000011_01000, .abld 9 10 3),
    (0b100101_00000_01001_01010_000010_01001, .wbld 9 10 2),
    (0b101000_01001_01010_00000_000011_00000, .twset 9 10 3),
    (0b101000_01000_01010_01011_001001_00001, .tdec 8 10 11 .quad 1),
    (0b101000_01001_01010_01011_000011_00010, .tdecr 9 10 11 3),
    (0b101000_01001_01010_01011_000000_00011, .tenc 9 10 11),
    (0b101000_01001_00000_00000_000000_00100, .tencw 9)] = true := by decide

theorem test_words_of_vault_and_streams : reads [
    (0b101010_00000_01010_00000_000000_00000, .rowact 10),
    (0b101010_00000_01010_00000_000000_00001, .rowpre 10),
    (0b101010_00000_01010_01011_111111_00010, .tld 10 11 63),
    (0b101010_00000_01010_01011_000001_00011, .tst 10 11 1),
    (0b101010_00011_01010_00000_000000_00100, .rowq 3 10),
    (0b101010_00000_00000_00000_000000_00101, .vsync),
    (0b101010_00011_00100_00101_000000_00110, .pmig 3 4 5),
    (0b101010_00011_00100_00000_000000_00111, .ptq 3 4),
    (0b101100_00011_00100_00000_001111_00000, .cpy 3 4 15),
    (0b101100_00011_00100_00000_000000_00001, .cpyq 3 4),
    (0b101100_00011_00100_00000_000000_00010, .cpyw 3 4),
    (0b101100_00011_00100_00000_000110_00011, .sbind 3 4 6),
    (0b101100_00011_00000_00000_000111_00100, .sunb 3 7),
    (0b101100_00011_00100_00000_000000_00101, .sparkq 3 4)] = true := by decide

theorem test_words_of_remote_and_atomic : reads [
    (0b101110_00011_00100_00101_000100_00000, .rget 3 4 5 .v),
    (0b101110_00011_00100_00101_000001_00001, .rput 3 4 5 .h),
    (0b101110_00011_00100_00101_101001_00010, .rfop 3 4 5 .v16 .faddTs),
    (0b101110_00100_00101_00110_000001_00011, .rcas 4 5 6 .d),
    (0b101110_00011_00100_00101_000000_00100, .amsg 3 4 5),
    (0b101110_00011_00100_00101_000000_00101, .msend 3 4 5),
    (0b101110_00011_00100_00000_000001_00110, .mrecv 3 4 true),
    (0b101110_00011_00000_00000_000000_00111, .rstat 3),
    (0b110000_00011_00100_00101_1_0_000_0_00000, .fop 3 4 5 true false ⟨0, false⟩ .w .add),
    (0b110000_00011_00100_00101_1_0_000_0_10001, .fop 3 4 5 true false ⟨0, false⟩ .d .and),
    (0b110000_00011_00100_00101_1_0_000_0_00010, .fop 3 4 5 true false ⟨0, false⟩ .w .or),
    (0b110000_00011_00100_00101_1_0_000_0_10011, .fop 3 4 5 true false ⟨0, false⟩ .d .xor),
    (0b110000_00011_00100_00101_1_0_000_0_00100, .fop 3 4 5 true false ⟨0, false⟩ .w .min),
    (0b110000_00011_00100_00101_1_0_000_0_10101, .fop 3 4 5 true false ⟨0, false⟩ .d .max),
    (0b110000_00011_00100_00101_1_0_000_0_00110, .fop 3 4 5 true false ⟨0, false⟩ .w .minu),
    (0b110000_00011_00100_00101_1_0_000_0_10111, .fop 3 4 5 true false ⟨0, false⟩ .d .maxu),
    (0b110000_00011_00100_00101_1_0_000_0_01000, .fop 3 4 5 true false ⟨0, false⟩ .w .swap),
    (0b110000_00011_00100_00101_0_0_000_0_01001, .fop 3 4 5 false false ⟨0, false⟩ .w .faddTs),
    (0b110001_00011_00100_00101_0_0_010_0_00001, .cas 3 4 5 false false ⟨2, false⟩ .d)] = true := by decide

theorem test_words_of_ordering_almanac_and_tasks : reads [
    (0b110010_00000_01001_00000_010101_00000, .fence 9 .rect true false true),
    (0b110010_00000_00000_00000_100010_00000, .fence 0 .domain false true false),
    (0b110010_00001_00010_00011_000000_00001, .wait 1 2 3),
    (0b110010_00000_00010_00011_000000_00010, .signal 2 3),
    (0b110010_00000_00010_00011_000000_00011, .sstep 2 3),
    (0b110010_00000_00010_00011_000000_00100, .bar 2 3),
    (0b110010_00001_00010_00011_000000_00101, .redm 1 2 3),
    (0b110010_00001_00010_00011_000000_00110, .ownf 1 2 3),
    (0b110010_00000_00000_00000_000000_00111, .fencei),
    (0b110100_00001_00010_00011_000000_00000, .book 1 2 3),
    (0b110100_00000_00010_00000_000000_00001, .arm 2),
    (0b110100_00000_00000_00000_000000_00010, .done),
    (0b110100_00001_00010_00000_000000_00011, .unbook 1 2),
    (0b110100_00001_00010_00011_000000_00100, .calq 1 2 3),
    (0b110100_00001_00010_00011_000000_00101, .calmv 1 2 3),
    (0b110110_00001_00010_00000_000000_00000, .spawn 1 2),
    (0b110110_00001_00010_00000_000000_00001, .take 1 2),
    (0b110110_00001_00010_00000_000000_00010, .seek 1 2),
    (0b110110_00000_00010_00000_000000_00011, .tfin 2),
    (0b110110_00001_00000_00000_000000_00100, .term 1),
    (0b110110_00001_00000_00000_000000_00101, .dqn 1)] = true := by decide

theorem test_words_of_system : reads [
    (0b111000_00000_00100_00101_1_1_000_0_00000, .trap 4 5 true true ⟨0, false⟩),
    (0b111000_00011_00100_00101_0_1_000_0_00001, .eret 3 4 5 false true ⟨0, false⟩),
    (0b111000_00000_00100_00000_1_0_000_0_00010, .halt 4 true ⟨0, false⟩),
    (0b111000_00011_00100_00101_0_0_110_1_00011, .sysc 3 4 5 false false ⟨6, true⟩),
    (0b111000_00000_00000_10001_0_0_000_0_00100, .brk 17 ⟨0, false⟩),
    (0b111000_00000_00100_00101_0_0_000_0_00101, .trc 4 5 false false ⟨0, false⟩),
    (0b111000_00011_00000_00000000010_00110, .csrr 3 2),
    (0b111000_00011_00100_10001000011_00111, .csrw 3 4 0x443),
    (0b111000_00011_00100_00000010000_01000, .csrs 3 4 0x10),
    (0b111000_00011_00100_00000000111_01001, .csrc 3 4 7)] = true := by decide


/-! Worked examples of the spec: one step each, or one function. -/

/-- The state that an instruction leaves. -/
def after (i : Instr) (s : State) : State := match exec i s with
  | .next t => t
  | _ => s

/-- An instruction on g6 and g7 that writes g5. -/
def writes (i : Instr) (a b : Nat) : Nat := ((after i (run [(6, a), (7, b)])).th.greg 5).val.toNat

/-- Example 4.1. -/
theorem test_div : writes (.div 5 6 7 false false always) 7 (2 ^ 64 - 2) = 0xFFFFFFFFFFFFFFFD ∧
    writes (.div 5 6 7 false false always) 0x8000000000000000 (2 ^ 64 - 1) = 0x8000000000000000 := by decide
theorem test_rem : writes (.rem 5 6 7 false false always) 7 (2 ^ 64 - 2) = 1 ∧ writes (.rem 5 6 7 false false always) (2 ^ 64 - 7) 2 = 2 ^ 64 - 1 := by decide
theorem test_div_by_zero : writes (.divu 5 6 7 false false always) 7 0 = 2 ^ 64 - 1 ∧ writes (.remu 5 6 7 false false always) 7 0 = 7 := by decide
theorem test_mulh : writes (.mulh 5 6 7 false false always) (2 ^ 64 - 1) 3 = 2 ^ 64 - 1 ∧ writes (.mulhu 5 6 7 false false always) (2 ^ 64 - 1) 3 = 2 := by decide
theorem test_sra_amount : writes (.sra 5 6 7 false false always) 0x8000000000000000 65 = 0xC000000000000000 := by decide
theorem test_sext : writes (.sext 5 6 .w16 false always) 0x18001 0 = 0xFFFFFFFFFFFF8001 := by decide

/-- Example 4.2. -/
theorem test_constant : writes (.lui 5 6 0x8000) 0x1230 0 = 0x80001230 ∧ writes (.luh 5 6 4) 0x80001230 0 = 0x480001230 ∧
    writes (.lut 5 6 0x1000) 0x480001230 0 = 0x1000000480001230 := by decide
theorem test_addp : writes (.addp 5 6 7 false false always) 0x1000000480001230 64 = 0x1000000480001270 := by decide
theorem test_gtag : writes (.gtag 5 6 false always) 0x1000000480001270 0 = 0x10 := by decide

/-- The thread after a conversion of f32 lanes of v4 to another format in v2. -/
def into (t : ElemTy) (sat : Bool) (l : List Nat) : Thread :=
  (after (.vcvt 2 4 .f32 sat .single t) (onThread [] fun th => th.setVreg 4 (Reg.of (BitVec.ofNat 512 (l.foldr (fun x n => x + 2 ^ 32 * n) 0))))).th

/-- The first lanes of v2. -/
def lanesOf (t : ElemTy) (th : Thread) (n : Nat) : List Nat := (List.range n).map (laneOf (th.vreg 2).val.toNat t.bits)

/-- The f32 inputs of Example 3.1. -/
def inputs : List Nat := [0x3F800000, 0x43960000, 0x43FA0000, 0x3A800000, 0x7F800000, 0x7F800001]

/-- Example 3.1. -/
theorem test_vcvt_e4m3 : lanesOf .e4m3 (into .e4m3 false inputs) 6 = [0x38, 0x79, 0x7F, 0x00, 0x7F, 0x7F] ∧ (into .e4m3 false inputs).fpsr = 0x1D0 ∧
    lanesOf .e4m3 (into .e4m3 true inputs) 6 = [0x38, 0x79, 0x7E, 0x00, 0x7E, 0x7F] := by decide
theorem test_vcvt_others : lanesOf .e5m2 (into .e5m2 false inputs) 6 = [0x3C, 0x5D, 0x60, 0x14, 0x7C, 0x7E] ∧
    lanesOf .bf16 (into .bf16 false inputs) 6 = [0x3F80, 0x4396, 0x43FA, 0x3A80, 0x7F80, 0x7FC0] := by decide

/-- Example 9.1. -/
theorem test_trellis_codes : windowCodes 0xFFFF = (100, -80) ∧ windowCodes 0x9249 = (88, -77) ∧ trellisWindow 3 (2 ^ 192 - 1) 63 = 0xFFFF := by decide
theorem test_trellis_outputs : trellisOut .f32 .rne 3 (2 ^ 192 - 1 + 0x2400 * 2 ^ 192) 0 = (0x3FC80000, 0) ∧
    trellisOut .f32 .rne 3 (2 ^ 192 - 1 + 0x2400 * 2 ^ 192) 127 = (0xBFA00000, 0) := by decide

/-- Example 8.1. -/
theorem test_mma_chunks : floatSum 8 ((List.range 64).map fun k => (ElemTy.bf16.ffmt.value 0x3F80,
    ElemTy.bf16.ffmt.value (if k = 0 then 0x4B80 else if k = 1 ∨ k = 8 ∨ k = 16 ∨ k = 17 then 0x3F80 else 0))) 0 = 0x4B800001 := by decide

/-- Example 13.1. -/
theorem test_combined_sum : fopApply .faddTs 32 0x3F800000 0x4B800000 = 0x4B800000 ∧ fopApply .faddTs 32 0x3F800000 0x3F800000 = 0x40000000 := by decide

/-- Example 1.1. -/
theorem test_route : routeTime 32 83 156 = 30 ∧ (routeHops 32 83 156).length = 13 := by decide

/-- Example 0.1. -/
theorem test_vault_address : (segsFrom 2 0x12345678 4 0).map (fun g => (g.bank, g.row)) = [(2, 0x48D)] := by decide

/-! ### Witnesses: states and operands that meet the hypotheses of each statement -/

theorem witness_scalar_two_source_results : ∃ (s : State) (d a b : GReg) (q : Pred), s.th.pred q = true ∧ s.usable [.rg a true, .rg b false, .wg d] :=
  ⟨run [(5, 7)], 31, 0, 5, always, by decide, usable_of (by decide) _⟩

theorem witness_scalar_one_source_results : ∃ (s : State) (d a : GReg), s.th.pred always = true ∧ s.usable [.rg a true, .wg d] ∧ tagValid ((s.readG a).extractLsb' 56 8).toNat ((s.readG a).extractLsb' 52 4).toNat = true :=
  ⟨run [(5, 0x1000000000030000)], 0, 5, by decide, usable_of (by decide) _, by decide⟩

/-- The clause of `pchk` that traps. -/
theorem witness_scalar_one_source_results_trap : ∃ (s : State) (d a : GReg), s.th.pred always = true ∧ s.usable [.rg a true, .wg d] ∧ tagValid ((s.readG a).extractLsb' 56 8).toNat ((s.readG a).extractLsb' 52 4).toNat = false :=
  ⟨run [(5, 0xFF00000000030000)], 0, 5, by decide, usable_of (by decide) _, by decide⟩

theorem witness_scalar_immediate_results : ∃ (s : State) (d a : GReg), s.usable [.rg a false, .wg d] :=
  ⟨run [(5, 7)], 31, 0, usable_of (by decide) _⟩

theorem witness_predicate_results : ∃ (s : State) (g a b : GReg) (q : Pred), s.th.pred q = true ∧ s.usable [.rg a false, .rg b true, .wg g] :=
  ⟨run [(5, 7)], 1, 5, 0, ⟨7, true⟩, by decide, usable_of (by decide) _⟩

theorem witness_branch_results : ∃ (s : State) (d a : GReg) (q : Pred), s.th.pred q = true ∧ s.usable [.rg a true, .wg 1, .rg d false] :=
  ⟨run [(5, 1)], 5, 5, always, by decide, usable_of (by decide) _⟩

/-- A register that is empty, poisoned or not ready. -/
def odd (r : Reg 64) : State := dev (coreOf { thrOf [] with g := (thrOf []).g.set 5 r })

theorem witness_predicates_and_operand_check :
    (∃ (s : State) (q : Pred), s.th.pred q = false) ∧
    ∃ (s₁ s₂ s₃ s₄ : State) (d a : GReg), a ≠ 0 ∧ (∀ s ∈ [s₁, s₂, s₃, s₄], s.th.pred always = true ∧ s.gReady d) ∧
      s₁.cycle < (s₁.th.greg a.toNat).ready ∧
      ((s₂.th.greg a.toNat).ready ≤ s₂.cycle ∧ (s₂.th.greg a.toNat).st = .poisoned 0x30000 3 16) ∧
      ((s₃.th.greg a.toNat).ready ≤ s₃.cycle ∧ (s₃.th.greg a.toNat).st = .empty ∧ s₃.th.st ≠ .booked) :=
  ⟨⟨run [], ⟨1, false⟩, by decide⟩,
   odd ⟨1, .full, 1001⟩, odd ⟨0, .poisoned 0x30000 3 16, 1000⟩, odd ⟨0, .empty, 0⟩, odd ⟨0, .empty, 0⟩, 6, 5, by decide, by
     intro s hs
     simp only [List.mem_cons, List.not_mem_nil, or_false] at hs
     rcases hs with rfl | rfl | rfl | rfl <;> exact ⟨by decide, by unfold State.gReady; decide⟩,
   by decide, by decide, by decide⟩

theorem witness_local_scalar_access : ∃ (s : State) (d a : GReg) (o : Nat), s.memoryQuiet ∧
    s.usable [.rg a false, .wg d] ∧ s.me.sram.wf = true ∧ s.effective a ((0xFFF#12).toInt * Size.d.bytes) = (localBase + o, false) ∧
    o % Size.d.bytes = 0 ∧ o < 0x100000 ∧ s.me.owner (o / 4096) = 0 ∧ s.qualStop false .plain (localBase + o) o 8 = none ∧
    s.qualStop true .exchange (localBase + o) o 8 = none :=
  ⟨run [(5, 0xF000000100000)], 6, 5, 0xFFFF8, calm_quiet (by decide), usable_of (by decide) _, by decide, by decide, by decide,
   by decide, by decide, by decide, by decide⟩

theorem witness_vault_scalar_access : ∃ (s : State) (d a : GReg) (va pa : Nat), s.memoryQuiet ∧ s.noBookings ∧
    s.me.vault.rowErrs = [] ∧ s.usable [.rg a false, .wg d] ∧ s.effective a ((0#12).toInt * Size.w.bytes) = (va, false) ∧
    va % Size.w.bytes = 0 ∧ (∀ store : Bool, s.translate s.cc s.me.ctx va (!store) store = .vault pa) ∧ pa % Size.w.bytes = 0 :=
  ⟨run [(5, 0x1FFFC)], 6, 5, 0x1FFFC, 0x3FFFC, calm_quiet (by decide), calm_noBookings (by decide), by decide,
   usable_of (by decide) _, by decide, by decide, by decide, by decide⟩

theorem witness_misaligned_access : ∃ (s : State) (d a : GReg), s.usable [.rg a false, .wg d] ∧
    (s.effective a ((0#12).toInt * Size.h.bytes)).1 % Size.h.bytes ≠ 0 :=
  ⟨run [(5, 0xF000000000001)], 6, 5, usable_of (by decide) _, by decide⟩

/-- Ticks 125 to 140 of every scratchpad bank and of the special-function unit. -/
def bookedHolds : List Hold := ⟨2, 0, 0, 125, 140⟩ :: (List.range 32).map fun b => ⟨0x10 + b, 0, 0, 125, 140⟩

/-- A thread in booked mode whose booking holds them. -/
def bookedRun : State :=
  let k := coreOf { thrOf [] with st := .booked, slot := some 0 }
  let b : Booking := { Booking.reset with st := .started, serial := 1, start := 125, holds := bookedHolds }
  dev { k with almanac := { k.almanac with slots := k.almanac.slots.set 0 b } }

theorem bookedRun_bank {b tick : Nat} (hb : b < 32) (h1 : 125 ≤ tick) (h2 : tick ≤ 140) : bookedRun.resourceStop (0x10 + b) tick = none := by
  have hs : bookedRun.th.st = .booked := by decide
  have ho : bookedRun.me.ownHolds bookedRun.th (0x10 + b) tick = holdsTick bookedHolds (0x10 + b) tick := by
    have h : bookedRun.th.slot = some 0 := by decide
    have hh : (bookedRun.me.booking 0).holds = bookedHolds := by decide
    simp [Core.ownHolds, h, hh]
  have : holdsTick bookedHolds (0x10 + b) tick = true := by
    simp only [holdsTick, List.any_eq_true, bookedHolds]
    exact ⟨⟨0x10 + b, 0, 0, 125, 140⟩, by simp [hb], by simp [h1, h2]⟩
  simp [State.resourceStop, hs, ho, this]

/-- A booked thread too meets the hypotheses of the accesses to the thread's own scratchpad. -/
theorem witness_booked_access : bookedRun.memoryQuiet := by
  have hs : bookedRun.th.st = .booked := by decide
  have hd : (bookedRun.ctxOf bookedRun.me.ctx).dbg = false := by decide
  have ho : bookedRun.th.outs = [] := by decide
  have ha : bookedRun.th.acqAt = 0 := by decide
  have hr : bookedRun.th.relAt = 0 := by decide
  have hc : bookedRun.me.engine.copies = [] := by decide
  have hu : bookedRun.me.bankUses = [] := by decide
  refine ⟨?_, ?_, ?_, ?_⟩
  · intro rd wr va n; simp [State.watchStop, State.watchMask, hd]
  · intro va; simp [State.acquireStop, ho, ha]
  · intro ql va; simp [State.releaseStop, ho, hr, hc]
  · intro b c hb h1 h2
    have h1 : 1000 ≤ c := h1
    have h2 : c < 1064 := h2
    simp [State.bankStop, bookedRun_bank hb (tick := c / 8) (by omega) (by omega), hu]

theorem witness_float_lane_results : ∃ (s : State) (d a b : VReg), s.usable [.rv a Grp.octet.regs, .rv b Grp.octet.regs, .rv d Grp.octet.regs, .wv d Grp.octet.regs] :=
  ⟨run [], 24, 0, 0, usable_of (by decide) _⟩

theorem witness_integer_lane_results : ∃ (s : State) (d a b : VReg) (t : ElemTy), s.usable [.rv a Grp.pair.regs, .rv b Grp.pair.regs, .rv d Grp.pair.regs, .wv d Grp.pair.regs] ∧ t.isInt = true :=
  ⟨run [], 30, 0, 2, .n64, usable_of (by decide) _, by decide⟩

theorem witness_permute_results : ∃ (s : State) (d a b : VReg) (e h : GReg) (t : ElemTy), (t.isInt = true ∨ t.isFloat = true) ∧
    s.usable [.rv a Grp.quad.regs, .rv b Grp.quad.regs, .rv a (2 * Grp.quad.regs), .wv d (2 * Grp.quad.regs)] ∧
    s.usable [.rv a Grp.quad.regs, .rv b Grp.quad.regs, .rv d Grp.quad.regs, .wv d Grp.quad.regs, .rg e false, .rg h false, .wg e] :=
  ⟨run [(6, 2 ^ 64 - 1)], 24, 0, 8, 5, 6, .e5m2, .inr (by decide), usable_of (by decide) _, usable_of (by decide) _⟩

theorem witness_reduction_results : ∃ (s : State) (d a b : VReg), ElemTy.i8.isInt = true ∧ isVecFloat .bf16 = true ∧
    s.usable [.rv a Grp.single.regs, .rv b Grp.single.regs, .rv d Grp.single.regs, .wv d Grp.single.regs, .wv d 1] :=
  ⟨run [], 31, 0, 1, by decide, by decide, usable_of (by decide) _⟩

theorem witness_conversion_results : ∃ (s : State) (d a b : VReg), ElemTy.n8.isInt = true ∧ ElemTy.f16.isFloat = true ∧
    s.usable [.rv a (max 1 (512 * Grp.pair.regs / max 16 8 * 8 / 512)), .wv d (max 1 (512 * Grp.pair.regs / max 16 8 * 16 / 512))] ∧
    (s.usable [.rv a Grp.pair.regs, .rv b 1, .wv d (qRegs true (16 * Grp.pair.regs))] ∧ Grp.pair ≠ .single) ∧
    s.usable [.rv a (qRegs true (512 * Grp.pair.regs / 16)), .wv d Grp.pair.regs] ∧
    (s.usable [.rv a Grp.pair.regs, .wv d (max 1 (Grp.pair.regs / 2))] ∧ ElemTy.n8.bits = 8) ∧
    s.usable [.rv a (max 1 (Grp.pair.regs / 2)), .wv d Grp.pair.regs] :=
  ⟨run [], 30, 0, 4, by decide, by decide, usable_of (by decide) _, ⟨usable_of (by decide) _, by decide⟩,
   usable_of (by decide) _, ⟨usable_of (by decide) _, by decide⟩, usable_of (by decide) _⟩

theorem witness_special_functions : ∃ (s : State) (d a b : VReg), s.usable [.rv a Grp.octet.regs, .rv b Grp.octet.regs, .wv d Grp.octet.regs] ∧ s.th.st ≠ .booked ∧
    (s.me.sfu.ops.filter (·.started.isNone)).length < 8 :=
  ⟨run [], 24, 0, 8, usable_of (by decide) _, by decide, by decide⟩

theorem witness_special_functions_booked : ∃ (s : State) (d a b : VReg), s.usable [.rv a Grp.octet.regs, .rv b Grp.octet.regs, .wv d Grp.octet.regs] ∧ s.th.st = .booked ∧
    ∀ tick, s.cycle / 8 ≤ tick → tick ≤ (s.cycle + Grp.octet.regs - 1) / 8 → s.resourceStop 2 tick = none := by
  refine ⟨bookedRun, 24, 0, 8, usable_of (by decide) _, by decide, ?_⟩
  intro tick h1 h2
  have : tick = 125 := Nat.le_antisymm h2 h1
  subst this
  have hs : bookedRun.th.st = .booked := by decide
  have ho : bookedRun.me.ownHolds bookedRun.th 2 125 = true := by decide
  simp [State.resourceStop, hs, ho]

theorem witness_local_vector_access : ∃ (s : State) (d : VReg) (a : GReg) (w : Grp) (t : ElemTy) (sh : VecShape) (o : Nat), s.memoryQuiet ∧ vecShape d w t (s.readG a).toNat = .ok sh ∧ 0 < sh.n ∧ sh.n ≤ 64 * sh.regs ∧ sh.regs ≤ 8 ∧
    s.usable [.rg a false, .rv d sh.regs, .wv d sh.regs] ∧ s.me.sram.wf = true ∧ s.effective a ((0xFF#8).toInt * 64) = (localBase + o, false) ∧
    (localBase + o) % sh.align = 0 ∧ o + sh.n ≤ 0x100000 ∧ (∀ u, u < 256 → s.me.owner u = 0) ∧
    s.qualStop false .plain (localBase + o) o sh.n = none ∧ s.qualStop true .full (localBase + o) o sh.n = none :=
  ⟨run [(5, 0xF000000100000)], 8, 5, .single, .f32, ⟨64, 1, 4⟩, 0xFFFC0, calm_quiet (by decide), rfl, by decide,
   by decide, by decide, usable_of (by decide) _, by decide, by decide, by decide, by decide, fun u _ => owner_of_nil (by decide) u,
   by decide, by decide⟩

theorem gather_lane {s : State} {a : VReg} {b : GReg} (hv : s.readV a 1 = 0) (hg : (s.readG b).toNat = 0xF0000000FFFF8) (k : Nat) :
    ((s.readG b).toNat + laneOf (s.readV a 1) 32 k * 8) % 2 ^ 52 = localBase + 0xFFFF8 := by
  simp [hv, hg, laneOf, localBase]

theorem witness_gather_and_scatter : ∃ (s : State) (d a : VReg) (b : GReg) (o : Nat → Nat), s.memoryQuiet ∧ ElemTy.n64.bits = 64 ∧
    s.usable [.rg b false, .rv a 1, .rv d 2, .wv d 2] ∧ s.me.sram.wf = true ∧
    ∀ k, k < 16 → ((s.readG b).toNat + laneOf (s.readV a 1) 32 k * 8) % 2 ^ 52 = localBase + o k ∧ o k % 8 = 0 ∧
      o k < 0x100000 ∧ s.me.owner (o k / 4096) = 0 :=
  ⟨run [(5, 0xF0000000FFFF8)], 2, 0, 5, fun _ => 0xFFFF8, calm_quiet (by decide), by decide,
    usable_of (by decide) _, by decide,
    fun k _ => ⟨gather_lane (by decide) (by decide) k, Nat.mod_eq_zero_of_dvd ⟨0x1FFFF, rfl⟩, show 0xFFFF8 < 0x100000 by decide, owner_of_nil (by decide) _⟩⟩

/-! Matrix and trellis engines. -/

theorem witness_matrix_registers : ∃ (s : State) (d a : GReg), s.usable [.rg a false, .wg d] ∧
    (let u := (s.readG a).toNat
     let units := ((List.range 16).filter (bitOf u)).map (256 + ·)
     u < 2 ^ 19 ∧ bitsOf u 18 16 ≤ 4 ∧ u % 65536 ≠ 0 ∧ (∀ n ∈ units, s.me.owner n = 0 ∨ bitsOf u 18 16 = 0 ∨ s.me.owner n = bitsOf u 18 16) ∧
     (∀ n ∈ units, s.me.owner n ≠ bitsOf u 18 16 → s.me.quiet n = true) ∧ s.me.tidy) ∧
    (∀ n, n < 16 → s.me.owner (256 + n) < 8) ∧ ∀ x ∈ s.me.matrix.cmds, x.thr ≠ s.ct := by
  refine ⟨run [(5, 0x48001)], 6, 5, usable_of (by decide) _,
    ⟨by decide, by decide, by decide, by decide, by decide, tidy_of (by decide) (by decide) (by decide)⟩, ?_, by decide⟩
  intro n _; rw [owner_of_nil (by decide)]; decide

def anMma : MeOp := .mma 7 3 3 .sq .bf16 .bf16 true false false

/-- A command of thread 0 at the matrix engine. -/
def meCmd (op : MeOp) : MeCmd := ⟨1, 0, 5, op, 0x00010001, false, none, 0, 0, 0⟩

theorem witness_matrix_registers_drain : ∃ (s : State) (d a : GReg), s.usable [.rg a false, .wg d] ∧
    (∃ x ∈ s.me.matrix.cmds, x.thr = s.ct) ∧ s.th.st ≠ .booked :=
  ⟨onCore [] fun k => { k with matrix := { k.matrix with cmds := [meCmd (.accz 1)] } }, 6, 5, usable_of (by decide) _,
   by decide, by decide⟩

/-- The matrix engine owns the last tile of the scratchpad, the buffers ab3 and wb3 and the accumulator acc7; g5 and g6 as given. -/
def engineOwns (a b : Nat) (cmds : Nat) : State := onCore [(5, a), (6, b)] fun k =>
  { k with owners := [(255, 1), (259, 1), (263, 1), (271, 1)], matrix := { k.matrix with
      mg := k.matrix.mg.set 7 0x400000040000, cmds := List.replicate cmds { meCmd (.accz 0x80) with thr := 1 } } }

theorem witness_matrix_commands : ∃ (s : State) (a b : GReg), s.usable [.rg a false, .rg b false] ∧ s.th.st ≠ .booked ∧
    (∀ u ∈ anMma.units, s.me.owner u = 1) ∧
    geometryFault .sq .bf16 .bf16 false false (geoOf ((s.me.matrix.mg[(7#3).toNat]?).getD 0).toNat) = 0 ∧
    (s.me.matrix.cmds.filter (·.start.isNone)).length < 4 :=
  ⟨engineOwns 0 0 3, 5, 6, usable_of (by decide) _, by decide, by decide, by decide, by decide⟩

theorem witness_matrix_commands_full : ∃ (s : State) (a b : GReg), s.usable [.rg a false, .rg b false] ∧ s.th.st ≠ .booked ∧
    (s.readG a).toNat < 256 ∧ (s.readG a).toNat ≠ 0 ∧ (∀ u ∈ (MeOp.accz (s.readG a).toNat).units, s.me.owner u = 1) ∧
    4 ≤ (s.me.matrix.cmds.filter (·.start.isNone)).length :=
  ⟨engineOwns 0x80 0 4, 5, 6, usable_of (by decide) _, by decide, by decide, by decide, by decide, by decide⟩

theorem witness_matrix_commands_moves : ∃ (s : State) (a b : GReg), s.usable [.rg a false, .rg b false] ∧ s.th.st ≠ .booked ∧
    (let la := (s.readG a).toNat % 2 ^ 52
     let w := (s.readG b).toNat
     la % 64 = 0 ∧ isLocal la = true ∧ w < 2 ^ 15 ∧ bitOf w 7 = false ∧ bitsOf w 6 0 + bitsOf w 14 8 ≤ 127 ∧
     localOff la + (bitsOf w 14 8 + 1) * 128 * 4 ≤ 0x100000 ∧ ∀ u ∈ (MeOp.accst (localOff la) w .f32 7).units, s.me.owner u = 1) :=
  ⟨engineOwns 0xF0000000FFE00 0x7F 0, 5, 6, usable_of (by decide) _, by decide, by decide⟩

theorem witness_matrix_commands_loads : ∃ (s : State) (a b : GReg), s.usable [.rg a false, .rg b false] ∧ s.th.st ≠ .booked ∧
    (let la := (s.readG a).toNat % 2 ^ 52
     let w := (s.readG b).toNat
     la % 64 = 0 ∧ isLocal la = true ∧ w < 2 ^ 32 ∧ bitsOf w 31 16 % 64 = 0 ∧ bitsOf w 15 0 % 64 = 0 ∧ 64 ≤ bitsOf w 31 16 ∧
     bitsOf w 15 0 + bitsOf w 31 16 ≤ 0x8000 ∧ localOff la + bitsOf w 31 16 ≤ 0x100000 ∧
     (∀ u ∈ (MeOp.abld (localOff la) w 3).units, s.me.owner u = 1) ∧ ∀ u ∈ (MeOp.wbld (localOff la) w 3).units, s.me.owner u = 1) :=
  ⟨engineOwns 0xF0000000FFFC0 0x00407FC0 0, 5, 6, usable_of (by decide) _, by decide, by decide⟩

theorem witness_matrix_starts : ∃ (s : State) (m : MeCmd), s.onlyAt 0 (fun k => k.meWork) ∧ (s.coreAt 0).matrix.cmds = [m] ∧ m.start = none ∧
    (s.coreAt 0).matrix.throttle = 0 ∧ (s.coreAt 0).matrix.soft = [] ∧ (∀ tick, (s.coreAt 0).booked 1 tick = false) ∧
    (∀ b tick, (s.coreAt 0).booked (0x10 + b) tick = false) ∧ (s.coreAt 0).bankUses = [] :=
  ⟨onCore [] fun k => { k with matrix := { k.matrix with cmds := [meCmd anMma] } }, meCmd anMma, onlyAt_dev (by decide), by decide, by decide,
   by decide, by decide, fun _ => booked_of_idle (by decide) (by decide) _ _, fun _ _ => booked_of_idle (by decide) (by decide) _ _, by decide⟩

theorem witness_matrix_starts_memory : ∃ (mem : Memory) (la w r j : Nat), mem.wf = true ∧ la + bitsOf w 31 16 ≤ 0x100000 ∧ r ≤ bitsOf w 14 8 ∧
    j < 128 ∧ la + (bitsOf w 14 8 + 1) * 512 ≤ 0x100000 ∧ bitsOf w 6 0 + bitsOf w 14 8 ≤ 127 :=
  ⟨[], 0xF0000, 0x7F00, 127, 127, by decide, by decide, by decide, by decide, by decide, by decide⟩

/-- A device whose window register tw3 names one block of k = 2, f32 results, at the start of the scratchpad. -/
def windowed (l : List (Nat × Nat)) : State := onCore l fun k => { k with trellis := { k.trellis with tw := k.trellis.tw.set 3 ⟨0x1000000000, 0, 0⟩ } }

theorem owners_windowed (l : List (Nat × Nat)) (u : Nat) : (windowed l).me.owner u = 0 :=
  owner_of_nil (show (windowed l).me.owners = [] from rfl) u

theorem witness_trellis_instructions : ∃ (s : State) (d : VReg) (e a b : GReg) (bv : VReg) (x : TrellisWindow), s.memoryQuiet ∧
    (∀ u, s.me.owner u = 0) ∧ s.usable [.rg e false, .rg a false, .rg b false, .wg e, .rv bv 1, .wv d Grp.octet.regs, .wv d 1] ∧
    (let r := s.me.twReg (3#2).toNat
     windowOf (if r.at_ = s.cycle then r.prev.toNat else r.val.toNat) = some x) ∧
    (s.readG a).toNat < x.nblk ∧ x.at_ (s.readG a).toNat + trellisBytes x.k ≤ 0x100000 ∧
    ∀ i, i < 16 → (s.readG a).toNat + laneOf (s.readV bv 1) 32 i / 128 < x.nblk ∧
      x.at_ ((s.readG a).toNat + laneOf (s.readV bv 1) 32 i / 128) + trellisBytes x.k ≤ 0x100000 := by
  refine ⟨windowed [(6, 127)], 24, 7, 5, 6, 1, ⟨2, .f32, 1, 0⟩, calm_quiet (by decide), owners_windowed _,
    usable_of (by decide) _, by decide, by decide, by decide, ?_⟩
  have hv : (windowed [(6, 127)]).readV 1 1 = 0 := by decide
  have hg : ((windowed [(6, 127)]).readG 5).toNat = 0 := by decide
  rw [hv, hg]; intro i _
  simp only [laneOf, Nat.zero_div, Nat.zero_mod]; decide

theorem witness_trellis_instructions_tenc : ∃ (s : State) (e a b : GReg) (src dst : Nat), s.memoryQuiet ∧
    (∀ u, s.me.owner u = 0) ∧ s.usable [.rg e false, .rg a false, .rg b false, .wg e, .rv 1 1, .wv 24 Grp.octet.regs, .wv 24 1] ∧
    (let ctl := (s.readG b).toNat
     let j : TrellisJob := ⟨s.me.trellis.serial, s.ct, s.th.pc.toNat, src, dst, ctl, 0, 0, false, 0, s.cycle⟩
     s.th.st ≠ .booked ∧ (s.readG a).toNat % 2 ^ 52 = localBase + src ∧ (s.readG e).toNat % 2 ^ 52 = localBase + dst ∧ src % 64 = 0 ∧
     dst % 4 = 0 ∧ badEncWord ctl = false ∧ src + 512 * j.n ≤ 0x100000 ∧ dst + trellisBytes j.k * j.n ≤ 0x100000 ∧
     (src + 512 * j.n ≤ dst ∨ dst + trellisBytes j.k * j.n ≤ src)) ∧
    (∀ u, s.me.tileOn u = none) ∧ (s.me.trellis.jobs.filter fun x => !x.running).length < 4 ∧ ∀ j ∈ s.me.trellis.jobs, j.thr ≠ s.ct :=
  ⟨windowed [(5, 0xF0000000FFE00), (6, 0x20000), (7, 0xF0000000FFDEC)], 7, 5, 6, 0xFFE00, 0xFFDEC, calm_quiet (by decide),
   owners_windowed _, usable_of (by decide) _, by decide, tileOn_of (by decide), by decide, by decide⟩

/-- A job of one block, whose scale is automatic and whose record ends with its bank. -/
def job (blocks access : Nat) : TrellisJob := ⟨1, 0, 5, 0, 0x7FEC, 0x20000, blocks, 0, access != 0, access, 1000⟩

def jobbed (j : TrellisJob) : State := onCore [] fun k => { k with owners := [(0, 3), (7, 3)], trellis := { k.trellis with jobs := [j] } }

theorem witness_trellis_instructions_tencw : ∃ s : State, s.th.st ≠ .booked ∧ ∃ j ∈ s.me.trellis.jobs, j.thr = s.ct :=
  ⟨jobbed (job 0 0), by decide, by decide⟩

theorem jobbed_core (j : TrellisJob) : (jobbed j).onlyAt 0 (fun k => !k.trellis.jobs.isEmpty) ∧ ((jobbed j).coreAt 0).trellis.jobs = [j] ∧
    ((jobbed j).coreAt 0).tidy ∧ ((jobbed j).coreAt 0).preempt = .none ∧ ((jobbed j).coreAt 0).trellis.soft = false ∧
    ((jobbed j).coreAt 0).bankUses = [] ∧ ∀ b tick, ((jobbed j).coreAt 0).booked (0x10 + b) tick = false := by
  refine ⟨onlyAt_dev (by decide), ?_⟩
  rw [jobbed, onCore, coreAt_dev]
  exact ⟨rfl, ⟨⟨rfl, rfl⟩, show List.Pairwise (· < ·) [0, 7] by decide, show ∀ p ∈ [(0, 3), (7, 3)], p.2 ≤ 4 by decide⟩, rfl, rfl, rfl, fun _ _ => booked_of_idle rfl (show ∀ b ∈ Almanac.reset.slots.toList, b.live = false by decide) _ _⟩

/-- A job in each of its phases: its reads but the last, the last read, its write, its end. -/
theorem witness_encoder_jobs : ∃ s : Fin 4 → State, ∃ j : Fin 4 → TrellisJob,
    (∀ n, (s n).onlyAt 0 (fun k => !k.trellis.jobs.isEmpty) ∧ ((s n).coreAt 0).trellis.jobs = [j n] ∧ (j n).dueAt ≤ (s n).cycle ∧
      ((s n).coreAt 0).tidy ∧ ((s n).coreAt 0).preempt = .none ∧ ((s n).coreAt 0).trellis.soft = false ∧ ((s n).coreAt 0).bankUses = [] ∧
      ∀ b tick, ((s n).coreAt 0).booked (0x10 + b) tick = false) ∧
    ((j 0).blocks < (j 0).n ∧ (j 0).access < 7) ∧ ((j 1).blocks < (j 1).n ∧ (j 1).access = 7) ∧
    (let tgt := (j 2).dst + (j 2).blocks * trellisBytes (j 2).k
     (j 2).blocks < (j 2).n ∧ (j 2).access = 8 ∧ tgt / 0x8000 = (tgt + trellisBytes (j 2).k - 1) / 0x8000 ∧ tgt + trellisBytes (j 2).k ≤ 0x100000) ∧
    (j 3).n ≤ (j 3).blocks ∧ (j 3).thr < 4 :=
  let j (n : Fin 4) : TrellisJob := #v[job 0 6, job 0 7, job 0 8, job 1 0][n]
  have h : ∀ n, (j n).dueAt ≤ 1000 := by decide
  ⟨fun n => jobbed (j n), j, fun n => let ⟨h1, h2, h3, h4, h5, h6, h7⟩ := jobbed_core (j n)
    ⟨h1, h2, h n, h3, h4, h5, h6, h7⟩, by decide, by decide, by decide, by decide, by decide⟩

/-! The vault, migration and atomic accesses. -/

/-- A device whose bank 24 (that of the page at VA 0x10000) has a given state. -/
def banked (b : Bank) : State := onCore [(5, 0x10000)] fun k => { k with vault := { k.vault with banks := k.vault.banks.set 24 b } }

/-- No refresh window begins in the 28 cycles after cycle 1,000. -/
theorem banked_clear (b : Bank) {m : Nat} (hm : m ≤ 28) : ∀ c, (banked b).cycle ≤ c → c < (banked b).cycle + m →
    (banked b).me.vault.windowEnd (banked b).cc 24 c false = none := by
  intro c h1 h2
  have h1 : 1000 ≤ c := h1
  have h2 : c < 1000 + m := h2
  have hv : ∀ k : Fin 28, Vault.reset.windowEnd 0 24 (1000 + k) false = none := by decide
  have := hv ⟨c - 1000, by omega⟩
  rw [show 1000 + (c - 1000) = c by omega] at this
  exact this

/-- The bank with no row open, with the page's row open, and with another row open, and what both forms ask of it. -/
theorem witness_row_operations : ∃ (s₁ s₂ s₃ : State) (d a : GReg) (pa : Nat),
    (∀ s ∈ [s₁, s₂, s₃], s.noBookings ∧ s.usable [.rg a false, .wg d] ∧
      s.translate s.cc s.me.ctx ((s.readG a).toNat % 2 ^ 52) true false = .vault pa ∧ (s.me.vault.bank (vbank pa)).ops = [] ∧
      s.me.vault.accs = [] ∧ s.me.vault.powerAt ≤ s.cycle ∧ s.me.vault.repairOf (vbank pa) (vrow pa) = none ∧
      ∀ c, s.cycle ≤ c → c < s.cycle + 28 → s.me.vault.windowEnd s.cc (vbank pa) c false = none) ∧
    (s₁.me.vault.bank (vbank pa)).row = none ∧ (s₂.me.vault.bank (vbank pa)).row = some (vrow pa) ∧
    ((s₃.me.vault.bank (vbank pa)).row = some 8191 ∧ 8191 ≠ vrow pa ∧ (s₃.me.vault.bank (vbank pa)).actAt + 30 ≤ s₃.cycle) := by
  refine ⟨banked ⟨none, 0, []⟩, banked ⟨some 0, 999, []⟩, banked ⟨some 8191, 970, []⟩, 6, 5, 0x30000, ?_, by decide, by decide, by decide⟩
  intro s hs
  simp only [List.mem_cons, List.not_mem_nil, or_false] at hs
  rcases hs with rfl | rfl | rfl <;> exact ⟨calm_noBookings (by decide), usable_of (by decide) _, by decide, by decide, by decide,
    by decide, by decide, banked_clear _ (Nat.le_refl _)⟩

theorem witness_tile_moves : ∃ (s : State) (a b : GReg) (pa : Nat), s.memoryQuiet ∧ s.noBookings ∧ s.me.vault.rowErrs = [] ∧
    (∀ u, s.me.owner u = 0) ∧ s.usable [.rg a false, .rg b false] ∧
    (∀ store : Bool, let va := (s.readG a).toNat % 2 ^ 52; let la := (s.readG b).toNat % 2 ^ 52; let n := ((63#6).toNat + 1) * 512
      va % 512 = 0 ∧ la % 512 = 0 ∧ va / 65536 = (va + n - 1) / 65536 ∧ s.translate s.cc s.me.ctx va (!store) store = .vault pa ∧
      (tileTarget store la n).isSome) ∧ (s.th.outs.filter (·.tile)).length < 4 :=
  ⟨run [(5, 0x18000), (6, 0xF0000000F8000)], 5, 6, 0x38000, calm_quiet (by decide), calm_noBookings (by decide), by decide,
   fun u => owner_of_nil (by decide) u, usable_of (by decide) _, by decide, by decide⟩

/-- A thread with an access. -/
def withOuts (l : List Access) : State := onThread [] fun th => { th with outs := l }

theorem witness_tile_moves_vsync : ∃ s₁ s₂ : State, (∀ o ∈ s₁.th.outs, o.tile = false ∧ (o.kind = .vault → o.store = false)) ∧
    s₂.th.st ≠ .booked ∧ ∃ o ∈ s₂.th.outs, o.tile = true ∨ (o.kind = .vault ∧ o.store = true) :=
  ⟨withOuts [access .vault (.g 5)], withOuts [{ access .vault .none with store := true }], by decide,
   by decide, by decide⟩

/-- An access of thread 0 in one row, which may move its beat from a cycle on. -/
def anAcc (op : BeatOp) (n rdy lo moved : Nat) (readAt : Option Nat) : VaultAcc :=
  { id := 3, by_ := .thread 0, acc := 7, op := op, va := 0x10000, n := n, lo := lo, data := 0, cmp := 0,
    segs := [⟨24, 0, 0x30000, n, 0, rdy, moved, false, true⟩], limit := none, slip := 0, heldFor := none, abandoned := false, readAt := readAt, ended := none }

def accessing (a : VaultAcc) : State := dev
  (let k := coreOf { thrOf [] with outs := [access .vault (.g 31)] }
   { k with vault := { k.vault with accs := [a], banks := k.vault.banks.set 24 ⟨some 0, 0, []⟩ } })

/-- What every clause asks of the access, and the clauses' own conditions: a load, a store, an atomic before its read, at its write and
between, a tile's beats, and an access whose row is not ready. -/
theorem witness_vault_beats : ∃ (s : Fin 9 → State) (a : Fin 9 → VaultAcc) (g : Fin 9 → Seg),
    (∀ n, ((s n).coreAt 0).vault.accs = [a n] ∧ (a n).segs = [g n] ∧ (a n).by_ = .thread 0 ∧ (a n).abandoned = false ∧ (g n).held = false ∧
      (g n).off = 0 ∧ (g n).moved < (g n).n ∧ ((s n).coreAt 0).vault.badWords = [] ∧ ((s n).coreAt 0).vault.mem.wf = true ∧
      ((s n).coreAt 0).sram.wf = true ∧ (g n).bank < 32 ∧ (g n).ready = true ∧ (((s n).coreAt 0).vault.bank (g n).bank).row = some (g n).row) ∧
    (∀ n, n ≠ 8 → ((s n).coreAt 0).serves 0 (s n).cycle (g n).bank (a n) = true ∧ (g n).rdy + 10 ≤ (s n).cycle) ∧
    ((a 0).op = .load ∧ (a 0).readAt = none ∧ (a 0).data = 0 ∧
      ∃ o, ((((s 0).coreAt 0).thr 0).outs.find? (·.id == (a 0).acc)) = some o ∧ o.left = 1 ∧ o.data = 0 ∧ o.store = false ∧ o.bytes = (g 0).n ∧
        o.dest = .g 31 ∧ o.units = []) ∧
    ((a 1).op = .store ∧ (a 1).readAt = none) ∧ ((a 2).op = .fop .add 64 ∧ (a 2).readAt = none) ∧ ((a 3).op = .cas ∧ (a 3).readAt = some 998 ∧ 998 + 2 ≤ (s 3).cycle) ∧
    ((a 4).op = .cas ∧ (a 4).readAt = some 999 ∧ (s 4).cycle < 999 + 2) ∧
    ((a 5).op = .tileLoad ∧ (a 5).lo + (g 5).moved < 0x100000 ∧ ((s 5).coreAt 0).beatBank (s 5).cycle (bankOf ((a 5).lo + (g 5).moved)) (a 5) = true ∧
      (g 5).moved + 64 = (g 5).n) ∧
    ((a 6).op = .tileStore ∧ 0x100000 ≤ (a 6).lo + (g 6).moved ∧ (g 6).moved + 512 < (g 6).n) ∧
    ((a 7).op = .tileLoad ∧ 0x100000 ≤ (a 7).lo + (g 7).moved ∧ (g 7).moved + 512 = (g 7).n) ∧ (s 8).cycle < (g 8).rdy + 10 :=
  let a (n : Fin 9) : VaultAcc := #v[anAcc .load 8 990 0 0 none, anAcc .store 8 990 0 0 none, anAcc (.fop .add 64) 8 990 0 0 none,
    anAcc .cas 8 990 0 0 (some 998), anAcc .cas 8 990 0 0 (some 999), anAcc .tileLoad 512 990 0xFFE00 448 none,
    anAcc .tileStore 1024 990 0x200000 0 none, anAcc .tileLoad 1024 990 0x110000 512 none, anAcc .load 8 991 0 0 none][n]
  ⟨fun n => accessing (a n), a, fun n => ((a n).segs[0]?).getD ⟨0, 0, 0, 0, 0, 0, 0, false, true⟩, by decide, by decide, by decide, by decide, by decide,
   by decide, by decide, by decide, by decide, by decide, by decide⟩

/-- A vault in hot mode, in retention, or with rows and lanes to repair, at a cycle. -/
def vaulted (c : Nat) (f : Vault → Vault) : State := { onCore [] (fun k => { k with vault := f k.vault }) with cycle := c }

theorem witness_vault_upkeep : ∃ s₁ s₂ s₃ : State,
    (phi 0 ≤ s₁.cycle ∧ (s₁.cycle - phi 0) % 400 = 0 ∧ (s₁.coreAt 0).vault.power ≠ .retention) ∧
    (200 + phi 0 ≤ s₂.cycle + 64 ∧ (s₂.cycle + 64 - 200 - phi 0) % 400 = 0 ∧ (s₂.coreAt 0).vault.hot = true ∧ (s₂.coreAt 0).vault.power ≠ .retention) ∧
    (s₃.coreAt 0).vault.power = .retention :=
  ⟨vaulted 0 id, vaulted 136 fun v => { v with hot := true }, vaulted 5 fun v => { v with power := .retention }, by decide, by decide, by decide⟩

theorem witness_vault_upkeep_rows : ∃ (s₁ s₂ : State) (r₁ r₂ : RowErr), (∀ p ∈ [(s₁, r₁), (s₂, r₂)], p.1.onlyAt 0 (fun k => !k.vault.rowErrs.isEmpty) ∧
      (p.1.coreAt 0).vault.rowErrs = [p.2]) ∧ (r₁.scheduled = true ∧ r₁.remapAt = none ∧ (s₁.coreAt 0).vault.accs = []) ∧ r₂.remapAt = some s₂.cycle := by
  refine ⟨vaulted 1000 fun v => { v with rowErrs := [⟨31, 8191, 2, true, none, false⟩] }, vaulted 1000 fun v => { v with rowErrs := [⟨31, 8191, 2, true, some 1000, false⟩] },
    ⟨31, 8191, 2, true, none, false⟩, ⟨31, 8191, 2, true, some 1000, false⟩, ?_, by decide, by decide⟩
  intro p hp
  simp only [List.mem_cons, List.not_mem_nil, or_false] at hp
  rcases hp with rfl | rfl <;> exact ⟨onlyAt_dev (by decide), by decide⟩

theorem witness_vault_upkeep_lanes : ∃ (s₁ s₂ : State), (s₁.onlyAt 0 (fun k => !k.vault.laneRepairs.isEmpty) ∧ (s₁.coreAt 0).vault.laneRepairs = [(5, 0, none)] ∧
      ∀ i, ((s₁.coreAt 0).booking i).live = false) ∧
    s₂.onlyAt 0 (fun k => !k.vault.laneRepairs.isEmpty) ∧ (s₂.coreAt 0).vault.laneRepairs = [(5, 0, some 600)] ∧ 600 + 400 ≤ s₂.cycle ∧ (s₂.coreAt 0).ctx = 0 := by
  refine ⟨vaulted 1000 fun v => { v with laneRepairs := [(5, 0, none)] },
    dev { Core.reset with vault := { Vault.reset with laneRepairs := [(5, 0, some 600)] } }, ⟨onlyAt_dev (by decide), by decide, fun i => ?_⟩,
    onlyAt_dev (by decide), by decide, by decide, by decide⟩
  rcases booking_mem ((vaulted 1000 fun v => { v with laneRepairs := [(5, 0, none)] }).coreAt 0) i with h | h
  · rw [h]; rfl
  · exact (show ∀ b ∈ Almanac.reset.slots.toList, b.live = false by decide) _ h

theorem witness_page_migration : ∃ (s : State) (d a b : GReg) (l : LeafAt), s.usable [.rg a false, .rg b false, .wg d] ∧
    isLocal ((s.readG a).toNat % 2 ^ 52) = false ∧ s.leaf s.me.ctx ((s.readG a).toNat % 2 ^ 52) = some l :=
  ⟨run [(5, 0x1FFFF), (6, 0x100)], 7, 5, 6, ⟨leafOf 1 0 0x30000, 0x22008, 16⟩, usable_of (by decide) _, by decide, by decide⟩

theorem witness_page_migration_traps : ∃ (s₁ s₂ : State) (d a b : GReg), (∀ s ∈ [s₁, s₂], s.usable [.rg a false, .rg b false, .wg d]) ∧
    isLocal ((s₁.readG a).toNat % 2 ^ 52) = true ∧ isLocal ((s₂.readG a).toNat % 2 ^ 52) = false ∧ s₂.leaf s₂.me.ctx ((s₂.readG a).toNat % 2 ^ 52) = none := by
  refine ⟨run [(5, 0xF000000000000)], run [(5, 0x40000)], 7, 5, 6, fun s hs => ?_, by decide, by decide, by decide⟩
  simp only [List.mem_cons, List.not_mem_nil, or_false] at hs
  rcases hs with rfl | rfl <;> exact usable_of (by decide) _

/-- A move to off-stack memory that is first in the queue, with core 0's vault pinned by a booking or not. -/
def moving (pin : Bool) : State :=
  let m : Move := ⟨1, 0x10000, 0x22008, none, 0, 0, false, 7, 0, false, [], none⟩
  let k := coreOf (thrOf [])
  let b : Booking := { Booking.reset with st := .made, start := 200, holds := [⟨0x5F, 0, 0, 200, 200⟩] }
  { dev (if pin then { k with almanac := { k.almanac with slots := k.almanac.slots.set 15 b } } else k) with
    helm := { Helm.reset with moves := [m] }, ctxs := [{ ctx1 with poolFree := [6] }] }

theorem witness_page_migration_start : ∃ (s : Bool → State) (m : Move) (l : LeafAt), (∀ b, (s b).helm.moves = [m] ∧ m.moving = false ∧
      (s b).leaf m.ctx m.va = some l ∧ bitsOf l.entry 62 61 ≤ 1 ∧ bitsOf l.entry 60 59 ≤ 1 ∧ bitOf l.entry 56 = false ∧ vaultOf l.entry ≠ m.toVault ∧
      (s b).offstack.wf = true ∧ (s b).pinned (vaultOf l.entry) m.toVault = b) ∧ (s false).freeFrames m.ctx m.toVault (2 ^ (l.log - 16)) = some 6 :=
  ⟨moving, ⟨1, 0x10000, 0x22008, none, 0, 0, false, 7, 0, false, [], none⟩, ⟨leafOf 1 0 0x30000, 0x22008, 16⟩, by decide, by decide⟩

theorem witness_page_migration_complete : ∃ (s : State) (m : Move), s.helm.moves = [m] ∧ m.moving = true ∧ vaultOf m.source.toNat = none ∧
    vaultOf m.dest.toNat = some 255 ∧ s.offstack.wf = true ∧ (s.coreAt 255).vault.mem.wf = true :=
  ⟨{ run [] with helm := { Helm.reset with moves := [⟨1, 0x20000, 0x22010, some 255, BitVec.ofNat 64 (leafOf 0 0 0x50000),
      BitVec.ofNat 64 (leafOf 1 255 0x7FFF0000), true, 7, 0, false, [], none⟩] } },
   ⟨1, 0x20000, 0x22010, some 255, BitVec.ofNat 64 (leafOf 0 0 0x50000), BitVec.ofNat 64 (leafOf 1 255 0x7FFF0000), true, 7, 0, false, [], none⟩, by decide, by decide, by decide,
   by decide, by decide, by decide⟩

theorem witness_atomic_accesses : ∃ (s₁ s₂ s₃ : State) (d a b : GReg), (∀ s ∈ [s₁, s₂, s₃], s.th.pred always = true ∧ s.memoryQuiet ∧
      s.usable [.rg a true, .rg b true, .wg d, .rg d false] ∧ s.me.sram.wf = true) ∧ OpSize.w.bytes = 4 ∧
    (∃ o, (s₁.readG a).toNat % 2 ^ 52 = localBase + o ∧ o % 4 = 0 ∧ o < 0x100000 ∧ s₁.me.owner (o / 4096) = 0) ∧
    (∃ pa, s₂.translate s₂.cc s₂.me.ctx ((s₂.readG a).toNat % 2 ^ 52) true true = .vault pa ∧ (s₂.readG a).toNat % 2 ^ 52 % 4 = 0 ∧ s₂.noBookings ∧
      s₂.me.vault.rowErrs = []) ∧ (s₃.readG a).toNat % 2 ^ 52 % 4 ≠ 0 := by
  refine ⟨run [(5, 0xF0000000FFFFC)], run [(5, 0x10000)], run [(5, 0x10003)], 6, 5, 7, fun s hs => ?_, by decide, ⟨0xFFFFC, by decide, by decide, by decide, by decide⟩,
    ⟨0x30000, by decide, by decide, calm_noBookings (by decide), by decide⟩, by decide⟩
  simp only [List.mem_cons, List.not_mem_nil, or_false] at hs
  rcases hs with rfl | rfl | rfl <;> exact ⟨by decide, calm_quiet (by decide), usable_of (by decide) _, by decide⟩

/-! Copies, streams and requests. -/

/-- A copy descriptor: one row of 16 f32 elements from one tile of the scratchpad to another. -/
def copyDesc : Nat := 0xF000000001000 + 0xF000000002000 * 2 ^ 64 + 2 ^ 128 + 16 * 2 ^ 160 + 64 * 2 ^ 192 + 64 * 2 ^ 224 + 8 * 2 ^ 256 + 8 * 2 ^ 264

/-- A stream descriptor: one unit of the page at VA 0x10000 on channel 15, into a ring of one unit at the end of a tile. -/
def streamDesc : Nat := 0x10000 + 2 ^ 64 + 2 ^ 96 + 2 ^ 128 + 2 ^ 160 + 15 * 2 ^ 320 + 2 ^ 336 + 0x2FC0 * 2 ^ 352

/-- A stream bound to channel 15 and register s7 by thread 0. -/
def aStream (write : Bool) (taken drained : Nat) (present : List (Nat × Nat)) : Stream :=
  { uid := 1, thr := 0, sreg := 7, pc := 9, base := 0x10000, cnt := [2, 1, 1, 1], str := [64, 0, 0, 0], write := write, elastic := false, fe := false, depth := 1,
    ring := 0x2FC0, slip := 0, readyAt := 1000, requested := 0, requestAt := [], present := present, taken := taken, drained := drained, failed := none,
    tiles := [2], arrived := [] }

/-- A copy of thread 0 on channel 15. -/
def aCopy (st : CopySt) : Copy := { (copyOf copyDesc).1 with idx := 511, serial := 65535, chan := 15, st := st, tiles := [1, 2] }

/-- A device whose engine has streams and copies, with a descriptor at the end of the scratchpad. -/
def streaming (desc : Nat) (g6 : Nat) (streams : List (Nat × Stream)) (copies : List Copy) : State := onCore [(5, 0xF0000000FFFC0), (6, g6)] fun k =>
  { k with sram := memSetN [] 0xFFFC0 64 desc, engine := { k.engine with streams := streams, copies := copies } }

theorem witness_copies_and_streams : ∃ (s₁ s₂ s₃ : State) (d a : GReg) (o : Nat), (∀ s ∈ [s₁, s₂, s₃], s.memoryQuiet ∧ s.th.st ≠ .booked ∧
      s.usable [.rg a false, .wg d] ∧ (s.readG a).toNat % 2 ^ 52 = localBase + o ∧ o % 64 = 0 ∧ o < 0x100000 ∧ (∀ u, s.me.owner u = 0) ∧
      (∀ u, s.me.tileOn u = none) ∧ s.me.engine.copies.length < 512 ∧ s.me.engine.streams = [] ∧
      (s.me.engine.streams.find? fun p => p.2.thr == s.ct && p.2.sreg == 7) = none) ∧
    (copyOf (memGetN s₁.me.sram o 64)).2 = none ∧ (streamOf (memGetN s₁.me.sram o 64)).isNone ∧ (copyOf (memGetN s₂.me.sram o 64)).2 = some 16 ∧
    (streamOf (memGetN s₃.me.sram o 64)).isSome := by
  refine ⟨streaming copyDesc 0 [] [], streaming (copyDesc - 2 ^ 128) 0 [] [], streaming streamDesc 0 [] [], 7, 5, 0xFFFC0, fun s hs => ?_, by decide, by decide,
    by decide, by decide⟩
  simp only [List.mem_cons, List.not_mem_nil, or_false] at hs
  rcases hs with rfl | rfl | rfl <;>
    exact ⟨calm_quiet (by decide), by decide, usable_of (by decide) _, by decide, by decide, by decide,
      fun u => owner_of_nil (by decide) u, fun u => tileOn_of (by decide) u, by decide, by decide, by decide⟩

/-- Whether the general registers of the running thread are full and ready. -/
theorem usableG_of {s : State} (h : (List.range 32).all (fun n => (s.th.greg n).st == .full && decide ((s.th.greg n).ready ≤ s.cycle)) = true)
    (a b : GReg) (e : Bool) : s.usable [.rg a e, .wg b] := by
  simp only [List.all_eq_true, List.mem_range, Bool.and_eq_true, beq_iff_eq, decide_eq_true_eq] at h
  intro u hu
  simp only [List.mem_cons, List.not_mem_nil, or_false] at hu
  rcases hu with rfl | rfl
  · exact h a.toNat a.isLt
  · exact h b.toNat b.isLt

/-- A bound stream, with an append that is not drained or with none; a live copy and one that is done, on the channel asked for. -/
theorem witness_copies_and_streams_bound : ∃ (s₁ s₂ : State) (d a : GReg), (∀ s ∈ [s₁, s₂], s.th.st ≠ .booked ∧ s.usable [.rg a false, .wg d]) ∧
    (∃ ch y, (s₁.me.engine.streams.find? fun p => p.2.thr == s₁.ct && p.2.sreg == 7) = some (ch, y) ∧ y.failed = none ∧ y.write = true ∧ y.drained < y.taken) ∧
    (∃ ch y, (s₂.me.engine.streams.find? fun p => p.2.thr == s₂.ct && p.2.sreg == 7) = some (ch, y) ∧ y.failed = none ∧ y.taken ≤ y.drained) ∧
    (s₁.readG a).toNat < 2 ^ 25 ∧
    (∃ z, (s₁.me.engine.copies.find? fun z => z.idx == (s₁.readG a).toNat % 512 && z.serial == (s₁.readG a).toNat / 512 % 65536) = some z ∧
      z.st ≠ .done ∧ z.st ≠ .failed) ∧
    (∀ z ∈ s₂.me.engine.copies, z.idx = (s₂.readG a).toNat % 512 → z.st = .done ∨ z.st = .failed) := by
  refine ⟨streaming 0 0x1FFFFFF [(15, aStream true 1 0 [])] [aCopy .running], streaming 0 0x1FFFFFF [(15, aStream true 1 1 [])] [aCopy .done], 7, 6,
    fun s hs => ?_, ⟨15, aStream true 1 0 [], by decide⟩, ⟨15, aStream true 1 1 [], by decide⟩, by decide, ⟨aCopy .running, by decide⟩, by decide⟩
  simp only [List.mem_cons, List.not_mem_nil, or_false] at hs
  rcases hs with rfl | rfl <;> exact ⟨by decide, usableG_of (by decide) _ _ _⟩

theorem witness_copies_and_streams_channels : ∃ (s₁ s₂ : State) (a : GReg), 15 < (s₁.readG a).toNat ∧ (s₂.readG a).toNat ≤ 15 ∧
    (∀ p ∈ s₂.me.engine.parks, p.va < 2 ^ 52) ∧ ∀ p ∈ s₂.me.engine.streams, p.2.sreg < 8 :=
  ⟨streaming 0 16 [] [], streaming 0 15 [(15, aStream true 0 0 [])] [], 6, by decide, by decide, by decide, by decide⟩

/-- A stream to read whose next unit is present and served, one whose unit is not there, and one that is used up; a stream to write with room, without,
and used up. -/
theorem witness_stream_registers : ∃ (s : Fin 6 → State) (x : Fin 6 → Stream),
    (∀ n, (s n).memoryQuiet ∧ (s n).th.st ≠ .booked ∧ (x n).failed = none ∧ (s n).me.sram.wf = true ∧
      (s n).me.aliasOf (s n).ct (31#5).toNat = some (15, x n) ∧ (s n).usable [.wv 1 1] ∧ (s n).usable [.rv 1 1]) ∧
    ((x 0).write = false ∧ (x 0).taken < (x 0).units ∧ (x 0).served (s 0).cycle = true) ∧
    ((x 1).write = false ∧ (x 1).taken < (x 1).units ∧ (x 1).served (s 1).cycle = false) ∧ ((x 2).write = false ∧ (x 2).units ≤ (x 2).taken) ∧
    ((x 3).write = true ∧ (x 3).taken < (x 3).units ∧ (x 3).taken < (x 3).drained + (x 3).depth) ∧
    ((x 4).write = true ∧ (x 4).taken < (x 4).units ∧ (x 4).drained + (x 4).depth ≤ (x 4).taken) ∧ (x 5).write = true ∧ (x 5).units ≤ (x 5).taken := by
  let x (n : Fin 6) : Stream := #v[aStream false 1 0 [(1, 999)], aStream false 1 0 [(1, 1000)], aStream false 2 0 [], aStream true 1 1 [],
    aStream true 1 0 [], aStream true 2 2 []][n]
  have hu (n : Fin 6) (r : Bool) : (streaming 0 0 [(15, x n)] []).usable [if r then .rv 1 1 else .wv 1 1] := by
    have h : ∀ n : Fin 6, (streaming 0 0 [(15, x n)] []).me.aliasOf (streaming 0 0 [(15, x n)] []).ct 1 = none ∧
      ((streaming 0 0 [(15, x n)] []).th.vreg 1).st = .full ∧ ((streaming 0 0 [(15, x n)] []).th.vreg 1).ready ≤ (streaming 0 0 [(15, x n)] []).cycle := by decide
    have hv : (streaming 0 0 [(15, x n)] []).vReady 1 1 := by
      intro i hi; obtain rfl : i = 0 := by omega
      exact h n
    intro u hu; cases r <;> simp at hu <;> subst hu <;> exact hv
  refine ⟨fun n => streaming 0 0 [(15, x n)] [], x, fun n => ⟨calm_quiet ?_, ?_, ?_, ?_, ?_, hu n false, hu n true⟩, by decide, by decide, by decide, by decide,
    by decide, by decide⟩ <;> revert n <;> decide

/-- A read stream whose next unit lies in the scratchpad, and one whose next unit lies in the vault. -/
theorem witness_stream_engine_events : ∃ (s : Bool → State) (x : Bool → Stream),
    (∀ b, (s b).onlyAt 0 (fun k => k.engineWork) ∧ ((s b).coreAt 0).engine.streams = [(15, x b)] ∧ ((s b).coreAt 0).engine.copies = [] ∧
      ((s b).coreAt 0).engine.parks = [] ∧ ((s b).coreAt 0).preempt = .none ∧ (x b).write = false ∧ (x b).fe = false ∧ (x b).failed = none ∧
      (x b).readyAt ≤ (s b).cycle ∧ (x b).requested < min (x b).units ((x b).taken + (x b).depth) ∧
      (∀ n, ((s b).coreAt 0).engineBank (s b).cycle 15 n = true) ∧ ((s b).coreAt 0).sram.wf = true) ∧
    ((x true).unitVa (x true).requested = localBase + 0xFFFC0 ∧ (x true).ring + 64 * ((x true).requested % (x true).depth) + 64 ≤ 0x100000) ∧
    (s false).translate 0 ((s false).coreAt 0).ctx ((x false).unitVa (x false).requested) true false = .vault 0x30000 ∧
    ((s false).coreAt 0).engineRow (s false).cycle 15 (segsFrom 2 0x30000 64 0) = true := by
  let x (b : Bool) : Stream := { aStream false 0 0 [] with base := if b then 0xF0000000FFFC0 else 0x10000 }
  refine ⟨fun b => streaming 0 0 [(15, x b)] [], x, fun b => ⟨onlyAt_dev (by decide), ?_, ?_, ?_, ?_, ?_, ?_, ?_, ?_, ?_, fun n => ?_, ?_⟩, by decide, by decide, by decide⟩
  case refine_10 =>
    have h : ∀ b, ((streaming 0 0 [(15, x b)] []).coreAt 0).channelSlot 1000 15 = none ∧ ((streaming 0 0 [(15, x b)] []).coreAt 0).bankUses = [] ∧
        ((streaming 0 0 [(15, x b)] []).coreAt 0).almanac.kept = [] ∧
        ∀ y ∈ ((streaming 0 0 [(15, x b)] []).coreAt 0).almanac.slots.toList, y.live = false := by decide
    have hb := booked_of_idle (h b).2.2.1 (h b).2.2.2
    rw [show (streaming 0 0 [(15, x b)] []).cycle = 1000 from rfl]
    simp [Core.engineBank, hb, (h b).1, (h b).2.1]
  all_goals revert b; decide

theorem witness_stream_engine_events_copies : ∃ (s : State) (x : Copy), (s.coreAt 0).engine.copies = [x] ∧ (s.coreAt 0).engine.streams = [] ∧
    (s.coreAt 0).tidy ∧ x.thr < 4 :=
  ⟨streaming 0 0 [] [aCopy .running], aCopy .running, by decide, by decide, tidy_of (by decide) (by decide) (by decide), by decide⟩

/-- g5 an address, g6 a target word, g8 an `amsg` word. -/
def sending (va tw w n : Nat) : State := onThread [(5, va), (6, tw), (8, w)] fun th => { th with outs := List.replicate n (access .remote .none) }

theorem witness_remote_requests : ∃ (s₁ s₂ : State) (d a b : BitVec 5), (∀ s ∈ [s₁, s₂], s.usable [.rg a false, .rg b false, .rg d false, .wg d, .rg (d + 1) false, .rv d 1, .wv d 1] ∧ s.me.net.replay = none ∧ (s.readG b).toNat < 2 ^ 18 ∧
      (s.readG a).toNat % 2 ^ 52 % RemSize.v.bytes = 0 ∧ targetOf (s.readG b).toNat = .core 255 ∧ 255 ≠ s.cc ∧ s.th.st ≠ .booked) ∧
    (s₁.th.outs.filter (·.kind == .remote)).length < 64 ∧ 64 ≤ (s₂.th.outs.filter (·.kind == .remote)).length := by
  refine ⟨sending 0xF000000000FC0 0x3FFFF 0 63, sending 0xF000000000FC0 0x3FFFF 0 64, 10, 5, 6, fun s hs => ?_, by decide, by decide⟩
  simp only [List.mem_cons, List.not_mem_nil, or_false] at hs
  rcases hs with rfl | rfl <;> exact ⟨usable_of (by decide) _, by decide, by decide, by decide, by decide, by decide, by decide⟩

theorem witness_remote_requests_words : ∃ (s₁ s₂ s₃ : State) (d a b : BitVec 5), (∀ s ∈ [s₁, s₂, s₃], s.usable [.rg a false, .rg b false, .rg d false, .wg d, .rg (d + 1) false, .rv d 1, .wv d 1] ∧ s.me.net.replay = none) ∧
    (2 ^ 18 ≤ (s₁.readG b).toNat ∧ (s₁.readG a).toNat % 2 ^ 52 % OpSize.d.bytes ≠ 0) ∧
    ((s₂.readG a).toNat < 2 ^ 34 ∧ bitsOf (s₂.readG a).toNat 15 14 = 0 ∧ targetOf ((s₂.readG a).toNat / 2 ^ 16) = .core 255) ∧ bitsOf (s₃.readG a).toNat 15 14 ≠ 0 := by
  refine ⟨sending 0x10004 0x40000 0 0, sending 0x3FFFF3FFF 0 0 0, sending 0x3FFFF4000 0 0 0, 10, 5, 6, fun s hs => ?_, by decide, by decide, by decide⟩
  simp only [List.mem_cons, List.not_mem_nil, or_false] at hs
  rcases hs with rfl | rfl | rfl <;> exact ⟨usable_of (by decide) _, by decide⟩

theorem witness_messages_and_status : ∃ (s₁ s₂ : State) (d : VReg) (a : GReg), (∀ s ∈ [s₁, s₂], s.usable [.wv d 1, .wg a]) ∧
    s₁.me.agent.messages = [⟨1, 2⟩] ∧ s₂.me.agent.messages = [] ∧ s₂.th.st ≠ .booked := by
  refine ⟨onCore [] fun k => { k with agent := { k.agent with messages := [⟨1, 2⟩] } }, run [], 31, 0, fun s hs => ?_, by decide, by decide, by decide⟩
  simp only [List.mem_cons, List.not_mem_nil, or_false] at hs
  rcases hs with rfl | rfl <;> exact usable_of (by decide) _

/-- A request of thread 0 of core 1. -/
def aReq (op : ReqOp) (addr n : Nat) : Req := ⟨.thread 1 0 4, 1, 1, 0, .core 0, op, addr, n, 0, 0⟩

/-- A core whose first window lets context 1 do everything in the scratchpad, or no window, with a request at its agent. -/
def agented (open_ : Bool) (r : Req) : State := onCore [] fun k => { k with agent := { k.agent with
  queue := [⟨r, 1000, none, none, false, false⟩], windows := if open_ then k.agent.windows.set 0 (0xF000000000000, 0xF000000100000, 0x1009F) else k.agent.windows } }

theorem witness_agent_requests : ∃ (s : Fin 5 → State) (r : Fin 5 → Req),
    (∀ n, (s n).onlyAt 0 (fun k => !k.agent.queue.isEmpty || !k.agent.retry.isEmpty) ∧ ((s n).coreAt 0).agent.queue = [⟨r n, 1000, none, none, false, false⟩] ∧
      ((s n).coreAt 0).agent.retry = [] ∧ 1000 ≤ (s n).cycle ∧ ((s n).coreAt 0).agent.lastAct < (s n).cycle ∧ ((s n).coreAt 0).net.replay = none ∧
      (r n).thr ≠ 9 ∧ (r n).ret = .thread 1 0 4 ∧ ((s n).coreAt 0).sram.wf = true) ∧
    (∀ n : Fin 5, n < 3 → (s n).admission 0 (r n) = .loc 0xFFFF8 ∧ 0xFFFF8 + (r n).n ≤ 0x100000 ∧ ((s n).coreAt 0).owner (0xFFFF8 / 4096) = 0 ∧
      ((s n).coreAt 0).bankUses = [] ∧ ∀ b tick, ((s n).coreAt 0).booked (0x10 + b) tick = false) ∧
    ((r 0).op = .get ∧ (r 1).op = .put ∧ (r 2).op = .fop .add 64) ∧ ((s 3).admission 0 (r 3) = .refuse 1 ∧ (r 3).op ≠ .amsg) ∧
    ((s 4).admission 0 (r 4) = .accept ∧ (r 4).op = .msend ∧ ((s 4).coreAt 0).agent.messages.length < 32) := by
  let r (n : Fin 5) : Req := #v[aReq .get 0xF0000000FFFF8 8, aReq .put 0xF0000000FFFF8 8, aReq (.fop .add 64) 0xF0000000FFFF8 8, aReq .get 0xF0000000FFFF8 8,
    aReq .msend 0 64][n]
  refine ⟨fun n => agented (n != 3) (r n), r, fun n => ⟨onlyAt_dev (by decide), ?_, ?_, ?_, ?_, ?_, ?_, ?_, ?_⟩,
    fun n hn => ⟨?_, ?_, ?_, ?_, fun b tick => booked_of_idle ?_ ?_ _ _⟩, by decide, by decide, by decide⟩ <;> revert n <;> decide

theorem witness_answers_and_offstack : ∃ (s : State) (o : Access), (s.coreAt 0).net.replay = none ∧ ((s.coreAt 0).thr 0).outs = [o] ∧
    ((s.coreAt 0).thr 0).imaged = none ∧ o.left = 1 ∧ o.data = 0 ∧ o.store = false ∧ o.dest = .g 31 ∧ o.kind = .remote ∧ o.signed = false ∧ o.det0 = 0 :=
  ⟨withOuts [access .remote (.g 31)], access .remote (.g 31), by decide, by decide, by decide, by decide, by decide, by decide, by decide, by decide, by decide, by decide⟩

theorem witness_answers_and_offstack_queue : ∃ (s : State) (q : OffAcc), s.offQueues[15]? = some [q] ∧ s.offstack.wf = true ∧ q.req.op = .cas ∧
    q.req.ret = .thread 1 0 4 :=
  ⟨{ run [] with offQueues := State.reset.offQueues.set 15 [⟨aReq .cas 0x5F000 8, 990⟩] }, ⟨aReq .cas 0x5F000 8, 990⟩, by decide, by decide, by decide, by decide⟩

/-- A core with an idle thread, one without, and one for which a launch waits. -/
theorem witness_launches : ∃ s₁ s₂ s₃ : State, s₁.idleThread 0 = some (3 : Fin 4).val ∧ s₂.idleThread 0 = none ∧
    (s₃.idleThread 0 = some (1 : Fin 4).val ∧ (s₃.coreAt 0).agent.launches = [⟨5, 1, 2, 1, none⟩] ∧ s₃.onlyAt 0 (fun k => !k.agent.launches.isEmpty)) :=
  ⟨onCore [] fun k => { k with threads := #v[thrOf [], thrOf [], thrOf [], Thread.reset] }, onCore [] fun k => { k with threads := Vector.replicate 4 (thrOf []) },
   onCore [] fun k => { k with agent := { k.agent with launches := [⟨5, 1, 2, 1, none⟩] } }, by decide, by decide, by decide, by decide, onlyAt_dev (by decide)⟩

/-! Ordering, events and barriers. -/

/-- g5 to g7 hold words, and thread 0 has some accesses under way. -/
def ordered (a b d : Nat) (outs : List Access) : State := onThread [(5, a), (6, b), (7, d)] fun th => { th with outs := outs }

theorem witness_fences_and_owners : ∃ (s₁ s₂ : State) (a b d : GReg), (∀ s ∈ [s₁, s₂], s.usable [.rg a false, .rg b false, .wg d] ∧
      s.th.poisonStop = none ∧ s.th.refusalStop = none ∧ s.th.st ≠ .booked) ∧
    (let w := (s₁.readG a).toNat
     let q := rectOf w
     w < 2 ^ 16 ∧ q.x0 ≤ q.x1 ∧ q.y0 ≤ q.y1 ∧ (∃ p, s₁.myPart = some p ∧ q.within p.rect = true) ∧ s₁.fenceWaits .rect q true true true = false ∧
     (∀ o ∈ s₁.th.outs, (o.kind = .tile → false = true) ∧ (o.kind = .vault ∨ o.kind = .off → false = true)) ∧ s₁.me.engine.copies = [] ∧ s₁.me.engine.streams = []) ∧
    s₂.fenceWaits .thread (rectOf 0) false true false = true ∧ (∃ o ∈ s₂.th.outs, o.kind = .vault) ∧ 2 ^ 16 ≤ (s₂.readG a).toNat := by
  refine ⟨ordered 0x1100 0 0 [], ordered 0x10000 0 0 [access .vault (.g 8)], 5, 6, 7, fun s hs => ?_, ⟨by decide, by decide, by decide, ⟨part0, by decide⟩,
    by decide, by decide, by decide, by decide⟩, by decide, ⟨access .vault (.g 8), by decide⟩, by decide⟩
  simp only [List.mem_cons, List.not_mem_nil, or_false] at hs
  rcases hs with rfl | rfl <;> exact ⟨usable_of (by decide) _, by decide, by decide, by decide⟩

theorem witness_fences_and_owners_refusal : ∃ (s : State) (x : Refused) (rest : List Refused), s.usable [.rg 5 false, .rg 6 false, .wg 7] ∧
    s.th.poisonStop = none ∧ s.th.since = none ∧ s.th.refusals = x :: rest :=
  ⟨onThread [] fun th => { th with refusals := [⟨true, 1, 2, 3⟩] }, ⟨true, 1, 2, 3⟩, [], usable_of (by decide) _, by decide, by decide,
   by decide⟩

/-- The last tile of the scratchpad, given to the agent. -/
theorem witness_fences_and_owners_flip : ∃ (s : State) (a b d : GReg), s.usable [.rg a false, .rg b false, .wg d] ∧
    (let va := (s.readG a).toNat % 2 ^ 52
     let v := (s.readG b).toNat
     let n := v % 2 ^ 9
     let tgt := bitsOf v 18 16
     va % 4096 = 0 ∧ localBase ≤ va ∧ va + 4096 * n ≤ localBase + 0x100000 ∧ v < 2 ^ 19 ∧ bitsOf v 15 9 = 0 ∧ n ≠ 0 ∧ n ≤ 256 ∧ tgt = 4 ∧
     ∀ u ∈ (List.range n).map ((va - localBase) / 4096 + ·), s.me.owner u = 0 ∧ s.me.quiet u = true) ∧
    ∃ t : State, t.flips = [(255, 255, 4)] ∧ (t.coreAt 255).tidy :=
  ⟨ordered 0xF0000000FF000 0x40001 0 [], 5, 6, 7, usable_of (by decide) _, by decide,
   { run [] with flips := [(255, 255, 4)] }, by decide, tidy_of (by decide) (by decide) (by decide)⟩

theorem witness_events_and_signals : ∃ s : Fin 5 → State, (∀ n, (s n).usable [.rg 5 false, .rg 6 false, .wg 7] ∧ (s n).me.net.replay = none ∧
      (s n).th.st ≠ .booked) ∧
    (let m (n : Fin 5) := ((s n).readG 5).toNat
     let due (n : Fin 5) := ((s n).readG 6).toNat
     let e (n : Fin 5) := ((s n).th.evpend ||| (if bitOf (m n) 6 = true ∧ due n ≤ (s n).cycle then 0x40 else 0)) &&& (s n).readG 5
     (m 0 ≠ 0 ∧ m 0 < 2 ^ 7 ∧ e 0 ≠ 0) ∧ (m 1 ≠ 0 ∧ m 1 < 2 ^ 7 ∧ e 1 = 0 ∧ bitOf (m 1) 6 = true) ∧ m 2 = 0 ∧
     (m 3 < 2 ^ 18 ∧ bitsOf (m 3) 17 8 = 0x3FF ∧ due 3 ≠ 0 ∧ due 3 < 16 ∧ (∃ p, (s 3).myPart = some p ∧ p.rect.has (m 3 % 256) = true) ∧ m 3 % 256 ≠ (s 3).cc) ∧
     2 ^ 18 ≤ m 4) := by
  let g (n : Fin 5) : Nat × Nat := #v[(0x7F, 1000), (0x7F, 1001), (0, 0), (0x3FF11, 15), (0x40000, 1)][n]
  refine ⟨fun n => ordered (g n).1 (g n).2 0 [], fun n => ⟨usable_of ?_ _, ?_, ?_⟩, by decide, by decide, by decide,
    ⟨by decide, by decide, by decide, by decide, ⟨part0, by decide⟩, by decide⟩, by decide⟩ <;> revert n <;> decide

/-- A device whose group 7 is as given, where thread 0 has words for its instruction and may be owed a completion. -/
def atGroup (w rw : Nat) (x : Option Group) (owed : Option (Nat × Nat)) : State :=
  let s := onThread [(5, w), (6, rw), (7, 9)] fun th => { th with owed := owed }
  { s with parts := s.parts.set 0 (some { part0 with groups := part0.groups.set 7 x }) }

/-- A group of threads 0 over all four cores, with who has issued. -/
def aGroup (k : GroupKind) (op : Nat) (issued : List Issuer) : Group := ⟨k, ⟨0, 0, 1, 1⟩, 1, false, op, issued, [], none⟩

theorem witness_barriers_join : ∃ (s : Fin 6 → State) (p : Nat) (q : Fin 6 → Partition),
    (∀ n, (s n).usable [.rg 5 false, .rg 6 false, .rg 7 false] ∧ (s n).th.st ≠ .booked ∧ (s n).th.poisonStop = none ∧ (s n).th.refusalStop = none ∧
      (s n).me.net.replay = none ∧ (s n).partOf (s n).cc = some p ∧ (s n).partAt p = some (q n)) ∧
    (let w (n : Fin 6) := ((s n).readG 5).toNat
     let rw (n : Fin 6) := ((s n).readG 6).toNat
     let g (n : Fin 6) := w n % 8
     let ok (k : GroupKind) (n : Fin 6) : Prop := (s n).badControl k (w n) (rw n) = false ∧ (s n).rectValid (rw n) = true ∧ (rectOf (rw n)).has (s n).cc = true
     (∀ k, (s 0).badControl k (w 0) (rw 0) = true) ∧ (∀ k, (s 1).badControl k (w 1) (rw 1) = false ∧ (s 1).rectValid (rw 1) = false) ∧
     (∀ k, ok k 2 ∧ (q 2).group (g 2) = none ∧ (s 2).th.owed = none) ∧
     (ok .redm 3 ∧ ∃ x, (q 3).group (g 3) = some x ∧ x.kind ≠ .redm) ∧
     (ok .redm 4 ∧ ∃ x, (q 4).group (g 4) = some x ∧ x.kind = .redm ∧ x.rect = rectOf (rw 4) ∧ x.tmask = bitsOf (w 4) 7 4 ∧ x.dom = bitOf (w 4) 8 ∧
       x.op = bitsOf (w 4) 15 12 ∧ ∀ y ∈ x.issued, ¬ (y.ctx = (s 4).me.ctx ∧ y.core = (s 4).cc ∧ y.thr = (s 4).ct)) ∧
     (∀ k, ok k 5 ∧ (q 5).group (g 5) = none ∧ ∃ v, (s 5).th.owed = some (g 5, v))) := by
  let a (n : Fin 6) : Nat × Nat := #v[(0x10017, 0x1100), (0x17, 1), (0x17, 0x1100), (0x8017, 0x1100), (0x8017, 0x1100), (0x17, 0x1100)][n]
  let x (n : Fin 6) : Option Group := #v[none, none, none, some (aGroup .bar 0 []), some (aGroup .redm 8 [⟨1, 17, 0, 5⟩]), none][n]
  let o (n : Fin 6) : Option (Nat × Nat) := #v[none, none, none, none, none, some (7, 2 ^ 64 - 1)][n]
  have hk (P : GroupKind → Prop) (h1 : P .sstep) (h2 : P .bar) (h3 : P .redm) : ∀ k, P k := fun k => by cases k <;> assumption
  refine ⟨fun n => atGroup (a n).1 (a n).2 (x n) (o n), 0, fun n => { part0 with groups := part0.groups.set 7 (x n) },
    fun n => ⟨usable_of ?_ _, ?_, ?_, ?_, ?_, ?_, ?_⟩, hk _ (by decide) (by decide) (by decide), hk _ (by decide) (by decide) (by decide),
    hk _ (by decide) (by decide) (by decide), ⟨by decide, aGroup .bar 0 [], by decide⟩, ⟨by decide, aGroup .redm 8 [⟨1, 17, 0, 5⟩], by decide⟩,
    hk _ ⟨by decide, by decide, 2 ^ 64 - 1, by decide⟩ ⟨by decide, by decide, 2 ^ 64 - 1, by decide⟩ ⟨by decide, by decide, 2 ^ 64 - 1, by decide⟩⟩ <;>
    revert n <;> decide

theorem partAt_dev (k : Core) (q : Partition) (p : Nat) : ({ dev k with parts := State.reset.parts.set 0 (some q) } : State).partAt p =
    if p = 0 then some q else none := by
  simp only [State.partAt, State.reset, Vector.getElem?_set]
  split
  · next h => subst h; simp
  · next h =>
    rw [if_neg (Ne.symm h)]
    by_cases hp : p < 16 <;> simp [hp]

/-- A device where thread 0 of core 0 waits at group 7. -/
def atBarrier (x : Group) (outs : List Access) : State :=
  { dev (coreOf { thrOf [] with block := .barrier 0 7 (.g 31), outs := outs }) with
      parts := State.reset.parts.set 0 (some { part0 with groups := part0.groups.set 7 (some x) }) }

theorem witness_barrier_events : ∃ (s : Fin 3 → State) (q : Fin 3 → Partition) (x : Fin 3 → Group),
    (∀ n, (s n).partAt 0 = some (q n) ∧ (q n).group 7 = some (x n) ∧ (∀ y ∈ (x n).arrived, y.1 ≠ 0) ∧ (s n).allIssued 0 0 7 (x n) = true ∧ (x n).dom = false) ∧
    ((s 0).coreAt 0).arrives (x 0) = false ∧
    (((s 1).coreAt 0).arrives (x 1) = true ∧ ∀ n ∈ (x 1).rect.cores, n = 0 ∨ ∃ y ∈ (x 1).arrived, y.1 = n) ∧
    (((s 2).coreAt 0).arrives (x 2) = true ∧ ∃ n ∈ (x 2).rect.cores, n ≠ 0 ∧ ∀ y ∈ (x 2).arrived, y.1 ≠ n) := by
  let x (n : Fin 3) : Group := { aGroup .bar 0 [⟨1, 0, 0, 0⟩] with arrived := if n = 1 then [(1, 9), (16, 10), (17, 11)] else [(1, 9), (16, 10)] }
  let o (n : Fin 3) : List Access := if n = 0 then [access .vault .none] else []
  refine ⟨fun n => atBarrier (x n) (o n), fun n => { part0 with groups := part0.groups.set 7 (some (x n)) }, x, fun n => ⟨?_, ?_, ?_, ?_, ?_⟩, by decide,
    by decide, by decide, 17, by decide⟩ <;> revert n <;> decide

theorem witness_barrier_events_release : ∃ (s : State) (q : Partition) (x : Group), s.partAt 0 = some q ∧ q.group 7 = some x ∧ x.releaseAt = some 1000 ∧
    1000 ≤ s.cycle ∧ x.issued = [⟨(s.coreAt 0).ctx, 0, 0, 2 ^ 64 - 1⟩] ∧ x.issued.length ≤ 1024 ∧ (∀ i ∈ x.issued, i.value < 2 ^ 64) ∧ x.op = 0 ∧
    x.dom = false ∧ q.ssStop = false ∧
    (∀ p' g' q' y, s.partAt p' = some q' → q'.group g' = some y → (p', g') ≠ (0, 7) → y.releaseAt = none) ∧
    ((s.coreAt 0).thr 0).block = .barrier 0 7 (.g 31) ∧ s.steps 0 0 = false ∧ q.imbring = 0 ∧
    ∀ k, bitOf (s.coreAt k).dbgctl.toNat 1 = false ∧ ∀ e ∈ (s.coreAt k).agent.queue ++ (s.coreAt k).agent.retry, e.req.thr ≠ 9 := by
  let x : Group := { aGroup .redm 0 [⟨1, 0, 0, 2 ^ 64 - 1⟩] with releaseAt := some 1000 }
  let q : Partition := { part0 with groups := part0.groups.set 7 (some x) }
  refine ⟨atBarrier x [], q, x, by decide, by decide, by decide, by decide, by decide, by decide, by decide, by decide, by decide, by decide, ?_, by decide, by decide, by decide, ?_⟩
  · intro p' g' q' y h1 h2 h3
    rw [atBarrier, partAt_dev] at h1
    split at h1
    · next hp =>
      obtain rfl : q = q' := by simpa using h1
      have hg : g' ≠ 7 := fun hg => h3 (by simp [hp, hg])
      have : q.group g' = none := by
        simp only [Partition.group, q, part0, Vector.getElem?_set]
        rw [if_neg (Ne.symm hg)]
        by_cases h : g' < 8 <;> simp [h]
      rw [this] at h2; cases h2
    · cases h1
  · intro k
    by_cases hk : k = 0
    · subst hk; decide
    · show bitOf ((dev _).coreAt k).dbgctl.toNat 1 = false ∧ ∀ e ∈ ((dev _).coreAt k).agent.queue ++ ((dev _).coreAt k).agent.retry, e.req.thr ≠ 9
      rw [coreAt_dev_ne _ hk]; decide

/-! The Almanac and tasks. -/

/-- A device with a booking list of one entry in the last 16 bytes of the scratchpad; the vault port is closed where asked. -/
def listed (head entry : Nat) (closed : Bool) : State := onCore [(5, 0xF0000000FFFF0), (6, 0)] fun k =>
  { k with sram := memSetN (memSetN [] 0xFFFF0 8 head) 0xFFFF8 8 entry,
           vault := { k.vault with windows := if closed then [⟨none, 0, 10 ^ 6⟩] else [] } }

/-- An entry of one tick of a row. -/
def oneTick (code : Nat) : Nat := code * 2 ^ 56 + 2 ^ 36 + 2 ^ 28

theorem witness_booking_requests : ∃ s : Fin 3 → State, (∀ n, (s n).memoryQuiet ∧ (s n).th.st ≠ .booked ∧ (∀ u, (s n).me.owner u = 0) ∧
      (s n).usable [.rg 5 false, .rg 6 false, .wg 31] ∧ (s n).me.almanac.busyUntil ≤ (s n).cycle ∧ (s n).me.almanac.commit = none ∧
      (s n).me.almanac.reading = none ∧ (s n).me.bankUses = [] ∧ (∀ b tick, (s n).me.booked (0x10 + b) tick = false) ∧
      ((s n).readG 5).toNat % 2 ^ 52 = localBase + 0xFFFF0 ∧ headCount (memGetN (s n).me.sram 0xFFFF0 8) = 1) ∧
    (let ws (n : Fin 3) := (List.range 2).map fun i => memGetN (s n).me.sram (0xFFFF0 + 8 * i) 8
     let part (n : Fin 3) := ((s n).myPart.map (·.rect)).getD ⟨1, 1, 0, 0⟩
     let holds (n : Fin 3) := placeList 0 0 false 0 (ws n)
     let start (n : Fin 3) := (s n).findStart 0 none (holds n) noBound 70 (8 * ceilDiv ((s n).cycle + 18 + 8) 64)
     listStatus 0 (part 0) 0 0 false (ws 0) = some (3, 0) ∧
     (listStatus 0 (part 1) 0 0 false (ws 1) = none ∧ start 1 = none ∧ ∀ h ∈ holds 1, h.code ≠ 0x60) ∧
     (listStatus 0 (part 2) 0 0 false (ws 2) = none ∧ start 2 = some 136 ∧ (∀ h ∈ holds 2, h.code ≠ 0x60) ∧
      ((List.range 16).find? fun i => ((s 2).me.booking i).st == .free || ((s 2).me.booking i).st == .lapsed) = some 0)) := by
  have hc : ∀ n : Fin 3, calm (listed (if n = 0 then 1 else 1 + 2 ^ 16) (oneTick 3) (n != 2)) = true := by decide
  refine ⟨fun n => listed (if n = 0 then 1 else 1 + 2 ^ 16) (oneTick 3) (n != 2), fun n => ⟨calm_quiet (hc n), ?_,
    fun u => owner_of_nil ?_ u, usable_of ?_ _, ?_, ?_, ?_, ?_, fun b => calm_booked (hc n) _, ?_, ?_⟩, by decide, by decide, by decide⟩ <;> clear hc <;> revert n <;> decide

/-- A device with a booking in slot 15, of serial 255, whose handle g5 holds. -/
def bookedAs (b : Booking) (thread : ThreadSt) : State :=
  let k := coreOf { thrOf [(5, 15 * 2 ^ 56 + 255 * 2 ^ 48), (6, 0)] with st := thread, slot := if thread == .run then none else some 15 }
  dev { k with almanac := { k.almanac with slots := k.almanac.slots.set 15 { b with serial := 255 } } }

theorem witness_booking_operations : ∃ s : Fin 5 → State, (∀ n, (s n).usable [.rg 5 false, .rg 6 false, .wg 31] ∧ (s n).th.st ≠ .booked ∧
      (s n).me.almanac.busyUntil ≤ (s n).cycle ∧ (s n).me.almanac.commit = none ∧ (s n).me.almanac.reading = none) ∧
    (s 0).me.handleSlot ((s 0).readG 5).toNat = none ∧ (∀ n : Fin 5, n ≠ 0 → (s n).me.handleSlot ((s n).readG 5).toNat = some 15) ∧
    ((s 1).me.booking 15).st = .made ∧ ((s 2).me.booking 15).st = .armed ∧ ((s 3).me.booking 15).st = .started ∧ ((s 4).me.booking 15).st = .lapsed ∧
    (∀ h ∈ ((s 1).me.booking 15).holds, h.code ≠ 0x60) ∧ rowCode (((s 0).readG 6).toNat % 256 + 0x5F) = true := by
  let st (n : Fin 5) : BookSt := #v[BookSt.free, .made, .armed, .started, .lapsed][n]
  refine ⟨fun n => bookedAs { Booking.reset with st := st n, start := 300, list := [2 ^ 32], holds := [⟨3, 0, 0, 300, 307⟩] } .run,
    fun n => ⟨usable_of ?_ _, ?_, ?_, ?_, ?_⟩, by decide, by decide, by decide, by decide, by decide, by decide, by decide, by decide⟩ <;>
    revert n <;> decide

theorem witness_booking_operations_done : ∃ s : State, s.th.st = .booked ∧ s.th.slot = some 15 :=
  ⟨bookedAs { Booking.reset with st := .started } .booked, by decide, by decide⟩

theorem witness_booking_events : ∃ s₁ s₂ : State,
    (((s₁.coreAt 0).thr 0).st = .armed ∧ ((s₁.coreAt 0).thr 0).slot = some 15 ∧ ((s₁.coreAt 0).booking 15).st = .armed ∧
     8 * ((s₁.coreAt 0).booking 15).start + ((s₁.coreAt 0).booking 15).kappa - ((s₁.coreAt 0).booking 15).k0 ≤ s₁.cycle ∧
     ∀ m, m ≠ (0 : Fin 4).val → ((s₁.coreAt 0).thr m).slot ≠ some 15) ∧
    (((s₂.coreAt 0).booking 15).st = .made ∧ 8 * ((s₂.coreAt 0).booking 15).start ≤ s₂.cycle ∧ ((s₂.coreAt 0).booking 15).maker = 0 ∧
     ((s₂.coreAt 0).thr 0).st ≠ .idle) := by
  refine ⟨bookedAs { Booking.reset with st := .armed, start := 112, kappa := 104 } .armed, bookedAs { Booking.reset with st := .made, start := 125 } .run,
    ⟨by decide, by decide, by decide, by decide, fun m hm => ?_⟩, by decide⟩
  by_cases h : m < 4
  · have : ∀ m, m < 4 → m ≠ 0 → (((bookedAs { Booking.reset with st := .armed, start := 112, kappa := 104 } .armed).coreAt 0).thr m).slot ≠ some 15 := by decide
    exact this m h hm
  · have (k : Core) : k.thr m = Thread.reset := by unfold Core.thr; rw [Vector.getElem?_eq_none (by omega)]; rfl
    rw [this]; decide

/-- A link commit of core 0, on its second attempt. -/
def aCommit : Commit := ⟨0, .g 31, .make, 15, { Booking.reset with start := 136, list := [1], holds := [⟨3, 0, 0, 0, 6⟩] }, 136, 10, 1, false, 1000, 0⟩

/-- A device with that commit, with the links given. -/
def committing (links : List LinkUse) : State :=
  let k := coreOf { thrOf [] with block := .link (.g 31) }
  { dev { k with almanac := { k.almanac with commit := some aCommit } } with links := links }

theorem witness_booking_events_links : ∃ (s₁ s₂ : State) (h : LinkHold) (cm : Commit), h.core < 256 ∧ (s₁.coreAt h.core).almanac.commit = some cm ∧
    (s₂.coreAt h.core).almanac.commit = some cm ∧
    (∃ l ∈ s₁.links, (l.core ≠ h.core ∨ (l.committed = true ∧ some l.slot ≠ cm.own)) ∧ l.node = h.node ∧ l.dir = h.dir ∧ l.first ≤ h.tick + h.len - 1 ∧ h.tick ≤ l.last) ∧
    (∀ l ∈ s₂.links, ¬ ((l.core ≠ h.core ∨ (l.committed = true ∧ some l.slot ≠ cm.own)) ∧ l.node = h.node ∧ l.dir = h.dir ∧ l.first ≤ h.tick + h.len - 1 ∧
      h.tick ≤ l.last)) :=
  ⟨committing [⟨0, 1, 139, 150, 1, 0, true⟩], committing [⟨0, 1, 140, 150, 1, 0, true⟩], ⟨0, 0, 1, 136, 4⟩, aCommit, by decide, by decide, by decide,
   ⟨⟨0, 1, 139, 150, 1, 0, true⟩, by decide⟩, by decide⟩

theorem witness_booking_events_commit : ∃ (s : State) (c : Fin 256) (n : Fin 4) (cm : Commit), s.onlyAt c (fun k => k.almanac.commit.isSome) ∧
    (s.coreAt c).almanac.commit = some cm ∧ cm.pending = 0 ∧ cm.due ≤ s.cycle ∧ cm.failed = false ∧ cm.why = .make ∧ cm.slot < 16 ∧ cm.thr = n.val ∧
    (s.cycle < 8 * cm.booking.start ∧ ∀ h ∈ holdsAt cm.booking.start cm.booking.holds, h.code ≠ 0x60 → s.holdFits c none h = true) ∧
    ((s.coreAt c).thr n).block = .link cm.d ∧ s.steps c n = false ∧ s.helm.moves = [] :=
  ⟨committing [⟨0, 1, 139, 150, 0, 15, false⟩], 0, 0, aCommit, fun x hx => by
     show ((dev _).coreAt x).almanac.commit.isSome = false; rw [coreAt_dev_ne _ hx]; rfl, by decide, by decide, by decide, by decide, by decide, by decide, by decide, by decide,
   by decide, by decide, by decide⟩

/-- A device whose Almanac is to look for earlier starts. -/
def compacting (st : BookSt) (busy : Nat) : State :=
  let b : Booking := { Booking.reset with st := st, start := 296, list := [2 ^ 32], holds := [⟨3, 0, 0, 300, 300⟩] }
  onCore [] fun k => { k with almanac := { k.almanac with dirty := some 999, busyUntil := busy, slots := k.almanac.slots.set 15 b } }

theorem witness_booking_events_compaction : ∃ s : Fin 3 → State, (∀ n, (s n).onlyAt 0 (fun k => k.almanac.dirty.isSome) ∧ ((s n).coreAt 0).almanac.dirty = some 999) ∧
    ((s 0).coreAt 0).almanacBusy (s 0).cycle = true ∧
    (((s 1).coreAt 0).almanacBusy (s 1).cycle = false ∧ ∀ i, i < 16 → (((s 1).coreAt 0).booking i).st ≠ .made ∧ (((s 1).coreAt 0).booking i).st ≠ .armed) ∧
    (((s 2).coreAt 0).almanacBusy (s 2).cycle = false ∧
     (∀ j, j < 16 → j ≠ 15 → (((s 2).coreAt 0).booking j).st ≠ .made ∧ (((s 2).coreAt 0).booking j).st ≠ .armed) ∧
     (let b := ((s 2).coreAt 0).booking 15
      let rel := b.holds.map fun h => { h with first := h.first - b.start, last := h.last - b.start }
      b.st = .made ∧ bitOf (b.list.headD 0) 32 = true ∧ (∀ h ∈ b.holds, h.code ≠ 0x60) ∧
      (s 2).findStart 0 (some 15) rel b.start 70 (8 * ceilDiv (8 * ((s 2).tick + 8)) 64) = some 136)) := by
  refine ⟨fun n => compacting (if n = 2 then .made else .lapsed) (if n = 0 then 1001 else 1000), fun n => ⟨onlyAt_dev (by decide), ?_⟩, by decide, by decide, by decide⟩
  revert n; decide

/-- A task record. -/
def aTask (flags lo hi join : Nat) : TaskRec := ⟨0x3FFF, flags, 4, lo, hi, 1, 2, 0, join, 0⟩

/-- A device with a task record in the last block of the scratchpad and a queue. -/
def tasked (r : TaskRec) (recs : List TaskRec) (acked : Bool) : State := onCore [(5, 0xF0000000FFFC0)] fun k =>
  { k with sram := memSetN [] 0xFFFC0 64 (taskWord r), tasks := { k.tasks with recs := recs, acked := acked } }

theorem witness_task_operations : ∃ s : Fin 4 → State, (∀ n, (s n).memoryQuiet ∧ (s n).th.st ≠ .booked ∧ (∀ u, (s n).me.owner u = 0) ∧
      (s n).usable [.rg 5 false, .wg 31] ∧ (s n).me.sram.wf = true ∧ ((s n).readG 5).toNat % 2 ^ 52 = localBase + 0xFFFC0 ∧ (s n).me.queueLocked = false ∧
      (∀ x, x ∈ (s n).me.almanac.reading → x.forTake = false)) ∧
    (let r (n : Fin 4) := taskOf (memGetN (s n).me.sram 0xFFFC0 64)
     ((s 0).me.tasks.recs = [] ∧ bitOf (r 0).join 63 = false ∧ badRecord (((s 0).myPart.map (·.rect)).getD ⟨1, 1, 0, 0⟩) (r 0) = false ∧ (r 0).hi ≠ (r 0).lo ∧
       (s 0).me.tasks.acked = false) ∧
     (∃ q b, (s 1).me.tasks.recs = q ++ [b] ∧ b.blist = 0 ∧ b.grain < taskLen b ∧ (s 1).me.spawnRoom ≤ (s 1).me.tasks.recs.length ∧ (s 1).me.tasks.acked = true) ∧
     (bitOf (r 1).join 63 = true ∧ bitsOf (r 1).join 27 20 = 0) ∧
     (bitOf (r 2).join 63 = true ∧ bitsOf (r 2).join 27 20 = 17 ∧ ((s 2).th.outs.filter (·.kind == .remote)).length < 64 ∧ (s 2).me.net.replay = none) ∧
     ((s 3).me.tasks.acked = true ∧ (s 3).me.tasks.recs = [] ∧ (s 3).me.net.replay = none ∧ (s 3).ringAfter (s 3).cc = [1, 16, 17])) := by
  let full : List TaskRec := List.replicate 63 (aTask 0 0 8 0) ++ [aTask 0 (2 ^ 64 - 4) 4 0]
  let r (n : Fin 4) : TaskRec := #v[aTask 0 0 5 0, aTask 0 0 5 (2 ^ 63 + 0xFFFF8), aTask 0 0 5 (2 ^ 63 + 17 * 2 ^ 20), aTask 0 0 5 0][n]
  let s (n : Fin 4) : State := tasked (r n) (if n = 1 then full else []) (n != 0)
  have hc : ∀ n, calm (s n) = true := by decide
  refine ⟨s, fun n => ⟨calm_quiet (hc n), ?_, fun u => owner_of_nil ?_ u, usable_of ?_ _, ?_, ?_, ?_, ?_⟩, by decide,
    ⟨List.replicate 63 (aTask 0 0 8 0), aTask 0 (2 ^ 64 - 4) 4 0, by decide, by decide, by decide, by decide, by decide⟩, by decide, by decide, by decide⟩ <;>
    clear hc <;> revert n <;> decide

/-- A device without contexts whose core 0 has a queue, and a thread that may wait in a `seek`. -/
def queued (recs : List TaskRec) (block : Block) : State :=
  dev { coreOf { thrOf [] with block := block } with ctx := 0, tasks := { TaskQ.reset with recs := recs, asked := [(0, 1)] } }

theorem witness_task_events : ∃ s : Fin 5 → State, (∀ n, ((s n).coreAt 0).queueLocked = false ∧ ((s n).coreAt 0).net.replay = none ∧
      ((s n).coreAt 0).ctx = ((s n).coreAt 255).ctx ∧ ((s n).coreAt 0).tasks.recs ≠ []) ∧
    (let top (n : Fin 5) := (((s n).coreAt 0).tasks.recs).headD (aTask 0 0 0 0)
     bitOf (top 0).flags 0 = true ∧ (bitOf (top 1).flags 0 = false ∧ bitOf (top 1).flags 1 = false ∧ 2 * (top 1).grain ≤ taskLen (top 1)) ∧
     (bitOf (top 2).flags 0 = false ∧ taskLen (top 2) < 2 * (top 2).grain ∧ ((s 2).coreAt 0).tasks.recs.tail ≠ []) ∧
     (bitOf (top 3).flags 0 = false ∧ bitOf (top 3).flags 1 = true ∧ ((s 3).coreAt 0).tasks.recs.tail ≠ []) ∧
     (bitOf (top 4).flags 0 = false ∧ bitOf (top 4).flags 1 = true ∧ ((s 4).coreAt 0).tasks.recs.tail = [])) := by
  let q (n : Fin 5) : List TaskRec := #v[[aTask 1 0 8 0], [aTask 0 0 8 0], [aTask 0 0 7 0, aTask 0 0 8 0], [aTask 2 0 8 0, aTask 0 0 8 0], [aTask 2 0 8 0]][n]
  refine ⟨fun n => queued (q n) .none, fun n => ⟨?_, ?_, ?_, ?_⟩, by decide, by decide, by decide, by decide, by decide⟩ <;> revert n <;> decide

theorem witness_task_events_seek : ∃ (s₁ s₂ : State) (d : Dest), (∀ s ∈ [s₁, s₂], (s.coreAt 0).net.replay = none ∧
      ((s.coreAt 0).thr 0).block = .seek d [16] 1 ∧ s.steps 0 0 = false ∧ (s.coreAt 0).tasks.asked = [((0 : Fin 4).val, 1)] ∧ (s.coreAt 0).queueLocked = false) ∧
    (s₁.coreAt 0).tasks.recs ≠ [] ∧ (s₂.coreAt 0).tasks.recs = [] :=
  ⟨queued [aTask 0 0 8 0] (.seek (.g 31) [16] 1), queued [] (.seek (.g 31) [16] 1), .g 31, by decide, by decide, by decide⟩

/-- A device without contexts whose core c, idle for termination, holds the token. -/
def tokenAt (c : Fin 256) : State :=
  { dev Core.reset with cores := State.reset.cores.set c { Core.reset with tasks := { TaskQ.reset with token := true, acked := true } } }

theorem coreAt_tokenAt {c : Fin 256} {x : Nat} (h : x ≠ c) : (tokenAt c).coreAt x = Core.reset := by
  simp only [tokenAt, State.coreAt, State.reset]
  rw [Vector.getElem?_set_ne _ h.symm]
  by_cases hx : x < 256 <;> simp [hx]

theorem witness_task_events_token : ∃ (s : State) (q : Partition) (c : Nat), s.partAt 0 = some q ∧ (∀ p', p' ≠ 0 → s.partAt p' = none) ∧ c ∈ q.rect.cores ∧
    s.tokenMoves c = true ∧ (∀ x, x ≠ c → s.tokenMoves x = false) ∧ (∀ x ∈ q.rect.cores, (s.coreAt x).ctx = (s.coreAt c).ctx) ∧
    q.rect.cores.idxOf c = 2 ∧ q.rect.cores[1]? = some 1 := by
  refine ⟨tokenAt 16, part0, 16, by decide, fun p' hp => ?_, by decide, by decide, fun x hx => ?_, by decide, by decide, by decide⟩
  · exact (partAt_dev Core.reset part0 p').trans (if_neg hp)
  · simp [State.tokenMoves, coreAt_tokenAt (c := 16) hx, Core.reset, TaskQ.reset]

theorem witness_task_events_term : ∃ (s : State) (q : Partition), s.partAt 0 = some q ∧ (∀ p', p' ≠ 0 → s.partAt p' = none) ∧ 0 ∈ q.rect.cores ∧
    s.tokenMoves 0 = true ∧ (∀ x, x ≠ 0 → s.tokenMoves x = false) ∧ (∀ x ∈ q.rect.cores, (s.coreAt x).ctx = (s.coreAt 0).ctx) ∧ q.rect.cores.idxOf 0 = 0 ∧
    (s.coreAt 0).tasks.tokenNew = false ∧ (s.coreAt 0).tasks.tokenBlack = false ∧ (s.coreAt 0).tasks.black = false := by
  refine ⟨tokenAt 0, part0, by decide, fun p' hp => ?_, by decide, by decide, fun x hx => ?_, by decide, by decide, by decide, by decide, by decide⟩
  · exact (partAt_dev Core.reset part0 p').trans (if_neg hp)
  · simp [State.tokenMoves, coreAt_tokenAt (c := 0) hx, Core.reset, TaskQ.reset]

/-! System instructions, exceptions, the mesh and the units. -/

/-- A device whose context may be debugged, with the debug control of core 0. -/
def debugged (dbgctl : Word) (f : Thread → Thread) : State :=
  { dev { coreOf (f (thrOf [(5, 1), (6, 2), (9, 0x7FFF)])) with dbgctl := dbgctl } with ctxs := [{ ctx1 with dbg := true, fiBase := 0x10000, fiLim := 0x20000 }] }

theorem witness_system_instructions : ∃ s : Fin 3 → State, (∀ n, (s n).th.pred always = true ∧ (s n).usable [.rg 9 false, .rg 10 true, .wg 11]) ∧
    ((s 0).th.priv = false ∧ (s 0).th.st ≠ .booked ∧ (s 0).th.poisonStop = none ∧ (s 0).th.refusalStop = none ∧ (s 0).threadBusy = true) ∧
    ((s 1).th.priv = false ∧ (s 1).th.st ≠ .booked ∧ (s 1).th.poisonStop = none ∧ (s 1).th.refusalStop = none ∧ (s 1).threadBusy = false ∧
     (s 1).th.since = none ∧ (s 1).th.tag = none ∧ (s 1).me.net.replay = none ∧ ((s 1).ctxOf (s 1).me.ctx).dbg = true ∧
     bitOf (s 1).me.dbgctl.toNat (20 + (s 1).ct) = true ∧ ((s 1).ctxOf (s 1).me.ctx).ringFull = false) ∧
    ((s 2).th.priv = true ∧ ((s 2).readG 9).toNat < 2 ^ 15 ∧ bitOf ((s 2).readG 9).toNat 14 = true ∧ bitOf (s 2).me.dbgctl.toNat (20 + (s 2).ct) = false) := by
  let f (n : Fin 3) (th : Thread) : Thread := { th with outs := if n = 0 then [access .remote .none] else [], priv := n == 2 }
  refine ⟨fun n => debugged (if n = 2 then 0 else 2 ^ 20) (f n), fun n => ⟨?_, usable_of ?_ _⟩, by decide, by decide, by decide⟩ <;>
    revert n <;> decide

theorem witness_system_instructions_service : ∃ (s : State) (c : Nat) (n : Fin 4), c < 256 ∧ ((s.coreAt c).thr n).imaged = none ∧
    isLocal (0xF000000000000 % 2 ^ 52) = true ∧ isLocal (0x1FFFF % 2 ^ 52) = false ∧ (s.ctxOf (s.coreAt c).ctx).fiBase ≤ 0x1FFFF % 2 ^ 52 ∧
    0x1FFFF % 2 ^ 52 < (s.ctxOf (s.coreAt c).ctx).fiLim ∧ (s.leaf (s.coreAt c).ctx (0x1FFFF % 2 ^ 52)).isSome :=
  ⟨debugged 0 id, 0, 3, by decide, by decide, by decide, by decide, by decide, by decide, by decide⟩

theorem witness_control_registers : ∃ s : Bool → State, (∀ b, (s b).usable [.rg 5 false, .wg 7] ∧ (s b).me.net.replay = none ∧
      (∀ o ∈ (s b).me.sfu.ops, o.thr ≠ (s b).ct) ∧ (s b).th.priv = b ∧ (s b).csrs = []) ∧
    csrAssigned 0x3FF = false ∧ csrAssigned 0x400 = true ∧ (∀ n ∈ [1, 2, 3, 4, 5, 6, 7, 0x10, 0x11, 0x12, 0x20, 0x22], csrAssigned n = true) := by
  refine ⟨fun b => debugged 0 fun th => { th with priv := b }, fun b => ⟨usable_of ?_ _, ?_, ?_, ?_, ?_⟩, by decide, by decide, by decide⟩ <;>
    revert b <;> decide

theorem witness_exception_entry : ∃ (s : State) (e : Exc) (pa : Nat), s.th.priv = false ∧ e.cause ≠ 0x1F ∧ s.th.slot = none ∧ e.effect = .none ∧ e.source = none ∧
    (s.ctxOf s.me.ctx).ringFull = false ∧ s.me.net.replay = none ∧
    s.translate s.cc s.me.ctx ((s.ctxOf s.me.ctx).slotVa ((s.ctxOf s.me.ctx).trprod.toNat % 2 ^ 32)) true true = .offstack pa :=
  ⟨{ run [] with ctxs := [{ ctx1 with trbase := 0x20000, trprod := 2 ^ 32 - 1, trcons := 2 ^ 32 - 1 }] }, { cause := 0x13 }, 328640, by decide, by decide,
   by decide, by decide, by decide, by decide, by decide, by decide⟩

theorem witness_exception_entry_handler : ∃ (s : State) (c : Nat) (n : Fin 4) (h : HandlerArgs), c < 256 ∧ ((s.coreAt c).thr n).block = .record h ∧
    ((s.coreAt c).thr n).priv = false :=
  ⟨onThread [] fun th => { th with block := .record ⟨5, 0x20000, 0x13, 2 ^ 64 - 1, 0⟩ }, 0, 0, ⟨5, 0x20000, 0x13, 2 ^ 64 - 1, 0⟩, by decide, by decide, by decide⟩

theorem witness_fatal_and_stops : ∃ (s₁ s₂ s₃ : State) (q : Partition), (s₁.th.priv = true ∧ s₁.th.slot = none ∧ s₁.me.net.replay = none ∧
      (s₁.ctxOf s₁.me.ctx).fatal = false ∧ s₁.partsOf s₁.me.ctx = [0]) ∧
    (s₂.partAt 0 = some q ∧ q.stopped = false) ∧
    (s₃.th.pred always = true ∧ s₃.usable [.rg 5 false, .rg 6 false, .wg 7] ∧ s₃.steps s₃.cc s₃.ct = true) :=
  ⟨debugged 0 fun th => { th with priv := true }, run [], debugged (2 ^ 16) id, part0, by decide, by decide, by decide, usable_of (by decide) _, by decide⟩

theorem witness_fatal_and_stops_ring : ∃ (s₁ s₂ : State) (x : Ctx) (since c n : Nat), s₁.ctxs = [x] ∧ s₁.ringWaiters x.id = [(since, c, n)] ∧
    max since x.consAt + 8500 ≤ s₁.cycle ∧ s₂.ctxs = [x] ∧ s₂.ringWaiters x.id = [(since, c, n)] ∧ s₂.cycle < max since x.consAt + 8500 := by
  let x : Ctx := { ctx1 with trbase := 0x20000, trprod := 256 }
  let s (cycle : Nat) : State := { onThread [] fun th => { th with block := (.ring ⟨19, 0, 0, 0, 1, 5, 0, 0, 0, 900, 0, 0, 0⟩ ⟨5, 0, 0x13, 2 ^ 64 - 1, 0⟩ 900) } with
    ctxs := [x], cycle := cycle }
  have hw (cycle : Nat) : (s cycle).ringWaiters 1 = [(900, 0, 0)] := by
    rw [State.ringWaiters, show List.range 256 = 0 :: (List.range 255).map Nat.succ from List.range_succ_eq_map, List.flatMap_cons, List.flatMap_map,
      show List.flatMap _ (List.range 255) = [] from List.flatMap_eq_nil_iff.2 fun c _ => ?_]
    · exact (rfl : _ = [(900, 0, 0)])
    · rw [show (s cycle).coreAt c.succ = Core.reset from coreAt_dev_ne _ (Nat.succ_ne_zero c)]; rfl
  exact ⟨s 9400, s 9399, x, 900, 0, 0, by decide, hw _, by decide, by decide, hw _, by decide⟩

/-- A request that may combine. -/
def combines (x : Nat) : Req := ⟨.thread 1 0 4, 1, 1, 0, .core 0, .fop .add 64, 0xF0000000FFFF8, 8, x, 0⟩

/-- A flit of that request, and the entry it has opened at router 255. -/
def combFlit (x : Nat) : Flit := ⟨.openOp, 1, 0, .core 0, .request (combines x)⟩
def combEntry : Entry := ⟨3, 255, 1, combFlit 5, .held, false, [combFlit 9]⟩

theorem witness_mesh_and_links : ∃ (s₁ s₂ : State) (f g : Flit) (q r : Req) (e : Entry), (255 < 256 ∧ ∀ e ∈ s₁.entries, e.node ≠ 255) ∧
    (∀ r, g.load ≠ .request r) ∧ (f.load = .request r ∧ r.combinable = true) ∧ (s₂.entries = [e] ∧ e.st = .held ∧ e.node < 256 ∧ e.flit.load = .request q ∧
      q.op = .fop .add 64 ∧ q.n = 8 ∧ r.op = q.op ∧ r.n = q.n ∧ r.ctx = q.ctx ∧ r.target = q.target ∧ r.addr = q.addr) :=
  ⟨run [], { run [] with entries := [combEntry] }, combFlit 6, ⟨.control, 0, 0, .core 1, .giftAck 1⟩, combines 5, combines 6, combEntry, by decide,
   by intro r; simp, by decide, by decide⟩

theorem witness_mesh_and_links_split : ∃ (s : State) (p : PairRec), s.pairs = [p] ∧ p.node < 256 ∧ p.first = .thread 1 0 4 ∧ p.second = .thread 2 3 8 :=
  ⟨{ run [] with pairs := [⟨1, 3, 255, .thread 1 0 4, .thread 2 3 8, [(1, 0), (2, 3)], .core 0, .add, 64, 5⟩] },
   ⟨1, 3, 255, .thread 1 0 4, .thread 2 3 8, [(1, 0), (2, 3)], .core 0, .add, 64, 5⟩, by decide⟩

theorem aliasOf_nil {k : Core} (h : k.engine.streams = []) (t m : Nat) : k.aliasOf t m = none := by simp [Core.aliasOf, h]

/-- A special-function operation at the head of the queue. -/
def anOp (started : Option Nat) : SfuOp := ⟨0, 0, .rcp, 31, 1, 0x3F800000, 0, 0, false, started, []⟩

theorem witness_units_and_sensors : ∃ s : Fin 4 → State, (∀ n, (s n).onlyAt 0 (fun k => !k.sfu.ops.isEmpty)) ∧
    (∃ o, ((s 0).coreAt 0).sfu.ops = [o] ∧ o.started = none ∧ (s 0).cycle < ((s 0).coreAt 0).sfu.busyUntil) ∧
    (∃ o, ((s 1).coreAt 0).sfu.ops = [o] ∧ o.started = none ∧ ((s 1).coreAt 0).sfu.busyUntil ≤ (s 1).cycle ∧ ∀ tick, ((s 1).coreAt 0).booked 2 tick = false) ∧
    (∃ o a, ((s 2).coreAt 0).sfu.ops = [o] ∧ o.started = some a ∧ o.thr < 4 ∧ (∀ m, ((s 2).coreAt 0).aliasOf o.thr m = none) ∧
      (s 2).cycle < a + o.regs + sfuLat o.fn) ∧
    (∃ o a, ((s 3).coreAt 0).sfu.ops = [o] ∧ o.started = some a ∧ o.thr < 4 ∧ (∀ m, ((s 3).coreAt 0).aliasOf o.thr m = none) ∧
      a + o.regs + sfuLat o.fn ≤ (s 3).cycle) := by
  let k (st : Option Nat) (busy : Nat) : State := onCore [] fun k => { k with sfu := { k.sfu with ops := [anOp st], busyUntil := busy } }
  refine ⟨fun n => #v[k none 1001, k none 1000, k (some 999) 1000, k (some 900) 901][n], fun n => ?_, ⟨anOp none, by decide⟩,
    ⟨anOp none, by decide, by decide, by decide, fun t => booked_of_idle (by decide) (by decide) _ _⟩,
    ⟨anOp (some 999), 999, by decide, by decide, by decide, fun m => aliasOf_nil (by decide) _ m, by decide⟩,
    ⟨anOp (some 900), 900, by decide, by decide, by decide, fun m => aliasOf_nil (by decide) _ m, by decide⟩⟩
  match n with
  | 0 | 1 | 2 | 3 => exact onlyAt_dev (by decide)

theorem sensor_reset (i : Nat) : Core.reset.sensor i = Sensor.reset := by
  unfold Core.sensor
  by_cases h : i < 3 <;> simp [Core.reset, h]

theorem witness_units_and_sensors_sample : ∃ s : Bool → State, (∀ b, (s b).cycle % 8500 = 0 ∧ (∀ c i, (((s b).coreAt c).sensor i).fail = false) ∧
      (∀ c, c < 256 → ((s b).coreAt c).matrix.throttle = 0)) ∧
    (∀ c, c < 256 → ((s false).coreAt c).trips = 0) ∧ 0 < ((s true).coreAt 0).trips := by
  let k (b : Bool) : State := { onCore [] fun k => { k with trips := if b then 1 else 0 } with cycle := 8500 }
  have h (b : Bool) (c : Nat) : ∀ i, (((k b).coreAt c).sensor i).fail = false ∧ ((k b).coreAt c).matrix.throttle = 0 ∧ (b = false → ((k b).coreAt c).trips = 0) := by
    intro i
    have hk : (k b).coreAt c = ({ onCore [] fun k => { k with trips := if b then 1 else 0 } with cycle := 8500 } : State).coreAt c := rfl
    by_cases hc : c = 0
    · subst hc
      have : (k b).coreAt 0 = { coreOf (thrOf []) with trips := if b then 1 else 0 } := coreAt_dev _
      rw [this]
      refine ⟨?_, rfl, fun hb => by simp [hb]⟩
      exact congrArg (·.fail) (sensor_reset i)
    · have : (k b).coreAt c = Core.reset := coreAt_dev_ne _ hc
      rw [this, sensor_reset]
      exact ⟨rfl, rfl, fun _ => rfl⟩
  exact ⟨k, fun b => ⟨by revert b; decide, fun c i => (h b c i).1, fun c _ => (h b c 0).2.1⟩, fun c _ => (h false c 0).2.2 rfl, by decide⟩

theorem witness_units_and_sensors_ticks : ∃ (s : State) (c n : Nat), c < 256 ∧ n < 4 ∧ (∀ x, x < 256 → s.samples x = decide (x = c)) ∧
    (∀ m, m < 4 → (m ≠ n ↔ ((s.coreAt c).thr m).st = .idle ∨ ((s.coreAt c).thr m).priv = true)) := by
  refine ⟨{ debugged 0x10000000 id with cycle := 1024 }, 0, 0, by decide, by decide, fun x _ => ?_, by decide⟩
  by_cases hx : x = 0
  · subst hx; decide
  · have : ({ debugged 0x10000000 id with cycle := 1024 } : State).coreAt x = Core.reset := coreAt_dev_ne _ hx
    simp only [State.samples, this, hx, decide_false]; rfl

/-! The host and the helm. -/

/-- A host interface that runs, with the completion ring off. -/
def hostOn : HostIf := { HostIf.reset with bootstat := 2 }

/-- The bytes of a launch record with a target word. -/
def launchBytes (w : Nat) : List Byte := leBytes 8 w ++ leBytes 16 5 ++ leBytes 2 1 ++ leBytes 2 0 ++ leBytes 4 9

theorem witness_host_and_firmware : ∃ (s₁ s₂ : State) (off : Nat) (good bad : List Byte), s₁.host.running = true ∧ s₂.host.running = true ∧ good.length = 32 ∧
    bad.length = 32 ∧ off % 32 = 0 ∧ off < 4096 ∧ s₁.helm.role ≠ .takeover ∧ s₁.host.ringOn = false ∧ s₂.helm.role = .takeover ∧ s₂.helm.pending = [(off, good)] ∧
    s₂.host.held = [] ∧ (2 ^ 34 ≤ fieldAt bad 0 8 ∧ ¬(2 ^ 34 ≤ fieldAt good 0 8 ∨ bitsOf (fieldAt good 0 8) 15 14 ≠ 0 ∨ bitsOf (fieldAt good 0 8) 33 24 ≠ 0x3FF ∨
      fieldAt good 26 2 ≠ 0)) ∧ s₁.helm.role = .primary :=
  ⟨{ run [] with host := hostOn }, { run [] with host := hostOn, helm := { Helm.reset with role := .takeover, pending := [(4064, launchBytes 0x3FFFF3FFF)] } },
   4064, launchBytes 0x3FFFF3FFF, launchBytes (2 ^ 34), by decide⟩

theorem witness_host_and_firmware_window : ∃ (s : State) (off : Nat) (bytes : List Byte), s.offstack.wf = true ∧ off + bytes.length = 2 ^ 30 ∧ bytes ≠ [] :=
  ⟨run [], 2 ^ 30 - 3, [1, 2, 3], by decide⟩

/-- A completion record. -/
def aCompletion : Completion := ⟨1, 1, 0, 1, 0, 0, 0, 0, 900⟩

/-- A host whose completion ring has four slots and a held record. -/
def ringing (prod : Nat) (last : Option Nat) : State :=
  { run [] with host := { hostOn with crctl := 0x102, crprod := prod, held := [aCompletion], lastMsix1 := last } }

theorem witness_host_and_firmware_ring : ∃ s₁ s₂ : State, (∀ s ∈ [s₁, s₂], (∃ r, s.host.held = [r]) ∧ s.helm.role ≠ .takeover ∧ s.host.mem.wf = true) ∧
    HostIf.ringOpen { s₁.host with crcons := 1 % 2 ^ 32 } = false ∧ HostIf.ringOpen { s₂.host with crcons := 1 % 2 ^ 32 } = true ∧
    (∀ x ∈ s₂.agenda, x.2 ≠ .msixVector1Signal) ∧ s₂.host.lastMsix1 = some 500 := by
  refine ⟨ringing 5 none, ringing 4 (some 500), fun s hs => ?_, by decide, by decide, by decide, by decide⟩
  simp only [List.mem_cons, List.not_mem_nil, or_false] at hs
  rcases hs with rfl | rfl <;> exact ⟨⟨aCompletion, by decide⟩, by decide, by decide⟩

/-- A command record: SEQ 1, an OP, LEN 248 and parameters. -/
def cmd (op : Nat) (p : List Byte) : List Byte := leBytes 4 1 ++ leBytes 2 op ++ leBytes 2 248 ++ padTo 248 p

/-- A device with a command record in the mailbox: its doorbell is to come. -/
def belled (seq op : Nat) : State := { run [] with host := { hostOn with lastSeq := seq, mbxcmd := cmd op [] } }

theorem witness_host_and_firmware_doorbell : ∃ s : Fin 3 → State, (∀ n, (s n).host.held = [] ∧ (s n).host.running = true ∧ (s n).host.busy = none ∧
      (s n).host.ringOn = false ∧ cmdSeq (padTo 256 (s n).host.mbxcmd) = 1) ∧
    (s 0).host.nextSeq ≠ 1 ∧ ((s 1).host.nextSeq = 1 ∧ (opEvent (cmdOp (padTo 256 (s 1).host.mbxcmd))).isNone) ∧
    ((s 2).host.nextSeq = 1 ∧ opEvent (cmdOp (padTo 256 (s 2).host.mbxcmd)) = some .create) := by
  refine ⟨fun n => belled #v[1, 2 ^ 32 - 1, 0][n] #v[1, 0x10, 1][n], fun n => ?_, by decide, by decide, by decide⟩
  revert n; decide

theorem witness_host_and_firmware_boot : ∃ s₁ s₂ : State, s₁.host.bootstat % 256 = 0 ∧ s₂.host.bootstat % 256 = 1 :=
  ⟨run [], { run [] with host := { hostOn with bootstat := 1 } }, by decide, by decide⟩

/-! ### Mailbox commands -/

/-- A device in which a command is being performed. -/
def mailed (op : Nat) (p : List Byte) (s : State) : State := { s with host := { hostOn with busy := some (cmd op p) } }

/-- Whether a command is one that its performance looks at. -/
def inOrder (op : Nat) (p : List Byte) (fields : List (Nat × Nat)) : Bool :=
  cmdOp (cmd op p) == op && cmdLen (cmd op p) ≤ 248 && ((cmdParams (cmd op p)).drop (cmdLen (cmd op p))).all (· == 0) && zeroOutside fields (cmdParams (cmd op p))

theorem commanded_of {op : Nat} {p : List Byte} {fields : List (Nat × Nat)} {s : State} (hs : s.helm.role ≠ .takeover) (h : inOrder op p fields = true) :
    (mailed op p s).commanded (cmd op p) op fields := by
  simp only [inOrder, Bool.and_eq_true, beq_iff_eq, decide_eq_true_eq, List.all_eq_true] at h
  exact ⟨rfl, h.1.1.1, hs, h.1.1.2, h.1.2, h.2⟩

/-- Parameters that begin with a context, a byte and another byte. -/
def ids (ctx n k : Nat) (rest : List Byte) : List Byte := leBytes 2 ctx ++ [BitVec.ofNat 8 n, BitVec.ofNat 8 k] ++ rest

theorem witness_contexts_and_partitions_create : ∃ (s : State) (p : Fin 3 → List Byte), (∀ n, (mailed 1 (p n) s).commanded (cmd 1 (p n)) 1 [(0, 3), (8, 96)]) ∧
    ctxFrom (cmdParams (cmd 1 (p 0))) = none ∧ ((ctxFrom (cmdParams (cmd 1 (p 1)))).isSome ∧ (s.ctx? (fieldAt (cmdParams (cmd 1 (p 1))) 0 2)).isSome) ∧
    ((ctxFrom (cmdParams (cmd 1 (p 2)))).isSome ∧ (s.ctx? (fieldAt (cmdParams (cmd 1 (p 2))) 0 2)).isNone) := by
  refine ⟨run [], fun n => ids #v[0, 1, 0xFFFF][n] 1 0 (leBytes 4 0 ++ leBytes 8 0xFFFFFF0000), fun n => commanded_of (by decide) ?_, by decide, by decide, by decide⟩
  revert n; decide

theorem witness_contexts_and_partitions_destroy : ∃ (s : State) (p : Bool → List Byte), (∀ b, (mailed 2 (p b) s).commanded (cmd 2 (p b)) 2 [(0, 2)]) ∧
    (s.ctx? (fieldAt (cmdParams (cmd 2 (p false))) 0 2)).isNone ∧ (s.ctx? (fieldAt (cmdParams (cmd 2 (p true))) 0 2)).isSome := by
  refine ⟨run [], fun b => ids (if b then 1 else 2) 0 0 [], fun b => commanded_of (by decide) ?_, by decide, by decide⟩
  revert b; decide

/-- A device whose partition 0 hosts the contexts 1 and 2. -/
def shared (f : Partition → Partition) : State :=
  { dev (coreOf (thrOf [])) with ctxs := [{ ctx1 with dbg := true }, { Ctx.reset 2 with fatal := true }], parts := State.reset.parts.set 0 (some (f part0)) }

theorem partAt_shared (f : Partition → Partition) (p : Nat) : (shared f).partAt p = if p = 0 then some (f part0) else none :=
  partAt_dev (coreOf (thrOf [])) (f part0) p

theorem witness_contexts_and_partitions_place : ∃ (s : State) (p : Fin 7 → List Byte), (∀ n, (mailed 3 (p n) s).commanded (cmd 3 (p n)) 3 [(0, 3), (4, 2), (8, 8)]) ∧
    (let ctx (n : Fin 7) := fieldAt (cmdParams (cmd 3 (p n))) 0 2
     let part (n : Fin 7) := fieldAt (cmdParams (cmd 3 (p n))) 2 1
     let rect (n : Fin 7) := rectOf (fieldAt (cmdParams (cmd 3 (p n))) 4 2)
     15 < part 0 ∧ (part 1 ≤ 15 ∧ (s.ctx? (ctx 1)).isNone) ∧ (∀ n, 2 ≤ n.val → part n ≤ 15 ∧ (s.ctx? (ctx n)).isSome) ∧ (rect 2).x1 < (rect 2).x0 ∧
     (∀ n, 3 ≤ n.val → (rect n).x0 ≤ (rect n).x1 ∧ (rect n).y0 ≤ (rect n).y1) ∧
     (∃ q, s.partAt (part 3) = some q ∧ q.rect = rect 3 ∧ ctx 3 ∈ q.ctxs) ∧ (∃ q, s.partAt (part 4) = some q ∧ q.rect = rect 4 ∧ ctx 4 ∉ q.ctxs) ∧
     (s.partAt (part 5) = none ∧ ∃ m q, m < 16 ∧ s.partAt m = some q ∧ q.rect.overlaps (rect 5) = true) ∧
     (s.partAt (part 6) = none ∧ ∀ m q, m < 16 → s.partAt m = some q → q.rect.overlaps (rect 6) = false)) := by
  let p (n : Fin 7) : List Byte := ids #v[1, 3, 1, 1, 2, 2, 2][n] #v[16, 15, 15, 0, 0, 15, 15][n] 0 (leBytes 2 #v[0x2222, 0x2222, 1, 0x1100, 0x1100, 0xFF11, 0xFF22][n])
  refine ⟨shared id, p, fun n => commanded_of (by decide) ?_, by decide, by decide, by decide, by decide, by decide, ⟨part0, by decide⟩, ⟨part0, by decide⟩,
    ⟨by decide, 0, part0, by decide⟩, ⟨by decide, fun m q _ h => ?_⟩⟩
  · revert n; decide
  · rw [partAt_shared] at h
    split at h
    · obtain rfl : part0 = q := by simpa using h
      decide
    · cases h

theorem witness_contexts_and_partitions_window : ∃ (s : State) (p : Fin 3 → List Byte), (∀ n, (mailed 4 (p n) s).commanded (cmd 4 (p n)) 4 [(0, 4), (8, 24)]) ∧
    (let ctx (n : Fin 3) := fieldAt (cmdParams (cmd 4 (p n))) 0 2
     let core (n : Fin 3) := fieldAt (cmdParams (cmd 4 (p n))) 2 1
     let i (n : Fin 3) := fieldAt (cmdParams (cmd 4 (p n))) 3 1
     7 < i 0 ∧ (i 1 ≤ 7 ∧ (s.ctx? (ctx 1)).isSome ∧ s.onCore (core 1) (ctx 1) = false) ∧
     (i 2 ≤ 7 ∧ (s.ctx? (ctx 2)).isSome ∧ (s.coreAt (core 2)).ctx = ctx 2)) := by
  refine ⟨run [], fun n => ids 1 #v[0, 1, 0][n] #v[8, 7, 7][n] (leBytes 4 0 ++ leBytes 8 0x10000), fun n => commanded_of (by decide) ?_, by decide, by decide, by decide⟩
  revert n; decide

theorem witness_contexts_and_partitions_loadcode : ∃ (s₁ s₂ : State) (p : List Byte),
    (∀ s ∈ [s₁, s₂], (mailed 5 p s).commanded (cmd 5 p) 5 [(0, 4), (8, 8), (16, 4)] ∧ fieldAt (cmdParams (cmd 5 p)) 3 1 = 0 ∧
      fieldAt (cmdParams (cmd 5 p)) 16 4 = 61440 ∧ (s.ctx? (fieldAt (cmdParams (cmd 5 p)) 0 2)).isSome ∧
      (s.coreAt (fieldAt (cmdParams (cmd 5 p)) 2 1)).ctx = fieldAt (cmdParams (cmd 5 p)) 0 2 ∧ (s.coreAt (fieldAt (cmdParams (cmd 5 p)) 2 1)).sram.wf = true) ∧
    (∃ k, k < 4 ∧ ((s₁.coreAt (fieldAt (cmdParams (cmd 5 p)) 2 1)).thr k).st = .run) ∧
    ∀ k, k < 4 → ((s₂.coreAt (fieldAt (cmdParams (cmd 5 p)) 2 1)).thr k).st = .idle ∨ ((s₂.coreAt (fieldAt (cmdParams (cmd 5 p)) 2 1)).thr k).st = .stopped := by
  refine ⟨run [], onThread [] fun th => { th with st := .stopped }, ids 1 0 0 (leBytes 4 0 ++ leBytes 8 0x4000 ++ leBytes 4 61440), fun s hs => ?_, ⟨0, by decide⟩, by decide⟩
  simp only [List.mem_cons, List.not_mem_nil, or_false] at hs
  rcases hs with rfl | rfl <;> exact ⟨commanded_of (by decide) (by decide), by decide, by decide, by decide, by decide, by decide⟩

theorem witness_contexts_and_partitions_preempt : ∃ (s : State) (p : Bool → List Byte), (∀ b, (mailed 6 (p b) s).commanded (cmd 6 (p b)) 6 [(0, 3)] ∧
      (s.ctx? (fieldAt (cmdParams (cmd 6 (p b))) 0 2)).isSome) ∧
    (s.coreAt (fieldAt (cmdParams (cmd 6 (p false))) 2 1)).ctx ≠ fieldAt (cmdParams (cmd 6 (p false))) 0 2 ∧
    (let c := fieldAt (cmdParams (cmd 6 (p true))) 2 1
     (s.coreAt c).ctx = fieldAt (cmdParams (cmd 6 (p true))) 0 2 ∧ (s.coreAt c).preempt = .none ∧
     ∀ m q, s.partOf c = some m → s.partAt m = some q → q.stopped = false) := by
  refine ⟨shared id, fun b => ids (if b then 1 else 2) 0 0 [], fun b => ⟨commanded_of (by decide) ?_, ?_⟩, by decide, by decide, by decide, fun m q _ h => ?_⟩
  · revert b; decide
  · revert b; decide
  · rw [partAt_shared] at h
    split at h
    · obtain rfl : part0 = q := by simpa using h
      decide
    · cases h

theorem witness_contexts_and_partitions_stop : ∃ (s : State) (p : Bool → Bool → List Byte) (x y : Ctx) (q : Partition), s.partAt 0 = some q ∧
    (∀ a b, (mailed 7 (p a b) s).commanded (cmd 7 (p a b)) 7 [(0, 4)] ∧ fieldAt (cmdParams (cmd 7 (p a b))) 2 1 = 0 ∧
      fieldAt (cmdParams (cmd 7 (p a b))) 3 1 = b.toNat ∧ fieldAt (cmdParams (cmd 7 (p a b))) 0 2 ∈ q.ctxs ∧
      s.ctx? (fieldAt (cmdParams (cmd 7 (p a b))) 0 2) = some (if a then x else y)) ∧ x.dbg = true ∧ y.dbg = false := by
  refine ⟨shared fun q => { q with ctxs := [1, 2] }, fun a b => ids (if a then 1 else 2) 0 b.toNat [], { ctx1 with dbg := true },
    { Ctx.reset 2 with fatal := true }, { part0 with ctxs := [1, 2] }, by decide, fun a b => ⟨commanded_of (by decide) ?_, ?_, ?_, ?_, ?_⟩, by decide, by decide⟩ <;>
    revert a b <;> decide

theorem witness_contexts_and_partitions_resume : ∃ (s : Fin 3 → State) (p : Bool → List Byte) (q : Fin 3 → Partition),
    (∀ n b, (mailed 8 (p b) (s n)).commanded (cmd 8 (p b)) 8 [(0, 4)] ∧ fieldAt (cmdParams (cmd 8 (p b))) 2 1 = 0 ∧ fieldAt (cmdParams (cmd 8 (p b))) 3 1 = b.toNat ∧
      ((s n).ctx? (fieldAt (cmdParams (cmd 8 (p b))) 0 2)).isSome ∧ (s n).partAt 0 = some (q n)) ∧
    (q 0).stopped = false ∧ ((q 1).stopped = true ∧ 1 ∈ (q 1).ctxs ∧ ∀ k ∈ (q 1).ctxs, ((s 1).ctxOf k).fatal = false) ∧
    ((q 2).stopped = true ∧ ∃ k ∈ (q 2).ctxs, ((s 2).ctxOf k).fatal = true) := by
  let q (n : Fin 3) : Partition := #v[part0, { part0 with stopped := true }, { part0 with stopped := true, ctxs := [1, 2] }][n]
  refine ⟨fun n => shared fun _ => q n, fun b => ids 1 0 b.toNat [], q, fun n b => ⟨commanded_of ?_ ?_, ?_, ?_, ?_, ?_⟩, by decide, by decide, ⟨by decide, 2, by decide⟩⟩ <;>
    revert n b <;> decide

theorem witness_contexts_and_partitions_save : ∃ (s : Bool → State) (m : Nat) (q : Partition), (∀ b, (s b).partOf 0 = some m ∧ (s b).partAt m = some q ∧
      ((s b).coreAt 0).handlersDone = b) ∧ ((s true).coreAt 0).quietToSave = true ∧ ∀ i, (((s true).coreAt 0).booking i).st ≠ .made := by
  refine ⟨fun b => onCore [] fun k => { k with preempt := if b then .handlers else .stopping, threads := if b then Core.reset.threads else k.threads }, 0, part0,
    fun b => ?_, by decide, fun i => ?_⟩
  · cases b <;> refine ⟨by decide, by decide, ?_⟩
    · rfl
    · simp [onCore, coreAt_dev, Core.handlersDone, Core.reset, Thread.reset]
  · rcases booking_mem ((onCore [] fun k => { k with preempt := .handlers, threads := Core.reset.threads }).coreAt 0) i with h | h
    · simp [h, Booking.reset]
    · intro hi
      have : ∀ b ∈ ((onCore [] fun k => { k with preempt := .handlers, threads := Core.reset.threads }).coreAt 0).almanac.slots.toList, b.st = .free := by decide
      exact absurd ((this _ h).symm.trans hi) (by decide)

theorem witness_contexts_and_partitions_restore : ∃ (s : Bool → State) (m : Nat) (q : Bool → Partition) (k : Core), (∀ b, (s b).partOf 0 = some m ∧
      (s b).partAt m = some (q b) ∧ (q b).stopped = b) ∧ 1 ∈ (q false).ctxs ∧ ((s false).coreAt 0).ctx = 0 ∧
    (s false).helm.saved.find? (fun x => x.1 == 1 && x.2.1 == 0) = some (1, 0, k) ∧ (∃ n : Fin 4, (k.thr n).imaged.isNone) ∧ ∃ n : Fin 4, (k.thr n).imaged.isSome := by
  let k : Core := coreOf { thrOf [] with st := .stopped, priv := true, imaged := some ⟨3, 1, 0x1E⟩ }
  refine ⟨fun b => { dev { Core.reset with ctx := 0 } with parts := State.reset.parts.set 0 (some { part0 with stopped := b }), helm := { Helm.reset with saved := [(1, 0, k)] } },
    0, fun b => { part0 with stopped := b }, k, fun b => ?_, by decide, by decide, by decide, ⟨1, by decide⟩, ⟨0, by decide⟩⟩
  revert b; decide

theorem witness_mailbox_services : ∃ (s : State) (r : List Byte), s.host.busy = some r ∧ cmdOp r = 13 ∧ s.helm.role ≠ .takeover ∧
    zeroOutside [(0, 1), (8, 12)] (cmdParams r) = false :=
  ⟨mailed 13 [0, 1] (run []), cmd 13 [0, 1], by decide, by decide, by decide, by decide⟩

theorem witness_mailbox_services_checkpoint : ∃ (s : Bool → State) (p : List Byte) (q : Bool → Partition), (∀ b, (mailed 9 p (s b)).commanded (cmd 9 p) 9 [(0, 4), (8, 10)] ∧
      ((s b).ctx? (fieldAt (cmdParams (cmd 9 p)) 0 2)).isSome ∧ (s b).partAt (fieldAt (cmdParams (cmd 9 p)) 2 1) = some (q b)) ∧ fieldAt (cmdParams (cmd 9 p)) 3 1 = 1 ∧
    fieldAt (cmdParams (cmd 9 p)) 16 2 = 0 ∧ fieldAt (cmdParams (cmd 9 p)) 0 2 ∈ (q true).ctxs ∧ (q false).stopped = false ∧ (q true).stopped = true ∧
    (q true).stopReason.map (·.1) = some 3 := by
  refine ⟨fun b => shared fun q => { q with stopped := b, stopReason := some (3, 900) }, ids 1 0 1 (leBytes 4 0 ++ leBytes 8 0x7000),
    fun b => { part0 with stopped := b, stopReason := some (3, 900) }, fun b => ⟨commanded_of ?_ ?_, ?_, ?_⟩, by decide, by decide, by decide, by decide, by decide, by decide⟩ <;>
    revert b <;> decide

theorem witness_mailbox_services_replay : ∃ (s : Fin 4 → State) (p : List Byte) (x : Fin 4 → Ctx) (q : Fin 4 → Partition), (∀ n, (mailed 10 p (s n)).commanded (cmd 10 p) 10 [(0, 3), (8, 8), (16, 4)] ∧
      (s n).ctxs.find? (·.id == fieldAt (cmdParams (cmd 10 p)) 0 2) = some (x n) ∧ (s n).partOf (fieldAt (cmdParams (cmd 10 p)) 2 1) = some 0 ∧ (s n).partAt 0 = some (q n) ∧
      ((s n).coreAt (fieldAt (cmdParams (cmd 10 p)) 2 1)).ctx = fieldAt (cmdParams (cmd 10 p)) 0 2) ∧ (q 0).stopped = false ∧
    ((q 1).stopped = true ∧ (x 1).dbg = false) ∧
    ((q 2).stopped = true ∧ (x 2).dbg = true ∧ ((s 2).helm.checkpoints.find? (·.1 == fieldAt (cmdParams (cmd 10 p)) 8 8)).isNone) ∧
    ((q 3).stopped = true ∧ (x 3).dbg = true ∧ ∃ a ss cores old, (s 3).helm.checkpoints.find? (·.1 == fieldAt (cmdParams (cmd 10 p)) 8 8) = some (a, ss, cores) ∧
      cores.find? (·.1 == fieldAt (cmdParams (cmd 10 p)) 2 1) = some (0, old)) := by
  let x (n : Fin 4) : Ctx := { ctx1 with dbg := 2 ≤ n.val }
  let q (n : Fin 4) : Partition := { part0 with stopped := n != 0 }
  let s (n : Fin 4) : State := { shared fun _ => q n with ctxs := [x n], helm := { Helm.reset with checkpoints := if n = 3 then [(0x7000, 2, [(0, Core.reset)])] else [] } }
  refine ⟨s, ids 1 0 0 (leBytes 4 0 ++ leBytes 8 0x7000 ++ leBytes 4 5), x, q, fun n => ⟨commanded_of ?_ ?_, ?_, ?_, ?_, ?_⟩, by decide, by decide, by decide,
    ⟨by decide, by decide, 0x7000, 2, [(0, Core.reset)], Core.reset, by decide, by decide⟩⟩ <;> revert n <;> decide

theorem witness_mailbox_services_attest : ∃ (s : State) (p : Bool → List Byte), (∀ b, (mailed 11 (p b) s).commanded (cmd 11 (p b)) 11 [(0, 2), (8, 40)] ∧
      (s.ctx? (fieldAt (cmdParams (cmd 11 (p b))) 0 2)).isSome = b) ∧ (mailed 11 (p true) s).host.mem.wf = true ∧ (mailed 11 (p true) s).host.ringOn = false := by
  refine ⟨run [], fun b => ids (if b then 1 else 2) 0 0 (leBytes 4 0 ++ leBytes 32 99 ++ leBytes 8 0x7000), fun b => ⟨commanded_of ?_ ?_, ?_⟩, by decide, by decide⟩ <;>
    revert b <;> decide

theorem witness_mailbox_services_debugread : ∃ (s : Fin 3 → State) (p : Fin 3 → List Byte), (∀ n, (mailed 12 (p n) (s n)).commanded (cmd 12 (p n)) 12 [(0, 2), (8, 10)] ∧
      0 < fieldAt (cmdParams (cmd 12 (p n))) 16 2 ∧ fieldAt (cmdParams (cmd 12 (p n))) 16 2 ≤ 240 ∧ fieldAt (cmdParams (cmd 12 (p n))) 8 8 < 2 ^ 52 ∧
      isLocal (fieldAt (cmdParams (cmd 12 (p n))) 8 8) = false ∧ fieldAt (cmdParams (cmd 12 (p n))) 8 8 % 65536 + fieldAt (cmdParams (cmd 12 (p n))) 16 2 = 65536) ∧
    (∃ x, (s 0).ctx? (fieldAt (cmdParams (cmd 12 (p 0))) 0 2) = some x ∧ x.dbg = false) ∧
    (∃ x, (s 1).ctx? (fieldAt (cmdParams (cmd 12 (p 1))) 0 2) = some x ∧ x.dbg = true ∧ (s 1).translate 0 x.id (fieldAt (cmdParams (cmd 12 (p 1))) 8 8) true false = .page) ∧
    (∃ x, (s 2).ctx? (fieldAt (cmdParams (cmd 12 (p 2))) 0 2) = some x ∧ x.dbg = true ∧
      (s 2).translate 0 x.id (fieldAt (cmdParams (cmd 12 (p 2))) 8 8) true false = .offstack 0x5FF10) := by
  let x (n : Fin 3) : Ctx := { ctx1 with dbg := n != 0 }
  refine ⟨fun n => { run [] with ctxs := [x n] }, fun n => ids 1 0 0 (leBytes 4 0 ++ leBytes 8 (if n = 2 then 0x2FF10 else 0x4FF10) ++ leBytes 2 240),
    fun n => ⟨commanded_of ?_ ?_, ?_, ?_, ?_, ?_, ?_⟩, ⟨x 0, by decide, by decide⟩, ⟨x 1, by decide, by decide, by decide⟩, ⟨x 2, by decide, by decide, by decide⟩⟩ <;>
    revert n <;> decide

theorem witness_mailbox_services_policy : ∃ (s : State) (p : Bool → List Byte), (∀ b, (mailed 13 (p b) s).commanded (cmd 13 (p b)) 13 [(0, 1), (8, 12)]) ∧
    3 < fieldAt (cmdParams (cmd 13 (p false))) 0 1 ∧ fieldAt (cmdParams (cmd 13 (p true))) 0 1 ≤ 3 ∧ fieldAt (cmdParams (cmd 13 (p true))) 8 8 % 4096 = 0 := by
  refine ⟨run [], fun b => leBytes 8 (if b then 3 else 4) ++ leBytes 8 4096 ++ leBytes 2 5, fun b => commanded_of ?_ ?_, by decide, by decide, by decide⟩ <;>
    revert b <;> decide

theorem witness_mailbox_services_journal : ∃ (s : State) (p : List Byte), (mailed 14 p s).commanded (cmd 14 p) 14 [(8, 16)] ∧ (mailed 14 p s).host.mem.wf = true ∧
    (mailed 14 p s).host.ringOn = false ∧ min (fieldAt (cmdParams (cmd 14 p)) 16 4 / 64) (s.helm.journal.length - fieldAt (cmdParams (cmd 14 p)) 20 4) = 1 :=
  ⟨{ run [] with helm := { Helm.reset with journal := [⟨1, 0, 0, 0, 0, [], 5⟩, ⟨2, 0, 0, 0, 0, [1, 2], 6⟩] } },
   leBytes 8 0 ++ leBytes 8 0x7000 ++ leBytes 4 100 ++ leBytes 4 1, commanded_of (by decide) (by decide), by decide, by decide, by decide⟩

theorem witness_mailbox_services_clearpoison : ∃ (s : State) (p : Fin 3 → List Byte), (∀ n, (mailed 15 (p n) s).commanded (cmd 15 (p n)) 15 [(8, 10)]) ∧
    fieldAt (cmdParams (cmd 15 (p 0))) 16 1 = 2 ∧ (fieldAt (cmdParams (cmd 15 (p 1))) 16 1 = 1 ∧ fieldAt (cmdParams (cmd 15 (p 1))) 8 8 = 2 ^ 40 - 65536) ∧
    (fieldAt (cmdParams (cmd 15 (p 2))) 16 1 = 0 ∧ fieldAt (cmdParams (cmd 15 (p 2))) 8 8 = 2 ^ 31 - 65536) := by
  refine ⟨run [], fun n => leBytes 8 0 ++ leBytes 8 #v[0, 2 ^ 40 - 65536, 2 ^ 31 - 65536][n] ++ leBytes 2 #v[2, 1, 0xFF00][n], fun n => commanded_of ?_ ?_, by decide, by decide,
    by decide⟩ <;> revert n <;> decide

/-! ### Witnesses of the statements' other clauses -/

/-- A booked thread of core 0 whose booking has holds, changed by f; its core changed by h. -/
def bookedOn (l : List (Nat × Nat)) (holds : List Hold) (f : Thread → Thread) (h : Core → Core) : State :=
  let k := h (coreOf (f { thrOf l with st := .booked, slot := some 0 }))
  let b : Booking := { Booking.reset with st := .started, serial := 1, start := 125, holds := holds }
  dev { k with almanac := { k.almanac with slots := k.almanac.slots.set 0 b } }

/-- The device of run with VA 0x40000 mapped by an entry. -/
def mapped (l : List (Nat × Nat)) (entry : Nat) : State := { run l with offstack := memSetN tables 0x22020 8 entry }

theorem witness_predicates_and_operand_check_off : ∃ (s : State) (q : Pred), s.th.priv = true ∧ s.th.pred q = false :=
  ⟨onThread [] fun th => { th with priv := true }, ⟨1, false⟩, by decide⟩

theorem witness_predicates_and_operand_check_booked : ∃ (s : State) (a : GReg), s.th.st = .booked ∧ s.th.pred always = true ∧
    (s.th.greg a.toNat).st = .empty ∧ (s.th.greg a.toNat).ready ≤ s.cycle ∧ ∀ x ∈ s.me.vault.accs, x.abandoned = false :=
  ⟨bookedOn [] [] (fun th => { th with g := th.g.set 5 ⟨0, .empty, 0⟩ }) id, 5, by decide⟩

theorem witness_predicates_and_operand_check_late : ∃ (k : Core) (o : Access) (x : VaultAcc),
    (k.thr 0).outs.find? (fun o => destCovers (k.thr 0).priv o.dest 31) = some o ∧
    k.vault.accs.find? (fun x => x.by_ == .thread 0 && x.acc == o.id && x.abandoned) = some x :=
  let x : VaultAcc := { anAcc .load 8 990 0 0 none with abandoned := true }
  ⟨{ coreOf { thrOf [] with outs := [access .vault (.g 31)] } with vault := { Vault.reset with accs := [x] } }, access .vault (.g 31), x, by decide, by decide⟩

/-- The last doubleword of a user's code, of a weight buffer and of the last accumulator. -/
theorem witness_local_scalar_access_elsewhere : ∃ (s : State) (a : Fin 3 → GReg) (o : Fin 3 → Nat), s.memoryQuiet ∧ s.th.priv = false ∧
    ∀ n, s.effective (a n) ((0#12).toInt * Size.d.bytes) = (localBase + o n, false) ∧ o n % 8 = 0 ∧ o n < 0x280000 ∧ placeOf (o n) ≠ .hole ∧
      (o n < 0x10F000 ∨ 0x110000 ≤ o n) ∧ s.qualStop false .order (localBase + o n) (o n) 8 = none ∧
      s.qualStop true .order (localBase + o n) (o n) 8 = none :=
  ⟨run [(5, 0xF00000010EFF8), (6, 0xF00000015FFF8), (7, 0xF00000027FFF8)], fun n => #v[5, 6, 7][n], fun n => #v[0x10EFF8, 0x15FFF8, 0x27FFF8][n],
   calm_quiet (by decide), by decide, by decide⟩

/-- A scalar off-stack access, and a vector one over the line of a controller. -/
theorem witness_vault_scalar_access_offstack : ∃ (s : State) (v : VReg) (a b : GReg) (sh : VecShape), s.memoryQuiet ∧ s.me.net.replay = none ∧
    s.effective a ((0#12).toInt * Size.d.bytes) = (0x20FF8, false) ∧ s.translate s.cc s.me.ctx 0x20FF8 true false = .offstack 0x50FF8 ∧
    vecShape v .single .f32 (s.readG b).toNat = .ok sh ∧ 0 < sh.n ∧ sh.n ≤ 64 * sh.regs ∧ sh.regs ≤ 8 ∧ s.effective b ((1#8).toInt * 64) = (0x20FE0, false) ∧
    0x20FE0 % sh.align = 0 ∧ s.translate s.cc s.me.ctx 0x20FE0 false true = .offstack 0x50FE0 ∧ 0x50FE0 % 4096 + sh.n > 4096 :=
  ⟨run [(5, 0x20FF8), (6, 0x20FA0)], 8, 5, 6, ⟨64, 1, 4⟩, calm_quiet (by decide), by decide, by decide, by decide, rfl, by decide, by decide, by decide, by decide,
   by decide, by decide, by decide⟩

/-- What the clauses ask of the place of a doubleword at g5: an address without an entry, without the right, in migration, in another vault, in a
hole, in the handler's region, in an engine's tile and, through g2, below the stack's top. -/
theorem witness_misaligned_access_places : ∃ s : Fin 8 → State, (∀ n, (s n).usable [.rg 5 false, .rg 2 false, .wg 6] ∧ (s n).th.st ≠ .booked ∧ (s n).th.priv = false ∧
      (s n).watchMask true true ((s n).effective 5 0).1 8 = 0) ∧
    (let x (n : Fin 8) := (s n).translate (s n).cc (s n).me.ctx ((s n).effective 5 0).1 false true
     x 0 = .page ∧ x 1 = .prot ∧ x 2 = .moving ∧ x 3 = .foreign 1 ∧ (x 4 = .loc 0x280000 ∧ placeOf 0x280000 = .hole) ∧
     (x 5 = .loc 0x10EFFC ∧ 0x10F000 < 0x10EFFC + 8) ∧ (x 6 = .loc 0xFF000 ∧ unitOf 0xFF000 = some 255 ∧ (s 6).me.owner 255 ≠ 0)) ∧
    (s 7).effective 2 0 = (0xFFF0, true) := by
  refine ⟨fun n => #v[run [(5, 0x50000)], mapped [(5, 0x40000)] (leafOf 1 0 0x30000 - 2 ^ 57), mapped [(5, 0x40000)] (leafOf 2 0 0x30000), run [(5, 0x30000)],
    run [(5, 0xF000000280000)], run [(5, 0xF00000010EFFC)], engineOwns 0xF0000000FF000 0 0,
    onThread [(5, 0), (2, 0xF000000000000)] fun th => { th with spbase := 0x10, ovfp := 0x10000 }][n],
    fun n => ⟨usable_of (?_) _, ?_, ?_, ?_⟩, by decide, by decide⟩ <;> revert n <;> decide

/-- A watchpoint that matches; a bank and a vault bank that a booked thread's booking does not hold; a row under repair; an access that an
acquire delays, off-stack. -/
theorem witness_misaligned_access_others : ∃ s : Fin 5 → State, (∀ n, (s n).usable [.rg 5 false, .wg 6]) ∧
    (s 0).watchMask true false ((s 0).effective 5 0).1 8 = 8 ∧
    ((s 1).th.st = .booked ∧ (s 1).effective 5 0 = (localBase + 0xFFFF8, false) ∧ (s 1).me.ownHolds (s 1).th (0x10 + bankOf 0xFFFF8) (s 1).tick = false ∧
      (s 1).me.engineByte 0xFFFF8 8 = none) ∧
    ((s 2).th.st = .booked ∧ (s 2).translate (s 2).cc (s 2).me.ctx ((s 2).effective 5 0).1 true false = .vault 0x30000 ∧
      (s 2).me.ownHolds (s 2).th (0x40 + vbank 0x30000) (s 2).tick = false) ∧
    ((s 3).noBookings ∧ (s 3).translate (s 3).cc (s 3).me.ctx ((s 3).effective 5 0).1 true false = .vault 0x30000 ∧
      ((s 3).me.vault.repairOf (vbank 0x30000) (vrow 0x30000)).isSome = true ∧ (s 3).th.outs = []) ∧
    ((s 4).translate (s 4).cc (s 4).me.ctx ((s 4).effective 5 0).1 true false = .offstack 0x50000 ∧ (∃ o ∈ (s 4).th.outs, o.acquire = true) ∧
      ∀ y ∈ (s 4).me.vault.accs, y.abandoned = false) := by
  refine ⟨fun n => #v[{ onCore [(5, 0x10000)] fun k => { k with watch := k.watch.set 3 0xE300000000010007 } with ctxs := [{ ctx1 with dbg := true }] },
    bookedOn [(5, 0xF0000000FFFF8)] [] id id, bookedOn [(5, 0x10000)] [] id id,
    onCore [(5, 0x10000)] (fun k => { k with vault := { k.vault with rowErrs := [⟨vbank 0x30000, vrow 0x30000, 2, true, some 3000, false⟩] } }),
    onThread [(5, 0x20000)] fun th => { th with outs := [{ access .off (.g 9) with acquire := true }] }][n],
    fun n => usable_of ?_ _, by decide, by decide, by decide, ⟨⟨by decide, ?_, ?_⟩, by decide⟩, by decide⟩
  · revert n; decide
  · exact fun c t => booked_of_idle (show _ = [] by decide) (show ∀ b ∈ Almanac.reset.slots.toList, b.live = false by decide) c t
  · exact fun b t => guarded_of_idle (show ∀ b ∈ Almanac.reset.slots.toList, b.live = false by decide) b t none

/-- A full queue of the special-function unit, and a booking that does not hold it. -/
theorem witness_special_functions_stops : ∃ s₁ s₂ : State, (s₁.th.st ≠ .booked ∧ 8 ≤ (s₁.me.sfu.ops.filter (·.started.isNone)).length) ∧
    s₂.th.st = .booked ∧ s₂.me.ownHolds s₂.th 2 s₂.tick = false :=
  ⟨onCore [] fun k => { k with sfu := { k.sfu with ops := List.replicate 8 ⟨0, 0, .rcp, 31, 1, 0, 0, 0, false, none, []⟩ } }, bookedOn [] [] id id, by decide, by decide⟩

/-- A group of eight registers at the end of the scratchpad and at the start of the buffers. -/
theorem witness_local_vector_access_group : ∃ (s : State) (d : VReg) (a b : GReg) (sh : VecShape), s.memoryQuiet ∧
    vecShape d .octet .f32 (s.readG a).toNat = .ok sh ∧ sh.regs = 8 ∧ sh.n = 512 ∧ s.effective a ((0#8).toInt * 64) = (localBase + 0xFFE00, false) ∧
    s.effective b ((0#8).toInt * 64) = (localBase + 0x110000, false) ∧ (localBase + 0xFFE00) % sh.align = 0 ∧
    s.qualStop false .plain (localBase + 0xFFE00) 0xFFE00 512 = none ∧ s.qualStop true .full (localBase + 0xFFE00) 0xFFE00 512 = none :=
  ⟨run [(5, 0xF0000000FFE00), (6, 0xF000000110000)], 24, 5, 6, ⟨512, 8, 4⟩, calm_quiet (by decide), rfl, by decide, by decide, by decide, by decide, by decide,
   by decide, by decide⟩

/-- The later cycles of a load and of a store: one that its bank serves and is the last, and one that its bank does not serve. -/
theorem witness_local_vector_access_work : ∃ (s : Fin 3 → State) (w : Fin 3 → LocalWork) (c : WorkCycle) (rest : Fin 3 → List WorkCycle),
    (∀ n, (s n).th.work = some (w n) ∧ (w n).left = c :: rest n ∧ (s n).me.sram.wf = true ∧ (s n).th.st ≠ .booked ∧ c.parts = [(0xFFFC0, 64, 64)]) ∧
    ((s 0).banksStop (c.banks.map fun b => (b, (s 0).cycle)) = none ∧ (w 0).store = false ∧ rest 0 = [] ∧ (w 0).fin = .loaded 30 2 ∧ (s 0).cycle ≤ (w 0).ready) ∧
    ((s 1).banksStop (c.banks.map fun b => (b, (s 1).cycle)) = none ∧ (w 1).store = true ∧ rest 1 ≠ []) ∧
    (s 2).banksStop (c.banks.map fun b => (b, (s 2).cycle)) ≠ none := by
  let c : WorkCycle := ⟨[31], [(0xFFFC0, 64, 64)]⟩
  let rest (n : Fin 3) : List WorkCycle := if n = 1 then [c] else []
  let w (n : Fin 3) : LocalWork := ⟨1000, c :: rest n, n == 1, 5, if n = 1 then .stored else .loaded 30 2, 1003⟩
  refine ⟨fun n => onCore [] fun k => { k with threads := k.threads.set 0 { thrOf [] with work := some (w n) }, bankUses := if n = 2 then [⟨31, 1000, 0⟩] else [] },
    w, c, rest, fun n => ⟨?_, ?_, ?_, ?_, ?_⟩, by decide, by decide, by decide⟩ <;> revert n <;> decide

/-- Ticks 125 to 140 of the matrix engine and of every scratchpad bank. -/
def engineHolds : List Hold := ⟨1, 0, 0, 125, 140⟩ :: bookedHolds

/-- A booked thread whose units the engine owns. -/
def bookedEngine (l : List (Nat × Nat)) (holds : List Hold) (cmds : List MeCmd) : State :=
  bookedOn l holds id fun k => { k with owners := [(255, 1), (259, 1), (263, 1), (271, 1)], matrix := { k.matrix with mg := k.matrix.mg.set 7 0x400000040000, cmds := cmds } }

/-- A command of a booked thread that is accepted, one whose engine is occupied, one whose booking does not hold the engine, and one whose
doubled time it does not hold. -/
theorem witness_matrix_commands_booked : ∃ s : Fin 4 → State, (∀ n, (s n).usable [.rg 5 false, .rg 6 false] ∧ (s n).th.st = .booked ∧
      (∀ u ∈ anMma.units, (s n).me.owner u = 1) ∧
      geometryFault .sq .bf16 .bf16 false false (geoOf (((s n).me.matrix.mg[(7#3).toNat]?).getD 0).toNat) = 0 ∧ anMma.blocks.2 = 0 ∧ anMma.cycles.1 = 64) ∧
    (let holds (n : Fin 4) (tick : Nat) : Bool := (s n).me.ownHolds (s n).th 1 tick
     ((s 0).me.matrix.cmds = [] ∧ (∀ k, k < 16 → holds 0 (125 + k)) ∧ (s 0).me.matrix.throttle ≠ 2 ∧
       ((s 0).me.booking ((s 0).th.slot.getD 0)).thr = false ∧ (s 0).me.matrix.soft = []) ∧
     (∃ m ∈ (s 1).me.matrix.cmds, m.start.isSome = true ∧ (s 1).cycle < m.freeAt) ∧
     ((s 2).me.matrix.cmds = [] ∧ ¬ holds 2 130 ∧ ∀ k, k < 5 → holds 2 (125 + k)) ∧
     ((s 3).me.matrix.throttle = 2 ∧ (∀ k, k < 11 → holds 3 (125 + k)) ∧ ¬ holds 3 136)) := by
  let s (n : Fin 4) : State := #v[bookedEngine [] engineHolds [], bookedEngine [] engineHolds [{ meCmd anMma with start := some 990, freeAt := 1001 }],
    bookedEngine [] [⟨1, 0, 0, 125, 129⟩] [],
    { bookedEngine [] [] [] with cores := State.reset.cores.set 0 (let k := (bookedEngine [] [⟨1, 0, 0, 125, 135⟩] []).me
      { k with matrix := { k.matrix with throttle := 2 } }) }][n]
  refine ⟨s, fun n => ⟨usable_of ?_ _, ?_, ?_, ?_, ?_, ?_⟩, by decide, by decide, by decide, by decide⟩ <;> revert n <;> decide

/-- The faults of a command: a unit that is not the engine's, no operand bytes between the blocks, a geometry outside the buffer, a move past
the scratchpad. -/
theorem witness_matrix_commands_faults : ∃ s : Fin 4 → State, (∀ n, (s n).usable [.rg 5 false, .rg 6 false]) ∧
    anMma.units.find? (fun u => (s 0).me.owner u != 1) = some 271 ∧ ((s 1).readG 5).toNat % 2 ^ 52 % 64 ≠ 0 ∧
    geometryFault .sq .bf16 .bf16 false false (geoOf (((s 2).me.matrix.mg[(7#3).toNat]?).getD 0).toNat) = 5 ∧
    (((s 3).readG 5).toNat % 2 ^ 52 % 64 = 0 ∧ 0x100000 < localOff (((s 3).readG 5).toNat % 2 ^ 52) + bitsOf ((s 3).readG 6).toNat 31 16) := by
  refine ⟨fun n => #v[run [], engineOwns 0xF000000000020 0 0, onCore [] (fun k => { k with matrix := { k.matrix with mg := k.matrix.mg.set 7 0x40000 } }),
    engineOwns 0xF0000000FFFC0 0x00800000 0][n], fun n => usable_of ?_ _, by decide, by decide, by decide, by decide⟩
  revert n; decide

/-- Two records of 16 codes: well-formed with scale 1 and zero 0, and ill-formed. -/
theorem witness_matrix_starts_groups : ∃ r₁ r₂ : Nat, (recordValue false 16 r₁ 0).isSome = true ∧ (recordValue false 16 r₂ 0).isSome = false ∧
    (recordCode false r₁ 0 : Int) ≠ 0 :=
  ⟨5 + 0x3C00 * 2 ^ 128, 2 ^ 152, by decide⟩

/-- A window register with a reserved value; a block past NBLK, one past the scratchpad, one that lies in two blocks of the scratchpad. -/
theorem witness_trellis_instructions_faults : ∃ (s : State) (x : TrellisWindow), s.usable [.rg 5 false, .rg 6 false] ∧ windowOf (s.me.twReg 0).val.toNat = none ∧
    windowOf (s.me.twReg 3).val.toNat = some x ∧ x.nblk ≤ (s.readG 5).toNat ∧
    ((s.readG 6).toNat < x.nblk ∧ 0x100000 < x.at_ (s.readG 6).toNat + trellisBytes x.k) ∧
    ((s.readG 7).toNat < x.nblk ∧ x.at_ (s.readG 7).toNat + trellisBytes x.k ≤ 0x100000 ∧
      (x.at_ (s.readG 7).toNat + trellisBytes x.k - 1) / 64 - x.at_ (s.readG 7).toNat / 64 + 1 ≠ 1) := by
  refine ⟨onCore [(5, 65535), (6, 29999), (7, 3)] fun k => { k with trellis := { k.trellis with tw := (k.trellis.tw.set 3 ⟨0x7530000000000 + 4 * 0x30000, 0, 0⟩).set 0 ⟨2 ^ 63, 0, 0⟩ } }, ?_⟩
  refine ⟨((windowOf (0x7530000000000 + 4 * 0x30000)).getD ⟨2, .f32, 1, 0⟩), usable_of (by decide) _, by decide, by decide, by decide, by decide, by decide⟩

theorem witness_trellis_instructions_tencw_saved : ∃ s₁ s₂ : State, s₁.th.st ≠ .booked ∧ (∀ j ∈ s₁.me.trellis.jobs ++ s₁.me.trellis.saved, j.thr ≠ s₁.ct) ∧
    s₂.th.st ≠ .booked ∧ ∃ j ∈ s₂.me.trellis.jobs ++ s₂.me.trellis.saved, j.thr = s₂.ct :=
  ⟨run [], onCore [] fun k => { k with trellis := { k.trellis with saved := [job 0 0] } }, by decide⟩

theorem witness_trellis_instructions_work : ∃ (s : State) (w : LocalWork) (c : WorkCycle) (x : TrellisWindow), s.th.work = some w ∧ w.left = [c] ∧
    w.store = false ∧ w.fin = .decoded 0x1000000000 0 [(0, 127)] false 31 1 ∧ windowOf 0x1000000000 = some x ∧
    s.banksStop (c.banks.map fun b => (b, s.cycle)) = none ∧ s.me.sram.wf = true ∧ s.cycle ≤ w.ready ∧ (∀ i, s.me.aliasOf s.ct i = none) :=
  let c : WorkCycle := ⟨[0], [(64, 64, 4)]⟩
  let w : LocalWork := ⟨1000, [c], false, 5, .decoded 0x1000000000 0 [(0, 127)] false 31 1, 1005⟩
  ⟨onThread [] fun th => { th with work := some w }, w, c, ⟨2, .f32, 1, 0⟩, by decide, by decide, by decide, by decide, by decide, by decide, by decide, by decide,
   fun i => by simp [Core.aliasOf, show (onThread [] fun th => { th with work := some w }).me.engine.streams = [] from rfl]⟩

/-- A job held back by a pre-emption, and one done with another behind it. -/
theorem witness_encoder_jobs_others : ∃ s₁ s₂ : State, ((s₁.coreAt 0).trellis.jobs = [job 0 0] ∧ (s₁.coreAt 0).preempt ≠ .none ∧ (job 0 0).access = 0) ∧
    ∃ y, (s₂.coreAt 0).trellis.jobs = [job 1 0, y] ∧ y.id ≠ (job 1 0).id :=
  ⟨onCore [] fun k => { k with preempt := .stopping, trellis := { k.trellis with jobs := [job 0 0] } },
   onCore [] fun k => { k with trellis := { k.trellis with jobs := [job 1 0, { job 0 0 with id := 2 }] } }, by decide, { job 0 0 with id := 2 }, by decide⟩

/-- The places at which `rowact`, `rowpre` and `rowq` fault or wait; a booking that does not hold the bank; a row under repair. -/
theorem witness_row_operations_faults : ∃ s : Fin 6 → State, (∀ n, (s n).usable [.rg 5 false, .wg 6]) ∧
    (let x (n : Fin 6) := (s n).translate (s n).cc (s n).me.ctx (((s n).readG 5).toNat % 2 ^ 52) true false
     x 0 = .page ∧ x 1 = .loc 0 ∧ x 2 = .offstack 0x50000 ∧ x 3 = .foreign 1 ∧ x 4 = .moving ∧
     (x 5 = .vault 0x30000 ∧ (s 5).th.st = .booked ∧ (s 5).me.ownHolds (s 5).th (0x40 + vbank 0x30000) (s 5).tick = false)) := by
  refine ⟨fun n => #v[run [(5, 0x50000)], run [(5, 0xF000000000000)], run [(5, 0x20000)], run [(5, 0x30000)], mapped [(5, 0x40000)] (leafOf 2 0 0x30000),
    bookedOn [(5, 0x10000)] [] id id][n], fun n => usable_of ?_ _, by decide⟩
  revert n; decide

/-- A bank that is busy, and one whose row was activated less than 30 cycles ago. -/
theorem witness_row_operations_waits : ∃ s₁ s₂ : State, ((s₁.me.vault.bankAt 24 s₁.cycle).ops ≠ [] ∧ (s₁.me.vault.bankAt 24 s₁.cycle).row = none) ∧
    (s₂.me.vault.bankAt 24 s₂.cycle).row = some 0 ∧ s₂.cycle < (s₂.me.vault.bankAt 24 s₂.cycle).actAt + 30 :=
  ⟨banked ⟨none, 0, [⟨999, 1013, some 3, none⟩]⟩, banked ⟨some 0, 971, []⟩, by decide⟩

/-- An access at the controller of a bank whose row 8191 stands open. -/
def banked2 (q : VaultAcc) : State := onCore [] fun k => { k with vault := { k.vault with accs := [q], banks := k.vault.banks.set 24 ⟨some 8191, 900, []⟩ } }

/-- A row operation that stands at the controller. -/
theorem witness_row_operations_event : ∃ (s : Bool → State) (q : Bool → VaultAcc) (g : Seg), ∀ b, ((s b).coreAt 0).vault.accs = [q b] ∧ (q b).segs = [g] ∧
    (q b).abandoned = false ∧ g.held = false ∧ g.moved ≠ g.n ∧ g.ready = false ∧ g.bank < 32 ∧ ((s b).coreAt 0).vault.powerAt ≤ (s b).cycle ∧
    (q b).op = (if b then .rowact else .rowpre) ∧ ((s b).coreAt 0).mayMove (s b).cycle g.bank (q b) = true := by
  let g : Seg := ⟨24, 0, 0x30000, 1, 0, 0, 0, false, false⟩
  let q (b : Bool) : VaultAcc := { anAcc (if b then .rowact else .rowpre) 1 0 0 0 none with segs := [g] }
  refine ⟨fun b => banked2 (q b), q, g, fun b => ?_⟩
  cases b <;> decide

/-- The faults of a tile move, and a fifth one. -/
theorem witness_tile_moves_faults : ∃ s : Fin 7 → State, (∀ n, (s n).usable [.rg 5 false, .rg 6 false]) ∧
    (let va (n : Fin 7) := ((s n).readG 5).toNat % 2 ^ 52
     let la (n : Fin 7) := ((s n).readG 6).toNat % 2 ^ 52
     let x (n : Fin 7) := (s n).translate (s n).cc (s n).me.ctx (va n) true false
     va 0 % 512 ≠ 0 ∧ (va 1 % 512 = 0 ∧ la 1 % 512 ≠ 0) ∧ (va 2 % 512 = 0 ∧ la 2 % 512 = 0 ∧ va 2 / 65536 ≠ (va 2 + 1023) / 65536) ∧
     x 3 = .offstack 0x50000 ∧ (x 4 = .vault 0x30000 ∧ localOff (la 4) + 512 = 0x160200) ∧ x 5 = .foreign 1 ∧
     (x 6 = .vault 0x30000 ∧ 4 ≤ ((s 6).th.outs.filter (·.tile)).length)) := by
  refine ⟨fun n => #v[run [(5, 0x10100)], run [(5, 0x10000), (6, 0x100)], run [(5, 0x1FE00), (6, 0xF000000000000)], run [(5, 0x20000), (6, 0xF000000000000)],
    run [(5, 0x10000), (6, 0xF000000160000)], run [(5, 0x30000), (6, 0xF000000000000)],
    onThread [(5, 0x10000), (6, 0xF000000000000)] fun th => { th with outs := List.replicate 4 { access .vault .none with tile := true } }][n],
    fun n => usable_of ?_ _, by decide⟩
  revert n; decide

theorem witness_tile_moves_vsync_booked : ∃ s : State, s.th.st = .booked ∧ (∃ o ∈ s.th.outs, o.tile = true) ∧ ∀ x ∈ s.me.vault.accs, x.abandoned = false :=
  ⟨bookedOn [] [] (fun th => { th with outs := [{ access .vault .none with tile := true }] }) id, by decide⟩

/-- An access whose row does not stand open, and one that is abandoned. -/
theorem witness_vault_beats_rows : ∃ (s : State) (a : VaultAcc) (g : Seg), (s.coreAt 0).vault.accs = [a] ∧ a.segs = [g] ∧ a.by_ = .thread 0 ∧ a.abandoned = false ∧
    g.ready = false ∧ g.moved < g.n ∧ a.rowOp = false ∧ (s.coreAt 0).vault.powerAt ≤ s.cycle ∧ (accessing { a with abandoned := true }).me.vault.accs = [{ a with abandoned := true }] :=
  let g : Seg := ⟨24, 0, 0x30000, 8, 0, 0, 0, false, false⟩
  let a : VaultAcc := { anAcc .load 8 0 0 0 none with segs := [g] }
  ⟨accessing a, a, g, by decide⟩

/-- A row's second corrected error, its first, and a lane's eighth code word. -/
theorem witness_vault_upkeep_errors : ∃ v : Vault, (∃ r ∈ v.rowErrs, r.bank = 31 ∧ r.row = 8191 ∧ r.scheduled = false) ∧ (∀ r ∈ v.rowErrs, ¬ (r.bank = 30 ∧ r.row = 8191)) ∧
    v.laneErrs = [(143, [1, 2, 3, 4, 5, 6, 7])] ∧ v.laneRepairs = [] ∧ v.lanesRepaired = [] :=
  ⟨{ Vault.reset with rowErrs := [⟨31, 8191, 1, false, none, false⟩], laneErrs := [(143, [1, 2, 3, 4, 5, 6, 7])] }, by decide⟩

/-- Pages that an epoch judges: off-stack and warm, warm for another vault, cold. -/
theorem witness_page_migration_judged : ∃ (s : State) (l : Fin 3 → LeafAt), (∀ n, (l n).log = 16 ∧ bitsOf (l n).entry 60 59 ≤ 1 ∧ bitsOf (l n).entry 62 61 ≤ 1 ∧
      bitOf (l n).entry 56 = false) ∧ (l 0).frames = [5] ∧ (l 1).frames = [3] ∧ (l 2).frames = [4] ∧
    (let y (n : Fin 3) := s.frameCnt (vaultOf (l n).entry) ((l n).frames.headD 0)
     let warm (n : Fin 3) : Bool := s.helm.policy.hot ≤ (y n).count && (y n).count ≤ 2 * (y n).weight
     warm 0 = true ∧ (warm 1 = true ∧ (y 1).cand ≠ 0) ∧ warm 2 = false ∧ (y 2).count < s.helm.policy.cold) :=
  ⟨{ onCore [] (fun k => { k with vault := { k.vault with frames := [⟨3, 10, 7, 5⟩, ⟨4, 1, 7, 1⟩] } }) with
      offFrames := [⟨5, 10, 9, 5⟩], helm := { Helm.reset with policy := ⟨true, true, 1024, 10, 2⟩ } },
   fun n => ⟨#v[leafOf 0 0 0x50000, leafOf 1 0 0x30000, leafOf 1 0 0x40000][n], 0x22008, 16⟩, by decide⟩

/-- A move under way: its chunk's turn at a source vault, from off-stack memory, its chunk asked for, and there. -/
def aMove (src dst : Nat) (toVault : Option Nat) (asked : Bool) (got : List (Nat × Nat)) : Move :=
  ⟨1, 0x10000, 0x22008, toVault, BitVec.ofNat 64 src, BitVec.ofNat 64 dst, true, 7, 15, asked, got, some 900⟩

theorem witness_page_migration_chunk : ∃ (s : Fin 4 → State) (m : Fin 4 → Move), (∀ n, (s n).helm.moves = [m n] ∧ (m n).moving = true ∧ (s n).offstack.wf = true ∧
      (m n).chunk < 16 * (framesOfEntry (m n).source.toNat).length) ∧
    (let spa := 0x30000 + 4096 * 15
     (m 0).asked = false ∧ vaultOf (m 0).source.toNat = some 0 ∧ agentTick (s 0).tick = true ∧ (s 0).cycle % 8 = 7 ∧ (m 0).rdy = some 900 ∧ 900 + 10 ≤ 8 * (s 0).tick ∧
       ((s 0).me.vault.bank (vbank spa)).row = some (vrow spa) ∧ (s 0).me.vault.windowEnd 0 (vbank spa) (s 0).cycle false = none ∧
       (s 0).me.vault.badWord spa 4096 = none) ∧
    ((m 1).asked = false ∧ vaultOf (m 1).source.toNat = none ∧ (m 1).toVault = some 0) ∧ ((m 2).asked = true ∧ (m 2).got.length < 64) ∧
    ((m 3).asked = true ∧ 64 ≤ (m 3).got.length ∧ ((m 3).got.map (·.1)).Nodup ∧ (∀ y ∈ (m 3).got, y.1 / 64 = (m 3).chunk) ∧ (m 3).toVault = some 0) := by
  let m (n : Fin 4) : Move := #v[aMove (leafOf 1 0 0x30000) (leafOf 0 0 0x60000) none false [], aMove (leafOf 0 0 0x50000) (leafOf 1 0 0x60000) (some 0) false [],
    aMove (leafOf 0 0 0x50000) (leafOf 1 0 0x60000) (some 0) true [(960, 1)],
    aMove (leafOf 0 0 0x50000) (leafOf 1 0 0x60000) (some 0) true ((List.range 64).map fun i => (960 + i, i))][n]
  refine ⟨fun n => { onCore [] (fun k => { k with vault := { k.vault with banks := k.vault.banks.set (vbank 0x3F000) ⟨some (vrow 0x3F000), 900, []⟩ (by decide) } }) with
    cycle := 1023, helm := { Helm.reset with moves := [m n] } }, m, fun n => ?_, by decide, by decide, by decide, by decide⟩
  revert n; decide

theorem witness_atomic_accesses_others : ∃ s : Fin 7 → State, (∀ n, (s n).usable [.rg 5 true, .rg 6 true, .wg 7, .rg 7 false]) ∧
    (let va (n : Fin 7) := ((s n).readG 5).toNat % 2 ^ 52
     let tr (n : Fin 7) := (s n).translate (s n).cc (s n).me.ctx (va n) true true
     (∀ n, va n % 4 = 0) ∧ (tr 0 = .offstack 0x5FFFC ∧ (s 0).me.net.replay = none) ∧ tr 1 = .page ∧ tr 2 = .prot ∧ tr 3 = .loc 0x100000 ∧ tr 4 = .foreign 1 ∧
     (tr 5 = .loc 0xFFFFC ∧ ((s 5).me.engineByte 0xFFFFC 4).isSome = true) ∧ tr 6 = .moving) := by
  refine ⟨fun n => #v[run [(5, 0x2FFFC)], run [(5, 0x50000)], mapped [(5, 0x40000)] (leafOf 1 0 0x30000 - 2 ^ 57), run [(5, 0xF000000100000)], run [(5, 0x30000)],
    engineOwns 0xF0000000FFFFC 0 0, mapped [(5, 0x40000)] (leafOf 2 0 0x30000)][n], fun n => usable_of ?_ _, by decide⟩
  revert n; decide

/-- The faults of `cpy` and `sbind`, a full engine, a channel that carries something, and a booked thread. -/
theorem witness_copies_and_streams_refusals : ∃ s : Fin 6 → State, (∀ n, (s n).usable [.rg 5 false, .wg 7]) ∧
    (let va (n : Fin 6) := ((s n).readG 5).toNat % 2 ^ 52
     va 0 % 64 ≠ 0 ∧ (va 1 % 64 = 0 ∧ localBase + 0x100000 ≤ va 1) ∧ (va 2 = localBase + 0xFF000 ∧ (s 2).me.owner 255 ≠ 0) ∧
     512 ≤ ((s 3).me.engine.copies.filter fun z => z.st == .queued || z.st == .running || z.st == .parked || !z.tiles.isEmpty).length ∧
     (∃ z ∈ (s 4).me.engine.copies, z.chan = 15 ∧ z.st = .parked) ∧ (s 5).th.st = .booked) := by
  refine ⟨fun n => #v[run [(5, 0xF000000000020)], run [(5, 0xF000000100000)], engineOwns 0xF0000000FF000 0 0, streaming copyDesc 0 [] (List.replicate 512 (aCopy .queued)),
    streaming streamDesc 0 [] [aCopy .parked], bookedOn [] [] id id][n], fun n => usable_of ?_ _, by decide⟩
  revert n; decide

/-- A booked thread that holds the channel, with a unit there, without, and with a failed unit; one that does not hold it. -/
theorem witness_stream_registers_booked : ∃ (s : Fin 4 → State) (x : Fin 4 → Stream), (∀ n, (s n).th.st = .booked ∧ (s n).steps (s n).cc (s n).ct = false ∧
      (s n).me.aliasOf (s n).ct (31#5).toNat = some (15, x n) ∧ (x n).taken < (x n).units ∧ (x n).write = false) ∧
    ((s 0).me.ownHolds (s 0).th 0x3F (s 0).tick = true ∧ ∃ p ∈ (x 0).present, p.1 = (x 0).taken ∧ p.2 < (s 0).cycle) ∧
    (∀ p ∈ (x 1).present, ¬ (p.1 = (x 1).taken ∧ p.2 < (s 1).cycle)) ∧ (x 2).failed = some ((x 2).taken, 5) ∧
    (s 3).me.ownHolds (s 3).th 0x3F (s 3).tick = false := by
  let x (n : Fin 4) : Stream := #v[aStream false 1 0 [(1, 999)], { aStream false 1 0 [] with elastic := true, slip := 3 }, { aStream false 1 0 [] with failed := some (1, 5) },
    aStream false 1 0 [(1, 999)]][n]
  refine ⟨fun n => bookedOn [] (if n = 3 then [] else [⟨0x3F, 0, 0, 125, 140⟩]) id fun k => { k with engine := { k.engine with streams := [(15, x n)] } }, x,
    fun n => ?_, by decide, by decide, by decide, by decide⟩
  revert n; decide

/-- A core whose engine has one stream on channel 15, or one copy, with its granules full or not. -/
def engined (streams : List (Nat × Stream)) (copies : List Copy) (grans : List Nat) : State :=
  onCore [] fun k => { k with granules := grans, engine := { k.engine with streams := streams, copies := copies } }

/-- A write stream with a unit to drain into the scratchpad, a read stream that empties its granules, full and not, and units on a page without an
entry, in migration, in another vault and off-stack. -/
theorem witness_stream_engine_events_places : ∃ (s : Fin 6 → State) (x : Fin 6 → Stream),
    (∀ n, ((s n).coreAt 0).engine.streams = [(15, x n)] ∧ (x n).failed = none ∧ (x n).arrived = [] ∧ (x n).requested < (x n).units ∧ ((s n).coreAt 0).net.replay = none) ∧
    (let tr (n : Fin 6) := (s n).translate 0 ((s n).coreAt 0).ctx ((x n).unitVa (x n).requested) (!(x n).write) (x n).write
     (tr 0 = .loc 0xFFFC0 ∧ (x 0).write = true ∧ (∃ p ∈ (x 0).present, p.1 = (x 0).requested) ∧ (x 0).requestAt = []) ∧
     (tr 1 = .loc 0xFFFC0 ∧ (x 1).fe = true ∧ ∀ g, 0xFFFC ≤ g → g < 0x10000 → ((s 1).coreAt 0).granFull g = true) ∧
     (tr 2 = .loc 0xFFFC0 ∧ (x 2).fe = true ∧ ((s 2).coreAt 0).granFull 0xFFFF = false) ∧ tr 3 = .page ∧ tr 4 = .foreign 1 ∧ tr 5 = .offstack 0x50000) := by
  let at_ (va : Nat) (fe : Bool) : Stream := { aStream false 0 0 [] with base := va, fe := fe }
  let x (n : Fin 6) : Stream := #v[{ aStream true 1 0 [(0, 999)] with base := 0xF0000000FFFC0 }, at_ 0xF0000000FFFC0 true, at_ 0xF0000000FFFC0 true, at_ 0x50000 false,
    at_ 0x30000 false, at_ 0x20000 false][n]
  refine ⟨fun n => engined [(15, x n)] [] (if n = 1 then [0xFFFC, 0xFFFD, 0xFFFE, 0xFFFF] else []), x, fun n => ?_, by decide, ?_, by decide, by decide, by decide, by decide⟩
  · revert n; decide
  · refine ⟨by decide, by decide, fun g h1 h2 => ?_⟩
    have : g = 0xFFFC ∨ g = 0xFFFD ∨ g = 0xFFFE ∨ g = 0xFFFF := by omega
    rcases this with rfl | rfl | rfl | rfl <;> decide

/-- A copy with a block to read, and one with the last block to write. -/
theorem witness_stream_engine_events_blocks : ∃ (s : Bool → State) (x : Bool → Copy), (∀ b, ((s b).coreAt 0).engine.copies = [x b] ∧ (x b).chan = 15 ∧ (x b).st = .running ∧
      (x b).readyAt ≤ (s b).cycle ∧ ((s b).coreAt 0).sram.wf = true) ∧
    ((x false).reads[(x false).asked]? = some (localBase + 0x1000, none) ∧ (x false).performed < (x false).writes.length) ∧
    ((x true).reads.length ≤ (x true).asked ∧ (∀ r ∈ (x true).reads, r.2.isSome = true) ∧ (x true).writes[(x true).sent]? = some (localBase + 0x2000) ∧
      (x true).writes.length ≤ (x true).performed + 1 ∧ ((x true).blockData (localBase + 0x2000)).2 = 2 ^ 64 - 1) := by
  let x (b : Bool) : Copy := { aCopy .running with readyAt := 0, reads := [(localBase + 0x1000, if b then some 5 else none)], asked := if b then 1 else 0, writes := [localBase + 0x2000] }
  exact ⟨fun b => engined [] [x b] [], x, by decide, by decide, by decide⟩

/-- The refusals of requests: full, an acquire under way, a stream register, and a booked thread. -/
theorem witness_remote_requests_stops : ∃ s : Fin 3 → State, (∀ n, (s n).me.net.replay = none) ∧
    ((s 0).th.st = .booked ∧ 64 ≤ ((s 0).th.outs.filter fun o => o.kind == .remote && !o.told).length) ∧
    ((s 1).th.outs.filter (fun o => o.kind == .remote && !o.told)).length < 64 ∧ (∃ y ∈ (s 1).th.outs, y.acquire = true) ∧
    ((s 2).me.aliasOf (s 2).ct (31#5).toNat).isSome = true :=
  ⟨fun n => #v[bookedOn [] [] (fun th => { th with outs := List.replicate 64 (access .remote .none) }) id,
    withOuts [{ access .vault (.g 9) with acquire := true }], streaming 0 0 [(15, aStream false 0 0 [])] []][n], by decide⟩

theorem witness_messages_and_status_booked : ∃ s : State, s.usable [.wv 31 1, .wg 5] ∧ s.me.agent.messages = [] ∧ s.th.st = .booked :=
  ⟨bookedOn [] [] id id, usable_of (by decide) _, by decide⟩

/-- Windows: none that serves the context, one that does not cover the bytes, one that does not grant the request. -/
theorem witness_agent_requests_windows : ∃ (s : Fin 3 → State) (r : Req), (∀ n, (s n).partOf 0 ≠ none ∧ ((s n).coreAt 0).ctx ≠ 0 ∧ ((s n).coreAt 0).net.accepting = true) ∧
    r.thr < 9 ∧ (∀ i : Fin 8, ¬ ((((s 0).coreAt 0).agent.windows[i]).2.2.getLsbD 7 = true)) ∧
    ((s 1).admission 0 r = .refuse 2) ∧ (s 2).admission 0 r = .refuse 3 := by
  let w (a b f : Nat) : State := onCore [] fun k => { k with agent := { k.agent with windows := k.agent.windows.set 7 (BitVec.ofNat 64 a, BitVec.ofNat 64 b, BitVec.ofNat 64 f) } }
  exact ⟨fun n => #v[run [], w 0xF000000000000 0xF0000000FFFC0 0x10081, w 0xF000000000000 0xF000000100000 0x10082][n], aReq .get 0xF0000000FFFF8 8, by decide, by decide, by decide,
    by decide, by decide⟩

/-- A message for a full queue; an active message for an idle thread, for the launch queue, and for a full one. -/
theorem witness_agent_requests_messages : ∃ s : Fin 4 → State, 32 ≤ ((s 0).coreAt 0).agent.messages.length ∧
    (((s 1).coreAt 0).agent.launches = [] ∧ (s 1).idleThread 0 = some 1) ∧ ((s 2).coreAt 0).agent.launches.length = 15 ∧ 16 ≤ ((s 3).coreAt 0).agent.launches.length :=
  ⟨fun n => #v[onCore [] (fun k => { k with agent := { k.agent with messages := List.replicate 32 ⟨0, 0⟩ } }), run [],
    onCore [] (fun k => { k with agent := { k.agent with launches := List.replicate 15 ⟨0, 0, 0, 1, none⟩ } }),
    onCore [] (fun k => { k with agent := { k.agent with launches := List.replicate 16 ⟨0, 0, 0, 1, none⟩ } })][n], by decide⟩

/-- A request in two parts, one with and one without a destination to poison, and a full queue of refusals. -/
theorem witness_answers_and_offstack_parts : ∃ s : Fin 3 → State, (∀ n, ((s n).coreAt 0).net.replay = none ∧ ((s n).thrAt 0 0).imaged = none) ∧
    (∃ o, ((s 0).thrAt 0 0).outs = [o] ∧ 1 < o.left ∧ o.det0 = 0 ∧ o.units = []) ∧ (∃ o, ((s 1).thrAt 0 0).outs = [o] ∧ o.det0 = 0x41 ∧ ((s 1).thrAt 0 0).refusals.length < 8) ∧
    ∃ o, ((s 2).thrAt 0 0).outs = [o] ∧ o.det0 = 0x43 ∧ 8 ≤ ((s 2).thrAt 0 0).refusals.length :=
  ⟨fun n => #v[withOuts [{ access .off (.g 9) with left := 2 }], withOuts [{ access .remote .none with det0 := 0x41 }],
    onThread [] fun th => { th with outs := [{ access .remote .none with det0 := 0x43 }], refusals := List.replicate 8 ⟨false, 0, 0x43, 1⟩ }][n], by decide,
   ⟨{ access .off (.g 9) with left := 2 }, by decide⟩, ⟨{ access .remote .none with det0 := 0x41 }, by decide⟩, ⟨{ access .remote .none with det0 := 0x43 }, by decide⟩⟩

theorem witness_launches_partition : ∃ (s : Bool → State) (q : Bool → Partition), ∀ b, (s b).partOf 0 = some 0 ∧ (s b).partAt 0 = some (q b) ∧ (q b).stopped = b ∧
    ((s b).coreAt 0).net.replay = none ∧ ((s b).thrAt 0 0).st ≠ .idle ∧ ((s b).thrAt 0 1).st = .idle :=
  ⟨fun b => { run [] with parts := State.reset.parts.set 0 (some { part0 with stopped := b }) }, fun b => { part0 with stopped := b }, by decide⟩

/-- What a fence waits for: a running copy of the thread on local pages, and a unit appended to a stream and not drained; the register that a fence finds
poisoned. -/
theorem witness_fences_and_owners_engine : ∃ s : Fin 3 → State,
    (∃ x ∈ (s 0).me.engine.copies, x.thr = (s 0).ct ∧ x.st = .running ∧ ∃ va ∈ x.pages, isLocal va = true) ∧
    (∃ p ∈ (s 1).me.engine.streams, p.2.thr = (s 1).ct ∧ p.2.write = true ∧ p.2.drained ≤ 0 ∧ 0 < p.2.taken ∧ (s 1).translate (s 1).cc (s 1).me.ctx (p.2.unitVa 0) false false = .vault 0x30000) ∧
    ∃ x ∈ (s 2).th.allRegs, x.st = .poisoned 0x30000 3 16 ∧ x.code = 5 :=
  ⟨fun n => #v[streaming 0 0 [] [aCopy .running], streaming 0 0 [(15, aStream true 1 0 [])] [], odd ⟨0, .poisoned 0x30000 3 16, 1000⟩][n],
   ⟨aCopy .running, by decide⟩, ⟨(15, aStream true 1 0 []), by decide⟩, ⟨⟨5, .clearG 5, false, .poisoned 0x30000 3 16, 1000⟩, by decide⟩⟩

/-- The faults of `ownf` and its waits: an unaligned address, tiles past the scratchpad, a malformed word, a tile of another engine, a tile in use. -/
theorem witness_fences_and_owners_ownf : ∃ s : Fin 5 → State, (∀ n, (s n).usable [.rg 5 false, .rg 6 false, .wg 7]) ∧
    (let va (n : Fin 5) := ((s n).readG 5).toNat % 2 ^ 52
     let v (n : Fin 5) := ((s n).readG 6).toNat
     va 0 % 4096 ≠ 0 ∧ (va 1 % 4096 = 0 ∧ localBase + 0x100000 < va 1 + 4096 * (v 1 % 512)) ∧ (va 2 = localBase ∧ bitsOf (v 2) 18 16 = 2) ∧
     (va 3 = localBase + 0xFF000 ∧ v 3 = 0x40001 ∧ (s 3).me.owner 255 = 1) ∧
     (va 4 = localBase + 0xF000 ∧ (s 4).me.owner 15 = 0 ∧ (s 4).me.quiet 15 = false)) := by
  refine ⟨fun n => #v[ordered 0xF000000000800 1 0 [], ordered 0xF0000000FF000 2 0 [], ordered 0xF000000000000 0x20001 0 [], engineOwns 0xF0000000FF000 0x40001 0,
    ordered 0xF00000000F000 0x40001 0 [{ access .vault .none with tile := true, lo := 0xF000, n := 512 }]][n], fun n => usable_of ?_ _, by decide⟩
  revert n; decide

theorem witness_events_and_signals_booked : ∃ s : State, s.usable [.rg 5 false, .rg 6 false, .wg 7] ∧ (s.readG 5).toNat = 1 ∧ s.th.evpend = 0 ∧ s.th.st = .booked :=
  ⟨bookedOn [(5, 1)] [] id id, usable_of (by decide) _, by decide⟩

/-- A signal for the core itself, for a core outside the partition, and for one that is not of this device's form; a timer that has expired. -/
theorem witness_events_and_signals_others : ∃ s : Fin 4 → State, (let m (n : Fin 4) := ((s n).readG 5).toNat
    (bitsOf (m 0) 17 8 = 0x3FF ∧ m 0 % 256 = (s 0).cc) ∧ (bitsOf (m 1) 17 8 = 0x3FF ∧ (s 1).myPart = some part0 ∧ part0.rect.has (m 1 % 256) = false) ∧
    bitsOf (m 2) 17 8 ≠ 0x3FF) ∧ ((s 3).thrAt 0 0).timer = some 1000 ∧ ((s 3).thrAt 0 0).st ≠ .idle := by
  exact ⟨fun n => #v[ordered 0x3FF00 15 0 [], ordered 0x3FFFF 1 0 [], ordered 0x3FE00 1 0 [], onThread [] fun th => { th with timer := some 1000 }][n], by decide, by decide⟩

theorem witness_barriers_join_booked : ∃ s : State, s.usable [.rg 5 false, .rg 6 false, .rg 7 false] ∧ s.me.net.replay = none ∧ s.th.st = .booked ∧ s.partOf s.cc = some 0 :=
  ⟨bookedOn [] [] id id, usable_of (by decide) _, by decide⟩

/-- An arrival record of three cores, and a participant that is away from its barrier. -/
theorem witness_barrier_events_records : ∃ (x : Group) (s : State), x.arrived = [(17, 900), (0, 990), (1, 990)] ∧ (∀ a ∈ x.arrived, 900 ≤ a.2 ∧ a.1 < 256) ∧
    (∃ i ∈ x.issued, i.ctx = (s.coreAt 0).ctx ∧ i.core = 0 ∧ i.thr = 1) ∧ (s.thrAt 0 1).block = .none :=
  ⟨{ aGroup .redm 8 [⟨1, 0, 0, 0x3F800000⟩, ⟨1, 0, 1, 0x40000000⟩] with arrived := [(17, 900), (0, 990), (1, 990)] }, run [], by decide⟩

/-- Where the place of a list faults, or the list is elsewhere: an unaligned address, no entry, the code store, off-stack, another vault, the core's own
vault; in two blocks of the scratchpad; and a booked thread. -/
theorem witness_booking_requests_places : ∃ s : Fin 8 → State, (∀ n, (s n).usable [.rg 5 false, .rg 6 false, .wg 31] ∧ (s n).me.almanac.busyUntil ≤ (s n).cycle ∧
      (s n).me.almanac.commit = none ∧ (s n).me.almanac.reading = none) ∧
    (let va (n : Fin 8) := ((s n).readG 5).toNat % 2 ^ 52
     let tr (n : Fin 8) := (s n).translate (s n).cc (s n).me.ctx (va n) true false
     va 0 % 8 ≠ 0 ∧ tr 1 = .page ∧ va 2 = localBase + 0x100000 ∧ tr 3 = .offstack 0x50000 ∧ tr 4 = .foreign 1 ∧ tr 5 = .vault 0x3FFF8 ∧
     (va 6 = localBase + 56 ∧ headCount (memGetN (s 6).me.sram 56 8) = 1) ∧ (s 7).th.st = .booked) := by
  refine ⟨fun n => #v[run [(5, 0xF000000000004)], run [(5, 0x50000)], run [(5, 0xF000000100000)], run [(5, 0x20000)], run [(5, 0x30000)], run [(5, 0x1FFF8)],
    onCore [(5, 0xF000000000038)] (fun k => { k with sram := memSetN [] 56 8 (1 + 2 ^ 16) }), bookedOn [] [] id id][n], fun n => ⟨usable_of ?_ _, ?_, ?_, ?_⟩, by decide⟩ <;>
    revert n <;> decide

/-- A read of a list under way: one block more, the last block, and one in the vault that is complete. -/
theorem witness_booking_requests_reading : ∃ (s : Fin 3 → State) (r : Fin 3 → ListRead), (∀ n, (s n).me.almanac.reading = some (r n) ∧ (r n).thr = (s n).ct) ∧
    ((r 0).acc = none ∧ (r 0).left = [(64, 8, 64), (128, 72, 8)]) ∧ ((r 1).acc = none ∧ (r 1).left = [(128, 72, 8)]) ∧
    (r 2).acc = some 7 ∧ (r 2).left = [] ∧ ∀ o ∈ (s 2).th.outs, o.id ≠ 7 :=
  let r (n : Fin 3) : ListRead := ⟨0, false, 5, #v[[(64, 8, 64), (128, 72, 8)], [(128, 72, 8)], []][n], if n = 2 then some 7 else none⟩
  ⟨fun n => onCore [(5, 0xF000000000038)] fun k => { k with almanac := { k.almanac with reading := some (r n) } }, r, by decide, by decide, by decide⟩

/-- Entries: of the port, of a link and of a row, and one that only a throttled engine cannot place. -/
theorem witness_booking_requests_entries : ∃ e : Fin 4 → Nat, (∀ n, e n < 2 ^ 64) ∧ bitsOf (e 0) 63 56 = 3 ∧ (bitsOf (e 1) 63 56 = 0x60 ∧ 0 < bitsOf (e 1) 45 36 ∧
      (routeHops 32 0 (bitsOf (e 1) 17 10))[0]? = some (0, 1)) ∧ (bitsOf (e 2) 63 56 = 0x5F ∧ 0 < bitsOf (e 2) 45 36) ∧
    throttleStatus true [1 + 8 * 2 ^ 16, e 3] = some (7, 0) ∧ throttleStatus false [1 + 8 * 2 ^ 16, e 3] = none :=
  ⟨fun n => #v[oneTick 3, oneTick 0x60 + 17 * 2 ^ 10, oneTick 0x5F, 2 ^ 56 + 7 * 2 ^ 46 + 2 ^ 36 + 2 ^ 28][n], by decide⟩

/-- A commit that a router has turned down, on its last attempt and before. -/
theorem witness_booking_events_failed : ∃ (s : Bool → State) (cm : Bool → Commit), (∀ b, ((s b).coreAt 0).almanac.commit = some (cm b) ∧ (cm b).pending = 0 ∧
      (cm b).due ≤ (s b).cycle ∧ (cm b).why = .make ∧ (cm b).failed = true) ∧ (cm true).attempt = 2 ∧ (cm false).attempt = 1 ∧ ∀ l ∈ (s false).links, l.core = 0 → l.committed = true :=
  let cm (b : Bool) : Commit := { aCommit with failed := true, attempt := if b then 2 else 1 }
  ⟨fun b => onCore [] fun k => { k with almanac := { k.almanac with commit := some (cm b) } }, cm, by decide⟩

/-- A flagged booking with a link entry, which compaction moves by a commit. -/
theorem witness_booking_events_compaction_link : ∃ s : State, (let b := (s.coreAt 0).booking 15
    b.st = .armed ∧ bitOf (b.list.headD 0) 32 = true ∧ (∃ h ∈ b.holds, h.code = 0x60) ∧
    (s.findStart 0 (some 15) (b.holds.map fun h => { h with first := h.first - b.start, last := h.last - b.start }) b.start 70 (8 * ceilDiv (8 * (s.tick + 8)) 64)).isSome = true) := by
  let b : Booking := { Booking.reset with st := .armed, start := 296, list := [2 ^ 32], holds := [⟨0x60, 0, 1, 300, 300⟩] }
  exact ⟨onCore [] fun k => { k with almanac := { k.almanac with dirty := some 999, slots := k.almanac.slots.set 15 b } }, by decide⟩

/-- A task whose bottom record names a list in the scratchpad; a full queue; the last cycle of `tfin`; a locked queue. -/
theorem witness_task_operations_others : ∃ s : Fin 4 → State,
    (∃ q b, (s 0).me.tasks.recs = q ++ [b] ∧ b.blist % 2 ^ 52 = localBase + 0xFFF80 ∧ headCount (memGetN (s 0).me.sram 0xFFF80 8) = 1) ∧
    (s 1).me.tasks.recs.length = 64 ∧
    (∃ w, (s 2).th.work = some w ∧ w.left = [⟨[bankOf 0xFFFF8], []⟩] ∧ w.fin = .counted 0xFFFF8 5 ∧ (s 2).bankStop (bankOf 0xFFFF8) (s 2).cycle = none) ∧
    ∃ r, (s 3).me.almanac.reading = some r ∧ r.forTake = true ∧ r.thr ≠ (s 3).ct := by
  let b : TaskRec := { aTask 0 0 8 0 with blist := 0xF0000000FFF80 }
  refine ⟨fun n => #v[onCore [(5, 0xF0000000FFFC0)] (fun k => { k with sram := memSetN [] 0xFFF80 8 (1 + 2 ^ 16), tasks := { k.tasks with recs := [b] } }),
    tasked b (List.replicate 64 b) false,
    onThread [] (fun th => { th with work := some ⟨1000, [⟨[bankOf 0xFFFF8], []⟩], false, 0, .counted 0xFFFF8 5, 1000⟩ }),
    onCore [] fun k => { k with almanac := { k.almanac with reading := some ⟨1, true, 0, [], none⟩ } }][n],
    ⟨[], b, rfl, by decide, by decide⟩, by decide, ⟨⟨1000, [⟨[bankOf 0xFFFF8], []⟩], false, 0, .counted 0xFFFF8 5, 1000⟩, by decide⟩, ⟨⟨1, true, 0, [], none⟩, by decide⟩⟩

/-- A victim whose queue a booked `take` has locked, and a token that a flit brings. -/
theorem witness_task_events_locked : ∃ s : Bool → State, (s true).me.queueLocked = true ∧ (s false).me.queueLocked = false ∧ ((s false).coreAt 16).ctx = 0 :=
  ⟨fun b => onCore [] fun k => { k with almanac := { k.almanac with reading := if b then some ⟨1, true, 0, [], none⟩ else none } }, by decide⟩

/-- A thread in privileged state with a resume word and a handle, its core with a booking in slot 15. -/
def returning (r h start : Nat) (st : BookSt) : State :=
  let k := coreOf { thrOf [(9, r), (10, h)] with priv := true }
  dev { k with almanac := { k.almanac with slots := k.almanac.slots.set 15 { Booking.reset with st := st, serial := 3, start := start } } }

/-- A resume word that is malformed; a handle of no booking, of a booking Lapsed, Armed, Made and passed, and Made and ahead. -/
theorem witness_system_instructions_eret : ∃ s : Fin 6 → State, (∀ n, (s n).th.priv = true ∧ (s n).th.pred always = true ∧
      (s n).usable [.rg 9 false, .rg 10 false, .wg 11]) ∧ 2 ^ 15 ≤ ((s 0).readG 9).toNat ∧ (∀ n, n ≠ 0 → ((s n).readG 9).toNat < 2 ^ 15) ∧
    (s 1).me.handleSlot ((s 1).readG 10).toNat = none ∧ (∀ n, 2 ≤ n.val → (s n).me.handleSlot ((s n).readG 10).toNat = some 15) ∧
    ((s 2).me.booking 15).st = .lapsed ∧ ((s 3).me.booking 15).st = .armed ∧ (∀ n, 4 ≤ n.val → ((s n).me.booking 15).st = .made) ∧
    (let wakes (n : Fin 6) := 8 * ((s n).me.booking 15).start + ((s n).me.booking 15).kappa - ((s n).me.booking 15).k0
     wakes 4 < (s 4).cycle + 2 ∧ (s 5).cycle + 2 ≤ wakes 5) := by
  refine ⟨fun n => #v[returning 0x8000 0 200 .made, returning 5 (15 * 2 ^ 56 + 4 * 2 ^ 48) 200 .made, returning 5 (15 * 2 ^ 56 + 3 * 2 ^ 48) 200 .lapsed,
    returning 5 (15 * 2 ^ 56 + 3 * 2 ^ 48) 200 .armed, returning 5 (15 * 2 ^ 56 + 3 * 2 ^ 48) 125 .made, returning 0x7FFF (15 * 2 ^ 56 + 3 * 2 ^ 48) 126 .made][n],
    fun n => ⟨?_, ?_, usable_of ?_ _⟩, by decide, by decide, by decide, by decide, by decide, by decide, by decide, by decide⟩ <;> revert n <;> decide

/-- The halt of a booked thread that is busy and of one that is not, of a thread whose wait ends, of a launched thread, of one that holds a
poisoned register, and of one with a queued refusal. -/
theorem witness_system_instructions_halt : ∃ s : Fin 6 → State, (∀ n, (s n).th.priv = false ∧ (s n).th.pred always = true) ∧
    (∀ n, n.val < 4 → (s n).th.poisonStop = none ∧ (s n).th.refusalStop = none) ∧
    ((s 0).th.st = .booked ∧ (s 0).th.slot = some 0 ∧ (s 0).th.since = none ∧ (s 0).threadBusy = true) ∧
    ((s 1).th.st = .booked ∧ (s 1).th.slot = some 0 ∧ (s 1).th.since = none ∧ (s 1).th.tag = none ∧ (s 1).threadBusy = false) ∧
    ((s 2).th.st ≠ .booked ∧ (s 2).threadBusy = false ∧ (s 2).th.since = some 990) ∧
    ((s 3).th.st ≠ .booked ∧ (s 3).threadBusy = false ∧ (s 3).th.since = none ∧ (s 3).th.tag = some 7 ∧ (s 3).me.net.replay = none) ∧
    (∃ e, (s 4).th.poisonStop = some (.trap e)) ∧ (s 5).th.poisonStop = none ∧ ∃ e, (s 5).th.refusalStop = some (.trap e) := by
  let held : State := odd ⟨0, .poisoned 0x30000 3 16, 1000⟩
  let refused : State := onThread [] fun th => { th with refusals := [⟨false, 0x30000, 4, 7⟩] }
  have h4 : held.th.poisonStop = some (.trap { cause := causeWnack, addr := 0x30000, det0 := 5, det1 := 3 + 16 * 256, effect := .clearG 5 }) := by decide
  have h5 : refused.th.refusalStop = some (.trap { cause := causeWnack, addr := 0x30000, det0 := 4, det1 := 7, effect := .popRefusal }) := by decide
  refine ⟨fun n => #v[bookedOn [] [] (fun th => { th with outs := [access .remote .none] }) id, bookedOn [] [] id id, onThread [] fun th => { th with since := some 990 },
    onThread [] fun th => { th with tag := some 7 }, held, refused][n], by decide, by decide, by decide, by decide, by decide, by decide, ⟨_, h4⟩, by decide, ⟨_, h5⟩⟩

/-- `sysc` in open mode and in a booked thread; `trc` with the ring full, and in a booked thread. -/
theorem witness_system_instructions_calls : ∃ s : Fin 3 → State, (∀ n, (s n).th.pred always = true ∧ (s n).usable [.rg 9 false, .rg 10 false, .wg 11] ∧
      ((s n).ctxOf (s n).me.ctx).dbg = true ∧ bitOf (s n).me.dbgctl.toNat (20 + (s n).ct) = true) ∧
    ((s 0).th.st ≠ .booked ∧ (s 0).me.net.replay = none) ∧ (s 1).th.st = .booked ∧
    ((s 2).th.st ≠ .booked ∧ ((s 2).ctxOf (s 2).me.ctx).ringFull = true ∧ (s 2).th.since = none) := by
  let s (n : Fin 3) : State := debugged (2 ^ 20) fun th => if n = 1 then { th with st := .booked, slot := some 0 } else th
  refine ⟨fun n => if n = 2 then { s n with ctxs := [{ ctx1 with dbg := true, trprod := 16 }] } else s n, fun n => ⟨?_, usable_of ?_ _, ?_, ?_⟩, by decide, by decide,
    by decide⟩ <;> revert n <;> decide

/-- The helm's calls: a report at a place that cannot be written and at one that can, a page of the fault-in range that needs a table and finds no
frame, and one that finds its table and its frame. -/
theorem witness_system_instructions_helm : ∃ (s : Fin 2 → State) (m : Memory),
    (∀ va ∈ [0x70000, 0x20000], (s 0).anyMoving 0 1 va 256 = false) ∧ (s 0).placesOf 0 1 0x70000 256 = none ∧ (s 0).placesOf 0 1 0x20000 256 ≠ none ∧
    (∀ n, (s n).leaf 1 (2 ^ 24) = none ∧ isLocal (2 ^ 24) = false ∧ ((s n).ctxOf 1).fiBase ≤ 2 ^ 24 ∧ 2 ^ 24 < ((s n).ctxOf 1).fiLim) ∧
    tablesLacking tables (2 ^ 24) 4 0 0x10000 + 1 = 2 ∧ (∀ n, (s n).offstack = tables ∧ bitsOf ((s n).ctxOf 1).ptbase.toNat 39 16 * 65536 = 0x10000) ∧
    ((s 0).ctxOf 1).poolFree.length < 2 ∧ ((s 1).ctxOf 1).poolFree = [8] ++ 9 :: [10] ∧
    mapPage (2 ^ 63 + 3 * 2 ^ 57 + 9 * 65536) (2 ^ 24) 4 0 0x10000 [8] (([8] ++ [9]).foldl zeroFrame tables) = some m := by
  let x : Ctx := { ctx1 with fiBase := 2 ^ 24, fiLim := 2 ^ 25 }
  let s (n : Fin 2) : State := { run [] with ctxs := [{ x with poolFree := #v[[8], [8, 9, 10]][n] }] }
  exact ⟨s, ((mapPage (2 ^ 63 + 3 * 2 ^ 57 + 9 * 65536) (2 ^ 24) 4 0 0x10000 [8] (([8] ++ [9]).foldl zeroFrame tables)).getD []), by decide, by decide, by decide, by decide,
    by decide, by decide, by decide, by decide, by decide⟩

/-- The rounding and flags register while the thread has an operation in the special-function unit: in open mode, in a booked thread, and with the
operation set aside by a trap. -/
theorem witness_control_registers_waits : ∃ s : Fin 3 → State, (∀ n, (s n).usable [.rg 5 false, .wg 7] ∧ (s n).me.net.replay = none ∧
      ¬ ∀ o ∈ (s n).me.sfu.ops ++ (s n).me.sfu.removed, o.thr ≠ (s n).ct) ∧ (s 0).th.st ≠ .booked ∧ (s 1).th.st = .booked ∧ (s 2).me.sfu.removed ≠ [] := by
  refine ⟨fun n => #v[onCore [] fun k => { k with sfu := { k.sfu with ops := [anOp none] } }, bookedOn [] [] id fun k => { k with sfu := { k.sfu with ops := [anOp none] } },
    onCore [] fun k => { k with sfu := { k.sfu with removed := [anOp none] } }][n], fun n => ⟨usable_of ?_ _, ?_, ?_⟩, by decide, by decide, by decide⟩ <;> revert n <;> decide

/-- A privileged thread, in a context that may be debugged and in one that may not, where no thread waits for a place in the ring. -/
theorem witness_control_registers_scopes : ∃ s : Bool → State, (∀ b, (s b).th.priv = true ∧ ((s b).ctxOf (s b).me.ctx).dbg = b ∧ (s b).myPart = some part0 ∧
      (∃ w, (s b).me.watch[(3 : Fin 4)]? = some w) ∧ ∀ c t r k w, ((s b).thrAt c t).block ≠ .ring r k w) := by
  let s (b : Bool) : State := { debugged 0 fun th => { th with priv := true } with ctxs := [{ ctx1 with dbg := b }] }
  refine ⟨s, fun b => ⟨?_, ?_, ?_, ⟨0, ?_⟩, fun c t => ?_⟩⟩
  · revert b; decide
  · revert b; decide
  · revert b; decide
  · revert b; decide
  · have h : ((s b).thrAt c t).block = .none := by
      by_cases hc : c = 0
      · subst hc
        have : (s b).coreAt 0 = { coreOf ({ thrOf [(5, 1), (6, 2), (9, 0x7FFF)] with priv := true }) with dbgctl := 0 } := coreAt_dev _
        rw [State.thrAt, this]
        by_cases ht : t < 4
        · have : ∀ t, t < 4 → (({ coreOf ({ thrOf [(5, 1), (6, 2), (9, 0x7FFF)] with priv := true }) with dbgctl := 0 } : Core).thr t).block = .none := by decide
          exact this t ht
        · simp [Core.thr, coreOf, ht]
          rfl
      · have : (s b).coreAt c = Core.reset := coreAt_dev_ne _ hc
        rw [State.thrAt, this]
        by_cases ht : t < 4
        · have : ∀ t, t < 4 → (Core.reset.thr t).block = .none := by decide
          exact this t ht
        · simp [Core.thr, Core.reset, ht]
          rfl
    rw [h]; simp

/-- Writes of each kind of register that take effect from the next cycle. -/
theorem witness_control_registers_applied : ∃ (s : Fin 5 → State) (num : Fin 5 → Nat), (∀ n, (s n).csrs = [(0, num n, 2 ^ 64 - 1)] ∧ (s n).partOf 0 = some 0 ∧
      (s n).partAt 0 = some part0) ∧ (∀ n, num n = #v[0x400, 0x417, 0x427, 0x444, 0x460][n]) := by
  refine ⟨fun n => { run [] with csrs := [(0, #v[0x400, 0x417, 0x427, 0x444, 0x460][n], 2 ^ 64 - 1)] }, fun n => #v[0x400, 0x417, 0x427, 0x444, 0x460][n], fun n => ?_, fun n => rfl⟩
  revert n; decide

/-- The exception of a booked thread with an operation waiting in the special-function unit; one that finds the ring full, and one whose slot is
not mapped. -/
theorem witness_exception_entry_booked : ∃ (s : State) (o p : SfuOp), s.th.priv = false ∧ s.th.slot = some 0 ∧ s.me.net.replay = none ∧
    (s.ctxOf s.me.ctx).ringFull = false ∧ s.me.sfu.ops = [o, p] ∧ o.thr = s.ct ∧ o.started = some 999 ∧ p.thr = s.ct ∧ p.started = none :=
  ⟨bookedOn [] [] id fun k => { k with sfu := { k.sfu with ops := [anOp (some 999), { anOp none with id := 1 }] } }, anOp (some 999), { anOp none with id := 1 }, by decide⟩

theorem witness_exception_entry_ring : ∃ s : Bool → State, (∀ b, (s b).th.priv = false ∧ (s b).th.slot = none ∧ (s b).me.net.replay = none ∧
      ((s b).ctxOf (s b).me.ctx).ringFull = b) ∧
    ∀ pa, (s false).translate (s false).cc (s false).me.ctx (((s false).ctxOf (s false).me.ctx).slotVa 0) true true ≠ .offstack pa := by
  refine ⟨fun b => { run [] with ctxs := [{ ctx1 with trprod := if b then 16 else 0 }] }, by decide, fun pa => ?_⟩
  have : ({ run [] with ctxs := [{ ctx1 with trprod := if false then 16 else 0 }] } : State).translate 0 1 (({ ctx1 with trprod := 0 } : Ctx).slotVa 0) true true = .page := by decide
  exact fun h => absurd (this.symm.trans h) (by simp)

/-- A second fatal exception; one whose slot is off-stack; a halt tree for a partition that has stopped, one whose records find the ring full, one whose
slot is off-stack. -/
theorem witness_fatal_and_stops_again : ∃ s : Fin 2 → State, (∀ n, (s n).th.priv = true ∧ (s n).me.net.replay = none) ∧ ((s 0).ctxOf (s 0).me.ctx).fatal = true ∧
    ((s 1).ctxOf (s 1).me.ctx).fatal = false ∧
    (s 1).translate (s 1).cc (s 1).me.ctx (bitsOf ((s 1).ctxOf (s 1).me.ctx).fatalslot.toNat 51 6 * 64) true true = .offstack 0x50000 := by
  let s (n : Fin 2) : State := { onThread [] fun th => { th with priv := true } with ctxs := [{ ctx1 with fatal := n == 0, fatalslot := 0x20000 }] }
  exact ⟨s, by decide⟩

theorem witness_fatal_and_stops_trees : ∃ (s : Fin 3 → State) (q : Fin 3 → Partition), (∀ n, (s n).partAt 0 = some (q n) ∧ 16 * (q n).rect.y0 + (q n).rect.x0 = 0 ∧
      ((s n).coreAt 0).ctx = 1 ∧ ((s n).coreAt 0).net.replay = none) ∧ (q 0).stopped = true ∧
    ((q 1).stopped = false ∧ ((s 1).ctxOf 1).ringFull = true ∧ ((s 1).thrAt 0 0).slot = some 0) ∧ ((q 2).stopped = false ∧ ((s 2).ctxOf 1).ringFull = false ∧
    (s 2).translate 0 1 (((s 2).ctxOf 1).slotVa 0) true true = .offstack 0x50000) := by
  let q (n : Fin 3) : Partition := { part0 with stopped := n == 0 }
  refine ⟨fun n => { bookedOn [] [] id id with parts := State.reset.parts.set 0 (some (q n)), ctxs := [{ ctx1 with trbase := 0x20000, trprod := if n = 1 then 16 else 0 }] },
    q, by decide, by decide, by decide, by decide⟩

/-- An instruction of a stepped thread retires; its STEP is due in the next step. -/
theorem witness_fatal_and_stops_steps : ∃ (s : State) (body : Act Done) (d : Done) (t : State), body.run s = .ok (d, t) ∧ d.held = false ∧ t.steps t.cc t.ct = true :=
  ⟨debugged (2 ^ 16) id, pure ⟨1, none, false⟩, ⟨1, none, false⟩, debugged (2 ^ 16) id, rfl, rfl, by decide⟩

theorem witness_fatal_and_stops_due : ∃ s : State, s.powered = true ∧ s.whatNext = .thread 0 0 ∧ (s.atThread 0 0).th.workDue (s.atThread 0 0).cycle = false ∧
    (s.atThread 0 0).th.stepDue = true := by
  exact ⟨onThread [] fun th => { th with stepDue := true }, by decide, by decide, by decide, by decide⟩

/-- A flit at a router, its link free and booked. -/
def flitAt (inp at_ thr dst : Nat) (cls : TrafficClass) : MeshFlit := ⟨⟨cls, 1, thr, .core dst, .giftAck 1⟩, 17, inp, at_, true, false, none⟩

def meshed (l : List MeshFlit) (dirs : List Nat) : State :=
  { run [] with mesh := l, links := dirs.map fun d => ⟨17, d, 120, 130, 0, 0, true⟩, pointers := [(17, 1, .openOp, 3)] }

theorem witness_mesh_and_links_hops : ∃ (s : Fin 6 → State) (x : Fin 6 → MeshFlit), (∀ n, (s n).mesh = [x n] ∧ (s n).entries = [] ∧ (x n).here = true ∧ (x n).ahead = false ∧
      (x n).entry = none ∧ (x n).inp < 5 ∧ (x n).node = 17 ∧ (x n).flit.dst.node < 256 ∧ (x n).flit.dst.node ≠ 17 ∧
      (s n).linkBooked 17 (hopDir 17 (x n).flit.dst.node) = (n == 0)) ∧ (∀ n, (x n).flit.dst.node = #v[18, 18, 16, 33, 1, 255][n]) := by
  let x (n : Fin 6) : MeshFlit := flitAt 4 999 0 #v[18, 18, 16, 33, 1, 255][n] .openOp
  exact ⟨fun n => meshed [x n] (if n = 0 then [1] else []), x, by decide, by decide⟩

/-- Two flits for one link: of two classes, of two inputs of which the pointer prefers one, of one input; and two for different links, the earlier
one's booked. -/
theorem witness_mesh_and_links_pairs : ∃ (s : Fin 5 → State) (x y : Fin 5 → MeshFlit), (∀ n, (s n).mesh = [x n, y n] ∧ (s n).entries = [] ∧
      ∀ z ∈ [x n, y n], z.here = true ∧ z.ahead = false ∧ z.entry = none ∧ z.node = 17 ∧ z.inp < 5 ∧ z.flit.dst.node < 256 ∧ z.flit.dst.node ≠ 17) ∧
    (∀ n, n.val < 3 → hopDir 17 (x n).flit.dst.node = 1 ∧ hopDir 17 (y n).flit.dst.node = 1 ∧ (s n).linkBooked 17 1 = false) ∧
    ((x 0).flit.cls = .control ∧ (y 0).flit.cls = .openOp) ∧ ((x 1).flit.cls = .openOp ∧ (y 1).flit.cls = .openOp ∧ (s 1).pointer 17 1 .openOp = 3 ∧ (x 1).inp = 4 ∧ (y 1).inp = 0) ∧
    ((x 2).flit.cls = .openOp ∧ (y 2).flit.cls = .openOp ∧ (x 2).inp = (y 2).inp ∧ (x 2).at_ = (y 2).at_ ∧ (x 2).flit.thr ≤ (y 2).flit.thr) ∧
    ∀ n, 3 ≤ n.val → hopDir 17 (x n).flit.dst.node = 1 ∧ hopDir 17 (y n).flit.dst.node = 2 ∧ (s n).linkBooked 17 1 = true ∧ (s n).linkBooked 17 2 = false ∧
      (x n).inp = (y n).inp ∧ (x n).at_ < (y n).at_ ∧ (x n).flit.cls = .openOp ∧ (y n).flit.cls = if n = 3 then .openOp else .control := by
  let x (n : Fin 5) : MeshFlit := #v[flitAt 0 999 0 18 .control, flitAt 4 999 0 18 .openOp, flitAt 4 999 0 18 .openOp, flitAt 3 998 0 18 .openOp, flitAt 3 998 0 18 .openOp][n]
  let y (n : Fin 5) : MeshFlit := #v[flitAt 4 990 0 19 .openOp, flitAt 0 990 0 19 .openOp, flitAt 4 999 3 34 .openOp, flitAt 3 999 0 33 .openOp, flitAt 3 999 0 33 .control][n]
  exact ⟨fun n => meshed [x n, y n] (if n.val < 3 then [] else [1]), x, y, by decide, by decide, by decide, by decide, by decide, by decide⟩

/-- A reply, and a request that finds the agent's queue with a place and without one, at the router of their core; and a request and a reply that arrive. -/
theorem witness_mesh_and_links_deliver : ∃ (s : Fin 5 → State) (x : Fin 5 → MeshFlit), (∀ n, (s n).mesh = [x n] ∧ (s n).entries = [] ∧ (x n).node = 0 ∧ (x n).inp < 5 ∧
      (x n).flit.dst = .core 0 ∧ (x n).ahead = false ∧ (x n).entry = none) ∧ (∀ n, n.val < 3 → (x n).here = true) ∧ (∃ ret v, (x 0).flit.load = .reply ret v) ∧
    (∃ r, (x 1).flit.load = .request r ∧ ((s 1).coreAt 0).agent.queue.length < 32) ∧ (∃ r, (x 2).flit.load = .request r ∧ 32 ≤ ((s 2).coreAt 0).agent.queue.length) ∧
    ((x 3).here = false ∧ (x 3).at_ ≤ (s 3).cycle ∧ ∃ r, (x 3).flit.load = .request r) ∧ (x 4).here = false ∧ (x 4).at_ ≤ (s 4).cycle ∧ ∃ ret v, (x 4).flit.load = .reply ret v := by
  let load (n : Fin 5) : Payload := #v[.reply (.thread 0 0 1) 7, .request (combines 5), .request (combines 5), .request (combines 5), .reply (.thread 0 0 1) 7][n]
  let x (n : Fin 5) : MeshFlit := ⟨⟨.openOp, 1, 0, .core 0, load n⟩, 0, 1, 1000, n.val < 3, false, none⟩
  let q : AgentReq := ⟨combines 9, 900, none, none, false, false⟩
  exact ⟨fun n => { onCore [] fun k => { k with agent := { k.agent with queue := if n = 2 then List.replicate 32 q else [] } } with mesh := [x n] }, x, by decide, by decide,
    ⟨.thread 0 0 1, 7, by decide⟩, ⟨combines 5, by decide⟩, ⟨combines 5, by decide⟩, ⟨by decide, by decide, combines 5, by decide⟩, by decide, by decide, .thread 0 0 1, 7, by decide⟩

/-- A request that follows one of its sender, one that may combine and finds a place, one that finds the places taken; and one of the sender of a held
entry that may not combine. -/
theorem witness_mesh_and_links_entries : ∃ (s : Fin 4 → State) (r : Fin 4 → Req), (∀ n, n.val < 3 → ∀ e ∈ (s n).entries, e.node = 17 → e.st ≠ .held) ∧
    (s 0).follows 17 (r 0) = some 2 ∧ (∀ n, n ≠ 0 → (s n).follows 17 (r n) = none) ∧ (∀ n, n.val < 3 → (r n).combinable = true) ∧
    ((s 1).entries.filter fun e => e.node == 17 && e.inp == 4).length = 15 ∧ ((s 2).entries.filter fun e => e.node == 17 && e.inp == 4).length = 16 ∧
    ∃ e q, (s 3).entries = [e] ∧ e.st = .held ∧ e.flit.load = .request q ∧ (r 3).combinable = false ∧ (s 3).sharesSender q (r 3) = true ∧ q.target = (r 3).target := by
  let e (st : EntrySt) : Entry := ⟨3, 17, 4, combFlit 5, st, false, []⟩
  let put : Req := { combines 7 with op := .put }
  refine ⟨fun n => { run [] with
      mesh := if n = 0 then [⟨combFlit 5, 17, 2, 999, true, true, none⟩] else [], entries := #v[[], List.replicate 15 (e .leaving), List.replicate 16 (e .forwarded), [e .held]][n] },
    fun n => if n = 3 then put else combines 6, by decide, by decide, by decide, by decide, by decide, by decide, e .held, combines 5, by decide⟩

/-- A pair whose first answer goes on to another combining router, and one whose goes to a Bumen egress. -/
theorem witness_mesh_and_links_nested : ∃ (s : Bool → State) (p : PairRec) (o : Bool → PairRec), (∀ b, (s b).pairs = [p, o b] ∧ (o b).id ≠ p.id ∧ p.first = .pair (o b).id) ∧
    p.node < 256 ∧ p.second = .thread 2 3 8 ∧ ((o false).node < 256 ∧ (o false).node ≠ p.node) ∧ 256 ≤ (o true).node := by
  let p : PairRec := ⟨1, 3, 255, .pair 2, .thread 2 3 8, [(1, 0), (2, 3)], .core 0, .add, 64, 5⟩
  let o (b : Bool) : PairRec := ⟨2, 4, if b then 256 else 254, .thread 1 0 4, .thread 3 0 4, [(1, 0), (3, 0)], .core 0, .add, 64, 5⟩
  exact ⟨fun b => { run [] with pairs := [p, o b] }, p, o, by decide⟩

/-- A Bumen port with nothing to send, and one whose head may leave; two numbers that a combination joins. -/
theorem witness_mesh_and_links_ports : ∃ (s : Bool → State) (f : Flit), (∀ r, f.load ≠ .request r) ∧ (∀ b, ∀ y ∈ ((s b).ports[0]).numbers, y.1 ≠ .none) ∧
    ((s false).ports[0]).held = [] ∧ ((s true).ports[0]).held = [(5, f)] ∧ ((s true).ports[0]).trained = true ∧ ((s true).ports[0]).nextAt ≤ (s true).cycle ∧
    0 < ((s true).ports[0]).lanes := by
  let f : Flit := ⟨.control, 0, 0, .bumen 0, .giftAck 1⟩
  refine ⟨fun b => { run [] with ports := State.reset.ports.set 0 { State.reset.ports[0] with trained := true, lanes := 8, held := if b then [(5, f)] else [] } }, f, by simp [f], ?_, ?_⟩ <;> decide

/-- The head of the special-function queue in a tick that a booking holds. -/
theorem witness_units_and_sensors_booked : ∃ s : State, (∃ o, (s.coreAt 0).sfu.ops = [o] ∧ o.started = none ∧ 0 < o.regs) ∧ (s.coreAt 0).booked 2 ((s.cycle + 0) / 8) = true :=
  ⟨bookedOn [] [⟨2, 0, 0, 125, 140⟩] id fun k => { k with sfu := { k.sfu with ops := [anOp none] } }, ⟨anOp none, by decide⟩, by decide⟩

/-- A malformed launch record while nothing is on its way to the ring, and while a completion is; launch records kept for a takeover and given to the
standby; each role of the helm. -/
theorem witness_host_and_firmware_roles : ∃ s : Fin 4 → State, (∀ n, (s n).host.running = true ∧ (s n).host.ringOn = false ∧ (s n).host.held = []) ∧
    ((s 0).helm.role = .primary ∧ (s 0).host.coming = []) ∧ ((s 1).helm.role = .standby ∧ ∃ k r, (s 1).host.coming = [(k, r, false)]) ∧ (s 2).helm.role = .takeover ∧
    ((s 3).helm.role = .takeover ∧ (s 3).helm.pending = [(4064, launchBytes 0x3FFFF3FFF)]) ∧ bitsOf (fieldAt (launchBytes 0x3FFFF3FFF) 0 8) 33 24 = 0x3FF := by
  let helm (n : Fin 4) : Helm := { Helm.reset with role := #v[.primary, .standby, .takeover, .takeover][n], pending := if n = 3 then [(4064, launchBytes 0x3FFFF3FFF)] else [] }
  refine ⟨fun n => { run [] with host := { hostOn with coming := if n = 1 then [(4, aCompletion, false)] else [] }, helm := helm n },
    by decide, by decide, ⟨by decide, 4, aCompletion, by decide⟩, by decide, by decide, by decide⟩

/-- Two completions on their way to the ring: the earlier arrived, the later arrived, both. -/
theorem witness_host_and_firmware_order : ∃ s : Fin 3 → State, (∀ n, (s n).host.ringOn = false) ∧ (s 0).host.coming = [(4, aCompletion, true), (5, aCompletion, false)] ∧
    (s 1).host.coming = [(4, aCompletion, false), (5, aCompletion, true)] ∧ (s 2).host.coming = [(4, aCompletion, true), (5, aCompletion, true)] := by
  exact ⟨fun n => { run [] with host := { hostOn with coming := [(4, aCompletion, n != 1), (5, aCompletion, n != 0)] } }, by decide, by decide, by decide, by decide⟩

theorem witness_host_and_firmware_registers : ∃ s : State, s.host.held = [] ∧ (∃ x, s.host.mbxresp[255]? = some x) ∧ (∃ x, s.host.devkey[31]? = some x) :=
  ⟨{ run [] with host := { hostOn with mbxresp := List.replicate 256 7, devkey := List.replicate 32 9 } }, by decide, ⟨7, by decide⟩, ⟨9, by decide⟩⟩

/-- A partition that exists placed again with another rectangle, which shares a core with a partition, and which shares none. -/
theorem witness_contexts_and_partitions_place_again : ∃ (s : State) (p : Fin 3 → List Byte) (q : Partition), (∀ n, (mailed 3 (p n) s).commanded (cmd 3 (p n)) 3 [(0, 3), (4, 2), (8, 8)] ∧
      fieldAt (cmdParams (cmd 3 (p n))) 2 1 = 0 ∧ (s.ctx? (fieldAt (cmdParams (cmd 3 (p n))) 0 2)).isSome) ∧ s.partAt 0 = some q ∧
    (let rect (n : Fin 3) := rectOf (fieldAt (cmdParams (cmd 3 (p n))) 4 2)
     (∀ n, n.val < 2 → q.rect ≠ rect n) ∧ q.rect.overlaps (rect 0) = true ∧ (∀ m q', m < 16 → s.partAt m = some q' → q'.rect.overlaps (rect 1) = false) ∧
     q.rect = rect 2 ∧ 2 ∉ q.ctxs ∧ fieldAt (cmdParams (cmd 3 (p 2))) 0 2 = 2 ∧ ∀ b ∈ q.bases, b.1 ≠ 2) := by
  let p (n : Fin 3) : List Byte := ids 2 0 0 (leBytes 2 #v[0xFF00, 0xFFF0, 0x1100][n])
  refine ⟨shared id, p, part0, fun n => ⟨commanded_of (by decide) ?_, ?_, ?_⟩, by decide, by decide, by decide, fun m q' _ h => ?_, by decide, by decide, by decide, by decide⟩
  · revert n; decide
  · revert n; decide
  · revert n; decide
  · rw [partAt_shared] at h
    split at h
    · obtain rfl : part0 = q' := by simpa using h
      decide
    · cases h

/-- A window set before any thread of the context has run. -/
theorem witness_contexts_and_partitions_window_first : (run []).unbegun 1 0 = true := by
  simp [State.unbegun, Vector.all_eq_true]
  decide

/-- A code image for every core of a context. -/
theorem witness_contexts_and_partitions_loadcode_all : ∃ (s : State) (p : List Byte), (mailed 5 p s).commanded (cmd 5 p) 5 [(0, 4), (8, 8), (16, 4)] ∧
    fieldAt (cmdParams (cmd 5 p)) 2 1 = 0xFF ∧ (s.ctx? (fieldAt (cmdParams (cmd 5 p)) 0 2)).isSome ∧ s.helm.saved = [] ∧
    (s.coreAt 0).ctx = fieldAt (cmdParams (cmd 5 p)) 0 2 ∧ 0 ∈ (List.range 256).filter (fun c => (s.coreAt c).ctx == fieldAt (cmdParams (cmd 5 p)) 0 2) ∧
    (∀ k, k < 4 → ((s.coreAt 0).thr k).st = .idle ∨ ((s.coreAt 0).thr k).st = .stopped) ∧ (s.coreAt 0).sram.wf = true :=
  ⟨onThread [] fun th => { th with st := .stopped }, ids 1 0xFF 0 (leBytes 4 0 ++ leBytes 8 0x4000 ++ leBytes 4 61440), commanded_of (by decide) (by decide), by decide,
   by decide, by decide, by decide, by decide, by decide, by decide⟩

/-- A context that a fatal exception stopped, resumed to its handler. -/
theorem witness_contexts_and_partitions_resume_fatal : ∃ (s : State) (p : List Byte) (q : Partition) (x : Ctx), (mailed 8 p s).commanded (cmd 8 p) 8 [(0, 4)] ∧
    fieldAt (cmdParams (cmd 8 p)) 2 1 = 0 ∧ fieldAt (cmdParams (cmd 8 p)) 3 1 = 1 ∧ s.ctx? (fieldAt (cmdParams (cmd 8 p)) 0 2) = some x ∧ s.partAt 0 = some q ∧
    q.stopped = true ∧ q.ctxs = [fieldAt (cmdParams (cmd 8 p)) 0 2] ∧ x.fatalBy = some (0, 0, ⟨5, 0x20000, 0x1F, 2 ^ 64 - 1, 0⟩) ∧ (s.coreAt 0).ctx = fieldAt (cmdParams (cmd 8 p)) 0 2 := by
  let x : Ctx := { ctx1 with fatal := true, fatalBy := some (0, 0, ⟨5, 0x20000, 0x1F, 2 ^ 64 - 1, 0⟩) }
  exact ⟨{ shared (fun q => { q with stopped := true }) with ctxs := [x] }, ids 1 0 1 [], { part0 with stopped := true }, x, commanded_of (by decide) (by decide),
    by decide, by decide, by decide, by decide, by decide, by decide, by decide, by decide⟩

/-- Checkpoints malformed in each way, and one for a device that no link reaches and for one that a link does. -/
theorem witness_mailbox_services_checkpoint_devices : ∃ (s : State) (p : Fin 5 → List Byte) (q : Partition), (∀ n, (mailed 9 (p n) s).commanded (cmd 9 (p n)) 9 [(0, 4), (8, 10)] ∧
      (s.ctx? (fieldAt (cmdParams (cmd 9 (p n))) 0 2)).isSome ∧ s.partAt (fieldAt (cmdParams (cmd 9 (p n))) 2 1) = some q ∧ fieldAt (cmdParams (cmd 9 (p n))) 0 2 ∈ q.ctxs) ∧
    (let host (n : Fin 5) := fieldAt (cmdParams (cmd 9 (p n))) 3 1
     let dev (n : Fin 5) := fieldAt (cmdParams (cmd 9 (p n))) 16 2
     host 0 = 2 ∧ dev 1 = 1024 ∧ (host 2 = 1 ∧ dev 2 = 1) ∧ (host 3 = 0 ∧ s.portTo (dev 3) = none) ∧ (host 4 = 0 ∧ s.portTo (dev 4) = some 19)) ∧
    q.stopped = true ∧ q.stopReason.map (·.1) = some 3 := by
  let p (n : Fin 5) : List Byte := ids 1 0 #v[2, 0, 1, 0, 0][n] (leBytes 4 0 ++ leBytes 8 0x7000 ++ leBytes 2 #v[0, 1024, 1, 4, 1023][n])
  refine ⟨{ shared (fun q => { q with stopped := true, stopReason := some (3, 900) }) with reachable := [(1023, 19)] }, p, { part0 with stopped := true, stopReason := some (3, 900) },
    fun n => ⟨commanded_of (by decide) ?_, ?_, ?_, ?_⟩, by decide, by decide, by decide⟩ <;> revert n <;> decide

/-- Debug reads of the vault of core 0, of another core's vault in retention, and of a page that moves; the last part of one not answered, answered, and
answered with an uncorrectable word. -/
theorem witness_mailbox_services_debugread_vaults : ∃ (s : Fin 3 → State) (p : Fin 3 → List Byte), (∀ n, (mailed 12 (p n) (s n)).commanded (cmd 12 (p n)) 12 [(0, 2), (8, 10)] ∧
      ((s n).ctx? (fieldAt (cmdParams (cmd 12 (p n))) 0 2)).map (·.dbg) = some true ∧ fieldAt (cmdParams (cmd 12 (p n))) 16 2 = 64) ∧
    ((s 0).translate 0 1 (fieldAt (cmdParams (cmd 12 (p 0))) 8 8) true false = .vault 0x30040 ∧ ((s 0).coreAt 0).vault.power = .active) ∧
    ((s 1).translate 0 1 (fieldAt (cmdParams (cmd 12 (p 1))) 8 8) true false = .foreign 1 ∧ (s 1).translate 1 1 (fieldAt (cmdParams (cmd 12 (p 1))) 8 8) true false = .vault 0x30040 ∧
     ((s 1).coreAt 1).vault.power = .active) ∧ (s 2).translate 0 1 (fieldAt (cmdParams (cmd 12 (p 2))) 8 8) true false = .moving := by
  let s (n : Fin 3) : State := { run [] with ctxs := [{ ctx1 with dbg := true }], offstack := if n = 2 then memSetN tables 0x22008 8 (leafOf 2 0 0x30000) else tables }
  refine ⟨s, fun n => ids 1 0 0 (leBytes 4 0 ++ leBytes 8 #v[0x10040, 0x30040, 0x10040][n] ++ leBytes 2 64), fun n => ⟨commanded_of ?_ ?_, ?_, ?_⟩, by decide, by decide, by decide⟩ <;>
    revert n <;> decide

theorem witness_mailbox_services_debugread_answers : ∃ (s : Fin 3 → State) (p : List Byte), (∀ n, (s n).commanded (cmd 12 p) 12 [(0, 2), (8, 10)] ∧ (s n).host.asleep = []) ∧
    (s 0).host.debug = [⟨some 1, 0x30040, 64, none⟩] ∧ (s 1).host.debug = [⟨some 1, 0x30040, 64, some (some 7)⟩] ∧ (s 2).host.debug = [⟨some 1, 0x30040, 64, some none⟩] := by
  let m : State := mailed 12 (ids 1 0 0 []) (run [])
  let s (n : Fin 3) : State := { m with host := { m.host with debug := [⟨some 1, 0x30040, 64, #v[none, some (some 7), some none][n]⟩] } }
  have h (n : Fin 3) : (s n).commanded (cmd 12 (ids 1 0 0 [])) 12 [(0, 2), (8, 10)] :=
    let c : m.commanded _ 12 [(0, 2), (8, 10)] := commanded_of (by decide) (by decide)
    ⟨rfl, c.2⟩
  exact ⟨s, ids 1 0 0 [], fun n => ⟨h n, rfl⟩, by decide, by decide, by decide⟩

/-- A step that makes a local access's next use, one that raises STEP, one that runs a thread at a wait when the others are at theirs, and one that
takes an event before the thread that is ready. -/
theorem witness_step_runs_the_instruction_threads : ∃ s : Fin 4 → State, (∀ n, (s n).powered = true ∧ (∀ x ∈ (s n).inputs, (s n).cycle < x.1)) ∧
    (∀ n, n.val < 3 → (s n).agenda = [] ∧ (s n).threadReady (0 : Fin 256) (0 : Fin 4) = true) ∧ ((s 0).thrAt 0 0).workDue (s 0).cycle = true ∧
    (((s 1).thrAt 0 0).workDue (s 1).cycle = false ∧ ((s 1).thrAt 0 0).stepDue = true) ∧
    ((s 2).atWait 0 0 = true ∧ ∀ (c : Fin 256) (n : Fin 4), (s 2).threadReady c n = true → (s 2).atWait c n = true) ∧
    (∃ k c n, (s 3).firstThread = some (k, c, n)) ∧ (s 3).agenda = [(1000, .compaction)] := by
  let s (n : Fin 4) : State := #v[onThread [] fun th => { th with work := some ⟨1000, [⟨[0], []⟩], false, 0, .stored, 1003⟩ }, onThread [] fun th => { th with stepDue := true },
    onCore [] fun k => { k with sram := memSetN [] 0x100014 4 0xC8A63801 }, { run [] with agenda := [(1000, .compaction)] }][n]
  refine ⟨s, by decide, by decide, by decide, by decide, ⟨by decide, fun c n => ?_⟩, ⟨_, _, _, (by decide : (s 3).firstThread = some (cycleKey 11 0, 0, 0))⟩, by decide⟩
  intro h
  by_cases hc : c = 0
  · subst hc; revert n; decide
  · have hk : (s 2).coreAt c = Core.reset := coreAt_dev_ne _ fun h0 => hc (Fin.ext h0)
    have hm : ∀ m : Fin 4, (Core.reset.thr m).st = .idle ∧ (Core.reset.thr m).work = none := by decide
    simp [State.threadReady, State.thrAt, hk, Thread.workDue, hm] at h

/-! The whole machine. -/

/-- A device in which thread 0 of core 0 is the first that is ready, at a word of its code store. -/
theorem witness_step_runs_the_instruction : ∃ s : Fin 3 → State, (∀ n, (s n).powered = true ∧ (∀ x ∈ (s n).inputs, (s n).cycle < x.1) ∧
      (∀ x ∈ (s n).agenda, (s n).cycle < x.1) ∧ (s n).threadReady (0 : Fin 256) (0 : Fin 4) = true ∧ ((s n).thrAt 0 0).stale = []) ∧
    (let at_ (n : Fin 3) := 0x100000 + 4 * ((s n).thrAt 0 0).pc.toNat
     let bytes (n : Fin 3) := (List.range 4).map fun i => memGet ((s n).coreAt 0).sram (at_ n + i)
     (decode (bytes 0) = .ok (.add 5 6 7 false true ⟨3, true⟩, []) ∧ ((s 0).thrAt 0 0).pc.toNat < 0x3C00) ∧ decode (bytes 1) = .error (.illegal ⟨3, 5⟩) ∧
     (((s 2).thrAt 0 0).priv = false ∧ 0x3C00 ≤ ((s 2).thrAt 0 0).pc.toNat)) := by
  let s (n : Fin 3) : State := dev { coreOf { thrOf [] with pc := if n = 2 then 0x3C00 else 0x3BFF } with
    sram := memSetN [] 0x10EFFC 4 (if n = 0 then 0x04A63AE0 else 0x04A63A20) }
  have h0 : ((List.range 4).map fun i => memGet ((s 0).coreAt 0).sram (0x100000 + 4 * ((s 0).thrAt 0 0).pc.toNat + i)) = [0xE0, 0x3A, 0xA6, 0x04] := by decide
  have h1 : ((List.range 4).map fun i => memGet ((s 1).coreAt 0).sram (0x100000 + 4 * ((s 1).thrAt 0 0).pc.toNat + i)) = [0x20, 0x3A, 0xA6, 0x04] := by decide
  refine ⟨s, fun n => ?_, ⟨(congrArg decode h0).trans rfl, by decide⟩, (congrArg decode h1).trans rfl, by decide⟩
  clear h0 h1; revert n; decide

theorem witness_step_runs_the_instruction_events : ∃ s : Fin 3 → State, (∀ n, (s n).powered = true ∧ (∀ x ∈ (s n).inputs, (s n).cycle < x.1) ∧
      ∀ (c : Fin 256) (m : Fin 4), (s n).threadReady c m = false) ∧ ((s 0).agenda = [(1000, .compaction), (1001, .epochEnd)] ∧ (s 0).cycle = 1000) ∧
    (∀ x ∈ (s 1).agenda, (s 1).cycle < x.1) ∧ ∃ s₁ s₂ s₃ : State, (s₁.powered = true ∧ s₁.inputs = [(5, .crconsWrite 1)] ∧ 5 ≤ s₁.cycle) ∧
      (s₂.powered = false ∧ ∀ x ∈ s₂.inputs, x.2 ≠ .powerUp) ∧ s₃.powered = false ∧ s₃.inputs = [(5, .powerUp)] := by
  refine ⟨fun n => { dev Core.reset with agenda := if n = 0 then [(1000, .compaction), (1001, .epochEnd)] else [] }, fun n => ⟨rfl, ⟨fun x hx => absurd hx (List.not_mem_nil), fun c m => ?_⟩⟩,
    by decide, by decide, { run [] with inputs := [(5, .crconsWrite 1)] }, { run [] with powered := false }, { run [] with powered := false, inputs := [(5, .powerUp)] },
    by decide, by decide, by decide⟩
  have (n : Fin 3) : (({ dev Core.reset with agenda := if n = 0 then [(1000, .compaction), (1001, .epochEnd)] else [] } : State).coreAt c) = Core.reset := by
    by_cases hc : c.val = 0
    · rw [hc]; exact coreAt_dev _
    · exact coreAt_dev_ne _ hc
  have hm : ∀ m : Fin 4, (Core.reset.thr m).st = .idle ∧ (Core.reset.thr m).work = none := by decide
  simp [State.threadReady, State.thrAt, this, Thread.workDue, hm]

theorem witness_nothing_ends_a_run : (run []).powered = true := rfl

theorem witness_every_step_keeps_the_invariant : ∃ s t : State, s.sound ∧ step s = .next t := by
  have hc (c : Nat) : State.reset.coreAt c = Core.reset := by
    by_cases h : c < 256 <;> simp [State.coreAt, State.reset, h]
  have ht : Core.reset.tidy := tidy_of (by decide) (by decide) (by decide)
  have hp (p : Nat) : State.reset.partAt p = none := by
    by_cases h : p < 16 <;> simp [State.partAt, State.reset, h]
  refine ⟨{ State.reset with inputs := [(0, .crconsWrite 1)] }, _, ⟨by decide, by decide, fun c => (hc c).symm ▸ ht, fun x hx => absurd hx List.not_mem_nil,
    fun x hx => absurd hx List.not_mem_nil, by decide, fun p q a b ha => ?_⟩, rfl⟩
  exact absurd ((hp p).symm.trans ha) (by simp)

/-! ### pliper (R76 to R82); every expected word, dword and value is the spec's own -/

/-- Where the tests place the sections. -/
def bases0 : Asm.Bases := ⟨0, 0x100000, 0x4000020000, 0, 0x200000⟩

/-- The code words of a source. -/
def pliper (source : List String) : Option (List Nat) :=
  match Asm.assemble bases0 source with
  | .ok i => some (i.code.map BitVec.toNat)
  | .error _ => none

/-- The dwords of the scratchpad section of a source. -/
def pliperScratch (source : List String) : Option (List Nat) :=
  match Asm.assemble bases0 source with
  | .ok i => some ((List.range (i.scratch.length / 8)).map fun k => (List.range 8).foldl (fun n j => n + (i.scratch.getD (8 * k + j) 0).toNat * 2 ^ (8 * j)) 0)
  | .error _ => none

/-- Why a source is refused. -/
def pliperError (source : List String) : Option Asm.AsmErr :=
  match Asm.assemble bases0 source with
  | .ok _ => none
  | .error e => some e.why

/-- Examples 2.1 to 2.4. -/
theorem test_pliper_formats : pliper
  ["(!p3) add g5, g6, g7!",
   "ld.w.acq g8, [g2 + 24]",
   "vadd.f32 v8.p, v10.p, v12.p",
   "mma.skinny.e4m3.tc3.ovr acc2, ab1, wb3"] = some
  [0x04A63AE0, 0x51029006, 0x610A6300, 0x91398500] := by decide

/-- Example words of the scalar, atomic and conversion classes. -/
theorem test_pliper_scalar : pliper
  ["sext g5, g6, 16",
   "clt p1, g5, g6",
   "cmpi.ltu p2, g5, 100",
   "jr g1",
   "luh g5, g5, 0x0004",
   "gtag g8, g6",
   "csrr g6, SPBASE",
   "st.d g11, [g2 - 4104]",
   "(p2) fop.min.w g7, g5!, g6",
   "fop.fadd.ts g7, g5, g6",
   "cas.d g8, g5, g6",
   "vcvt.bf16.f32.sat v4, v8.p",
   "vq.q4.f32 v20, v4.p, v10",
   "vdq.f32.q4 v8.p, v20"] = some
  [0x04A6081A, 0x0C253002, 0x3A450064, 0x48010000, 0x30A50004, 0x09060003, 0xE0C00406, 0x5962CDFF, 0xC0E53484, 
   0xC0E53009, 0xC5053001, 0x7088C340, 0x728453C2, 0x71140B03] := by decide

/-- Example words of the vector classes. -/
theorem test_pliper_vector : pliper
  ["vfma.f32 v4, v5, v6",
   "vadds.i16 v2, v3, v4",
   "vsub.i32 v3, v2, v3",
   "vsub.f32 v20.q, v8.q, v16.q",
   "vrsqrt.f32 v2, v3",
   "vst.f32.rel v8.p, [g6 + 128]",
   "vgath.f32 v4, v8, g5",
   "vbc.f32 v12.q, g6",
   "vrndi.f32 v16.q, v8.q, 0",
   "vcvt.i32.f32.sat v4.q, v16.q",
   "vlane.i32 v3",
   "vmov v5, v4",
   "vzip.f32 v2, v0, v1"] = some
  [0x60853103, 0x64432044, 0x64621881, 0x62888501, 0x80430101, 0x8D066102, 0x84882900, 0x69860500, 0x6208050C, 
   0x7090C480, 0x74600082, 0x74A40000, 0x68400904] := by decide

/-- Example words of the matrix, trellis, vault and stream classes. -/
theorem test_pliper_engines : pliper
  ["mgget g6, mg3",
   "accst.bf16 acc3, g5, g6",
   "abld ab2, g5, g6",
   "mma.bd8.f32.f32.ovr.sha acc0, ab0, wb0",
   "twset g7, tw1, g5",
   "tdec v8.o, tw1, g5, g6",
   "tdecr v4, tw1, g5, v3",
   "tld g5, g6, 24576",
   "tst g5, g7, 4096",
   "vsync",
   "cpy g9, g11, 3",
   "sbind g9, s2, g10",
   "sunb g9, s2"] = some
  [0x94C00061, 0x94053166, 0x94053048, 0x90026B80, 0xA0E50020, 0xA10531A1, 0xA0851822, 0xA80535E2, 0xA80538E3, 
   0xA8000005, 0xB12B0060, 0xB12A0043, 0xB1200044] := by decide

/-- Example words of the remote, ordering, calendar, task and system classes. -/
theorem test_pliper_control : pliper
  ["rget.d g7, g5, g6",
   "rput.v v8, g5, g6",
   "rfop.fadd.ts.v16 v4, g5, g6",
   "rcas.d g8, g5, g6",
   "mrecv.wait v8, g9",
   "fence.dev.lmr",
   "fence.rect.m g9",
   "redm g7, g5, g6",
   "book g5, g6",
   "book g5, g6, g7",
   "done",
   "term g9",
   "trap g5, g6",
   "eret g2, g1, g0",
   "halt",
   "brk 3"] = some
  [0xB8E53060, 0xB9053081, 0xB8853522, 0xB9053023, 0xB9090026, 0xC80003E0, 0xC8090240, 0xC8E53005, 0xD0A60000, 
   0xD0A63800, 0xD0000002, 0xD9200004, 0xE0053000, 0xE0410001, 0xE0000002, 0xE0001804] := by decide

/-- Example 2.5, the program: words, labels, entry. -/
theorem test_pliper_program :
    (match Asm.assemble bases0
      ["        .code", "        .entry  sum8", "sum8:   addi    g5, g0, 0         ; running sum", "        addi    g6, g0, 8         ; count",
       "loop:   ld.d    g7, [g3 + 0]", "        add     g5, g5, g7", "        addi    g3, g3, 8", "        dbnz    g6, loop          // offset 2 - 5 = -3",
       "        st.d    g5, [g4 + 0]", "        halt"] with
     | .ok i => some (i.code.map BitVec.toNat, i.entry, i.symbols.map fun s => (s.name, s.value.toNat))
     | .error _ => none) =
    some ([0x14A00000, 0x14C00008, 0x50E3C000, 0x04A53800, 0x14630008, 0x4CC0FFFD, 0x58A4C000, 0xE0000002], some 0,
      [("sum8", 0), ("loop", 2)]) := by decide

/-- Example 2.5, the booking list with its header (R198), here in the scratchpad. -/
theorem test_pliper_booking : pliperScratch
    [".scratch", ".book bk1, movable", "me at 2 for 1 every 1 times 3", "vbank 5 at 0 for 6", "link 4,2 at 12 for 1", ".endbook"] =
    some [0x1000D0003, 0x0100801030040000, 0x4500006010000000, 0x6003001010009000] := by decide

/-- Three entries of the booking list of 08_matrix's worked program, with its flag and duration. -/
theorem test_pliper_booking_header : (pliperScratch
    [".scratch", ".book sebk, slipovr", "vbank 7 at 3 for 22", "vp at 5 for 17", "me at 39 for 4", ".endbook"]) =
    some [0x2002B0003, 0x4700C16010000000, 0x0301411010000000, 0x0109C04010000000] := by decide

/-- Data directives: the values of 11_remote's worked program in binary32, padding, and a label's value in `.scratch` (R81). -/
theorem test_pliper_data : pliperScratch
    [".scratch", ".f32 1.0, 2.0, 0.5, -3.0", ".byte 0x38, 0x40", ".align 8", "here: .dword here, 0xF_0000_0000_1000", ".word 2, 4"] =
    some [0x400000003F800000, 0xC04000003F000000, 0x4038, 0xF000000000018, 0xF000000001000, 0x400000002] := by decide

/-- Expressions and constants (R80). -/
theorem test_pliper_expressions : pliper
    [".equ N, 0x12_34", "li g5, bits(N, 11, 4)", "li g5, -(N >> 4) + 2 * 3", "andi g5, g5, ~0 & 0b1111 | 1 << 8"] =
    some [0x28A00023, 0x28A0FEE3, 0x18A5010F] := by decide

/-- What pliper refuses: an offset that is no multiple of its unit, a value out of range, mixed group suffixes, a predicate on an
I-format instruction, a trap-on-empty mark outside the G format, and v9 as a pair (R76, R78, R80). -/
theorem test_pliper_refusals :
    [["ld.w g8, [g2 + 26]"], ["li g5, 32768"], ["vadd.f32 v8.p, v10.q, v12.p"], ["(p1) li g5, 1"], ["book g5!, g6"],
     ["vmov v9.p, v10.p"]].map pliperError =
    [some .badOffset, some .outOfRange, some .groupMismatch, some .notPredicable, some .badOperand, some (.notAnInstruction 8)] := by decide

/-- Task bodies and booking entries (Table 2.10, R82): only an unpredicated br, jr or halt closes a body; every needs times. -/
theorem test_pliper_bodies :
    [[".task f", "(p1) halt", ".endtask"], [".task f", "call f", ".endtask"], [".task f", "jr g1", ".endtask"],
     [".scratch", ".book b", "me at 0 every 2", ".endbook"], [".scratch", ".book b", "me at 0 times 2", ".endbook"]].map pliperError =
    [some .badTask, some .badTask, none, some .badBooking, some .badBooking] := by decide

end Sys2Proof.Tests
end

section
/-! Frames that several statements share: what leaves every memory alone, and contexts and partitions read back after an
update. -/

namespace Sys2Proof.Machine

variable {s t u : State}

/-! ### Memory left alone -/

theorem sameMemory.refl (s : State) : sameMemory s s := ⟨fun _ => rfl, fun _ _ => ⟨rfl, rfl⟩⟩

theorem sameMemory.trans (h : sameMemory s t) (h' : sameMemory t u) : sameMemory s u :=
  ⟨fun a => (h'.1 a).trans (h.1 a), fun c a => ⟨((h'.2 c a).1).trans (h.2 c a).1, ((h'.2 c a).2).trans (h.2 c a).2⟩⟩

/-- A state with the cores and the off-stack memory of another has its memory. -/
theorem sameMemory_of_cores (hc : t.cores = s.cores) (ho : t.offstack = s.offstack) : sameMemory s t := by
  have hk (c : Nat) : t.coreAt c = s.coreAt c := by unfold State.coreAt; rw [hc]
  exact ⟨fun a => by rw [ho], fun c a => by simp [hk]⟩

/-- A change of a core that keeps its local SRAM and its vault's bytes. -/
theorem sameMemory_modCore (s : State) (c : Nat) (f : Core → Core) (hs : ∀ k, (f k).sram = k.sram)
    (hv : ∀ k, (f k).vault.mem = k.vault.mem) : sameMemory s (s.modCore c f) := by
  refine ⟨fun _ => rfl, fun n a => ?_⟩
  unfold State.modCore
  rw [State.coreAt_setCore]
  split
  · next h => rw [h.1, hs, hv]; exact ⟨rfl, rfl⟩
  · exact ⟨rfl, rfl⟩

theorem sameMemory_modThr (s : State) (c t : Nat) (f : Thread → Thread) : sameMemory s (s.modThr c t f) :=
  sameMemory_modCore s c _ (fun _ => rfl) fun _ => rfl

theorem sameMemory_modTh (s : State) (f : Thread → Thread) : sameMemory s (s.modTh f) := sameMemory_modThr s _ _ f

theorem sameMemory_postOnce (s : State) (due : Nat) (i : Instr) : sameMemory s (s.postOnce due i) :=
  sameMemory_of_cores (by simp) (by simp)

/-! ### Contexts and partitions read back -/

@[simp] theorem State.ctxOf_id (s : State) (id : Nat) : (s.ctxOf id).id = id := by
  unfold State.ctxOf
  cases h : s.ctxs.find? (·.id == id) with
  | none => rfl
  | some x => simpa using List.find?_some h

/-- The first record of an identifier after a record is put in a list of contexts. -/
theorem find?_putCtx (x : Ctx) (o : Nat) :
    ∀ l : List Ctx, (putCtx x l).find? (·.id == o) = if o = x.id then some x else l.find? (·.id == o)
  | [] => by
    by_cases h : o = x.id
    · simp [putCtx, h]
    · simp [putCtx, h, Ne.symm h]
  | y :: ys => by
    have ih := find?_putCtx x o ys
    unfold putCtx
    by_cases hy : y.id = x.id <;> by_cases h : o = x.id
    · simp [hy, h]
    · simp [hy, h, Ne.symm h]
    · simpa [hy, h] using ih
    · by_cases ho : y.id = o <;> simp [hy, h, ho] at ih ⊢; exact ih

/-- A context read back after one is changed. -/
theorem State.ctxOf_modCtx (s : State) (id o : Nat) {f : Ctx → Ctx} (hf : (f (s.ctxOf id)).id = id) :
    (s.modCtx id f).ctxOf o = if o = id then f (s.ctxOf id) else s.ctxOf o := by
  have h := find?_putCtx (f (s.ctxOf id)) o s.ctxs
  rw [hf] at h
  show ((putCtx (f (s.ctxOf id)) s.ctxs).find? (·.id == o)).getD (Ctx.reset o) = _
  rw [h]
  split <;> rfl

/-- A partition read back after it is changed. -/
theorem State.partAt_modPart_self (s : State) {p : Nat} (h : p < 16) (f : Partition → Partition) :
    (s.modPart p f).partAt p = (s.partAt p).map f := by
  unfold State.modPart State.partAt
  simp [h]

end Sys2Proof.Machine
end

section
/-! Control registers: what each register reads, what a write leaves, and what the four forms do (R131, R132, R358, R374). -/

namespace Sys2Proof.Machine

variable {s u : State}

/-! ### An update that reaches the running thread, and what else it may do -/

/-- The running thread has changed by `f`; the cycle, the thread that runs, its single-step and every memory are as before. -/
structure State.ChangesThread (s u : State) (f : Thread → Thread) : Prop where
  cur : u.cur = s.cur
  cycle : u.cycle = s.cycle
  th : u.th = f s.th
  steps : u.steps s.cc s.ct = s.steps s.cc s.ct
  mem : sameMemory s u

theorem State.ChangesThread.cc {f : Thread → Thread} (h : s.ChangesThread u f) : u.cc = s.cc := by unfold State.cc; rw [h.cur]

theorem State.ChangesThread.ct {f : Thread → Thread} (h : s.ChangesThread u f) : u.ct = s.ct := by unfold State.ct; rw [h.cur]

theorem State.ChangesThread.refl (s : State) : s.ChangesThread s id := ⟨rfl, rfl, rfl, rfl, .refl s⟩

theorem State.ChangesThread.trans {v : State} {f g : Thread → Thread} (h : s.ChangesThread u f) (h' : u.ChangesThread v g) :
    s.ChangesThread v (g ∘ f) where
  cur := h'.cur.trans h.cur
  cycle := h'.cycle.trans h.cycle
  th := by rw [h'.th, h.th]; rfl
  steps := by have := h'.steps; rw [h.cc, h.ct] at this; exact this.trans h.steps
  mem := h.mem.trans h'.mem

/-- A change of the running thread's fields but its privilege. -/
theorem changesThread_modTh (s : State) (f : Thread → Thread) (h : (f s.th).priv = s.th.priv) : s.ChangesThread (s.modTh f) f where
  cur := rfl
  cycle := rfl
  th := s.th_modTh f
  steps := steps_modTh f h
  mem := sameMemory_modTh s f

/-- The running thread's instruction retires after its update: its memory and its thread. -/
theorem State.ChangesThread.completes {f g : Thread → Thread} (h : s.ChangesThread u f) (hf : (f s.th).pc = s.th.pc) (cost : Nat) :
    sameMemory s (u.completes cost g) ∧ (u.completes cost g).th = s.after (g (f s.th)) cost := by
  refine ⟨h.mem.trans (sameMemory_modTh u _), ?_⟩
  unfold State.completes State.goesOn State.after
  rw [State.th_modTh, h.cc, h.ct, h.steps, h.cycle, h.th, hf]

/-! ### Reading (Table 2.2, Table 14.1) -/

/-- A number above 0x3FF names nothing of the running thread. -/
theorem csrGet_modTh (s : State) (f : Thread → Thread) {n : Nat} (h : 0x400 ≤ n) : (s.modTh f).csrGet n = s.csrGet n := by
  have hx : (s.modTh f).ctxOf = s.ctxOf := rfl
  have hp : (s.modTh f).myPart = s.myPart := rfl
  have hw (k : Core) (t : Nat) (th : Thread) : (k.setThr t th).window = k.window := rfl
  have hs (k : Core) (t : Nat) (th : Thread) : (k.setThr t th).sensor = k.sensor := rfl
  have hd (k : Core) (t : Nat) (th : Thread) : (k.setThr t th).dramTemp = k.dramTemp := rfl
  simp only [State.csrGet, show n ≠ 1 by omega, show n ≠ 2 by omega, show n ≠ 3 by omega, show n ≠ 4 by omega, show n ≠ 5 by omega,
    show n ≠ 6 by omega, show n ≠ 7 by omega, show n ≠ 0x10 by omega, show n ≠ 0x11 by omega, show n ≠ 0x12 by omega,
    show n ≠ 0x20 by omega, show n ≠ 0x21 by omega, show n ≠ 0x22 by omega, ↓reduceIte, State.me_modTh, hx, hp, hw, hs, hd,
    Core.setThr_ctx, Core.setThr_tvec, Core.setThr_dbgctl, Core.setThr_watch, Core.setThr_vault, Core.setThr_matrix]

/-- The writes under way are read by no register. -/
theorem csrGet_csrs (s : State) (l : List (Nat × Nat × Nat)) (n : Nat) : ({ s with csrs := l } : State).csrGet n = s.csrGet n := by
  have hx : ({ s with csrs := l } : State).ctxOf = s.ctxOf := rfl
  have hp : ({ s with csrs := l } : State).myPart = s.myPart := rfl
  have hm : ({ s with csrs := l } : State).me = s.me := rfl
  have ht : ({ s with csrs := l } : State).th = s.th := rfl
  have hs : ({ s with csrs := l } : State).ssOf = s.ssOf := rfl
  simp only [State.csrGet, hx, hp, hm, ht, hs]
  rfl

/-- Places in a block of registers, one by one. -/
theorem lt_eight_cases {j : Nat} (h : j < 8) : j = 0 ∨ j = 1 ∨ j = 2 ∨ j = 3 ∨ j = 4 ∨ j = 5 ∨ j = 6 ∨ j = 7 := by omega

theorem lt_four_cases {j : Nat} (h : j < 4) : j = 0 ∨ j = 1 ∨ j = 2 ∨ j = 3 := by omega

theorem lt_three_cases {j : Nat} (h : j < 3) : j = 0 ∨ j = 1 ∨ j = 2 := by omega

/-- The registers of a window, a sensor and a watchpoint, by their place in their block of numbers. -/
theorem csrGet_base (s : State) {j : Nat} (h : j < 8) : s.csrGet (0x410 + j) = (s.me.window j).1.toNat := by
  obtain rfl | rfl | rfl | rfl | rfl | rfl | rfl | rfl := lt_eight_cases h <;> rfl

theorem csrGet_bound (s : State) {j : Nat} (h : j < 8) : s.csrGet (0x418 + j) = (s.me.window j).2.1.toNat := by
  obtain rfl | rfl | rfl | rfl | rfl | rfl | rfl | rfl := lt_eight_cases h <;> rfl

theorem csrGet_rights (s : State) {j : Nat} (h : j < 8) : s.csrGet (0x420 + j) = (s.me.window j).2.2.toNat := by
  obtain rfl | rfl | rfl | rfl | rfl | rfl | rfl | rfl := lt_eight_cases h <;> rfl

theorem csrGet_therm (s : State) {j : Nat} (h : j < 3) : s.csrGet (0x430 + j) = (s.me.sensor j).word := by
  obtain rfl | rfl | rfl := lt_three_cases h <;> rfl

theorem csrGet_watch (s : State) {j : Nat} (h : j < 4) :
    s.csrGet (0x441 + j) = if (s.ctxOf s.me.ctx).dbg then ((s.me.watch[j]?).getD 0).toNat else 0 := by
  obtain rfl | rfl | rfl | rfl := lt_four_cases h <;> rfl

theorem csrGet_imbring (s : State) {q : Partition} (h : s.myPart = some q) : s.csrGet 0x460 = q.imbring.toNat := by
  simp [State.csrGet, h]

/-! ### Writing (R131, R358) -/

theorem stored_word (m : Nat) (v : Word) : BitVec.ofNat 64 (stored m 0 v.toNat) = v &&& BitVec.ofNat 64 m := by
  unfold stored
  rw [BitVec.ofNat_toNat, BitVec.setWidth_eq, BitVec.ofNat_toNat, BitVec.setWidth_eq, BitVec.zero_and, BitVec.zero_or]

/-- The value read, logged for a replay where the register is one that R383 names. -/
def State.csrRead (s : State) (n : Nat) : State := if n = 2 || n = 3 || n = 7 then s.logRead (s.csrGet n) else s

/-- The device after a form has read a register and written a value to it, if it writes one. -/
def State.csrAfter (s : State) (n : Nat) : Option Nat → State
  | none => s.csrRead n
  | some x => (s.csrRead n).csrSet n x

theorem csrRead_unlogged (s : State) {n : Nat} (h : n ≠ 2 ∧ n ≠ 3 ∧ n ≠ 7) : s.csrRead n = s := by
  simp [State.csrRead, h]

/-- A core with an entry added to its receive log, unless it replays one (R383). -/
def Core.logged (x : LogItem) (k : Core) : Core :=
  if k.net.replay.isSome then k else { k with net := { k.net with log := k.net.log ++ [⟨x, k.counts⟩] } }

theorem Core.logged_keeps (x : LogItem) (k : Core) : (k.logged x).thr = k.thr ∧ (k.logged x).dbgctl = k.dbgctl ∧
    (k.logged x).ctx = k.ctx := by
  unfold Core.logged
  split <;> exact ⟨rfl, rfl, rfl⟩

theorem Core.logged_sram (x : LogItem) (k : Core) : (k.logged x).sram = k.sram := by
  unfold Core.logged; split <;> rfl

theorem Core.logged_vault (x : LogItem) (k : Core) : (k.logged x).vault = k.vault := by
  unfold Core.logged; split <;> rfl

theorem changesThread_logItem (s : State) (x : LogItem) : s.ChangesThread (s.logItem s.cc x) id := by
  obtain ⟨hthr, hdbg, hctx⟩ := s.me.logged_keeps x
  have hme : (s.logItem s.cc x).coreAt s.cc = s.me.logged x := s.me_modMe (Core.logged x)
  have hth : (s.logItem s.cc x).thrAt s.cc s.ct = s.th := by unfold State.thrAt; rw [hme, hthr]; rfl
  refine ⟨rfl, rfl, hth, ?_, sameMemory_modCore s _ (Core.logged x) (Core.logged_sram x) fun k => by rw [k.logged_vault x]⟩
  unfold State.steps
  rw [hme, hth, hdbg, hctx]
  rfl

/-- A read leaves the thread, the contexts, the partitions and the writes under way. -/
theorem csrRead_changes (s : State) (n : Nat) : s.ChangesThread (s.csrRead n) id ∧ (s.csrRead n).csrs = s.csrs ∧
    (s.csrRead n).ctxs = s.ctxs ∧ (s.csrRead n).parts = s.parts := by
  unfold State.csrRead State.logRead
  split
  · split
    · exact ⟨changesThread_logItem s _, rfl, rfl, rfl⟩
    · exact ⟨.refl s, rfl, rfl, rfl⟩
  · exact ⟨.refl s, rfl, rfl, rfl⟩

/-- A change of the running thread where it is in privileged state. -/
theorem modTh_ifPriv (s : State) (f : Thread → Thread) :
    (if s.th.priv then s.modTh f else s) = s.modTh fun th => if th.priv then f th else th := by
  have hid : s.me.setThr s.ct s.th = s.me := by
    have : s.me.threads.setIfInBounds s.ct s.th = s.me.threads := by
      ext i hi
      by_cases he : s.ct = i
      · subst he
        rw [Vector.getElem_setIfInBounds_self]
        simp [State.th, State.thrAt, State.me, Core.thr, s.ct_lt]
      · simp [he]
    unfold Core.setThr; rw [this]
  by_cases h : s.th.priv = true
  · rw [if_pos h]
    show s.setCore s.cc (s.me.setThr s.ct (f s.th)) = s.setCore s.cc (s.me.setThr s.ct (if s.th.priv then f s.th else s.th))
    rw [if_pos h]
  · rw [if_neg h]
    symm
    show s.modCore s.cc (fun k => k.setThr s.ct (if (k.thr s.ct).priv then f (k.thr s.ct) else k.thr s.ct)) = s
    refine s.modCore_id _ _ ?_
    show s.me.setThr s.ct (if s.th.priv then f s.th else s.th) = s.me
    rw [if_neg h, hid]

/-- The registers that a thread has of its own (Table 2.2), each with the bits it stores. -/
theorem csrSet_fpsr (s : State) (v : Word) : s.csrSet 0x001 v.toNat = s.modTh fun th => { th with fpsr := v &&& 0x1F3 } := by
  simp only [State.csrSet, ↓reduceIte, stored_word]; rfl

theorem csrSet_evpend (s : State) (v : Word) : s.csrSet 0x007 v.toNat = s.modTh fun th => { th with evpend := v &&& 0x7F } := by
  simp only [State.csrSet, ↓reduceIte, stored_word]; rfl

theorem csrSet_vslip (s : State) (v : Word) : s.csrSet 0x010 v.toNat = s.modTh fun th => { th with vslip := v &&& 0xFFFF } := by
  simp only [State.csrSet, ↓reduceIte, stored_word]; rfl

theorem csrSet_lslip (s : State) (v : Word) : s.csrSet 0x011 v.toNat = s.modTh fun th => { th with lslip := v &&& 0xFFFF } := by
  simp only [State.csrSet, ↓reduceIte, stored_word]; rfl

theorem csrSet_spbase (s : State) (v : Word) :
    s.csrSet 0x020 v.toNat = s.modTh fun th => if th.priv then { th with spbase := v &&& 0xFFFC0 } else th := by
  rw [← modTh_ifPriv]
  simp only [State.csrSet, ↓reduceIte, stored_word]; rfl

theorem csrSet_spsize (s : State) (v : Word) : s.csrSet 0x021 v.toNat =
    s.modTh fun th => if th.priv then { th with spsize := BitVec.ofNat 64 (min 0x100000 (v &&& 0x1FFFC0).toNat) } else th := by
  have h : stored (ones 20 6) 0 v.toNat = (v &&& 0x1FFFC0).toNat := by
    rw [show (v &&& 0x1FFFC0) = BitVec.ofNat 64 (stored (ones 20 6) 0 v.toNat) from (stored_word _ v).symm]
    exact (Nat.mod_eq_of_lt (BitVec.isLt _)).symm
  rw [← modTh_ifPriv]
  simp only [State.csrSet, ↓reduceIte, h]; rfl

theorem csrSet_ovfp (s : State) (v : Word) :
    s.csrSet 0x022 v.toNat = s.modTh fun th => if th.priv then { th with ovfp := v &&& 0xFFFFFFFFFFFC0 } else th := by
  rw [← modTh_ifPriv]
  simp only [State.csrSet, ↓reduceIte, stored_word]; rfl

/-- A fold whose every step leaves the state as it is. -/
theorem foldl_of_fixed {α : Type} {f : State → α → State} (h : ∀ x, f s x = s) : ∀ l : List α, l.foldl f s = s
  | [] => rfl
  | x :: l => by rw [List.foldl_cons, h x, foldl_of_fixed h l]

/-- A ring with room takes no record where no thread waits for a place. -/
theorem ringFreed_noWaiters (s : State) (ctx : Nat) (h : ∀ c t r a k, (s.thrAt c t).block ≠ .ring r a k) : s.ringFreed ctx = s := by
  unfold State.ringFreed
  refine foldl_of_fixed (fun w => ?_) _
  split
  · rfl
  · split
    · next r a k hb => exact absurd hb (h _ _ _ _ _)
    · rfl

/-- The registers of the running context (Table 14.1), each with the bits it stores, where no thread waits for a place in a ring. -/
theorem csrSet_context (s : State) (v : Word) (h : ∀ c t r a k, (s.thrAt c t).block ≠ .ring r a k) :
    s.csrSet 0x401 v.toNat = (s.modCtx s.me.ctx fun x => { x with trbase := v &&& 0xFFFFFFFFFFFC0 }) ∧
    s.csrSet 0x402 v.toNat = (s.modCtx s.me.ctx fun x => { x with trsize := BitVec.ofNat 64 (min 16 (max 4 (v.toNat % 32))) }) ∧
    s.csrSet 0x403 v.toNat = (s.modCtx s.me.ctx fun x => { x with trprod := v &&& 0xFFFFFFFF }) ∧
    s.csrSet 0x404 v.toNat = (s.modCtx s.me.ctx fun x =>
      { x with trcons := v &&& 0xFFFFFFFF, consAt := if x.trcons = v &&& 0xFFFFFFFF then x.consAt else s.cycle }) ∧
    s.csrSet 0x405 v.toNat = (s.modCtx s.me.ctx fun x => { x with lostcnt := bitsOf v.toNat 31 16, lost := x.lost && !v.getLsbD 1 }) ∧
    s.csrSet 0x406 v.toNat = (s.modCtx s.me.ctx fun x => { x with fatalslot := v &&& 0xFFFFFFFFFFFC0 }) ∧
    s.csrSet 0x450 v.toNat = (s.modCtx s.me.ctx fun x => { x with ptbase := v &&& 0xFFFFFF0000 }) := by
  have hf (id : Nat) (f : Ctx → Ctx) : (s.modCtx id f).ringFreed id = s.modCtx id f := ringFreed_noWaiters _ _ h
  have hb : bitOf v.toNat 1 = v.getLsbD 1 := by
    simp [bitOf, BitVec.getLsbD, Nat.testBit, Nat.shiftRight_eq_div_pow]
  refine ⟨?_, ?_, ?_, ?_, ?_, ?_, ?_⟩ <;>
    simp only [State.csrSet, State.ctxSet, hf, stored_word, hb] <;> rfl

/-- A core- or partition-scope write is kept for the end of the cycle (R374). -/
theorem csrSet_core (s : State) {n : Nat} (v : Word) (h : n = 0x400 ∨ (0x410 ≤ n ∧ n ≤ 0x427) ∨
    (0x440 ≤ n ∧ n ≤ 0x444 ∧ (s.ctxOf s.me.ctx).dbg = true) ∨ n = 0x460) :
    s.csrSet n v.toNat = { s with csrs := s.csrs ++ [(s.cc, n, v.toNat)] } := by
  have hlow : 0x400 ≤ n ∧ n ≠ 0x450 ∧ ¬ (0x401 ≤ n ∧ n ≤ 0x406) := by omega
  have hdbg : ¬ ((0x440 ≤ n ∧ n ≤ 0x444) ∧ (s.ctxOf s.me.ctx).dbg = false) := by
    rintro ⟨hn, hd⟩
    simp only [hd, Bool.false_eq_true, and_false, false_or] at h
    omega
  have hin : ((n = 0x400 ∨ (0x410 ≤ n ∧ n ≤ 0x427)) ∨ (0x440 ≤ n ∧ n ≤ 0x444)) ∨ n = 0x460 := by omega
  unfold State.csrSet
  simp [show n ≠ 1 by omega, show n ≠ 7 by omega, show n ≠ 0x10 by omega, show n ≠ 0x11 by omega, show n ≠ 0x20 by omega,
    show n ≠ 0x21 by omega, show n ≠ 0x22 by omega, hlow, hdbg, hin]

/-- A register that stores nothing: the read-only ones, and the debug registers of a context that is not debuggable. -/
theorem csrSet_readOnly (s : State) (n x : Nat) (h : (2 ≤ n ∧ n ≤ 6 ∨ n = 0x12) ∨ (0x430 ≤ n ∧ n ≤ 0x433) ∨
    (0x440 ≤ n ∧ n ≤ 0x444 ∧ (s.ctxOf s.me.ctx).dbg = false)) : s.csrSet n x = s := by
  have hout : ¬ ((0x401 ≤ n ∧ n ≤ 0x406) ∨ n = 0x450) ∧ ¬ (n = 0x400 ∨ (0x410 ≤ n ∧ n ≤ 0x427)) ∧ n ≠ 0x460 := by omega
  unfold State.csrSet
  by_cases hn : 0x440 ≤ n ∧ n ≤ 0x444
  · have hdbg : (s.ctxOf s.me.ctx).dbg = false := by
      obtain h | h | ⟨-, -, h⟩ := h
      · omega
      · omega
      · exact h
    simp [show n ≠ 1 by omega, show n ≠ 7 by omega, show n ≠ 0x10 by omega, show n ≠ 0x11 by omega, show n ≠ 0x20 by omega,
      show n ≠ 0x21 by omega, show n ≠ 0x22 by omega, hout, hn, hdbg]
  · simp [show n ≠ 1 by omega, show n ≠ 7 by omega, show n ≠ 0x10 by omega, show n ≠ 0x11 by omega, show n ≠ 0x20 by omega,
      show n ≠ 0x21 by omega, show n ≠ 0x22 by omega, hout, hn]

/-- The numbers below, of registers that a write leaves or keeps for the end of the cycle, are assigned (Table 2.2, Table 14.1). -/
theorem csrAssigned_of_range {n : Nat} (h : (2 ≤ n ∧ n ≤ 6) ∨ n = 0x12 ∨ n = 0x400 ∨ (0x410 ≤ n ∧ n ≤ 0x427) ∨
    (0x430 ≤ n ∧ n ≤ 0x433) ∨ (0x440 ≤ n ∧ n ≤ 0x444) ∨ n = 0x460) : csrAssigned n = true := by
  simp only [csrAssigned, Bool.or_eq_true, Bool.and_eq_true, decide_eq_true_eq, beq_iff_eq]
  omega

/-! ### The four forms (R131, R132) -/

section Forms

variable {d a : GReg} {n : BitVec 11} {us : List Use} {f : State → Nat → Option Nat}

/-- A number above 0x3FF raises PRIV in user state. -/
theorem csrForm_priv (h : 0x400 ≤ n.toNat) (hp : s.th.priv = false) :
    runThread (csrForm d n us f) s = .next (takeTrap { cause := 0x02 } s) := by
  refine runThread_trap ?_
  unfold csrForm
  simp only [bind, StateT.bind, get, getThe, MonadStateOf.get, StateT.get, pure, Except.pure, Except.bind, h, hp, Bool.not_false,
    decide_true, Bool.and_self, ↓reduceIte]
  rfl

/-- The privilege check passes. -/
theorem csr_allowed (h : n.toNat < 0x400 ∨ s.th.priv = true) : (decide (0x400 ≤ n.toNat) && !s.th.priv) = false := by
  obtain h | h := h
  · simp; omega
  · simp [h]

/-- An unassigned number is ILLEGAL. -/
theorem csrForm_unassigned (h : n.toNat < 0x400 ∨ s.th.priv = true) (ha : csrAssigned n.toNat = false) :
    runThread (csrForm d n us f) s = .next (takeTrap { cause := 0x01, det0 := 9, det1 := 5 } s) := by
  refine runThread_trap ?_
  unfold csrForm
  simp only [bind, StateT.bind, get, getThe, MonadStateOf.get, StateT.get, pure, Except.pure, Except.bind, csr_allowed h, ha,
    Bool.false_eq_true, Bool.not_false, ↓reduceIte]
  rfl

/-- The thread has special-function operations under way. -/
def State.sfuBusy (s : State) : Bool := (s.me.sfu.ops ++ s.me.sfu.removed).any (·.thr == s.ct)

/-- A form of FPSR, its operands usable, stops as `waitOpen` does while the thread's special-function results are out (R96). -/
theorem csrForm_waitOpen (hus : s.usable (us ++ [.wg d])) (hn : n.toNat = 1) (hb : s.sfuBusy = true) {e : Stop}
    (he : waitOpen (α := Unit) { cause := causeOvrn } s = .error e) : csrForm d n us f s = .error e := by
  have ha : csrAssigned 1 = true := rfl
  unfold State.sfuBusy at hb
  unfold csrForm
  simp only [bind, StateT.bind, get, getThe, MonadStateOf.get, StateT.get, pure, Except.pure, Except.bind, operands_usable hus, hn, ha, hb,
    show ¬ (0x400 ≤ 1) by decide, decide_false, Bool.false_and, Bool.false_eq_true, ↓reduceIte, Bool.not_true, decide_true,
    Bool.and_self, he]

theorem csrForm_waits (hus : s.usable (us ++ [.wg d])) (hn : n.toNat = 1) (hb : s.sfuBusy = true) (ho : s.th.st ≠ .booked) :
    runThread (csrForm d n us f) s = .next (s.waits (s.cycle + 1)) := by
  have he : waitOpen (α := Unit) { cause := causeOvrn } s = .error (.wait (s.cycle + 1)) := by
    unfold waitOpen
    simp [bind, StateT.bind, get, getThe, MonadStateOf.get, StateT.get, pure, Except.pure, Except.bind, ho, stall, throw, throwThe,
      MonadExceptOf.throw, StateT.lift]
  rw [runThread_wait (csrForm_waitOpen hus hn hb he)]
  simp only [waiting, State.waits, Nat.max_self]

theorem csrForm_overruns (hus : s.usable (us ++ [.wg d])) (hn : n.toNat = 1) (hb : s.sfuBusy = true) (ho : s.th.st = .booked) :
    runThread (csrForm d n us f) s = .next (takeTrap { cause := 0x0B, replay := true } s) := by
  refine runThread_trap (csrForm_waitOpen hus hn hb ?_)
  unfold waitOpen
  simp [bind, StateT.bind, get, getThe, MonadStateOf.get, StateT.get, pure, Except.pure, Except.bind, ho, fault, throw, throwThe,
    MonadExceptOf.throw, StateT.lift, causeOvrn]

/-- A form whose operands can be used reads the register, writes what it writes, and completes with the value read in GD (R132). -/
theorem csrForm_completes (hus : s.usable (us ++ [.wg d])) (hr : s.me.net.replay = none) (hp : n.toNat < 0x400 ∨ s.th.priv = true)
    (ha : csrAssigned n.toNat = true) (hb : n.toNat = 1 → s.sfuBusy = false) :
    runThread (csrForm d n us f) s = .next ((s.csrAfter n.toNat (f s (s.csrGet n.toNat))).completes 1 fun th =>
      th.setGreg d.toNat ⟨BitVec.ofNat 64 (s.csrGet n.toNat), .full, (s.csrAfter n.toNat (f s (s.csrGet n.toNat))).cycle + 1⟩) := by
  have hsfu : (decide (n.toNat = 1) && (s.me.sfu.ops ++ s.me.sfu.removed).any (·.thr == s.ct)) = false := by
    by_cases hn : n.toNat = 1
    · simpa [hn, State.sfuBusy] using hb hn
    · simp [hn]
  have hobs (x : Nat) : s.observe x = (s.logRead x, x) := by simp [State.observe, NetIf.nextRead, hr]
  have hread : (if decide (n.toNat = 2) || decide (n.toNat = 3) || decide (n.toNat = 7) then s.observe (s.csrGet n.toNat)
      else (s, s.csrGet n.toNat)) = (s.csrRead n.toNat, s.csrGet n.toNat) := by
    unfold State.csrRead
    rw [hobs]
    split <;> simp [*]
  rw [← retire_writeG]
  refine runThread_done ?_ rfl
  unfold csrForm
  simp only [bind, StateT.bind, get, getThe, MonadStateOf.get, StateT.get, pure, Except.pure, Except.bind, operands_usable hus, ha,
    csr_allowed hp, hsfu, hread, Bool.false_eq_true, ↓reduceIte, Bool.not_true]
  unfold State.csrAfter
  cases f s (s.csrGet n.toNat) <;> rfl

/-- The writes under way, the contexts and the partitions are as before. -/
def State.keepsScopes (s t : State) : Prop := t.csrs = s.csrs ∧ t.ctxs = s.ctxs ∧ t.parts = s.parts

/-- A register that only a thread has, written. -/
theorem csrAfter_modTh {num x : Nat} {g : Thread → Thread} (hset : ∀ u : State, u.csrSet num x = u.modTh g)
    (hg : (g s.th).priv = s.th.priv) : s.ChangesThread (s.csrAfter num (some x)) g ∧ ∀ h, s.keepsScopes ((s.csrAfter num (some x)).modTh h) := by
  obtain ⟨hc, hcsrs, hctxs, hparts⟩ := csrRead_changes s num
  unfold State.csrAfter
  simp only [hset]
  exact ⟨hc.trans (changesThread_modTh _ g (by rw [hc.th]; exact hg)), fun h => ⟨hcsrs, hctxs, hparts⟩⟩

/-- A register read, and nothing written. -/
theorem csrAfter_read {num : Nat} {w : Option Nat} (hset : ∀ x, w = some x → (s.csrRead num).csrSet num x = s.csrRead num) :
    s.ChangesThread (s.csrAfter num w) id ∧ ∀ h, s.keepsScopes ((s.csrAfter num w).modTh h) := by
  obtain ⟨hc, hcsrs, hctxs, hparts⟩ := csrRead_changes s num
  have hw : s.csrAfter num w = s.csrRead num := by
    cases w with
    | none => rfl
    | some x => exact hset x rfl
  rw [hw]
  exact ⟨hc, fun h => ⟨hcsrs, hctxs, hparts⟩⟩

/-- What a form leaves, with the value read in GD. -/
theorem csrForm_leaves {i : Instr} {w : Option Nat} {g : Thread → Thread} {p : State → Prop}
    (hi : exec i s = .next ((s.csrAfter n.toNat w).completes 1 fun th =>
      th.setGreg d.toNat ⟨BitVec.ofNat 64 (s.csrGet n.toNat), .full, (s.csrAfter n.toNat w).cycle + 1⟩))
    (hc : s.ChangesThread (s.csrAfter n.toNat w) g ∧ ∀ h, p ((s.csrAfter n.toNat w).modTh h)) (hpc : (g s.th).pc = s.th.pc) :
    ∃ t, exec i s = .next t ∧ sameMemory s t ∧
      t.th = s.after ((g s.th).setGreg d.toNat ⟨BitVec.ofNat 64 (s.csrGet n.toNat), .full, s.cycle + 1⟩) 1 ∧ p t := by
  obtain ⟨hm, hth⟩ := hc.1.completes (g := fun th => th.setGreg d.toNat ⟨BitVec.ofNat 64 (s.csrGet n.toNat), .full, s.cycle + 1⟩) hpc 1
  rw [hc.1.cycle] at hi
  refine ⟨_, hi, hm, hth, ?_⟩
  unfold State.completes State.goesOn
  exact hc.2 _

/-- Each form is `csrForm` over operands of its own. -/
theorem exec_csr_forms (s : State) (d a : GReg) (n : BitVec 11) (hu : s.usable [.rg a false, .wg d]) :
    ∀ i ∈ [Instr.csrr d n, .csrw d a n, .csrs d a n, .csrc d a n], ∃ us f, s.usable (us ++ [.wg d]) ∧
      exec i s = runThread (csrForm d n us f) s := by
  have hd : s.usable [.wg d] := (usable_cons.mp hu).2
  intro i hi
  simp only [List.mem_cons, List.not_mem_nil, or_false] at hi
  obtain rfl | rfl | rfl | rfl := hi
  · exact ⟨[], _, hd, rfl⟩
  · exact ⟨[.rg a false], _, hu, rfl⟩
  · exact ⟨[.rg a false], _, hu, rfl⟩
  · exact ⟨[.rg a false], _, hu, rfl⟩

/-- The writing forms, each with the value that it writes. -/
theorem exec_csr_writes (s : State) (d a : GReg) (n : BitVec 11) {i : Instr} {v : Word}
    (hi : (i, v) ∈ [(Instr.csrw d a n, s.readG a), (.csrs d a n, BitVec.ofNat 64 (s.csrGet n.toNat) ||| s.readG a),
      (.csrc d a n, BitVec.ofNat 64 (s.csrGet n.toNat) &&& ~~~(s.readG a))]) (ha : a ≠ 0 ∨ i = .csrw d a n) :
    ∃ f, exec i s = runThread (csrForm d n [.rg a false] f) s ∧ f s (s.csrGet n.toNat) = some v.toNat := by
  simp only [List.mem_cons, List.not_mem_nil, or_false, Prod.mk.injEq] at hi
  obtain ⟨rfl, rfl⟩ | ⟨rfl, rfl⟩ | ⟨rfl, rfl⟩ := hi
  · exact ⟨_, rfl, rfl⟩
  · exact ⟨_, rfl, if_neg (by simpa using ha)⟩
  · exact ⟨_, rfl, if_neg (by simpa using ha)⟩

end Forms

/-! ### Writes that other threads see -/

/-- A context-scope register written in privileged state. -/
theorem changesThread_modCtx (s : State) (o : Nat) (f : Ctx → Ctx) (h : s.th.priv = true) : s.ChangesThread (s.modCtx o f) id where
  cur := rfl
  cycle := rfl
  th := rfl
  steps := by
    have hp (u : State) (hu : u.thrAt s.cc s.ct = s.th) : u.steps s.cc s.ct = false := by simp [State.steps, hu, h]
    exact (hp (s.modCtx o f) rfl).trans (hp s rfl).symm
  mem := sameMemory_of_cores rfl rfl

/-- The register write of a cycle's end changes a core but for its memories, or a partition (R374). -/
theorem csrApply_keeps (s : State) (c n x : Nat) : sameMemory s (s.csrApply c n x) ∧ (s.csrApply c n x).csrs = s.csrs := by
  have hcore (f : Core → Core) (hs : ∀ k, (f k).sram = k.sram) (hv : ∀ k, (f k).vault.mem = k.vault.mem) :
      sameMemory s (s.modCore c f) ∧ (s.modCore c f).csrs = s.csrs := ⟨sameMemory_modCore s c f hs hv, rfl⟩
  unfold State.csrApply
  dsimp only
  iterate 6 (split; · exact hcore _ (fun _ => rfl) fun _ => rfl)
  split
  · split
    · exact ⟨sameMemory_of_cores rfl rfl, rfl⟩
    · exact ⟨.refl s, rfl⟩
  · exact ⟨.refl s, rfl⟩

theorem csrApply_tvec (s : State) (c x : Nat) :
    s.csrApply c 0x400 x = s.modCore c fun k => { k with tvec := BitVec.ofNat 64 (tvecOf x) } := rfl

/-- A core with one window replaced. -/
def Core.setWindow (k : Core) (j : Nat) (p : Word × Word × Word) : Core :=
  { k with agent := { k.agent with windows := k.agent.windows.setIfInBounds j p } }

theorem Core.window_setWindow (k : Core) {j : Nat} (h : j < 8) (p : Word × Word × Word) : (k.setWindow j p).window j = p := by
  simp [Core.setWindow, Core.window, h]

theorem csrApply_base (s : State) (c : Nat) {j : Nat} (h : j < 8) (v : Word) :
    s.csrApply c (0x410 + j) v.toNat = s.modCore c fun k => k.setWindow j (v &&& 0xFFFFFFFFFFFC0, (k.window j).2) := by
  rw [show v &&& 0xFFFFFFFFFFFC0 = _ from (stored_word (ones 51 6) v).symm]
  obtain rfl | rfl | rfl | rfl | rfl | rfl | rfl | rfl := lt_eight_cases h <;> rfl

theorem csrApply_bound (s : State) (c : Nat) {j : Nat} (h : j < 8) (v : Word) : s.csrApply c (0x418 + j) v.toNat =
    s.modCore c fun k => k.setWindow j ((k.window j).1, v &&& 0xFFFFFFFFFFFC0, (k.window j).2.2) := by
  rw [show v &&& 0xFFFFFFFFFFFC0 = _ from (stored_word (ones 51 6) v).symm]
  obtain rfl | rfl | rfl | rfl | rfl | rfl | rfl | rfl := lt_eight_cases h <;> rfl

theorem csrApply_rights (s : State) (c : Nat) {j : Nat} (h : j < 8) (v : Word) : s.csrApply c (0x420 + j) v.toNat =
    s.modCore c fun k => k.setWindow j ((k.window j).1, (k.window j).2.1, v &&& 0xFFFF009F) := by
  rw [show v &&& 0xFFFF009F = _ from (stored_word (ones 31 16 + ones 7 7 + ones 4 0) v).symm]
  obtain rfl | rfl | rfl | rfl | rfl | rfl | rfl | rfl := lt_eight_cases h <;> rfl

theorem csrApply_dbgctl (s : State) (c : Nat) (v : Word) :
    s.csrApply c 0x440 v.toNat = s.modCore c fun k => { k with dbgctl := v &&& 0xF0FF0002 } := by
  rw [show v &&& 0xF0FF0002 = _ from (stored_word (ones 31 28 + ones 23 16 + 2) v).symm]
  rfl

theorem csrApply_watch (s : State) (c : Nat) {j : Nat} (h : j < 4) (v : Word) : s.csrApply c (0x441 + j) v.toNat =
    s.modCore c fun k => { k with watch := k.watch.setIfInBounds j (v &&& 0xFF0FFFFFFFFFFFFF) } := by
  rw [show v &&& 0xFF0FFFFFFFFFFFFF = _ from (stored_word (ones 63 56 + ones 51 0) v).symm]
  obtain rfl | rfl | rfl | rfl := lt_four_cases h <;> rfl

theorem csrApply_imbring (s : State) {c p : Nat} (h : s.partOf c = some p) (v : Word) :
    s.csrApply c 0x460 v.toNat = s.modPart p fun q => { q with imbring := v &&& 0x80FFFFFFFFFFFFE0 } := by
  rw [show v &&& 0x80FFFFFFFFFFFFE0 = _ from (stored_word (2 ^ 63 + ones 55 52 + ones 51 5) v).symm]
  simp [State.csrApply, csrStored, h]

/-- One write under way is performed when the cycle ends. -/
theorem applyCsrs_one (s : State) {c n x : Nat} (h : s.csrs = [(c, n, x)]) :
    s.applyCsrs = ({ s with csrs := [] } : State).csrApply c n x := by
  simp [State.applyCsrs, h]

/-! ### The parts of the statement -/

section Parts

variable {d a : GReg} {n : BitVec 11} {i : Instr} {v : Word}

/-- The value `i` writes is `v`: one of the writing forms, the bits of a set or clear taken from a register other than g0. -/
def State.csrWrites (s : State) (d a : GReg) (n : BitVec 11) (i : Instr) (v : Word) : Prop :=
  (i, v) ∈ [(Instr.csrw d a n, s.readG a), (.csrs d a n, BitVec.ofNat 64 (s.csrGet n.toNat) ||| s.readG a),
    (.csrc d a n, BitVec.ofNat 64 (s.csrGet n.toNat) &&& ~~~(s.readG a))] ∧ (a ≠ 0 ∨ i = .csrw d a n)

/-- The instruction leaves the register's old value in GD with latency 1, the running thread changed by `g`, memory as it is, and `p`. -/
def State.csrLeaves (s : State) (d : GReg) (n : BitVec 11) (i : Instr) (g : Thread → Thread) (p : State → Prop) : Prop :=
  ∃ t, exec i s = .next t ∧ sameMemory s t ∧
    t.th = s.after ((g s.th).setGreg d.toNat ⟨BitVec.ofNat 64 (s.csrGet n.toNat), .full, s.cycle + 1⟩) 1 ∧ p t

variable (hu : s.usable [.rg a false, .wg d]) (hr : s.me.net.replay = none) (hw : s.csrWrites d a n i v)
include hu hr hw

/-- A write to an assigned register that the thread may name. -/
theorem csrWrites_leaves (hp : n.toNat < 0x400 ∨ s.th.priv = true) (ha : csrAssigned n.toNat = true)
    (hb : n.toNat = 1 → s.sfuBusy = false) {g : Thread → Thread} {p : State → Prop}
    (hc : s.ChangesThread (s.csrAfter n.toNat (some v.toNat)) g ∧ ∀ h, p ((s.csrAfter n.toNat (some v.toNat)).modTh h))
    (hpc : (g s.th).pc = s.th.pc) : s.csrLeaves d n i g p := by
  obtain ⟨f, hi, hf⟩ := exec_csr_writes s d a n hw.1 hw.2
  refine csrForm_leaves ?_ hc hpc
  rw [hi, csrForm_completes hu hr hp ha hb, hf]

/-- A register of the thread's own. -/
theorem csrWrites_thread {k : Nat} (hk : n.toNat = k) (hlow : k < 0x400) (ha : csrAssigned k = true)
    (hb : k = 1 → s.sfuBusy = false) {g : Thread → Thread} (hset : ∀ u : State, u.csrSet k v.toNat = u.modTh g)
    (hg : (g s.th).priv = s.th.priv) (hpc : (g s.th).pc = s.th.pc) : s.csrLeaves d n i g s.keepsScopes := by
  subst hk
  exact csrWrites_leaves hu hr hw (.inl hlow) ha hb (csrAfter_modTh hset hg) hpc

/-- A register that stores nothing. -/
theorem csrWrites_nothing (hp : n.toNat < 0x400 ∨ s.th.priv = true) (ha : csrAssigned n.toNat = true) (h1 : n.toNat ≠ 1)
    (hset : (s.csrRead n.toNat).csrSet n.toNat v.toNat = s.csrRead n.toNat) : s.csrLeaves d n i id s.keepsScopes := by
  refine csrWrites_leaves hu hr hw hp ha (fun h => absurd h h1) (csrAfter_read fun x hx => ?_) rfl
  obtain rfl := Option.some.inj hx
  exact hset

/-- A register of the context. -/
theorem csrWrites_context {k : Nat} (hk : n.toNat = k) (hp : s.th.priv = true) (ha : csrAssigned k = true) (hhigh : 0x400 ≤ k)
    {f : Ctx → Ctx} (hset : s.csrSet k v.toNat = s.modCtx s.me.ctx f) (hf : ∀ x, (f x).id = x.id) :
    s.csrLeaves d n i id fun t => t.ctxOf s.me.ctx = f (s.ctxOf s.me.ctx) ∧ t.csrs = s.csrs ∧ t.parts = s.parts ∧
      ∀ o, o ≠ s.me.ctx → t.ctxOf o = s.ctxOf o := by
  subst hk
  have hx (o : Nat) := s.ctxOf_modCtx s.me.ctx o (f := f) (by rw [hf, s.ctxOf_id])
  refine csrWrites_leaves hu hr hw (.inr hp) ha (by omega) ?_ rfl
  rw [State.csrAfter, csrRead_unlogged s (by omega), hset]
  exact ⟨changesThread_modCtx s _ f hp, fun h => ⟨(hx _).trans (if_pos rfl), rfl, rfl, fun o ho => (hx o).trans (if_neg ho)⟩⟩

/-- A register of the core or of the partition. -/
theorem csrWrites_core (hp : s.th.priv = true)
    (hn : n.toNat = 0x400 ∨ (0x410 ≤ n.toNat ∧ n.toNat ≤ 0x427) ∨
      (0x440 ≤ n.toNat ∧ n.toNat ≤ 0x444 ∧ (s.ctxOf s.me.ctx).dbg = true) ∨ n.toNat = 0x460) :
    s.csrLeaves d n i id fun t => t.csrs = s.csrs ++ [(s.cc, n.toNat, v.toNat)] ∧ t.csrGet n.toNat = s.csrGet n.toNat ∧
      t.ctxs = s.ctxs ∧ t.parts = s.parts := by
  have hhigh : 0x400 ≤ n.toNat := by omega
  refine csrWrites_leaves hu hr hw (.inr hp) (csrAssigned_of_range (by omega)) (by omega) ?_ rfl
  rw [State.csrAfter, csrRead_unlogged s (by omega), csrSet_core s v hn]
  exact ⟨⟨rfl, rfl, rfl, rfl, sameMemory_of_cores rfl rfl⟩, fun h => ⟨rfl, (csrGet_modTh _ h hhigh).trans (csrGet_csrs s _ _), rfl, rfl⟩⟩

end Parts

end Sys2Proof.Machine
end

section
open Sys2Proof Sys2Proof.Machine

/-- Settles O47: the four forms are one body, whose stops are the clauses on PRIV, ILLEGAL and FPSR; each written register has its
equation of `csrSet` or `csrApply`, each read one its line of `csrGet`. -/
theorem controlRegisters : Obligations.control_registers := by
  unfold Obligations.control_registers
  refine ⟨fun s d a n hu hr => ?_, fun s c num v hcs hv => ?_⟩
  · intro num old x forms quiet leavesAnd leaves
    have hform := exec_csr_forms s d a n hu
    have hquiet : quiet ↔ s.sfuBusy = false := by simp [quiet, State.sfuBusy, or_imp, forall_and]
    refine ⟨fun hn hp i hi => ?_, fun hp ha i hi => ?_, fun hn hq i hi => ?_, fun hp ha hq => ?_, fun i v hi ha => ?_, ?_, ?_, ?_, ?_, ?_⟩
    · obtain ⟨us, f, -, he⟩ := hform i hi
      rw [he, csrForm_priv hn hp]
    · obtain ⟨us, f, -, he⟩ := hform i hi
      rw [he, csrForm_unassigned hp ha]
    · obtain ⟨us, f, hus, he⟩ := hform i hi
      have hb : s.sfuBusy = true := by rw [hquiet] at hq; simpa using hq
      refine ⟨fun ho => ?_, fun ho => ?_⟩
      · rw [he, csrForm_waits hus hn hb ho]
      · exact he.trans (csrForm_overruns hus hn hb ho)
    · have hread {i : Instr} {us : List Use} {f : State → Nat → Option Nat} (he : exec i s = runThread (csrForm d n us f) s)
          (hus : s.usable (us ++ [.wg d])) (hf : f s (s.csrGet n.toNat) = none) : leaves i id := by
        refine csrForm_leaves (w := none) ?_ (csrAfter_read fun x hx => by cases hx) rfl
        rw [he, csrForm_completes hus hr hp ha (fun h => hquiet.mp (hq h)), hf]
      refine ⟨hread (us := []) rfl (usable_cons.mp hu).2 rfl, fun h0 => ⟨?_, ?_⟩⟩
      · exact hread (us := [.rg a false]) rfl hu (if_pos h0)
      · exact hread (us := [.rg a false]) rfl hu (if_pos h0)
    · have hw : s.csrWrites d a n i v := ⟨hi, ha⟩
      refine ⟨fun hn hq => ?_, fun hn => ?_, fun hn => ?_, fun hn => ?_, fun hn => ?_, fun hn => ?_, fun hn => ?_, fun hn => ?_, fun hp => ?_⟩
      · exact csrWrites_thread hu hr hw hn (by decide) rfl (fun _ => hquiet.mp hq) (fun u => csrSet_fpsr u v) rfl rfl
      · exact csrWrites_thread hu hr hw hn (by decide) rfl (by simp) (fun u => csrSet_evpend u v) rfl rfl
      · exact csrWrites_thread hu hr hw hn (by decide) rfl (by simp) (fun u => csrSet_vslip u v) rfl rfl
      · exact csrWrites_thread hu hr hw hn (by decide) rfl (by simp) (fun u => csrSet_lslip u v) rfl rfl
      · exact csrWrites_nothing hu hr hw (by omega) (csrAssigned_of_range (by omega)) (by omega) (csrSet_readOnly _ _ _ (.inl hn))
      · exact (csrWrites_thread hu hr hw hn (by decide) rfl (by simp) (fun u => csrSet_spbase u v) (by split <;> rfl) (by split <;> rfl) :)
      · exact (csrWrites_thread hu hr hw hn (by decide) rfl (by simp) (fun u => csrSet_spsize u v) (by split <;> rfl) (by split <;> rfl) :)
      · exact (csrWrites_thread hu hr hw hn (by decide) rfl (by simp) (fun u => csrSet_ovfp u v) (by split <;> rfl) (by split <;> rfl) :)
      · refine ⟨fun hn => ?_, fun hn hd => ?_, fun hring => ?_, fun hn => ?_⟩
        · exact csrWrites_nothing hu hr hw (.inr hp) (csrAssigned_of_range (by omega)) (by omega) (csrSet_readOnly _ _ _ (.inr (.inl hn)))
        · refine csrWrites_nothing hu hr hw (.inr hp) (csrAssigned_of_range (by omega)) (by omega) ?_
          rw [csrRead_unlogged s (by omega)]
          exact csrSet_readOnly _ _ _ (.inr (.inr ⟨hn.1, hn.2, hd⟩))
        · obtain ⟨h1, h2, h3, h4, h5, h6, h7⟩ := csrSet_context s v hring
          exact ⟨fun hn => csrWrites_context hu hr hw hn hp rfl (by decide) h1 fun _ => rfl,
            fun hn => csrWrites_context hu hr hw hn hp rfl (by decide) h2 fun _ => rfl,
            fun hn => csrWrites_context hu hr hw hn hp rfl (by decide) h3 fun _ => rfl,
            fun hn => csrWrites_context hu hr hw hn hp rfl (by decide) h4 fun _ => rfl,
            fun hn => csrWrites_context hu hr hw hn hp rfl (by decide) h5 fun _ => rfl,
            fun hn => csrWrites_context hu hr hw hn hp rfl (by decide) h6 fun _ => rfl,
            fun hn => csrWrites_context hu hr hw hn hp rfl (by decide) h7 fun _ => rfl⟩
        · exact csrWrites_core hu hr hw hp hn
    · intro k v hk hn
      refine (congrArg s.csrGet hn).trans ?_
      iterate 23 (rcases hk with _ | ⟨_, hk⟩; · rfl)
      cases hk
    · intro j hj
      exact ⟨fun hn => (congrArg s.csrGet hn).trans (csrGet_base s hj), fun hn => (congrArg s.csrGet hn).trans (csrGet_bound s hj),
        fun hn => (congrArg s.csrGet hn).trans (csrGet_rights s hj)⟩
    · intro j hj hn
      exact (congrArg s.csrGet hn).trans (csrGet_therm s hj)
    · intro j w hj hn hw
      refine (congrArg s.csrGet hn).trans ?_
      rw [csrGet_watch s hj, hw]; rfl
    · intro q hn hq
      exact (congrArg s.csrGet hn).trans (csrGet_imbring s hq)
  · obtain ⟨v, rfl⟩ : ∃ w : Word, w.toNat = v := ⟨BitVec.ofNat 64 v, Nat.mod_eq_of_lt hv⟩
    intro t w k
    have ht : t = ({ s with csrs := [] } : State).csrApply c num v.toNat := applyCsrs_one s hcs
    have hwm (m : Nat) : w m = v &&& BitVec.ofNat 64 m := by simp [w]
    obtain ⟨hmem, hcsrs⟩ := csrApply_keeps { s with csrs := [] } c num v.toNat
    have hcore (u : State) (f : Core → Core) : (u.modCore c f).coreAt c = f (u.coreAt c) := u.coreAt_modCore_self c.isLt f
    refine ⟨by rw [ht]; exact hcsrs, by rw [ht]; exact (sameMemory_of_cores rfl rfl).trans hmem, ?_, ?_, ?_, ?_, ?_⟩
    · rintro rfl
      rw [ht, csrApply_tvec, hcore]; rfl
    · intro j hj
      refine ⟨?_, ?_, ?_⟩
      · rintro rfl
        rw [ht, csrApply_base _ _ hj, hcore, Core.window_setWindow _ hj, hwm]; rfl
      · rintro rfl
        rw [ht, csrApply_bound _ _ hj, hcore, Core.window_setWindow _ hj, hwm]; rfl
      · rintro rfl
        rw [ht, csrApply_rights _ _ hj, hcore, Core.window_setWindow _ hj, hwm]; rfl
    · rintro rfl
      rw [ht, csrApply_dbgctl, hcore, hwm]; rfl
    · rintro j hj rfl
      rw [ht, csrApply_watch _ _ hj, hcore, hwm]
      simp [hj]
    · rintro p q rfl hp hq hlt
      rw [ht, csrApply_imbring { s with csrs := [] } hp, State.partAt_modPart_self _ hlt, hwm]
      show (s.partAt p).map _ = _
      rw [hq]; rfl
end

section
/-! The end of a booking and the core that an exception leaves (R205, R206, R359): the thread, its booking and its special-function
entries; the rest of the core is as it was, but for the ticks that the booking held. -/

namespace Sys2Proof.Machine

variable {s : State}

/-! ### Posting -/

theorem foldl_post {α : Type} (l : List α) (g : α → Instr) (s : State) :
    l.foldl (fun s x => s.post (s.cycle + 1) (g x)) s = { s with agenda := s.agenda ++ l.map fun x => (s.cycle + 1, g x) } := by
  induction l generalizing s with
  | nil => simp
  | cons x l ih =>
    rw [List.foldl_cons, ih]
    simp [State.post]

theorem postOnce_eq (s : State) (due : Nat) (i : Instr) : ∃ a, s.postOnce due i = { s with agenda := a } := by
  unfold State.postOnce
  split
  · exact ⟨_, rfl⟩
  · exact ⟨_, rfl⟩

/-- An event posted once is due. -/
theorem mem_postOnce (s : State) (due : Nat) (i : Instr) : (due, i) ∈ (s.postOnce due i).agenda := by
  unfold State.postOnce
  split
  · next h => simpa using h
  · simp

/-! ### The end of a booking -/

/-- A core whose thread's booking in a slot has ended. -/
def Core.endedBooking (k : Core) (tick t i : Nat) : Core :=
  let k := k.releaseTicks tick t i
  let k := k.setBooking i { k.booking i with st := .free }
  k.setThr t { k.thr t with slot := none, st := .run }

/-- The end of a booking changes its core, the link ticks and the events to come. -/
theorem endBooking_eq {c t i : Nat} (h : (s.thrAt c t).slot = some i) : ∃ l a,
    s.endBooking c t = { s.modCore c (·.endedBooking s.tick t i) with links := l, agenda := a } := by
  have hr : ∃ l a, s.releaseBooking c t = { s.modCore c (·.releaseTicks s.tick t i) with links := l, agenda := a } := by
    unfold State.releaseBooking
    simp only [h]
    rw [foldl_post]
    obtain ⟨a, ha⟩ := postOnce_eq
      { s.modCore c (·.releaseTicks s.tick t i) with
        links := releaseLinks c i s.tick s.links
        agenda := s.agenda ++ ((s.coreAt c).vault.accs.filter fun a => a.heldFor == some i && a.abandoned).map fun a => (s.cycle + 1, match a.op with
        | .tileLoad | .tileStore => Instr.tileBeat c a.id
        | _ => .vaultAccessBeat c a.id) } (s.cycle + 1) .compaction
    exact ⟨_, a, ha⟩
  obtain ⟨l, a, hr⟩ := hr
  refine ⟨l, a, ?_⟩
  unfold State.endBooking
  simp only [h, hr]
  have hm := (s.modCore c (·.releaseTicks s.tick t i)).modCore_modCore c (fun k => k.setBooking i { k.booking i with st := .free })
    fun k => k.setThr t { k.thr t with slot := none, st := .run }
  exact congrArg (fun u : State => { u with links := l, agenda := a }) (hm.trans (s.modCore_modCore c _ _))

/-! ### What the end of a booking leaves of its core -/

theorem Core.releaseTicks_keeps (k : Core) (tick t i : Nat) : (k.releaseTicks tick t i).threads = k.threads ∧
    (k.releaseTicks tick t i).sram = k.sram ∧ (k.releaseTicks tick t i).net = k.net ∧ (k.releaseTicks tick t i).sfu = k.sfu ∧
    (k.releaseTicks tick t i).ctx = k.ctx ∧ (k.releaseTicks tick t i).vault.mem = k.vault.mem ∧
    (k.releaseTicks tick t i).vault.poisoned = k.vault.poisoned := ⟨rfl, rfl, rfl, rfl, rfl, rfl, rfl⟩

theorem Core.booking_setBooking (k : Core) {i : Nat} (h : i < 16) (b : Booking) : (k.setBooking i b).booking i = b := by
  simp [Core.setBooking, Core.booking, h]

theorem Core.thr_setThr_self (k : Core) {t : Nat} (h : t < 4) (th : Thread) : (k.setThr t th).thr t = th := by
  rw [Core.thr_setThr]; simp [h]

theorem Core.endedBooking_thr (k : Core) (tick : Nat) {t : Nat} (h : t < 4) (i : Nat) :
    (k.endedBooking tick t i).thr t = { k.thr t with slot := none, st := .run } := by
  unfold Core.endedBooking
  rw [Core.thr_setThr_self _ h]
  rfl

theorem Core.endedBooking_booking (k : Core) (tick t : Nat) {i : Nat} (h : i < 16) : ((k.endedBooking tick t i).booking i).st = .free :=
  congrArg Booking.st ((k.releaseTicks tick t i).booking_setBooking h _)

/-! ### The core that an exception in user state leaves (R359) -/

/-- The core whose thread takes an exception in user state, before the record is on its way. -/
def Core.trapped (k : Core) (tick t : Nat) (e : ExcEffect) : Core :=
  let k := k.setThr t { (k.thr t).excEffect e with refLost := 0, since := none, stepDue := false }
  let k := match (k.thr t).slot with
    | none => k
    | some i => k.endedBooking tick t i
  let k := { k with sfu := k.sfu.withdraw t }
  k.setThr t { k.thr t with st := .run }

@[simp] theorem Thread.excEffect_slot (th : Thread) (e : ExcEffect) : (th.excEffect e).slot = th.slot := by cases e <;> rfl

/-- The thread is open, its refusals no longer counted as lost, and its waiting and its step have ended. -/
theorem Core.trapped_thr (k : Core) (tick : Nat) {t : Nat} (h : t < 4) (e : ExcEffect) : (k.trapped tick t e).thr t =
    { (k.thr t).excEffect e with st := .run, slot := none, refLost := 0, since := none, stepDue := false } := by
  have hw (k : Core) : ({ k with sfu := k.sfu.withdraw t } : Core).thr t = k.thr t := rfl
  unfold Core.trapped
  simp only [Core.thr_setThr_self _ h, Thread.excEffect_slot, hw]
  cases hs : (k.thr t).slot with
  | none => simp only [Core.thr_setThr_self _ h]
  | some i => simp only [Core.endedBooking_thr _ _ h, Core.thr_setThr_self _ h]

/-- The parts of the core that other agents see are as they were. -/
theorem Core.trapped_keeps (k : Core) (tick t : Nat) (e : ExcEffect) : (k.trapped tick t e).sram = k.sram ∧
    (k.trapped tick t e).vault.mem = k.vault.mem ∧ (k.trapped tick t e).vault.poisoned = k.vault.poisoned ∧
    (k.trapped tick t e).net = k.net ∧ (k.trapped tick t e).ctx = k.ctx ∧ (k.trapped tick t e).sfu = k.sfu.withdraw t := by
  unfold Core.trapped
  dsimp only
  split
  · exact ⟨rfl, rfl, rfl, rfl, rfl, rfl⟩
  · exact ⟨rfl, rfl, rfl, rfl, rfl, rfl⟩

/-- The booking that the thread had is free. -/
theorem Core.trapped_booking (k : Core) (tick : Nat) {t i : Nat} (ht : t < 4) (hs : (k.thr t).slot = some i) (hi : i < 16) (e : ExcEffect) :
    ((k.trapped tick t e).booking i).st = .free := by
  have hs' : ((k.thr t).excEffect e).slot = some i := by simp [hs]
  unfold Core.trapped
  simp only [Core.thr_setThr_self _ ht, hs']
  exact Core.endedBooking_booking _ tick t hi

end Sys2Proof.Machine
end

section
/-! The record of an exception (Tables 14.2 and 14.3): its fields, its way to the ring, and the state that its thread is left in (R359,
R362 to R365). -/

namespace Sys2Proof.Machine

variable {s t : State}

/-! ### The fields of a record -/

/-- Fields of given widths packed into one number, the first lowest. -/
def packFields : List (Nat × Nat) → Nat
  | [] => 0
  | (x, n) :: r => x + packFields r * 2 ^ n

/-- The bit where a field starts. -/
def fieldStart (l : List (Nat × Nat)) (i : Nat) : Nat := ((l.take i).map (·.2)).sum

/-- A field read back from the packed number. -/
theorem bitsOf_packFields : ∀ (l : List (Nat × Nat)) (i x n : Nat), (∀ p ∈ l, p.1 < 2 ^ p.2) → l[i]? = some (x, n) → 0 < n →
    bitsOf (packFields l) (fieldStart l i + n - 1) (fieldStart l i) = x
  | [], i, _, _, _, hi, _ => by simp at hi
  | (y, m) :: r, 0, x, n, hl, hi, hn => by
    obtain ⟨rfl, rfl⟩ : y = x ∧ m = n := by simpa using hi
    have hy : y < 2 ^ m := hl _ List.mem_cons_self
    have hm : 0 + m - 1 + 1 - 0 = m := by omega
    show (y + packFields r * 2 ^ m) / 2 ^ 0 % 2 ^ (0 + m - 1 + 1 - 0) = y
    rw [hm, Nat.pow_zero, Nat.div_one, Nat.add_mul_mod_self_right, Nat.mod_eq_of_lt hy]
  | (y, m) :: r, i + 1, x, n, hl, hi, hn => by
    have ih := bitsOf_packFields r i x n (fun p hp => hl p (List.mem_cons_of_mem _ hp)) (by simpa using hi) hn
    have hy : y < 2 ^ m := hl _ List.mem_cons_self
    have hs : fieldStart ((y, m) :: r) (i + 1) = m + fieldStart r i := by simp [fieldStart]
    unfold bitsOf at ih ⊢
    rw [hs, packFields, Nat.pow_add, ← Nat.div_div_eq_div_mul, Nat.add_mul_div_right _ _ (Nat.two_pow_pos m), Nat.div_eq_of_lt hy, Nat.zero_add,
      show m + fieldStart r i + n - 1 + 1 - (m + fieldStart r i) = fieldStart r i + n - 1 + 1 - fieldStart r i by omega]
    exact ih

/-- The fields of Table 14.3 with their widths. -/
def TrapRec.fields (r : TrapRec) (seq : Nat) : List (Nat × Nat) :=
  [(r.cause % 2 ^ 16, 16), (r.flags % 2 ^ 8, 8), (r.source % 2 ^ 8, 8), (r.core % 16, 8), (r.core / 16 % 16, 8), (r.ctx % 2 ^ 16, 16),
    (r.pc % 2 ^ 14, 64), (r.addr % 2 ^ 64, 64), (r.insn % 2 ^ 32, 32), (r.ss % 2 ^ 32, 32), (r.cycle % 2 ^ 64, 64), (r.det0 % 2 ^ 64, 64),
    (r.det1 % 2 ^ 64, 64), (r.bookid % 2 ^ 32, 32), (seq % 2 ^ 32, 32)]

theorem TrapRec.word_eq (r : TrapRec) (seq : Nat) : r.word seq = packFields (r.fields seq) := by
  simp only [TrapRec.word, TrapRec.fields, packFields, Nat.add_mul, Nat.zero_mul, Nat.add_zero, Nat.mul_assoc, ← Nat.pow_add, Nat.reduceAdd,
    Nat.add_assoc]

/-- The widths of the fields of a record. -/
def recordWidths : List Nat := [16, 8, 8, 8, 8, 16, 64, 64, 32, 32, 64, 64, 64, 32, 32]

/-- A field of a record's word. -/
theorem TrapRec.bitsOf_word (r : TrapRec) (seq i : Nat) {x n hi lo : Nat} (hi' : (r.fields seq)[i]? = some (x, n))
    (hw : (recordWidths.take i).sum = lo ∧ lo + n = hi + 1 ∧ lo ≤ hi) : bitsOf (r.word seq) hi lo = x := by
  obtain ⟨hs, hn, hpos⟩ := hw
  have hlo : fieldStart (r.fields seq) i = lo := by rw [← hs, fieldStart, List.map_take]; rfl
  have h := bitsOf_packFields (r.fields seq) i x n ?_ hi' (by omega)
  · rwa [hlo, hn, Nat.add_sub_cancel, ← r.word_eq] at h
  · simp only [TrapRec.fields, List.forall_mem_cons, List.not_mem_nil, false_implies, implies_true, and_true]
    omega

theorem TrapRec.word_fields (r : TrapRec) (seq : Nat) :
    bitsOf (r.word seq) 15 0 = r.cause % 2 ^ 16 ∧ bitsOf (r.word seq) 23 16 = r.flags % 2 ^ 8 ∧
    bitsOf (r.word seq) 31 24 = r.source % 2 ^ 8 ∧ bitsOf (r.word seq) 39 32 = r.core % 16 ∧
    bitsOf (r.word seq) 47 40 = r.core / 16 % 16 ∧ bitsOf (r.word seq) 63 48 = r.ctx % 2 ^ 16 ∧
    bitsOf (r.word seq) 127 64 = r.pc % 2 ^ 14 ∧ bitsOf (r.word seq) 191 128 = r.addr % 2 ^ 64 ∧
    bitsOf (r.word seq) 223 192 = r.insn % 2 ^ 32 ∧ bitsOf (r.word seq) 255 224 = r.ss % 2 ^ 32 ∧
    bitsOf (r.word seq) 319 256 = r.cycle % 2 ^ 64 ∧ bitsOf (r.word seq) 383 320 = r.det0 % 2 ^ 64 ∧
    bitsOf (r.word seq) 447 384 = r.det1 % 2 ^ 64 ∧ bitsOf (r.word seq) 479 448 = r.bookid % 2 ^ 32 ∧
    bitsOf (r.word seq) 511 480 = seq % 2 ^ 32 := by
  have h (i : Nat) {x n hi lo : Nat} := r.bitsOf_word seq i (x := x) (n := n) (hi := hi) (lo := lo)
  exact ⟨h 0 rfl (by decide), h 1 rfl (by decide), h 2 rfl (by decide), h 3 rfl (by decide), h 4 rfl (by decide), h 5 rfl (by decide),
    h 6 rfl (by decide), h 7 rfl (by decide), h 8 rfl (by decide), h 9 rfl (by decide), h 10 rfl (by decide), h 11 rfl (by decide),
    h 12 rfl (by decide), h 13 rfl (by decide), h 14 rfl (by decide)⟩

/-! ### A translation, a request, a posted record -/

/-- A translation reads the contexts, the off-stack memory and the poisoned frames alone. -/
theorem translate_congr (hx : t.ctxs = s.ctxs) (ho : t.offstack = s.offstack) (hp : t.offPoisoned = s.offPoisoned)
    (hv : ∀ v, (t.coreAt v).vault.poisoned = (s.coreAt v).vault.poisoned) : t.translate = s.translate := by
  have hl : t.leaf = s.leaf := by funext ctx va; unfold State.leaf State.ctxOf; rw [ho, hx]
  funext c ctx va rd wr
  simp only [State.translate, hl, hp, hv]

/-- The request of a core to an off-stack controller: counted, and put at the core's router. -/
theorem sendReq_off (s : State) {r : Req} {n : Nat} (h : r.target = .off n) (hr : (s.coreAt r.core).net.replay = none) :
    s.sendReq r = { s.modCore r.core (fun k => { k with net := { k.net with sent := k.net.sent + 1 } }) with
      mesh := s.mesh ++ [⟨⟨.openOp, r.core, r.thr, .off n, .request r⟩, r.core, 4, s.cycle + 1, false, false, none⟩] } := by
  have hr' : ((s.modCore r.core fun k => { k with net := { k.net with sent := k.net.sent + 1 } }).coreAt r.core).net.replay = none := by
    unfold State.modCore
    rw [State.coreAt_setCore]
    split
    · exact hr
    · exact hr
  unfold State.sendReq
  simp only [h, State.send, BEq.rfl, ↓reduceIte, hr', Option.isSome_none, Bool.false_eq_true,
    show (FlitEnd.off n == FlitEnd.core r.core) = false from rfl]
  rfl

/-- A stamped record differs in its flags alone: lost-before after a drop (R365). -/
theorem Ctx.stamp_eq (x : Ctx) (r : TrapRec) :
    x.stamp r = { r with flags := r.flags + if x.lostBefore && r.flags / 4 % 2 = 0 then 4 else 0 } := by
  unfold Ctx.stamp
  split <;> rfl

section Ring

variable {c n : Nat} {r : TrapRec} {a : HandlerArgs}

/-- A full ring: the record waits for a place (R365). -/
theorem trapToRing_full (hr : (s.coreAt c).net.replay = none) (hf : (s.ctxOf r.ctx).ringFull = true) : s.trapToRing c n r a =
    (s.modThr c n fun th => { th with block := .ring r a s.cycle }).postOnce (s.cycle + 8500) .ringStallRelief := by
  simp [State.trapToRing, hr, hf]

variable (hr : (s.coreAt c).net.replay = none) (hc : r.core = c) (hf : (s.ctxOf r.ctx).ringFull = false)
include hr hc hf

/-- A slot that does not translate: the record is dropped, and the handler entered in the next cycle (R364). -/
theorem trapToRing_dropped (hs : s.slotPa c r.ctx ((s.ctxOf r.ctx).slotVa ((s.ctxOf r.ctx).trprod.toNat % 2 ^ 32)) = none) :
    s.trapToRing c n r a = ((s.modCtx r.ctx Ctx.drop).modThr c n fun th => { th with block := .record { a with
      record := (s.ctxOf r.ctx).slotVa ((s.ctxOf r.ctx).trprod.toNat % 2 ^ 32) } }).post (s.cycle + 1) (.handlerEntry c n) := by
  subst hc
  simp only [State.trapToRing, State.allocRecord, hr, hf, hs, Bool.false_and, Bool.false_eq_true, ↓reduceIte, Option.isSome_none]
  rfl

/-- A slot in off-stack memory: the record takes the next sequence number, and its store is sent (R364). -/
theorem trapToRing_stored {pa : Nat}
    (hs : s.slotPa c r.ctx ((s.ctxOf r.ctx).slotVa ((s.ctxOf r.ctx).trprod.toNat % 2 ^ 32)) = some pa) :
    let x := s.ctxOf r.ctx
    let seq := x.trprod.toNat % 2 ^ 32
    s.trapToRing c n r a = ((s.modCtx r.ctx fun x => { x with trprod := BitVec.ofNat 64 ((seq + 1) % 2 ^ 32), lostBefore := false }).sendReq
      ⟨.record c n, r.ctx, c, if r.source < 4 then r.source else 4, .off (ctrlOf pa), .put, pa, 64, (x.stamp r).word seq, 0⟩).modThr c n
        fun th => { th with block := .record { a with
          record := x.slotVa seq, cause := if x.lostBefore && r.flags / 4 % 2 = 0 then a.cause + 2 ^ 18 else a.cause } } := by
  subst hc
  intro x seq
  have hflags : ((x.stamp r).flags != r.flags) = (x.lostBefore && decide (r.flags / 4 % 2 = 0)) := by
    rw [x.stamp_eq]
    cases (x.lostBefore && decide (r.flags / 4 % 2 = 0)) <;> simp
  simp only [State.trapToRing, State.allocRecord, hr, hf, hs, Bool.false_and, Bool.false_eq_true, ↓reduceIte, Option.isSome_none,
    Option.isSome_some, Option.isNone_none, Bool.true_and, hflags, x]
  simp only [Ctx.stamp_eq]
  rfl

end Ring

/-! ### An exception in user state (R359) -/

/-- What the handler registers will hold, but for the record's VA (Table 14.2). -/
def State.excArgs (s : State) (e : Exc) : HandlerArgs :=
  ⟨s.th.pc.toNat + (if s.th.wskip = some s.th.pc then 2 ^ 14 else 0), 0, (s.excRecord e).cause + (s.excRecord e).flags % 256 * 2 ^ 16,
    (s.me.taskCycle s.th s.cycle).1, (s.me.taskCycle s.th s.cycle).2⟩

/-- A device whose running core is now `k`, other link ticks and events to come apart the same as before. -/
structure State.CoreNow (s u : State) (k : Core) : Prop where
  cur : u.cur = s.cur
  cycle : u.cycle = s.cycle
  ctxs : u.ctxs = s.ctxs
  mesh : u.mesh = s.mesh
  offstack : u.offstack = s.offstack
  offPoisoned : u.offPoisoned = s.offPoisoned
  me : u.coreAt s.cc = k
  others : ∀ c, c ≠ s.cc → u.coreAt c = s.coreAt c

section CoreNow

variable {u : State} {k : Core}

theorem State.CoreNow.cc (h : s.CoreNow u k) : u.cc = s.cc := by unfold State.cc; rw [h.cur]

theorem State.CoreNow.ct (h : s.CoreNow u k) : u.ct = s.ct := by unfold State.ct; rw [h.cur]

/-- The device as it is. -/
theorem State.CoreNow.refl (s : State) : s.CoreNow s s.me := ⟨rfl, rfl, rfl, rfl, rfl, rfl, rfl, fun _ _ => rfl⟩

theorem State.CoreNow.modMe (h : s.CoreNow u k) (f : Core → Core) : s.CoreNow (u.modMe f) (f k) where
  cur := h.cur
  cycle := h.cycle
  ctxs := h.ctxs
  mesh := h.mesh
  offstack := h.offstack
  offPoisoned := h.offPoisoned
  me := by
    unfold State.modMe
    rw [h.cc, State.coreAt_modCore_self _ s.cc_lt, h.me]
  others c hc := by
    unfold State.modMe
    rw [h.cc, State.coreAt_modCore_ne _ hc, h.others c hc]

theorem State.CoreNow.modTh (h : s.CoreNow u k) (f : Thread → Thread) : s.CoreNow (u.modTh f) (k.setThr s.ct (f (k.thr s.ct))) := by
  rw [State.modTh_eq_modMe, h.ct]
  exact h.modMe fun k => k.setThr s.ct (f (k.thr s.ct))

theorem State.CoreNow.endBooking (h : s.CoreNow u k) : s.CoreNow (u.endBooking u.cc u.ct) (match (k.thr s.ct).slot with
    | none => k
    | some i => k.endedBooking s.tick s.ct i) := by
  have hth : u.thrAt u.cc u.ct = k.thr s.ct := by rw [h.cc, h.ct]; unfold State.thrAt; rw [h.me]
  cases hs : (k.thr s.ct).slot with
  | none =>
    have he : u.endBooking u.cc u.ct = u := by simp [State.endBooking, hth, hs]
    rw [he]
    exact h
  | some i =>
    obtain ⟨l, a, he⟩ := endBooking_eq (hth ▸ hs : (u.thrAt u.cc u.ct).slot = some i)
    have htick : u.tick = s.tick := by unfold State.tick; rw [h.cycle]
    rw [he, htick, h.ct]
    have hm := h.modMe (·.endedBooking s.tick s.ct i)
    exact ⟨hm.cur, hm.cycle, hm.ctxs, hm.mesh, hm.offstack, hm.offPoisoned, hm.me, hm.others⟩

end CoreNow

/-- An exception in user state ends the booking, withdraws the special-function entries, and sends its record to the ring. -/
theorem takeTrap_user {e : Exc} (hp : s.th.priv = false) (hc : e.cause ≠ 0x1F) : ∃ u, s.CoreNow u (s.me.trapped s.tick s.ct e.effect) ∧
    takeTrap e s = u.trapToRing s.cc s.ct (s.excRecord e) (s.excArgs e) := by
  have h1 := (State.CoreNow.refl s).modTh fun th => { th.excEffect e.effect with refLost := 0, since := none, stepDue := false }
  have h2 := h1.endBooking
  have h3 := h2.modMe fun k => { k with sfu := k.sfu.withdraw s.ct }
  have h4 := h3.modTh fun th => { th with st := .run }
  refine ⟨_, h4, ?_⟩
  have hu : (s.th.priv || decide (e.cause = causeFatalUe)) = false := by simp [hp, causeFatalUe, hc]
  unfold takeTrap
  simp only [hu, Bool.false_eq_true, ↓reduceIte, h2.ct, h3.cc, h3.ct]
  rfl

/-- The flags of the record of an exception in user state, lost-before of the ring apart (Table 14.3). -/
def State.excFlags (s : State) (e : Exc) : Nat :=
  (if e.replay = true ∨ e.cause = 4 then 1 else 0) + (if 0 < s.th.refLost then 4 else 0) + (if e.after then 8 else 0)

theorem excRecord_flags {e : Exc} (hp : s.th.priv = false) (hc : e.cause ≠ 0x1F) : (s.excRecord e).flags = s.excFlags e := by
  have h2 : (s.th.priv || decide (e.cause = causeFatalUe)) = false := by simp [hp, causeFatalUe, hc]
  have h1 : (e.replay || decide (e.cause = causePage)) = true ↔ e.replay = true ∨ e.cause = 4 := by
    rw [Bool.or_eq_true, decide_eq_true_eq]; rfl
  simp only [State.excRecord, State.excFlags, h2, h1, Bool.false_eq_true, ↓reduceIte, Nat.add_zero]

theorem State.excFlags_lt (s : State) (e : Exc) : s.excFlags e < 16 := by
  unfold State.excFlags
  grind

theorem State.excFlags_lost (s : State) (e : Exc) : s.excFlags e / 4 % 2 = 0 ↔ s.th.refLost = 0 := by
  unfold State.excFlags
  grind

/-- The thread waits with `b`, open and out of its booking, which is free; its special-function entries that had not started are
withdrawn, and memory is as before. -/
def State.trapLeft (s t : State) (e : ExcEffect) (b : Block) : Prop :=
  t.th = { s.th.excEffect e with st := .run, slot := none, refLost := 0, since := none, stepDue := false, block := b } ∧ sameMemory s t ∧
    (∀ i, s.th.slot = some i → (t.me.booking i).st = .free) ∧ (∀ o ∈ t.me.sfu.ops, o.thr = s.ct → o.started.isSome) ∧
    ∀ o ∈ s.me.sfu.ops, o.thr = s.ct → o.started = none → o ∈ t.me.sfu.removed

/-- The trapped core, its network interface perhaps changed, with the thread blocked. -/
theorem trapLeft_of {e : ExcEffect} {b : Block} {u : State} {x : NetIf} (hslot : ∀ i, s.th.slot = some i → i < 16) (hcur : t.cur = s.cur)
    (hoff : t.offstack = s.offstack) (hothers : ∀ c, c ≠ s.cc → u.coreAt c = s.coreAt c)
    (hme : u.coreAt s.cc = { s.me.trapped s.tick s.ct e with net := x })
    (ht : ∀ c, t.coreAt c = (u.modThr s.cc s.ct fun th => { th with block := b }).coreAt c) : s.trapLeft t e b := by
  replace hothers (c : Nat) (hc : c ≠ s.cc) : t.coreAt c = s.coreAt c := (ht c).trans ((u.coreAt_modCore_ne hc _).trans (hothers c hc))
  replace hme : t.coreAt s.cc = ({ s.me.trapped s.tick s.ct e with net := x } : Core).setThr s.ct
      { (s.me.trapped s.tick s.ct e).thr s.ct with block := b } := (ht _).trans ((u.coreAt_modCore_self s.cc_lt _).trans (by rw [hme]; rfl))
  obtain ⟨hsram, hvault, -, -, -, hsfu⟩ := s.me.trapped_keeps s.tick s.ct e
  have htme : t.me = _ := (show t.me = t.coreAt s.cc by unfold State.me State.cc; rw [hcur]).trans hme
  have htsfu : t.me.sfu = s.me.sfu.withdraw s.ct := by rw [htme]; exact hsfu
  refine ⟨?_, ⟨fun a => by rw [hoff], fun c a => ?_⟩, fun i hi => ?_, fun o ho hthr => ?_, fun o ho hthr hst => ?_⟩
  · have : t.th = t.me.thr s.ct := by unfold State.th State.thrAt State.ct State.me; rw [hcur]
    rw [this, htme, Core.thr_setThr_self _ s.ct_lt, Core.trapped_thr _ _ s.ct_lt]
    rfl
  · by_cases hc : c = s.cc
    · rw [hc, hme]
      exact ⟨congrArg (memGet · a) hsram, congrArg (memGet · a) hvault⟩
    · rw [hothers c hc]
      exact ⟨rfl, rfl⟩
  · rw [htme]
    exact s.me.trapped_booking s.tick s.ct_lt hi (hslot i hi) e
  · rw [htsfu] at ho
    simpa [Sfu.withdraw, hthr] using (List.mem_filter.mp ho).2
  · rw [htsfu]
    simp [Sfu.withdraw, ho, hthr, hst]

/-! ### The three ways of a record (R364, R365) -/

section Ways

variable {e : Exc} (hp : s.th.priv = false) (hc : e.cause ≠ 0x1F) (hslot : ∀ i, s.th.slot = some i → i < 16)
  (hr : s.me.net.replay = none)

/-- The trapped device, as the ring sees it. -/
theorem State.CoreNow.ring {u : State} (hu : s.CoreNow u (s.me.trapped s.tick s.ct e.effect)) (hr : s.me.net.replay = none) :
    (u.coreAt s.cc).net.replay = none ∧ u.ctxOf = s.ctxOf ∧ u.slotPa = s.slotPa := by
  obtain ⟨-, -, hpoisoned, hnet, -, -⟩ := s.me.trapped_keeps s.tick s.ct e.effect
  have ht : u.translate = s.translate := by
    refine translate_congr hu.ctxs hu.offstack hu.offPoisoned fun v => ?_
    by_cases hv : v = s.cc
    · rw [hv, hu.me]; exact hpoisoned
    · rw [hu.others v hv]
  refine ⟨by rw [hu.me, hnet]; exact hr, ?_, ?_⟩
  · funext id; unfold State.ctxOf; rw [hu.ctxs]
  · funext c ctx va; unfold State.slotPa; rw [ht]

include hp hc hslot hr

/-- Where the ring is full the thread waits for a place. -/
theorem exception_ringFull (hf : (s.ctxOf s.me.ctx).ringFull = true) :
    s.trapLeft (takeTrap e s) e.effect (.ring (s.excRecord e) (s.excArgs e) s.cycle) ∧
      (s.cycle + 8500, .ringStallRelief) ∈ (takeTrap e s).agenda := by
  obtain ⟨u, hu, ht⟩ := takeTrap_user hp hc
  obtain ⟨hur, hux, -⟩ := hu.ring hr
  rw [ht, trapToRing_full hur (by rw [hux]; exact hf), hu.cycle]
  exact ⟨trapLeft_of (u := u) (x := (s.me.trapped s.tick s.ct e.effect).net) hslot ((State.postOnce_cur ..).trans hu.cur)
    ((State.postOnce_offstack ..).trans hu.offstack) hu.others hu.me (State.coreAt_postOnce _ _ _), mem_postOnce _ _ _⟩

/-- Where the slot does not translate the record is dropped. -/
theorem exception_dropped (hf : (s.ctxOf s.me.ctx).ringFull = false)
    (hs : s.slotPa s.cc s.me.ctx ((s.ctxOf s.me.ctx).slotVa ((s.ctxOf s.me.ctx).trprod.toNat % 2 ^ 32)) = none) :
    let t := takeTrap e s
    s.trapLeft t e.effect (.record { s.excArgs e with
      record := (s.ctxOf s.me.ctx).slotVa ((s.ctxOf s.me.ctx).trprod.toNat % 2 ^ 32) }) ∧
      t.mesh = s.mesh ∧ t.ctxOf s.me.ctx = (s.ctxOf s.me.ctx).drop ∧ (s.cycle + 1, .handlerEntry s.cc s.ct) ∈ t.agenda := by
  intro t
  obtain ⟨u, hu, ht⟩ := takeTrap_user hp hc
  obtain ⟨hur, hux, hus⟩ := hu.ring hr
  have hctx : u.ctxOf (s.excRecord e).ctx = s.ctxOf s.me.ctx := by rw [hux]; rfl
  have ht' := ht.trans (trapToRing_dropped hur rfl (by rw [hctx]; exact hf) (by rw [hctx, hus]; exact hs))
  rw [hctx, hu.cycle] at ht'
  refine ⟨?_, ?_, ?_, ?_⟩ <;> rw [show t = _ from ht']
  · exact trapLeft_of (u := u) (x := (s.me.trapped s.tick s.ct e.effect).net) hslot hu.cur hu.offstack hu.others hu.me fun _ => rfl
  · exact hu.mesh
  · exact (u.ctxOf_modCtx s.me.ctx s.me.ctx (u.ctxOf_id _)).trans ((if_pos rfl).trans (congrArg Ctx.drop hctx))
  · simp [State.post]

/-- Where the slot is in off-stack memory the record takes its sequence number, and its store is sent. -/
theorem exception_stored (hf : (s.ctxOf s.me.ctx).ringFull = false) {pa : Nat}
    (hs : s.slotPa s.cc s.me.ctx ((s.ctxOf s.me.ctx).slotVa ((s.ctxOf s.me.ctx).trprod.toNat % 2 ^ 32)) = some pa) :
    let t := takeTrap e s
    let x := s.ctxOf s.me.ctx
    let seq := x.trprod.toNat % 2 ^ 32
    let src := if e.source.getD s.ct < 4 then e.source.getD s.ct else 4
    s.trapLeft t e.effect (.record { s.excArgs e with
      record := x.slotVa seq
      cause := if x.lostBefore && decide ((s.excRecord e).flags / 4 % 2 = 0) then (s.excArgs e).cause + 2 ^ 18 else (s.excArgs e).cause }) ∧
    t.ctxOf s.me.ctx = { x with trprod := BitVec.ofNat 64 ((seq + 1) % 2 ^ 32), lostBefore := false } ∧
    t.mesh = s.mesh ++ [⟨⟨.openOp, s.cc, src, .off (ctrlOf pa), .request ⟨.record s.cc s.ct, s.me.ctx, s.cc, src, .off (ctrlOf pa), .put, pa,
      64, (x.stamp (s.excRecord e)).word seq, 0⟩⟩, s.cc, 4, s.cycle + 1, false, false, none⟩] := by
  intro t x seq src
  obtain ⟨u, hu, ht⟩ := takeTrap_user hp hc
  obtain ⟨hur, hux, hus⟩ := hu.ring hr
  have hctx : u.ctxOf (s.excRecord e).ctx = x := by rw [hux]; rfl
  have ht' := ht.trans (trapToRing_stored hur rfl (by rw [hctx]; exact hf) (by rw [hctx, hus]; exact hs))
  rw [sendReq_off _ rfl hur, hctx] at ht'
  refine ⟨?_, ?_, ?_⟩ <;> rw [show t = _ from ht']
  · exact trapLeft_of (u := u.modCore s.cc fun k => { k with net := { k.net with sent := k.net.sent + 1 } })
      (x := { (s.me.trapped s.tick s.ct e.effect).net with sent := (s.me.trapped s.tick s.ct e.effect).net.sent + 1 }) hslot hu.cur hu.offstack
      (fun c hc => (u.coreAt_modCore_ne hc _).trans (hu.others c hc)) ((u.coreAt_modCore_self s.cc_lt _).trans (by rw [hu.me])) fun _ => rfl
  · have hset := u.ctxOf_modCtx s.me.ctx s.me.ctx (f := fun y => { y with trprod := BitVec.ofNat 64 ((seq + 1) % 2 ^ 32), lostBefore := false })
      (u.ctxOf_id _)
    rw [if_pos rfl, show u.ctxOf s.me.ctx = x from hctx] at hset
    exact hset
  · show u.mesh ++ _ = _
    rw [hu.mesh]
    show s.mesh ++ [⟨_, _, _, u.cycle + 1, _, _, _⟩] = _
    rw [hu.cycle]
    rfl

end Ways

/-- What the handler registers will hold, with the flags of an exception in user state. -/
theorem excArgs_user {e : Exc} (hp : s.th.priv = false) (hc : e.cause ≠ 0x1F) : s.excArgs e =
    ⟨s.th.pc.toNat + (if s.th.wskip = some s.th.pc then 2 ^ 14 else 0), 0, e.cause + s.excFlags e * 2 ^ 16,
      (s.me.taskCycle s.th s.cycle).1, (s.me.taskCycle s.th s.cycle).2⟩ := by
  have hlt := s.excFlags_lt e
  unfold State.excArgs
  rw [excRecord_flags hp hc, Nat.mod_eq_of_lt (by omega)]
  rfl

/-- The slot of a record is the off-stack address that its VA translates to (R364). -/
theorem slotPa_eq_some {c ctx va pa : Nat} : s.slotPa c ctx va = some pa ↔ s.translate c ctx va true true = .offstack pa := by
  unfold State.slotPa
  split <;> simp_all

/-! ### The handler (R359, Table 14.2) -/

theorem exec_handlerEntry {c n : Nat} {h : HandlerArgs} (hb : (s.thrAt c n).block = .record h) (hp : (s.thrAt c n).priv = false) :
    exec (.handlerEntry c n) s = .next (s.enterHandler c n h) := by
  show execHandlerEntry c n s = _
  unfold execHandlerEntry
  rw [hb]
  simp only [hp, Bool.false_eq_true, ↓reduceIte]

end Sys2Proof.Machine
end

section
open Sys2Proof Sys2Proof.Machine

/-- Settles O48: the trapped core's record goes one of three ways, and the handler's entry is one change of the thread. -/
theorem exceptionEntry : Obligations.exception_entry := by
  unfold Obligations.exception_entry
  refine ⟨fun s e hp hc hcause hslot => ?_, fun s c n h hlt hb hp => ?_⟩
  · intro x seq src flags lost skip kappa list t leftAs hr
    have hflags : (s.excRecord e).flags = flags := excRecord_flags hp hc
    have hlt : flags < 16 := s.excFlags_lt e
    have hkap : s.me.taskCycle s.th s.cycle = (kappa, list) := by
      simp only [kappa, list, Core.taskCycle]
      cases s.th.slot <;> rfl
    have hargs : s.excArgs e = ⟨s.th.pc.toNat + skip, 0, e.cause + flags * 2 ^ 16, kappa, list⟩ := by
      rw [excArgs_user hp hc, hkap]; rfl
    refine ⟨fun hf => ?_, fun hf => ⟨fun hs => ?_, fun pa hs => ?_⟩⟩
    · have hfull := exception_ringFull hp hc hslot hr hf
      rw [hargs] at hfull
      exact hfull
    · have hnone : s.slotPa s.cc s.me.ctx (x.slotVa seq) = none := by
        rw [Option.eq_none_iff_forall_ne_some]
        exact fun pa h => hs pa (slotPa_eq_some.mp h)
      have hdrop := exception_dropped hp hc hslot hr hf hnone
      rw [hargs] at hdrop
      exact hdrop
    · obtain ⟨hleft, hctx, hmesh⟩ := exception_stored hp hc hslot hr hf (slotPa_eq_some.mpr hs)
      have hlost : (if x.lostBefore && decide ((s.excRecord e).flags / 4 % 2 = 0) then 4 else 0) = lost := by
        simp only [hflags, lost, Bool.and_eq_true, decide_eq_true_eq, show flags / 4 % 2 = 0 ↔ _ from s.excFlags_lost e]
      have hcause' : (if x.lostBefore && decide ((s.excRecord e).flags / 4 % 2 = 0) then (s.excArgs e).cause + 2 ^ 18 else (s.excArgs e).cause) =
          e.cause + (flags + lost) * 2 ^ 16 := by
        rw [hargs, ← hlost]
        cases x.lostBefore && decide ((s.excRecord e).flags / 4 % 2 = 0)
        · rfl
        · simp only [↓reduceIte]
          omega
      rw [hcause', hargs] at hleft
      have hlost4 : lost ≤ 4 := by simp only [lost]; split <;> omega
      have hstamp : x.stamp (s.excRecord e) = { s.excRecord e with flags := flags + lost } := by rw [x.stamp_eq, hlost, hflags]
      rw [hstamp] at hmesh
      have hfields := ({ s.excRecord e with flags := flags + lost } : TrapRec).word_fields seq
      obtain ⟨f0, f1, f2, f3, f4, f5, f6, f7, f8, f9, f10, f11, f12, f13, f14⟩ := hfields
      have hcc := s.cc_lt
      exact ⟨hleft, hctx, _, _, hmesh, rfl, rfl, f0.trans (Nat.mod_eq_of_lt hcause), f1.trans (Nat.mod_eq_of_lt (by show flags + lost < _; omega)),
        f2, f3, f4.trans (Nat.mod_eq_of_lt (by show s.cc / 16 < 16; omega)), f5, f6, f7, f8.trans (Nat.mod_eq_of_lt (BitVec.isLt _)), f9, f10,
        f11, f12, f13, f14.trans (Nat.mod_mod _ _)⟩
  · refine ⟨_, exec_handlerEntry hb hp, sameMemory_modThr s c n _, ?_⟩
    intro y
    have hy : y = _ := s.thrAt_modThr_self hlt n.isLt _
    rw [hy]
    refine ⟨rfl, by simp [bitsOf], rfl, rfl, rfl, rfl, rfl, rfl, rfl, rfl, ?_, ?_, ?_, ?_, ?_, ?_, ?_, ?_⟩ <;>
      simp [State.thrAt]
end

section
/-! Totality: every instruction and event answers a next state, and so does a powered step (R14, R387). -/
namespace Sys2Proof.Machine

/-- The 85 events build their next state outright; an instruction of a thread answers one through `runThread`, whether it
completes, waits or traps (R14). -/
theorem exec_answers (i : Instr) (s : State) : ∃ t, exec i s = .next t := by
  cases i
  case handlerEntry | haltTreeStop | activeMessageLaunch | linkHoldRequest | vaultAccessBeat | vaultBeatAbandon | tileBeat
      | layerPowerChange | offstackRequest | replyArrival | refusalArrival | agentRequestArrival | channelResume | copyComplete
      | stealRequest | giftArrival | giftAck | barrierArrival | signalArrival | confluenceArrival | confluenceForward
      | confluenceReplySplit | flitCrcRetry | laneDegrade | linkReroute | retrain | syscService | thermalSample | contextSave
      | contextRestore | bar2LaunchRecord | bar4Access | crconsWrite | fwlenWrite | hostRegisterWrite | stealRefusal
      | retrainComplete | ringStallRelief | launchQueueStart | bookingStart | bookingLapse | compaction | linkCommit
      | normalRefresh | extraRefresh | refreshModeSample | rowRepairCopyStart | rowRepairRemap | laneRepairPost
      | laneRepairComplete | agentAction | sfuQueueStart | sfuResultWrite | meCommandStart | meCommandComplete | tencJobStart
      | tencJobComplete | streamEngineOperation | epochEnd | migrationMoveStart | migrationMoveComplete | tokenForward
      | barrierRelease | waitTimerExpire | sampleTick | throttleLevelApply | create | destroy | place | window | loadcode
      | preempt | stop | resume | checkpoint | replay | attest | debugread | policy | journal | clearpoison | firmwareStart
      | powerUp | helmTakeover | msixVector1Signal => all_goals exact ⟨_, rfl⟩
  case fencei =>
    change ∃ t, execFencei s = .next t
    exact runThread_next _ s
  all_goals exact runThread_next _ s

/-- A step of a device with power answers a next state: an event, an instruction, the trap in its place, or a cycle that passes. -/
theorem step_powered {s : State} (h : s.powered = true) : ∃ t, step s = .next t := by
  unfold step
  simp only [h, Bool.not_true, Bool.false_eq_true, ↓reduceIte]
  cases s.whatNext with
  | event i u => exact exec_answers i u
  | pass => exact ⟨_, rfl⟩
  | thread c t =>
    dsimp only
    split
    · exact ⟨_, rfl⟩
    · split
      · exact exec_answers _ _
      · exact ⟨_, rfl⟩

/-- A step of a device without power answers the state after a power-up that is at hand, and else stops for want of power. -/
theorem step_unpowered {s : State} (h : s.powered = false) : (∃ t, step s = .next t) ∨ step s = .fault .poweredOff := by
  unfold step
  simp only [h, Bool.not_false, ↓reduceIte]
  split
  · exact .inl (exec_answers _ _)
  · exact .inr rfl

end Sys2Proof.Machine
end

section
open Sys2Proof Sys2Proof.Machine

/-- Settles O58: no arm of `exec` stops, so only a step without power does. -/
theorem nothingEndsARun : Obligations.nothing_ends_a_run := by
  refine ⟨exec_answers, fun s => ⟨?_, step_powered⟩⟩
  cases h : s.powered with
  | true => obtain ⟨t, ht⟩ := step_powered h; rw [ht]; rfl
  | false =>
    obtain ⟨t, ht⟩ | ht := step_unpowered h
    · rw [ht]; rfl
    · rw [ht]; rfl
end
